-- ==== Sys2Proof/Word.lean ====
section
/-! DEFINITION. The machine's word and byte, and the plainest arithmetic on them. -/

namespace Sys2Proof

/-- A 64-bit scalar register's contents (R36). -/
abbrev Word := BitVec 64

/-- One byte of memory (R30, R49). -/
abbrev Byte := BitVec 8

end Sys2Proof
end

