-- ==== Sys2Proof/Machine/Bits.lean ====
section
/-! DEFINITION. Bit fields, sign extension and byte order of plain numbers (R29, R30). -/

namespace Sys2Proof.Machine

/-- bits(x, hi, lo) of R29 on a natural number. -/
def bits (x hi lo : Nat) : Nat := (x >>> lo) % 2 ^ (hi + 1 - lo)

/-- Bit i of a natural number. -/
def bitAt (x i : Nat) : Bool := x.testBit i

/-- The signed value of an n-bit pattern (R215). -/
def toSigned (n x : Nat) : Int :=
  if x % 2 ^ n < 2 ^ (n - 1) then (x % 2 ^ n : Nat) else (x % 2 ^ n : Nat) - (2 ^ n : Nat)

/-- The n-bit pattern of an integer, modulo 2^n (R215). -/
def ofSigned (n : Nat) (x : Int) : Nat := (x % (2 ^ n : Nat)).toNat

/-- SATn of R215: clamp to the signed range of n bits. -/
def satSigned (n : Nat) (x : Int) : Int := max (-(2 ^ (n - 1) : Nat)) (min x ((2 ^ (n - 1) : Nat) - 1))

/-- SATUn of R215: clamp to [0, 2^n - 1]. -/
def satUnsigned (n : Nat) (x : Int) : Int := max 0 (min x ((2 ^ n : Nat) - 1))

/-- The number whose element e of width w is f e, for e below n (R34: sub-position 0 lowest). -/
def pack (w : Nat) : Nat → (Nat → Nat) → Nat
  | 0, _ => 0
  | n + 1, f => pack w n f + (f n % 2 ^ w) <<< (w * n)

/-- Element e of width w of a packed number (R34). -/
def elem (r w e : Nat) : Nat := (r >>> (w * e)) % 2 ^ w

/-- The bytes of a number, lowest first (R30). -/
def toBytes (n x : Nat) : List Byte := (List.range n).map fun i => BitVec.ofNat 8 (x >>> (8 * i))

/-- The number whose bytes these are, lowest first (R30). -/
def ofBytes : List Byte → Nat
  | [] => 0
  | b :: bs => b.toNat + 256 * ofBytes bs

/-- The number of bits needed to write x: 0 for 0. -/
def bitLength (x : Nat) : Nat := if x = 0 then 0 else x.log2 + 1

/-- The number of set bits among the low n bits. -/
def popCount (n x : Nat) : Nat := (List.range n).countP fun i => x.testBit i

/-- Address arithmetic modulo 2^64 (R143). -/
def addr64 (x : Int) : Nat := (x % (2 ^ 64 : Nat)).toNat

/-- The integer square root, by one binary digit at a time from bit k down: the largest r + d whose square is at
most x. -/
def isqrtFrom (x : Nat) : Nat → Nat → Nat
  | 0, r => if (r + 1) * (r + 1) ≤ x then r + 1 else r
  | k + 1, r => isqrtFrom x k (if (r + 2 ^ (k + 1)) * (r + 2 ^ (k + 1)) ≤ x then r + 2 ^ (k + 1) else r)

/-- The integer part of the square root of x. -/
def isqrt (x : Nat) : Nat := isqrtFrom x (bitLength x / 2 + 1) 0

end Sys2Proof.Machine
end

