-- ==== Sys2Proof/Syntax.lean ====
section
/-! DEFINITION. The syntax of Typamond 9: one constructor per row of spec/opcode_table.json. Fields stand in the
table's order (from the high bit down) and hold the raw bits of the encoding; the meanings sign-extend and scale.
Rows with no encoding (the hardware's own steps, spec/95_what_each_step_holds.md) carry the operands that name
what they act on. -/

namespace Sys2Proof

/-- A vector hart, or a quad's control core (R31, R32, R50): the quad is 36*die + logical quad, 0 to 143. -/
structure AgentId where
  quad : Nat
  core : Nat
  hart : Nat
  control : Bool
deriving DecidableEq, Repr

/-- The level an advice prefetch names (R292). -/
inductive PrefetchLevel where
  | l1
  | l2
  | tc
deriving DecidableEq, Repr

/-- The four outstanding-operation counters (R41). -/
inductive OpClass where
  | ld
  | st
  | cp
  | tl
deriving DecidableEq, Repr

/-- A barrier instance (R111): context, scope code, id and place. -/
structure BarrierKey where
  ctx : BitVec 12
  scope : BitVec 3
  id : Nat
  place : Nat
deriving DecidableEq, Repr

/-- A unit that a field repair moves (R314, R315). A lane is named by its global core and logical lane, a quad by
36*die + quad, a slice by 128*die + slice. `spare` is the unit or the place that serves it from now on, none when no
spare is left; `granules` are the failing 64-byte granules of a unit that stays in service. -/
inductive RepairUnit where
  | lane (core : Nat) (lane : Nat) (spare : Option (BitVec 6))
  | quad (quad : Nat) (spare : Option (BitVec 6))
  | slice (slice : Nat) (spare : Option (BitVec 9)) (granules : List Nat)
  | hbm (part : Nat) (granules : List Nat)
  | link (part : Nat) (granules : List Nat)
deriving DecidableEq, Repr

/-- An agent that can be declared dead (R188, R316). -/
inductive DyingAgent where
  | vectorCore (quad : Nat) (core : Nat)
  | controlCore (quad : Nat)
  | copyEngine (quad : Nat) (core : Nat)
  | matrixEngine (quad : Nat)
  | collectiveEngine
  | gatherEngine (quad : Nat) (core : Nat)
  | loom (die : Nat)
  | cxlPort
deriving DecidableEq, Repr

/-- The instructions and steps of the part. -/
inductive Instr where
  /-- ADD (R97): Writes sa + sb modulo 2^64 to sd. -/
  | add (b : BitVec 5) (a : BitVec 5) (d : BitVec 5)
  /-- SUB (R97): Writes sa − sb modulo 2^64 to sd. -/
  | sub (b : BitVec 5) (a : BitVec 5) (d : BitVec 5)
  /-- AND (R97): Writes the bitwise AND of sa and sb to sd. -/
  | and (b : BitVec 5) (a : BitVec 5) (d : BitVec 5)
  /-- OR (R97): Writes the bitwise OR of sa and sb to sd. -/
  | or (b : BitVec 5) (a : BitVec 5) (d : BitVec 5)
  /-- XOR (R97): Writes the bitwise XOR of sa and sb to sd. -/
  | xor (b : BitVec 5) (a : BitVec 5) (d : BitVec 5)
  /-- SLL (R97): Shifts sa left by bits(sb, 5, 0). -/
  | sll (b : BitVec 5) (a : BitVec 5) (d : BitVec 5)
  /-- SRL (R97): Shifts sa right logically by bits(sb, 5, 0). -/
  | srl (b : BitVec 5) (a : BitVec 5) (d : BitVec 5)
  /-- SRA (R97): Shifts sa right arithmetically by bits(sb, 5, 0). -/
  | sra (b : BitVec 5) (a : BitVec 5) (d : BitVec 5)
  /-- ADDW (R97): Adds and sign-extends the low 32 bits. -/
  | addw (b : BitVec 5) (a : BitVec 5) (d : BitVec 5)
  /-- SUBW (R97): Subtracts and sign-extends the low 32 bits. -/
  | subw (b : BitVec 5) (a : BitVec 5) (d : BitVec 5)
  /-- SLLW (R97): 32-bit left shift, result sign-extended. -/
  | sllw (b : BitVec 5) (a : BitVec 5) (d : BitVec 5)
  /-- SRLW (R97): 32-bit logical right shift, result sign-extended. -/
  | srlw (b : BitVec 5) (a : BitVec 5) (d : BitVec 5)
  /-- SRAW (R97): 32-bit arithmetic right shift, result sign-extended. -/
  | sraw (b : BitVec 5) (a : BitVec 5) (d : BitVec 5)
  /-- MIN (R97): Signed minimum of sa and sb. -/
  | min (b : BitVec 5) (a : BitVec 5) (d : BitVec 5)
  /-- MAX (R97): Signed maximum of sa and sb. -/
  | max (b : BitVec 5) (a : BitVec 5) (d : BitVec 5)
  /-- MINU (R97): Unsigned minimum of sa and sb. -/
  | minu (b : BitVec 5) (a : BitVec 5) (d : BitVec 5)
  /-- MAXU (R97): Unsigned maximum of sa and sb. -/
  | maxu (b : BitVec 5) (a : BitVec 5) (d : BitVec 5)
  /-- ANDN (R97): Writes sa AND NOT sb. -/
  | andn (b : BitVec 5) (a : BitVec 5) (d : BitVec 5)
  /-- ORN (R97): Writes sa OR NOT sb. -/
  | orn (b : BitVec 5) (a : BitVec 5) (d : BitVec 5)
  /-- ADDI (R99): Adds a sign-extended 11-bit immediate to sa. -/
  | addi (i : BitVec 11) (a : BitVec 5) (d : BitVec 5)
  /-- ANDI (R99): ANDs sa with a sign-extended immediate. -/
  | andi (i : BitVec 11) (a : BitVec 5) (d : BitVec 5)
  /-- ORI (R99): ORs sa with a sign-extended immediate. -/
  | ori (i : BitVec 11) (a : BitVec 5) (d : BitVec 5)
  /-- XORI (R99): XORs sa with a sign-extended immediate. -/
  | xori (i : BitVec 11) (a : BitVec 5) (d : BitVec 5)
  /-- SLLI (R99): Shifts sa left by an immediate 0–63. -/
  | slli (i : BitVec 6) (a : BitVec 5) (d : BitVec 5)
  /-- SRLI (R99): Shifts sa right logically by an immediate. -/
  | srli (i : BitVec 6) (a : BitVec 5) (d : BitVec 5)
  /-- SRAI (R99): Shifts sa right arithmetically by an immediate. -/
  | srai (i : BitVec 6) (a : BitVec 5) (d : BitVec 5)
  /-- SHORI (R99): Writes (sa << 11) OR an unsigned 11-bit immediate. -/
  | shori (i : BitVec 11) (a : BitVec 5) (d : BitVec 5)
  /-- ADDIW (R99): Adds an immediate and sign-extends the low 32 bits. -/
  | addiw (i : BitVec 11) (a : BitVec 5) (d : BitVec 5)
  /-- MUL (R97): Low 64 bits of sa·sb. -/
  | mul (b : BitVec 5) (a : BitVec 5) (d : BitVec 5)
  /-- MULH (R97): High 64 bits of the signed product. -/
  | mulh (b : BitVec 5) (a : BitVec 5) (d : BitVec 5)
  /-- MULHU (R97): High 64 bits of the unsigned product. -/
  | mulhu (b : BitVec 5) (a : BitVec 5) (d : BitVec 5)
  /-- MULHSU (R97): High 64 bits of signed sa by unsigned sb. -/
  | mulhsu (b : BitVec 5) (a : BitVec 5) (d : BitVec 5)
  /-- DIV (R98): Signed quotient, with fixed results for zero divisor and overflow. -/
  | div (b : BitVec 5) (a : BitVec 5) (d : BitVec 5)
  /-- DIVU (R98): Unsigned quotient. -/
  | divu (b : BitVec 5) (a : BitVec 5) (d : BitVec 5)
  /-- REM (R98): Signed remainder. -/
  | rem (b : BitVec 5) (a : BitVec 5) (d : BitVec 5)
  /-- REMU (R98): Unsigned remainder. -/
  | remu (b : BitVec 5) (a : BitVec 5) (d : BitVec 5)
  /-- MULW (R97): 32-bit multiply, result sign-extended. -/
  | mulw (b : BitVec 5) (a : BitVec 5) (d : BitVec 5)
  /-- DIVW (R98): 32-bit signed divide, result sign-extended. -/
  | divw (b : BitVec 5) (a : BitVec 5) (d : BitVec 5)
  /-- REMW (R98): 32-bit signed remainder, result sign-extended. -/
  | remw (b : BitVec 5) (a : BitVec 5) (d : BitVec 5)
  /-- AUPC (R100): Sets sd to pc plus the immediate shifted left by 11. -/
  | aupc (i : BitVec 19) (d : BitVec 5)
  /-- BEQ (R101): Branches if sa equals sb. -/
  | beq (o : BitVec 11) (b : BitVec 5) (a : BitVec 5)
  /-- BNE (R101): Branches if sa differs from sb. -/
  | bne (o : BitVec 11) (b : BitVec 5) (a : BitVec 5)
  /-- BLT (R101): Branches if sa < sb signed. -/
  | blt (o : BitVec 11) (b : BitVec 5) (a : BitVec 5)
  /-- BGE (R101): Branches if sa ≥ sb signed. -/
  | bge (o : BitVec 11) (b : BitVec 5) (a : BitVec 5)
  /-- BLTU (R101): Branches if sa < sb unsigned. -/
  | bltu (o : BitVec 11) (b : BitVec 5) (a : BitVec 5)
  /-- BGEU (R101): Branches if sa ≥ sb unsigned. -/
  | bgeu (o : BitVec 11) (b : BitVec 5) (a : BitVec 5)
  /-- JAL (R102): Writes pc + 4 to sd and jumps pc-relative. -/
  | jal (i : BitVec 19) (d : BitVec 5)
  /-- JALR (R103): Jumps to sa + imm with bit 0 cleared and links; a target of 0 ends the task. -/
  | jalr (i : BitVec 11) (a : BitVec 5) (d : BitVec 5)
  /-- RET (R103): Jumps to sa with bit 0 cleared and pops the return predictor. -/
  | ret (a : BitVec 5)
  /-- SEQ (R97): Writes 1 if sa = sb. -/
  | seq (b : BitVec 5) (a : BitVec 5) (d : BitVec 5)
  /-- SNE (R97): Writes 1 if sa ≠ sb. -/
  | sne (b : BitVec 5) (a : BitVec 5) (d : BitVec 5)
  /-- SLT (R97): Writes 1 if sa < sb signed. -/
  | slt (b : BitVec 5) (a : BitVec 5) (d : BitVec 5)
  /-- SLTU (R97): Writes 1 if sa < sb unsigned. -/
  | sltu (b : BitVec 5) (a : BitVec 5) (d : BitVec 5)
  /-- CLZ (R97): Counts leading zero bits of sa. -/
  | clz (a : BitVec 5) (d : BitVec 5)
  /-- CTZ (R97): Counts trailing zero bits of sa. -/
  | ctz (a : BitVec 5) (d : BitVec 5)
  /-- CPOP (R97): Counts set bits of sa. -/
  | cpop (a : BitVec 5) (d : BitVec 5)
  /-- REV8 (R97): Reverses the bytes of sa. -/
  | rev8 (a : BitVec 5) (d : BitVec 5)
  /-- BEXT (R97): Packs the bits of sa selected by sb. -/
  | bext (b : BitVec 5) (a : BitVec 5) (d : BitVec 5)
  /-- BDEP (R97): Deposits low bits of sa at positions selected by sb. -/
  | bdep (b : BitVec 5) (a : BitVec 5) (d : BitVec 5)
  /-- ROTL (R97): Rotates sa left. -/
  | rotl (b : BitVec 5) (a : BitVec 5) (d : BitVec 5)
  /-- ROTR (R97): Rotates sa right. -/
  | rotr (b : BitVec 5) (a : BitVec 5) (d : BitVec 5)
  /-- LDB (R140): Loads a signed byte. -/
  | ldb (i : BitVec 7) (c : BitVec 4) (b : BitVec 5) (d : BitVec 5)
  /-- LDH (R140): Loads a signed halfword. -/
  | ldh (i : BitVec 7) (c : BitVec 4) (b : BitVec 5) (d : BitVec 5)
  /-- LDW (R140): Loads a signed word. -/
  | ldw (i : BitVec 7) (c : BitVec 4) (b : BitVec 5) (d : BitVec 5)
  /-- LDD (R140): Loads a doubleword. -/
  | ldd (i : BitVec 7) (c : BitVec 4) (b : BitVec 5) (d : BitVec 5)
  /-- LDBU (R140): Loads an unsigned byte. -/
  | ldbu (i : BitVec 7) (c : BitVec 4) (b : BitVec 5) (d : BitVec 5)
  /-- LDHU (R140): Loads an unsigned halfword. -/
  | ldhu (i : BitVec 7) (c : BitVec 4) (b : BitVec 5) (d : BitVec 5)
  /-- LDWU (R140): Loads an unsigned word. -/
  | ldwu (i : BitVec 7) (c : BitVec 4) (b : BitVec 5) (d : BitVec 5)
  /-- STB (R140): Stores a byte. -/
  | stb (i : BitVec 7) (c : BitVec 4) (b : BitVec 5) (s : BitVec 5)
  /-- STH (R140): Stores a halfword. -/
  | sth (i : BitVec 7) (c : BitVec 4) (b : BitVec 5) (s : BitVec 5)
  /-- STW (R140): Stores a word. -/
  | stw (i : BitVec 7) (c : BitVec 4) (b : BitVec 5) (s : BitVec 5)
  /-- STD (R140): Stores a doubleword. -/
  | std (i : BitVec 7) (c : BitVec 4) (b : BitVec 5) (s : BitVec 5)
  /-- AMOSWAP (R141): Atomically swaps the doubleword with sb. -/
  | amoswap (c : BitVec 4) (b : BitVec 5) (a : BitVec 5) (d : BitVec 5)
  /-- AMOADD (R141): Atomically adds sb to the doubleword. -/
  | amoadd (c : BitVec 4) (b : BitVec 5) (a : BitVec 5) (d : BitVec 5)
  /-- AMOAND (R141): Atomic AND of the doubleword. -/
  | amoand (c : BitVec 4) (b : BitVec 5) (a : BitVec 5) (d : BitVec 5)
  /-- AMOOR (R141): Atomic OR of the doubleword. -/
  | amoor (c : BitVec 4) (b : BitVec 5) (a : BitVec 5) (d : BitVec 5)
  /-- AMOXOR (R141): Atomic XOR of the doubleword. -/
  | amoxor (c : BitVec 4) (b : BitVec 5) (a : BitVec 5) (d : BitVec 5)
  /-- AMOMIN (R141): Atomic signed minimum. -/
  | amomin (c : BitVec 4) (b : BitVec 5) (a : BitVec 5) (d : BitVec 5)
  /-- AMOMAX (R141): Atomic signed maximum. -/
  | amomax (c : BitVec 4) (b : BitVec 5) (a : BitVec 5) (d : BitVec 5)
  /-- AMOMINU (R141): Atomic unsigned minimum. -/
  | amominu (c : BitVec 4) (b : BitVec 5) (a : BitVec 5) (d : BitVec 5)
  /-- AMOMAXU (R141): Atomic unsigned maximum. -/
  | amomaxu (c : BitVec 4) (b : BitVec 5) (a : BitVec 5) (d : BitVec 5)
  /-- AMOCAS (R141): Atomic compare-and-swap against s[sd]. -/
  | amocas (c : BitVec 4) (b : BitVec 5) (a : BitVec 5) (d : BitVec 5)
  /-- LR (R142): Loads a doubleword and sets the reservation on its 64-byte block. -/
  | lr (c : BitVec 4) (a : BitVec 5) (d : BitVec 5)
  /-- SC (R142): Stores if the reservation holds and writes 0 or 1. -/
  | sc (c : BitVec 4) (b : BitVec 5) (a : BitVec 5) (d : BitVec 5)
  /-- AMOSWAP_W (R141): 32-bit atomic swap. -/
  | amoswapW (c : BitVec 4) (b : BitVec 5) (a : BitVec 5) (d : BitVec 5)
  /-- AMOADD_W (R141): 32-bit atomic add. -/
  | amoaddW (c : BitVec 4) (b : BitVec 5) (a : BitVec 5) (d : BitVec 5)
  /-- AMOAND_W (R141): 32-bit atomic AND. -/
  | amoandW (c : BitVec 4) (b : BitVec 5) (a : BitVec 5) (d : BitVec 5)
  /-- AMOOR_W (R141): 32-bit atomic OR. -/
  | amoorW (c : BitVec 4) (b : BitVec 5) (a : BitVec 5) (d : BitVec 5)
  /-- AMOXOR_W (R141): 32-bit atomic XOR. -/
  | amoxorW (c : BitVec 4) (b : BitVec 5) (a : BitVec 5) (d : BitVec 5)
  /-- AMOMIN_W (R141): 32-bit atomic signed minimum. -/
  | amominW (c : BitVec 4) (b : BitVec 5) (a : BitVec 5) (d : BitVec 5)
  /-- AMOMAX_W (R141): 32-bit atomic signed maximum. -/
  | amomaxW (c : BitVec 4) (b : BitVec 5) (a : BitVec 5) (d : BitVec 5)
  /-- AMOMINU_W (R141): 32-bit atomic unsigned minimum. -/
  | amominuW (c : BitVec 4) (b : BitVec 5) (a : BitVec 5) (d : BitVec 5)
  /-- AMOMAXU_W (R141): 32-bit atomic unsigned maximum. -/
  | amomaxuW (c : BitVec 4) (b : BitVec 5) (a : BitVec 5) (d : BitVec 5)
  /-- AMOCAS_W (R141): 32-bit atomic compare-and-swap. -/
  | amocasW (c : BitVec 4) (b : BitVec 5) (a : BitVec 5) (d : BitVec 5)
  /-- LR_W (R142): Loads a word sign-extended and sets the reservation. -/
  | lrW (c : BitVec 4) (a : BitVec 5) (d : BitVec 5)
  /-- SC_W (R142): Stores a word under the reservation. -/
  | scW (c : BitVec 4) (b : BitVec 5) (a : BitVec 5) (d : BitVec 5)
  /-- SETVL (R106): Applies any pending split, grants vl and vl.pad and writes vt. -/
  | setvl (p : BitVec 1) (t : BitVec 2) (b : BitVec 2) (f : BitVec 4) (a : BitVec 5) (d : BitVec 5)
  /-- SETSW (R107): Swaps the strip width register with fields of sa. -/
  | setsw (a : BitVec 5) (d : BitVec 5)
  /-- GETVT (R107): Reads vt into sd. -/
  | getvt (d : BitVec 5)
  /-- GETSW (R107): Reads sw into sd. -/
  | getsw (d : BitVec 5)
  /-- SETRM (R107): Swaps vt.rnd with bits of sa. -/
  | setrm (a : BitVec 5) (d : BitVec 5)
  /-- STRIP (R108): Subtracts the granted length, advances pointers, grants the next strip and branches back while count remains. -/
  | strip (o : BitVec 10) (n : BitVec 2) (p : BitVec 5) (c : BitVec 5)
  /-- WAITC (R109): Holds the hart until each outstanding counter is at or below its count. -/
  | waitc (t : BitVec 4) (c : BitVec 4) (s : BitVec 4) (l : BitVec 4)
  /-- FENCE_C (R110): Orders earlier accesses of class range B before later ones of range A at a scope. -/
  | fenceC (s : BitVec 3) (w : BitVec 4) (x : BitVec 4) (y : BitVec 4) (z : BitVec 4)
  /-- FENCE_C_REG (R110): Class-mask fence taking the class sets from a register. -/
  | fenceCReg (s : BitVec 3) (a : BitVec 5)
  /-- BAR (R113): Arrives at a barrier instance and waits for its phase release. -/
  | bar (s : BitVec 3) (i : BitVec 6) (a : BitVec 5)
  /-- BAR_W (R113): Waits until a named barrier phase is released, without arriving. -/
  | barW (s : BitVec 3) (i : BitVec 6) (a : BitVec 5)
  /-- ARRIVE (R113): Arrives at a barrier and writes the joined phase number without waiting. -/
  | arrive (s : BitVec 3) (i : BitVec 6) (a : BitVec 5) (d : BitVec 5)
  /-- IPOST (R115): Raises a shuttle channel to max(channel, s[sa]) after releasing named classes at die scope. -/
  | ipost (h : BitVec 4) (l : BitVec 4) (c : BitVec 3) (a : BitVec 5)
  /-- IWAIT (R115): Waits until a shuttle channel reaches s[sa] and acquires named classes. -/
  | iwait (h : BitVec 4) (l : BitVec 4) (c : BitVec 3) (a : BitVec 5)
  /-- MARK (R116): Sets the mark register and delivers the ordinal to the hart's advice context. -/
  | mark (k : BitVec 12)
  /-- LAUNCH (R117): Releases masked classes at die scope, appends a job record to a QCB and writes the job id or 0. -/
  | launch (c : BitVec 5) (b : BitVec 5) (a : BitVec 5) (d : BitVec 5)
  /-- YIELD (R118): Makes the hart not ready for max(n, 1) ac and restarts its urgency count. -/
  | yield (n : BitVec 8)
  /-- GETC (R276): Reads a system register at an index into sd. -/
  | getc (i : BitVec 11) (a : BitVec 5) (d : BitVec 5)
  /-- SETC (R276): Writes s[sa] to a system register at index s[si] after package-scope release. -/
  | setc (i : BitVec 11) (a : BitVec 5) (j : BitVec 5)
  /-- TRAP (R278): Raises the software trap carrying n. -/
  | trap (n : BitVec 11)
  /-- ERET (R303): Returns from a trap to trap.pc and trap.elem and clears busy. -/
  | eret
  /-- TLBINV (R278): Raises a context's generation and removes named translations package-wide. -/
  | tlbinv (a : BitVec 5) (s : BitVec 5)
  /-- TLBSYNC (R275): Waits until every access translated under an older generation of the context is performed. -/
  | tlbsync (a : BitVec 5)
  /-- ILOCK (R181): Locks lines of the quad instruction cache within quotas and writes the count. -/
  | ilock (n : BitVec 10) (a : BitVec 5) (d : BitVec 5)
  /-- IUNLOCK (R278): Releases locked instruction-cache lines and writes the count. -/
  | iunlock (n : BitVec 10) (a : BitVec 5) (d : BitVec 5)
  /-- FENCE_I (R278): Waits for earlier stores, invalidates fetched code and refetches locked lines. -/
  | fenceI
  /-- VLD (R143): Unit-stride vector load. -/
  | vld (c : BitVec 4) (m : BitVec 3) (b : BitVec 5) (d : BitVec 6)
  /-- VLDS (R143): Strided vector load. -/
  | vlds (c : BitVec 4) (m : BitVec 3) (s : BitVec 5) (b : BitVec 5) (d : BitVec 6)
  /-- VGATHER (R143): Indexed vector load. -/
  | vgather (c : BitVec 4) (m : BitVec 3) (x : BitVec 6) (b : BitVec 5) (d : BitVec 6)
  /-- VLDFF (R145): Fault-only-first load that trims vl at the first failing element after the first. -/
  | vldff (c : BitVec 4) (m : BitVec 3) (b : BitVec 5) (d : BitVec 6)
  /-- VST (R143): Unit-stride vector store. -/
  | vst (c : BitVec 4) (m : BitVec 3) (b : BitVec 5) (s : BitVec 6)
  /-- VSTS (R143): Strided vector store. -/
  | vsts (c : BitVec 4) (m : BitVec 3) (x : BitVec 5) (b : BitVec 5) (s : BitVec 6)
  /-- VSCATTER (R143): Indexed vector store. -/
  | vscatter (c : BitVec 4) (m : BitVec 3) (x : BitVec 6) (b : BitVec 5) (s : BitVec 6)
  /-- VAMO_ADD (R146): Atomic scatter-add, free-summation for floats. -/
  | vamoAdd (m : BitVec 3) (x : BitVec 6) (b : BitVec 5) (s : BitVec 6)
  /-- VAMO_MIN (R146): Atomic scatter-min. -/
  | vamoMin (m : BitVec 3) (x : BitVec 6) (b : BitVec 5) (s : BitVec 6)
  /-- VAMO_MAX (R146): Atomic scatter-max. -/
  | vamoMax (m : BitVec 3) (x : BitVec 6) (b : BitVec 5) (s : BitVec 6)
  /-- VAMO_AND (R146): Atomic scatter-AND. -/
  | vamoAnd (m : BitVec 3) (x : BitVec 6) (b : BitVec 5) (s : BitVec 6)
  /-- VAMO_OR (R146): Atomic scatter-OR. -/
  | vamoOr (m : BitVec 3) (x : BitVec 6) (b : BitVec 5) (s : BitVec 6)
  /-- VAMO_XOR (R146): Atomic scatter-XOR. -/
  | vamoXor (m : BitVec 3) (x : BitVec 6) (b : BitVec 5) (s : BitVec 6)
  /-- VAMO_SWAP (R146): Atomic scatter-swap. -/
  | vamoSwap (m : BitVec 3) (x : BitVec 6) (b : BitVec 5) (s : BitVec 6)
  /-- DAMO_ADD (R147): Deterministic scatter-add: sends merged contributions and close tokens to ordered-reduction units. -/
  | damoAdd (m : BitVec 3) (x : BitVec 6) (b : BitVec 5) (s : BitVec 6)
  /-- LSLD (R150): Unit-stride local-store load. -/
  | lsld (m : BitVec 3) (b : BitVec 5) (d : BitVec 6)
  /-- LSLDS (R150): Strided local-store load. -/
  | lslds (m : BitVec 3) (s : BitVec 5) (b : BitVec 5) (d : BitVec 6)
  /-- LSGATHER (R150): Indexed local-store load. -/
  | lsgather (m : BitVec 3) (x : BitVec 6) (b : BitVec 5) (d : BitVec 6)
  /-- LSLDQ (R150): 128-bit local-store load into a register pair. -/
  | lsldq (m : BitVec 3) (s : BitVec 5) (b : BitVec 5) (d : BitVec 6)
  /-- LSST (R150): Unit-stride local-store store. -/
  | lsst (m : BitVec 3) (b : BitVec 5) (d : BitVec 6)
  /-- LSSTS (R150): Strided local-store store. -/
  | lssts (m : BitVec 3) (s : BitVec 5) (b : BitVec 5) (d : BitVec 6)
  /-- LSSCATTER (R150): Indexed local-store store. -/
  | lsscatter (m : BitVec 3) (x : BitVec 6) (b : BitVec 5) (d : BitVec 6)
  /-- LSSTQ (R150): 128-bit local-store store from a register pair. -/
  | lsstq (m : BitVec 3) (s : BitVec 5) (b : BitVec 5) (d : BitVec 6)
  /-- COPY_CFG (R153): Issues a copy from a descriptor, takes destination ownership, binds a handle and stream. -/
  | copyCfg (c : BitVec 4) (q : BitVec 3) (h : BitVec 5) (a : BitVec 5)
  /-- QBIND (R156): Binds a stream register to a handle's stream. -/
  | qbind (q : BitVec 3) (h : BitVec 5)
  /-- QUNBIND (R156): Unbinds a stream register, keeping the copy. -/
  | qunbind (q : BitVec 3)
  /-- HWAIT_SRC (R156): Waits until a handle leaves filling. -/
  | hwaitSrc (h : BitVec 5)
  /-- HWAIT_VIS (R156): Waits until a copy's destination is visible at a scope. -/
  | hwaitVis (s : BitVec 3) (h : BitVec 5)
  /-- HREL (R157): Returns a handle to free at once, discarding or keeping writes by kind. -/
  | hrel (h : BitVec 5)
  /-- HSTATE (R157): Writes a handle's state, kind, binding and remaining count. -/
  | hstate (h : BitVec 5) (d : BitVec 5)
  /-- VPUSH (R159): Pushes a run of vector registers into another hart's registers. -/
  | vpush (c : BitVec 4) (b : BitVec 5) (n : BitVec 6) (f : BitVec 6)
  /-- XRED_O (R160): Ordered collective reduction across group members. -/
  | xredO (c : BitVec 4) (b : BitVec 5) (n : BitVec 6) (f : BitVec 6)
  /-- XRED_F (R160): Free-tree collective reduction across group members. -/
  | xredF (c : BitVec 4) (b : BitVec 5) (n : BitVec 6) (f : BitVec 6)
  /-- TREG (R172): Registers a tensor descriptor in the tile cache and reports the result. -/
  | treg (c : BitVec 4) (i : BitVec 5) (b : BitVec 5) (d : BitVec 5)
  /-- TUNREG (R173): Writes back and drops a tensor's tiles and frees its identifier. -/
  | tunreg (i : BitVec 5) (d : BitVec 5)
  /-- TLOOK (R174): Writes a snapshot of a tile's address and presence. -/
  | tlook (c : BitVec 5) (i : BitVec 5) (d : BitVec 5)
  /-- TFETCH (R175): Prefetches a tile and selected neighbours into the tile cache. -/
  | tfetch (c : BitVec 5) (i : BitVec 5)
  /-- THALO (R177): Copies a tile with a halo into the hart's local store. -/
  | thalo (k : BitVec 4) (c : BitVec 5) (i : BitVec 5) (d : BitVec 5)
  /-- TINV (R173): Writes back and drops a tensor's tiles, keeping the registration. -/
  | tinv (i : BitVec 5) (d : BitVec 5)
  /-- TKEEP (R176): Marks or releases keeps on tiles within the quota. -/
  | tkeep (c : BitVec 5) (i : BitVec 5) (d : BitVec 5)
  /-- XBEGIN_E (R199): Begins an elastic atomic region with a checkpoint. -/
  | xbeginE (s : BitVec 4) (d : BitVec 5)
  /-- XBEGIN_S (R199): Begins a strict atomic region with a checkpoint. -/
  | xbeginS (s : BitVec 4) (d : BitVec 5)
  /-- XEND (R194): Waits for the region's accesses and narrowings and asks the arbiter to commit. -/
  | xend (d : BitVec 5)
  /-- XABORT (R200): Aborts the region with a user code. -/
  | xabort (a : BitVec 5)
  /-- XBND_LO (R200): Reads eb.lo. -/
  | xbndLo (d : BitVec 5)
  /-- XBND_HI (R200): Reads eb.hi. -/
  | xbndHi (d : BitVec 5)
  /-- XBND (R200): Narrows the elastic interval and writes its width. -/
  | xbnd (b : BitVec 5) (a : BitVec 5) (d : BitVec 5)
  /-- SCLAIM (R186): Registers a strided claim in every home slice of its range, or reports why not. -/
  | sclaim (b : BitVec 5) (a : BitVec 5) (d : BitVec 5)
  /-- SREL (R187): Releases one of the hart's claims. -/
  | srel (a : BitVec 5)
  /-- OCLAIM (R252): Claims an operand slot, waiting until its state allows. -/
  | oclaim (n : BitVec 5)
  /-- OREL (R252): Releases an operand slot to full or free once earlier uses finish. -/
  | orel (n : BitVec 5)
  /-- OPUT (R264): Writes vector elements into a held slot. -/
  | oput (c : BitVec 4) (a : BitVec 5) (n : BitVec 5) (v : BitVec 6)
  /-- ACCGET (R265): Reads a run of accumulator cells into a vector. -/
  | accget (c : BitVec 4) (a : BitVec 5) (v : BitVec 6)
  /-- ACCPUT (R266): Writes vector elements into accumulator cells. -/
  | accput (c : BitVec 4) (a : BitVec 5) (v : BitVec 6)
  /-- ACCSTORE (R267): Copies an accumulator window to memory through the engine. -/
  | accstore (c : BitVec 4) (a : BitVec 5)
  /-- SCLD_A (R262): Loads activation scales into a scale line. -/
  | scldA (c : BitVec 4) (a : BitVec 5) (s : BitVec 5) (p : BitVec 6)
  /-- SCLD_W (R262): Loads a weight scale into a scale line. -/
  | scldW (c : BitVec 4) (a : BitVec 5) (s : BitVec 5)
  /-- MMA_O (R257): Ordered matrix multiply-accumulate into an accumulator window. -/
  | mmaO (sc : BitVec 6) (kc : BitVec 7) (fmt : BitVec 4) (col0 row0 : BitVec 8) (slotB slotA : BitVec 6)
  /-- MMA_F (R257): Free-tree matrix multiply-accumulate into an accumulator window. -/
  | mmaF (sc : BitVec 6) (kc : BitVec 7) (fmt : BitVec 4) (col0 row0 : BitVec 8) (slotB slotA : BitVec 6)
  /-- ACCZ (R260): Zeroes an accumulator window. -/
  | accz (fmt : BitVec 4) (col0 row0 : BitVec 8)
  /-- ACCRD_S (R261): Reads one cell after earlier tile operations on it complete. -/
  | accrdS (d : BitVec 5) (fmt : BitVec 4) (col0 row0 : BitVec 8)
  /-- ACCRD_P (R261): Reads one cell without waiting, possibly partial. -/
  | accrdP (d : BitVec 5) (fmt : BitVec 4) (col0 row0 : BitVec 8)
  /-- TSCL (R263): Rescales a 128 × 128 FP32 window by a scale line. -/
  | tscl (sc : BitVec 6) (col0 row0 : BitVec 8)
  /-- VADD (R232): Elementwise integer add. -/
  | vadd (m : BitVec 4) (b : BitVec 6) (a : BitVec 6) (d : BitVec 6)
  /-- VSUB (R232): Elementwise integer subtract. -/
  | vsub (m : BitVec 4) (b : BitVec 6) (a : BitVec 6) (d : BitVec 6)
  /-- VRSUB (R232): Elementwise reverse subtract. -/
  | vrsub (m : BitVec 4) (b : BitVec 6) (a : BitVec 6) (d : BitVec 6)
  /-- VMUL (R232): Elementwise integer multiply, low bits. -/
  | vmul (m : BitVec 4) (b : BitVec 6) (a : BitVec 6) (d : BitVec 6)
  /-- VMULH (R232): Elementwise signed multiply, high bits. -/
  | vmulh (m : BitVec 4) (b : BitVec 6) (a : BitVec 6) (d : BitVec 6)
  /-- VMULHU (R232): Elementwise unsigned multiply, high bits. -/
  | vmulhu (m : BitVec 4) (b : BitVec 6) (a : BitVec 6) (d : BitVec 6)
  /-- VDIV (R233): Elementwise signed divide. -/
  | vdiv (m : BitVec 4) (b : BitVec 6) (a : BitVec 6) (d : BitVec 6)
  /-- VDIVU (R233): Elementwise unsigned divide. -/
  | vdivu (m : BitVec 4) (b : BitVec 6) (a : BitVec 6) (d : BitVec 6)
  /-- VREM (R233): Elementwise signed remainder. -/
  | vrem (m : BitVec 4) (b : BitVec 6) (a : BitVec 6) (d : BitVec 6)
  /-- VREMU (R233): Elementwise unsigned remainder. -/
  | vremu (m : BitVec 4) (b : BitVec 6) (a : BitVec 6) (d : BitVec 6)
  /-- VAND (R232): Elementwise AND. -/
  | vand (m : BitVec 4) (b : BitVec 6) (a : BitVec 6) (d : BitVec 6)
  /-- VOR (R232): Elementwise OR. -/
  | vor (m : BitVec 4) (b : BitVec 6) (a : BitVec 6) (d : BitVec 6)
  /-- VXOR (R232): Elementwise XOR. -/
  | vxor (m : BitVec 4) (b : BitVec 6) (a : BitVec 6) (d : BitVec 6)
  /-- VSLL (R232): Elementwise left shift. -/
  | vsll (m : BitVec 4) (b : BitVec 6) (a : BitVec 6) (d : BitVec 6)
  /-- VSRL (R232): Elementwise logical right shift. -/
  | vsrl (m : BitVec 4) (b : BitVec 6) (a : BitVec 6) (d : BitVec 6)
  /-- VSRA (R232): Elementwise arithmetic right shift. -/
  | vsra (m : BitVec 4) (b : BitVec 6) (a : BitVec 6) (d : BitVec 6)
  /-- VMIN (R232): Elementwise signed minimum. -/
  | vmin (m : BitVec 4) (b : BitVec 6) (a : BitVec 6) (d : BitVec 6)
  /-- VMAX (R232): Elementwise signed maximum. -/
  | vmax (m : BitVec 4) (b : BitVec 6) (a : BitVec 6) (d : BitVec 6)
  /-- VMINU (R232): Elementwise unsigned minimum. -/
  | vminu (m : BitVec 4) (b : BitVec 6) (a : BitVec 6) (d : BitVec 6)
  /-- VMAXU (R232): Elementwise unsigned maximum. -/
  | vmaxu (m : BitVec 4) (b : BitVec 6) (a : BitVec 6) (d : BitVec 6)
  /-- VSADD (R232): Elementwise signed saturating add. -/
  | vsadd (m : BitVec 4) (b : BitVec 6) (a : BitVec 6) (d : BitVec 6)
  /-- VSADDU (R232): Elementwise unsigned saturating add. -/
  | vsaddu (m : BitVec 4) (b : BitVec 6) (a : BitVec 6) (d : BitVec 6)
  /-- VSSUB (R232): Elementwise signed saturating subtract. -/
  | vssub (m : BitVec 4) (b : BitVec 6) (a : BitVec 6) (d : BitVec 6)
  /-- VSSUBU (R232): Elementwise unsigned saturating subtract. -/
  | vssubu (m : BitVec 4) (b : BitVec 6) (a : BitVec 6) (d : BitVec 6)
  /-- VSEQ (R232): Compares equal into a mask. -/
  | vseq (m : BitVec 4) (b : BitVec 6) (a : BitVec 6) (d : BitVec 6)
  /-- VSNE (R232): Compares not equal into a mask. -/
  | vsne (m : BitVec 4) (b : BitVec 6) (a : BitVec 6) (d : BitVec 6)
  /-- VSLT (R232): Compares signed less-than into a mask. -/
  | vslt (m : BitVec 4) (b : BitVec 6) (a : BitVec 6) (d : BitVec 6)
  /-- VSLTU (R232): Compares unsigned less-than into a mask. -/
  | vsltu (m : BitVec 4) (b : BitVec 6) (a : BitVec 6) (d : BitVec 6)
  /-- VSLE (R232): Compares signed less-or-equal into a mask. -/
  | vsle (m : BitVec 4) (b : BitVec 6) (a : BitVec 6) (d : BitVec 6)
  /-- VSLEU (R232): Compares unsigned less-or-equal into a mask. -/
  | vsleu (m : BitVec 4) (b : BitVec 6) (a : BitVec 6) (d : BitVec 6)
  /-- VMERGE (R232): Selects elements of vb or va by the mask. -/
  | vmerge (m : BitVec 4) (b : BitVec 6) (a : BitVec 6) (d : BitVec 6)
  /-- VAVG (R232): Elementwise average rounded towards −∞. -/
  | vavg (m : BitVec 4) (b : BitVec 6) (a : BitVec 6) (d : BitVec 6)
  /-- VFADD (R234): Elementwise floating add. -/
  | vfadd (m : BitVec 4) (b : BitVec 6) (a : BitVec 6) (d : BitVec 6)
  /-- VFSUB (R234): Elementwise floating subtract. -/
  | vfsub (m : BitVec 4) (b : BitVec 6) (a : BitVec 6) (d : BitVec 6)
  /-- VFMUL (R234): Elementwise floating multiply. -/
  | vfmul (m : BitVec 4) (b : BitVec 6) (a : BitVec 6) (d : BitVec 6)
  /-- VFDIV (R234): Elementwise floating divide. -/
  | vfdiv (m : BitVec 4) (b : BitVec 6) (a : BitVec 6) (d : BitVec 6)
  /-- VFMIN (R235): Elementwise floating minimum. -/
  | vfmin (m : BitVec 4) (b : BitVec 6) (a : BitVec 6) (d : BitVec 6)
  /-- VFMAX (R235): Elementwise floating maximum. -/
  | vfmax (m : BitVec 4) (b : BitVec 6) (a : BitVec 6) (d : BitVec 6)
  /-- VFSGNJ (R234): Sign injection from vb. -/
  | vfsgnj (m : BitVec 4) (b : BitVec 6) (a : BitVec 6) (d : BitVec 6)
  /-- VFSGNJN (R234): Negated sign injection. -/
  | vfsgnjn (m : BitVec 4) (b : BitVec 6) (a : BitVec 6) (d : BitVec 6)
  /-- VFSGNJX (R234): XOR sign injection. -/
  | vfsgnjx (m : BitVec 4) (b : BitVec 6) (a : BitVec 6) (d : BitVec 6)
  /-- VFEQ (R235): Floating equal compare into a mask. -/
  | vfeq (m : BitVec 4) (b : BitVec 6) (a : BitVec 6) (d : BitVec 6)
  /-- VFNE (R235): Floating not-equal compare into a mask. -/
  | vfne (m : BitVec 4) (b : BitVec 6) (a : BitVec 6) (d : BitVec 6)
  /-- VFLT (R235): Floating less-than compare into a mask. -/
  | vflt (m : BitVec 4) (b : BitVec 6) (a : BitVec 6) (d : BitVec 6)
  /-- VFLE (R235): Floating less-or-equal compare into a mask. -/
  | vfle (m : BitVec 4) (b : BitVec 6) (a : BitVec 6) (d : BitVec 6)
  /-- VFMERGE (R234): Selects floating elements by the mask, bits unchanged. -/
  | vfmerge (m : BitVec 4) (b : BitVec 6) (a : BitVec 6) (d : BitVec 6)
  /-- VADDS (R237): Adds a scalar to each element. -/
  | vadds (m : BitVec 4) (s : BitVec 5) (a : BitVec 6) (d : BitVec 6)
  /-- VSUBS (R237): Subtracts a scalar from each element. -/
  | vsubs (m : BitVec 4) (s : BitVec 5) (a : BitVec 6) (d : BitVec 6)
  /-- VRSUBS (R237): Subtracts each element from a scalar. -/
  | vrsubs (m : BitVec 4) (s : BitVec 5) (a : BitVec 6) (d : BitVec 6)
  /-- VMULS (R237): Multiplies each element by a scalar. -/
  | vmuls (m : BitVec 4) (s : BitVec 5) (a : BitVec 6) (d : BitVec 6)
  /-- VANDS (R237): ANDs each element with a scalar. -/
  | vands (m : BitVec 4) (s : BitVec 5) (a : BitVec 6) (d : BitVec 6)
  /-- VORS (R237): ORs each element with a scalar. -/
  | vors (m : BitVec 4) (s : BitVec 5) (a : BitVec 6) (d : BitVec 6)
  /-- VXORS (R237): XORs each element with a scalar. -/
  | vxors (m : BitVec 4) (s : BitVec 5) (a : BitVec 6) (d : BitVec 6)
  /-- VSLLS (R237): Shifts each element left by a scalar. -/
  | vslls (m : BitVec 4) (s : BitVec 5) (a : BitVec 6) (d : BitVec 6)
  /-- VSRLS (R237): Shifts each element right logically by a scalar. -/
  | vsrls (m : BitVec 4) (s : BitVec 5) (a : BitVec 6) (d : BitVec 6)
  /-- VSRAS (R237): Shifts each element right arithmetically by a scalar. -/
  | vsras (m : BitVec 4) (s : BitVec 5) (a : BitVec 6) (d : BitVec 6)
  /-- VMINS (R237): Signed minimum with a scalar. -/
  | vmins (m : BitVec 4) (s : BitVec 5) (a : BitVec 6) (d : BitVec 6)
  /-- VMAXS (R237): Signed maximum with a scalar. -/
  | vmaxs (m : BitVec 4) (s : BitVec 5) (a : BitVec 6) (d : BitVec 6)
  /-- VSEQS (R237): Compares each element equal to a scalar into a mask. -/
  | vseqs (m : BitVec 4) (s : BitVec 5) (a : BitVec 6) (d : BitVec 6)
  /-- VSLTS (R237): Compares each element less than a scalar into a mask. -/
  | vslts (m : BitVec 4) (s : BitVec 5) (a : BitVec 6) (d : BitVec 6)
  /-- VSGTS (R237): Compares each element greater than a scalar into a mask. -/
  | vsgts (m : BitVec 4) (s : BitVec 5) (a : BitVec 6) (d : BitVec 6)
  /-- VMVS (R237): Broadcasts a scalar to active elements. -/
  | vmvs (m : BitVec 4) (s : BitVec 5) (d : BitVec 6)
  /-- VFADDS (R237): Floating add of a rounded scalar. -/
  | vfadds (m : BitVec 4) (s : BitVec 5) (a : BitVec 6) (d : BitVec 6)
  /-- VFSUBS (R237): Floating subtract of a scalar. -/
  | vfsubs (m : BitVec 4) (s : BitVec 5) (a : BitVec 6) (d : BitVec 6)
  /-- VFRSUBS (R237): Floating scalar minus element. -/
  | vfrsubs (m : BitVec 4) (s : BitVec 5) (a : BitVec 6) (d : BitVec 6)
  /-- VFMULS (R237): Floating multiply by a scalar. -/
  | vfmuls (m : BitVec 4) (s : BitVec 5) (a : BitVec 6) (d : BitVec 6)
  /-- VFDIVS (R237): Floating divide by a scalar. -/
  | vfdivs (m : BitVec 4) (s : BitVec 5) (a : BitVec 6) (d : BitVec 6)
  /-- VFRDIVS (R237): Floating scalar divided by element. -/
  | vfrdivs (m : BitVec 4) (s : BitVec 5) (a : BitVec 6) (d : BitVec 6)
  /-- VFMINS (R237): Floating minimum with a scalar. -/
  | vfmins (m : BitVec 4) (s : BitVec 5) (a : BitVec 6) (d : BitVec 6)
  /-- VFMAXS (R237): Floating maximum with a scalar. -/
  | vfmaxs (m : BitVec 4) (s : BitVec 5) (a : BitVec 6) (d : BitVec 6)
  /-- VFEQS (R237): Floating equal compare with a scalar into a mask. -/
  | vfeqs (m : BitVec 4) (s : BitVec 5) (a : BitVec 6) (d : BitVec 6)
  /-- VFLTS (R237): Floating less-than compare with a scalar into a mask. -/
  | vflts (m : BitVec 4) (s : BitVec 5) (a : BitVec 6) (d : BitVec 6)
  /-- VFGTS (R237): Floating greater-than compare with a scalar into a mask. -/
  | vfgts (m : BitVec 4) (s : BitVec 5) (a : BitVec 6) (d : BitVec 6)
  /-- VFMVS (R237): Broadcasts a rounded floating scalar to active elements. -/
  | vfmvs (m : BitVec 4) (s : BitVec 5) (d : BitVec 6)
  /-- VMV (R238): Copies elements unchanged. -/
  | vmv (m : BitVec 4) (a : BitVec 6) (d : BitVec 6)
  /-- VNOT (R238): Elementwise NOT. -/
  | vnot (m : BitVec 4) (a : BitVec 6) (d : BitVec 6)
  /-- VABS (R238): Elementwise integer absolute value. -/
  | vabs (m : BitVec 4) (a : BitVec 6) (d : BitVec 6)
  /-- VNEG (R238): Elementwise integer negation. -/
  | vneg (m : BitVec 4) (a : BitVec 6) (d : BitVec 6)
  /-- VFABS (R238): Clears the sign bit. -/
  | vfabs (m : BitVec 4) (a : BitVec 6) (d : BitVec 6)
  /-- VFNEG (R238): Inverts the sign bit. -/
  | vfneg (m : BitVec 4) (a : BitVec 6) (d : BitVec 6)
  /-- VFSQRT (R238): Elementwise rounded square root. -/
  | vfsqrt (m : BitVec 4) (a : BitVec 6) (d : BitVec 6)
  /-- VFRECIP (R238): Correctly rounded reciprocal. -/
  | vfrecip (m : BitVec 4) (a : BitVec 6) (d : BitVec 6)
  /-- VFRSQRT (R238): Correctly rounded reciprocal square root. -/
  | vfrsqrt (m : BitVec 4) (a : BitVec 6) (d : BitVec 6)
  /-- VFCLASS (R239): Writes a one-hot class of each floating element. -/
  | vfclass (m : BitVec 4) (a : BitVec 6) (d : BitVec 6)
  /-- VCVT (R240): Converts elements from a source format to vt.fmt. -/
  | vcvt (f : BitVec 4) (m : BitVec 4) (a : BitVec 6) (d : BitVec 6)
  /-- VQUANT (R241): Quantises f32 blocks to FP8 and writes block scales. -/
  | vquant (m : BitVec 4) (a : BitVec 6) (d : BitVec 6)
  /-- VDEQUANT (R242): Dequantises FP8 elements by block scales to f32. -/
  | vdequant (m : BitVec 4) (a : BitVec 6) (d : BitVec 6)
  /-- VREDSUM_O (R243): Ordered integer sum reduction. -/
  | vredsumO (m : BitVec 4) (a : BitVec 6) (d : BitVec 6)
  /-- VREDSUM_T (R243): Tree integer sum reduction. -/
  | vredsumT (m : BitVec 4) (a : BitVec 6) (d : BitVec 6)
  /-- VREDMIN (R243): Signed minimum reduction. -/
  | vredmin (m : BitVec 4) (a : BitVec 6) (d : BitVec 6)
  /-- VREDMAX (R243): Signed maximum reduction. -/
  | vredmax (m : BitVec 4) (a : BitVec 6) (d : BitVec 6)
  /-- VREDAND (R243): AND reduction. -/
  | vredand (m : BitVec 4) (a : BitVec 6) (d : BitVec 6)
  /-- VREDOR (R243): OR reduction. -/
  | vredor (m : BitVec 4) (a : BitVec 6) (d : BitVec 6)
  /-- VREDXOR (R243): XOR reduction. -/
  | vredxor (m : BitVec 4) (a : BitVec 6) (d : BitVec 6)
  /-- VFREDSUM_O (R243): Ordered floating sum reduction. -/
  | vfredsumO (m : BitVec 4) (a : BitVec 6) (d : BitVec 6)
  /-- VFREDSUM_T (R243): Tree floating sum reduction. -/
  | vfredsumT (m : BitVec 4) (a : BitVec 6) (d : BitVec 6)
  /-- VFREDMIN (R243): Floating minimum reduction. -/
  | vfredmin (m : BitVec 4) (a : BitVec 6) (d : BitVec 6)
  /-- VFREDMAX (R243): Floating maximum reduction. -/
  | vfredmax (m : BitVec 4) (a : BitVec 6) (d : BitVec 6)
  /-- VSCAN_O (R244): Ordered integer prefix sum. -/
  | vscanO (m : BitVec 4) (a : BitVec 6) (d : BitVec 6)
  /-- VSCAN_T (R244): Tree integer prefix sum. -/
  | vscanT (m : BitVec 4) (a : BitVec 6) (d : BitVec 6)
  /-- VFSCAN_O (R244): Ordered floating prefix sum. -/
  | vfscanO (m : BitVec 4) (a : BitVec 6) (d : BitVec 6)
  /-- VFSCAN_T (R244): Tree floating prefix sum. -/
  | vfscanT (m : BitVec 4) (a : BitVec 6) (d : BitVec 6)
  /-- VSEGSUM (R245): Integer sum of each segment. -/
  | vsegsum (m : BitVec 4) (b : BitVec 6) (a : BitVec 6) (d : BitVec 6)
  /-- VFSEGSUM (R245): Floating sum of each segment. -/
  | vfsegsum (m : BitVec 4) (b : BitVec 6) (a : BitVec 6) (d : BitVec 6)
  /-- VSEGSCAN (R245): Integer prefix sum within segments. -/
  | vsegscan (m : BitVec 4) (b : BitVec 6) (a : BitVec 6) (d : BitVec 6)
  /-- VFSEGSCAN (R245): Floating prefix sum within segments. -/
  | vfsegscan (m : BitVec 4) (b : BitVec 6) (a : BitVec 6) (d : BitVec 6)
  /-- VRGATHER (R246): Gathers register elements by index. -/
  | vrgather (m : BitVec 4) (b : BitVec 6) (a : BitVec 6) (d : BitVec 6)
  /-- VCOMPRESS (R246): Packs mask-selected elements. -/
  | vcompress (m : BitVec 4) (a : BitVec 6) (d : BitVec 6)
  /-- VZIP (R246): Interleaves two registers. -/
  | vzip (m : BitVec 4) (b : BitVec 6) (a : BitVec 6) (d : BitVec 6)
  /-- VUNZIP (R246): Takes even positions of two concatenated registers. -/
  | vunzip (m : BitVec 4) (b : BitVec 6) (a : BitVec 6) (d : BitVec 6)
  /-- VSLIDEUP (R247): Slides elements up by a scalar. -/
  | vslideup (m : BitVec 4) (s : BitVec 5) (a : BitVec 6) (d : BitVec 6)
  /-- VSLIDEDOWN (R247): Slides elements down by a scalar. -/
  | vslidedown (m : BitVec 4) (s : BitVec 5) (a : BitVec 6) (d : BitVec 6)
  /-- VSLIDE1UP (R247): Slides up by one, inserting a scalar. -/
  | vslide1up (m : BitVec 4) (s : BitVec 5) (a : BitVec 6) (d : BitVec 6)
  /-- VSLIDE1DOWN (R247): Slides down by one, inserting a scalar. -/
  | vslide1down (m : BitVec 4) (s : BitVec 5) (a : BitVec 6) (d : BitVec 6)
  /-- VFSLIDE1UP (R247): Slides up by one, inserting a rounded floating scalar. -/
  | vfslide1up (m : BitVec 4) (s : BitVec 5) (a : BitVec 6) (d : BitVec 6)
  /-- VFSLIDE1DOWN (R247): Slides down by one, inserting a rounded floating scalar. -/
  | vfslide1down (m : BitVec 4) (s : BitVec 5) (a : BitVec 6) (d : BitVec 6)
  /-- VIOTA (R247): Writes the count of set mask positions below each element. -/
  | viota (m : BitVec 4) (a : BitVec 6) (d : BitVec 6)
  /-- VID (R247): Writes element index plus a scalar. -/
  | vid (m : BitVec 4) (s : BitVec 5) (d : BitVec 6)
  /-- MAND (R248): Mask AND. -/
  | mand (b : BitVec 6) (a : BitVec 6) (d : BitVec 6)
  /-- MOR (R248): Mask OR. -/
  | mor (b : BitVec 6) (a : BitVec 6) (d : BitVec 6)
  /-- MXOR (R248): Mask XOR. -/
  | mxor (b : BitVec 6) (a : BitVec 6) (d : BitVec 6)
  /-- MANDN (R248): Mask AND NOT. -/
  | mandn (b : BitVec 6) (a : BitVec 6) (d : BitVec 6)
  /-- MNOT (R249): Mask NOT at active positions. -/
  | mnot (m : BitVec 4) (a : BitVec 6) (d : BitVec 6)
  /-- MFIRST (R249): Writes the first active set position to a scalar. -/
  | mfirst (m : BitVec 4) (a : BitVec 6) (d : BitVec 6)
  /-- MPOPC (R249): Counts active set positions into a scalar. -/
  | mpopc (m : BitVec 4) (a : BitVec 6) (d : BitVec 6)
  /-- MSBF (R249): Sets positions before the first set bit. -/
  | msbf (m : BitVec 4) (a : BitVec 6) (d : BitVec 6)
  /-- MSIF (R249): Sets positions up to and including the first set bit. -/
  | msif (m : BitVec 4) (a : BitVec 6) (d : BitVec 6)
  /-- MSOF (R249): Sets only the first set position. -/
  | msof (m : BitVec 4) (a : BitVec 6) (d : BitVec 6)
  /-- VFMADD (R236): Fused a·b + d, rounded once. -/
  | vfmadd (m : BitVec 4) (b : BitVec 6) (a : BitVec 6) (d : BitVec 6)
  /-- VFMSUB (R236): Fused a·b − d. -/
  | vfmsub (m : BitVec 4) (b : BitVec 6) (a : BitVec 6) (d : BitVec 6)
  /-- VFNMADD (R236): Fused −(a·b) − d. -/
  | vfnmadd (m : BitVec 4) (b : BitVec 6) (a : BitVec 6) (d : BitVec 6)
  /-- VFNMSUB (R236): Fused −(a·b) + d. -/
  | vfnmsub (m : BitVec 4) (b : BitVec 6) (a : BitVec 6) (d : BitVec 6)
  /-- VMACC (R236): Integer d + a·b. -/
  | vmacc (m : BitVec 4) (b : BitVec 6) (a : BitVec 6) (d : BitVec 6)
  /-- VNMSAC (R236): Integer d − a·b. -/
  | vnmsac (m : BitVec 4) (b : BitVec 6) (a : BitVec 6) (d : BitVec 6)
  /-- VMADD (R236): Integer a·d + b. -/
  | vmadd (m : BitVec 4) (b : BitVec 6) (a : BitVec 6) (d : BitVec 6)
  /-- VNMSUB (R236): Integer −(a·d) + b. -/
  | vnmsub (m : BitVec 4) (b : BitVec 6) (a : BitVec 6) (d : BitVec 6)
  /-- HINT (R74): Executes as a no-op that advances pc by 4. -/
  | hint (n : BitVec 24)
  /-- C_ADDI (R105): Compressed addi sd, sd, imm6. -/
  | cAddi (d : BitVec 5) (i : BitVec 6)
  /-- C_ADD (R105): Compressed add sd, sd, sb. -/
  | cAdd (d : BitVec 5) (b : BitVec 5)
  /-- C_SUB (R105): Compressed sub sd, sd, sb. -/
  | cSub (d : BitVec 5) (b : BitVec 5)
  /-- C_AND (R105): Compressed and sd, sd, sb. -/
  | cAnd (d : BitVec 5) (b : BitVec 5)
  /-- C_OR (R105): Compressed or sd, sd, sb. -/
  | cOr (d : BitVec 5) (b : BitVec 5)
  /-- C_XOR (R105): Compressed xor sd, sd, sb. -/
  | cXor (d : BitVec 5) (b : BitVec 5)
  /-- C_SLLI (R105): Compressed slli. -/
  | cSlli (d : BitVec 5) (i : BitVec 6)
  /-- C_SRLI (R105): Compressed srli. -/
  | cSrli (d : BitVec 5) (i : BitVec 6)
  /-- C_SRAI (R105): Compressed srai. -/
  | cSrai (d : BitVec 5) (i : BitVec 6)
  /-- C_LDD (R105): Compressed ldd in class 0. -/
  | cLdd (d : BitVec 5) (b : BitVec 3) (i : BitVec 3)
  /-- C_STD (R105): Compressed std in class 0. -/
  | cStd (s : BitVec 5) (b : BitVec 3) (i : BitVec 3)
  /-- C_BEQ (R105): Compressed branch if sa equals zero. -/
  | cBeq (a : BitVec 3) (o : BitVec 8)
  /-- C_BNE (R105): Compressed branch if sa is nonzero. -/
  | cBne (a : BitVec 3) (o : BitVec 8)
  /-- C_JAL (R105): Compressed jal s31. -/
  | cJal (o : BitVec 11)
  /-- C_JALR (R105): Compressed jalr sd, sb, 0. -/
  | cJalr (d : BitVec 5) (b : BitVec 5)
  /-- C_MARK (R105): Compressed mark k. -/
  | cMark (k : BitVec 11)
  /-- ILLEGAL_INSTRUCTION (R70): A word that is not an instruction for the executing agent raises the precise illegal-instruction trap with no effect. -/
  | illegalInstruction (sub : BitVec 3)
  /-- ANOP (R291): Advice no-op. -/
  | anop
  /-- ALI (R291): Loads a sign-extended immediate into an advice register. -/
  | ali (d : BitVec 4) (i : BitVec 18)
  /-- ASHOR (R291): Shifts xa left 18 and ORs an immediate. -/
  | ashor (d : BitVec 4) (a : BitVec 4) (i : BitVec 18)
  /-- AADD (R291): Adds two advice registers. -/
  | aadd (d : BitVec 4) (a : BitVec 4) (b : BitVec 4)
  /-- AADDI (R291): Adds an immediate to an advice register. -/
  | aaddi (d : BitVec 4) (a : BitVec 4) (i : BitVec 18)
  /-- ASLL (R291): Shifts an advice register left. -/
  | asll (d : BitVec 4) (a : BitVec 4) (i : BitVec 18)
  /-- AMARK (R291): Reads the hart's mark register. -/
  | amark (d : BitVec 4)
  /-- AJMP (R291): Advice jump. -/
  | ajmp (o : BitVec 18)
  /-- ABEQ (R291): Advice branch if equal. -/
  | abeq (a : BitVec 4) (b : BitVec 4) (o : BitVec 14)
  /-- ABNE (R291): Advice branch if not equal. -/
  | abne (a : BitVec 4) (b : BitVec 4) (o : BitVec 14)
  /-- AWAIT (R289): Consumes mark events until one reaches k, realigning on a later ordinal. -/
  | await (k : BitVec 12)
  /-- ADELAY (R291): Puts the advice context in delaying state for n ac. -/
  | adelay (n : BitVec 18)
  /-- AEND (R289): Waits for the next mark event and realigns on it. -/
  | aend
  /-- APF_L1 (R292): Prefetches lines into the hart's L1D. -/
  | apfL1 (a : BitVec 4) (n : BitVec 18)
  /-- APF_L2 (R292): Prefetches lines into the die slices. -/
  | apfL2 (a : BitVec 4) (n : BitVec 18)
  /-- APF_TC (R292): Prefetches lines into the tile cache. -/
  | apfTc (a : BitVec 4) (n : BitVec 18)
  /-- ATFETCH (R292): Acts as tfetch on advice registers. -/
  | atfetch (a : BitVec 4) (b : BitVec 4)
  /-- AKEEP (R292): Acts as tkeep against the same quota. -/
  | akeep (d : BitVec 4) (a : BitVec 4) (b : BitVec 4)
  /-- APRIO (R293): Overrides the hart's issue priority within the QCB range. -/
  | aprio (p : BitVec 18)
  /-- AORDER (R293): Selects the hart's issue-order mode. -/
  | aorder (m : BitVec 18)
  /-- APLACE (R293): Sets the placement hint for launches. -/
  | aplace (a : BitVec 4)
  /-- ADVICE_WORD_DROP (R76): A word that is not an advice instruction is dropped and counted. -/
  | adviceWordDrop
  /-- ADELAY_EXPIRY (R291): The delay of an advice context runs out and it resumes running. -/
  | adelayExpiry (who : AgentId)
  /-- ADVICE_PREFETCH_WALK (R297): The walker walks for an advice line when no semantic walk waits, installing nothing on failure. -/
  | advicePrefetchWalk (who : AgentId) (level : PrefetchLevel) (addr : Word) (lines : Nat)
  /-- UEC_APPEND (R284): An append command message writes the record bytes and performs the append. -/
  | uecAppend (ep : BitVec 12) (qcb recAddr : Word) (payload : List Byte)
  /-- UEC_WRITE (R284): A write command message writes bytes under the bound context. -/
  | uecWrite (ep : BitVec 12) (addr : Word) (data : List Byte)
  /-- UEC_READ (R284): A read command message returns bytes under the bound context. -/
  | uecRead (ep : BitVec 12) (addr count : Word)
  /-- UEC_INVALID_MESSAGE (R284): A message of an unbound endpoint, bad kind, count or must-be-zero bit is dropped and counted. -/
  | uecInvalidMessage (ep : BitVec 12)
  /-- GET_VERSION (R283): SPDM request answered with supported versions. -/
  | getVersion (ep : BitVec 12)
  /-- GET_CAPABILITIES (R283): SPDM request answered with capabilities. -/
  | getCapabilities (ep : BitVec 12)
  /-- NEGOTIATE_ALGORITHMS (R283): SPDM request offering only RSASSA-4096 and SHA-512. -/
  | negotiateAlgorithms (ep : BitVec 12)
  /-- GET_DIGESTS (R283): SPDM request for certificate digests of slot 0. -/
  | getDigests (ep : BitVec 12) (slot : BitVec 8)
  /-- GET_CERTIFICATE (R283): SPDM request for the slot-0 device certificate. -/
  | getCertificate (ep : BitVec 12) (slot : BitVec 8) (offset length : BitVec 16)
  /-- CHALLENGE (R283): SPDM challenge signed with the device key. -/
  | challenge (ep : BitVec 12) (slot : BitVec 8) (nonce : BitVec 256)
  /-- GET_MEASUREMENTS (R283): SPDM request returning measurement indices 1 to 3. -/
  | getMeasurements (ep : BitVec 12) (index : BitVec 8) (nonce : BitVec 256)
  /-- SPDM_UNSUPPORTED_REQUEST (R283): Any other SPDM request returns an UnsupportedRequest error. -/
  | spdmUnsupportedRequest (ep : BitVec 12) (code : BitVec 8)
  /-- CXL_HOST_WRITE (R133): A host write to device memory is performed at package scope when the CXL port completes it. -/
  | cxlHostWrite (pa : BitVec 52) (data : List Byte)
  /-- CXL_HOST_READ (R133): A host read of device memory, racing bias flips as stated. -/
  | cxlHostRead (pa : BitVec 52) (count : Nat)
  /-- LOOM_APPEND_EVENT (R83): The Loom handles an append: reads the record once, checks the lists, resolves and places. -/
  | loomAppendEvent (qcb recAddr : Word)
  /-- DEPENDENCE_MET (R84): A dependence reaches completion and the Loom recomputes readiness and priority. -/
  | dependenceMet (qcb job : Word)
  /-- BUNDLE_ENDED (R91): A placed bundle ends and frees its cores, a Loom policy point. -/
  | bundleEnded (qcb job : Word) (bundle : Nat)
  /-- JOB_ENDED (R84): The last task and control program of a job end; its writes are released and it completes. -/
  | jobEnded (qcb job : Word)
  /-- WINDOW_TICK (R94): A 4 µs forecast window begins, a Loom policy point and power-management plan. -/
  | windowTick
  /-- PRE_EMPTION_COMPLETE (R91): A pre-emption has saved its bundle, a Loom policy point. -/
  | preEmptionComplete (qcb job : Word) (bundle : Nat)
  /-- COMMAND_REFUSED (R92): Hardware refuses a microcode command that fails its checks and returns an event. -/
  | commandRefused (command cause : BitVec 8)
  /-- DEC_RECORD_FLUSH (R84): Records held under dec.block are written in order once the ring has room. -/
  | decRecordFlush (qcb : Word)
  /-- MICROCODE_WATCHDOG (R93): Handling of one event exceeds 50 µs; the boot microcode is reloaded and the event handled again. -/
  | microcodeWatchdog
  /-- MICROCODE_SWITCH (R93): All four Looms switch to a newly loaded image at an event boundary. -/
  | microcodeSwitch
  /-- POWER_ON (R93): Power-on starts the boot microcode and zeroes att.pkg. -/
  | powerOn
  /-- DEEP_IDLE_ENTRY (R2): The package enters deep idle and the global timebase stops. -/
  | deepIdleEntry
  /-- DEEP_IDLE_EXIT (R2): The package leaves deep idle and the timebase runs again. -/
  | deepIdleExit
  /-- CLOCK_LOWER (R94): Measured activity exceeds the forecast and the arithmetic clock is lowered for the window. -/
  | clockLower
  /-- TASK_START (R82): A placed hart starts its task at the entry with s1 and s2 set and its advice context reset. -/
  | taskStart (who : AgentId)
  /-- TASK_END (R104): After counters drain and copies are visible, the hart releases its writes and becomes idle. -/
  | taskEnd (who : AgentId)
  /-- URGENT (R95): A hart ready for 8 consecutive ac without issuing becomes urgent. -/
  | urgent (who : AgentId)
  /-- YIELD_EXPIRY (R118): The yield delay ends and the hart becomes ready again. -/
  | yieldExpiry (who : AgentId)
  /-- ROW_GRANT (R96): A freed register row goes to the hart that began waiting first. -/
  | rowGrant (core : Nat)
  /-- OPERATION_COMPLETE (R135): An outstanding load, store, copy or transfer completes and its counter falls. -/
  | operationComplete (who : AgentId) (cls : OpClass)
  /-- BARRIER_RELEASE (R112): The arrival count of a phase is reached and every participant is released. -/
  | barrierRelease (key : BarrierKey)
  /-- SHUTTLE_POST_OBSERVED (R115): A posted channel value becomes observable at a ring position. -/
  | shuttlePostObserved (die ch pos : Nat)
  /-- RESERVATION_HOLD_EXPIRY (R142): A home slice's 64 ac hold of a block for a constrained sequence ends. -/
  | reservationHoldExpiry (block : Nat)
  /-- COPY_SOURCE_READ (R154): A copy's source is fully read and its handle leaves filling. -/
  | copySourceRead (who : AgentId) (h : BitVec 5)
  /-- COPY_COMPLETE (R154): A copy's handle becomes free and cp falls. -/
  | copyComplete (who : AgentId) (h : BitVec 5)
  /-- STREAM_STRIP_ARRIVAL (R155): The copy engine fills a strip buffer ahead of consumption. -/
  | streamStripArrival (who : AgentId) (h : BitVec 5)
  /-- VPUSH_DELIVERY (R159): A pushed register lands at the receiver and is marked full. -/
  | vpushDelivery (n : Nat)
  /-- XRED_COMPLETE (R160): All members' contributions arrive and every member receives the reduced bits. -/
  | xredComplete (n : Nat) (remote : List (Nat × List (List Nat)))
  /-- ORU_ACCEPT (R203): An ordered-reduction unit accepts a contribution or close token into its buffer or overflow area. -/
  | oruAccept (n : Nat)
  /-- MISS_ENTRY_GRANT (R166): A waiting miss takes a freed miss-table entry in arrival order. -/
  | missEntryGrant (slice : Nat)
  /-- L2_DROWSY_ENTRY (R167): An idle L2 bank enters retention after 2,048 fabric clocks under a low forecast. -/
  | l2DrowsyEntry (slice : Nat)
  /-- TILE_FILL (R170): A line or prefetched tile lands in the tile cache of its holding die. -/
  | tileFill (ctx : BitVec 12) (tensor : BitVec 6) (i j : Nat)
  /-- REGION_CONFLICT (R192): A home slice detects a region conflict or stamp and narrows intervals. -/
  | regionConflict (who : AgentId) (line : Nat) (write : Bool)
  /-- NARROWING_APPLY (R192): A narrowing message is applied to the region it concerns. -/
  | narrowingApply (n : Nat)
  /-- COMMIT (R194): The arbiter processes a commit, raising stamps and H and sending FINAL messages. -/
  | commit (who : AgentId)
  /-- FINAL_APPLY (R194): A partner region applies FINAL(p) to its interval. -/
  | finalApply (n : Nat)
  /-- POSITION_RENEWAL (R196): Once no region is live after H reaches 2^39, stamps, floors and H reset to 0. -/
  | positionRenewal
  /-- SLOT_FULL (R252): A hart's orel takes effect once its slot writes land, making the slot full. -/
  | slotFull (quad slot : Nat)
  /-- SLOT_FREE (R252): A control-core orel takes effect once tile operations finish reading the slot. -/
  | slotFree (quad slot : Nat)
  /-- TILE_OP_START (R259): A queued tile operation starts on the engine. -/
  | tileOpStart (quad : Nat)
  /-- TILE_OP_COMPLETE (R258): A tile operation or scale load has written its window or line. -/
  | tileOpComplete (quad : Nat)
  /-- LINK_RETRY (R312): A link flit with a CRC error is retried, and after 8 retries the lane is repaired. -/
  | linkRetry (link : Nat) (lastRetry : Bool)
  /-- FIELD_REPAIR (R314): A failing unit is moved to a spare after pre-empting its users, and cap.gen increments. -/
  | fieldRepair (unit : RepairUnit)
  /-- AGENT_FATAL_ERROR (R316): An agent reports an internal fatal error and is declared dead. -/
  | agentFatalError (dead : DyingAgent)
  /-- AGENT_RESPONSE_TIMEOUT (R316): An agent fails to answer within 100 µs and is declared dead. -/
  | agentResponseTimeout (dead : DyingAgent)
  /-- READMISSION (R316): An agent passes self-test and is re-admitted with a new incarnation number. -/
  | readmission (dead : DyingAgent)
  /-- TRACE_SAMPLE (R317): The sample period expires and a sample or stall record is written. -/
  | traceSample (who : AgentId)
  /-- CTX_ROOT (R277): Sets a context's translation root, creating the context if needed. -/
  | ctxRoot (ctx value : Word)
  /-- CTX_END (R277): Ends a context after pre-empting its bundles and releases its state. -/
  | ctxEnd (ctx : Word)
  /-- TENANT_DESC (R272): Loads and measures a tenant descriptor, or faults if invalid. -/
  | tenantDesc (tenant addr : Word)
  /-- SHUTTLE_GRANT (R277): Grants a shuttle channel to a context, starting it at 0. -/
  | shuttleGrant (idx value : Word)
  /-- COLL_GRANT (R277): Grants an XRED group to a context. -/
  | collGrant (group value : Word)
  /-- UEC_BIND (R277): Binds a UEC endpoint to a context. -/
  | uecBind (ep value : Word)
  /-- CODE_LOAD (R280): Chooses, verifies, measures and loads images from a fat object and writes code.status. -/
  | codeLoad (ctx addr : Word)
  /-- ADV_LOAD (R296): Loads only an advice image and resets att.adv. -/
  | advLoad (ctx addr : Word)
  /-- LOOM_RELOAD (R93): Measures a Loom microcode image and queues the switch to it. -/
  | loomReload (addr : Word)
  /-- BIAS_FLIP (R285): Starts flipping a 2 MiB region between device and host bias. -/
  | biasFlip (region value : Word)
  /-- BIAS_FLIP_COMPLETE (R285): After engines finish and lines are written back, the bias entry changes and waiting accesses proceed. -/
  | biasFlipComplete (region : Nat)
  /-- CTX_LOST_CLEAR (R277): Clears the ctx.lost bits set in the value. -/
  | ctxLostClear (value : Word)
  /-- CTX_SAVE_USE_CLEAR (R309): Clears save-slot bits, freeing those slots. -/
  | ctxSaveUseClear (idx value : Word)
  /-- STALL_EVICT_CLEAR (R320): Clears every stall entry. -/
  | stallEvictClear
  /-- SYSREG_WRITE (R276): Writes a system register that has no behaviour of its own. -/
  | sysregWrite (num : BitVec 11) (idx value : Word)
  /-- REGISTER_BANK_RETENTION (R55): Power management places a register bank that holds only row-pool rows or rows of unused lane partitions into retention; the bank keeps its contents. -/
  | registerBankRetention (core bank : Nat)
deriving DecidableEq, Repr

end Sys2Proof
end

