-- ==== Sys2Proof/WellFormed.lean ====
section
/-! DEFINITION. Which instructions are well formed: those that some word encodes, with every field at a value that
the encoding admits (R67, R70 subcode 2, and the entries named below). A row with no encoding is never well formed. -/

namespace Sys2Proof

/-- A vector operand: v0 to v47 or q0 to q7 (R67). -/
def operand (v : BitVec 6) : Bool := decide (v.toNat < 56)

/-- A destination that no stream may stand in (R226, R236). -/
def vectorReg (v : BitVec 6) : Bool := decide (v.toNat < 48)

/-- A vector field that names a mask register (R66). -/
def maskOperand (v : BitVec 6) : Bool := decide (v.toNat < 12)

/-- A governing mask of four bits (R67). -/
def maskReg (m : BitVec 4) : Bool := decide (m.toNat < 12)

/-- A barrier's scope and id (R111). -/
def barrierId (s : BitVec 3) (i : BitVec 6) : Bool :=
  match s.toNat with
  | 1 => decide (i.toNat ≤ 47)
  | 2 => decide (i.toNat ≤ 15)
  | 3 => decide (i.toNat ≤ 15)
  | 4 => decide (i.toNat ≤ 7)
  | 5 => decide (i.toNat ≤ 3)
  | _ => false

/-- A number that names a system register (R276 and the register tables of R50, R90, R93, R94, R178, R201, R204, R277,
R295, R302, R305, R309, R313, R317, R319 and R320). -/
def registerNumber (n : Nat) : Bool :=
  [(0x700, 0x70B), (0x710, 0x713), (0x720, 0x728), (0x730, 0x730), (0x738, 0x738), (0x740, 0x747), (0x750, 0x755),
    (0x757, 0x759), (0x760, 0x762), (0x780, 0x789), (0x790, 0x795), (0x798, 0x798), (0x7A0, 0x7B5), (0x7B8, 0x7BC)].any
    fun r => decide (r.1 ≤ n) && decide (n ≤ r.2)

/-- The write-only registers (R93, R277, R285, R296). -/
def writeOnly : List Nat := [0x738, 0x780, 0x781, 0x782, 0x783, 0x784, 0x785, 0x786, 0x788, 0x798]

/-- The registers that setc may write besides those (R277, R302, R305, R309, R317, R319, R320). -/
def readWrite : List Nat :=
  [0x713, 0x7A0, 0x7A1, 0x7A2, 0x7A7, 0x7A8, 0x7A9, 0x7AA, 0x7AB, 0x7B0, 0x7B1, 0x7B3, 0x7B4, 0x7B5, 0x7BC]

/-- A register that getc reads (R276). -/
def registerReads (n : Nat) : Bool := registerNumber n && !writeOnly.contains n

/-- A register that setc writes (R276). -/
def registerWrites (n : Nat) : Bool := (writeOnly ++ readWrite).contains n

/-- A format of tile operations (R256): codes 0 to 6. -/
def tileFmt (f : BitVec 4) : Bool := decide (f.toNat ≤ 6)

/-- A format of accrd (R261): f64, f32 or i32. -/
def cellFmt (f : BitVec 4) : Bool := decide (f = 0) || decide (f = 1) || decide (f = 8)

/-- A legal window (R255). -/
def window (f : BitVec 4) (col0 row0 : BitVec 8) : Bool :=
  let h := if f.toNat ≤ 1 then 64 else 128
  let cells := if f = 1 then 64 else 128
  decide (row0.toNat + h ≤ 256) && decide (col0.toNat + cells ≤ 256) && !(decide (f = 0) && decide (col0.toNat % 2 = 1))

/-- The fields of mma.o and mma.f (R256): a scale run only for e4m3 and e5m2. -/
def mmaFields (sc : BitVec 6) (kc : BitVec 7) (f : BitVec 4) (col0 row0 : BitVec 8) (slotB slotA : BitVec 6) : Bool :=
  decide (1 ≤ kc.toNat) && decide (kc.toNat ≤ 16) && tileFmt f && decide (slotA.toNat + kc.toNat ≤ 32) &&
    decide (slotB.toNat + kc.toNat ≤ 32) && window f col0 row0 &&
    (decide (sc.toNat = 63) || ((decide (f = 4) || decide (f = 5)) && decide (sc.toNat + kc.toNat ≤ 32)))

/-- The instruction is well formed. -/
def Instr.wf : Instr → Bool
  | .add _ _ _ | .sub _ _ _ | .and _ _ _ | .or _ _ _ | .xor _ _ _ | .sll _ _ _ | .srl _ _ _ | .sra _ _ _
  | .addw _ _ _ | .subw _ _ _ | .sllw _ _ _ | .srlw _ _ _ | .sraw _ _ _ | .min _ _ _ | .max _ _ _ | .minu _ _ _
  | .maxu _ _ _ | .andn _ _ _ | .orn _ _ _ | .addi _ _ _ | .andi _ _ _ | .ori _ _ _ | .xori _ _ _ | .slli _ _ _
  | .srli _ _ _ | .srai _ _ _ | .shori _ _ _ | .addiw _ _ _ | .mul _ _ _ | .mulh _ _ _ | .mulhu _ _ _
  | .mulhsu _ _ _ | .div _ _ _ | .divu _ _ _ | .rem _ _ _ | .remu _ _ _ | .mulw _ _ _ | .divw _ _ _ | .remw _ _ _
  | .aupc _ _ | .beq _ _ _ | .bne _ _ _ | .blt _ _ _ | .bge _ _ _ | .bltu _ _ _ | .bgeu _ _ _ | .jal _ _
  | .jalr _ _ _ | .ret _ | .seq _ _ _ | .sne _ _ _ | .slt _ _ _ | .sltu _ _ _ | .clz _ _ | .ctz _ _ | .cpop _ _
  | .rev8 _ _ | .bext _ _ _ | .bdep _ _ _ | .rotl _ _ _ | .rotr _ _ _ | .ldb _ _ _ _ | .ldh _ _ _ _ | .ldw _ _ _ _
  | .ldd _ _ _ _ | .ldbu _ _ _ _ | .ldhu _ _ _ _ | .ldwu _ _ _ _ | .stb _ _ _ _ | .sth _ _ _ _ | .stw _ _ _ _
  | .std _ _ _ _ | .amoswap _ _ _ _ | .amoadd _ _ _ _ | .amoand _ _ _ _ | .amoor _ _ _ _ | .amoxor _ _ _ _
  | .amomin _ _ _ _ | .amomax _ _ _ _ | .amominu _ _ _ _ | .amomaxu _ _ _ _ | .amocas _ _ _ _ | .lr _ _ _
  | .sc _ _ _ _ | .amoswapW _ _ _ _ | .amoaddW _ _ _ _ | .amoandW _ _ _ _ | .amoorW _ _ _ _ | .amoxorW _ _ _ _
  | .amominW _ _ _ _ | .amomaxW _ _ _ _ | .amominuW _ _ _ _ | .amomaxuW _ _ _ _ | .amocasW _ _ _ _ | .lrW _ _ _
  | .scW _ _ _ _ => true
  | .setvl _ t _ f _ _ => decide (t ≠ 3) && decide (f.toNat < 10)
  | .setsw _ _ | .getvt _ | .getsw _ | .setrm _ _ => true
  | .strip _ n p c =>
      decide (p.toNat + n.toNat < 32) && !(decide (p.toNat ≤ c.toNat) && decide (c.toNat ≤ p.toNat + n.toNat))
  | .waitc _ _ _ _ => true
  | .fenceC s _ _ _ _ | .fenceCReg s _ => decide (s.toNat ≤ 5)
  | .bar s i _ | .barW s i _ | .arrive s i _ _ => barrierId s i
  | .ipost _ _ _ _ | .iwait _ _ _ _ | .mark _ | .launch _ _ _ _ | .yield _ => true
  | .getc i _ _ => registerReads i.toNat
  | .setc i _ _ => registerWrites i.toNat
  | .trap _ | .eret | .tlbinv _ _ | .tlbsync _ | .ilock _ _ _ | .iunlock _ _ _ | .fenceI => true
  | .vld _ _ _ d | .vlds _ _ _ _ d => operand d
  | .vgather _ _ x _ d => operand x && operand d
  | .vldff _ _ _ d => operand d
  | .vst _ _ _ s | .vsts _ _ _ _ s => operand s
  | .vscatter _ _ x _ s | .vamoAdd _ x _ s | .vamoMin _ x _ s | .vamoMax _ x _ s | .vamoAnd _ x _ s
  | .vamoOr _ x _ s | .vamoXor _ x _ s | .vamoSwap _ x _ s => operand x && operand s
  | .damoAdd _ x b s => operand s && operand x && decide (b.toNat ≤ 30)
  | .lsld _ _ d | .lslds _ _ _ d => operand d
  | .lsgather _ x _ d => operand x && operand d
  | .lsldq _ _ _ d => decide (d.toNat ≤ 46)
  | .lsst _ _ d | .lssts _ _ _ d => operand d
  | .lsscatter _ x _ d => operand x && operand d
  | .lsstq _ _ _ d => decide (d.toNat ≤ 46)
  | .copyCfg _ _ _ _ | .qbind _ _ | .qunbind _ | .hwaitSrc _ => true
  | .hwaitVis s _ => decide (1 ≤ s.toNat) && decide (s.toNat ≤ 5)
  | .hrel _ | .hstate _ _ => true
  | .vpush _ _ n f | .xredO _ _ n f | .xredF _ _ n f => decide (1 ≤ n.toNat) && decide (f.toNat + n.toNat ≤ 48)
  | .treg _ _ _ _ | .tunreg _ _ | .tlook _ _ _ | .tfetch _ _ | .thalo _ _ _ _ | .tinv _ _ | .tkeep _ _ _ => true
  | .xbeginE s _ | .xbeginS s _ => decide (s = 3) || decide (s = 4)
  | .xend _ | .xabort _ | .xbndLo _ | .xbndHi _ | .xbnd _ _ _ | .sclaim _ _ _ | .srel _ | .oclaim _ | .orel _ => true
  | .oput _ _ _ v | .accget _ _ v | .accput _ _ v => operand v
  | .accstore _ a => decide (a.toNat ≤ 30)
  | .scldA _ _ _ _ | .scldW _ _ _ => true
  | .mmaO k kc fmt col0 row0 slotB slotA | .mmaF k kc fmt col0 row0 slotB slotA =>
      mmaFields k kc fmt col0 row0 slotB slotA
  | .accz fmt col0 row0 => tileFmt fmt && window fmt col0 row0
  | .accrdS _ fmt col0 _ | .accrdP _ fmt col0 _ => cellFmt fmt && !(decide (fmt = 0) && decide (col0.toNat % 2 = 1))
  | .tscl k col0 row0 => decide (k.toNat ≤ 31) && window 4 col0 row0
  | .vadd m b a d | .vsub m b a d | .vrsub m b a d | .vmul m b a d | .vmulh m b a d | .vmulhu m b a d
  | .vdiv m b a d | .vdivu m b a d | .vrem m b a d | .vremu m b a d | .vand m b a d | .vor m b a d | .vxor m b a d
  | .vsll m b a d | .vsrl m b a d | .vsra m b a d | .vmin m b a d | .vmax m b a d | .vminu m b a d
  | .vmaxu m b a d | .vsadd m b a d | .vsaddu m b a d | .vssub m b a d | .vssubu m b a d =>
      maskReg m && operand b && operand a && operand d
  | .vseq m b a d | .vsne m b a d | .vslt m b a d | .vsltu m b a d | .vsle m b a d | .vsleu m b a d =>
      maskReg m && operand b && operand a && maskOperand d
  | .vmerge m b a d | .vavg m b a d | .vfadd m b a d | .vfsub m b a d | .vfmul m b a d | .vfdiv m b a d
  | .vfmin m b a d | .vfmax m b a d | .vfsgnj m b a d | .vfsgnjn m b a d | .vfsgnjx m b a d =>
      maskReg m && operand b && operand a && operand d
  | .vfeq m b a d | .vfne m b a d | .vflt m b a d | .vfle m b a d =>
      maskReg m && operand b && operand a && maskOperand d
  | .vfmerge m b a d => maskReg m && operand b && operand a && operand d
  | .vadds m _ a d | .vsubs m _ a d | .vrsubs m _ a d | .vmuls m _ a d | .vands m _ a d | .vors m _ a d
  | .vxors m _ a d | .vslls m _ a d | .vsrls m _ a d | .vsras m _ a d | .vmins m _ a d | .vmaxs m _ a d =>
      maskReg m && operand a && operand d
  | .vseqs m _ a d | .vslts m _ a d | .vsgts m _ a d => maskReg m && operand a && maskOperand d
  | .vmvs m _ d => maskReg m && operand d
  | .vfadds m _ a d | .vfsubs m _ a d | .vfrsubs m _ a d | .vfmuls m _ a d | .vfdivs m _ a d | .vfrdivs m _ a d
  | .vfmins m _ a d | .vfmaxs m _ a d => maskReg m && operand a && operand d
  | .vfeqs m _ a d | .vflts m _ a d | .vfgts m _ a d => maskReg m && operand a && maskOperand d
  | .vfmvs m _ d => maskReg m && operand d
  | .vmv m a d | .vnot m a d | .vabs m a d | .vneg m a d | .vfabs m a d | .vfneg m a d | .vfsqrt m a d
  | .vfrecip m a d | .vfrsqrt m a d | .vfclass m a d => maskReg m && operand a && operand d
  | .vcvt f m a d => maskReg m && operand a && operand d && decide (f.toNat < 10)
  | .vquant m a d => maskReg m && operand a && decide (d.toNat ≤ 46)
  | .vdequant m a d => maskReg m && decide (a.toNat ≤ 46) && operand d
  | .vredsumO m a d | .vredsumT m a d | .vredmin m a d | .vredmax m a d | .vredand m a d | .vredor m a d
  | .vredxor m a d | .vfredsumO m a d | .vfredsumT m a d | .vfredmin m a d | .vfredmax m a d | .vscanO m a d
  | .vscanT m a d | .vfscanO m a d | .vfscanT m a d => maskReg m && operand a && vectorReg d
  | .vsegsum m b a d | .vfsegsum m b a d | .vsegscan m b a d | .vfsegscan m b a d =>
      maskReg m && maskOperand b && operand a && vectorReg d
  | .vrgather m b a d => maskReg m && operand b && operand a && vectorReg d
  | .vcompress m a d => maskReg m && operand a && vectorReg d
  | .vzip m b a d | .vunzip m b a d => maskReg m && operand b && operand a && vectorReg d
  | .vslideup m _ a d | .vslidedown m _ a d | .vslide1up m _ a d | .vslide1down m _ a d | .vfslide1up m _ a d
  | .vfslide1down m _ a d => maskReg m && operand a && vectorReg d
  | .viota m a d => maskReg m && maskOperand a && vectorReg d
  | .vid m _ d => maskReg m && vectorReg d
  | .mand b a d | .mor b a d | .mxor b a d | .mandn b a d => maskOperand b && maskOperand a && maskOperand d
  | .mnot m a d => maskReg m && maskOperand a && maskOperand d
  | .mfirst m a d | .mpopc m a d => maskReg m && maskOperand a && decide (d.toNat < 32)
  | .msbf m a d | .msif m a d | .msof m a d => maskReg m && maskOperand a && maskOperand d
  | .vfmadd m b a d | .vfmsub m b a d | .vfnmadd m b a d | .vfnmsub m b a d | .vmacc m b a d | .vnmsac m b a d
  | .vmadd m b a d | .vnmsub m b a d => maskReg m && operand b && operand a && vectorReg d
  | .hint _ => true
  | .cAddi d i => !(decide (d = 0) && decide (i = 0))
  | .cAdd _ _ | .cSub _ _ | .cAnd _ _ | .cOr _ _ | .cXor _ _ | .cSlli _ _ | .cSrli _ _ | .cSrai _ _ | .cLdd _ _ _
  | .cStd _ _ _ | .cBeq _ _ | .cBne _ _ | .cJal _ | .cJalr _ _ | .cMark _ => true
  | .illegalInstruction _ => false
  | .anop | .ali _ _ | .ashor _ _ _ | .aadd _ _ _ | .aaddi _ _ _ => true
  | .asll _ _ i => decide (i.toNat ≤ 63)
  | .amark _ | .ajmp _ | .abeq _ _ _ | .abne _ _ _ | .await _ => true
  | .adelay n => decide (1 ≤ n.toNat)
  | .aend => true
  | .apfL1 _ n | .apfL2 _ n | .apfTc _ n => decide (1 ≤ n.toNat) && decide (n.toNat ≤ 64)
  | .atfetch _ _ | .akeep _ _ _ => true
  | .aprio p => decide (p.toNat ≤ 15) || decide (p.toNat = 31)
  | .aorder m => decide (m.toNat ≤ 3)
  | .aplace _ => true
  | .adviceWordDrop | .adelayExpiry _ | .advicePrefetchWalk _ _ _ _ | .uecAppend _ _ _ _ | .uecWrite _ _ _
  | .uecRead _ _ _ | .uecInvalidMessage _ | .getVersion _ | .getCapabilities _ | .negotiateAlgorithms _
  | .getDigests _ _ | .getCertificate _ _ _ _ | .challenge _ _ _ | .getMeasurements _ _ _
  | .spdmUnsupportedRequest _ _ | .cxlHostWrite _ _ | .cxlHostRead _ _ | .loomAppendEvent _ _ | .dependenceMet _ _
  | .bundleEnded _ _ _ | .jobEnded _ _ | .windowTick | .preEmptionComplete _ _ _ | .commandRefused _ _
  | .decRecordFlush _ | .microcodeWatchdog | .microcodeSwitch | .powerOn | .deepIdleEntry | .deepIdleExit
  | .clockLower | .taskStart _ | .taskEnd _ | .urgent _ | .yieldExpiry _ | .rowGrant _ | .operationComplete _ _
  | .barrierRelease _ | .shuttlePostObserved _ _ _ | .reservationHoldExpiry _ | .copySourceRead _ _
  | .copyComplete _ _ | .streamStripArrival _ _ | .vpushDelivery _ | .oruAccept _ | .missEntryGrant _
  | .l2DrowsyEntry _ | .tileFill _ _ _ _ | .regionConflict _ _ _ | .narrowingApply _ | .commit _ | .finalApply _
  | .positionRenewal | .slotFull _ _ | .slotFree _ _ | .tileOpStart _ | .tileOpComplete _ | .linkRetry _ _
  | .fieldRepair _ | .agentFatalError _ | .agentResponseTimeout _ | .readmission _ | .traceSample _ | .ctxRoot _ _
  | .ctxEnd _ | .tenantDesc _ _ | .shuttleGrant _ _ | .collGrant _ _ | .uecBind _ _ | .codeLoad _ _ | .advLoad _ _
  | .loomReload _ | .biasFlip _ _ | .biasFlipComplete _ | .ctxLostClear _ | .ctxSaveUseClear _ _
  | .stallEvictClear | .sysregWrite _ _ _ | .registerBankRetention _ _ | .xredComplete _ _ => false

end Sys2Proof
end

