-- ==== Sys2Proof/Decode.lean ====
section
/-! DEFINITION. Decoding words to instructions (R58 to R77, R291), and the encoder. A word is a number; a field of n
bits from bit lo up is `bv w lo n`. The decoder is total: a word that is no instruction of its agent is the row
ILLEGAL_INSTRUCTION with its subcode (R70, R71), an advice word that is none is ADVICE_WORD_DROP (R76). -/

namespace Sys2Proof

open Sys2Proof.Machine

/-- The field of n bits of a word from bit lo up. -/
def bv (w lo n : Nat) : BitVec n := BitVec.ofNat n (w / 2 ^ lo)

/-- What a word of an assigned minor holds: whether its must-be-zero bits are zero, and the instruction. -/
abbrev Found := Option (Bool × Instr)

/-- Major 0x00: scalar arithmetic (R97). -/
noncomputable def major00 (w : Nat) : Found :=
  match bits w 31 23 with
  | 0 => some (true, .add (bv w 18 5) (bv w 13 5) (bv w 8 5))
  | 1 => some (true, .sub (bv w 18 5) (bv w 13 5) (bv w 8 5))
  | 2 => some (true, .and (bv w 18 5) (bv w 13 5) (bv w 8 5))
  | 3 => some (true, .or (bv w 18 5) (bv w 13 5) (bv w 8 5))
  | 4 => some (true, .xor (bv w 18 5) (bv w 13 5) (bv w 8 5))
  | 5 => some (true, .sll (bv w 18 5) (bv w 13 5) (bv w 8 5))
  | 6 => some (true, .srl (bv w 18 5) (bv w 13 5) (bv w 8 5))
  | 7 => some (true, .sra (bv w 18 5) (bv w 13 5) (bv w 8 5))
  | 8 => some (true, .addw (bv w 18 5) (bv w 13 5) (bv w 8 5))
  | 9 => some (true, .subw (bv w 18 5) (bv w 13 5) (bv w 8 5))
  | 10 => some (true, .sllw (bv w 18 5) (bv w 13 5) (bv w 8 5))
  | 11 => some (true, .srlw (bv w 18 5) (bv w 13 5) (bv w 8 5))
  | 12 => some (true, .sraw (bv w 18 5) (bv w 13 5) (bv w 8 5))
  | 13 => some (true, .min (bv w 18 5) (bv w 13 5) (bv w 8 5))
  | 14 => some (true, .max (bv w 18 5) (bv w 13 5) (bv w 8 5))
  | 15 => some (true, .minu (bv w 18 5) (bv w 13 5) (bv w 8 5))
  | 16 => some (true, .maxu (bv w 18 5) (bv w 13 5) (bv w 8 5))
  | 17 => some (true, .andn (bv w 18 5) (bv w 13 5) (bv w 8 5))
  | 18 => some (true, .orn (bv w 18 5) (bv w 13 5) (bv w 8 5))
  | _ => none

/-- Major 0x01: immediates (R99). -/
noncomputable def major01 (w : Nat) : Found :=
  match bits w 20 18 with
  | 0 => some (true, .addi (bv w 21 11) (bv w 13 5) (bv w 8 5))
  | 1 => some (true, .andi (bv w 21 11) (bv w 13 5) (bv w 8 5))
  | 2 => some (true, .ori (bv w 21 11) (bv w 13 5) (bv w 8 5))
  | 3 => some (true, .xori (bv w 21 11) (bv w 13 5) (bv w 8 5))
  | 4 => some (decide (bits w 31 27 = 0), .slli (bv w 21 6) (bv w 13 5) (bv w 8 5))
  | 5 => if bits w 27 27 = 0 then some (decide (bits w 31 28 = 0), .srli (bv w 21 6) (bv w 13 5) (bv w 8 5))
      else some (decide (bits w 31 28 = 0), .srai (bv w 21 6) (bv w 13 5) (bv w 8 5))
  | 6 => some (true, .shori (bv w 21 11) (bv w 13 5) (bv w 8 5))
  | _ => some (true, .addiw (bv w 21 11) (bv w 13 5) (bv w 8 5))

/-- Major 0x02: multiply and divide (R97, R98). -/
noncomputable def major02 (w : Nat) : Found :=
  match bits w 31 23 with
  | 0 => some (true, .mul (bv w 18 5) (bv w 13 5) (bv w 8 5))
  | 1 => some (true, .mulh (bv w 18 5) (bv w 13 5) (bv w 8 5))
  | 2 => some (true, .mulhu (bv w 18 5) (bv w 13 5) (bv w 8 5))
  | 3 => some (true, .mulhsu (bv w 18 5) (bv w 13 5) (bv w 8 5))
  | 4 => some (true, .div (bv w 18 5) (bv w 13 5) (bv w 8 5))
  | 5 => some (true, .divu (bv w 18 5) (bv w 13 5) (bv w 8 5))
  | 6 => some (true, .rem (bv w 18 5) (bv w 13 5) (bv w 8 5))
  | 7 => some (true, .remu (bv w 18 5) (bv w 13 5) (bv w 8 5))
  | 8 => some (true, .mulw (bv w 18 5) (bv w 13 5) (bv w 8 5))
  | 9 => some (true, .divw (bv w 18 5) (bv w 13 5) (bv w 8 5))
  | 10 => some (true, .remw (bv w 18 5) (bv w 13 5) (bv w 8 5))
  | _ => none

/-- Major 0x03: aupc (R100). -/
noncomputable def major03 (w : Nat) : Found :=
  some (true, .aupc (bv w 13 19) (bv w 8 5))

/-- Major 0x04: branches (R101). -/
noncomputable def major04 (w : Nat) : Found :=
  match bits w 20 18 with
  | 0 => some (true, .beq (bv w 21 11) (bv w 13 5) (bv w 8 5))
  | 1 => some (true, .bne (bv w 21 11) (bv w 13 5) (bv w 8 5))
  | 2 => some (true, .blt (bv w 21 11) (bv w 13 5) (bv w 8 5))
  | 3 => some (true, .bge (bv w 21 11) (bv w 13 5) (bv w 8 5))
  | 4 => some (true, .bltu (bv w 21 11) (bv w 13 5) (bv w 8 5))
  | 5 => some (true, .bgeu (bv w 21 11) (bv w 13 5) (bv w 8 5))
  | _ => none

/-- Major 0x05: jal. -/
noncomputable def major05 (w : Nat) : Found :=
  some (true, .jal (bv w 13 19) (bv w 8 5))

/-- Major 0x06: jalr and ret. -/
noncomputable def major06 (w : Nat) : Found :=
  match bits w 20 18 with
  | 0 => some (true, .jalr (bv w 21 11) (bv w 13 5) (bv w 8 5))
  | 1 => some (decide (bits w 12 8 = 0) && decide (bits w 31 21 = 0), .ret (bv w 13 5))
  | _ => none

/-- Major 0x07: compares and bit operations (R97). -/
noncomputable def major07 (w : Nat) : Found :=
  match bits w 31 23 with
  | 0 => some (true, .seq (bv w 18 5) (bv w 13 5) (bv w 8 5))
  | 1 => some (true, .sne (bv w 18 5) (bv w 13 5) (bv w 8 5))
  | 2 => some (true, .slt (bv w 18 5) (bv w 13 5) (bv w 8 5))
  | 3 => some (true, .sltu (bv w 18 5) (bv w 13 5) (bv w 8 5))
  | 4 => some (decide (bits w 22 18 = 0), .clz (bv w 13 5) (bv w 8 5))
  | 5 => some (decide (bits w 22 18 = 0), .ctz (bv w 13 5) (bv w 8 5))
  | 6 => some (decide (bits w 22 18 = 0), .cpop (bv w 13 5) (bv w 8 5))
  | 7 => some (decide (bits w 22 18 = 0), .rev8 (bv w 13 5) (bv w 8 5))
  | 8 => some (true, .bext (bv w 18 5) (bv w 13 5) (bv w 8 5))
  | 9 => some (true, .bdep (bv w 18 5) (bv w 13 5) (bv w 8 5))
  | 10 => some (true, .rotl (bv w 18 5) (bv w 13 5) (bv w 8 5))
  | 11 => some (true, .rotr (bv w 18 5) (bv w 13 5) (bv w 8 5))
  | _ => none

/-- Major 0x08: loads (R140). -/
noncomputable def major08 (w : Nat) : Found :=
  match bits w 24 22 with
  | 0 => some (true, .ldb (bv w 25 7) (bv w 18 4) (bv w 13 5) (bv w 8 5))
  | 1 => some (true, .ldh (bv w 25 7) (bv w 18 4) (bv w 13 5) (bv w 8 5))
  | 2 => some (true, .ldw (bv w 25 7) (bv w 18 4) (bv w 13 5) (bv w 8 5))
  | 3 => some (true, .ldd (bv w 25 7) (bv w 18 4) (bv w 13 5) (bv w 8 5))
  | 4 => some (true, .ldbu (bv w 25 7) (bv w 18 4) (bv w 13 5) (bv w 8 5))
  | 5 => some (true, .ldhu (bv w 25 7) (bv w 18 4) (bv w 13 5) (bv w 8 5))
  | 6 => some (true, .ldwu (bv w 25 7) (bv w 18 4) (bv w 13 5) (bv w 8 5))
  | _ => none

/-- Major 0x09: stores (R140). -/
noncomputable def major09 (w : Nat) : Found :=
  match bits w 24 22 with
  | 0 => some (true, .stb (bv w 25 7) (bv w 18 4) (bv w 13 5) (bv w 8 5))
  | 1 => some (true, .sth (bv w 25 7) (bv w 18 4) (bv w 13 5) (bv w 8 5))
  | 2 => some (true, .stw (bv w 25 7) (bv w 18 4) (bv w 13 5) (bv w 8 5))
  | 3 => some (true, .std (bv w 25 7) (bv w 18 4) (bv w 13 5) (bv w 8 5))
  | _ => none

/-- Major 0x0A: atomics (R141, R142). -/
noncomputable def major0A (w : Nat) : Found :=
  match bits w 31 27 with
  | 0 => some (true, .amoswap (bv w 23 4) (bv w 18 5) (bv w 13 5) (bv w 8 5))
  | 1 => some (true, .amoadd (bv w 23 4) (bv w 18 5) (bv w 13 5) (bv w 8 5))
  | 2 => some (true, .amoand (bv w 23 4) (bv w 18 5) (bv w 13 5) (bv w 8 5))
  | 3 => some (true, .amoor (bv w 23 4) (bv w 18 5) (bv w 13 5) (bv w 8 5))
  | 4 => some (true, .amoxor (bv w 23 4) (bv w 18 5) (bv w 13 5) (bv w 8 5))
  | 5 => some (true, .amomin (bv w 23 4) (bv w 18 5) (bv w 13 5) (bv w 8 5))
  | 6 => some (true, .amomax (bv w 23 4) (bv w 18 5) (bv w 13 5) (bv w 8 5))
  | 7 => some (true, .amominu (bv w 23 4) (bv w 18 5) (bv w 13 5) (bv w 8 5))
  | 8 => some (true, .amomaxu (bv w 23 4) (bv w 18 5) (bv w 13 5) (bv w 8 5))
  | 9 => some (true, .amocas (bv w 23 4) (bv w 18 5) (bv w 13 5) (bv w 8 5))
  | 10 => some (decide (bits w 22 18 = 0), .lr (bv w 23 4) (bv w 13 5) (bv w 8 5))
  | 11 => some (true, .sc (bv w 23 4) (bv w 18 5) (bv w 13 5) (bv w 8 5))
  | 16 => some (true, .amoswapW (bv w 23 4) (bv w 18 5) (bv w 13 5) (bv w 8 5))
  | 17 => some (true, .amoaddW (bv w 23 4) (bv w 18 5) (bv w 13 5) (bv w 8 5))
  | 18 => some (true, .amoandW (bv w 23 4) (bv w 18 5) (bv w 13 5) (bv w 8 5))
  | 19 => some (true, .amoorW (bv w 23 4) (bv w 18 5) (bv w 13 5) (bv w 8 5))
  | 20 => some (true, .amoxorW (bv w 23 4) (bv w 18 5) (bv w 13 5) (bv w 8 5))
  | 21 => some (true, .amominW (bv w 23 4) (bv w 18 5) (bv w 13 5) (bv w 8 5))
  | 22 => some (true, .amomaxW (bv w 23 4) (bv w 18 5) (bv w 13 5) (bv w 8 5))
  | 23 => some (true, .amominuW (bv w 23 4) (bv w 18 5) (bv w 13 5) (bv w 8 5))
  | 24 => some (true, .amomaxuW (bv w 23 4) (bv w 18 5) (bv w 13 5) (bv w 8 5))
  | 25 => some (true, .amocasW (bv w 23 4) (bv w 18 5) (bv w 13 5) (bv w 8 5))
  | 26 => some (decide (bits w 22 18 = 0), .lrW (bv w 23 4) (bv w 13 5) (bv w 8 5))
  | 27 => some (true, .scW (bv w 23 4) (bv w 18 5) (bv w 13 5) (bv w 8 5))
  | _ => none

/-- Major 0x0B: SETVL and STRIP (R63, R106 to R108). -/
noncomputable def major0B (w : Nat) : Found :=
  if bits w 31 31 = 1 then some (decide (bits w 20 20 = 0), .strip (bv w 21 10) (bv w 18 2) (bv w 13 5) (bv w 8 5))
  else match bits w 31 27 with
  | 0 => some (true, .setvl (bv w 26 1) (bv w 24 2) (bv w 22 2) (bv w 18 4) (bv w 13 5) (bv w 8 5))
  | 1 => some (decide (bits w 26 18 = 0), .setsw (bv w 13 5) (bv w 8 5))
  | 2 => some (decide (bits w 26 13 = 0), .getvt (bv w 8 5))
  | 3 => some (decide (bits w 26 13 = 0), .getsw (bv w 8 5))
  | 4 => some (decide (bits w 26 18 = 0), .setrm (bv w 13 5) (bv w 8 5))
  | _ => none

/-- Major 0x0C: waitc, fence.c and barriers (R109 to R113). -/
noncomputable def major0C (w : Nat) : Found :=
  match bits w 31 28 with
  | 0 => some (decide (bits w 27 24 = 0), .waitc (bv w 20 4) (bv w 16 4) (bv w 12 4) (bv w 8 4))
  | 1 => if bits w 24 24 = 0 then some (true, .fenceC (bv w 25 3) (bv w 20 4) (bv w 16 4) (bv w 12 4) (bv w 8 4))
      else some (decide (bits w 23 13 = 0), .fenceCReg (bv w 25 3) (bv w 8 5))
  | 2 => if bits w 18 18 = 0 then some (decide (bits w 17 13 = 0), .bar (bv w 25 3) (bv w 19 6) (bv w 8 5))
      else some (decide (bits w 17 13 = 0), .barW (bv w 25 3) (bv w 19 6) (bv w 8 5))
  | 3 => some (decide (bits w 18 18 = 0), .arrive (bv w 25 3) (bv w 19 6) (bv w 13 5) (bv w 8 5))
  | _ => none

/-- Major 0x0D: shuttle ring, mark, launch and yield (R115 to R118). -/
noncomputable def major0D (w : Nat) : Found :=
  match bits w 31 28 with
  | 0 => some (decide (bits w 16 13 = 0), .ipost (bv w 24 4) (bv w 20 4) (bv w 17 3) (bv w 8 5))
  | 1 => some (decide (bits w 16 13 = 0), .iwait (bv w 24 4) (bv w 20 4) (bv w 17 3) (bv w 8 5))
  | 2 => some (decide (bits w 27 20 = 0), .mark (bv w 8 12))
  | 3 => some (true, .launch (bv w 23 5) (bv w 18 5) (bv w 13 5) (bv w 8 5))
  | 4 => some (decide (bits w 27 16 = 0), .yield (bv w 8 8))
  | _ => none

/-- Major 0x0E: system (R276). -/
noncomputable def major0E (w : Nat) : Found :=
  match bits w 20 18 with
  | 0 => some (true, .getc (bv w 21 11) (bv w 13 5) (bv w 8 5))
  | 1 => some (true, .setc (bv w 21 11) (bv w 13 5) (bv w 8 5))
  | 2 => some (decide (bits w 17 8 = 0), .trap (bv w 21 11))
  | 3 => some (decide (bits w 17 8 = 0) && decide (bits w 31 21 = 0), .eret)
  | 4 => some (decide (bits w 31 21 = 0), .tlbinv (bv w 13 5) (bv w 8 5))
  | 5 => some (decide (bits w 12 8 = 0) && decide (bits w 31 21 = 0), .tlbsync (bv w 13 5))
  | 6 => if bits w 31 31 = 0 then some (true, .ilock (bv w 21 10) (bv w 13 5) (bv w 8 5))
      else some (true, .iunlock (bv w 21 10) (bv w 13 5) (bv w 8 5))
  | _ => some (decide (bits w 17 8 = 0) && decide (bits w 31 21 = 0), .fenceI)

/-- Major 0x10: vld. -/
noncomputable def major10 (w : Nat) : Found :=
  some (decide (bits w 24 19 = 0), .vld (bv w 28 4) (bv w 25 3) (bv w 14 5) (bv w 8 6))

/-- Major 0x11: vlds. -/
noncomputable def major11 (w : Nat) : Found :=
  some (decide (bits w 24 24 = 0), .vlds (bv w 28 4) (bv w 25 3) (bv w 19 5) (bv w 14 5) (bv w 8 6))

/-- Major 0x12: vgather. -/
noncomputable def major12 (w : Nat) : Found :=
  some (true, .vgather (bv w 28 4) (bv w 25 3) (bv w 19 6) (bv w 14 5) (bv w 8 6))

/-- Major 0x13: vldff. -/
noncomputable def major13 (w : Nat) : Found :=
  some (decide (bits w 24 19 = 0), .vldff (bv w 28 4) (bv w 25 3) (bv w 14 5) (bv w 8 6))

/-- Major 0x14: vst. -/
noncomputable def major14 (w : Nat) : Found :=
  some (decide (bits w 24 19 = 0), .vst (bv w 28 4) (bv w 25 3) (bv w 14 5) (bv w 8 6))

/-- Major 0x15: vsts. -/
noncomputable def major15 (w : Nat) : Found :=
  some (decide (bits w 24 24 = 0), .vsts (bv w 28 4) (bv w 25 3) (bv w 19 5) (bv w 14 5) (bv w 8 6))

/-- Major 0x16: vscatter. -/
noncomputable def major16 (w : Nat) : Found :=
  some (true, .vscatter (bv w 28 4) (bv w 25 3) (bv w 19 6) (bv w 14 5) (bv w 8 6))

/-- Major 0x17: vamo and damo (R146, R147). -/
noncomputable def major17 (w : Nat) : Found :=
  match bits w 31 28 with
  | 0 => some (true, .vamoAdd (bv w 25 3) (bv w 19 6) (bv w 14 5) (bv w 8 6))
  | 1 => some (true, .vamoMin (bv w 25 3) (bv w 19 6) (bv w 14 5) (bv w 8 6))
  | 2 => some (true, .vamoMax (bv w 25 3) (bv w 19 6) (bv w 14 5) (bv w 8 6))
  | 3 => some (true, .vamoAnd (bv w 25 3) (bv w 19 6) (bv w 14 5) (bv w 8 6))
  | 4 => some (true, .vamoOr (bv w 25 3) (bv w 19 6) (bv w 14 5) (bv w 8 6))
  | 5 => some (true, .vamoXor (bv w 25 3) (bv w 19 6) (bv w 14 5) (bv w 8 6))
  | 6 => some (true, .vamoSwap (bv w 25 3) (bv w 19 6) (bv w 14 5) (bv w 8 6))
  | 8 => some (true, .damoAdd (bv w 25 3) (bv w 19 6) (bv w 14 5) (bv w 8 6))
  | _ => none

/-- Major 0x18: local store (R150). -/
noncomputable def major18 (w : Nat) : Found :=
  match bits w 31 28 with
  | 0 => some (decide (bits w 24 19 = 0), .lsld (bv w 25 3) (bv w 14 5) (bv w 8 6))
  | 1 => some (decide (bits w 24 24 = 0), .lslds (bv w 25 3) (bv w 19 5) (bv w 14 5) (bv w 8 6))
  | 2 => some (true, .lsgather (bv w 25 3) (bv w 19 6) (bv w 14 5) (bv w 8 6))
  | 3 => some (decide (bits w 24 24 = 0), .lsldq (bv w 25 3) (bv w 19 5) (bv w 14 5) (bv w 8 6))
  | 4 => some (decide (bits w 24 19 = 0), .lsst (bv w 25 3) (bv w 14 5) (bv w 8 6))
  | 5 => some (decide (bits w 24 24 = 0), .lssts (bv w 25 3) (bv w 19 5) (bv w 14 5) (bv w 8 6))
  | 6 => some (true, .lsscatter (bv w 25 3) (bv w 19 6) (bv w 14 5) (bv w 8 6))
  | 7 => some (decide (bits w 24 24 = 0), .lsstq (bv w 25 3) (bv w 19 5) (bv w 14 5) (bv w 8 6))
  | _ => none

/-- Major 0x19: copies and streams (R153, R156). -/
noncomputable def major19 (w : Nat) : Found :=
  match bits w 31 25 with
  | 0 => some (true, .copyCfg (bv w 21 4) (bv w 18 3) (bv w 13 5) (bv w 8 5))
  | 1 => some (decide (bits w 12 8 = 0) && decide (bits w 24 21 = 0), .qbind (bv w 18 3) (bv w 13 5))
  | 2 => some (decide (bits w 17 8 = 0) && decide (bits w 24 21 = 0), .qunbind (bv w 18 3))
  | 3 => some (decide (bits w 12 8 = 0) && decide (bits w 24 18 = 0), .hwaitSrc (bv w 13 5))
  | 4 => some (decide (bits w 12 8 = 0) && decide (bits w 24 21 = 0), .hwaitVis (bv w 18 3) (bv w 13 5))
  | 5 => some (decide (bits w 12 8 = 0) && decide (bits w 24 18 = 0), .hrel (bv w 13 5))
  | 6 => some (decide (bits w 24 18 = 0), .hstate (bv w 13 5) (bv w 8 5))
  | _ => none

/-- Major 0x1A: vpush and xred (R159, R160). -/
noncomputable def major1A (w : Nat) : Found :=
  match bits w 31 29 with
  | 0 => some (true, .vpush (bv w 25 4) (bv w 20 5) (bv w 14 6) (bv w 8 6))
  | 1 => some (true, .xredO (bv w 25 4) (bv w 20 5) (bv w 14 6) (bv w 8 6))
  | 2 => some (true, .xredF (bv w 25 4) (bv w 20 5) (bv w 14 6) (bv w 8 6))
  | _ => none

/-- Major 0x1B: tile cache (R171). -/
noncomputable def major1B (w : Nat) : Found :=
  match bits w 31 27 with
  | 0 => some (true, .treg (bv w 23 4) (bv w 18 5) (bv w 13 5) (bv w 8 5))
  | 1 => some (decide (bits w 26 18 = 0), .tunreg (bv w 13 5) (bv w 8 5))
  | 2 => some (decide (bits w 26 23 = 0), .tlook (bv w 18 5) (bv w 13 5) (bv w 8 5))
  | 3 => some (decide (bits w 12 8 = 0) && decide (bits w 26 23 = 0), .tfetch (bv w 18 5) (bv w 13 5))
  | 4 => some (true, .thalo (bv w 23 4) (bv w 18 5) (bv w 13 5) (bv w 8 5))
  | 5 => some (decide (bits w 26 18 = 0), .tinv (bv w 13 5) (bv w 8 5))
  | 6 => some (decide (bits w 26 23 = 0), .tkeep (bv w 18 5) (bv w 13 5) (bv w 8 5))
  | _ => none

/-- Major 0x1C: regions and claims (R186, R198). -/
noncomputable def major1C (w : Nat) : Found :=
  match bits w 31 27 with
  | 0 => some (decide (bits w 22 13 = 0), .xbeginE (bv w 23 4) (bv w 8 5))
  | 1 => some (decide (bits w 22 13 = 0), .xbeginS (bv w 23 4) (bv w 8 5))
  | 2 => some (decide (bits w 26 13 = 0), .xend (bv w 8 5))
  | 3 => some (decide (bits w 12 8 = 0) && decide (bits w 26 18 = 0), .xabort (bv w 13 5))
  | 4 => (match bits w 26 23 with
    | 0 => some (decide (bits w 22 13 = 0), .xbndLo (bv w 8 5))
    | 1 => some (decide (bits w 22 13 = 0), .xbndHi (bv w 8 5))
    | n => some (decide (n = 2), .xbnd (bv w 18 5) (bv w 13 5) (bv w 8 5)))
  | 5 => some (decide (bits w 26 23 = 0), .sclaim (bv w 18 5) (bv w 13 5) (bv w 8 5))
  | 6 => some (decide (bits w 12 8 = 0) && decide (bits w 26 18 = 0), .srel (bv w 13 5))
  | _ => none

/-- Major 0x1D: matrix-side forms (R253, R262, R264 to R267). -/
noncomputable def major1D (w : Nat) : Found :=
  match bits w 31 28 with
  | 0 => some (decide (bits w 13 8 = 0) && decide (bits w 27 19 = 0), .oclaim (bv w 14 5))
  | 1 => some (decide (bits w 13 8 = 0) && decide (bits w 27 19 = 0), .orel (bv w 14 5))
  | 2 => some (true, .oput (bv w 24 4) (bv w 19 5) (bv w 14 5) (bv w 8 6))
  | 3 => some (decide (bits w 18 14 = 0), .accget (bv w 24 4) (bv w 19 5) (bv w 8 6))
  | 4 => some (decide (bits w 18 14 = 0), .accput (bv w 24 4) (bv w 19 5) (bv w 8 6))
  | 5 => some (decide (bits w 18 8 = 0), .accstore (bv w 24 4) (bv w 19 5))
  | 6 => some (true, .scldA (bv w 24 4) (bv w 19 5) (bv w 14 5) (bv w 8 6))
  | 7 => some (decide (bits w 13 8 = 0), .scldW (bv w 24 4) (bv w 19 5) (bv w 14 5))
  | _ => none

/-- Major 0x20. -/
noncomputable def major20 (w : Nat) : Found :=
  match bits w 31 30 with
  | 0 => some (true, .vadd (bv w 26 4) (bv w 20 6) (bv w 14 6) (bv w 8 6))
  | 1 => some (true, .vsub (bv w 26 4) (bv w 20 6) (bv w 14 6) (bv w 8 6))
  | 2 => some (true, .vrsub (bv w 26 4) (bv w 20 6) (bv w 14 6) (bv w 8 6))
  | _ => some (true, .vmul (bv w 26 4) (bv w 20 6) (bv w 14 6) (bv w 8 6))

/-- Major 0x21. -/
noncomputable def major21 (w : Nat) : Found :=
  match bits w 31 30 with
  | 0 => some (true, .vmulh (bv w 26 4) (bv w 20 6) (bv w 14 6) (bv w 8 6))
  | 1 => some (true, .vmulhu (bv w 26 4) (bv w 20 6) (bv w 14 6) (bv w 8 6))
  | 2 => some (true, .vdiv (bv w 26 4) (bv w 20 6) (bv w 14 6) (bv w 8 6))
  | _ => some (true, .vdivu (bv w 26 4) (bv w 20 6) (bv w 14 6) (bv w 8 6))

/-- Major 0x22. -/
noncomputable def major22 (w : Nat) : Found :=
  match bits w 31 30 with
  | 0 => some (true, .vrem (bv w 26 4) (bv w 20 6) (bv w 14 6) (bv w 8 6))
  | 1 => some (true, .vremu (bv w 26 4) (bv w 20 6) (bv w 14 6) (bv w 8 6))
  | 2 => some (true, .vand (bv w 26 4) (bv w 20 6) (bv w 14 6) (bv w 8 6))
  | _ => some (true, .vor (bv w 26 4) (bv w 20 6) (bv w 14 6) (bv w 8 6))

/-- Major 0x23. -/
noncomputable def major23 (w : Nat) : Found :=
  match bits w 31 30 with
  | 0 => some (true, .vxor (bv w 26 4) (bv w 20 6) (bv w 14 6) (bv w 8 6))
  | 1 => some (true, .vsll (bv w 26 4) (bv w 20 6) (bv w 14 6) (bv w 8 6))
  | 2 => some (true, .vsrl (bv w 26 4) (bv w 20 6) (bv w 14 6) (bv w 8 6))
  | _ => some (true, .vsra (bv w 26 4) (bv w 20 6) (bv w 14 6) (bv w 8 6))

/-- Major 0x24. -/
noncomputable def major24 (w : Nat) : Found :=
  match bits w 31 30 with
  | 0 => some (true, .vmin (bv w 26 4) (bv w 20 6) (bv w 14 6) (bv w 8 6))
  | 1 => some (true, .vmax (bv w 26 4) (bv w 20 6) (bv w 14 6) (bv w 8 6))
  | 2 => some (true, .vminu (bv w 26 4) (bv w 20 6) (bv w 14 6) (bv w 8 6))
  | _ => some (true, .vmaxu (bv w 26 4) (bv w 20 6) (bv w 14 6) (bv w 8 6))

/-- Major 0x25. -/
noncomputable def major25 (w : Nat) : Found :=
  match bits w 31 30 with
  | 0 => some (true, .vsadd (bv w 26 4) (bv w 20 6) (bv w 14 6) (bv w 8 6))
  | 1 => some (true, .vsaddu (bv w 26 4) (bv w 20 6) (bv w 14 6) (bv w 8 6))
  | 2 => some (true, .vssub (bv w 26 4) (bv w 20 6) (bv w 14 6) (bv w 8 6))
  | _ => some (true, .vssubu (bv w 26 4) (bv w 20 6) (bv w 14 6) (bv w 8 6))

/-- Major 0x26. -/
noncomputable def major26 (w : Nat) : Found :=
  match bits w 31 30 with
  | 0 => some (true, .vseq (bv w 26 4) (bv w 20 6) (bv w 14 6) (bv w 8 6))
  | 1 => some (true, .vsne (bv w 26 4) (bv w 20 6) (bv w 14 6) (bv w 8 6))
  | 2 => some (true, .vslt (bv w 26 4) (bv w 20 6) (bv w 14 6) (bv w 8 6))
  | _ => some (true, .vsltu (bv w 26 4) (bv w 20 6) (bv w 14 6) (bv w 8 6))

/-- Major 0x27. -/
noncomputable def major27 (w : Nat) : Found :=
  match bits w 31 30 with
  | 0 => some (true, .vsle (bv w 26 4) (bv w 20 6) (bv w 14 6) (bv w 8 6))
  | 1 => some (true, .vsleu (bv w 26 4) (bv w 20 6) (bv w 14 6) (bv w 8 6))
  | 2 => some (true, .vmerge (bv w 26 4) (bv w 20 6) (bv w 14 6) (bv w 8 6))
  | _ => some (true, .vavg (bv w 26 4) (bv w 20 6) (bv w 14 6) (bv w 8 6))

/-- Major 0x28. -/
noncomputable def major28 (w : Nat) : Found :=
  match bits w 31 30 with
  | 0 => some (true, .vfadd (bv w 26 4) (bv w 20 6) (bv w 14 6) (bv w 8 6))
  | 1 => some (true, .vfsub (bv w 26 4) (bv w 20 6) (bv w 14 6) (bv w 8 6))
  | 2 => some (true, .vfmul (bv w 26 4) (bv w 20 6) (bv w 14 6) (bv w 8 6))
  | _ => some (true, .vfdiv (bv w 26 4) (bv w 20 6) (bv w 14 6) (bv w 8 6))

/-- Major 0x29. -/
noncomputable def major29 (w : Nat) : Found :=
  match bits w 31 30 with
  | 0 => some (true, .vfmin (bv w 26 4) (bv w 20 6) (bv w 14 6) (bv w 8 6))
  | 1 => some (true, .vfmax (bv w 26 4) (bv w 20 6) (bv w 14 6) (bv w 8 6))
  | 2 => some (true, .vfsgnj (bv w 26 4) (bv w 20 6) (bv w 14 6) (bv w 8 6))
  | _ => some (true, .vfsgnjn (bv w 26 4) (bv w 20 6) (bv w 14 6) (bv w 8 6))

/-- Major 0x2A. -/
noncomputable def major2A (w : Nat) : Found :=
  match bits w 31 30 with
  | 0 => some (true, .vfsgnjx (bv w 26 4) (bv w 20 6) (bv w 14 6) (bv w 8 6))
  | 1 => some (true, .vfeq (bv w 26 4) (bv w 20 6) (bv w 14 6) (bv w 8 6))
  | 2 => some (true, .vfne (bv w 26 4) (bv w 20 6) (bv w 14 6) (bv w 8 6))
  | _ => some (true, .vflt (bv w 26 4) (bv w 20 6) (bv w 14 6) (bv w 8 6))

/-- Major 0x2B. -/
noncomputable def major2B (w : Nat) : Found :=
  match bits w 31 30 with
  | 0 => some (true, .vfle (bv w 26 4) (bv w 20 6) (bv w 14 6) (bv w 8 6))
  | 1 => some (true, .vfmerge (bv w 26 4) (bv w 20 6) (bv w 14 6) (bv w 8 6))
  | _ => none

/-- Major 0x30. -/
noncomputable def major30 (w : Nat) : Found :=
  match bits w 31 29 with
  | 0 => some (true, .vadds (bv w 25 4) (bv w 20 5) (bv w 14 6) (bv w 8 6))
  | 1 => some (true, .vsubs (bv w 25 4) (bv w 20 5) (bv w 14 6) (bv w 8 6))
  | 2 => some (true, .vrsubs (bv w 25 4) (bv w 20 5) (bv w 14 6) (bv w 8 6))
  | 3 => some (true, .vmuls (bv w 25 4) (bv w 20 5) (bv w 14 6) (bv w 8 6))
  | 4 => some (true, .vands (bv w 25 4) (bv w 20 5) (bv w 14 6) (bv w 8 6))
  | 5 => some (true, .vors (bv w 25 4) (bv w 20 5) (bv w 14 6) (bv w 8 6))
  | 6 => some (true, .vxors (bv w 25 4) (bv w 20 5) (bv w 14 6) (bv w 8 6))
  | _ => some (true, .vslls (bv w 25 4) (bv w 20 5) (bv w 14 6) (bv w 8 6))

/-- Major 0x31. -/
noncomputable def major31 (w : Nat) : Found :=
  match bits w 31 29 with
  | 0 => some (true, .vsrls (bv w 25 4) (bv w 20 5) (bv w 14 6) (bv w 8 6))
  | 1 => some (true, .vsras (bv w 25 4) (bv w 20 5) (bv w 14 6) (bv w 8 6))
  | 2 => some (true, .vmins (bv w 25 4) (bv w 20 5) (bv w 14 6) (bv w 8 6))
  | 3 => some (true, .vmaxs (bv w 25 4) (bv w 20 5) (bv w 14 6) (bv w 8 6))
  | 4 => some (true, .vseqs (bv w 25 4) (bv w 20 5) (bv w 14 6) (bv w 8 6))
  | 5 => some (true, .vslts (bv w 25 4) (bv w 20 5) (bv w 14 6) (bv w 8 6))
  | 6 => some (true, .vsgts (bv w 25 4) (bv w 20 5) (bv w 14 6) (bv w 8 6))
  | _ => some (decide (bits w 19 14 = 0), .vmvs (bv w 25 4) (bv w 20 5) (bv w 8 6))

/-- Major 0x32. -/
noncomputable def major32 (w : Nat) : Found :=
  match bits w 31 29 with
  | 0 => some (true, .vfadds (bv w 25 4) (bv w 20 5) (bv w 14 6) (bv w 8 6))
  | 1 => some (true, .vfsubs (bv w 25 4) (bv w 20 5) (bv w 14 6) (bv w 8 6))
  | 2 => some (true, .vfrsubs (bv w 25 4) (bv w 20 5) (bv w 14 6) (bv w 8 6))
  | 3 => some (true, .vfmuls (bv w 25 4) (bv w 20 5) (bv w 14 6) (bv w 8 6))
  | 4 => some (true, .vfdivs (bv w 25 4) (bv w 20 5) (bv w 14 6) (bv w 8 6))
  | 5 => some (true, .vfrdivs (bv w 25 4) (bv w 20 5) (bv w 14 6) (bv w 8 6))
  | 6 => some (true, .vfmins (bv w 25 4) (bv w 20 5) (bv w 14 6) (bv w 8 6))
  | _ => some (true, .vfmaxs (bv w 25 4) (bv w 20 5) (bv w 14 6) (bv w 8 6))

/-- Major 0x33. -/
noncomputable def major33 (w : Nat) : Found :=
  match bits w 31 29 with
  | 0 => some (true, .vfeqs (bv w 25 4) (bv w 20 5) (bv w 14 6) (bv w 8 6))
  | 1 => some (true, .vflts (bv w 25 4) (bv w 20 5) (bv w 14 6) (bv w 8 6))
  | 2 => some (true, .vfgts (bv w 25 4) (bv w 20 5) (bv w 14 6) (bv w 8 6))
  | 3 => some (decide (bits w 19 14 = 0), .vfmvs (bv w 25 4) (bv w 20 5) (bv w 8 6))
  | _ => none

/-- Major 0x34. -/
noncomputable def major34 (w : Nat) : Found :=
  match bits w 31 24 with
  | 0 => some (true, .vmv (bv w 20 4) (bv w 14 6) (bv w 8 6))
  | 1 => some (true, .vnot (bv w 20 4) (bv w 14 6) (bv w 8 6))
  | 2 => some (true, .vabs (bv w 20 4) (bv w 14 6) (bv w 8 6))
  | 3 => some (true, .vneg (bv w 20 4) (bv w 14 6) (bv w 8 6))
  | 8 => some (true, .vfabs (bv w 20 4) (bv w 14 6) (bv w 8 6))
  | 9 => some (true, .vfneg (bv w 20 4) (bv w 14 6) (bv w 8 6))
  | 10 => some (true, .vfsqrt (bv w 20 4) (bv w 14 6) (bv w 8 6))
  | 11 => some (true, .vfrecip (bv w 20 4) (bv w 14 6) (bv w 8 6))
  | 12 => some (true, .vfrsqrt (bv w 20 4) (bv w 14 6) (bv w 8 6))
  | 13 => some (true, .vfclass (bv w 20 4) (bv w 14 6) (bv w 8 6))
  | 32 => some (true, .vquant (bv w 20 4) (bv w 14 6) (bv w 8 6))
  | 33 => some (true, .vdequant (bv w 20 4) (bv w 14 6) (bv w 8 6))
  | n => if n / 16 = 1 then some (true, .vcvt (bv w 24 4) (bv w 20 4) (bv w 14 6) (bv w 8 6)) else none

/-- Major 0x36. -/
noncomputable def major36 (w : Nat) : Found :=
  match bits w 31 24 with
  | 0 => some (true, .vredsumO (bv w 20 4) (bv w 14 6) (bv w 8 6))
  | 1 => some (true, .vredsumT (bv w 20 4) (bv w 14 6) (bv w 8 6))
  | 2 => some (true, .vredmin (bv w 20 4) (bv w 14 6) (bv w 8 6))
  | 3 => some (true, .vredmax (bv w 20 4) (bv w 14 6) (bv w 8 6))
  | 4 => some (true, .vredand (bv w 20 4) (bv w 14 6) (bv w 8 6))
  | 5 => some (true, .vredor (bv w 20 4) (bv w 14 6) (bv w 8 6))
  | 6 => some (true, .vredxor (bv w 20 4) (bv w 14 6) (bv w 8 6))
  | 8 => some (true, .vfredsumO (bv w 20 4) (bv w 14 6) (bv w 8 6))
  | 9 => some (true, .vfredsumT (bv w 20 4) (bv w 14 6) (bv w 8 6))
  | 10 => some (true, .vfredmin (bv w 20 4) (bv w 14 6) (bv w 8 6))
  | 11 => some (true, .vfredmax (bv w 20 4) (bv w 14 6) (bv w 8 6))
  | 16 => some (true, .vscanO (bv w 20 4) (bv w 14 6) (bv w 8 6))
  | 17 => some (true, .vscanT (bv w 20 4) (bv w 14 6) (bv w 8 6))
  | 24 => some (true, .vfscanO (bv w 20 4) (bv w 14 6) (bv w 8 6))
  | 25 => some (true, .vfscanT (bv w 20 4) (bv w 14 6) (bv w 8 6))
  | _ => none

/-- Major 0x37. -/
noncomputable def major37 (w : Nat) : Found :=
  match bits w 31 30 with
  | 0 => some (true, .vsegsum (bv w 26 4) (bv w 20 6) (bv w 14 6) (bv w 8 6))
  | 1 => some (true, .vfsegsum (bv w 26 4) (bv w 20 6) (bv w 14 6) (bv w 8 6))
  | 2 => some (true, .vsegscan (bv w 26 4) (bv w 20 6) (bv w 14 6) (bv w 8 6))
  | _ => some (true, .vfsegscan (bv w 26 4) (bv w 20 6) (bv w 14 6) (bv w 8 6))

/-- Major 0x38. -/
noncomputable def major38 (w : Nat) : Found :=
  match bits w 31 30 with
  | 0 => some (true, .vrgather (bv w 26 4) (bv w 20 6) (bv w 14 6) (bv w 8 6))
  | 1 => some (decide (bits w 25 20 = 0), .vcompress (bv w 26 4) (bv w 14 6) (bv w 8 6))
  | 2 => some (true, .vzip (bv w 26 4) (bv w 20 6) (bv w 14 6) (bv w 8 6))
  | _ => some (true, .vunzip (bv w 26 4) (bv w 20 6) (bv w 14 6) (bv w 8 6))

/-- Major 0x39. -/
noncomputable def major39 (w : Nat) : Found :=
  match bits w 31 29 with
  | 0 => some (true, .vslideup (bv w 25 4) (bv w 20 5) (bv w 14 6) (bv w 8 6))
  | 1 => some (true, .vslidedown (bv w 25 4) (bv w 20 5) (bv w 14 6) (bv w 8 6))
  | 2 => some (true, .vslide1up (bv w 25 4) (bv w 20 5) (bv w 14 6) (bv w 8 6))
  | 3 => some (true, .vslide1down (bv w 25 4) (bv w 20 5) (bv w 14 6) (bv w 8 6))
  | 4 => some (true, .vfslide1up (bv w 25 4) (bv w 20 5) (bv w 14 6) (bv w 8 6))
  | 5 => some (true, .vfslide1down (bv w 25 4) (bv w 20 5) (bv w 14 6) (bv w 8 6))
  | 6 => some (decide (bits w 24 20 = 0), .viota (bv w 25 4) (bv w 14 6) (bv w 8 6))
  | _ => some (decide (bits w 19 14 = 0), .vid (bv w 25 4) (bv w 20 5) (bv w 8 6))

/-- Major 0x3A. -/
noncomputable def major3A (w : Nat) : Found :=
  match bits w 31 30 with
  | 0 => some (decide (bits w 29 26 = 0), .mand (bv w 20 6) (bv w 14 6) (bv w 8 6))
  | 1 => some (decide (bits w 29 26 = 0), .mor (bv w 20 6) (bv w 14 6) (bv w 8 6))
  | 2 => some (decide (bits w 29 26 = 0), .mxor (bv w 20 6) (bv w 14 6) (bv w 8 6))
  | _ => some (decide (bits w 29 26 = 0), .mandn (bv w 20 6) (bv w 14 6) (bv w 8 6))

/-- Major 0x3B. -/
noncomputable def major3B (w : Nat) : Found :=
  match bits w 31 24 with
  | 0 => some (true, .mnot (bv w 20 4) (bv w 14 6) (bv w 8 6))
  | 1 => some (true, .mfirst (bv w 20 4) (bv w 14 6) (bv w 8 6))
  | 2 => some (true, .mpopc (bv w 20 4) (bv w 14 6) (bv w 8 6))
  | 3 => some (true, .msbf (bv w 20 4) (bv w 14 6) (bv w 8 6))
  | 4 => some (true, .msif (bv w 20 4) (bv w 14 6) (bv w 8 6))
  | 5 => some (true, .msof (bv w 20 4) (bv w 14 6) (bv w 8 6))
  | _ => none

/-- Major 0x3C. -/
noncomputable def major3C (w : Nat) : Found :=
  match bits w 31 30 with
  | 0 => some (true, .vfmadd (bv w 26 4) (bv w 20 6) (bv w 14 6) (bv w 8 6))
  | 1 => some (true, .vfmsub (bv w 26 4) (bv w 20 6) (bv w 14 6) (bv w 8 6))
  | 2 => some (true, .vfnmadd (bv w 26 4) (bv w 20 6) (bv w 14 6) (bv w 8 6))
  | _ => some (true, .vfnmsub (bv w 26 4) (bv w 20 6) (bv w 14 6) (bv w 8 6))

/-- Major 0x3D. -/
noncomputable def major3D (w : Nat) : Found :=
  match bits w 31 30 with
  | 0 => some (true, .vmacc (bv w 26 4) (bv w 20 6) (bv w 14 6) (bv w 8 6))
  | 1 => some (true, .vnmsac (bv w 26 4) (bv w 20 6) (bv w 14 6) (bv w 8 6))
  | 2 => some (true, .vmadd (bv w 26 4) (bv w 20 6) (bv w 14 6) (bv w 8 6))
  | _ => some (true, .vnmsub (bv w 26 4) (bv w 20 6) (bv w 14 6) (bv w 8 6))

/-- Major 0x3F: hints (R74). -/
noncomputable def major3F (w : Nat) : Found :=
  some (true, .hint (bv w 8 24))


/-- A 32-bit word by its major (R69, R77). -/
noncomputable def found32 (w : Nat) : Found :=
  match bits w 7 2 with
  | 0 => major00 w
  | 1 => major01 w
  | 2 => major02 w
  | 3 => major03 w
  | 4 => major04 w
  | 5 => major05 w
  | 6 => major06 w
  | 7 => major07 w
  | 8 => major08 w
  | 9 => major09 w
  | 10 => major0A w
  | 11 => major0B w
  | 12 => major0C w
  | 13 => major0D w
  | 14 => major0E w
  | 16 => major10 w
  | 17 => major11 w
  | 18 => major12 w
  | 19 => major13 w
  | 20 => major14 w
  | 21 => major15 w
  | 22 => major16 w
  | 23 => major17 w
  | 24 => major18 w
  | 25 => major19 w
  | 26 => major1A w
  | 27 => major1B w
  | 28 => major1C w
  | 29 => major1D w
  | 32 => major20 w
  | 33 => major21 w
  | 34 => major22 w
  | 35 => major23 w
  | 36 => major24 w
  | 37 => major25 w
  | 38 => major26 w
  | 39 => major27 w
  | 40 => major28 w
  | 41 => major29 w
  | 42 => major2A w
  | 43 => major2B w
  | 48 => major30 w
  | 49 => major31 w
  | 50 => major32 w
  | 51 => major33 w
  | 52 => major34 w
  | 54 => major36 w
  | 55 => major37 w
  | 56 => major38 w
  | 57 => major39 w
  | 58 => major3A w
  | 59 => major3B w
  | 60 => major3C w
  | 61 => major3D w
  | 63 => major3F w
  | _ => none

/-- The reserved majors (R69, R70). -/
def reservedMajor (maj : Nat) : Bool := decide (maj = 0x0F) || decide (maj = 0x1E) || decide (maj = 0x1F) || decide (maj = 0x3E)

/-- The majors of vector harts only (R69). -/
def vectorMajor (maj : Nat) : Bool :=
  decide (maj = 0x0B) || decide (maj = 0x1C) || (decide (0x10 ≤ maj) && decide (maj ≤ 0x1A)) ||
    (decide (0x20 ≤ maj) && decide (maj ≤ 0x3D))

/-- The subcode of a word that stands on the wrong kind of agent, if it does (R69, R70, R77). -/
def misplaced (control : Bool) (w : Nat) : Option (BitVec 3) :=
  let maj := bits w 7 2
  let fn := bits w 31 28
  if control && vectorMajor maj then some 4
  else if decide (maj = 0x1D) && control && decide (2 ≤ fn) && decide (fn ≤ 5) then some 4
  else if decide (maj = 0x1D) && !control && (decide (fn = 6) || decide (fn = 7)) then some 3
  else none

/-- The optional feature that a word's instruction belongs to (R281). -/
def featureOf (w : Nat) : Option Nat :=
  match bits w 7 2 with
  | 0x17 => if bits w 31 28 = 8 then some 11 else none
  | 0x1A => if bits w 31 29 = 0 then some 13 else some 10
  | 0x1B => some 12
  | 0x1C => if bits w 31 27 ≤ 4 then some 8 else some 9
  | _ => none

/-- The feature is masked for the context (R50, R73); the part has every one. -/
def maskedOut (masked w : Nat) : Bool :=
  match featureOf w with
  | some b => masked.testBit b
  | none => false

/-- A 32-bit word on an agent, under a feature mask (R70, R71). -/
noncomputable def decode32 (control : Bool) (masked w : Nat) : Instr :=
  if reservedMajor (bits w 7 2) then .illegalInstruction 0
  else match misplaced control w with
    | some sub => .illegalInstruction sub
    | none => match found32 w with
      | none => .illegalInstruction 1
      | some (zeros, i) => if maskedOut masked w then .illegalInstruction 6
        else if zeros && i.wf then i else .illegalInstruction 2

/-- A compressed halfword by its op4 (R59, R77). -/
noncomputable def found16 (w : Nat) : Bool × Instr :=
  match bits w 4 1 with
  | 0 => (true, .cAddi (bv w 11 5) (bv w 5 6))
  | 1 => (decide (bits w 5 5 = 0), .cAdd (bv w 11 5) (bv w 6 5))
  | 2 => (decide (bits w 5 5 = 0), .cSub (bv w 11 5) (bv w 6 5))
  | 3 => (decide (bits w 5 5 = 0), .cAnd (bv w 11 5) (bv w 6 5))
  | 4 => (decide (bits w 5 5 = 0), .cOr (bv w 11 5) (bv w 6 5))
  | 5 => (decide (bits w 5 5 = 0), .cXor (bv w 11 5) (bv w 6 5))
  | 6 => (true, .cSlli (bv w 11 5) (bv w 5 6))
  | 7 => (true, .cSrli (bv w 11 5) (bv w 5 6))
  | 8 => (true, .cSrai (bv w 11 5) (bv w 5 6))
  | 9 => (true, .cLdd (bv w 11 5) (bv w 8 3) (bv w 5 3))
  | 10 => (true, .cStd (bv w 11 5) (bv w 8 3) (bv w 5 3))
  | 11 => (true, .cBeq (bv w 13 3) (bv w 5 8))
  | 12 => (true, .cBne (bv w 13 3) (bv w 5 8))
  | 13 => (true, .cJal (bv w 5 11))
  | 14 => (decide (bits w 5 5 = 0), .cJalr (bv w 11 5) (bv w 6 5))
  | _ => (true, .cMark (bv w 5 11))

/-- A compressed halfword (R59, R70). -/
noncomputable def decode16 (w : Nat) : Instr :=
  if w = 0 then .illegalInstruction 5
  else
    let f := found16 w
    if f.1 && f.2.wf then f.2 else .illegalInstruction 2

/-- A T64 word by its TMAJ (R68, R256). -/
noncomputable def found64 (w : Nat) : Found :=
  match bits w 7 2 with
  | 0x00 => some (decide (bits w 63 53 = 0), .mmaO (bv w 47 6) (bv w 40 7) (bv w 36 4) (bv w 28 8) (bv w 20 8) (bv w 14 6) (bv w 8 6))
  | 0x01 => some (decide (bits w 63 53 = 0), .mmaF (bv w 47 6) (bv w 40 7) (bv w 36 4) (bv w 28 8) (bv w 20 8) (bv w 14 6) (bv w 8 6))
  | 0x04 => some (decide (bits w 63 40 = 0) && decide (bits w 19 8 = 0), .accz (bv w 36 4) (bv w 28 8) (bv w 20 8))
  | 0x05 => some (decide (bits w 63 58 = 0) && decide (bits w 52 40 = 0) && decide (bits w 19 8 = 0),
      .accrdS (bv w 53 5) (bv w 36 4) (bv w 28 8) (bv w 20 8))
  | 0x06 => some (decide (bits w 63 58 = 0) && decide (bits w 52 40 = 0) && decide (bits w 19 8 = 0),
      .accrdP (bv w 53 5) (bv w 36 4) (bv w 28 8) (bv w 20 8))
  | 0x08 => some (decide (bits w 63 53 = 0) && decide (bits w 46 36 = 1) && decide (bits w 19 8 = 0),
      .tscl (bv w 47 6) (bv w 28 8) (bv w 20 8))
  | _ => none

/-- A T64 word on an agent (R68, R70, R71). -/
noncomputable def decode64 (control : Bool) (w : Nat) : Instr :=
  if !control then .illegalInstruction 3
  else match found64 w with
    | none => .illegalInstruction 0
    | some (zeros, i) => if zeros && i.wf then i else .illegalInstruction 2

/-- The instruction that an agent reads from the bits at its pc (R58, R60); bits beyond its size are ignored. -/
noncomputable def decode (control : Bool) (masked w : Nat) : Instr :=
  match w % 4 with
  | 1 => decode32 control masked (w % 2 ^ 32)
  | 3 => decode64 control (w % 2 ^ 64)
  | _ => decode16 (w % 2 ^ 16)

/-- An advice word by its op6 (R291). -/
noncomputable def foundAdvice (w : Nat) : Found :=
  match bits w 31 26 with
  | 0 => some (decide (bits w 25 0 = 0), .anop)
  | 1 => some (decide (bits w 21 18 = 0), .ali (bv w 22 4) (bv w 0 18))
  | 2 => some (true, .ashor (bv w 22 4) (bv w 18 4) (bv w 0 18))
  | 3 => some (decide (bits w 13 0 = 0), .aadd (bv w 22 4) (bv w 18 4) (bv w 14 4))
  | 4 => some (true, .aaddi (bv w 22 4) (bv w 18 4) (bv w 0 18))
  | 5 => some (true, .asll (bv w 22 4) (bv w 18 4) (bv w 0 18))
  | 6 => some (decide (bits w 21 0 = 0), .amark (bv w 22 4))
  | 8 => some (decide (bits w 25 18 = 0), .ajmp (bv w 0 18))
  | 9 => some (decide (bits w 25 22 = 0), .abeq (bv w 18 4) (bv w 14 4) (bv w 0 14))
  | 10 => some (decide (bits w 25 22 = 0), .abne (bv w 18 4) (bv w 14 4) (bv w 0 14))
  | 11 => some (decide (bits w 25 12 = 0), .await (bv w 0 12))
  | 12 => some (decide (bits w 25 18 = 0), .adelay (bv w 0 18))
  | 13 => some (decide (bits w 25 0 = 0), .aend)
  | 16 => some (decide (bits w 25 22 = 0), .apfL1 (bv w 18 4) (bv w 0 18))
  | 17 => some (decide (bits w 25 22 = 0), .apfL2 (bv w 18 4) (bv w 0 18))
  | 18 => some (decide (bits w 25 22 = 0), .apfTc (bv w 18 4) (bv w 0 18))
  | 19 => some (decide (bits w 13 0 = 0) && decide (bits w 25 22 = 0), .atfetch (bv w 18 4) (bv w 14 4))
  | 20 => some (decide (bits w 13 0 = 0), .akeep (bv w 22 4) (bv w 18 4) (bv w 14 4))
  | 21 => some (decide (bits w 25 18 = 0), .aprio (bv w 0 18))
  | 22 => some (decide (bits w 25 18 = 0), .aorder (bv w 0 18))
  | 23 => some (decide (bits w 17 0 = 0) && decide (bits w 25 22 = 0), .aplace (bv w 18 4))
  | _ => none

/-- An advice word (R76, R291). -/
noncomputable def decodeAdvice (w : Nat) : Instr :=
  match foundAdvice w with
  | none => .adviceWordDrop
  | some (zeros, i) => if zeros && i.wf then i else .adviceWordDrop

/-- The instruction of a word of the opcode table: on a vector hart, or else on a control core, with every feature; a
32-bit word that no hart executes is read as an advice word. -/
noncomputable def decodeTableWord (nbits w : Nat) : Option Instr :=
  let keep := fun (i : Instr) => if i.wf then some i else none
  match nbits with
  | 16 => if w % 2 = 1 then none else keep (decode16 (w % 2 ^ 16))
  | 64 => if w % 4 = 3 then keep (decode64 true (w % 2 ^ 64)) else none
  | _ =>
    let v := if w % 4 = 1 then (keep (decode32 false 0 (w % 2 ^ 32))).or (keep (decode32 true 0 (w % 2 ^ 32))) else none
    v.or (keep (decodeAdvice (w % 2 ^ 32)))

/-! The encoder. -/

/-- A word of 1 field, each at its lowest bit, over its fixed bits. -/
def pack1 {n1 : Nat} (base : Nat) (l1 : Nat) (v1 : BitVec n1) : Nat :=
  base + v1.toNat * 2 ^ l1

/-- A word of 2 fields, each at its lowest bit, over its fixed bits. -/
def pack2 {n1 n2 : Nat} (base : Nat) (l2 : Nat) (v2 : BitVec n2) (l1 : Nat) (v1 : BitVec n1) : Nat :=
  base + v2.toNat * 2 ^ l2 + v1.toNat * 2 ^ l1

/-- A word of 3 fields, each at its lowest bit, over its fixed bits. -/
def pack3 {n1 n2 n3 : Nat} (base : Nat) (l3 : Nat) (v3 : BitVec n3) (l2 : Nat) (v2 : BitVec n2) (l1 : Nat) (v1 : BitVec n1) : Nat :=
  base + v3.toNat * 2 ^ l3 + v2.toNat * 2 ^ l2 + v1.toNat * 2 ^ l1

/-- A word of 4 fields, each at its lowest bit, over its fixed bits. -/
def pack4 {n1 n2 n3 n4 : Nat} (base : Nat) (l4 : Nat) (v4 : BitVec n4) (l3 : Nat) (v3 : BitVec n3) (l2 : Nat) (v2 : BitVec n2) (l1 : Nat) (v1 : BitVec n1) : Nat :=
  base + v4.toNat * 2 ^ l4 + v3.toNat * 2 ^ l3 + v2.toNat * 2 ^ l2 + v1.toNat * 2 ^ l1

/-- A word of 5 fields, each at its lowest bit, over its fixed bits. -/
def pack5 {n1 n2 n3 n4 n5 : Nat} (base : Nat) (l5 : Nat) (v5 : BitVec n5) (l4 : Nat) (v4 : BitVec n4) (l3 : Nat) (v3 : BitVec n3) (l2 : Nat) (v2 : BitVec n2) (l1 : Nat) (v1 : BitVec n1) : Nat :=
  base + v5.toNat * 2 ^ l5 + v4.toNat * 2 ^ l4 + v3.toNat * 2 ^ l3 + v2.toNat * 2 ^ l2 + v1.toNat * 2 ^ l1

/-- A word of 6 fields, each at its lowest bit, over its fixed bits. -/
def pack6 {n1 n2 n3 n4 n5 n6 : Nat} (base : Nat) (l6 : Nat) (v6 : BitVec n6) (l5 : Nat) (v5 : BitVec n5) (l4 : Nat) (v4 : BitVec n4) (l3 : Nat) (v3 : BitVec n3) (l2 : Nat) (v2 : BitVec n2) (l1 : Nat) (v1 : BitVec n1) : Nat :=
  base + v6.toNat * 2 ^ l6 + v5.toNat * 2 ^ l5 + v4.toNat * 2 ^ l4 + v3.toNat * 2 ^ l3 + v2.toNat * 2 ^ l2 + v1.toNat * 2 ^ l1

/-- A word of 7 fields, each at its lowest bit, over its fixed bits. -/
def pack7 {n1 n2 n3 n4 n5 n6 n7 : Nat} (base : Nat) (l7 : Nat) (v7 : BitVec n7) (l6 : Nat) (v6 : BitVec n6) (l5 : Nat) (v5 : BitVec n5) (l4 : Nat) (v4 : BitVec n4) (l3 : Nat) (v3 : BitVec n3) (l2 : Nat) (v2 : BitVec n2) (l1 : Nat) (v1 : BitVec n1) : Nat :=
  base + v7.toNat * 2 ^ l7 + v6.toNat * 2 ^ l6 + v5.toNat * 2 ^ l5 + v4.toNat * 2 ^ l4 + v3.toNat * 2 ^ l3 + v2.toNat * 2 ^ l2 + v1.toNat * 2 ^ l1

/-- The bits of an instruction's word (R61 to R68, R77, R291); 0 for a row with no encoding. -/
def encode : Instr → Nat
  | .add b a d => pack3 0x00000001 18 b 13 a 8 d
  | .sub b a d => pack3 0x00800001 18 b 13 a 8 d
  | .and b a d => pack3 0x01000001 18 b 13 a 8 d
  | .or b a d => pack3 0x01800001 18 b 13 a 8 d
  | .xor b a d => pack3 0x02000001 18 b 13 a 8 d
  | .sll b a d => pack3 0x02800001 18 b 13 a 8 d
  | .srl b a d => pack3 0x03000001 18 b 13 a 8 d
  | .sra b a d => pack3 0x03800001 18 b 13 a 8 d
  | .addw b a d => pack3 0x04000001 18 b 13 a 8 d
  | .subw b a d => pack3 0x04800001 18 b 13 a 8 d
  | .sllw b a d => pack3 0x05000001 18 b 13 a 8 d
  | .srlw b a d => pack3 0x05800001 18 b 13 a 8 d
  | .sraw b a d => pack3 0x06000001 18 b 13 a 8 d
  | .min b a d => pack3 0x06800001 18 b 13 a 8 d
  | .max b a d => pack3 0x07000001 18 b 13 a 8 d
  | .minu b a d => pack3 0x07800001 18 b 13 a 8 d
  | .maxu b a d => pack3 0x08000001 18 b 13 a 8 d
  | .andn b a d => pack3 0x08800001 18 b 13 a 8 d
  | .orn b a d => pack3 0x09000001 18 b 13 a 8 d
  | .addi i a d => pack3 0x00000005 21 i 13 a 8 d
  | .andi i a d => pack3 0x00040005 21 i 13 a 8 d
  | .ori i a d => pack3 0x00080005 21 i 13 a 8 d
  | .xori i a d => pack3 0x000C0005 21 i 13 a 8 d
  | .slli i a d => pack3 0x00100005 21 i 13 a 8 d
  | .srli i a d => pack3 0x00140005 21 i 13 a 8 d
  | .srai i a d => pack3 0x08140005 21 i 13 a 8 d
  | .shori i a d => pack3 0x00180005 21 i 13 a 8 d
  | .addiw i a d => pack3 0x001C0005 21 i 13 a 8 d
  | .mul b a d => pack3 0x00000009 18 b 13 a 8 d
  | .mulh b a d => pack3 0x00800009 18 b 13 a 8 d
  | .mulhu b a d => pack3 0x01000009 18 b 13 a 8 d
  | .mulhsu b a d => pack3 0x01800009 18 b 13 a 8 d
  | .div b a d => pack3 0x02000009 18 b 13 a 8 d
  | .divu b a d => pack3 0x02800009 18 b 13 a 8 d
  | .rem b a d => pack3 0x03000009 18 b 13 a 8 d
  | .remu b a d => pack3 0x03800009 18 b 13 a 8 d
  | .mulw b a d => pack3 0x04000009 18 b 13 a 8 d
  | .divw b a d => pack3 0x04800009 18 b 13 a 8 d
  | .remw b a d => pack3 0x05000009 18 b 13 a 8 d
  | .aupc i d => pack2 0x0000000D 13 i 8 d
  | .beq o b a => pack3 0x00000011 21 o 13 b 8 a
  | .bne o b a => pack3 0x00040011 21 o 13 b 8 a
  | .blt o b a => pack3 0x00080011 21 o 13 b 8 a
  | .bge o b a => pack3 0x000C0011 21 o 13 b 8 a
  | .bltu o b a => pack3 0x00100011 21 o 13 b 8 a
  | .bgeu o b a => pack3 0x00140011 21 o 13 b 8 a
  | .jal i d => pack2 0x00000015 13 i 8 d
  | .jalr i a d => pack3 0x00000019 21 i 13 a 8 d
  | .ret a => pack1 0x00040019 13 a
  | .seq b a d => pack3 0x0000001D 18 b 13 a 8 d
  | .sne b a d => pack3 0x0080001D 18 b 13 a 8 d
  | .slt b a d => pack3 0x0100001D 18 b 13 a 8 d
  | .sltu b a d => pack3 0x0180001D 18 b 13 a 8 d
  | .clz a d => pack2 0x0200001D 13 a 8 d
  | .ctz a d => pack2 0x0280001D 13 a 8 d
  | .cpop a d => pack2 0x0300001D 13 a 8 d
  | .rev8 a d => pack2 0x0380001D 13 a 8 d
  | .bext b a d => pack3 0x0400001D 18 b 13 a 8 d
  | .bdep b a d => pack3 0x0480001D 18 b 13 a 8 d
  | .rotl b a d => pack3 0x0500001D 18 b 13 a 8 d
  | .rotr b a d => pack3 0x0580001D 18 b 13 a 8 d
  | .ldb i c b d => pack4 0x00000021 25 i 18 c 13 b 8 d
  | .ldh i c b d => pack4 0x00400021 25 i 18 c 13 b 8 d
  | .ldw i c b d => pack4 0x00800021 25 i 18 c 13 b 8 d
  | .ldd i c b d => pack4 0x00C00021 25 i 18 c 13 b 8 d
  | .ldbu i c b d => pack4 0x01000021 25 i 18 c 13 b 8 d
  | .ldhu i c b d => pack4 0x01400021 25 i 18 c 13 b 8 d
  | .ldwu i c b d => pack4 0x01800021 25 i 18 c 13 b 8 d
  | .stb i c b s => pack4 0x00000025 25 i 18 c 13 b 8 s
  | .sth i c b s => pack4 0x00400025 25 i 18 c 13 b 8 s
  | .stw i c b s => pack4 0x00800025 25 i 18 c 13 b 8 s
  | .std i c b s => pack4 0x00C00025 25 i 18 c 13 b 8 s
  | .amoswap c b a d => pack4 0x00000029 23 c 18 b 13 a 8 d
  | .amoadd c b a d => pack4 0x08000029 23 c 18 b 13 a 8 d
  | .amoand c b a d => pack4 0x10000029 23 c 18 b 13 a 8 d
  | .amoor c b a d => pack4 0x18000029 23 c 18 b 13 a 8 d
  | .amoxor c b a d => pack4 0x20000029 23 c 18 b 13 a 8 d
  | .amomin c b a d => pack4 0x28000029 23 c 18 b 13 a 8 d
  | .amomax c b a d => pack4 0x30000029 23 c 18 b 13 a 8 d
  | .amominu c b a d => pack4 0x38000029 23 c 18 b 13 a 8 d
  | .amomaxu c b a d => pack4 0x40000029 23 c 18 b 13 a 8 d
  | .amocas c b a d => pack4 0x48000029 23 c 18 b 13 a 8 d
  | .lr c a d => pack3 0x50000029 23 c 13 a 8 d
  | .sc c b a d => pack4 0x58000029 23 c 18 b 13 a 8 d
  | .amoswapW c b a d => pack4 0x80000029 23 c 18 b 13 a 8 d
  | .amoaddW c b a d => pack4 0x88000029 23 c 18 b 13 a 8 d
  | .amoandW c b a d => pack4 0x90000029 23 c 18 b 13 a 8 d
  | .amoorW c b a d => pack4 0x98000029 23 c 18 b 13 a 8 d
  | .amoxorW c b a d => pack4 0xA0000029 23 c 18 b 13 a 8 d
  | .amominW c b a d => pack4 0xA8000029 23 c 18 b 13 a 8 d
  | .amomaxW c b a d => pack4 0xB0000029 23 c 18 b 13 a 8 d
  | .amominuW c b a d => pack4 0xB8000029 23 c 18 b 13 a 8 d
  | .amomaxuW c b a d => pack4 0xC0000029 23 c 18 b 13 a 8 d
  | .amocasW c b a d => pack4 0xC8000029 23 c 18 b 13 a 8 d
  | .lrW c a d => pack3 0xD0000029 23 c 13 a 8 d
  | .scW c b a d => pack4 0xD8000029 23 c 18 b 13 a 8 d
  | .setvl p t b f a d => pack6 0x0000002D 26 p 24 t 22 b 18 f 13 a 8 d
  | .setsw a d => pack2 0x0800002D 13 a 8 d
  | .getvt d => pack1 0x1000002D 8 d
  | .getsw d => pack1 0x1800002D 8 d
  | .setrm a d => pack2 0x2000002D 13 a 8 d
  | .strip o n p c => pack4 0x8000002D 21 o 18 n 13 p 8 c
  | .waitc t c s l => pack4 0x00000031 20 t 16 c 12 s 8 l
  | .fenceC s w x y z => pack5 0x10000031 25 s 20 w 16 x 12 y 8 z
  | .fenceCReg s a => pack2 0x11000031 25 s 8 a
  | .bar s i a => pack3 0x20000031 25 s 19 i 8 a
  | .barW s i a => pack3 0x20040031 25 s 19 i 8 a
  | .arrive s i a d => pack4 0x30000031 25 s 19 i 13 a 8 d
  | .ipost h l c a => pack4 0x00000035 24 h 20 l 17 c 8 a
  | .iwait h l c a => pack4 0x10000035 24 h 20 l 17 c 8 a
  | .mark k => pack1 0x20000035 8 k
  | .launch c b a d => pack4 0x30000035 23 c 18 b 13 a 8 d
  | .yield n => pack1 0x40000035 8 n
  | .getc i a d => pack3 0x00000039 21 i 13 a 8 d
  | .setc i a j => pack3 0x00040039 21 i 13 a 8 j
  | .trap n => pack1 0x00080039 21 n
  | .eret => 0x000C0039
  | .tlbinv a s => pack2 0x00100039 13 a 8 s
  | .tlbsync a => pack1 0x00140039 13 a
  | .ilock n a d => pack3 0x00180039 21 n 13 a 8 d
  | .iunlock n a d => pack3 0x80180039 21 n 13 a 8 d
  | .fenceI => 0x001C0039
  | .vld c m b d => pack4 0x00000041 28 c 25 m 14 b 8 d
  | .vlds c m s b d => pack5 0x00000045 28 c 25 m 19 s 14 b 8 d
  | .vgather c m x b d => pack5 0x00000049 28 c 25 m 19 x 14 b 8 d
  | .vldff c m b d => pack4 0x0000004D 28 c 25 m 14 b 8 d
  | .vst c m b s => pack4 0x00000051 28 c 25 m 14 b 8 s
  | .vsts c m x b s => pack5 0x00000055 28 c 25 m 19 x 14 b 8 s
  | .vscatter c m x b s => pack5 0x00000059 28 c 25 m 19 x 14 b 8 s
  | .vamoAdd m x b s => pack4 0x0000005D 25 m 19 x 14 b 8 s
  | .vamoMin m x b s => pack4 0x1000005D 25 m 19 x 14 b 8 s
  | .vamoMax m x b s => pack4 0x2000005D 25 m 19 x 14 b 8 s
  | .vamoAnd m x b s => pack4 0x3000005D 25 m 19 x 14 b 8 s
  | .vamoOr m x b s => pack4 0x4000005D 25 m 19 x 14 b 8 s
  | .vamoXor m x b s => pack4 0x5000005D 25 m 19 x 14 b 8 s
  | .vamoSwap m x b s => pack4 0x6000005D 25 m 19 x 14 b 8 s
  | .damoAdd m x b s => pack4 0x8000005D 25 m 19 x 14 b 8 s
  | .lsld m b d => pack3 0x00000061 25 m 14 b 8 d
  | .lslds m s b d => pack4 0x10000061 25 m 19 s 14 b 8 d
  | .lsgather m x b d => pack4 0x20000061 25 m 19 x 14 b 8 d
  | .lsldq m s b d => pack4 0x30000061 25 m 19 s 14 b 8 d
  | .lsst m b d => pack3 0x40000061 25 m 14 b 8 d
  | .lssts m s b d => pack4 0x50000061 25 m 19 s 14 b 8 d
  | .lsscatter m x b d => pack4 0x60000061 25 m 19 x 14 b 8 d
  | .lsstq m s b d => pack4 0x70000061 25 m 19 s 14 b 8 d
  | .copyCfg c q h a => pack4 0x00000065 21 c 18 q 13 h 8 a
  | .qbind q h => pack2 0x02000065 18 q 13 h
  | .qunbind q => pack1 0x04000065 18 q
  | .hwaitSrc h => pack1 0x06000065 13 h
  | .hwaitVis s h => pack2 0x08000065 18 s 13 h
  | .hrel h => pack1 0x0A000065 13 h
  | .hstate h d => pack2 0x0C000065 13 h 8 d
  | .vpush c b n f => pack4 0x00000069 25 c 20 b 14 n 8 f
  | .xredO c b n f => pack4 0x20000069 25 c 20 b 14 n 8 f
  | .xredF c b n f => pack4 0x40000069 25 c 20 b 14 n 8 f
  | .treg c i b d => pack4 0x0000006D 23 c 18 i 13 b 8 d
  | .tunreg i d => pack2 0x0800006D 13 i 8 d
  | .tlook c i d => pack3 0x1000006D 18 c 13 i 8 d
  | .tfetch c i => pack2 0x1800006D 18 c 13 i
  | .thalo k c i d => pack4 0x2000006D 23 k 18 c 13 i 8 d
  | .tinv i d => pack2 0x2800006D 13 i 8 d
  | .tkeep c i d => pack3 0x3000006D 18 c 13 i 8 d
  | .xbeginE s d => pack2 0x00000071 23 s 8 d
  | .xbeginS s d => pack2 0x08000071 23 s 8 d
  | .xend d => pack1 0x10000071 8 d
  | .xabort a => pack1 0x18000071 13 a
  | .xbndLo d => pack1 0x20000071 8 d
  | .xbndHi d => pack1 0x20800071 8 d
  | .xbnd b a d => pack3 0x21000071 18 b 13 a 8 d
  | .sclaim b a d => pack3 0x28000071 18 b 13 a 8 d
  | .srel a => pack1 0x30000071 13 a
  | .oclaim n => pack1 0x00000075 14 n
  | .orel n => pack1 0x10000075 14 n
  | .oput c a n v => pack4 0x20000075 24 c 19 a 14 n 8 v
  | .accget c a v => pack3 0x30000075 24 c 19 a 8 v
  | .accput c a v => pack3 0x40000075 24 c 19 a 8 v
  | .accstore c a => pack2 0x50000075 24 c 19 a
  | .scldA c a s p => pack4 0x60000075 24 c 19 a 14 s 8 p
  | .scldW c a s => pack3 0x70000075 24 c 19 a 14 s
  | .mmaO k kc fmt col0 row0 slotB slotA => pack7 3 47 k 40 kc 36 fmt 28 col0 20 row0 14 slotB 8 slotA
  | .mmaF k kc fmt col0 row0 slotB slotA => pack7 7 47 k 40 kc 36 fmt 28 col0 20 row0 14 slotB 8 slotA
  | .accz fmt col0 row0 => pack3 0x13 36 fmt 28 col0 20 row0
  | .accrdS d fmt col0 row0 => pack4 0x17 53 d 36 fmt 28 col0 20 row0
  | .accrdP d fmt col0 row0 => pack4 0x1b 53 d 36 fmt 28 col0 20 row0
  | .tscl k col0 row0 => pack3 0x1000000023 47 k 28 col0 20 row0
  | .vadd m b a d => pack4 0x00000081 26 m 20 b 14 a 8 d
  | .vsub m b a d => pack4 0x40000081 26 m 20 b 14 a 8 d
  | .vrsub m b a d => pack4 0x80000081 26 m 20 b 14 a 8 d
  | .vmul m b a d => pack4 0xC0000081 26 m 20 b 14 a 8 d
  | .vmulh m b a d => pack4 0x00000085 26 m 20 b 14 a 8 d
  | .vmulhu m b a d => pack4 0x40000085 26 m 20 b 14 a 8 d
  | .vdiv m b a d => pack4 0x80000085 26 m 20 b 14 a 8 d
  | .vdivu m b a d => pack4 0xC0000085 26 m 20 b 14 a 8 d
  | .vrem m b a d => pack4 0x00000089 26 m 20 b 14 a 8 d
  | .vremu m b a d => pack4 0x40000089 26 m 20 b 14 a 8 d
  | .vand m b a d => pack4 0x80000089 26 m 20 b 14 a 8 d
  | .vor m b a d => pack4 0xC0000089 26 m 20 b 14 a 8 d
  | .vxor m b a d => pack4 0x0000008D 26 m 20 b 14 a 8 d
  | .vsll m b a d => pack4 0x4000008D 26 m 20 b 14 a 8 d
  | .vsrl m b a d => pack4 0x8000008D 26 m 20 b 14 a 8 d
  | .vsra m b a d => pack4 0xC000008D 26 m 20 b 14 a 8 d
  | .vmin m b a d => pack4 0x00000091 26 m 20 b 14 a 8 d
  | .vmax m b a d => pack4 0x40000091 26 m 20 b 14 a 8 d
  | .vminu m b a d => pack4 0x80000091 26 m 20 b 14 a 8 d
  | .vmaxu m b a d => pack4 0xC0000091 26 m 20 b 14 a 8 d
  | .vsadd m b a d => pack4 0x00000095 26 m 20 b 14 a 8 d
  | .vsaddu m b a d => pack4 0x40000095 26 m 20 b 14 a 8 d
  | .vssub m b a d => pack4 0x80000095 26 m 20 b 14 a 8 d
  | .vssubu m b a d => pack4 0xC0000095 26 m 20 b 14 a 8 d
  | .vseq m b a d => pack4 0x00000099 26 m 20 b 14 a 8 d
  | .vsne m b a d => pack4 0x40000099 26 m 20 b 14 a 8 d
  | .vslt m b a d => pack4 0x80000099 26 m 20 b 14 a 8 d
  | .vsltu m b a d => pack4 0xC0000099 26 m 20 b 14 a 8 d
  | .vsle m b a d => pack4 0x0000009D 26 m 20 b 14 a 8 d
  | .vsleu m b a d => pack4 0x4000009D 26 m 20 b 14 a 8 d
  | .vmerge m b a d => pack4 0x8000009D 26 m 20 b 14 a 8 d
  | .vavg m b a d => pack4 0xC000009D 26 m 20 b 14 a 8 d
  | .vfadd m b a d => pack4 0x000000A1 26 m 20 b 14 a 8 d
  | .vfsub m b a d => pack4 0x400000A1 26 m 20 b 14 a 8 d
  | .vfmul m b a d => pack4 0x800000A1 26 m 20 b 14 a 8 d
  | .vfdiv m b a d => pack4 0xC00000A1 26 m 20 b 14 a 8 d
  | .vfmin m b a d => pack4 0x000000A5 26 m 20 b 14 a 8 d
  | .vfmax m b a d => pack4 0x400000A5 26 m 20 b 14 a 8 d
  | .vfsgnj m b a d => pack4 0x800000A5 26 m 20 b 14 a 8 d
  | .vfsgnjn m b a d => pack4 0xC00000A5 26 m 20 b 14 a 8 d
  | .vfsgnjx m b a d => pack4 0x000000A9 26 m 20 b 14 a 8 d
  | .vfeq m b a d => pack4 0x400000A9 26 m 20 b 14 a 8 d
  | .vfne m b a d => pack4 0x800000A9 26 m 20 b 14 a 8 d
  | .vflt m b a d => pack4 0xC00000A9 26 m 20 b 14 a 8 d
  | .vfle m b a d => pack4 0x000000AD 26 m 20 b 14 a 8 d
  | .vfmerge m b a d => pack4 0x400000AD 26 m 20 b 14 a 8 d
  | .vadds m s a d => pack4 0x000000C1 25 m 20 s 14 a 8 d
  | .vsubs m s a d => pack4 0x200000C1 25 m 20 s 14 a 8 d
  | .vrsubs m s a d => pack4 0x400000C1 25 m 20 s 14 a 8 d
  | .vmuls m s a d => pack4 0x600000C1 25 m 20 s 14 a 8 d
  | .vands m s a d => pack4 0x800000C1 25 m 20 s 14 a 8 d
  | .vors m s a d => pack4 0xA00000C1 25 m 20 s 14 a 8 d
  | .vxors m s a d => pack4 0xC00000C1 25 m 20 s 14 a 8 d
  | .vslls m s a d => pack4 0xE00000C1 25 m 20 s 14 a 8 d
  | .vsrls m s a d => pack4 0x000000C5 25 m 20 s 14 a 8 d
  | .vsras m s a d => pack4 0x200000C5 25 m 20 s 14 a 8 d
  | .vmins m s a d => pack4 0x400000C5 25 m 20 s 14 a 8 d
  | .vmaxs m s a d => pack4 0x600000C5 25 m 20 s 14 a 8 d
  | .vseqs m s a d => pack4 0x800000C5 25 m 20 s 14 a 8 d
  | .vslts m s a d => pack4 0xA00000C5 25 m 20 s 14 a 8 d
  | .vsgts m s a d => pack4 0xC00000C5 25 m 20 s 14 a 8 d
  | .vmvs m s d => pack3 0xE00000C5 25 m 20 s 8 d
  | .vfadds m s a d => pack4 0x000000C9 25 m 20 s 14 a 8 d
  | .vfsubs m s a d => pack4 0x200000C9 25 m 20 s 14 a 8 d
  | .vfrsubs m s a d => pack4 0x400000C9 25 m 20 s 14 a 8 d
  | .vfmuls m s a d => pack4 0x600000C9 25 m 20 s 14 a 8 d
  | .vfdivs m s a d => pack4 0x800000C9 25 m 20 s 14 a 8 d
  | .vfrdivs m s a d => pack4 0xA00000C9 25 m 20 s 14 a 8 d
  | .vfmins m s a d => pack4 0xC00000C9 25 m 20 s 14 a 8 d
  | .vfmaxs m s a d => pack4 0xE00000C9 25 m 20 s 14 a 8 d
  | .vfeqs m s a d => pack4 0x000000CD 25 m 20 s 14 a 8 d
  | .vflts m s a d => pack4 0x200000CD 25 m 20 s 14 a 8 d
  | .vfgts m s a d => pack4 0x400000CD 25 m 20 s 14 a 8 d
  | .vfmvs m s d => pack3 0x600000CD 25 m 20 s 8 d
  | .vmv m a d => pack3 0x000000D1 20 m 14 a 8 d
  | .vnot m a d => pack3 0x010000D1 20 m 14 a 8 d
  | .vabs m a d => pack3 0x020000D1 20 m 14 a 8 d
  | .vneg m a d => pack3 0x030000D1 20 m 14 a 8 d
  | .vfabs m a d => pack3 0x080000D1 20 m 14 a 8 d
  | .vfneg m a d => pack3 0x090000D1 20 m 14 a 8 d
  | .vfsqrt m a d => pack3 0x0A0000D1 20 m 14 a 8 d
  | .vfrecip m a d => pack3 0x0B0000D1 20 m 14 a 8 d
  | .vfrsqrt m a d => pack3 0x0C0000D1 20 m 14 a 8 d
  | .vfclass m a d => pack3 0x0D0000D1 20 m 14 a 8 d
  | .vcvt f m a d => pack4 0x100000D1 24 f 20 m 14 a 8 d
  | .vquant m a d => pack3 0x200000D1 20 m 14 a 8 d
  | .vdequant m a d => pack3 0x210000D1 20 m 14 a 8 d
  | .vredsumO m a d => pack3 0x000000D9 20 m 14 a 8 d
  | .vredsumT m a d => pack3 0x010000D9 20 m 14 a 8 d
  | .vredmin m a d => pack3 0x020000D9 20 m 14 a 8 d
  | .vredmax m a d => pack3 0x030000D9 20 m 14 a 8 d
  | .vredand m a d => pack3 0x040000D9 20 m 14 a 8 d
  | .vredor m a d => pack3 0x050000D9 20 m 14 a 8 d
  | .vredxor m a d => pack3 0x060000D9 20 m 14 a 8 d
  | .vfredsumO m a d => pack3 0x080000D9 20 m 14 a 8 d
  | .vfredsumT m a d => pack3 0x090000D9 20 m 14 a 8 d
  | .vfredmin m a d => pack3 0x0A0000D9 20 m 14 a 8 d
  | .vfredmax m a d => pack3 0x0B0000D9 20 m 14 a 8 d
  | .vscanO m a d => pack3 0x100000D9 20 m 14 a 8 d
  | .vscanT m a d => pack3 0x110000D9 20 m 14 a 8 d
  | .vfscanO m a d => pack3 0x180000D9 20 m 14 a 8 d
  | .vfscanT m a d => pack3 0x190000D9 20 m 14 a 8 d
  | .vsegsum m b a d => pack4 0x000000DD 26 m 20 b 14 a 8 d
  | .vfsegsum m b a d => pack4 0x400000DD 26 m 20 b 14 a 8 d
  | .vsegscan m b a d => pack4 0x800000DD 26 m 20 b 14 a 8 d
  | .vfsegscan m b a d => pack4 0xC00000DD 26 m 20 b 14 a 8 d
  | .vrgather m b a d => pack4 0x000000E1 26 m 20 b 14 a 8 d
  | .vcompress m a d => pack3 0x400000E1 26 m 14 a 8 d
  | .vzip m b a d => pack4 0x800000E1 26 m 20 b 14 a 8 d
  | .vunzip m b a d => pack4 0xC00000E1 26 m 20 b 14 a 8 d
  | .vslideup m s a d => pack4 0x000000E5 25 m 20 s 14 a 8 d
  | .vslidedown m s a d => pack4 0x200000E5 25 m 20 s 14 a 8 d
  | .vslide1up m s a d => pack4 0x400000E5 25 m 20 s 14 a 8 d
  | .vslide1down m s a d => pack4 0x600000E5 25 m 20 s 14 a 8 d
  | .vfslide1up m s a d => pack4 0x800000E5 25 m 20 s 14 a 8 d
  | .vfslide1down m s a d => pack4 0xA00000E5 25 m 20 s 14 a 8 d
  | .viota m a d => pack3 0xC00000E5 25 m 14 a 8 d
  | .vid m s d => pack3 0xE00000E5 25 m 20 s 8 d
  | .mand b a d => pack3 0x000000E9 20 b 14 a 8 d
  | .mor b a d => pack3 0x400000E9 20 b 14 a 8 d
  | .mxor b a d => pack3 0x800000E9 20 b 14 a 8 d
  | .mandn b a d => pack3 0xC00000E9 20 b 14 a 8 d
  | .mnot m a d => pack3 0x000000ED 20 m 14 a 8 d
  | .mfirst m a d => pack3 0x010000ED 20 m 14 a 8 d
  | .mpopc m a d => pack3 0x020000ED 20 m 14 a 8 d
  | .msbf m a d => pack3 0x030000ED 20 m 14 a 8 d
  | .msif m a d => pack3 0x040000ED 20 m 14 a 8 d
  | .msof m a d => pack3 0x050000ED 20 m 14 a 8 d
  | .vfmadd m b a d => pack4 0x000000F1 26 m 20 b 14 a 8 d
  | .vfmsub m b a d => pack4 0x400000F1 26 m 20 b 14 a 8 d
  | .vfnmadd m b a d => pack4 0x800000F1 26 m 20 b 14 a 8 d
  | .vfnmsub m b a d => pack4 0xC00000F1 26 m 20 b 14 a 8 d
  | .vmacc m b a d => pack4 0x000000F5 26 m 20 b 14 a 8 d
  | .vnmsac m b a d => pack4 0x400000F5 26 m 20 b 14 a 8 d
  | .vmadd m b a d => pack4 0x800000F5 26 m 20 b 14 a 8 d
  | .vnmsub m b a d => pack4 0xC00000F5 26 m 20 b 14 a 8 d
  | .hint n => pack1 0x000000FD 8 n
  | .cAddi d i => pack2 0 11 d 5 i
  | .cAdd d b => pack2 0x0002 11 d 6 b
  | .cSub d b => pack2 0x0004 11 d 6 b
  | .cAnd d b => pack2 0x0006 11 d 6 b
  | .cOr d b => pack2 0x0008 11 d 6 b
  | .cXor d b => pack2 0x000A 11 d 6 b
  | .cSlli d i => pack2 0x000C 11 d 5 i
  | .cSrli d i => pack2 0x000E 11 d 5 i
  | .cSrai d i => pack2 0x0010 11 d 5 i
  | .cLdd d b i => pack3 0x0012 11 d 8 b 5 i
  | .cStd s b i => pack3 0x0014 11 s 8 b 5 i
  | .cBeq a o => pack2 0x0016 13 a 5 o
  | .cBne a o => pack2 0x0018 13 a 5 o
  | .cJal o => pack1 0x001A 5 o
  | .cJalr d b => pack2 0x001C 11 d 6 b
  | .cMark k => pack1 0x001E 5 k
  | .anop => 0
  | .ali d i => pack2 0x04000000 22 d 0 i
  | .ashor d a i => pack3 0x08000000 22 d 18 a 0 i
  | .aadd d a b => pack3 0x0C000000 22 d 18 a 14 b
  | .aaddi d a i => pack3 0x10000000 22 d 18 a 0 i
  | .asll d a i => pack3 0x14000000 22 d 18 a 0 i
  | .amark d => pack1 0x18000000 22 d
  | .ajmp o => pack1 0x20000000 0 o
  | .abeq a b o => pack3 0x24000000 18 a 14 b 0 o
  | .abne a b o => pack3 0x28000000 18 a 14 b 0 o
  | .await k => pack1 0x2C000000 0 k
  | .adelay n => pack1 0x30000000 0 n
  | .aend => 0x34000000
  | .apfL1 a n => pack2 0x40000000 18 a 0 n
  | .apfL2 a n => pack2 0x44000000 18 a 0 n
  | .apfTc a n => pack2 0x48000000 18 a 0 n
  | .atfetch a b => pack2 0x4C000000 18 a 14 b
  | .akeep d a b => pack3 0x50000000 22 d 18 a 14 b
  | .aprio p => pack1 0x54000000 0 p
  | .aorder m => pack1 0x58000000 0 m
  | .aplace a => pack1 0x5C000000 18 a
  | .illegalInstruction _ | .adviceWordDrop | .adelayExpiry _ | .advicePrefetchWalk _ _ _ _ | .uecAppend _ _ _ _
  | .uecWrite _ _ _ | .uecRead _ _ _ | .uecInvalidMessage _ | .getVersion _ | .getCapabilities _
  | .negotiateAlgorithms _ | .getDigests _ _ | .getCertificate _ _ _ _ | .challenge _ _ _ | .getMeasurements _ _ _
  | .spdmUnsupportedRequest _ _ | .cxlHostWrite _ _ | .cxlHostRead _ _ | .loomAppendEvent _ _ | .dependenceMet _ _
  | .bundleEnded _ _ _ | .jobEnded _ _ | .windowTick | .preEmptionComplete _ _ _ | .commandRefused _ _
  | .decRecordFlush _ | .microcodeWatchdog | .microcodeSwitch | .powerOn | .deepIdleEntry | .deepIdleExit
  | .clockLower | .taskStart _ | .taskEnd _ | .urgent _ | .yieldExpiry _ | .rowGrant _ | .operationComplete _ _
  | .barrierRelease _ | .shuttlePostObserved _ _ _ | .reservationHoldExpiry _ | .copySourceRead _ _
  | .copyComplete _ _ | .streamStripArrival _ _ | .vpushDelivery _ | .oruAccept _ | .missEntryGrant _
  | .l2DrowsyEntry _ | .tileFill _ _ _ _ | .regionConflict _ _ _ | .narrowingApply _ | .commit _ | .finalApply _
  | .positionRenewal | .slotFull _ _ | .slotFree _ _ | .tileOpStart _ | .tileOpComplete _ | .linkRetry _ _
  | .fieldRepair _ | .agentFatalError _ | .agentResponseTimeout _ | .readmission _ | .traceSample _ | .ctxRoot _ _
  | .ctxEnd _ | .tenantDesc _ _ | .shuttleGrant _ _ | .collGrant _ _ | .uecBind _ _ | .codeLoad _ _ | .advLoad _ _
  | .loomReload _ | .biasFlip _ _ | .biasFlipComplete _ | .ctxLostClear _ | .ctxSaveUseClear _ _ | .stallEvictClear
  | .sysregWrite _ _ _ | .registerBankRetention _ _ | .xredComplete _ _ => 0

end Sys2Proof
end

