-- ==== Sys2Proof/Config.lean ====
section
/-! DEFINITION. What the spec leaves open and the machine nevertheless fixes at run time: the free values.
Every one is opaque: no proof can learn which value it takes. The first argument is the number of the free
value, taken from `State.free`, which the step advances. -/

namespace Sys2Proof

/-- R137: under tail policy dead each tail element holds its old value (true) or all-zero bits (false), element
by element. Arguments: the number of the free value, the element. -/
opaque Config.keepsTail : Nat → Nat → Bool

/-- R221, R160, R261: which two nodes a free summation tree joins next, and where a partial read stops.
Arguments: the number of the free value, the row, the column, the step of the tree. -/
opaque Config.pick : Nat → Nat → Nat → Nat → Nat

/-- R160: the rounding mode of a collective call whose members hold different ones. Argument: the modes by rank. -/
opaque Config.mixedRounding : List (Nat × BitVec 2) → BitVec 2

/-- R157: a byte of an operand slot whose kind-3 copy was stopped by hrel is unspecified until it is written again.
Arguments: the number of the free value, the offset in the slot. -/
opaque Config.slotByte : Nat → Nat → Byte

/-- R283: bytes of SPDM replies that the spec does not give (versions, capabilities, certificates, digests,
signatures). Arguments: the request's code, the number of the free value, the byte's index. -/
opaque Config.spdmByte : Nat → Nat → Nat → Byte

/-- R283: how many bytes such a reply has. Arguments: the request's code, the number of the free value. -/
opaque Config.spdmLength : Nat → Nat → Nat

/-- R282: the boot firmware measured into att.pkg at power-on. The spec does not give its bytes. -/
opaque Config.bootFirmware : List Byte

/-- R78: a byte of a QCB's snapshot, which the Loom overwrites at its events and whose contents the spec does not give.
Arguments: the number of the free value, the index. -/
opaque Config.freeByte : Nat → Nat → Byte

/-- R163, R176: which line a full level of the caches gives up. Argument: the number of the free value. -/
opaque Config.victim : Nat → Nat

/-- R75: which of the values that a 4-byte unit of changed code has held a fetch before FENCE.I sees. Arguments: the number of
the free value, the unit. -/
opaque Config.seenCode : Nat → Nat → Nat

/-- R94: how much longer an ac lasts under a lowered clock, in eighteenths of a nanosecond. Argument: the number of the free
value. -/
opaque Config.slowClock : Nat → Nat

/-- R35: whether a 64-bit slot of a row returned to the row pool still holds its value (true) or all-zero bits. Arguments: the
number of the free value, the register, the slot. -/
opaque Config.keepsRow : Nat → Nat → Nat → Bool

/-- R283: the entry of id.hart among the measured registers, which no hart reads for the device. Argument: the number of
the free value. -/
opaque Config.freeWord : Nat → Word

/-- R155, R222: an element of a stream operand below vstart, which an earlier part of the instruction has consumed, where a
reduction or a scan takes it all the same. Arguments: the copy, by its order of issue, its position, the element. -/
opaque Config.passed : Nat → Nat → Nat → Word

end Sys2Proof
end

