-- ==== Sys2Proof/Machine/Numbers.lean ====
section
/-! DEFINITION. Number formats to the bit (12_numbers.md): format codes, decoding, exact arithmetic on values, the
rounding functions, and conversions. A finite nonzero value is m * 2^e with a sign; quotients and roots that are not
of that form carry enough digits and a last digit that says whether anything follows, so that every rounding of
them is the rounding of the exact value. -/

namespace Sys2Proof.Machine

/-- The element formats by code (R208). -/
inductive Fmt where
  | f64
  | f32
  | bf16
  | f16
  | e4m3
  | e5m2
  | i8
  | i16
  | i32
  | i64
deriving DecidableEq, Repr

/-- The format of a code; codes 10 to 15 are reserved (R208). -/
def Fmt.ofCode : Nat → Option Fmt
  | 0 => some .f64
  | 1 => some .f32
  | 2 => some .bf16
  | 3 => some .f16
  | 4 => some .e4m3
  | 5 => some .e5m2
  | 6 => some .i8
  | 7 => some .i16
  | 8 => some .i32
  | 9 => some .i64
  | _ => none

/-- SEW in bits (R208). -/
def Fmt.sew : Fmt → Nat
  | .f64 | .i64 => 64
  | .f32 | .i32 => 32
  | .bf16 | .f16 | .i16 => 16
  | .e4m3 | .e5m2 | .i8 => 8

/-- The element size in bytes. -/
def Fmt.esz (f : Fmt) : Nat := f.sew / 8

/-- A floating format (R208, R209). -/
def Fmt.isFloat : Fmt → Bool
  | .f64 | .f32 | .bf16 | .f16 | .e4m3 | .e5m2 => true
  | _ => false

/-- The floating group of R225: f64, f32, bf16, f16. -/
def Fmt.isVectorFloat : Fmt → Bool
  | .f64 | .f32 | .bf16 | .f16 => true
  | _ => false

/-- The 8-bit floating formats. -/
def Fmt.isFp8 : Fmt → Bool
  | .e4m3 | .e5m2 => true
  | _ => false

/-- The number of fraction bits (R209). -/
def Fmt.frac : Fmt → Nat
  | .f64 => 52
  | .f32 => 23
  | .bf16 => 7
  | .f16 => 10
  | .e4m3 => 3
  | .e5m2 => 2
  | _ => 0

/-- The number of exponent bits (R209). -/
def Fmt.expBits : Fmt → Nat
  | .f64 => 11
  | .f32 | .bf16 => 8
  | .f16 | .e5m2 => 5
  | .e4m3 => 4
  | _ => 0

/-- The exponent bias (R209). -/
def Fmt.bias (f : Fmt) : Nat := 2 ^ (f.expBits - 1) - 1

/-- The exponent of the last bit of a subnormal value. -/
def Fmt.emin (f : Fmt) : Int := 1 - (f.bias : Int) - f.frac

/-- The bits of the largest finite value (R209, R210). -/
def Fmt.maxBits (f : Fmt) : Nat := if f = .e4m3 then 0x7E else (2 ^ f.expBits - 1) * 2 ^ f.frac - 1

/-- The bits of +infinity, for the formats that have one (R209, R210). -/
def Fmt.infBits (f : Fmt) : Nat := (2 ^ f.expBits - 1) * 2 ^ f.frac

/-- The canonical NaN (R209, R211). -/
def Fmt.canonicalNaN : Fmt → Nat
  | .f64 => 0x7FF8000000000000
  | .f32 => 0x7FC00000
  | .bf16 => 0x7FC0
  | .f16 => 0x7E00
  | .e4m3 => 0x7F
  | .e5m2 => 0x7E
  | _ => 0

/-- The sign bit as a number. -/
def Fmt.signBit (f : Fmt) : Nat := 2 ^ (f.sew - 1)

/-- The rounding modes (R37, R213). -/
inductive Rnd where
  | rne
  | rtz
  | rup
  | rdn
deriving DecidableEq, Repr

/-- The mode of a vt.rnd code. -/
def Rnd.ofCode : Nat → Rnd
  | 0 => .rne
  | 1 => .rtz
  | 2 => .rup
  | _ => .rdn

/-- A number: NaN, an infinity, a signed zero, or a nonzero finite value m * 2^e with m > 0. -/
inductive Num where
  | nan
  | inf (neg : Bool)
  | zero (neg : Bool)
  | fin (neg : Bool) (m : Nat) (e : Int)
deriving DecidableEq, Repr

/-- The value a floating pattern stands for (R209, R210). -/
def Num.decode (f : Fmt) (b : Nat) : Num :=
  let neg := b.testBit (f.sew - 1)
  let E := (b >>> f.frac) % 2 ^ f.expBits
  let F := b % 2 ^ f.frac
  if f = .e4m3 ∧ b % 128 = 127 then .nan
  else if f ≠ .e4m3 ∧ E = 2 ^ f.expBits - 1 then (if F = 0 then .inf neg else .nan)
  else if E = 0 then (if F = 0 then .zero neg else .fin neg F f.emin)
  else .fin neg (2 ^ f.frac + F) (f.emin + E - 1)

/-- Whether rounding the magnitude goes to the upper of its two neighbours: `low` the lower neighbour's last digit,
`rem` what is left over, out of `unit` (R213). -/
def Rnd.up (r : Rnd) (neg : Bool) (low rem unit : Nat) : Bool :=
  match r with
  | .rne => decide (2 * rem > unit) || (decide (2 * rem = unit) && decide (low % 2 = 1))
  | .rtz => false
  | .rup => decide (rem > 0) && !neg
  | .rdn => decide (rem > 0) && neg

/-- m * 2^e rounded to an integer number of units 2^q (R213). -/
def roundUnits (r : Rnd) (neg : Bool) (m : Nat) (e q : Int) : Nat :=
  if q ≤ e then m <<< (e - q).toNat
  else
    let k := (q - e).toNat
    let lo := m >>> k
    let rem := m % 2 ^ k
    if r.up neg lo rem (2 ^ k) then lo + 1 else lo

/-- The pattern of an overflow (R213). -/
def Fmt.overflow (f : Fmt) (r : Rnd) (neg : Bool) : Nat :=
  let toMax := f = .e4m3 || r = .rtz || (r = .rup && neg) || (r = .rdn && !neg)
  (if neg then f.signBit else 0) + (if toMax then f.maxBits else f.infBits)

/-- The named rounding functions (R213): a number to the pattern of a floating format. Infinities stay, but for
E4M3, which saturates (R214); NaN is canonical (R211). -/
def Num.round (f : Fmt) (r : Rnd) : Num → Nat
  | .nan => f.canonicalNaN
  | .inf neg => (if neg then f.signBit else 0) + (if f = .e4m3 then f.maxBits else f.infBits)
  | .zero neg => if neg then f.signBit else 0
  | .fin neg m e =>
    let q := max (e + (bitLength m : Int) - 1 - f.frac) f.emin
    let mant := roundUnits r neg m e q
    let b := (q - f.emin).toNat * 2 ^ f.frac + mant
    if b > f.maxBits then f.overflow r neg else (if neg then f.signBit else 0) + b

/-- A signed whole number times 2^e as a number; an exact zero has the sign given. -/
def Num.ofInt (x e : Int) (zeroNeg : Bool) : Num :=
  if x = 0 then .zero zeroNeg else .fin (decide (x < 0)) x.natAbs e

/-- The sign of a number; NaN counts as positive. -/
def Num.isNeg : Num → Bool
  | .nan => false
  | .inf n => n
  | .zero n => n
  | .fin n _ _ => n

/-- The negative of a number; NaN stays NaN. -/
def Num.neg : Num → Num
  | .nan => .nan
  | .inf n => .inf (!n)
  | .zero n => .zero (!n)
  | .fin n m e => .fin (!n) m e

/-- A finite number as a whole number of units 2^q, q at most its exponent. -/
def Num.units (q : Int) : Num → Int
  | .fin n m e => (if n then -1 else 1) * (m <<< (e - q).toNat : Nat)
  | _ => 0

/-- The exponent of a finite nonzero number; 0 otherwise. -/
def Num.exp : Num → Int
  | .fin _ _ e => e
  | _ => 0

/-- The exact sum of two numbers (R211, R212). The sign of an exact zero depends on the rounding mode: nonzero addends
that cancel are not all +0, so RDN gives -0. -/
def Num.add (r : Rnd) (a b : Num) : Num :=
  match a, b with
  | .nan, _ => .nan
  | _, .nan => .nan
  | .inf x, .inf y => if x = y then .inf x else .nan
  | .inf x, _ => .inf x
  | _, .inf y => .inf y
  | .zero x, .zero y => .zero ((x && y) || (r = .rdn && (x || y)))
  | .zero _, y => y
  | x, .zero _ => x
  | .fin na ma ea, .fin nb mb eb =>
    let q := min ea eb
    .ofInt (Num.units q (.fin na ma ea) + Num.units q (.fin nb mb eb)) q (r = .rdn)

/-- The exact product of two numbers (R211, R212). -/
def Num.mul (a b : Num) : Num :=
  match a, b with
  | .nan, _ => .nan
  | _, .nan => .nan
  | .inf _, .zero _ => .nan
  | .zero _, .inf _ => .nan
  | .inf x, y => .inf (x != y.isNeg)
  | x, .inf y => .inf (x.isNeg != y)
  | .zero x, y => .zero (x != y.isNeg)
  | x, .zero y => .zero (x.isNeg != y)
  | .fin na ma ea, .fin nb mb eb => .fin (na != nb) (ma * mb) (ea + eb)

/-- A quotient's digits: n / d to at least 200 binary digits, with a last digit set when the division is not exact. -/
def stickyDiv (neg : Bool) (n d : Nat) (e : Int) : Num :=
  let k := 200 + bitLength d
  let q := (n <<< k) / d
  .fin neg (2 * q + (if (n <<< k) % d = 0 then 0 else 1)) (e - k - 1)

/-- The quotient of two numbers (R211, R234). -/
def Num.div (a b : Num) : Num :=
  match a, b with
  | .nan, _ => .nan
  | _, .nan => .nan
  | .inf _, .inf _ => .nan
  | .zero _, .zero _ => .nan
  | .inf x, y => .inf (x != y.isNeg)
  | x, .inf y => .zero (x.isNeg != y)
  | .zero x, y => .zero (x != y.isNeg)
  | x, .zero y => .inf (x.isNeg != y)
  | .fin na ma ea, .fin nb mb eb => stickyDiv (na != nb) ma mb (ea - eb)

/-- The square root (R238), to at least 200 binary digits. -/
def Num.sqrt : Num → Num
  | .nan => .nan
  | .zero n => .zero n
  | .inf n => if n then .nan else .inf false
  | .fin true _ _ => .nan
  | .fin false m e =>
    let k := if e % 2 = 0 then 400 else 401
    let x := m <<< k
    let q := isqrt x
    .fin false (2 * q + (if q * q = x then 0 else 1)) ((e - k) / 2 - 1)

/-- 1 / x (R238). -/
def Num.recip : Num → Num
  | .nan => .nan
  | .zero n => .inf n
  | .inf n => .zero n
  | .fin n m e => stickyDiv n 1 m (-e)

/-- 1 / sqrt x (R238): the root of the quotient 2^k / m, to at least 200 binary digits. -/
def Num.rsqrt : Num → Num
  | .nan => .nan
  | .zero n => .inf n
  | .inf n => if n then .nan else .zero false
  | .fin true _ _ => .nan
  | .fin false m e =>
    let k := 400 + 2 * bitLength m + (if e % 2 = 0 then 0 else 1)
    let q := isqrt (2 ^ k / m)
    .fin false (2 * q + (if q * q * m = 2 ^ k then 0 else 1)) ((-e - k) / 2 - 1)

/-- The comparison of two numbers that are not NaN: less, with -0 equal to +0 (R235). -/
def Num.lt (a b : Num) : Bool :=
  match a, b with
  | .nan, _ => false
  | _, .nan => false
  | .inf x, .inf y => x && !y
  | .inf x, _ => x
  | _, .inf y => !y
  | .zero _, .zero _ => false
  | .zero _, .fin n _ _ => !n
  | .fin n _ _, .zero _ => n
  | .fin na ma ea, .fin nb mb eb =>
    let q := min ea eb
    decide (Num.units q (.fin na ma ea) < Num.units q (.fin nb mb eb))

/-- Equality of two numbers, -0 equal to +0 and NaN equal to nothing (R235). -/
def Num.eq (a b : Num) : Bool :=
  match a, b with
  | .nan, _ => false
  | _, .nan => false
  | .inf x, .inf y => x = y
  | .zero _, .zero _ => true
  | .fin na ma ea, .fin nb mb eb =>
    let q := min ea eb
    decide (Num.units q (.fin na ma ea) = Num.units q (.fin nb mb eb))
  | _, _ => false

/-- The order of R235 in which -0 comes before +0. -/
def Num.before (a b : Num) : Bool :=
  match a, b with
  | .zero x, .zero y => x && !y
  | x, y => x.lt y

/-- A value rounded to a whole number (R214); NaN gives none, an infinity none with its sign. -/
def Num.toInt (r : Rnd) : Num → Option Int
  | .nan => none
  | .inf _ => none
  | .zero _ => some 0
  | .fin n m e => some ((if n then -1 else 1) * (roundUnits r n m e 0 : Nat))

/-- A number to the pattern of an integer format of w bits (R214). -/
def Num.toIntFmt (r : Rnd) (w : Nat) (x : Num) : Nat :=
  match x with
  | .nan => 0
  | .inf n => ofSigned w (if n then -(2 ^ (w - 1) : Nat) else (2 ^ (w - 1) : Nat) - 1)
  | y => ofSigned w (satSigned w ((y.toInt r).getD 0))

/-- A whole number as a number; 0 is +0. -/
def Num.ofWhole (x : Int) : Num := .ofInt x 0 false

/-- Conversion of a pattern between any two formats (R214, R240). -/
def convert (r : Rnd) (src dst : Fmt) (b : Nat) : Nat :=
  if src.isFloat then
    let x := Num.decode src b
    if dst.isFloat then x.round dst r else x.toIntFmt r dst.sew
  else
    let x := toSigned src.sew b
    if dst.isFloat then (Num.ofWhole x).round dst r else ofSigned dst.sew (satSigned dst.sew x)

/-- Whether a pattern is a NaN of its format. -/
def isNaN (f : Fmt) (b : Nat) : Bool := Num.decode f b = .nan

/-- RND(a + b) on patterns (R234). -/
def fpAdd (f : Fmt) (r : Rnd) (a b : Nat) : Nat := (Num.add r (.decode f a) (.decode f b)).round f r

/-- RND(a - b) on patterns. -/
def fpSub (f : Fmt) (r : Rnd) (a b : Nat) : Nat := (Num.add r (.decode f a) (Num.decode f b).neg).round f r

/-- RND(a * b) on patterns. -/
def fpMul (f : Fmt) (r : Rnd) (a b : Nat) : Nat := (Num.mul (.decode f a) (.decode f b)).round f r

/-- RND(a / b) on patterns. -/
def fpDiv (f : Fmt) (r : Rnd) (a b : Nat) : Nat := (Num.div (.decode f a) (.decode f b)).round f r

/-- RND(± a*b ± d), rounded once (R236). -/
def fpFma (f : Fmt) (r : Rnd) (negProduct negAddend : Bool) (a b d : Nat) : Nat :=
  let p := Num.mul (.decode f a) (.decode f b)
  let x := Num.decode f d
  (Num.add r (if negProduct then p.neg else p) (if negAddend then x.neg else x)).round f r

/-- vfmin and vfmax (R235): one of the operands, its bits unchanged. -/
def fpMinMax (f : Fmt) (wantMax : Bool) (a b : Nat) : Nat :=
  if isNaN f a then (if isNaN f b then f.canonicalNaN else b)
  else if isNaN f b then a
  else if (Num.decode f b).before (.decode f a) = wantMax then a else b

/-- vfclass (R239). -/
def fpClass (f : Fmt) (b : Nat) : Nat :=
  match Num.decode f b with
  | .nan => 2 ^ 8
  | .inf n => if n then 2 ^ 0 else 2 ^ 7
  | .zero n => if n then 2 ^ 3 else 2 ^ 4
  | .fin n _ _ =>
    let sub := decide ((b >>> f.frac) % 2 ^ f.expBits = 0)
    if n then (if sub then 2 ^ 2 else 2 ^ 1) else (if sub then 2 ^ 5 else 2 ^ 6)

end Sys2Proof.Machine
end

