-- ==== Sys2Proof/Machine/State.lean ====
section
/-! DEFINITION. The state of the machine as plain data (02_machine.md, and the chapter of each unit), the reasons
a step can stop, and the state after reset. A table with many rows that mostly hold their default is a list of
(key, value) pairs in the canonical form of `Sparse.wf` (Machine/Sparse.lean). -/

namespace Sys2Proof.Machine

/-- A vector register: 256*L bits, element e of width w at bits [w*e + w - 1 : w*e] (R34, R36). A hart of L lanes
uses the low 256*L bits; the others stay zero. -/
abbrev VReg := BitVec 8192

/-- A mask register: 32*L bits, bit e governs element e (R36). -/
abbrev MReg := BitVec 1024

/-- A table of values by number, listing only the entries that differ from the table's default. -/
abbrev Sparse (α : Type) := List (Nat × α)

/-- Bytes by address: physical memory, local stores, operand slots and accumulator stores. -/
abbrev Memory := List Host.Cell

/-- The states of a buffer handle (R36, R154). -/
inductive HandleState where
  | free
  | filling
  | full
  | draining
deriving DecidableEq, Repr

/-- A copy that a handle holds: the descriptor as issued (R152), its class, and how far it has come (R154, R155, R310).
`pages` are the translations held from issue to completion (R153), as (virtual page, physical page) pairs of 4 KiB.
`got` counts source elements read, `pos` elements consumed or pushed, `written` elements written, `data` the elements
held in strip buffers, oldest first; `lines` the destination lines owned (R128). -/
structure Copy where
  kind : BitVec 3
  fmt : BitVec 4
  slot : BitVec 5
  dstride : BitVec 32
  src : Word
  dst : Word
  n : BitVec 32
  sstride : BitVec 32
  cls : BitVec 4
  gen : Word
  pages : List (Nat × Nat)
  lines : List Nat
  got : Nat
  pos : Nat
  written : Nat
  restart : BitVec 11
  data : List Nat
  /-- source elements that were read from poisoned granules; for kind 3, the 64-byte parts of the slot (R313) -/
  poisoned : List Nat
  /-- elements that an uncorrectable error in the strip buffer has spoiled (R312, R313) -/
  spoiled : List Nat
  /-- how many elements at the front of `data` are not one run of the source: an instruction that stopped inside has consumed
  elements behind them (R155) -/
  apart : Nat
  /-- the order of issue among all copies -/
  order : Nat
deriving DecidableEq, Repr

/-- The trap registers of a hart or control core (R302). -/
structure TrapRegs where
  vec : Word
  pc : Word
  elem : Word
  cause : Word
  addr : Word
  word : Word
  fpc : Word
  tmp0 : Word
  tmp1 : Word
deriving DecidableEq, Repr

/-- The four outstanding-operation counters (R41), 6 bits each. -/
structure Counters where
  ld : BitVec 6
  st : BitVec 6
  cp : BitVec 6
  tl : BitVec 6
deriving DecidableEq, Repr

/-- The states of an advice context (R286). -/
inductive AdvState where
  | idle
  | running
  | awaiting
  | delaying
deriving DecidableEq, Repr

/-- A hart's advice context (R286) with the advice image it runs (R288, R296: a running task keeps its image until
its next task start), and its prefetched lines in flight (R292). `realignNext` says that an idle context examines
its next event by realign (R289, R291). -/
structure Advice where
  x : Vector Word 16
  apc : BitVec 32
  state : AdvState
  queue : List (BitVec 12)
  prio : BitVec 5
  order : BitVec 2
  place : BitVec 9
  inFlight : Nat
  code : List Byte
  index : List (BitVec 12 × Nat)
  loaded : Bool
  realignNext : Bool
  delay : BitVec 18
deriving DecidableEq, Repr

/-- Why a hart is not ready (R95 and the entries of the waiting instructions). -/
inductive Wait where
  | stream
  | counter
  | barrier
  | emptyRegister
  | split
  | rowPool
  | handle
  | waitc
  | shuttle
  | engineLine
  | biasFlip
  | slot
  | tileQueue
  | tileResult
  | regionBegin
  | regionEnd
  | collective
  | tlbsync
  | tileOps
  | sysreg
  | reduction
  | strip
deriving DecidableEq, Repr

/-- A 64-bit slot of the register file (R312): a scalar register, row*L + lane of a vector register, or 64 bits of a mask
register. -/
inductive RegSlot where
  | s (n : Nat)
  | v (n slot : Nat)
  | m (n slot : Nat)
deriving DecidableEq, Repr

/-- The registers an xbegin checkpoints (R199). -/
structure Checkpoint where
  s : Vector Word 32
  v : Vector VReg 48
  m : Vector MReg 12
  vl : BitVec 11
  vlPad : BitVec 7
  vt : BitVec 11
  sw : BitVec 16
  vstart : BitVec 11
  parity : List RegSlot
  pooled : Vector (BitVec 4) 48
deriving DecidableEq, Repr

/-- A line that a region tracks (R191): the physical address / 64, a virtual address of it that the region has used, whether the region has read its committed value and
whether it has written it, and whether a pinned-line table holds it rather than the L1D. -/
structure TrackedLine where
  line : Nat
  va : Nat
  read : Bool
  wrote : Bool
  spilled : Bool
deriving DecidableEq, Repr

/-- A live atomic region (R190 to R199). `lines` are the tracked lines, newest first, `buf` the
uncommitted bytes by physical address; `partners` the harts whose order towards this region has been recorded, with
true where this region comes before the partner (R192, R194); `asked` the sd of the xend that has been issued. -/
structure Region where
  strict : Bool
  pinned : Bool
  package : Bool
  begin : BitVec 48
  sd : BitVec 5
  lines : List TrackedLine
  buf : Sparse (Option Byte)
  ckpt : Checkpoint
  partners : List (AgentId × Bool)
  /-- stores of the region counted in st and not yet performed (R135, R199) -/
  stores : Nat
  asked : Option (BitVec 5)
  /-- the translation generation of its oldest uncommitted store (R132, R275) -/
  gen : Option Word
  /-- its own written bytes that a committed region ordered after it has also written: their writes are earlier in
  coherence order, so its commit leaves those bytes alone (R122, R192) -/
  outdone : List Nat
  /-- its stores under claims: line, bytes stored, bytes of the claim (R185) -/
  covered : List (Nat × Nat × Nat)
deriving DecidableEq, Repr

/-- A strided claim held by a hart (R185, R186), with the home slices whose tables hold an entry of it. -/
structure Claim where
  id : BitVec 3
  slices : List Nat
  base : Word
  count : BitVec 24
  stride : BitVec 24
  lw : BitVec 2
deriving DecidableEq, Repr

/-- One stall entry (R320). -/
structure Stall where
  prod : BitVec 48
  cons : BitVec 48
  cyc : Word
  lag : BitVec 32
deriving DecidableEq, Repr

/-- An accumulator transfer to memory that is still to be written (R267): the lines it owns, its cells' bytes by physical
address, the granules that poisoned cells reach (R313), and the generation of its issue (R275). -/
structure AccStore where
  lines : List Nat
  bytes : List (Nat × Byte)
  bad : List Nat
  gen : Word
deriving DecidableEq, Repr

/-- A vector hart or a control core. A control core uses s, pc, cnt, mark, trap and the task fields only (R42); its
other fields keep their reset values. -/
structure Hart where
  id : AgentId
  /-- it holds a task, or a control program -/
  active : Bool
  /-- the task has started (TASK_START) -/
  started : Bool
  /-- a jump to 0 or an unhandled trap has ended the program; TASK_END is due (R104) -/
  ending : Bool
  /-- the code with which its end fails its job; 0 for none (R81, R304) -/
  failCode : Byte
  ctx : BitVec 12
  /-- log2 of the number of harts among which the core is split (R32) -/
  split : BitVec 2
  /-- the first SETVL of the task has been executed (R88) -/
  setvlDone : Bool
  s : Vector Word 32
  v : Vector VReg 48
  m : Vector MReg 12
  vl : BitVec 11
  vlPad : BitVec 7
  vt : BitVec 11
  sw : BitVec 16
  vstart : BitVec 11
  pc : BitVec 48
  h : Vector HandleState 32
  copy : Vector (Option Copy) 32
  q : Vector (Option (BitVec 5)) 8
  cnt : Counters
  ebLo : BitVec 40
  ebHi : BitVec 40
  mark : BitVec 13
  trap : TrapRegs
  bp : Vector Word 4
  /-- the address whose breakpoints eret has left, and those, by number and element, until its instruction completes
  (R305) -/
  bpDone : Option (BitVec 48 × List (Nat × Nat))
  /-- the breakpoint whose trap was taken last, by number and element (R305) -/
  fired : Option (Nat × Nat)
  reservation : Option Nat
  region : Option Region
  aborts : Nat
  /-- bit k set: vk is an empty pushed register (R159), or a register of an xred call in progress (R161) -/
  empty : BitVec 48
  /-- a bar whose arrival has counted, or a wait restored on resume (R114) -/
  barWait : Option (BarrierKey × BitVec 32)
  /-- the xred call this hart has contributed to and not completed -/
  xredCall : Option Nat
  /-- the vpush this hart waits for -/
  pushing : Option Nat
  claims : List Claim
  stalls : List Stall
  stallEvict : Word
  prio : BitVec 4
  /-- ready for 8 consecutive ac without issuing (R95) -/
  urgent : Bool
  /-- consecutive grants for which it has been ready and another hart was granted (R95) -/
  passed : Nat
  wait : Option Wait
  /-- one more than the ac of a yield still to pass, 0 for no yield (R118) -/
  yielded : BitVec 9
  /-- the accumulator transfers to memory still to be written (R267), oldest first -/
  accStores : List AccStore
  /-- register slots with a parity error, whose values no read delivers (R313) -/
  parity : List RegSlot
  /-- rows returned to the row pool, by register: bit r for row r (R35) -/
  pooled : Vector (BitVec 4) 48
  /-- changes of code that its last FENCE.I has made it see (R75) -/
  fenced : Nat
  /-- its operations of damo.add whose contributions may still be on their way (R123, R149) -/
  sent : List Nat
  /-- stream reads that a fence.c has ordered before later accesses (R110): the copy, by its order of issue, and the classes of
  those accesses -/
  gates : List (Nat × BitVec 16)
  /-- the code lines that its line buffer holds, newest first (R180) -/
  lineBuffer : List Nat
  /-- the bias flip of the setc at which it stands has started (R276, R285) -/
  flipping : Bool
  /-- operations lost to a dead engine (R316): a handle 0 to 31, 32 for matrix operations, 64 + q for a stream -/
  lost : List Nat
  qcb : Word
  job : Word
  bundle : Nat
  task : BitVec 32
  args : Word
  entry : BitVec 48
  adv : Advice
deriving DecidableEq, Repr

/-- An error that a soft error causes in the hardware (R312, R313): one that is corrected in a unit that a context uses, with
the unit where it is one that a repair replaces (R314); a granule that becomes poisoned, of physical memory at any of its
levels or in a miss table, of a local store, of operand memory, or of an accumulator, named by its first cell; elements in a
strip buffer; a parity error of a register whose producer is executed again; and one of a register slot whose producer has
retired. -/
inductive SoftError where
  | corrected (ctx : BitVec 12) (unit : Option RepairUnit)
  | memory (granule : Nat)
  | store (granule : Nat)
  | slot (granule : Nat)
  | accumulator (firstCell : Nat)
  | strip (who : AgentId) (h : BitVec 5) (first : Nat)
  | reexecuted (who : AgentId)
  | register (who : AgentId) (slot : RegSlot)
deriving DecidableEq, Repr

/-- A copy that a cache gives up of its own accord (R163, R180, R183, R191, R275): a line of a core's L1D, of a die's L2, or of the tile
cache, a code line of a quad's cache or of a core's L1I, or a hart's translation of a page. -/
inductive Eviction where
  | l1 (core line : Nat)
  | l2 (die line : Nat)
  | tile (line : Nat)
  | code (quad line : Nat)
  | coreCode (core line : Nat)
  | translation (who : AgentId) (ctx : BitVec 12) (page : Nat)
deriving DecidableEq, Repr

/-- The fields of a decision record that name a quad: die and quad as one number, its cores, the split, and the result of the hint
(R89). -/
structure PlaceInfo where
  quad : Nat
  cores : List Nat
  split : Nat
  hint : Nat
deriving DecidableEq, Repr

/-- A command that a reloaded microcode image gives (R92, R93). Those that write a decision record name its reason (R89). -/
inductive LoomCommand where
  | place (qcb job : Word) (quad : Nat) (cores : List Nat) (reason : BitVec 8)
  | preempt (qcb job : Word) (bundle : Nat) (reason : BitVec 8)
  | resume (qcb job : Word) (bundle quad : Nat) (cores : List Nat) (reason : BitVec 8)
  | forecast (die value : Nat)
  | record (qcb job : Word) (kind : BitVec 3) (bundle : BitVec 32) (eprio : BitVec 4) (at_ : PlaceInfo) (reason : BitVec 8)
  | status (qcb job : Word) (state : BitVec 2) (code : Byte)
  /-- a count of the QCB (R78), 0 to 7, or with 8 more a decision counter of its tenant (R90), 8 to 16 -/
  | bump (qcb : Word) (counter : Nat)
deriving DecidableEq, Repr

/-- A move that the outside schedules: a step of the table, one advice word of a hart's context, one instruction of a hart,
a soft error, an eviction, an arrival at a pod barrier from another package (R112), or a command of a reloaded microcode
image. -/
inductive Move where
  | event (i : Instr)
  | advice (who : AgentId)
  | hart (who : AgentId)
  | softError (e : SoftError)
  | evict (e : Eviction)
  | podArrival (ctx : BitVec 12) (id count : Nat)
  | loom (c : LoomCommand)
deriving DecidableEq, Repr

/-- An SPDM request (R283). -/
inductive Spdm where
  | version
  | capabilities
  | algorithms
  | digests (slot : Byte)
  | certificate (slot : Byte)
  | challenge (slot : Byte)
  | measurements (index : Byte)
  | other
deriving DecidableEq, Repr

/-- A command message (R284). -/
inductive Message where
  | append (qcb recAddr : Word) (payload : List Byte)
  | write (addr : Word) (data : List Byte)
  | read (addr count : Word)
  | spdm (request : Spdm)
deriving DecidableEq, Repr

/-- A hardware step that has become due; each names a row of the table with no encoding (Step.lean). -/
inductive Due where
  | advice (core : Nat)
  | adelayExpiry (who : AgentId)
  | advicePrefetchWalk (who : AgentId) (level : PrefetchLevel) (addr : Word) (lines : Nat)
  | loomAppendEvent (qcb recAddr : Word)
  | dependenceMet (qcb job : Word)
  | bundleEnded (qcb job : Word) (bundle : Nat)
  | jobEnded (qcb job : Word)
  | windowTick
  | preEmptionComplete (qcb job : Word) (bundle : Nat)
  | commandRefused (command cause : BitVec 8)
  | decRecordFlush (qcb : Word)
  | loomAgain
  | microcodeSwitch
  | taskStart (who : AgentId)
  | taskEnd (who : AgentId)
  | urgent (who : AgentId)
  | yieldExpiry (who : AgentId)
  | operationComplete (who : AgentId) (cls : OpClass)
  | barrierRelease (key : BarrierKey)
  | shuttlePostObserved (die ch pos : Nat)
  | reservationHoldExpiry (block : Nat)
  | copySourceRead (who : AgentId) (h : BitVec 5)
  | copyComplete (who : AgentId) (h : BitVec 5)
  | streamStripArrival (who : AgentId) (h : BitVec 5)
  | vpushDelivery (n : Nat)
  | xredComplete (n : Nat)
  | oruAccept (n : Nat)
  | tileFill (ctx : BitVec 12) (tensor : BitVec 6) (i j : Nat)
  | narrowingApply (n : Nat)
  | commit (who : AgentId)
  | finalApply (n : Nat)
  | positionRenewal
  | slotFull (quad slot : Nat)
  | slotFree (quad slot : Nat)
  | tileOpStart (quad : Nat)
  | tileOpComplete (quad : Nat)
  | biasFlipComplete (region : Nat)
  | rowGrant (core : Nat)
  | message (ep : BitVec 12)
  | cxlHostWrite (pa : BitVec 52) (data : List Byte)
  | cxlHostRead (pa : BitVec 52) (count : Nat)
  | fieldRepair (unit : RepairUnit)
deriving DecidableEq, Repr

/-- The states of an operand slot (R252). -/
inductive SlotState where
  | free
  | feeder (core hart : Nat)
  | full
  | control
deriving DecidableEq, Repr

/-- An issued tile operation or scale load (R256, R262). A scale load carries the values it read. -/
inductive TileOp where
  | mma (ordered : Bool) (sc : BitVec 6) (kc : BitVec 7) (fmt : BitVec 4) (col0 row0 : BitVec 8) (slotB slotA : BitVec 6)
  | accz (fmt : BitVec 4) (col0 row0 : BitVec 8)
  | tscl (sc : BitVec 6) (col0 row0 : BitVec 8)
  | scaleA (line : Nat) (values : List (BitVec 32))
  | scaleW (line : Nat) (value : BitVec 32)
deriving DecidableEq, Repr

/-- A quad's matrix engine: the bundle that owns it (R251), the slots, the operation that runs and those that wait
(R258), and the releases that wait for writes or reads of their slot (R252). -/
structure Quad where
  owner : Option (Word × Word × Nat)
  slots : Vector SlotState 32
  running : Option TileOp
  waiting : List TileOp
  releasing : List Nat
  /-- how much of the running operation accrd.p has shown, by cell, row*256 + column (R261) -/
  progress : Sparse Nat
deriving DecidableEq, Repr

/-- A vector core: its split and the split that its next first SETVL applies (R88), and its register rows in
retention (R55). -/
structure Core where
  split : BitVec 2
  pending : Option (BitVec 2)
  retained : List Nat
  rowWaiters : List AgentId
  /-- the hart granted last (R95) -/
  last : BitVec 3
  /-- the hart whose advice context took the last turn (R287) -/
  adviceLast : BitVec 3
deriving DecidableEq, Repr

/-- A barrier instance: the phase that arrivals now join, its count and arrivals, and the number of phases released
(R112). -/
structure Barrier where
  phase : Nat
  count : Nat
  arrived : Nat
  released : Nat
deriving DecidableEq, Repr

/-- A shuttle channel (R115): its grant, its value, the value observed at each ring position that has observed one, and the largest
value that each agent has posted (R188). -/
structure Channel where
  ctx : Option (BitVec 12)
  value : Word
  seen : Sparse Word
  posts : List (AgentId × Word)
deriving DecidableEq, Repr

/-- A registered tensor's descriptor (R168). -/
structure Tensor where
  base : Word
  fmt : BitVec 4
  lt0 : BitVec 4
  lt1 : BitVec 4
  place : BitVec 2
  pdie : BitVec 2
  d0 : BitVec 32
  d1 : BitVec 32
deriving DecidableEq, Repr

/-- A tile of a tensor that a context has registered (R169). -/
structure Tile where
  ctx : BitVec 12
  tensor : BitVec 6
  i : Nat
  j : Nat
deriving DecidableEq, Repr

/-- A translation that a hart's buffer holds (R275, R297, R321): of a virtual page of 4 KiB in a context to a physical one, with the
permissions that its walk found. -/
structure Translation where
  who : AgentId
  ctx : BitVec 12
  page : Nat
  frame : Nat
  rwx : Nat
deriving DecidableEq, Repr

/-- A physical line that the tile cache holds, filed under the tile that filled it first (R170, R174). -/
structure TileLine where
  line : Nat
  die : Nat
  tile : Tile
  dirty : Bool
deriving DecidableEq, Repr

/-- How a die slice holds a line (R183); I is the absence of an entry. M carries the bytes written under claims since the line
entered M, and the bytes of those claims, both as masks; zero where a write was under none. -/
inductive Held where
  | m (wrote claim : Nat)
  | o
  | e
  | s
  | c (wrote claim : Nat)
deriving DecidableEq, Repr

/-- An L1D copy of a line (R163, R182, R185): its core, which of its bytes are valid, as a mask, and the harts that have read it, each
with the virtual address by which it did. -/
structure L1Copy where
  core : Nat
  valid : Nat
  readers : List (AgentId × Nat)
deriving DecidableEq, Repr

/-- The directories' record of a line (R182, R183): the die slices that hold it, the L1D copies, and the tile under which an
access last reached below L2 (R170). -/
structure DirLine where
  line : Nat
  dies : List (Nat × Held)
  l1 : List L1Copy
  tile : Option Tile
deriving DecidableEq, Repr

/-- The image of a context's program: its text range and the physical bytes recorded at the load (R280). -/
structure Image where
  lo : Word
  size : Nat
  pages : List (Nat × Nat)
deriving DecidableEq, Repr

/-- A loaded advice image (R288). -/
structure AdviceImage where
  code : List Byte
  index : List (BitVec 12 × Nat)
deriving DecidableEq, Repr

/-- A context (R271, R275, R277, R280, R309, R311, R317 to R319). `ctr` holds its counters by 1024*number + index. -/
structure Ctx where
  live : Bool
  root : Word
  gen : Word
  image : Option Image
  advice : Option AdviceImage
  codeStatus : Word
  attCtx : BitVec 512
  attAdv : BitVec 512
  lost : Word
  save : Word
  saveUse : Vector Word 4
  tensors : List (BitVec 6 × Tensor)
  /-- the tiles that the context keeps (R176) -/
  kept : List Tile
  locks : List (Nat × Nat)
  ctr : Sparse Word
  trcBase : Word
  trcCfg : Word
  trcWr : Word
  trcRd : Word
  trcResync : Bool
  trcLast : Word
  slogCfg : Vector Word 4
  slogEv : Vector Word 4
deriving DecidableEq, Repr

/-- A tenant: its loaded descriptor, if any (R272), and its decision counters 0x720 to 0x728 (R90). -/
structure Tenant where
  loaded : Bool
  quads : BitVec 144
  ways : BitVec 16
  pod : BitVec 16
  fmask : Word
  kquota : Word
  iquota : Word
  key : Word
  dec : Vector Word 9
deriving DecidableEq, Repr

/-- A bundle descriptor as the Loom holds it (R82). -/
structure BundleDesc where
  cores : Nat
  split : BitVec 2
  ctl : Bool
  control : Word
deriving DecidableEq, Repr

/-- A record in the Loom's list (R83): what the append wrote, the fields read once at the append event, and the
job's state. `seq` orders acceptances over the package (R86). `next` is the lowest bundle not yet placed. -/
structure Job where
  /-- the QCB, by its physical address; `qva` is its address in its context -/
  qcb : Word
  qva : Word
  /-- the record's address in its context, and its physical address -/
  addr : Word
  pa : Nat
  id : Word
  origin : BitVec 3
  cmask : BitVec 16
  hint : BitVec 9
  seq : Nat
  /-- the time of acceptance (R86) -/
  time : Word
  read : Bool
  prio : BitVec 4
  preempt : Bool
  /-- dependences: address in its context, and physical address at the append event -/
  deps : List (Word × Nat)
  entry : BitVec 48
  args : Word
  grid : BitVec 32
  desc : BundleDesc
  state : BitVec 2
  code : Byte
  next : Nat
  deferred : Bool
deriving DecidableEq, Repr

/-- The stages of a placed bundle: running, being saved, with the reason of the decision (R89), or saved in a slot (R308, R309). -/
inductive BundleStage where
  | running
  | saving (slot : Nat) (reason : BitVec 8)
  | saved (slot : Nat)
deriving DecidableEq, Repr

/-- A placed or saved bundle (R87, R91, R308). -/
structure Bundle where
  qcb : Word
  job : Word
  index : Nat
  /-- the context that its tasks run in -/
  ctx : BitVec 12
  quad : Nat
  cores : List Nat
  split : BitVec 2
  ctl : Bool
  stage : BundleStage
  /-- tile operations issued and not started when the bundle was saved (R269) -/
  ops : List TileOp
  /-- slots whose release had not taken effect when the bundle was saved (R252) -/
  releasing : List Nat
  /-- the core barriers of its harts when it was saved (R114): core, offset of the id in its hart's part, hart, barrier -/
  barriers : List (Nat × Nat × Nat × Barrier)
deriving DecidableEq, Repr

/-- What the Loom last read from a QCB's control word (R79). -/
structure QcbView where
  qcb : Word
  qva : Word
  ctx : BitVec 12
  prioMin : BitVec 4
  prioMax : BitVec 4
  /-- the last record that an append linked, and its physical address; 0 when there is none -/
  last : Word
  lastPa : Nat
deriving DecidableEq, Repr

/-- A microcode image (R93): its identifier, its m, its entry offset and its bytes. -/
structure Microcode where
  id : BitVec 16
  cost : BitVec 32
  entry : Word
  bytes : List Byte
deriving DecidableEq, Repr

/-- The Loom (R83 to R94), one for the package: all four run one image, held in their microcode stores; none is the boot
microcode. `held` are records waiting for ring space. -/
structure Loom where
  jobs : List Job
  bundles : List Bundle
  held : List (Word × List Word)
  views : List QcbView
  seq : Nat
  image : Option Microcode
  reload : Option Microcode
  forecast : Vector (BitVec 16) 4
  next : Vector (Option (BitVec 16)) 4
  /-- commands that hardware has refused (R92) -/
  refused : Nat
deriving DecidableEq, Repr

/-- A narrowing message (R192): the region it concerns, the bounds it imposes, the partner, which sends it, with its context
(R188), and whether the target comes before the partner. -/
structure Narrowing where
  ctx : BitVec 12
  target : AgentId
  lo : Int
  hi : Int
  partner : AgentId
  before : Bool
deriving DecidableEq, Repr

/-- A FINAL message (R194): its sender with its context (R188), its target, whether the target comes before the committed
region, and the position. -/
structure Final where
  sender : AgentId
  ctx : BitVec 12
  target : AgentId
  before : Bool
  pos : Nat
deriving DecidableEq, Repr

/-- The commit arbiter and the stamps of the home slices (R190, R196). -/
structure Arbiter where
  high : Nat
  stamps : List (Nat × (Nat × Nat))
  floors : Sparse Nat
  narrowings : List Narrowing
  finals : List Final
  beginQueue : List AgentId
  renewing : Bool
  rebase : Word
deriving DecidableEq, Repr

/-- A contribution to an ORU window (R147): issuer, physical address, value and its format; for the slice log of the close (R319) the
hart, the instruction address, the element and the virtual address; and the order of acceptance among all contributions (R203). -/
structure Contribution where
  issuer : Nat
  addr : Nat
  value : Nat
  fmt : BitVec 4
  who : AgentId
  pc : BitVec 48
  elem : Nat
  va : Nat
  stamp : Nat
deriving DecidableEq, Repr

/-- A message of one damo.add, named by `op`, on its way to ordered-reduction units: one issuer's contributions to one line,
or its close tokens (R147, R203). `slices` are the slices whose units have not accepted it yet, numbered over the package. -/
structure OruMsg where
  id : Nat
  op : Nat
  slices : List Nat
  ctx : BitVec 12
  win : BitVec 16
  fmt : BitVec 4
  line : Nat
  contribs : List Contribution
  token : Option Nat
  sender : AgentId
  /-- the translation generation of its accesses (R275) -/
  gen : Word
  /-- it has found the overflow area empty, and waits since then (R203) -/
  waited : Option Nat
  /-- its hart still runs, and counts it as outstanding (R135) -/
  owed : Bool
deriving DecidableEq, Repr

/-- An open window at the ordered-reduction unit of one slice (R147 to R149, R203). -/
structure Window where
  slice : Nat
  ctx : BitVec 12
  win : BitVec 16
  parts : Option Nat
  tokens : Nat
  contribs : List Contribution
deriving DecidableEq, Repr

/-- A member's contribution to an xred call (R160). -/
structure Member where
  who : AgentId
  rank : Nat
  count : Nat
  granted : Nat
  fmt : BitVec 4
  first : Nat
  parts : Nat
  data : List (List Nat)
  /-- register slots of its contribution that hold an uncorrectable error: register of the run, and slot (R313) -/
  bad : List (Nat × Nat)
  rnd : BitVec 2
  /-- its bundle is pre-empted: it takes what the call gives once it resumes (R161) -/
  away : Bool
deriving DecidableEq, Repr

/-- What a call gives its members (R160, R161): the elements of each register, packed, with the slots that an uncorrectable error
reaches, by register and slot (R313); or a trap with its code and subcode. -/
inductive XredOutcome where
  | sums (registers : List Nat) (bad : List (Nat × Nat))
  | trap (code sub : Nat)
deriving DecidableEq, Repr

/-- An xred call in progress (R160). -/
structure XredCall where
  id : Nat
  group : Nat
  ctx : BitVec 12
  ordered : Bool
  members : List Member
  /-- the result, once the call is complete and members of it are still away -/
  outcome : Option XredOutcome
deriving DecidableEq, Repr

/-- A vpush in progress (R159): the registers still to be delivered, as (destination register, elements). -/
structure Push where
  id : Nat
  sender : AgentId
  receiver : AgentId
  /-- the receiver's bundle: QCB, job id and bundle index -/
  bundle : Word × Word × Nat
  fmt : BitVec 4
  granted : Nat
  data : List (Nat × Nat)
deriving DecidableEq, Repr

/-- A reply sent to the outside (R283, R284, R133). -/
inductive Reply where
  | uec (ep : BitVec 12) (ok : Bool) (data : List Byte)
  | spdm (ep : BitVec 12) (code : Byte) (data : List Byte)
  | cxl (pa : Nat) (data : List Byte)
deriving DecidableEq, Repr

/-- A write of the device that waits for an engine's line or for a flip (R128, R285): bytes within one granule, which poison it where
`bad` says so; or a record whose address is still to be translated, of a trace ring or of a QCB's decision ring. -/
inductive Late where
  | bytes (pa : Nat) (data : List Byte) (bad : Bool)
  | trace (ctx : BitVec 12) (va : Nat) (data : List Byte)
  | decision (qcb : Word) (ctx : BitVec 12) (va : Nat) (data : List Byte)
deriving DecidableEq, Repr

/-- Package-wide registers: repair tables by 1024*number + index where they differ from the part's own values (R50,
R51), health (R313), attestation (R282), bindings and grants (R277, R284), bias (R285), time and power (R2, R94,
R167), incarnations and deaths (R188, R316), misses that wait (R166). -/
structure Pkg where
  tables : Sparse Word
  gen : BitVec 32
  health : BitVec 2
  serial : BitVec 48
  loomCost : BitVec 32
  attPkg : BitVec 512
  dec : Vector Word 9
  uec : Sparse (BitVec 13)
  coll : Sparse (BitVec 13)
  hostBias : List Nat
  flips : List (Nat × Bool)
  timebase : Word
  /-- the part of a timebase tick that has passed, in eighteenths (R2: an ac is five of them) -/
  phase : BitVec 5
  deepIdle : Bool
  clockLow : Bool
  incarnations : List (DyingAgent × Byte)
  dead : List DyingAgent
  drowsy : List Nat
  /-- when a slice was last accessed, snooped or recalled, in eighteenths of a nanosecond (R167) -/
  slicesUsed : Sparse Nat
  /-- the lines that the tile caches hold (R170) -/
  tileCache : List TileLine
  wakes : Sparse Word
  misses : List (Nat × AgentId)
  holds : List (Nat × AgentId)
  /-- 64-byte granules of physical memory that are poisoned (R312) -/
  poison : List Nat
  /-- 64-byte granules of the local stores that are poisoned (R312) -/
  storePoison : List Nat
  /-- 64-byte granules of operand memory that are poisoned (R312) -/
  slotPoison : List Nat
  /-- accumulator cells that are poisoned (R312, R313), as 65536*quad + 256*row + column -/
  cellPoison : List Nat
  /-- the directories (R182, R183): the lines that some die slice or L1D holds -/
  dir : List DirLine
  /-- the translation buffers (R275, R321) -/
  tlb : List Translation
  /-- lines that device writes, and device reads, of this step have reached while a region tracked them (R197) -/
  wrote : List Nat
  readLines : List Nat
  /-- changes of loaded code, oldest first: the 4-byte unit, and its old value (R75) -/
  oldCode : List (Nat × BitVec 32)
  /-- corrected errors of units that a repair replaces, with their times (R314) -/
  errors : List (RepairUnit × Word)
  /-- physical places that a repair has taken out of service, by class (0 lane, 1 quad, 2 slice) and number (R314) -/
  worn : List (Nat × Nat)
  /-- regions that were host-bias when the CXL port died (R316) -/
  lostHost : List Nat
  /-- command messages that wait for an engine's write, by endpoint and oldest first (R284) -/
  inbox : List (BitVec 12 × Message)
  /-- writes of the device that wait for an engine or a flip, oldest first (R128, R285) -/
  late : List Late
  /-- code lines in the L1I of each core, as (core, line), and in the code cache of each quad, as (quad, line), oldest first (R180) -/
  coreCode : List (Nat × Nat)
  quadCode : List (Nat × Nat)
deriving DecidableEq, Repr

/-- The machine. -/
structure State where
  hart : Hart
  parked : List Hart
  /-- harts of pre-empted bundles, whose copies stay suspended with their lines owned (R158, R308) -/
  saved : List Hart
  sched : List Move
  agenda : List Due
  /-- the next step performs a due event rather than an instruction -/
  eventTurn : Bool
  free : Nat
  outbox : List Reply
  mem : Memory
  lstore : Memory
  slots : Memory
  acc : Memory
  scales : Sparse (BitVec 32)
  quads : Sparse Quad
  cores : Sparse Core
  barriers : List (BarrierKey × Barrier)
  shuttle : Sparse Channel
  ctxs : Sparse Ctx
  tenants : Sparse Tenant
  pkg : Pkg
  arb : Arbiter
  oruIn : List OruMsg
  windows : List Window
  xred : List XredCall
  pushes : List Push
  loom : Loom
deriving DecidableEq, Repr

/-- Why the machine stops with a fault. Instructions raise none: every exception of the spec is taken (R303). -/
inductive Fault where
  /-- Raised by the meaning of a hardware step (a row with no encoding) that is not due in this state: the hardware
  makes no such step, so stopping is safe. -/
  | notDue
deriving DecidableEq, Repr

/-- Why the machine has no meaning for an instruction. -/
inductive Refusal where
  /-- Raised by exec alone, for an instruction with no meaning yet; safe, since nothing is claimed of it. -/
  | notModelled (mnemonic : String)
deriving DecidableEq, Repr

/-- The trap registers at task start (R302): every one reads 0. -/
def TrapRegs.zero : TrapRegs := ⟨0, 0, 0, 0, 0, 0, 0, 0, 0⟩

/-- An advice context with no image and no task (R286): idle. -/
def Advice.idle : Advice where
  x := Vector.replicate 16 0
  apc := 0
  state := .idle
  queue := []
  prio := 31
  order := 0
  place := 0
  inFlight := 0
  code := []
  index := []
  loaded := false
  realignNext := false
  delay := 0

/-- A hart with no task, every register at its task-start value (R36). -/
def Hart.idle (id : AgentId) : Hart where
  id := id
  active := false
  started := false
  ending := false
  failCode := 0
  ctx := 0
  split := 0
  setvlDone := false
  s := Vector.replicate 32 0
  v := Vector.replicate 48 0
  m := Vector.replicate 12 0
  vl := 0
  vlPad := 0
  vt := 0
  sw := 0
  vstart := 0
  pc := 0
  h := Vector.replicate 32 .free
  copy := Vector.replicate 32 none
  q := Vector.replicate 8 none
  cnt := ⟨0, 0, 0, 0⟩
  ebLo := 0
  ebHi := 0
  mark := 0
  trap := TrapRegs.zero
  bp := Vector.replicate 4 0
  bpDone := none
  fired := none
  reservation := none
  region := none
  aborts := 0
  empty := 0
  barWait := none
  xredCall := none
  pushing := none
  claims := []
  stalls := []
  stallEvict := 0
  prio := 0
  urgent := false
  passed := 0
  wait := none
  yielded := 0
  accStores := []
  parity := []
  pooled := Vector.replicate 48 0
  fenced := 0
  sent := []
  gates := []
  lineBuffer := []
  flipping := false
  lost := []
  qcb := 0
  job := 0
  bundle := 0
  task := 0
  args := 0
  entry := 0
  adv := Advice.idle

/-- A quad with no bundle that owns its matrix engine (R251). -/
def Quad.idle : Quad := ⟨none, Vector.replicate 32 .free, none, [], [], []⟩

/-- A core with one hart's split and nothing pending; hart 0 comes first in the round (R95). -/
def Core.idle : Core := ⟨0, none, [], [], 7, 7⟩

/-- A channel that no context holds (R115). -/
def Channel.idle : Channel := ⟨none, 0, [], []⟩

/-- A context that does not exist (R271). -/
def Ctx.none : Ctx where
  live := false
  root := 0
  gen := 0
  image := Option.none
  advice := Option.none
  codeStatus := 0
  attCtx := 0
  attAdv := 0
  lost := 0
  save := 0
  saveUse := Vector.replicate 4 0
  tensors := []
  kept := []
  locks := []
  ctr := []
  trcBase := 0
  trcCfg := 0
  trcWr := 0
  trcRd := 0
  trcResync := true
  trcLast := 0
  slogCfg := Vector.replicate 4 0
  slogEv := Vector.replicate 4 0

/-- A tenant with no descriptor loaded (R272). -/
def Tenant.none : Tenant := ⟨false, 0, 0, 0, 0, 0, 0, 0, Vector.replicate 9 0⟩

/-- The Loom with an empty list under the boot microcode (R93, R94). -/
def Loom.boot : Loom :=
  ⟨[], [], [], [], 0, .none, .none, Vector.replicate 4 1024, Vector.replicate 4 .none, 0⟩

/-- The package's registers after reset. -/
def Pkg.reset : Pkg where
  tables := []
  gen := 0
  health := 0
  serial := 0
  loomCost := 120
  attPkg := 0
  dec := Vector.replicate 9 0
  uec := []
  coll := []
  hostBias := []
  flips := []
  timebase := 0
  phase := 0
  deepIdle := false
  clockLow := false
  incarnations := []
  dead := []
  drowsy := []
  slicesUsed := []
  tileCache := []
  wakes := []
  misses := []
  holds := []
  poison := []
  storePoison := []
  slotPoison := []
  cellPoison := []
  dir := []
  tlb := []
  wrote := []
  readLines := []
  oldCode := []
  errors := []
  worn := []
  lostHost := []
  inbox := []
  late := []
  coreCode := []
  quadCode := []

/-- The machine right after reset: no context exists and no hart holds a task; work starts only by an append (R4). -/
def State.reset : State where
  hart := Hart.idle ⟨0, 0, 0, false⟩
  parked := []
  saved := []
  sched := []
  agenda := []
  eventTurn := false
  free := 0
  outbox := []
  mem := []
  lstore := []
  slots := []
  acc := []
  scales := []
  quads := []
  cores := []
  barriers := []
  shuttle := []
  ctxs := []
  tenants := []
  pkg := Pkg.reset
  arb := ⟨0, [], [], [], [], [], false, 0⟩
  oruIn := []
  windows := []
  xred := []
  pushes := []
  loom := Loom.boot

end Sys2Proof.Machine
end

