-- ==== Sys2Proof/Machine/Sparse.lean ====
section
/-! DEFINITION. Tables that list only what differs from their default: the canonical form (keys strictly rising, no
entry equal to its default), reading and writing one entry, and bytes of memory by number. -/

namespace Sys2Proof.Machine

/-- The value of entry k. -/
def Sparse.get {α : Type} (dflt : Nat → α) : Sparse α → Nat → α
  | [], k => dflt k
  | (j, v) :: rest, k => if k = j then v else Sparse.get dflt rest k

/-- The table with entry k set to v; an entry equal to its default is not listed. -/
def Sparse.set {α : Type} [DecidableEq α] (dflt : Nat → α) : Sparse α → Nat → α → Sparse α
  | [], k, v => if v = dflt k then [] else [(k, v)]
  | (j, u) :: rest, k, v =>
    if k < j then (if v = dflt k then (j, u) :: rest else (k, v) :: (j, u) :: rest)
    else if k = j then (if v = dflt k then rest else (k, v) :: rest)
    else (j, u) :: Sparse.set dflt rest k v

/-- The canonical form: keys strictly rising and no entry equal to its default. -/
def Sparse.wf {α : Type} [DecidableEq α] (dflt : Nat → α) : Sparse α → Bool
  | [] => true
  | [(j, v)] => decide (v ≠ dflt j)
  | (j, v) :: (k, u) :: rest => decide (v ≠ dflt j) && decide (j < k) && Sparse.wf dflt ((k, u) :: rest)

/-- What a byte that nothing has written reads as. The spec gives memory no contents at power-on
(DESIGN CHOICE: 0, log 3, unsafe); operand slots and local-store eighths are zeroed at placement (R251, R273). -/
def unwritten (_ : Nat) : Byte := 0

/-- One byte of memory. -/
def Memory.byte (m : Memory) (a : Nat) : Byte := Sparse.get unwritten m a

/-- Memory with one byte written. -/
def Memory.setByte (m : Memory) (a : Nat) (b : Byte) : Memory := Sparse.set unwritten m a b

/-- The canonical form of a memory. -/
def Memory.wf (m : Memory) : Bool := Sparse.wf unwritten m

/-- The bytes at the listed addresses. -/
def Memory.bytes (m : Memory) (as : List Nat) : List Byte := as.map m.byte

/-- Memory with each listed byte written, in the list's order. -/
def Memory.setBytes (m : Memory) : List (Nat × Byte) → Memory
  | [] => m
  | (a, b) :: rest => Memory.setBytes (m.setByte a b) rest

/-- n bytes from address a on, as a little-endian number (R30). -/
def Memory.read (m : Memory) (a n : Nat) : Nat := ofBytes (m.bytes ((List.range n).map (a + ·)))

/-- n bytes from address a on, written with a little-endian number (R30). -/
def Memory.write (m : Memory) (a n x : Nat) : Memory :=
  m.setBytes ((toBytes n x).zipIdx.map fun p => (a + p.2, p.1))

/-- Memory with every byte of [a, a + n) at its unwritten value. -/
def Memory.clear (m : Memory) (a n : Nat) : Memory := m.filter fun c => c.1 < a || a + n ≤ c.1

end Sys2Proof.Machine
end

