-- ==== Sys2Proof/Machine/Hart.lean ====
section
/-! DEFINITION. Reading and writing the registers of the hart that moves, finding the other harts, and the tables
of contexts, quads and cores. -/

namespace Sys2Proof.Machine

/-- What a step answers. -/
abbrev Res := Host.Outcome State Fault Refusal

/-- The die of an agent. -/
def die (id : AgentId) : Nat := id.quad / 36

/-- The global core number 144*die + 4*quad + core (R50). -/
def globalCore (id : AgentId) : Nat := 4 * id.quad + id.core

/-- The lanes L of a hart (R32). -/
def Hart.lanes (h : Hart) : Nat := 32 / 2 ^ h.split.toNat

/-- MVL for elements of sew bits (R33). -/
def Hart.mvl (h : Hart) (sew : Nat) : Nat := 4 * h.lanes * (64 / sew)

/-- g = vl - vl.pad (R137). -/
def Hart.g (h : Hart) : Nat := h.vl.toNat - h.vlPad.toNat

/-- The format code held by vt (R37). -/
def Hart.fmtCode (h : Hart) : Nat := h.vt.toNat % 16

/-- The format held by vt; a reserved code never reaches vt (R37). -/
def Hart.fmt (h : Hart) : Fmt := (Fmt.ofCode h.fmtCode).getD .f64

/-- SEW in bits. -/
def Hart.sew (h : Hart) : Nat := h.fmt.sew

/-- The rounding mode held by vt. -/
def Hart.rnd (h : Hart) : Rnd := Rnd.ofCode (bits h.vt.toNat 10 9)

/-- The tail policy held by vt: 0 undisturbed, 1 dead, 2 zero. -/
def Hart.tailPolicy (h : Hart) : Nat := bits h.vt.toNat 7 6

/-- Mask policy zero. -/
def Hart.maskZero (h : Hart) : Bool := h.vt.toNat.testBit 8

/-- The block length held by vt: 0 none, 32, 64 or 128 (R37). -/
def Hart.blk (h : Hart) : Nat := match bits h.vt.toNat 5 4 with
  | 0 => 0
  | n => 16 * 2 ^ n

/-- id.hart (R50). -/
def Hart.idWord (h : Hart) : Nat :=
  die h.id + (h.id.quad % 36) * 4 +
    (if h.id.control then 2 ^ 15 else h.id.core * 256 + h.id.hart * 1024 + h.split.toNat * 8192)

/-- Scalar register n (R36). -/
def Hart.getS (h : Hart) (r : BitVec 5) : Word := if r = 0 then 0 else h.s.get r.toFin

/-- The register slots of the hart that still have a parity error once those that satisfy p have been written (R313). -/
def Hart.stillBad (h : Hart) (p : RegSlot → Bool) : List RegSlot :=
  if h.parity.isEmpty then [] else h.parity.filter fun r => !p r

/-- A write of a scalar register; s0 discards it (R36). -/
def Hart.setS (h : Hart) (r : BitVec 5) (x : Word) : Hart :=
  if r = 0 then h else { h with s := h.s.set r.toNat x r.isLt, parity := h.stillBad fun k => decide (k = .s r.toNat) }

/-- Vector register n (R36). -/
def Hart.getV (h : Hart) (n : Nat) : Nat := (h.v.getD n 0).toNat

/-- A write of a whole vector register. -/
def Hart.setV (h : Hart) (n : Nat) (x : Nat) : Hart := { h with v := h.v.setIfInBounds n (BitVec.ofNat 8192 x) }

/-- Mask register n; m0 reads all true (R36). -/
def Hart.getM (h : Hart) (n : Nat) : Nat := if n = 0 then 2 ^ (32 * h.lanes) - 1 else (h.m.getD n 0).toNat

/-- A write of a mask register; m0 discards it (R36). -/
def Hart.setM (h : Hart) (n : Nat) (x : Nat) : Hart :=
  if n = 0 then h else { h with m := h.m.setIfInBounds n (BitVec.ofNat 1024 x) }

/-- Slots of a mask register have been written whole. -/
def Hart.goodM (h : Hart) (n : Nat) (whole : Nat → Bool) : Hart :=
  { h with parity := h.stillBad fun r => match r with
      | .m k slot => decide (k = n) && whole slot
      | _ => false }

/-- Slots of a vector register have been written whole, and elements of some of its rows, which leave the row pool (R35). -/
def Hart.goodV (h : Hart) (n : Nat) (whole row : Nat → Bool) : Hart :=
  let left := fun (b : BitVec 4) => BitVec.ofNat 4 (pack 1 4 fun r => if b.getLsbD r && !row r then 1 else 0)
  { h with
    parity := h.stillBad fun r => match r with
      | .v k slot => decide (k = n) && whole slot
      | _ => false
    pooled := if h.pooled.getD n 0 = 0 then h.pooled else h.pooled.setIfInBounds n (left (h.pooled.getD n 0)) }

/-- The harts that hold a task or a program, the one that moves first. -/
def State.harts (s : State) : List Hart := s.hart :: s.parked

/-- The hart of that name. -/
def State.find (s : State) (id : AgentId) : Option Hart := s.harts.find? fun h => decide (h.id = id)

/-- A change of the hart that moves. -/
def State.on (s : State) (f : Hart → Hart) : State := { s with hart := f s.hart }

/-- A change of the hart of that name. -/
def State.update (s : State) (id : AgentId) (f : Hart → Hart) : State :=
  { s with
    hart := if s.hart.id = id then f s.hart else s.hart
    parked := s.parked.map fun h => if h.id = id then f h else h }

/-- A change of every hart. -/
def State.updateAll (s : State) (f : Hart → Hart) : State := { s with hart := f s.hart, parked := s.parked.map f }

/-- Scalar register r of the hart that moves. -/
def State.rs (s : State) (r : BitVec 5) : Word := s.hart.getS r

/-- A write of scalar register r of the hart that moves. -/
def State.ws (s : State) (r : BitVec 5) (x : Word) : State := s.on fun h => h.setS r x

/-- The pc moved on by n bytes. -/
def State.skip (s : State) (n : Nat) : State := s.on fun h => { h with pc := h.pc + BitVec.ofNat 48 n }

/-- The pc set. -/
def State.jump (s : State) (a : BitVec 48) : State := s.on fun h => { h with pc := a }

/-- The instruction is complete: on to the next word. -/
def State.done (s : State) : Res := .next (s.skip 4)

/-- The instruction writes sd and is complete. -/
def State.give (s : State) (d : BitVec 5) (x : Word) : Res := (s.ws d x).done

/-- The hart is not ready; the instruction is tried again later (R95). -/
def State.waitFor (s : State) (r : Wait) : Res := .next (s.on fun h => { h with wait := some r })

/-- A hardware step becomes due. -/
def State.due (s : State) (d : Due) : State := { s with agenda := s.agenda ++ [d] }

/-- A context (R271). -/
def State.ctx (s : State) (c : BitVec 12) : Ctx := Sparse.get (fun _ => Ctx.none) s.ctxs c.toNat

/-- A change of a context. -/
def State.onCtx (s : State) (c : BitVec 12) (f : Ctx → Ctx) : State :=
  { s with ctxs := Sparse.set (fun _ => Ctx.none) s.ctxs c.toNat (f (s.ctx c)) }

/-- The tenant of a context (R271). -/
def tenantOf (c : BitVec 12) : Nat := bits c.toNat 11 8

/-- The contexts of tenant 0 are privileged (R271). -/
def privileged (c : BitVec 12) : Bool := decide (tenantOf c = 0)

/-- A tenant's descriptor and counters (R272, R90). -/
def State.tenant (s : State) (t : Nat) : Tenant := Sparse.get (fun _ => Tenant.none) s.tenants t

/-- A change of a tenant. -/
def State.onTenant (s : State) (t : Nat) (f : Tenant → Tenant) : State :=
  { s with tenants := Sparse.set (fun _ => Tenant.none) s.tenants t (f (s.tenant t)) }

/-- A quad's matrix engine. -/
def State.quad (s : State) (q : Nat) : Quad := Sparse.get (fun _ => Quad.idle) s.quads q

/-- A change of a quad. -/
def State.onQuad (s : State) (q : Nat) (f : Quad → Quad) : State :=
  { s with quads := Sparse.set (fun _ => Quad.idle) s.quads q (f (s.quad q)) }

/-- A core, by its global number. -/
def State.core (s : State) (c : Nat) : Core := Sparse.get (fun _ => Core.idle) s.cores c

/-- A change of a core. -/
def State.onCore (s : State) (c : Nat) (f : Core → Core) : State :=
  { s with cores := Sparse.set (fun _ => Core.idle) s.cores c (f (s.core c)) }

/-- A change of the package's registers. -/
def State.onPkg (s : State) (f : Pkg → Pkg) : State := { s with pkg := f s.pkg }

/-- A counter of a context, read by GETC under the number and index given. -/
def State.counter (s : State) (c : BitVec 12) (num idx : Nat) : Word :=
  Sparse.get (fun _ => 0) (s.ctx c).ctr (1024 * num + idx)

/-- A counter of a context raised by n; it wraps (R178, R201). -/
def State.count (s : State) (c : BitVec 12) (num idx n : Nat) : State :=
  s.onCtx c fun x =>
    { x with ctr := Sparse.set (fun _ => 0) x.ctr (1024 * num + idx) (s.counter c num idx + BitVec.ofNat 64 n) }

/-- The number of the next free value, and the state that has taken it (R137, R221 and the like). -/
def State.fresh (s : State) : State := { s with free := s.free + 1 }

end Sys2Proof.Machine
end

