-- ==== Sys2Proof/Machine/Space.lean ====
section
/-! DEFINITION. The address space (R43, R49, R273, R274): the translation walk, the local-store window, where a line
is at home (R164), and which accesses must wait. -/

namespace Sys2Proof.Machine

/-- Why an access or an instruction stops before it takes effect: a trap with its code, subcode and data address, or
a wait. -/
inductive Stop where
  | trap (code sub : Byte) (addr : Nat)
  | wait (r : Wait)
deriving DecidableEq, Repr

/-- The permissions that an access needs (R274). -/
inductive Perm where
  | load
  | store
  | update
  /-- a contribution to an ordered-reduction unit (R147) -/
  | contribute
  | fetch
deriving DecidableEq, Repr

/-- Whether the access reads data. -/
def Perm.reads : Perm → Bool
  | .store => false
  | _ => true

/-- Whether the access writes data. -/
def Perm.writes : Perm → Bool
  | .store => true
  | .update => true
  | .contribute => true
  | _ => false

/-- Whether a leaf's bits r, w, x ([4:2] of the entry) permit the access. -/
def Perm.allowed (p : Perm) (rwx : Nat) : Bool :=
  match p with
  | .load => rwx.testBit 0
  | .store => rwx.testBit 1
  | .update => rwx.testBit 0 && rwx.testBit 1
  | .contribute => rwx.testBit 0 && rwx.testBit 1
  | .fetch => rwx.testBit 2

/-- What a translation walk finds (R274). -/
inductive Walk where
  | fault
  | wait
  /-- an entry lies in a poisoned granule (R313, R321) -/
  | poison
  | page (pa : Nat) (rwx : Nat)
deriving DecidableEq, Repr

/-- What one entry says at its level: a fault, the page it maps, or the next table (R274). -/
inductive Entry where
  | fault
  | leaf (pa : Nat) (rwx : Nat)
  | table (pa : Nat)
deriving DecidableEq, Repr

/-- The reading of a page-table entry at a level (R274). -/
def readEntry (level e : Nat) : Entry :=
  let pa := bits e 51 12 <<< 12
  if !e.testBit 0 || bits e 11 6 != 0 || bits e 63 52 != 0 then .fault
  else if e.testBit 1 then
    if level = 3 ∨ pa % 2 ^ (12 + 9 * level) ≠ 0 then .fault else .leaf pa (bits e 4 2)
  else if level = 0 then .fault
  else .table pa

/-- The address of the entry of va in a table of the level (R274). -/
def entryAddr (level table va : Nat) : Nat := table + 8 * bits va (20 + 9 * level) (12 + 9 * level)

/-- What an entry says but for its pa (R274). -/
def entryMarks (e : Nat) : Nat := bits e 11 0 + bits e 63 52 * 2 ^ 12

/-- The 16 aligned L0 entries around the one at an address. -/
def c64Group (a : Nat) : List Nat := (List.range 16).map fun k => a / 128 * 128 + 8 * k

/-- The L0 entry at an address maps 64 KiB together with its 15 neighbours (R274): all are marked c64 and differ in their pa at
most. -/
def mapsC64 (rd : Nat → Nat) (a : Nat) : Bool :=
  (rd a).testBit 5 && (c64Group a).all fun b => decide (entryMarks (rd b) = entryMarks (rd a))

/-- The walk's last step at an L0 entry (R274). -/
def walkLeaf (rd : Nat → Nat) (stops : Nat → Option Walk) (va a : Nat) : Walk :=
  match stops a with
  | some w => w
  | none => match readEntry 0 (rd a) with
    | .leaf pa rwx =>
      if !(rd a).testBit 5 then .page (pa + va % 2 ^ 12) rwx
      else match stops (a / 128 * 128), stops (a / 128 * 128 + 64) with
        | some w, _ => w
        | none, some w => w
        | none, none =>
          if !mapsC64 rd a then .page (pa + va % 2 ^ 12) rwx
          else if pa % 2 ^ 16 ≠ 0 then .fault
          else .page (pa + va % 2 ^ 16) rwx
    | _ => .fault

/-- The walk from a level down: `rd` reads an entry, `stops` says why it cannot be read (R128, R285, R313, R321). -/
def walkFrom (rd : Nat → Nat) (stops : Nat → Option Walk) (va : Nat) : Nat → Nat → Walk
  | 0, table => walkLeaf rd stops va (entryAddr 0 table va)
  | level + 1, table =>
    let a := entryAddr (level + 1) table va
    match stops a with
    | some w => w
    | none => match readEntry (level + 1) (rd a) with
      | .fault => .fault
      | .leaf pa rwx => .page (pa + va % 2 ^ (12 + 9 * (level + 1))) rwx
      | .table pa => walkFrom rd stops va level pa

/-- The entries that the walk reads, in order (R321). -/
def entriesFrom (rd : Nat → Nat) (va : Nat) : Nat → Nat → List Nat
  | 0, table =>
    let a := entryAddr 0 table va
    if (rd a).testBit 5 then a :: [a / 128 * 128, a / 128 * 128 + 64] else [a]
  | level + 1, table =>
    let a := entryAddr (level + 1) table va
    match readEntry (level + 1) (rd a) with
    | .table pa => a :: entriesFrom rd va level pa
    | _ => [a]

/-- A canonical 48-bit virtual address (R49). -/
def canonical (va : Nat) : Bool := bits va 63 47 = 0 || bits va 63 47 = 2 ^ 17 - 1

/-- The first address of the local-store window (R43). -/
def windowBase : Nat := 0x7FFFFFFC0000

/-- Whether an address lies in the local-store window (R43). -/
def inWindow (va : Nat) : Bool := decide (windowBase ≤ va) && decide (va ≤ 0x7FFFFFFFFFFF)

/-- row(a) of R164. -/
def rowOf (a : Nat) : Nat :=
  bits a 12 8 ^^^ bits a 17 13 ^^^ bits a 22 18 ^^^ bits a 27 23 ^^^ bits a 32 28 ^^^ bits a 37 33 ^^^
    bits a 42 38 ^^^ bits a 47 43 ^^^ bits a 51 48

/-- slice(a) of R164. -/
def sliceOf (a : Nat) : Nat := 32 * bits a 7 6 + rowOf a

/-- home(a) of R164. -/
def homeOf (a : Nat) : Nat :=
  bits a 13 12 ^^^ bits a 21 20 ^^^ bits a 29 28 ^^^ bits a 37 36 ^^^ bits a 45 44

/-- The home slice of a line, as 128*die + logical slice; a line is named by its physical address / 64. -/
def homeSlice (line : Nat) : Nat := 128 * homeOf (64 * line) + sliceOf (64 * line)

/-- The slice whose ordered-reduction unit serves a line (R164): its home slice with package scope, its slice of the issuing die
without. -/
def oruSlice (package : Bool) (die line : Nat) : Nat := if package then homeSlice line else 128 * die + sliceOf (64 * line)

/-- Whether a copy or an accumulator store owns the line (R128, R267). -/
def State.engineOwned (s : State) (line : Nat) : Bool :=
  (s.harts ++ s.saved).any fun h =>
    h.copy.toList.any (fun c => match c with
      | some c => c.lines.elem line
      | none => false) ||
    h.accStores.any (fun p => p.lines.elem line)

/-- Whether an engine owns the line (R128): a copy, an accumulator store, or an open window of an ordered-reduction
unit (R149). -/
def State.owned (s : State) (line : Nat) : Bool :=
  s.engineOwned line || s.windows.any (fun w => w.contribs.any fun c => decide (c.addr / 64 = line))

/-- Whether an access of a kind waits for the owner of a line: a contribution joins the unit that owns it (R149). -/
def State.ownedFor (s : State) (p : Perm) (line : Nat) : Bool :=
  if p = .contribute then s.engineOwned line else s.owned line

/-- A region of some hart tracks the line (R191). -/
def State.tracked (s : State) (line : Nat) : Bool :=
  s.harts.any fun h => match h.region with
    | some r => r.lines.any fun t => decide (t.line = line)
    | none => false

/-- Contributions of the hart that their units have not accepted yet (R149): accesses in class 15, which come before every
later access of the hart (R123). -/
def State.sending (s : State) (h : Hart) : Bool :=
  s.oruIn.any fun m => m.token.isNone && h.sent.elem m.op

/-- Whether the bias region of an address is being flipped (R285). -/
def State.flipping (s : State) (pa : Nat) : Bool := s.pkg.flips.any fun f => decide (f.1 = pa / 2 ^ 21)

/-- Whether the 64-byte granule of an address is poisoned (R312). -/
def State.poisoned (s : State) (pa : Nat) : Bool := s.pkg.poison.elem (pa / 64)

/-- A byte of physical memory as a hart reads it: its own region's uncommitted writes first (R191). -/
def State.seenBy (s : State) (h : Hart) (pa : Nat) : Byte :=
  match h.region with
  | some r => (Sparse.get (fun _ => none) r.buf pa).getD (s.mem.byte pa)
  | none => s.mem.byte pa

/-- n bytes as a hart reads them, little-endian. -/
def State.seeBytes (s : State) (h : Hart) (pa n : Nat) : Nat :=
  ofBytes ((List.range n).map fun i => s.seenBy h (pa + i))

/-- The walk in a context whose tables are read by `rd` (R274). -/
def State.walkWith (s : State) (rd : Nat → Nat) (c : BitVec 12) (va : Nat) : Walk :=
  let root := (s.ctx c).root.toNat
  let stops := fun (a : Nat) =>
    if s.owned (a / 64) || s.flipping a then some Walk.wait else if s.poisoned a then some .poison else none
  if !canonical va || !root.testBit 0 then .fault
  else walkFrom rd stops (va % 2 ^ 48) 3 (bits root 51 12 <<< 12)

/-- The translation buffer of a hart holds a translation of the address in the hart's context (R275, R297). -/
def Translation.serves (t : Translation) (h : Hart) (va : Nat) : Bool :=
  decide (t.who = h.id) && decide (t.ctx = h.ctx) && canonical va && decide (t.page = va % 2 ^ 48 / 4096)

/-- What a hart's translation buffer says of an address. -/
def State.translation (s : State) (h : Hart) (va : Nat) : Option Walk :=
  (s.pkg.tlb.find? fun t => t.serves h va).map fun t => .page (t.frame * 4096 + va % 4096) t.rwx

/-- The translation of an address for a hart: its buffer's, or else that of the walk that the access needs, whose entry reads are
the hart's own accesses (R275, R321). -/
def State.walkFor (s : State) (h : Hart) (va : Nat) : Walk :=
  (s.translation h va).getD (s.walkWith (fun a => s.seeBytes h a 8) h.ctx va)

/-- The walk that an access of a hart needs waits for the hart's own contributions, which come before its entry reads in class 15
(R123, R149, R321). -/
def State.walkHeld (s : State) (h : Hart) (va : Nat) : Bool := (s.translation h va).isNone && s.sending h

/-- The entries that a hart's walk reads, where its buffer has no translation (R321). -/
def State.walkReads (s : State) (h : Hart) (va : Nat) : List Nat :=
  let root := (s.ctx h.ctx).root.toNat
  if (s.translation h va).isSome || !canonical va || !root.testBit 0 then []
  else entriesFrom (fun a => s.seeBytes h a 8) (va % 2 ^ 48) 3 (bits root 51 12 <<< 12)

/-- The walk of a device access made in a context. -/
def State.walkIn (s : State) (c : BitVec 12) (va : Nat) : Walk := s.walkWith (fun a => s.mem.read a 8) c va

/-- The physical bytes recorded for a text range meet [pa, pa + n) (R280). -/
def Image.covers (im : Image) (pa n : Nat) : Bool :=
  im.pages.any fun q =>
    let lo := max im.lo.toNat (4096 * q.1)
    let hi := min (im.lo.toNat + im.size) (4096 * q.1 + 4096)
    decide (lo < hi) && decide (4096 * q.2 + (lo - 4096 * q.1) < pa + n) && decide (pa < 4096 * q.2 + (hi - 4096 * q.1))

/-- A byte of [pa, pa + n) belongs to the text range of a context (R280). -/
def State.isText (s : State) (pa n : Nat) : Bool :=
  s.ctxs.any fun c => match c.2.image with
    | some im => im.covers pa n
    | none => false

/-- The split by which a core's local store is shared: that of its bundle, whether its first SETVL has applied it or not (R88,
R273). -/
def State.shareSplit (s : State) (k : Hart) : Nat := ((s.core (globalCore k.id)).pending.getD k.split).toNat

/-- Whether a local-store offset lies in the hart's part: the eighths that the harts of its context hold on its core
(R273). -/
def State.ownPart (s : State) (h : Hart) (off : Nat) : Bool :=
  s.harts.any fun k =>
    k.active && decide (k.ctx = h.ctx) && !k.id.control && decide (k.id.quad = h.id.quad) &&
      decide (k.id.core = h.id.core) && decide ((off / 2 ^ 15) / 2 ^ (3 - s.shareSplit k) = k.id.hart)

/-- The key of a byte of a core's local store. -/
def storeKey (id : AgentId) (off : Nat) : Nat := globalCore id * 2 ^ 18 + off

/-- Where bytes lie: in physical memory, or in a local store. -/
inductive Place where
  | mem (pa : Nat)
  | store (key : Nat)
deriving DecidableEq, Repr

/-- Where a piece of an access lies, or why it stops (R136, R139, R274, R280, R313, R316): translation fault, then access
fault, then a wait for an engine (R128) or a flip (R285), then a dead port or an uncorrectable error. The piece does not cross a
64-byte boundary. `window` says that the form reaches the local-store window. -/
def State.place (s : State) (h : Hart) (window : Bool) (p : Perm) (va n : Nat) : Except Stop Place :=
  if inWindow va then
    if window && !h.id.control && s.ownPart h (va - windowBase) then
      let key := storeKey h.id (va - windowBase)
      if s.sending h then .error (.wait .reduction)
      else if p.reads && s.pkg.storePoison.elem (key / 64) then .error (.trap 8 0 va)
      else .ok (.store key)
    else .error (.trap 6 0 va)
  else if s.walkHeld h va then .error (.wait .reduction)
  else match s.walkFor h va with
    | .fault => .error (.trap 5 0 va)
    | .wait => .error (.wait .engineLine)
    | .poison => .error (.trap 8 0 va)
    | .page pa rwx =>
      if !p.allowed rwx then .error (.trap 6 0 va)
      else if p.writes && !privileged h.ctx && s.isText pa n then .error (.trap 6 0 va)
      else if s.ownedFor p (pa / 64) then .error (.wait .engineLine)
      else if s.flipping pa then .error (.wait .biasFlip)
      else if p != .fetch && s.sending h then .error (.wait .reduction)
      else if s.pkg.lostHost.elem (pa / 2 ^ 21) then .error (.trap 8 4 va)
      else if p.reads && s.poisoned pa then .error (.trap 8 0 va)
      else .ok (.mem pa)

/-- The order in which causes are chosen (R301); a wait comes before an uncorrectable error, which an engine's write
may clear. -/
def Stop.rank : Stop → Nat
  | .trap code _ _ => if code = 5 then 1 else if code = 6 then 2 else 4
  | .wait _ => 3

/-- One piece of an access: its address and where it lies, its length, and its first byte's position in the access. -/
structure Piece where
  va : Nat
  place : Place
  len : Nat
  at_ : Nat
deriving DecidableEq, Repr

/-- The pieces of an access of n ≤ 64 bytes at va, or the cause that stops it (R136, R301). -/
def State.pieces (s : State) (h : Hart) (window : Bool) (p : Perm) (va n : Nat) : Except Stop (List Piece) :=
  let k := 64 - va % 64
  if n ≤ k then (s.place h window p va n).map fun x => [⟨va, x, n, 0⟩]
  else
    match s.place h window p va k, s.place h window p ((va + k) % 2 ^ 64) (n - k) with
    | .ok x, .ok y => .ok [⟨va, x, k, 0⟩, ⟨(va + k) % 2 ^ 64, y, n - k, k⟩]
    | .error e, .ok _ => .error e
    | .ok _, .error e => .error e
    | .error e, .error f => .error (if f.rank < e.rank then f else e)

/-- The 64-byte block of a place, for reservations (R142). -/
def Place.block : Place → Nat
  | .mem pa => pa / 64
  | .store key => 2 ^ 60 + key / 64

end Sys2Proof.Machine
end

