-- ==== Sys2Proof/Machine/TileCache.lean ====
section
/-! DEFINITION. Registered tensors and the lines that the tile cache holds (R168 to R170, R176, R178). What it holds enters
observations only (R47, R130). -/

namespace Sys2Proof.Machine

/-- The element size of a tensor. -/
def Tensor.esz (t : Tensor) : Nat := ((Fmt.ofCode t.fmt.toNat).getD .f64).esz

/-- t0. -/
def Tensor.t0 (t : Tensor) : Nat := 2 ^ t.lt0.toNat

/-- t1. -/
def Tensor.t1 (t : Tensor) : Nat := 2 ^ t.lt1.toNat

/-- The bytes of the tensor range (R169). -/
def Tensor.size (t : Tensor) : Nat := t.d0.toNat * t.d1.toNat * t.esz

/-- Tile (i, j) is in range (R169). -/
def Tensor.inRange (t : Tensor) (i j : Nat) : Bool :=
  decide (i * t.t0 < t.d0.toNat) && decide (j * t.t1 < t.d1.toNat)

/-- The address of element (r, c) (R169). -/
def Tensor.addr (t : Tensor) (r c : Nat) : Nat := (t.base.toNat + (r * t.d1.toNat + c) * t.esz) % 2 ^ 64

/-- Rows and columns that tile (i, j) covers. -/
def Tensor.extent (t : Tensor) (i j : Nat) : Nat × Nat :=
  (min t.t0 (t.d0.toNat - i * t.t0), min t.t1 (t.d1.toNat - j * t.t1))

/-- The bytes that a kept tile counts against the quota (R176). -/
def Tensor.tileBytes (t : Tensor) (i j : Nat) : Nat := (t.extent i j).1 * (t.extent i j).2 * t.esz

/-- The start of each 64-byte line of a tile (R169). -/
def Tensor.lineAddrs (t : Tensor) (i j : Nat) : List Nat :=
  let (rows, cols) := t.extent i j
  (List.range rows).flatMap fun r => (List.range (cols * t.esz / 64)).map fun k =>
    (t.addr (i * t.t0 + r) (j * t.t1) + 64 * k) % 2 ^ 64

/-- A tensor of a context. -/
def Ctx.tensor (x : Ctx) (id : BitVec 6) : Option Tensor := (x.tensors.find? fun p => decide (p.1 = id)).map (·.2)

/-- The tile of a context's registered tensor that holds an address (R169). -/
def Ctx.tileAt (x : Ctx) (c : BitVec 12) (va : Nat) : Option Tile :=
  (x.tensors.find? fun p => decide (p.2.base.toNat ≤ va) && decide (va < p.2.base.toNat + p.2.size)).map fun p =>
    let e := (va - p.2.base.toNat) / p.2.esz
    ⟨c, p.1, e / p.2.d1.toNat / p.2.t0, e % p.2.d1.toNat / p.2.t1⟩

/-- The lines filed under a tile. One that another registration reaches too counts under the tile that filled it alone (DESIGN CHOICE,
log 9). -/
def State.tileLines (s : State) (t : Tile) : List TileLine := s.pkg.tileCache.filter fun l => decide (l.tile = t)

/-- The holding die of a tile (R168): 0 where its first line does not translate, has to wait for its walk, or finds a poisoned entry
(DESIGN CHOICE, log 9). -/
def State.tileDie (s : State) (c : BitVec 12) (t : Tensor) (i j : Nat) : Nat :=
  match t.place.toNat with
  | 0 => match s.walkIn c (t.addr (i * t.t0) (j * t.t1)) with
    | .page pa _ => homeOf pa
    | _ => 0
  | 1 => t.pdie.toNat
  | _ => (i + j) % 4

/-- The die on which a tile's lines are filled; 0 for a tile of no registered tensor. -/
def State.fillDie (s : State) (t : Tile) : Nat :=
  match (s.ctx t.ctx).tensor t.tensor with
  | some x => s.tileDie t.ctx x t.i t.j
  | none => 0

/-- The lines that the tile cache of one B-die holds: 192 MiB (R163). -/
def tileLinesPerDie : Nat := 3145728

/-- The context keeps the tile that a line is filed under (R176). -/
def State.keeps (s : State) (t : Tile) : Bool := (s.ctx t.ctx).kept.elem t

/-- A line leaves the tile cache; a kept tile that loses one loses its keep (R176). -/
def State.dropTileLine (s : State) (l : TileLine) : State :=
  let s := s.onPkg fun p => { p with tileCache := p.tileCache.filter fun k => decide (k.line ≠ l.line) }
  if s.keeps l.tile then s.onCtx l.tile.ctx fun x => { x with kept := x.kept.filter fun t => decide (t ≠ l.tile) } else s

/-- The lines of a die that replacement may take (R176): those not kept, and kept ones only where it holds nothing else. The
spec does not lay out its sets: the whole of a die is one (DESIGN CHOICE, log 9). -/
def State.tileVictims (s : State) (die : Nat) : List TileLine :=
  let mine := s.pkg.tileCache.filter fun l => decide (l.die = die)
  let loose := mine.filter fun l => !s.keeps l.tile
  if loose.isEmpty then mine else loose

/-- Room for one more line on a die: where its tile cache is full, a line that a free value picks leaves it. -/
def State.tileRoom (s : State) (die : Nat) : State :=
  if (s.pkg.tileCache.filter fun l => decide (l.die = die)).length < tileLinesPerDie then s
  else
    let vs := s.tileVictims die
    match vs[Config.victim s.free % vs.length]? with
    | some l => s.fresh.dropTileLine l
    | none => s

/-- A line found in the tile cache or filled into it under a tile (R170): an access that finds it counts as a hit, a fill
as a miss (R178). -/
def State.fileLine (s : State) (t : Tile) (line : Nat) (access : Bool) : State :=
  if s.pkg.tileCache.any fun l => decide (l.line = line) then if access then s.count t.ctx 0x740 0 1 else s
  else
    let d := s.fillDie t
    ((s.tileRoom d).onPkg fun p => { p with tileCache := p.tileCache ++ [⟨line, d, t, false⟩] }).count t.ctx 0x741 0 1

/-- A line written back from a die slice (R170, R183): dirty in the tile cache where an access of a registered tensor filled
it, else gone to HBM. -/
def State.writeBack (s : State) (line : Nat) (t : Option Tile) : State :=
  let mark := fun (s : State) => s.onPkg fun p => { p with
    tileCache := p.tileCache.map fun l => if l.line = line then { l with dirty := true } else l }
  if s.pkg.tileCache.any fun l => decide (l.line = line) then mark s
  else match t with
    | some t => if ((s.ctx t.ctx).tensor t.tensor).isSome then
        let d := s.fillDie t
        (s.tileRoom d).onPkg fun p => { p with tileCache := p.tileCache ++ [⟨line, d, t, true⟩] }
      else s
    | none => s

end Sys2Proof.Machine
end

