-- ==== Sys2Proof/Machine/Directory.lean ====
section
/-! DEFINITION. The cache levels and the directories above them (R163, R164, R167, R170, R182 to R185): which die slices and
L1D copies hold a line, and what an access, an eviction or an engine's ownership does to them. What they hold enters
observations only (R47): counters, slice logs, drowsy banks, and the pinning of regions. Each access takes effect in its own
step. -/

namespace Sys2Proof.Machine

/-- Bytes [off, off + n) of a line as a mask. -/
def byteMask (off n : Nat) : Nat := (2 ^ n - 1) * 2 ^ off

/-- A mask without the bits of another. -/
def without (a b : Nat) : Nat := a - (a &&& b)

/-! Claims (R185, R186). -/

/-- Whether a byte at a distance from the base belongs to the claim (R185): byte off - i*stride of element i, for some i. With a
stride shorter than the width only the elements near off / stride can reach it. -/
def Claim.has (c : Claim) (off : Int) : Bool :=
  let st := c.stride.toInt
  let w : Int := 2 ^ c.lw.toNat
  let near := fun (i : Int) => decide (0 ≤ i) && decide (i < c.count.toNat) && decide (i * st ≤ off) && decide (off < i * st + w)
  if st = 0 then near 0
  else
    let i := off / st
    (List.range 19).any fun k => near (i + k - 9)

/-- The claim of the hart that covers every byte of [va, va + n), if there is one (R185). -/
def Hart.claimOn (h : Hart) (va n : Nat) : Option Claim :=
  h.claims.find? fun c => (List.range n).all fun k => c.has ((va : Int) + k - c.base.toNat)

/-- Whether one claim of the hart covers every byte of [va, va + n) (R185). -/
def Hart.claims_cover (h : Hart) (va n : Nat) : Bool := (h.claimOn va n).isSome

/-- The bytes of the line at va that a claim covers. -/
def Claim.onLine (c : Claim) (va : Nat) : Nat :=
  (List.range 64).foldl (fun m k => if c.has (((va / 64 * 64 + k : Nat) : Int) - c.base.toNat) then m + (2 : Nat) ^ k else m) 0

/-- The bytes of the line at va that the hart's claims cover. -/
def Hart.claimedOn (h : Hart) (va : Nat) : Nat := h.claims.foldl (fun m c => m ||| c.onLine va) 0

/-! One line (R182, R183, R185). -/

/-- What an access finds (R167, R170, R201, R319): whether its die slice lacked the line, whether it goes on to the home slice, for
the line or for the right to write it (R164), the dies whose slices the directory recalled or snooped, whether no die slice held the
line, and whether the line enters C. -/
structure Met where
  miss : Bool
  home : Bool
  recalled : List Nat
  below : Bool
  split : Bool
deriving DecidableEq, Repr

/-- An access that an L1D serves meets nothing. -/
def Met.none : Met := ⟨false, false, [], false, false⟩

/-- The line is in C at the slice. -/
def Held.isC : Held → Bool
  | .c _ _ => true
  | _ => false

/-- The die slice holds bytes that memory below does not. -/
def Held.dirty : Held → Bool
  | .m _ _ => true
  | .o => true
  | .c _ _ => true
  | _ => false

/-- How a slice holds a line after another one has read it (R183). -/
def Held.share : Held → Held
  | .m _ _ => .o
  | .e => .s
  | h => h

/-- The slice of a die in the line's record. -/
def DirLine.at_ (d : DirLine) (die : Nat) : Option Held := (d.dies.find? fun p => decide (p.1 = die)).map (·.2)

/-- The slices of the other dies. -/
def DirLine.others (d : DirLine) (die : Nat) : List (Nat × Held) := d.dies.filter fun p => decide (p.1 ≠ die)

/-- The die of a core, by its global number. -/
def coreDie (core : Nat) : Nat := core / 144

/-- A read that reaches the slice of a die (R183). A line in C is merged first, into M at that slice. -/
def DirLine.read (d : DirLine) (die : Nat) : DirLine × Met :=
  let others := d.others die
  if d.dies.any (·.2.isC) then
    ({ d with dies := [(die, .m 0 0)], l1 := d.l1.filter fun k => decide (coreDie k.core = die) },
      ⟨true, true, others.map (·.1), false, false⟩)
  else if (d.at_ die).isSome then (d, Met.none)
  else
    ({ d with dies := others.map (fun p => (p.1, p.2.share)) ++ [(die, if others.isEmpty then .e else .s)] },
      ⟨true, true, (others.filter fun p => decide (p.2.share ≠ p.2)).map (·.1), others.isEmpty, false⟩)

/-- The slice holds the line in C, or in M under claims, whose bytes are disjoint from a store (R183). -/
def Held.disjoint (mask : Nat) : Held → Bool
  | .m _ claim => decide (claim ≠ 0) && decide (claim &&& mask = 0)
  | .c _ claim => decide (claim &&& mask = 0)
  | _ => false

/-- The bytes that a slice holds written under claims, and the claims' bytes. -/
def Held.claims : Held → Nat × Nat
  | .m wrote claim => (wrote, claim)
  | .c wrote claim => (wrote, claim)
  | _ => (0, 0)

/-- A slice that held M under claims holds C from now on (R183). -/
def Held.enterC : Held → Held
  | .m wrote claim => .c wrote claim
  | h => h

/-- The L1D copies after a store of a core (R163, R182, R185): its own is updated, one that a disjoint claim protects marks the
bytes invalid, and the others are gone. `held` says which bytes the claims of a copy's readers cover now. -/
def storedCopies (l : List L1Copy) (held : L1Copy → Nat) (core : Option Nat) (mask : Nat) (claimed : Bool) : List L1Copy :=
  l.filterMap fun k =>
    if core = some k.core then some { k with valid := k.valid ||| mask }
    else if claimed && decide (held k ≠ 0) && decide (held k &&& mask = 0) then some { k with valid := without k.valid mask }
    else none

/-- The slice must ask the home slice before it may write: it does not hold the line alone (R164, R183). -/
def DirLine.asksHome (d : DirLine) (die : Nat) : Bool :=
  match d.at_ die with
  | some (.m _ _) => false
  | some .e => false
  | _ => true

/-- A write that a slice of a die performs, of a core where it is a store (R182, R183, R185). `claim` holds the bytes of the claim
that covers it, if one does: such a write takes the line into C beside other dies' disjoint bytes; every other write leaves it in
M at that slice alone. -/
def DirLine.write (d : DirLine) (held : L1Copy → Nat) (die : Nat) (core : Option Nat) (mask : Nat) (claim : Option Nat) :
    DirLine × Met :=
  let others := d.others die
  let (w, c) := ((d.at_ die).map Held.claims).getD (0, 0)
  let l1 := storedCopies d.l1 held core mask claim.isSome
  match claim with
  | some cl =>
    if !others.isEmpty && others.all fun p => p.2.disjoint mask then
      ({ d with dies := others.map (fun p => (p.1, p.2.enterC)) ++ [(die, .c (w ||| mask) (c ||| cl))], l1 := l1 },
        ⟨(d.at_ die).isNone, (d.at_ die).isNone, [], false, !d.dies.any (·.2.isC)⟩)
    else
      ({ d with dies := [(die, .m (w ||| mask) (c ||| cl))], l1 := l1.filter fun k => decide (coreDie k.core = die) },
        ⟨(d.at_ die).isNone, d.asksHome die, others.map (·.1), d.dies.isEmpty, false⟩)
  | none =>
    ({ d with dies := [(die, .m 0 0)], l1 := l1.filter fun k => decide (coreDie k.core = die) },
      ⟨(d.at_ die).isNone, d.asksHome die, others.map (·.1), d.dies.isEmpty, false⟩)

/-! The package's directories. -/

/-- The record of a line; empty where no slice and no L1D holds it. -/
def State.dirLine (s : State) (line : Nat) : DirLine :=
  (s.pkg.dir.find? fun d => decide (d.line = line)).getD ⟨line, [], [], none⟩

/-- The record of a line replaced. -/
def State.setDir (s : State) (d : DirLine) : State :=
  s.onPkg fun p =>
    let rest := p.dir.filter fun e => decide (e.line ≠ d.line)
    { p with dir := if d.dies.isEmpty && d.l1.isEmpty then rest else d :: rest }

/-- The device sends its accesses to the line to the host, and no cache holds it (R285). -/
def State.atHost (s : State) (line : Nat) : Bool :=
  s.pkg.hostBias.elem (line / 2 ^ 15) || s.pkg.lostHost.elem (line / 2 ^ 15)

/-- The bytes of a line that the claims of a copy's readers cover now (R185, R186). -/
def State.claimsOf (s : State) (k : L1Copy) : Nat :=
  k.readers.foldl (fun m r => m ||| match (s.harts ++ s.saved).find? fun h => decide (h.id = r.1) with
    | some h => if h.claims.isEmpty then 0 else h.claimedOn r.2
    | none => 0) 0

/-- The time in eighteenths of a nanosecond (R2): an ac is five of them. -/
def State.now (s : State) : Nat := 18 * s.pkg.timebase.toNat + s.pkg.phase.toNat

/-- Slices accessed, snooped or recalled: their banks are awake, and the wakes count for the context (R167, R178). -/
def State.useSlices (s : State) (c : Option (BitVec 12)) (ks : List Nat) : State :=
  ks.foldl (fun s k =>
    let s := s.onPkg fun p => { p with slicesUsed := Sparse.set (fun _ => 0) p.slicesUsed k s.now }
    if !s.pkg.drowsy.elem k then s
    else
      let s := s.onPkg fun p => { p with drowsy := p.drowsy.filter (· ≠ k) }
      match c with
      | some c => s.count c 0x747 k 1
      | none => s) s

/-- The agent of an access: its context, if any, its die, its core where an L1D serves it, and whether it is an access at all
or a prefetch (R126). -/
structure Accessor where
  ctx : Option (BitVec 12)
  die : Nat
  core : Option Nat
  access : Bool
deriving DecidableEq, Repr

/-- The accesses of a hart (R163): a control core has no L1D. -/
def Hart.accessor (h : Hart) : Accessor := ⟨some h.ctx, die h.id, if h.id.control then none else some (globalCore h.id), true⟩

/-- The accesses of an engine for a hart. -/
def Hart.engine (h : Hart) : Accessor := ⟨some h.ctx, die h.id, none, true⟩

/-- The accesses of the device to a line: at its home slice. -/
def deviceAccessor (line : Nat) : Accessor := ⟨none, homeOf (64 * line), none, true⟩

/-- The accesses that the device makes in a context. -/
def contextAccessor (c : BitVec 12) (line : Nat) : Accessor := { deviceAccessor line with ctx := some c }

/-- The slice of a die that serves a line (R164). -/
def sliceAt (die line : Nat) : Nat := 128 * die + sliceOf (64 * line)

/-- The tile of the accessor's context that holds a virtual address. -/
def State.tileFor (s : State) (a : Accessor) (va : Nat) : Option Tile := a.ctx.bind fun c => (s.ctx c).tileAt c va

/-- A die slice holds a line no more, nor does any L1D of the die, and it writes the line back where it is dirty. -/
def State.leaveL2 (s : State) (die : Nat) (d : DirLine) : State :=
  let t := s.setDir { d with dies := d.others die, l1 := d.l1.filter fun k => decide (coreDie k.core ≠ die) }
  if ((d.at_ die).map Held.dirty).getD false then t.writeBack d.line d.tile else t

/-- The lines of an L2 slice that its replacement may take, for one that comes: those that no L1D of the die holds, and else those
that no live region tracks; never one that an engine owns (R184, R191; log 9). -/
def State.l2Victims (s : State) (die line : Nat) (mine : List DirLine) : List DirLine :=
  let may := mine.filter fun d => !s.owned d.line && decide (d.line ≠ line)
  let loose := may.filter fun d => !d.l1.any fun k => decide (coreDie k.core = die)
  if loose.isEmpty then may.filter fun d => !s.tracked d.line else loose

/-- A slice of 1 MiB that holds more than its 16,384 lines (R163) gives up one that a free value picks; where it may take no other,
the line that has just come, unless an engine owns it. -/
def State.l2Room (s : State) (die line : Nat) : State :=
  let mine := s.pkg.dir.filter fun d => (d.at_ die).isSome && decide (sliceOf (64 * d.line) = sliceOf (64 * line))
  if mine.length ≤ 16384 then s
  else
    let vs := s.l2Victims die line mine
    match vs[Config.victim s.free % vs.length]? with
    | some d => s.fresh.leaveL2 die d
    | none => if s.owned line then s else s.leaveL2 die (s.dirLine line)

/-- What a slice's access does beyond its record (R164, R167, R170): the banks that it uses wake, and a line that no die slice
held comes from below L2. -/
def State.atSlices (s : State) (a : Accessor) (va : Nat) (d : DirLine) (m : Met) : State :=
  let t := s.tileFor a va
  let ks := sliceAt a.die d.line :: ((if m.home then [homeSlice d.line] else []) ++ m.recalled.map (sliceAt · d.line))
  let s := (s.useSlices a.ctx ks.eraseDups).setDir { d with tile := if m.below then t else d.tile }
  let s := if m.miss then s.l2Room a.die d.line else s
  match t with
  | some t => if m.below then s.fileLine t d.line a.access else s
  | none => s

/-- The readers of a copy with one more. -/
def L1Copy.readBy (k : L1Copy) (r : Option (AgentId × Nat)) : L1Copy := { k with readers := (r.toList ++ k.readers).eraseDups }

/-- An L1D takes a copy of a line that its slice has delivered. Its bank of 512 lines (R163) first gives up one of its lines that
a free value picks, where it is full; lines that a live region tracks stay (log 9). -/
def State.fillL1 (s : State) (core line : Nat) (reader : Option (AgentId × Nat)) : State :=
  let bank := fun (l : Nat) => bits (64 * l) 7 6
  let held := fun (d : DirLine) => d.l1.any fun k => decide (k.core = core)
  let mine := s.pkg.dir.filter fun d => held d && decide (bank d.line = bank line) && decide (d.line ≠ line)
  let vs := mine.filter fun d => !s.tracked d.line
  let put := fun (s : State) =>
    let d := s.dirLine line
    let readers := ((d.l1.find? fun k => decide (k.core = core)).map (·.readers)).getD []
    s.setDir { d with l1 := (L1Copy.mk core (2 ^ 64 - 1) readers).readBy reader :: d.l1.filter fun k => decide (k.core ≠ core) }
  if mine.length < 512 then put s
  else match vs[Config.victim s.free % vs.length]? with
    | some d => put (s.fresh.setDir { d with l1 := d.l1.filter fun k => decide (k.core ≠ core) })
    | none => s

/-- A read of bytes of a line (R163, R182): an L1D copy that holds them serves it; otherwise the die slice does, and the core's
L1D takes a copy. One that is the host's is read there (R285). `reader` names the hart, and the virtual address by which it reads. -/
def State.readLine (s : State) (a : Accessor) (va line mask : Nat) (reader : Option (AgentId × Nat)) : State × Met :=
  let d := s.dirLine line
  if s.atHost line then (s, Met.none)
  else if d.l1.any fun k => decide (some k.core = a.core) && decide (k.valid &&& mask = mask) then
    (s.setDir { d with l1 := d.l1.map fun k => if some k.core = a.core then k.readBy reader else k }, Met.none)
  else
    let (d, m) := d.read a.die
    let s := s.atSlices a va d m
    (match a.core with
      | some c => if ((s.dirLine line).at_ a.die).isSome then s.fillL1 c line reader else s
      | none => s, m)

/-- A write of bytes of a line performed at its die slice (R163, R182, R185), or at the host (R285). -/
def State.writeLine (s : State) (a : Accessor) (va line mask : Nat) (claim : Option Nat) : State × Met :=
  if s.atHost line then (s, Met.none)
  else
    let (d, m) := (s.dirLine line).write s.claimsOf a.die a.core mask claim
    (s.atSlices a va d m, m)

/-- A line that the device reads or writes, at its home slice. -/
def State.deviceLine (s : State) (line : Nat) (write : Bool) : State :=
  if write then (s.writeLine (deviceAccessor line) 0 line (2 ^ 64 - 1) none).1
  else (s.readLine (deviceAccessor line) 0 line (2 ^ 64 - 1) none).1

/-- A line prefetched into the slice of a die, and into the L1D of a core where one is named (R126, R292): it takes no ownership and
merges no line in C. -/
def State.prefetchLine (s : State) (a : Accessor) (va line : Nat) : State :=
  if (s.dirLine line).dies.any (·.2.isC) then s else (s.readLine { a with access := false } va line (2 ^ 64 - 1) none).1

/-! Evictions (R163, R176, R183). -/

/-- An L1D gives up its copy of a line: copies are clean. -/
def State.evictL1 (s : State) (core line : Nat) : State :=
  let d := s.dirLine line
  s.setDir { d with l1 := d.l1.filter fun k => decide (k.core ≠ core) }

/-- A die's L2 gives up a line, which is written back where it is dirty; a line that an engine owns or an L1D of the die holds
stays. -/
def State.evictL2 (s : State) (die line : Nat) : State :=
  let d := s.dirLine line
  if s.owned line || d.l1.any fun k => decide (coreDie k.core = die) then s else s.leaveL2 die d

/-- The tile cache gives up a line: one that is not kept, or any where its die holds nothing else (R176). -/
def State.evictTile (s : State) (line : Nat) : State :=
  match s.pkg.tileCache.find? fun l => decide (l.line = line) with
  | none => s
  | some l => if (s.tileVictims l.die).any fun k => decide (k.line = line) then s.dropTileLine l else s

/-- The dirty lines of a slice are written back and every line of it leaves (R314). -/
def State.flushSlice (s : State) (slice : Nat) : State :=
  (s.pkg.dir.filter fun d => decide (sliceAt (slice / 128) d.line = slice)).foldl (fun s d => s.leaveL2 (slice / 128) d) s

/-- Every cached copy of some lines leaves, in L1D, L2 and tile cache (R285). That is no eviction: a tile that the context keeps stays
kept (R176). -/
def State.flushLines (s : State) (p : Nat → Bool) : State :=
  s.onPkg fun q => { q with
    tileCache := q.tileCache.filter fun l => !p l.line
    dir := q.dir.filter fun d => !p d.line }

/-- The lines that reached below L2 under the tiles of a registration that ends are filed under it no more (R170). -/
def State.forgetTiles (s : State) (p : Tile → Bool) : State :=
  s.onPkg fun q => { q with dir := q.dir.map fun d => if d.tile.any p then { d with tile := none } else d }

/-- The L1D copies of a dead core are invalid (R189). -/
def State.dropCopies (s : State) (core : Nat) : State :=
  (s.pkg.dir.filter fun d => d.l1.any fun k => decide (k.core = core)).foldl (fun s d => s.evictL1 core d.line) s

end Sys2Proof.Machine
end

