-- ==== Sys2Proof/Machine/Device.lean ====
section
/-! DEFINITION. Writes to physical memory: those of engines and of the device itself, poison (R312), and the records of a
context's trace ring (R317 to R319). -/

namespace Sys2Proof.Machine

/-- A write to a block clears every reservation on it (R142). -/
def State.clearReservations (s : State) (block : Nat) : State :=
  if s.harts.any (fun h => decide (h.reservation = some block)) then
    s.updateAll fun h => if h.reservation = some block then { h with reservation := none } else h
  else s

/-- Bytes of memory about to change: for loaded code (R280) the old value of each 4-byte unit that does not yet hold the new
one is kept, since a hart may still fetch it (R75). -/
def State.noteCode (s : State) (bytes : List (Nat × Byte)) : State :=
  let units := ((bytes.filter fun b => s.isText b.1 1 && decide (s.mem.byte b.1 ≠ b.2)).map fun b => b.1 / 4).eraseDups
  if units.isEmpty then s
  else s.onPkg fun p => { p with oldCode := p.oldCode ++ units.map fun u => (u, BitVec.ofNat 32 (s.mem.read (4 * u) 4)) }

/-- Bytes of memory written. -/
def State.setMem (s : State) (bytes : List (Nat × Byte)) : State :=
  let t := s.noteCode bytes
  { t with mem := t.mem.setBytes bytes }

/-- A write of the device to physical memory within one 64-byte granule, performed (R309, R317): it comes from no region, so the step
that makes it ends by aborting those that track the line (R197); the directory takes it (R182); a whole granule clears its poison
(R312). -/
def State.writeNow (s : State) (pa : Nat) (bs : List Byte) : State :=
  let s := s.clearReservations (pa / 64)
  let s := (s.setMem (bs.zipIdx.map fun p => (pa + p.2, p.1))).deviceLine (pa / 64) true
  let s := if s.tracked (pa / 64) then s.onPkg fun p => { p with wrote := p.wrote ++ [pa / 64] } else s
  if bs.length = 64 && pa % 64 = 0 then s.onPkg fun p => { p with poison := p.poison.filter (· ≠ pa / 64) } else s

/-- A write of the device that waits. -/
def State.addLate (s : State) (l : Late) : State := s.onPkg fun p => { p with late := p.late ++ [l] }

/-- The line that waiting bytes go to. -/
def Late.line : Late → Option Nat
  | .bytes pa _ _ => some (pa / 64)
  | _ => none

/-- Device writes of a line wait already. -/
def State.lateAt (s : State) (line : Nat) : Bool := s.pkg.late.any fun l => decide (l.line = some line)

/-- A write of the device within one granule, with the poison that it leaves there, if any: it waits for an engine that owns the line
and for a flip of its region (R128, R285), and behind those of its line that wait already. -/
def State.writeOrWait (s : State) (pa : Nat) (bs : List Byte) (bad : Bool) : State :=
  if s.owned (pa / 64) || s.flipping pa || s.lateAt (pa / 64) then s.addLate (.bytes pa bs bad)
  else
    let t := s.writeNow pa bs
    if bad then t.onPkg fun p => { p with poison := (p.poison ++ [pa / 64]).eraseDups } else t

/-- A write of the device within one granule (R309, R317). -/
def State.deviceWrite (s : State) (pa : Nat) (bs : List Byte) : State := s.writeOrWait pa bs false

/-- Memory as the device reads it: its own writes that wait are there (R128). -/
def State.deviceMem (s : State) : Memory :=
  s.pkg.late.foldl (fun m l => match l with
    | .bytes pa bs _ => m.setBytes (bs.zipIdx.map fun p => (pa + p.2, p.1))
    | _ => m) s.mem

/-- A granule is poisoned as the device reads it. -/
def State.deviceBad (s : State) (g : Nat) : Bool :=
  s.pkg.late.foldl (fun b l => match l with
    | .bytes pa bs bad => if pa / 64 = g then bad || (b && decide (bs.length ≠ 64)) else b
    | _ => b) (s.pkg.poison.elem g)

/-- The granules that are poisoned as the device reads them. -/
def State.deviceBads (s : State) : List Nat := ((s.pkg.poison ++ s.pkg.late.filterMap Late.line).filter s.deviceBad).eraseDups

/-- The poisoned granules that some written bytes fill: a full write of the 64 bytes clears the poison (R312). -/
def filled (bad written : List Nat) : List Nat := bad.filter fun g => (List.range 64).all fun i => written.elem (64 * g + i)

/-- An instruction or a commit has written these bytes of memory, and these of the local stores (R312; log 36). -/
def State.heal (s : State) (mem store : List Nat) : State :=
  let m := filled s.pkg.poison mem
  let l := filled s.pkg.storePoison store
  if m.isEmpty && l.isEmpty then s
  else s.onPkg fun p => { p with poison := p.poison.filter (· ∉ m), storePoison := p.storePoison.filter (· ∉ l) }

/-- Granules of physical memory become poisoned (R312). -/
def State.poisonGranules (s : State) (l : List Nat) : State :=
  if l.isEmpty then s
  else s.onPkg fun p => { p with poison := (p.poison ++ l).eraseDups }

/-- Granules of physical memory become poisoned, those that a write of the device still waits for once it is performed (R313). -/
def State.poisonWritten (s : State) (l : List Nat) : State :=
  if l.isEmpty then s
  else s.onPkg fun p => { p with
    poison := (p.poison ++ l.filter fun g => !s.lateAt g).eraseDups
    late := p.late.map fun x => match x with
      | .bytes pa bs bad => .bytes pa bs (bad || l.elem (pa / 64))
      | y => y }

/-- The entry reads of a walk that the device makes in a context (R197, R274, R321): accesses from outside every region. -/
def State.walkEntries (s : State) (c : BitVec 12) (va : Nat) : List Nat :=
  let root := (s.ctx c).root.toNat
  if !canonical va || !root.testBit 0 then []
  else entriesFrom (fun a => s.mem.read a 8) (va % 2 ^ 48) 3 (bits root 51 12 <<< 12)

/-- A line that the device reads: an access from outside every region, which the step that makes it ends by letting meet those that
have written the line (R197). -/
def State.deviceRead (s : State) (line : Nat) : State :=
  let s := s.deviceLine line false
  if s.tracked line then s.onPkg fun p => { p with readLines := p.readLines ++ [line] } else s

/-- Lines that the device reads. -/
def State.deviceReads (s : State) (lines : List Nat) : State := lines.eraseDups.foldl State.deviceRead s

/-- The entry reads of a walk that the device makes in a context (R197, R321). -/
def State.noteWalk (s : State) (c : BitVec 12) (va : Nat) : State := s.deviceReads ((s.walkEntries c va).map (· / 64))

/-- A record of the device in a context, within one 64-byte granule: none when it faults. Where its walk has to wait, `later` does
(R128, R285). -/
def State.writeIn (s : State) (c : BitVec 12) (va : Nat) (bs : List Byte) (later : Late) : Option State :=
  match s.walkIn c va with
  | .page pa rwx =>
    if Perm.store.allowed rwx && (privileged c || !s.isText pa bs.length) && !inWindow va then
      some ((s.noteWalk c va).deviceWrite pa bs)
    else none
  | .wait => some (s.addLate later)
  | _ => none

/-- The bytes of a trace record (R317). -/
def traceBytes (kind hart delta : Nat) (loc d0 d1 : Nat) : List Byte :=
  toBytes 8 (kind + hart * 2 ^ 16 + delta * 2 ^ 32) ++ toBytes 8 loc ++ toBytes 8 d0 ++ toBytes 8 d1

/-- One record put into a context's ring: dropped when the ring is full (R318), and the ring is switched off when its
stores fault (R317). True when it was written. -/
def State.putRecord (s : State) (c : BitVec 12) (bs : List Byte) : State × Bool :=
  let x := s.ctx c
  let size := 2 ^ bits x.trcCfg.toNat 4 0
  if x.trcBase = 0 then (s, false)
  else if (x.trcWr - x.trcRd).toNat ≥ size then (s.onCtx c fun x => { x with lost := x.lost ||| 8 }, false)
  else
    let va := bits x.trcBase.toNat 47 5 * 32 + 32 * (x.trcWr.toNat % size)
    match s.writeIn c va bs (.trace c va bs) with
    | none => ((s.noteWalk c va).onCtx c fun x => { x with trcBase := 0 }, false)
    | some s => (s.onCtx c fun x => { x with trcWr := x.trcWr + 1, trcLast := s.pkg.timebase }, true)

/-- A trace record of a hart's context, with the resync record that must come before it (R317, R318). -/
def State.trace (s : State) (h : Hart) (kind : Nat) (loc d0 d1 : Nat) : State :=
  let x := s.ctx h.ctx
  if x.trcBase = 0 || !x.trcCfg.toNat.testBit (4 + kind) then s
  else
    let now := s.pkg.timebase.toNat
    let resync := x.trcResync || decide (now - x.trcLast.toNat ≥ 2 ^ 32)
    let (s, ok) := if resync then s.putRecord h.ctx (traceBytes 0 h.idWord 0 now 0 0) else (s, true)
    if ok then
      let delta := if resync then 0 else now - x.trcLast.toNat
      let s := if resync then s.onCtx h.ctx fun x => { x with trcResync := false } else s
      (s.putRecord h.ctx (traceBytes kind h.idWord delta loc d0 d1)).1
    else s

/-- A filter of the context's slice logs asks for an event at an address (R319); an access with no virtual address, such as the read
of a table entry, matches none. -/
def Ctx.logs (x : Ctx) (va event : Nat) : Bool :=
  decide (va < 2 ^ 64) && (List.range 4).any fun i =>
    let c := (x.slogCfg.getD i 0).toNat
    (x.slogEv.getD i 0).toNat.testBit event && decide (bits va 47 6 >>> bits c 53 48 = bits c 47 6 >>> bits c 53 48)

/-- Slice logging (R319): an event of a hart's own access by element e, logged once however many filters match. -/
def State.slog (s : State) (h : Hart) (e va event slice : Nat) : State :=
  if (s.ctx h.ctx).logs va event then s.trace h 7 (h.pc.toNat + e * 2 ^ 48) (bits va 47 6 * 64) (event + slice * 256) else s

end Sys2Proof.Machine
end

