-- ==== Sys2Proof/Machine/Regions.lean ====
section
/-! DEFINITION. Atomic regions (R190 to R199, R205): stamps, intervals and narrowings, aborts, tracking and pinning, and what
an access from outside any region does to the regions that track its line. -/

namespace Sys2Proof.Machine

/-- The lines a region may track in its L1D (R191). -/
def l1Lines : Nat := 256

/-- The largest position (R190). -/
def maxPosition : Int := 2 ^ 40 - 1

/-- Harts with a live region. -/
def State.inRegions (s : State) : List Hart := s.harts.filter fun h => h.region.isSome

/-- The position of the live pinned region, if there is one (R195). -/
def State.pinnedAt (s : State) : Option Nat :=
  (s.harts.find? fun h => match h.region with
    | some r => r.pinned
    | none => false).map fun h => h.ebLo.toNat

/-- The stamps (w, r) of a line; a line with none of its own takes the floor of its home slice (R190). -/
def State.stamps (s : State) (line : Nat) : Nat × Nat :=
  match s.arb.stamps.find? (fun p => decide (p.1 = line)) with
  | some p => p.2
  | none =>
    let f := Sparse.get (fun _ => 0) s.arb.floors (homeSlice line)
    (f, f)

/-- One due event for each narrowing and each FINAL message on its way. -/
def State.repostMessages (s : State) : State :=
  let rest := s.agenda.filter fun (d : Due) => match d with
    | .narrowingApply _ => false
    | .finalApply _ => false
    | _ => true
  { s with agenda := rest ++ (s.arb.narrowings.map fun _ => Due.narrowingApply 0) ++
      (s.arb.finals.map fun _ => Due.finalApply 0) }

/-- The end of a region that another agent may have recorded: partner records, narrowings and FINAL messages for it
are gone (R205), and so is its request to the arbiter. -/
def State.forgetRegion (s : State) (id : AgentId) : State :=
  let s := s.updateAll fun h => match h.region with
    | some r => { h with region := some { r with partners := r.partners.filter fun p => decide (p.1 ≠ id) } }
    | none => h
  { s with
    arb := { s.arb with
      narrowings := s.arb.narrowings.filter fun n => decide (n.target ≠ id)
      finals := s.arb.finals.filter fun n => decide (n.target ≠ id) }
    agenda := s.agenda.filter fun m => decide (m ≠ Due.commit id) }.repostMessages

/-- The registers an abort restores (R199). -/
def Hart.restore (h : Hart) (c : Checkpoint) : Hart :=
  { h with
    s := c.s, v := c.v, m := c.m, vl := c.vl, vlPad := c.vlPad, vt := c.vt, sw := c.sw, vstart := c.vstart
    parity := c.parity, pooled := c.pooled }

/-- Abort codes that count towards pinning (R195). -/
def countsAsAbort (code : Nat) : Bool := code = 1 || code = 2 || code = 3 || code = 7 || code = 8

/-- An abort (R199): the writes are discarded, the checkpoint restored, the status written, and the hart goes on
behind its xbegin, or from its xbegin once it resumes where a pre-emption aborts it (R308). -/
def State.abortRegion (s : State) (id : AgentId) (code : Nat) : State :=
  match s.find id with
  | none => s
  | some h => match h.region with
    | none => s
    | some r =>
      let n := h.aborts + (if !r.strict && countsAsAbort code then 1 else 0)
      let status := code + (if n ≥ 4 then 256 else 0) + min n 255 * 2 ^ 16
      let s := s.update id fun h =>
        let h := h.restore r.ckpt
        let h := h.setS r.sd (BitVec.ofNat 64 status)
        { h with
          region := none
          aborts := n
          pc := if code = 6 then r.begin else r.begin + 4
          wait := none
          cnt := { h.cnt with st := h.cnt.st - BitVec.ofNat 6 r.stores } }
      let s := (s.forgetRegion id).count h.ctx 0x751 code 1
      s.trace h 5 r.begin.toNat status 0

/-- The interval of a live elastic region narrowed to [lo, hi] as well, with the partner recorded (R192); an empty
interval aborts it (R193). Pinned and strict regions are not narrowed (R195, R197). -/
def State.narrow (s : State) (id : AgentId) (lo hi : Int) (partner : Option (AgentId × Bool)) : State :=
  match s.find id with
  | none => s
  | some h => match h.region with
    | none => s
    | some r =>
      if r.strict || r.pinned then s
      else
        let lo := max lo h.ebLo.toNat
        let hi := min hi h.ebHi.toNat
        let s := s.update id fun h => { h with
          ebLo := BitVec.ofInt 40 lo
          ebHi := BitVec.ofInt 40 hi
          region := some { r with partners := match partner with
            | some p => if r.partners.elem p then r.partners else p :: r.partners
            | none => r.partners } }
        if hi < lo || lo > maxPosition then s.abortRegion id 1 else s

/-- Whether the hart's region is live. -/
def State.live (s : State) (id : AgentId) : Bool :=
  match s.find id with
  | some h => h.region.isSome
  | none => false

/-- A message that narrows a live region to [lo, hi] is sent; its target records the partner at once (R192). -/
def State.sendNarrowing (s : State) (n : Narrowing) : State :=
  let p := (n.partner, n.before)
  let note := fun (r : Region) => if r.partners.elem p then r else { r with partners := p :: r.partners }
  let s := s.update n.target fun h => { h with region := h.region.map note }
  { s with arb := { s.arb with narrowings := s.arb.narrowings ++ [n] } }.due (.narrowingApply 0)

/-- The accessing region `me` and another, neither strict (R192): `meFirst` says that me comes before the other. The
accessing region is narrowed at once, the other by a message; a pinned one is not narrowed. -/
def State.orderRegions (s : State) (me other : AgentId) (meFirst : Bool) : State :=
  match s.find me, s.find other with
  | some a, some b =>
    let pinned := match b.region with
      | some r => r.pinned
      | none => true
    let s := if pinned then s
      else if meFirst then s.sendNarrowing ⟨a.ctx, other, (a.ebLo.toNat + 1 : Int), maxPosition, me, false⟩
      else s.sendNarrowing ⟨a.ctx, other, 0, (a.ebHi.toNat - 1 : Int), me, true⟩
    if meFirst then s.narrow me 0 (b.ebHi.toNat - 1 : Int) (some (other, true))
    else s.narrow me (b.ebLo.toNat + 1 : Int) maxPosition (some (other, false))
  | _, _ => s

/-- A line of an access: a virtual address of it, whether it writes there, and whether it reads committed bytes. -/
structure LineUse where
  line : Nat
  va : Nat
  write : Bool
  read : Bool
deriving DecidableEq, Repr

/-- A region's own access meets another live region that tracks the line, at least one of the two accesses being a
write (R192, R197). An access that both reads and writes meets one that has written the line by both rows of R192: it has read the
committed value, so it comes before the other, and it writes after the other, so it comes behind. -/
def State.meet (s : State) (me other : AgentId) (u : LineUse) : State :=
  match s.find me, s.find other with
  | some m, some o => match m.region, o.region with
    | some rm, some ro =>
      match ro.lines.find? (fun t => decide (t.line = u.line)) with
      | none => s
      | some t =>
        if !u.write && !t.wrote then s
        else if rm.strict then (if ro.strict then s.abortRegion other 1 else s.abortRegion me 1)
        else if ro.strict then s.abortRegion other 1
        else
          let s := if t.wrote && (u.read || !u.write) then s.orderRegions me other true else s
          if u.write && s.live me then s.orderRegions me other false else s
    | _, _ => s
  | _, _ => s

/-- The tracked lines that the L1D holds (R191). -/
def Region.inL1 (r : Region) : Nat := (r.lines.filter fun t => !t.spilled).length

/-- The tracking of a line by a region's access (R191): beyond the 256 lines of the L1D, in the pinned-line table. -/
def Region.track (r : Region) (u : LineUse) : Region :=
  if r.lines.any fun t => decide (t.line = u.line) then
    { r with lines := r.lines.map fun t =>
        if t.line = u.line then { t with read := t.read || u.read, wrote := t.wrote || u.write } else t }
  else { r with lines := ⟨u.line, u.va, u.read, u.write, decide (l1Lines ≤ r.inL1)⟩ :: r.lines }

/-- Every live non-pinned region takes hi := min(hi, x - 1) (R195). -/
def State.pinOthers (s : State) (me : AgentId) (x : Nat) : State :=
  (s.inRegions.filter fun h => decide (h.id ≠ me)).foldl (fun s h => s.narrow h.id 0 (x - 1 : Int) none) s

/-- A live region holds a line in the pinned-line tables: a strict one aborts, another is pinned at its eb.lo, unless a pinned
region is live; a pinned one aborts when the table of a home slice is full (R191, R195, R197). -/
def State.overflow (s : State) (id : AgentId) : State :=
  match s.find id with
  | none => s
  | some h => match h.region with
    | none => s
    | some r =>
      let spilled := (r.lines.filter fun t => t.spilled).map fun t => homeSlice t.line
      if spilled.isEmpty then s
      else if r.pinned then (if spilled.any fun k => decide (64 < spilled.countP (· = k)) then s.abortRegion id 3 else s)
      else if r.strict || s.pinnedAt.isSome then s.abortRegion id 3
      else
        let x := h.ebLo
        let s := s.update id fun h => { h with ebHi := x, region := some { r with pinned := true } }
        (s.count h.ctx 0x752 0 1).pinOthers id x.toNat

/-- The L1D of a core has given up a line: a region of the core that tracks it holds it in the pinned-line table from now on
(R191, R195). -/
def State.spill (s : State) (core line : Nat) : State :=
  let hit := fun (r : Region) => r.lines.any fun t => decide (t.line = line) && !t.spilled
  (s.inRegions.filter fun h => !h.id.control && decide (globalCore h.id = core) && match h.region with
    | some r => hit r
    | none => false).foldl (fun s h =>
      (s.update h.id fun h => { h with region := h.region.map fun r =>
        { r with lines := r.lines.map fun t => if t.line = line then { t with spilled := true } else t } }).overflow h.id) s

/-- Stamp rows of R192 for an access of an elastic region. A pinned region never meets one (R194). -/
def State.applyStamps (s : State) (id : AgentId) (line : Nat) (write : Bool) : State :=
  let (w, r) := s.stamps line
  s.narrow id (if write then max (w + 1) (r + 1) else w + 1 : Nat) maxPosition none

/-- Every other region that tracks the line of a region's access is met (R192, R197). -/
def State.meetAll (s : State) (id : AgentId) (u : LineUse) : State :=
  (s.inRegions.filter fun h => decide (h.id ≠ id)).foldl
    (fun s h => if s.live id then s.meet id h.id u else s) s

/-- One access of a hart's own region (R191, R192, R197, R205): the stamp rows of its lines first, then every other region that
tracks one of them, then the tracking. An abort of the region at any point ends it. -/
def State.touchAll (s : State) (id : AgentId) (us : List LineUse) : State :=
  let s := us.foldl (fun s u => s.applyStamps id u.line u.write) s
  let s := us.foldl (fun s u => s.meetAll id u) s
  us.foldl (fun s u =>
    if s.live id then
      (s.update id fun h => { h with region := h.region.map fun r => r.track u }).overflow id
    else s) s

/-- An access from outside any region to a line: each live region that tracks it, one of the two accesses being a
write, aborts with code 2 (R197). -/
def State.outside (s : State) (line : Nat) (write : Bool) : State :=
  (s.inRegions.filter fun h => match h.region with
    | some r => r.lines.any fun t => decide (t.line = line) && (write || t.wrote)
    | none => false).foldl (fun s h => s.abortRegion h.id 2) s

/-- The bytes of a region's buffer with n bytes of x written at pa. -/
def bufWrite (b : Sparse (Option Byte)) (pa n x : Nat) : Sparse (Option Byte) :=
  ((toBytes n x).zipIdx.map fun p => (pa + p.2, p.1)).foldl
    (fun b p => Sparse.set (fun _ => none) b p.1 (some p.2)) b

/-- Whether every byte of [pa, pa + n) is the region's own uncommitted write. -/
def Region.holds (r : Region) (pa n : Nat) : Bool :=
  (List.range n).all fun i => (Sparse.get (fun _ => none) r.buf (pa + i)).isSome

/-- The device has touched no line that a region tracks. -/
def State.quiet (s : State) : Bool := s.pkg.wrote.isEmpty && s.pkg.readLines.isEmpty

/-- The regions that device accesses of this step have reached abort (R197); each abort may write a trace record in turn, so the
accesses are followed for n rounds, one for each live region. -/
def State.settleWrites : Nat → State → State
  | 0, s => s.onPkg fun p => { p with wrote := [], readLines := [] }
  | n + 1, s =>
    if s.quiet then s
    else
      let t := s.onPkg fun p => { p with wrote := [], readLines := [] }
      let t := s.pkg.wrote.eraseDups.foldl (fun t l => t.outside l true) t
      State.settleWrites n (s.pkg.readLines.eraseDups.foldl (fun t l => t.outside l false) t)

/-- The end of a step (R197). -/
def State.settle (s : State) : State := if s.quiet then s else State.settleWrites (s.inRegions.length + 1) s

end Sys2Proof.Machine
end

