-- ==== Sys2Proof/Machine/Save.lean ====
section
/-! DEFINITION. Saved contexts (R309, R310): copy descriptors in memory (R152), hart records, and the save slots. -/

namespace Sys2Proof.Machine

/-- The descriptor of a copy as four doublewords (R152). -/
def Copy.words (c : Copy) : List Nat :=
  [c.kind.toNat + c.fmt.toNat * 16 + c.slot.toNat * 256 + c.dstride.toNat * 2 ^ 32, c.src.toNat, c.dst.toNat,
    c.n.toNat + c.sstride.toNat * 2 ^ 32]

/-- A copy with the fields of a descriptor, before anything of it has moved. -/
def Copy.ofWords (w0 w1 w2 w3 : Nat) (cls : BitVec 4) : Copy where
  kind := BitVec.ofNat 3 w0
  fmt := BitVec.ofNat 4 (w0 / 16)
  slot := BitVec.ofNat 5 (w0 / 256)
  dstride := BitVec.ofNat 32 (w0 / 2 ^ 32)
  src := BitVec.ofNat 64 w1
  dst := BitVec.ofNat 64 w2
  n := BitVec.ofNat 32 w3
  sstride := BitVec.ofNat 32 (w3 / 2 ^ 32)
  cls := cls
  gen := 0
  pages := []
  lines := []
  got := 0
  pos := 0
  written := 0
  restart := 0
  data := []
  poisoned := []
  spoiled := []
  apart := 0
  order := 0

/-- The code of a handle state (R36). -/
def HandleState.code : HandleState → Nat
  | .free => 0
  | .filling => 1
  | .full => 2
  | .draining => 3

/-- The handle state of a code. -/
def HandleState.ofCode : Nat → HandleState
  | 0 => .free
  | 1 => .filling
  | 2 => .full
  | _ => .draining

/-- The trap registers in number order (R302). -/
def TrapRegs.words (t : TrapRegs) : List Word := [t.vec, t.pc, t.elem, t.cause, t.addr, t.word, t.fpc, t.tmp0, t.tmp1]

/-- Doublewords as bytes. -/
def wordBytes (ws : List Nat) : List Byte := ws.flatMap (toBytes 8)

/-- The handle bindings word of a record (R310). -/
def Hart.bindingWord (h : Hart) : Nat :=
  h.q.toList.zipIdx.foldl (fun a p => match p.1 with
    | some b => a + (32 + b.toNat) * 2 ^ (6 * p.2)
    | none => a) 0

/-- The handle states word of a record (R310). -/
def Hart.handleWord (h : Hart) : Nat :=
  h.h.toList.zipIdx.foldl (fun a p => a + p.1.code * 2 ^ (2 * p.2)) 0

/-- The header doublewords of a record, offsets 0x00 to 0x5F (R310). -/
def Hart.headWords (h : Hart) (dump discard : Bool) : List Nat :=
  [1 + (if dump then 2 else 0) + (if discard then 4 else 0) + h.split.toNat * 8 + h.id.hart * 64 + 2 ^ 16 +
      h.lanes * 2 ^ 32,
    h.pc.toNat,
    h.vstart.toNat + h.vl.toNat * 2 ^ 16 + h.vlPad.toNat * 2 ^ 32,
    h.vt.toNat, h.sw.toNat, h.mark.toNat, h.ebLo.toNat, h.ebHi.toNat,
    h.cnt.cp.toNat + h.cnt.tl.toNat * 256,
    h.handleWord, h.bindingWord,
    match h.barWait with
    | some (_, phase) => phase.toNat + 2 ^ 32
    | none => 0]

/-- Row r of lane l of a vector register (R34). -/
def Hart.slotOf (h : Hart) (n r l : Nat) : Nat := elem (h.getV n) 64 (r * h.lanes + l)

/-- Row r of vector register n is in the row pool (R35). -/
def Hart.inPool (h : Hart) (n r : Nat) : Bool := (h.pooled.getD n 0).getLsbD r

/-- What a pre-emption leaves of a kind-0 copy (R158): the head strip up to its last element group, whose count is the restart
value; the engine fetches the rest again. Of a copy whose source has been read whole, and may have been reused since (R154), it
is the elements read before: the consumer sees the same sequence; and so it is where an instruction that stopped inside has consumed
elements behind others that it has not (log 45). -/
def Copy.cut (mvl : Nat) (full : Bool) (c : Copy) : Copy :=
  if c.kind ≠ 0 then c
  else
    let w := ((Fmt.ofCode c.fmt.toNat).getD .f64).sew
    let landed := min (c.pos + c.data.length) ((c.pos / mvl + 1) * mvl)
    let stop := if landed = c.n.toNat then landed else landed / (512 / w) * (512 / w)
    let k := stop - c.pos
    if full || decide (c.apart ≠ 0) then { c with restart := BitVec.ofNat 11 k }
    else { c with
      restart := BitVec.ofNat 11 k
      data := c.data.take k
      got := c.pos + k
      poisoned := c.poisoned.filter (· < c.pos + k)
      spoiled := c.spoiled.filter (· < c.pos + k) }

/-- The parts of a hart record that its slot of the save area receives: address and bytes (R310). -/
def recordParts (base : Nat) (h : Hart) (dump discard : Bool) : List (Nat × List Byte) :=
  let copies := h.copy.toList.zipIdx.flatMap fun p => match p.1 with
    | none => []
    | some c =>
      let w := ((Fmt.ofCode c.fmt.toNat).getD .f64).esz
      (base + 0x200 + 64 * p.2, wordBytes (c.words ++ [c.pos, c.restart.toNat + c.written * 2 ^ 32, c.cls.toNat])) ::
        (if c.kind = 0 && c.restart ≠ 0 then
          [(base + 0xD000 + 1024 * p.2, (c.data.take c.restart.toNat).flatMap (toBytes w))] else [])
  let masks := (List.range 11).map fun k => (base + 0xA00 + 128 * k, toBytes 128 (h.getM (k + 1)))
  let rows := (List.range 48).flatMap fun n => ((List.range 4).filter fun r => !h.inPool n r).map fun r =>
    (base + 0x1000 + 1024 * n + 256 * r, wordBytes ((List.range h.lanes).map fun l => h.slotOf n r l))
  [(base, wordBytes (h.headWords dump discard ++ h.trap.words.map (·.toNat))),
    (base + 0x100, wordBytes ((List.range 32).map fun i => (h.getS (BitVec.ofNat 5 i)).toNat))] ++ copies ++
    (if discard then [] else masks ++ rows)

/-- The address that a record holds a register slot at. -/
def Hart.slotAddr (h : Hart) (base : Nat) : RegSlot → Nat
  | .s n => base + 0x100 + 8 * n
  | .m n k => base + 0xA00 + 128 * (n - 1) + 8 * k
  | .v n k => base + 0x1000 + 1024 * n + 256 * (k / h.lanes) + 8 * (k % h.lanes)

/-- Bytes that the device writes from an address on, granule by granule; `fuel` bounds their number. -/
def State.deviceRun : Nat → State → Nat → List Byte → State
  | 0, s, _, _ => s
  | _, s, _, [] => s
  | fuel + 1, s, a, bs =>
    let k := 64 - a % 64
    State.deviceRun fuel (s.deviceWrite a (bs.take k)) (a + k) (bs.drop k)

/-- Parts of the save area written: class-15 stores at package scope, physically addressed (R309). -/
def State.saveParts (s : State) (l : List (Nat × List Byte)) : State :=
  l.foldl (fun s p => s.deviceRun (p.2.length + 1) p.1 p.2) s

/-- A hart record written (R310). A register slot with a parity error poisons its granule, and ctx.lost says so (R311, R313). -/
def State.saveHart (s : State) (base : Nat) (h : Hart) (dump discard : Bool) : State :=
  let s := s.saveParts (recordParts base h dump discard)
  let bad := h.parity.filter fun r => match r with
    | .s _ => true
    | .v n k => !discard && !h.inPool n (k / h.lanes)
    | .m _ _ => !discard
  if bad.isEmpty then s
  else (s.poisonWritten (bad.map fun r => h.slotAddr base r / 64)).onCtx h.ctx fun x => { x with lost := x.lost ||| 4 }

/-- The copy that a record holds for a handle. -/
def loadCopy (m : Memory) (base i : Nat) : Copy :=
  let a := base + 0x200 + 64 * i
  let c := Copy.ofWords (m.read a 8) (m.read (a + 8) 8) (m.read (a + 16) 8) (m.read (a + 24) 8)
    (BitVec.ofNat 4 (m.read (a + 48) 1))
  let restart := bits (m.read (a + 40) 8) 10 0
  let w := ((Fmt.ofCode c.fmt.toNat).getD .f64).esz
  { c with
    pos := m.read (a + 32) 8
    written := m.read (a + 44) 4
    restart := BitVec.ofNat 11 restart
    data := if c.kind = 0 then (List.range restart).map fun k => m.read (base + 0xD000 + 1024 * i + w * k) w else [] }

/-- The register slots that a hart's record may hold. -/
def Hart.savedSlots (h : Hart) (discard : Bool) : List RegSlot :=
  ((List.range 31).map fun n => .s (n + 1)) ++
    if discard then [] else
      ((List.range 11).flatMap fun n => (List.range (h.lanes / 2)).map fun k => .m (n + 1) k) ++
        (List.range 48).flatMap fun n => ((List.range (4 * h.lanes)).filter fun k => !h.inPool n (k / h.lanes)).map fun k => .v n k

/-- The state of a record restored to a hart whose task, place and live copies (`h`) are kept: copies stayed suspended
with their lines owned (R158), so their lines, pages and data are those of `h`, but for the elements of a stream that the
record keeps. `bad` says which granules are poisoned (R313). -/
def loadRecord (m : Memory) (bad : Nat → Bool) (base : Nat) (h : Hart) : Hart :=
  let w := fun i => m.read (base + 8 * i) 8
  let discard := (w 0).testBit 2
  let split := BitVec.ofNat 2 (w 0 / 8)
  let h := { h with split := split }
  let states := Vector.ofFn fun (i : Fin 32) => HandleState.ofCode (bits (w 9) (2 * i.val + 1) (2 * i.val))
  { h with
    pc := BitVec.ofNat 48 (w 1) &&& ~~~1#48
    vstart := BitVec.ofNat 11 (w 2)
    vl := BitVec.ofNat 11 (w 2 / 2 ^ 16)
    vlPad := BitVec.ofNat 7 (w 2 / 2 ^ 32)
    vt := BitVec.ofNat 11 (w 3)
    sw := BitVec.ofNat 16 (w 4)
    mark := BitVec.ofNat 13 (w 5)
    ebLo := BitVec.ofNat 40 (w 6)
    ebHi := BitVec.ofNat 40 (w 7)
    cnt := ⟨0, 0, BitVec.ofNat 6 (w 8), BitVec.ofNat 6 (w 8 / 256)⟩
    h := states
    copy := Vector.ofFn fun (i : Fin 32) =>
      if states.get i = .free then none
      else
        let c := loadCopy m base i.val
        match h.copy.get i with
        | some k => some { k with
            pos := c.pos
            written := c.written
            restart := 0
            data := if c.kind = 0 then c.data ++ k.data.drop c.restart.toNat else k.data
            poisoned := if c.kind ≠ 0 then k.poisoned else
              k.poisoned ++ ((List.range c.restart.toNat).filter fun j =>
                bad ((base + 0xD000 + 1024 * i.val + j * ((Fmt.ofCode c.fmt.toNat).getD .f64).esz) / 64)).map (c.pos + ·) }
        | none => some c
    q := Vector.ofFn fun (i : Fin 8) =>
      if (w 10).testBit (6 * i.val + 5) then some (BitVec.ofNat 5 (w 10 / 2 ^ (6 * i.val))) else none
    barWait := if (w 11).testBit 32 then
        some ((h.barWait.map (·.1)).getD ⟨h.ctx, 0, 0, 0⟩, BitVec.ofNat 32 (w 11)) else none
    trap := ⟨BitVec.ofNat 64 (w 12), BitVec.ofNat 64 (w 13), BitVec.ofNat 64 (w 14), BitVec.ofNat 64 (w 15),
      BitVec.ofNat 64 (w 16), BitVec.ofNat 64 (w 17), BitVec.ofNat 64 (w 18), BitVec.ofNat 64 (w 19),
      BitVec.ofNat 64 (w 20)⟩
    s := Vector.ofFn fun (i : Fin 32) => BitVec.ofNat 64 (w (32 + i.val))
    m := if discard then Vector.replicate 12 0 else Vector.ofFn fun (i : Fin 12) =>
      if i.val = 0 then 0 else BitVec.ofNat 1024 (m.read (base + 0xA00 + 128 * (i.val - 1)) 128)
    v := if discard then Vector.replicate 48 0 else Vector.ofFn fun (i : Fin 48) =>
      BitVec.ofNat 8192 (pack 64 (4 * h.lanes) fun k =>
        if h.inPool i.val (k / h.lanes) then 0
        else m.read (base + 0x1000 + 1024 * i.val + 256 * (k / h.lanes) + 8 * (k % h.lanes)) 8)
    parity := (h.savedSlots discard).filter fun r => bad (h.slotAddr base r / 64) }

/-- The handles that a record says are not free (R310). -/
def heldHandles (m : Memory) (base : Nat) : List Nat :=
  (List.range 32).filter fun i => decide (bits (m.read (base + 0x48) 8) (2 * i + 1) (2 * i) ≠ 0)

/-- The lines of n bytes from an address on. -/
def linesFrom (a n : Nat) : List Nat := (List.range ((n + 63) / 64)).map (a / 64 + ·)

/-- The lines that a resume reads of a hart's record (R310). -/
def recordLines (m : Memory) (base : Nat) (h : Hart) : List Nat :=
  let held := heldHandles m base
  let rows := (List.range 48).flatMap fun n => ((List.range 4).filter fun r => !h.inPool n r).flatMap fun r =>
    linesFrom (base + 0x1000 + 1024 * n + 256 * r) (8 * h.lanes)
  linesFrom base 0xA8 ++ linesFrom (base + 0x100) 0x100 ++ held.map (base / 64 + 8 + ·) ++
    (held.flatMap fun i =>
      let c := loadCopy m base i
      linesFrom (base + 0xD000 + 1024 * i) (c.data.length * ((Fmt.ofCode c.fmt.toNat).getD .f64).esz)) ++
    if (m.read base 8).testBit 2 then [] else linesFrom (base + 0xA00) (128 * 11) ++ rows

/-- The header, the trap registers or a copy of a record hold an uncorrectable error, so that no resume can take them (R313). -/
def recordLost (m : Memory) (bad : Nat → Bool) (base : Nat) : Bool :=
  (linesFrom base 0xA8).any bad || (heldHandles m base).any fun i => bad (base / 64 + 8 + i)

/-- The number of slots of a context's save area (R309). -/
def Ctx.slotCount (c : Ctx) : Nat := bits c.save.toNat 59 52

/-- Whether slot i is in use. -/
def Ctx.slotUsed (c : Ctx) (i : Nat) : Bool := ((c.saveUse.getD (i / 64) 0).toNat).testBit (i % 64)

/-- The lowest free slot (R309). -/
def Ctx.freeSlot (c : Ctx) : Option Nat := (List.range c.slotCount).find? fun i => !c.slotUsed i

/-- Bit i of ctx.save.use set or cleared. -/
def Ctx.markSlot (c : Ctx) (i : Nat) (used : Bool) : Ctx :=
  let w := c.saveUse.getD (i / 64) 0
  let b := BitVec.ofNat 64 (2 ^ (i % 64))
  { c with saveUse := c.saveUse.setIfInBounds (i / 64) (if used then w ||| b else w &&& ~~~b) }

/-- The physical address of a slot (R309). -/
def Ctx.slotBase (c : Ctx) (i : Nat) : Nat := bits c.save.toNat 51 23 * 2 ^ 23 + i * 2 ^ 23

/-- The discard policy (R55, R309). -/
def Ctx.discards (c : Ctx) : Bool := c.save.toNat.testBit 60

/-- The position of a core in its bundle. -/
def State.coreIndex (s : State) (h : Hart) : Nat :=
  match s.loom.bundles.find? (fun b => decide (b.qcb = h.qcb) && decide (b.job = h.job) && decide (b.index = h.bundle)) with
  | some b => b.cores.findIdx (· = h.id.core)
  | none => h.id.core

/-- The address of a hart's record in a slot (R309). -/
def State.recordBase (s : State) (h : Hart) (slot : Nat) : Nat :=
  (s.ctx h.ctx).slotBase slot +
    (if h.id.control then 2 ^ 22 else 2 ^ 17 * (s.coreIndex h * 2 ^ h.split.toNat + h.id.hart))

/-- The dump of an unhandled trap (R304, R309): the lowest free slot of the context, if there is one. -/
def State.dump (s : State) (h : Hart) : State :=
  match (s.ctx h.ctx).freeSlot with
  | none => s
  | some i =>
    (s.saveHart (s.recordBase h i) h true (s.ctx h.ctx).discards).onCtx h.ctx fun c => c.markSlot i true

end Sys2Proof.Machine
end

