-- ==== Sys2Proof/Machine/Ops.lean ====
section
/-! DEFINITION. The operations that instructions share: counters of outstanding operations (R41), buffer handles and
their release (R157), taking a trap and returning from it (R300 to R305), checked accesses to memory and the local
store (R136, R139), and fetching (R58). -/

namespace Sys2Proof.Machine

/-! Outstanding operations. -/

/-- The counter of a class. -/
def Counters.get (c : Counters) : OpClass → BitVec 6
  | .ld => c.ld
  | .st => c.st
  | .cp => c.cp
  | .tl => c.tl

/-- A counter moved by d, modulo 64. -/
def Counters.add (c : Counters) (k : OpClass) (d : BitVec 6) : Counters :=
  match k with
  | .ld => { c with ld := c.ld + d }
  | .st => { c with st := c.st + d }
  | .cp => { c with cp := c.cp + d }
  | .tl => { c with tl := c.tl + d }

/-- The hart's counter is at 63: the instruction waits at issue (R41). -/
def State.full (s : State) (k : OpClass) : Bool := s.hart.cnt.get k = 63

/-- A counter of the hart raised by one (R41). -/
def State.raise (s : State) (k : OpClass) : State := s.on fun h => { h with cnt := h.cnt.add k 1 }

/-- A counter of a hart lowered by one. -/
def State.lower (s : State) (id : AgentId) (k : OpClass) : State :=
  s.update id fun h => { h with cnt := h.cnt.add k (-1) }

/-- An operation of the class issued whose access is performed at once; its completion is due (R135). -/
def State.issueOp (s : State) (k : OpClass) : State := (s.raise k).due (.operationComplete s.hart.id k)

/-- A store issued. Inside a region it completes only at commit (R135, R199): it counts in st, and in the region's
own count. -/
def State.issueStore (s : State) : State :=
  match s.hart.region with
  | none => s.issueOp .st
  | some r => (s.raise .st).on fun h => { h with region := some { r with stores := r.stores + 1 } }

/-! Handles. -/

/-- The stream register bound to handle i, unbound. -/
def Hart.unbindHandle (h : Hart) (i : Nat) : Hart :=
  { h with q := h.q.map fun b => match b with
      | some x => if x.toNat = i then none else some x
      | none => none }

/-- Handle i goes to free: its copy is gone and cp falls (R154). -/
def Hart.freeHandle (h : Hart) (i : Nat) : Hart :=
  { h with
    h := h.h.setIfInBounds i .free
    copy := h.copy.setIfInBounds i none
    cnt := h.cnt.add .cp (-1) }

/-- A slot whose contents are unspecified until it is written again (R157): free values. -/
def State.scrambleSlot (s : State) (quad slot : Nat) : State :=
  let base := quad * 2 ^ 19 + slot * 2 ^ 14
  { s.fresh with slots := s.slots.setBytes ((List.range (2 ^ 14)).map fun i => (base + i, Config.slotByte s.free i)) }

/-- hrel (R157): the handle returns to free at once; unwritten destination bytes keep their old values. -/
def State.releaseHandle (s : State) (id : AgentId) (i : Nat) : State :=
  match s.find id with
  | none => s
  | some h => match h.copy.getD i none with
    | none => s
    | some c =>
      let s := s.update id fun h => (h.freeHandle i).unbindHandle i
      let i5 := BitVec.ofNat 5 i
      let s := { s with
        agenda := s.agenda.filter (· ∉ [Due.copySourceRead id i5, .copyComplete id i5, .streamStripArrival id i5]) }
      if c.kind = 3 then s.scrambleSlot h.id.quad c.slot.toNat else s

/-- Every handle of a hart released (R304). -/
def State.releaseHandles (s : State) (id : AgentId) : State :=
  (List.range 32).foldl (fun s i => s.releaseHandle id i) s

/-! Fetching (R58, R280). -/

/-- The address of a pc: virtual addresses are 48 bits, extended by bit 47 (R49). -/
def pcAddr (pc : BitVec 48) : Nat := (pc.signExtend 64).toNat

/-- Whether [va, va + 2) lies in the text range of the hart's loaded image (R280). -/
def State.inTextRange (s : State) (h : Hart) (va : Nat) : Bool :=
  match (s.ctx h.ctx).image with
  | some im => decide (im.lo.toNat ≤ va) && decide (va + 2 ≤ im.lo.toNat + im.size)
  | none => false

/-- The changes of loaded code that the hart may not have seen yet: those after its last FENCE.I (R75). -/
def State.unseen (s : State) (h : Hart) : List (Nat × BitVec 32) := s.pkg.oldCode.drop h.fenced

/-- The halfword of code at a physical address as the hart sees it: each 4-byte unit holds its present value or one that it held
at the hart's last FENCE.I or since, as a free value says (R75, log 54). -/
def State.codeHalf (s : State) (h : Hart) (pa : Nat) : Nat :=
  let old := ((s.unseen h).filter fun p => decide (p.1 = pa / 4)).map fun p => bits p.2.toNat (8 * (pa % 4) + 15) (8 * (pa % 4))
  if old.isEmpty then s.mem.read pa 2
  else (s.mem.read pa 2 :: old).getD (Config.seenCode s.free (pa / 4) % (old.length + 1)) 0

/-- The halfword at an even address, or what stops its fetch: a translation or access fault with subcode 1 (R300). Address 0 is
never fetched (R104). -/
def State.fetchHalf (s : State) (h : Hart) (pc : BitVec 48) : Except Stop (BitVec 16) :=
  let va := pcAddr pc
  match s.place h false .fetch va 2 with
  | .error (.trap 5 _ a) => .error (.trap 5 1 a)
  | .error (.trap 6 _ a) => .error (.trap 6 1 a)
  | .error e => .error e
  | .ok (.store _) => .error (.trap 6 1 va)
  | .ok (.mem pa) =>
    if s.inTextRange h va && va != 0 then .ok (BitVec.ofNat 16 (s.codeHalf h pa)) else .error (.trap 6 1 va)

/-- The halfwords of an instruction by its first one (R58). -/
def halfwords (w : BitVec 16) : Nat :=
  match w.toNat % 4 with
  | 1 => 2
  | 3 => 4
  | _ => 1

/-- The halfword at an address whose fetch only has to wait, as memory holds it now (log 54). -/
def State.halfNow (s : State) (h : Hart) (va : Nat) : Nat :=
  match walkFrom (fun a => s.seeBytes h a 8) (fun _ => none) (va % 2 ^ 48) 3 (bits (s.ctx h.ctx).root.toNat 51 12 <<< 12) with
  | .page pa rwx => if Perm.fetch.allowed rwx && s.inTextRange h va then s.codeHalf h pa else 0
  | _ => 0

/-- The halfword k places after pc, or zero where its fetch would fault (R72). -/
def State.fetchOrZero (s : State) (h : Hart) (k : Nat) : Nat :=
  match s.fetchHalf h (h.pc + BitVec.ofNat 48 (2 * k)) with
  | .ok w => w.toNat
  | .error (.wait _) => s.halfNow h (pcAddr (h.pc + BitVec.ofNat 48 (2 * k)))
  | .error _ => 0

/-- The 64 bits from the pc, zero where their fetch would fault (R72, R302). -/
def State.wordAt (s : State) (h : Hart) : BitVec 64 :=
  BitVec.ofNat 64 (s.fetchOrZero h 0 + s.fetchOrZero h 1 * 2 ^ 16 + s.fetchOrZero h 2 * 2 ^ 32 +
    s.fetchOrZero h 3 * 2 ^ 48)

/-- The instruction's bits at the pc, higher bits zero, or what stops the fetch of one of its halfwords (R58). -/
def State.fetch (s : State) (h : Hart) : Except Stop (BitVec 64) :=
  match s.fetchHalf h h.pc with
  | .error e => .error e
  | .ok w =>
    (List.range (halfwords w - 1)).foldl (fun acc k => match acc with
      | .error e => .error e
      | .ok x => match s.fetchHalf h (h.pc + BitVec.ofNat 48 (2 * (k + 1))) with
        | .error e => .error e
        | .ok y => .ok (x + BitVec.ofNat 64 (y.toNat * 2 ^ (16 * (k + 1))))) (.ok (w.setWidth 64))

/-! Traps. -/

/-- The end of a program: TASK_END is due (R104). `code` fails its job; 0 for none. -/
def State.finish (s : State) (code : Byte) : State :=
  (s.on fun h => { h with ending := true, failCode := code, wait := none }).due (.taskEnd s.hart.id)

/-- An unhandled trap (R304). -/
def State.unhandled (s : State) : State :=
  let s := s.releaseHandles s.hart.id
  (s.dump s.hart).finish 6

/-- A hart gives up its place in the queue of harts that would begin pinned (R195). -/
def State.leaveQueue (s : State) (id : AgentId) : State :=
  { s with arb := { s.arb with beginQueue := s.arb.beginQueue.filter fun k => decide (k ≠ id) } }

/-- Taking a trap (R303): code, subcode, the n of trap n, the element it names, and the data address where there is
one. Inside a region the region aborts with code 5 and the trap is raised at its xbegin, element 0 (R199). Uncorrectable errors count in err.ue
(R313). -/
def State.takeTrap (s : State) (code sub n elem : Nat) (addr : Option Nat) : Res :=
  let h := s.hart
  let word := s.wordAt h
  let fpc := h.pc
  let s := if code = 8 then s.count h.ctx 0x7AD 0 1 else s
  let s := (s.leaveQueue h.id).abortRegion h.id 5
  let back := match h.region with
    | some r => r.begin
    | none => fpc
  let e := if h.region.isSome then 0 else elem
  let cause := code + sub * 256 + n * 2 ^ 16 + 2 ^ 32
  let a := addr.getD (pcAddr fpc)
  let s := s.on fun h => { h with reservation := none, vstart := BitVec.ofNat 11 e, pc := back, wait := none }
  let s := s.trace s.hart (if code = 10 then 8 else 1) (fpc.toNat + e * 2 ^ 48) cause a
  if h.trap.cause.toNat.testBit 32 || h.trap.vec = 0 then .next s.unhandled
  else .next (s.on fun h => { h with
    pc := (h.trap.vec.setWidth 48) &&& ~~~1#48
    vstart := 0
    trap := { h.trap with
      pc := back.setWidth 64
      elem := BitVec.ofNat 64 e
      cause := BitVec.ofNat 64 cause
      addr := BitVec.ofNat 64 a
      word := word
      fpc := fpc.setWidth 64 } })

/-- A trap that an entry raises at issue: element 0 and no data address (R301, R302). -/
def State.trapAt (s : State) (code sub : Nat) : Res := s.takeTrap code sub 0 0 none

/-- The trap at an instruction that waits for an operation lost to a dead engine (R316): the operations that it waited for are
reported, and no later instruction waits for them. -/
def State.lostTrap (s : State) (p : Nat → Bool) : Res :=
  (s.on fun h => { h with lost := h.lost.filter fun k => !p k }).trapAt 8 4

/-- The vector-configuration trap. -/
def State.badConfig (s : State) : Res := s.trapAt 2 0

/-- The access fault of units, grants and privileges (R300, subcode 2). -/
def State.denied (s : State) : Res := s.trapAt 6 2

/-- A form that is forbidden inside a region: it aborts the region with code 4 and has no effect of its own (R199). -/
def State.forbidden (s : State) : Res := .next (s.abortRegion s.hart.id 4)

/-- The meaning of a form that is forbidden inside a region (R199). -/
def State.outsideRegion (s : State) (k : Res) : Res := if s.hart.region.isSome then s.forbidden else k

/-- The return from a trap (R303, R305): access fault with no trap being handled (R278). A breakpoint that it leaves does not
fire again, at the element where it fired, before the instruction at its address has completed. -/
def State.returnFromTrap (s : State) : Res :=
  let t := s.hart.trap
  if !t.cause.toNat.testBit 32 then s.denied
  else
    let k := bits t.cause.toNat 15 8
    let at_ : BitVec 48 := t.fpc.setWidth 48
    let b := match s.hart.fired with
      | some f => if f.1 = k then f else (k, bits (s.hart.bp.getD k 0).toNat 58 48)
      | none => (k, bits (s.hart.bp.getD k 0).toNat 58 48)
    let left := match s.hart.bpDone with
      | some (a, l) => if a = at_ then b :: l else [b]
      | none => [b]
    .next (s.on fun h => { h with
      pc := t.pc.setWidth 48 &&& ~~~1#48
      vstart := t.elem.setWidth 11
      trap := { t with cause := t.cause &&& ~~~(1#64 <<< 32) }
      bpDone := if bits t.cause.toNat 7 0 = 10 then some (at_, left) else h.bpDone })

/-! Breakpoints (R305). -/

/-- The breakpoints that stand at the hart's pc and that eret has not left there: number and element. -/
def Hart.armed (h : Hart) : List (Nat × Nat) :=
  (List.range 4).filterMap fun i =>
    let b := (h.bp.getD i 0).toNat
    let e := bits b 58 48
    let left := match h.bpDone with
      | some (a, l) => decide (a = h.pc) && l.elem (i, e)
      | none => false
    if b.testBit 0 && decide (bits b 47 1 * 2 = h.pc.toNat) && !left then some (i, e) else none

/-- The breakpoint of least element among some. -/
def firstBreak : List (Nat × Nat) → Option (Nat × Nat)
  | [] => none
  | b :: rest => match firstBreak rest with
    | some c => if c.2 < b.2 then some c else some b
    | none => some b

/-- The breakpoint, if any, that stops an instruction of `active` active elements inside, at or above its vstart. -/
def Hart.breakInside (h : Hart) (active : Nat) : Option (Nat × Nat) :=
  firstBreak (h.armed.filter fun b => decide (b.2 < active) && decide (h.vstart.toNat ≤ b.2))

/-- The breakpoint, if any, that stops an instruction before its first effect: every one that stands at its pc, but where the
instruction can stop inside (`active` holds its number of active elements) only those beyond its active elements. -/
def Hart.breakBefore (h : Hart) (active : Option Nat) : Option (Nat × Nat) :=
  firstBreak (h.armed.filter fun b => match active with
    | some n => decide (n ≤ b.2)
    | none => true)

/-- The trap of breakpoint i with resume element e (R305): the element that the breakpoint names is the one that fired. -/
def State.breakTrap (s : State) (i e : Nat) : Res :=
  (s.on fun h => { h with fired := some (i, bits (h.bp.getD i 0).toNat 58 48) }).takeTrap 10 i 0 e none

/-! Accesses. -/

/-- The value of n bytes in pieces, little-endian, as the hart reads it. -/
def State.peek (s : State) (ps : List Piece) : Nat :=
  ps.foldl (fun a p => a + (match p.place with
    | .mem pa => s.seeBytes s.hart pa p.len
    | .store key => s.lstore.read key p.len) * 2 ^ (8 * p.at_)) 0

/-- The hart's own region, live before, has been aborted by its own access. -/
def State.lost (before after : State) : Bool := before.hart.region.isSome && after.hart.region.isNone

/-- Stands for the virtual address of an access that has none, so no tensor and no filter holds it. -/
def noAddress : Nat := 2 ^ 65

/-- The records and counts of what an access of element e meets at the slices (R201, R319): a miss, a recall, an entry to C, and
the banks that it woke. -/
def State.logMet (before after : State) (h : Hart) (e va line : Nat) (m : Met) : State :=
  let s := if m.miss then after.slog h e va 0 (sliceAt (die h.id) line) else after
  let s := if m.recalled.isEmpty then s else s.slog h e va 1 (homeSlice line)
  let s := if m.split then (s.count h.ctx 0x755 0 1).slog h e va 2 (homeSlice line) else s
  (before.pkg.drowsy.filter fun k => !after.pkg.drowsy.elem k).foldl (fun s k => s.slog h e va 6 k) s

/-- A read of the hart by element e reaches bytes of a line (R163, R182). -/
def State.readAt (s : State) (e va line mask : Nat) : State :=
  let (t, m) := s.readLine s.hart.accessor va line mask (if va = noAddress then none else some (s.hart.id, va))
  s.logMet t s.hart e va line m

/-- A write of a hart by element e goes through to its die slice (R163, R182, R185), with the bytes of the claim that it is under. -/
def State.writeFor (s : State) (h : Hart) (e va line mask : Nat) (claim : Option Nat) : State :=
  let (t, m) := s.writeLine h.accessor va line mask claim
  s.logMet t h e va line m

/-- A store of the hart by element e, under a claim or none. -/
def State.writeAt (s : State) (e va line mask : Nat) (claim : Option Claim) : State :=
  s.writeFor s.hart e va line mask (claim.map fun c => c.onLine va)

/-! Fetches through the instruction caches (R180). A line of code is named by its physical address / 128. -/

/-- A context has locked a code line in a quad (R181). A lock names a virtual line of its context; one whose walk has to wait may be this
line. -/
def State.codeLocked (s : State) (quad line : Nat) : Bool :=
  s.ctxs.any fun c => c.2.locks.any fun l => decide (l.1 = quad) && match s.walkIn (BitVec.ofNat 12 c.1) (128 * l.2) with
    | .page pa _ => decide (pa / 128 = line)
    | .wait => true
    | _ => false

/-- A code line leaves the quad's cache, and with it the levels above (R180). -/
def State.dropCode (s : State) (quad line : Nat) : State :=
  (s.updateAll fun h => if h.id.quad = quad then { h with lineBuffer := h.lineBuffer.filter (· ≠ line) } else h).onPkg fun p => { p with
    quadCode := p.quadCode.filter (· ≠ (quad, line))
    coreCode := p.coreCode.filter fun c => !(decide (c.1 / 4 = quad) && decide (c.2 = line)) }

/-- A quad's cache of 8,192 lines gives up one that a free value picks, where it is full: none that is locked (R180, R181). -/
def State.quadCodeRoom (s : State) (quad : Nat) : State :=
  let mine := s.pkg.quadCode.filter fun c => decide (c.1 = quad)
  let vs := mine.filter fun c => !s.codeLocked quad c.2
  if mine.length < 8192 then s
  else match vs[Config.victim s.free % vs.length]? with
    | some c => s.fresh.dropCode quad c.2
    | none => s

/-- A core's L1I of 512 lines gives up one that a free value picks, where it is full (R180). -/
def State.coreCodeRoom (s : State) (core : Nat) : State :=
  let mine := s.pkg.coreCode.filter fun c => decide (c.1 = core)
  if mine.length < 512 then s
  else match mine[Config.victim s.free % mine.length]? with
    | some c => s.fresh.onPkg fun p => { p with coreCode := p.coreCode.filter (· ≠ c) }
    | none => s

/-- A code line comes into the quad's cache from the die slices (R180): the hart's own read of its two lines of 64 bytes there, under
the virtual address of its first byte. -/
def State.fillCode (s : State) (va line : Nat) : State :=
  let h := s.hart
  if s.pkg.quadCode.elem (h.id.quad, line) then s
  else
    let s := (List.range 2).foldl (fun s k =>
      let (t, m) := s.readLine h.engine (va + 64 * k) (2 * line + k) (2 ^ 64 - 1) none
      s.logMet t h 0 (va + 64 * k) (2 * line + k) m) s
    (s.quadCodeRoom h.id.quad).onPkg fun p => { p with quadCode := p.quadCode ++ [(h.id.quad, line)] }

/-- The hart fetches bytes of a code line (R180): from its line buffer of four lines, or through the L1I of its core, where it has
one, and the cache of its quad. -/
def State.fetchLine (s : State) (va line : Nat) : State :=
  let h := s.hart
  let core := globalCore h.id
  if h.lineBuffer.elem line then s
  else
    let s := if !h.id.control && s.pkg.coreCode.elem (core, line) then s
      else
        let s := s.fillCode va line
        if h.id.control then s
        else (s.coreCodeRoom core).onPkg fun p => { p with coreCode := p.coreCode ++ [(core, line)] }
    s.on fun h => { h with lineBuffer := line :: h.lineBuffer.take 3 }

/-- The parts of an access that lie in memory: virtual address, physical address, length. -/
def memParts (ps : List Piece) : List (Nat × Nat × Nat) :=
  ps.filterMap fun p => match p.place with
    | .mem pa => some (p.va, pa, p.len)
    | .store _ => none

/-- How a region's access uses its lines (R191): bytes that it reads as its own uncommitted writes are no read of a committed
value. -/
def State.uses (s : State) (write read : Bool) (ps : List (Nat × Nat × Nat)) : List LineUse :=
  ps.filterMap fun (va, pa, n) =>
    let own := match s.hart.region with
      | some r => r.holds pa n
      | none => false
    if write || (read && !own) then some ⟨pa / 64, va, write, read && !own⟩ else none

/-- What an access of the hart to lines does to regions: its own (R191, R192, R205), or those of others (R197). -/
def State.meetRegions (s : State) (write read : Bool) (ps : List (Nat × Nat × Nat)) : State :=
  if s.hart.region.isSome then s.touchAll s.hart.id (s.uses write read ps)
  else (ps.map fun p => p.2.1 / 64).eraseDups.foldl (fun s l => s.outside l write) s

/-- Reads of page-table entries, which are the hart's own accesses (R321). -/
def State.noteEntries (s : State) (e : Nat) (as : List Nat) : State :=
  as.foldl (fun t a =>
    if s.lost t then t
    else
      let u := t.meetRegions false true [(noAddress, a, 8)]
      if s.lost u then u else u.readAt e noAddress (a / 64) (byteMask (a % 64) 8)) s

/-- A walk that ends in a page leaves its translation in the hart's buffer; one that ends in a fault installs nothing (R297, R321),
and so does one that has read what its own region may still take back (DESIGN CHOICE, log 2). -/
def State.keepTranslation (s : State) (h : Hart) (va : Nat) : State :=
  match s.translation h va, s.walkFor h va with
  | none, .page pa rwx =>
    if s.walkIn h.ctx va = .page pa rwx then
      s.onPkg fun p => { p with tlb := ⟨h.id, h.ctx, va % 2 ^ 48 / 4096, pa / 4096, rwx⟩ :: p.tlb }
    else s
  | _, _ => s

/-- The walk for an address of element e: its entry reads, and the translation that it leaves. -/
def State.walkOnce (s : State) (e va : Nat) : State :=
  let t := s.noteEntries e (s.walkReads s.hart va)
  if s.lost t then t else t.keepTranslation s.hart va

/-- The parts of [a, a + n) that lie in one 64-byte granule each: address and length; n > 0. -/
def granules (a n : Nat) : List (Nat × Nat) :=
  (List.range ((a % 64 + n - 1) / 64 + 1)).map fun k =>
    let lo := if k = 0 then a else a / 64 * 64 + 64 * k
    (lo, min (a + n) ((a / 64 + k + 1) * 64) - lo)

/-- An address in each page that some ranges touch. -/
def rangePages (ranges : List (Nat × Nat)) : List Nat :=
  ((ranges.flatMap fun r => if r.2 = 0 then [] else granules r.1 r.2).map fun g => g.1 % 2 ^ 64 / 4096 * 4096).eraseDups

/-- The walks for some addresses, one for each page of them (R321); an abort of the hart's own region ends them. -/
def State.walkAll (s : State) (e : Nat) (vas : List Nat) : State :=
  (vas.map (· / 4096 * 4096)).eraseDups.foldl (fun t va => if s.lost t then t else t.walkOnce e va) s

/-- Whether an access to a line narrows intervals (R192). -/
def State.narrows (s : State) (u : LineUse) : Bool :=
  let t := (s.applyStamps s.hart.id u.line u.write).meetAll s.hart.id u
  decide (s.arb.narrowings.length < t.arb.narrowings.length) || decide (s.hart.ebLo ≠ t.hart.ebLo) ||
    decide (s.hart.ebHi ≠ t.hart.ebHi)

/-- The records of the narrowings that an access of a region caused, seen from the state before it (R319). -/
def State.logNarrows (before after : State) (e : Nat) (write read : Bool) (ps : List (Nat × Nat × Nat)) : State :=
  if before.hart.region.isNone then after
  else ps.foldl (fun s p =>
    if (s.ctx before.hart.ctx).logs p.1 3 && (before.uses write read [p]).any before.narrows then
      s.slog before.hart e p.1 3 (homeSlice (p.2.1 / 64))
    else s) after

/-- What one access of element e of the hart does beside reading and writing its bytes: the entries that its walks read, the
regions that it meets, and the cache levels that it passes (R163, R182, R191, R197, R321). A region's stores are held in the L1D
until its commit. `claim` is the claim that a store is under; an atomic is under none (R185). -/
def State.noteAccess (s : State) (e : Nat) (write read : Bool) (claim : Option Claim) (ps : List Piece) : State :=
  let parts := memParts ps
  let s1 := s.walkAll e (parts.map (·.1))
  if s.lost s1 then s1
  else
    let s2 := s1.logNarrows (s1.meetRegions write read parts) e write read parts
    if s.lost s2 then s2
    else parts.foldl (fun t p =>
      let mask := byteMask (p.2.1 % 64) p.2.2
      if write && s.hart.region.isNone then t.writeAt e p.1 (p.2.1 / 64) mask claim
      else t.readAt e p.1 (p.2.1 / 64) mask) s2

/-- A load's access noted. -/
def State.noteReads (s : State) (e : Nat) (ps : List Piece) : State := s.noteAccess e false true none ps

/-- The bytes of a piece of a store written: in the local store, in the region's buffer, or in memory (R43, R134, R191). -/
def State.putPiece (s : State) (claim : Option Claim) (x : Nat) (p : Piece) : State :=
  let y := bits x (8 * (p.at_ + p.len) - 1) (8 * p.at_)
  match p.place with
  | .store key => ({ s with lstore := s.lstore.write key p.len y }).clearReservations p.place.block
  | .mem pa =>
    if s.hart.region.isSome then
      s.on fun h => { h with
        region := h.region.map fun r => { r with
          buf := bufWrite r.buf pa p.len y
          gen := r.gen <|> some (s.ctx h.ctx).gen
          covered := match claim with
            | some c => r.covered ++ [(pa / 64, byteMask (pa % 64) p.len, c.onLine p.va)]
            | none => r.covered }
        reservation := if h.reservation = some p.place.block then none else h.reservation }
    else (s.setMem ((toBytes p.len y).zipIdx.map fun q => (pa + q.2, q.1))).clearReservations p.place.block

/-- The store of x by element e, in its pieces, under a claim or none: its access, which an abort of the hart's own region ends, then
its bytes. `read` says that the same access has read them. -/
def State.poke (s : State) (e : Nat) (read : Bool) (claim : Option Claim) (x : Nat) (ps : List Piece) : State :=
  let t := s.noteAccess e true read claim ps
  if s.lost t then t else ps.foldl (fun t p => t.putPiece claim x p) t

/-- The pieces of an instruction's store have been written: granules that they fill lose their poison; a region's writes wait
for its commit (R312, R134). -/
def State.healPieces (s : State) (ps : List Piece) : State :=
  let bytes := fun (p : Piece) (a : Nat) => (List.range p.len).map (a + ·)
  if s.pkg.poison.isEmpty && s.pkg.storePoison.isEmpty then s
  else s.heal (if s.hart.region.isSome then [] else ps.flatMap fun p => match p.place with
      | .mem pa => bytes p pa
      | .store _ => [])
    (ps.flatMap fun p => match p.place with
      | .mem _ => []
      | .store key => bytes p key)

/-- The slice log of a poisoned granule that element e of an access of the hart meets (R319). -/
def State.logPoison (s : State) (e a : Nat) : State :=
  if inWindow a then s
  else match s.walkFor s.hart a with
    | .page pa _ => s.slog s.hart e a 5 (homeSlice (pa / 64))
    | _ => s

/-- A stop of an access at element e: the trap that it names, after the entry reads of the walk that found it, or a wait. -/
def State.stopAt (s : State) (e : Nat) : Stop → Res
  | .trap code sub a =>
    let t := if code = 4 || inWindow a then s else s.walkAll e [a]
    if s.lost t then .next t
    else (if code = 8 ∧ sub = 0 then t.logPoison e a else t).takeTrap code.toNat sub.toNat 0 e (some a)
  | .wait r => s.waitFor r

/-- A stop of an access that has translated some addresses, with the entry reads of all their walks (R321). -/
def State.stopWith (s : State) (vas : List Nat) (e : Nat) : Stop → Res
  | .trap code sub a =>
    if code = 4 then s.stopAt e (.trap code sub a)
    else
      let t := s.walkAll e (vas.filter fun va => !inWindow va)
      if s.lost t then .next t else t.stopAt e (.trap code sub a)
  | .wait r => s.waitFor r

/-- A byte of the access lies in the local-store window. -/
def meetsWindow (va n : Nat) : Bool := inWindow va || inWindow ((va + n - 1) % 2 ^ 64)

/-- A scalar access or atomic (R136, R139): forbidden in the window inside a region (R199), then aligned where it must
be, then each byte checked; `k` performs it. -/
def State.access (s : State) (p : Perm) (aligned : Bool) (va n : Nat) (k : List Piece → Res) : Res :=
  if s.hart.region.isSome && meetsWindow va n then s.forbidden
  else if aligned && va % n != 0 then s.takeTrap 4 0 0 0 (some va)
  else match s.pieces s.hart true p va n with
    | .error e => s.stopWith [va, (va + n - 1) % 2 ^ 64] 0 e
    | .ok ps => k ps

end Sys2Proof.Machine
end

