-- ==== Sys2Proof/Machine/Scalar.lean ====
section
/-! DEFINITION. Scalar arithmetic: majors 0x00, 0x01, 0x02, 0x03 and 0x07 (R97 to R100). Every form writes sd and goes
on to the next word; none traps or sets a flag. -/

namespace Sys2Proof.Machine

/-- The low 32 bits of a word, sign-extended (R97). -/
def word32 (x : Word) : Word := (x.setWidth 32).signExtend 64

/-- 1 for true, 0 for false. -/
def ofBool (b : Bool) : Word := if b then 1 else 0

/-- Count of trailing zero bits; n when there is no set bit below n. -/
def trailingZeros (x : Nat) : Nat → Nat
  | 0 => 0
  | n + 1 => if x % 2 = 1 then 0 else 1 + trailingZeros (x / 2) n

/-- bext: the bits of a at the positions of b's ones, packed from bit 0 up; `i` is the position, `k` the next place. -/
def extractBits (a b : Nat) : Nat → Nat → Nat → Nat
  | 0, _, _ => 0
  | n + 1, i, k =>
    if b.testBit i then (if a.testBit i then 2 ^ k else 0) + extractBits a b n (i + 1) (k + 1)
    else extractBits a b n (i + 1) k

/-- bdep: the low bits of a placed at the positions of b's ones. -/
def depositBits (a b : Nat) : Nat → Nat → Nat → Nat
  | 0, _, _ => 0
  | n + 1, i, k =>
    if b.testBit i then (if a.testBit k then 2 ^ i else 0) + depositBits a b n (i + 1) (k + 1)
    else depositBits a b n (i + 1) k

/-- The eight bytes of a word in reverse order. -/
def reverseBytes (x : Word) : Word := BitVec.ofNat 64 (ofBytes (toBytes 8 x.toNat).reverse)

/-- Signed quotient with the fixed results of R98. -/
def divide {w : Nat} (a b : BitVec w) : BitVec w := if b = 0 then -1 else a.sdiv b

/-- Signed remainder with the fixed results of R98. -/
def remainder {w : Nat} (a b : BitVec w) : BitVec w := if b = 0 then a else a.srem b

/-- A binary form: sd := f sa sb (R97). -/
def State.binary (s : State) (f : Word → Word → Word) (b a d : BitVec 5) : Res := s.give d (f (s.rs a) (s.rs b))

/-- add (R97). -/
def execAdd (b a d : BitVec 5) (s : State) : Res :=
  s.binary (fun x y => x + y) b a d

/-- sub (R97). -/
def execSub (b a d : BitVec 5) (s : State) : Res :=
  s.binary (fun x y => x - y) b a d

/-- and (R97). -/
def execAnd (b a d : BitVec 5) (s : State) : Res :=
  s.binary (fun x y => x &&& y) b a d

/-- or (R97). -/
def execOr (b a d : BitVec 5) (s : State) : Res :=
  s.binary (fun x y => x ||| y) b a d

/-- xor (R97). -/
def execXor (b a d : BitVec 5) (s : State) : Res :=
  s.binary (fun x y => x ^^^ y) b a d

/-- sll (R97). -/
def execSll (b a d : BitVec 5) (s : State) : Res :=
  s.binary (fun x y => x <<< (y.toNat % 64)) b a d

/-- srl (R97). -/
def execSrl (b a d : BitVec 5) (s : State) : Res :=
  s.binary (fun x y => x >>> (y.toNat % 64)) b a d

/-- sra (R97). -/
def execSra (b a d : BitVec 5) (s : State) : Res :=
  s.binary (fun x y => x.sshiftRight (y.toNat % 64)) b a d

/-- addw (R97). -/
def execAddw (b a d : BitVec 5) (s : State) : Res :=
  s.binary (fun x y => word32 (x + y)) b a d

/-- subw (R97). -/
def execSubw (b a d : BitVec 5) (s : State) : Res :=
  s.binary (fun x y => word32 (x - y)) b a d

/-- sllw (R97). -/
def execSllw (b a d : BitVec 5) (s : State) : Res :=
  s.binary (fun x y => word32 (x <<< (y.toNat % 32))) b a d

/-- srlw (R97). -/
def execSrlw (b a d : BitVec 5) (s : State) : Res :=
  s.binary (fun x y => (x.setWidth 32 >>> (y.toNat % 32)).signExtend 64) b a d

/-- sraw (R97). -/
def execSraw (b a d : BitVec 5) (s : State) : Res :=
  s.binary (fun x y => ((x.setWidth 32).sshiftRight (y.toNat % 32)).signExtend 64) b a d

/-- min (R97). -/
def execMin (b a d : BitVec 5) (s : State) : Res :=
  s.binary (fun x y => if x.slt y then x else y) b a d

/-- max (R97). -/
def execMax (b a d : BitVec 5) (s : State) : Res :=
  s.binary (fun x y => if x.slt y then y else x) b a d

/-- minu (R97). -/
def execMinu (b a d : BitVec 5) (s : State) : Res :=
  s.binary (fun x y => if x < y then x else y) b a d

/-- maxu (R97). -/
def execMaxu (b a d : BitVec 5) (s : State) : Res :=
  s.binary (fun x y => if x < y then y else x) b a d

/-- andn (R97). -/
def execAndn (b a d : BitVec 5) (s : State) : Res :=
  s.binary (fun x y => x &&& ~~~y) b a d

/-- orn (R97). -/
def execOrn (b a d : BitVec 5) (s : State) : Res :=
  s.binary (fun x y => x ||| ~~~y) b a d

/-- mul (R97). -/
def execMul (b a d : BitVec 5) (s : State) : Res :=
  s.binary (fun x y => x * y) b a d

/-- mulh (R97). -/
def execMulh (b a d : BitVec 5) (s : State) : Res :=
  s.binary (fun x y => BitVec.ofInt 64 (x.toInt * y.toInt / 2 ^ 64)) b a d

/-- mulhu (R97). -/
def execMulhu (b a d : BitVec 5) (s : State) : Res :=
  s.binary (fun x y => BitVec.ofNat 64 (x.toNat * y.toNat / 2 ^ 64)) b a d

/-- mulhsu (R97). -/
def execMulhsu (b a d : BitVec 5) (s : State) : Res :=
  s.binary (fun x y => BitVec.ofInt 64 (x.toInt * y.toNat / 2 ^ 64)) b a d

/-- div (R98). -/
def execDiv (b a d : BitVec 5) (s : State) : Res :=
  s.binary (fun x y => divide x y) b a d

/-- divu (R98). -/
def execDivu (b a d : BitVec 5) (s : State) : Res :=
  s.binary (fun x y => if y = 0 then -1 else x / y) b a d

/-- rem (R98). -/
def execRem (b a d : BitVec 5) (s : State) : Res :=
  s.binary (fun x y => remainder x y) b a d

/-- remu (R98). -/
def execRemu (b a d : BitVec 5) (s : State) : Res :=
  s.binary (fun x y => if y = 0 then x else x % y) b a d

/-- mulw (R97). -/
def execMulw (b a d : BitVec 5) (s : State) : Res :=
  s.binary (fun x y => word32 (x * y)) b a d

/-- divw (R98). -/
def execDivw (b a d : BitVec 5) (s : State) : Res :=
  s.binary (fun x y => (divide (x.setWidth 32) (y.setWidth 32)).signExtend 64) b a d

/-- remw (R98). -/
def execRemw (b a d : BitVec 5) (s : State) : Res :=
  s.binary (fun x y => (remainder (x.setWidth 32) (y.setWidth 32)).signExtend 64) b a d

/-- seq (R97). -/
def execSeq (b a d : BitVec 5) (s : State) : Res :=
  s.binary (fun x y => ofBool (x = y)) b a d

/-- sne (R97). -/
def execSne (b a d : BitVec 5) (s : State) : Res :=
  s.binary (fun x y => ofBool (x ≠ y)) b a d

/-- slt (R97). -/
def execSlt (b a d : BitVec 5) (s : State) : Res :=
  s.binary (fun x y => ofBool (x.slt y)) b a d

/-- sltu (R97). -/
def execSltu (b a d : BitVec 5) (s : State) : Res :=
  s.binary (fun x y => ofBool (x < y)) b a d

/-- bext (R97). -/
def execBext (b a d : BitVec 5) (s : State) : Res :=
  s.binary (fun x y => BitVec.ofNat 64 (extractBits x.toNat y.toNat 64 0 0)) b a d

/-- bdep (R97). -/
def execBdep (b a d : BitVec 5) (s : State) : Res :=
  s.binary (fun x y => BitVec.ofNat 64 (depositBits x.toNat y.toNat 64 0 0)) b a d

/-- rotl (R97). -/
def execRotl (b a d : BitVec 5) (s : State) : Res :=
  s.binary (fun x y => x.rotateLeft (y.toNat % 64)) b a d

/-- rotr (R97). -/
def execRotr (b a d : BitVec 5) (s : State) : Res :=
  s.binary (fun x y => x.rotateRight (y.toNat % 64)) b a d

/-- clz (R97). -/
def execClz (a d : BitVec 5) (s : State) : Res :=
  s.give d (BitVec.ofNat 64 (64 - bitLength (s.rs a).toNat))

/-- ctz (R97). -/
def execCtz (a d : BitVec 5) (s : State) : Res :=
  s.give d (BitVec.ofNat 64 (trailingZeros (s.rs a).toNat 64))

/-- cpop (R97). -/
def execCpop (a d : BitVec 5) (s : State) : Res :=
  s.give d (BitVec.ofNat 64 (popCount 64 (s.rs a).toNat))

/-- rev8 (R97). -/
def execRev8 (a d : BitVec 5) (s : State) : Res :=
  s.give d (reverseBytes (s.rs a))

/-- addi (R99). -/
def execAddi (i : BitVec 11) (a d : BitVec 5) (s : State) : Res :=
  s.give d (s.rs a + i.signExtend 64)

/-- andi (R99). -/
def execAndi (i : BitVec 11) (a d : BitVec 5) (s : State) : Res :=
  s.give d (s.rs a &&& i.signExtend 64)

/-- ori (R99). -/
def execOri (i : BitVec 11) (a d : BitVec 5) (s : State) : Res :=
  s.give d (s.rs a ||| i.signExtend 64)

/-- xori (R99). -/
def execXori (i : BitVec 11) (a d : BitVec 5) (s : State) : Res :=
  s.give d (s.rs a ^^^ i.signExtend 64)

/-- shori (R99). -/
def execShori (i : BitVec 11) (a d : BitVec 5) (s : State) : Res :=
  s.give d ((s.rs a <<< 11) ||| i.setWidth 64)

/-- addiw (R99). -/
def execAddiw (i : BitVec 11) (a d : BitVec 5) (s : State) : Res :=
  s.give d (word32 (s.rs a + i.signExtend 64))

/-- slli (R99). -/
def execSlli (i : BitVec 6) (a d : BitVec 5) (s : State) : Res :=
  s.give d (s.rs a <<< i.toNat)

/-- srli (R99). -/
def execSrli (i : BitVec 6) (a d : BitVec 5) (s : State) : Res :=
  s.give d (s.rs a >>> i.toNat)

/-- srai (R99). -/
def execSrai (i : BitVec 6) (a d : BitVec 5) (s : State) : Res :=
  s.give d ((s.rs a).sshiftRight i.toNat)

/-- aupc (R100). The 48-bit pc enters the sum zero-extended, though an address made of it is canonical (DESIGN CHOICE, log 40). -/
def execAupc (i : BitVec 19) (d : BitVec 5) (s : State) : Res :=
  s.give d (s.hart.pc.setWidth 64 + (i.signExtend 64 <<< 11))

end Sys2Proof.Machine
end

