-- ==== Sys2Proof/Machine/Control.lean ====
section
/-! DEFINITION. Branches, jumps and the end of a task (R101 to R104). `n` is the size of the word in bytes: 4, or 2 for
a compressed form (R105). -/

namespace Sys2Proof.Machine

/-- The pc moved by a signed number of halfwords (R60). -/
def State.hop {w : Nat} (s : State) (o : BitVec w) : State :=
  s.jump (s.hart.pc + (o.signExtend 48 <<< 1))

/-- A branch (R101). -/
def State.branch {w : Nat} (s : State) (n : Nat) (taken : Bool) (o : BitVec w) : Res :=
  .next (if taken then s.hop o else s.skip n)

/-- A jump and link (R102). -/
def State.link {w : Nat} (s : State) (n : Nat) (d : BitVec 5) (o : BitVec w) : Res :=
  .next ((s.ws d (s.hart.pc.setWidth 64 + BitVec.ofNat 64 n)).hop o)

/-- An indirect jump to t, bit 0 cleared, with a link in d (R103); t = 0 ends the program, but inside a region it is
forbidden (R104, R199). The pc has 48 bits (R36), so bits 63:48 of t are dropped, also where they do not repeat bit 47: the target is
not faulted for them (DESIGN CHOICE, log 40). -/
def State.jumpLink (s : State) (n : Nat) (d : BitVec 5) (t : Word) : Res :=
  let t := t &&& ~~~1#64
  if t = 0 && s.hart.region.isSome then s.forbidden
  else
    let s := (s.ws d (s.hart.pc.setWidth 64 + BitVec.ofNat 64 n)).jump (t.setWidth 48)
    .next (if t = 0 then s.finish 0 else s)

/-- beq (R101). -/
def execBeq (o : BitVec 11) (b a : BitVec 5) (s : State) : Res := s.branch 4 (s.rs a = s.rs b) o

/-- bne (R101). -/
def execBne (o : BitVec 11) (b a : BitVec 5) (s : State) : Res := s.branch 4 (s.rs a ≠ s.rs b) o

/-- blt (R101). -/
def execBlt (o : BitVec 11) (b a : BitVec 5) (s : State) : Res := s.branch 4 ((s.rs a).slt (s.rs b)) o

/-- bge (R101). -/
def execBge (o : BitVec 11) (b a : BitVec 5) (s : State) : Res := s.branch 4 (!(s.rs a).slt (s.rs b)) o

/-- bltu (R101). -/
def execBltu (o : BitVec 11) (b a : BitVec 5) (s : State) : Res := s.branch 4 ((s.rs a).ult (s.rs b)) o

/-- bgeu (R101). -/
def execBgeu (o : BitVec 11) (b a : BitVec 5) (s : State) : Res := s.branch 4 (!(s.rs a).ult (s.rs b)) o

/-- jal (R102). -/
def execJal (i : BitVec 19) (d : BitVec 5) (s : State) : Res := s.link 4 d i

/-- jalr (R103): sa is read before sd is written. -/
def execJalr (i : BitVec 11) (a d : BitVec 5) (s : State) : Res := s.jumpLink 4 d (s.rs a + i.signExtend 64)

/-- ret (R103): jalr with no link; its return predictor is timing only. -/
def execRet (a : BitVec 5) (s : State) : Res := s.jumpLink 4 0 (s.rs a)

end Sys2Proof.Machine
end

