-- ==== Sys2Proof/Machine/ScalarMem.lean ====
section
/-! DEFINITION. Scalar loads, stores and atomics: majors 0x08 to 0x0A (R121, R136, R139 to R142). A scalar access passes
through one port in program order; the model performs it in its own step, so its class changes nothing. `size` is the
size of the word in bytes, 4, or 2 for a compressed form (R105). -/

namespace Sys2Proof.Machine

/-- The address base + sext(imm7)*scale (R140). -/
def State.offsetAddr (s : State) (b : BitVec 5) (i : BitVec 7) (scale : Nat) : Nat :=
  (s.rs b + i.signExtend 64 * BitVec.ofNat 64 scale).toNat

/-- A value of n bytes as a register holds it: sign-extended or zero-extended (R140). -/
def extendLoad (signed : Bool) (n x : Nat) : Word :=
  if signed then BitVec.ofInt 64 (toSigned (8 * n) x) else BitVec.ofNat 64 x

/-- A load of n bytes at va (R140): checked, then performed; it counts in ld (R135). -/
def State.load (s : State) (size n : Nat) (signed : Bool) (d : BitVec 5) (va : Nat) : Res :=
  s.access .load false va n fun ps =>
    if s.full .ld then s.waitFor .counter
    else
      let x := extendLoad signed n (s.peek ps)
      let t := s.noteReads 0 ps
      if s.lost t then .next t else .next (((t.ws d x).issueOp .ld).skip size)

/-- A store of n bytes of x at va (R140): checked, then performed; it counts in st (R135). -/
def State.storeTo (s : State) (size n : Nat) (x : Word) (va : Nat) : Res :=
  s.access .store false va n fun ps =>
    if s.full .st then s.waitFor .counter
    else
      let t := s.poke 0 false (s.hart.claimOn va n) x.toNat ps
      if s.lost t then .next t else .next (t.issueStore.skip size)

/-- The operations of scalar atomics on w bits (R141): the new value from the old one and the operand; amocas writes
only when the old value is the expected one. -/
inductive AtomicOp where
  | swap
  | add
  | and
  | or
  | xor
  | min
  | max
  | minu
  | maxu
  | cas (expected : Nat)

/-- The new value of an atomic, or none when it performs no write (R141). -/
def AtomicOp.apply (op : AtomicOp) (w old x : Nat) : Option Nat :=
  match op with
  | .swap => some x
  | .add => some ((old + x) % 2 ^ w)
  | .and => some (old &&& x)
  | .or => some (old ||| x)
  | .xor => some (old ^^^ x)
  | .min => some (if toSigned w old < toSigned w x then old else x)
  | .max => some (if toSigned w old < toSigned w x then x else old)
  | .minu => some (Nat.min old x)
  | .maxu => some (Nat.max old x)
  | .cas e => if old = e then some x else none

/-- A scalar atomic on n bytes at s[base] (R141): one access, aligned, with read and write permission (R274); it counts
in st. -/
def State.atomic (s : State) (n : Nat) (op : AtomicOp) (b a d : BitVec 5) : Res :=
  let va := (s.rs a).toNat
  s.access .update true va n fun ps =>
    if s.full .st then s.waitFor .counter
    else
      let old := s.peek ps
      let x := (s.rs b).toNat % 2 ^ (8 * n)
      let t := match op.apply (8 * n) old x with
        | some y => s.poke 0 true none y ps
        | none => s.noteReads 0 ps
      if s.lost t then .next t else (t.issueStore).give d (extendLoad true n old)

/-- lr and lr.w (R142): a load that sets the reservation on its block. A block that a home slice holds for another
hart's constrained sequence is waited for. -/
def State.loadReserve (s : State) (n : Nat) (a d : BitVec 5) : Res :=
  let va := (s.rs a).toNat
  s.access .load true va n fun ps =>
    let block := match ps with
      | p :: _ => p.place.block
      | [] => 0
    if s.pkg.holds.any (fun p => decide (p.1 = block) && decide (p.2 ≠ s.hart.id)) then s.waitFor .engineLine
    else if s.full .st then s.waitFor .counter
    else
      let x := extendLoad true n (s.peek ps)
      let t := s.noteReads 0 ps
      if s.lost t then .next t
      else
        let t := t.on fun h => { h with reservation := some block }
        let t := if t.pkg.holds.any (fun p => decide (p.1 = block)) then t
          else (t.onPkg fun p => { p with holds := (block, s.hart.id) :: p.holds }).due (.reservationHoldExpiry block)
        (t.issueStore).give d x

/-- The holds of a hart end (R142). -/
def State.endHold (s : State) : State :=
  if s.pkg.holds.any fun p => decide (p.2 = s.hart.id) then
    s.onPkg fun p => { p with holds := p.holds.filter fun q => decide (q.2 ≠ s.hart.id) }
  else s

/-- sc and sc.w (R142): stores under a valid reservation on the address's block and writes 0, or writes 1; the
reservation is cleared either way. -/
def State.storeConditional (s : State) (n : Nat) (b a d : BitVec 5) : Res :=
  let va := (s.rs a).toNat
  s.access .store true va n fun ps =>
    if s.full .st then s.waitFor .counter
    else
      let held := match ps with
        | p :: _ => decide (s.hart.reservation = some p.place.block)
        | [] => false
      let x := (s.rs b).toNat % 2 ^ (8 * n)
      let t := if held then s.poke 0 false none x ps else s
      if s.lost t then .next t
      else
        let t := (t.on fun h => { h with reservation := none }).endHold
        (t.issueStore).give d (if held then 0 else 1)

/-- ldb (R140). -/
def execLdb (i : BitVec 7) (_ : BitVec 4) (b d : BitVec 5) (s : State) : Res :=
  s.load 4 1 true d (s.offsetAddr b i 1)

/-- ldh (R140). -/
def execLdh (i : BitVec 7) (_ : BitVec 4) (b d : BitVec 5) (s : State) : Res :=
  s.load 4 2 true d (s.offsetAddr b i 2)

/-- ldw (R140). -/
def execLdw (i : BitVec 7) (_ : BitVec 4) (b d : BitVec 5) (s : State) : Res :=
  s.load 4 4 true d (s.offsetAddr b i 4)

/-- ldd (R140). -/
def execLdd (i : BitVec 7) (_ : BitVec 4) (b d : BitVec 5) (s : State) : Res :=
  s.load 4 8 true d (s.offsetAddr b i 8)

/-- ldbu (R140). -/
def execLdbu (i : BitVec 7) (_ : BitVec 4) (b d : BitVec 5) (s : State) : Res :=
  s.load 4 1 false d (s.offsetAddr b i 1)

/-- ldhu (R140). -/
def execLdhu (i : BitVec 7) (_ : BitVec 4) (b d : BitVec 5) (s : State) : Res :=
  s.load 4 2 false d (s.offsetAddr b i 2)

/-- ldwu (R140). -/
def execLdwu (i : BitVec 7) (_ : BitVec 4) (b d : BitVec 5) (s : State) : Res :=
  s.load 4 4 false d (s.offsetAddr b i 4)

/-- stb (R140). -/
def execStb (i : BitVec 7) (_ : BitVec 4) (b r : BitVec 5) (s : State) : Res :=
  s.storeTo 4 1 (s.rs r) (s.offsetAddr b i 1)

/-- sth (R140). -/
def execSth (i : BitVec 7) (_ : BitVec 4) (b r : BitVec 5) (s : State) : Res :=
  s.storeTo 4 2 (s.rs r) (s.offsetAddr b i 2)

/-- stw (R140). -/
def execStw (i : BitVec 7) (_ : BitVec 4) (b r : BitVec 5) (s : State) : Res :=
  s.storeTo 4 4 (s.rs r) (s.offsetAddr b i 4)

/-- std (R140). -/
def execStd (i : BitVec 7) (_ : BitVec 4) (b r : BitVec 5) (s : State) : Res :=
  s.storeTo 4 8 (s.rs r) (s.offsetAddr b i 8)

/-- amoswap (R141). -/
def execAmoswap (_ : BitVec 4) (b a d : BitVec 5) (s : State) : Res :=
  s.atomic 8 .swap b a d

/-- amoadd (R141). -/
def execAmoadd (_ : BitVec 4) (b a d : BitVec 5) (s : State) : Res :=
  s.atomic 8 .add b a d

/-- amoand (R141). -/
def execAmoand (_ : BitVec 4) (b a d : BitVec 5) (s : State) : Res :=
  s.atomic 8 .and b a d

/-- amoor (R141). -/
def execAmoor (_ : BitVec 4) (b a d : BitVec 5) (s : State) : Res :=
  s.atomic 8 .or b a d

/-- amoxor (R141). -/
def execAmoxor (_ : BitVec 4) (b a d : BitVec 5) (s : State) : Res :=
  s.atomic 8 .xor b a d

/-- amomin (R141). -/
def execAmomin (_ : BitVec 4) (b a d : BitVec 5) (s : State) : Res :=
  s.atomic 8 .min b a d

/-- amomax (R141). -/
def execAmomax (_ : BitVec 4) (b a d : BitVec 5) (s : State) : Res :=
  s.atomic 8 .max b a d

/-- amominu (R141). -/
def execAmominu (_ : BitVec 4) (b a d : BitVec 5) (s : State) : Res :=
  s.atomic 8 .minu b a d

/-- amomaxu (R141). -/
def execAmomaxu (_ : BitVec 4) (b a d : BitVec 5) (s : State) : Res :=
  s.atomic 8 .maxu b a d

/-- amocas (R141): s[sd] is read as the expected value first. -/
def execAmocas (_ : BitVec 4) (b a d : BitVec 5) (s : State) : Res :=
  s.atomic 8 (.cas (s.rs d).toNat) b a d

/-- lr (R142). -/
def execLr (_ : BitVec 4) (a d : BitVec 5) (s : State) : Res :=
  s.loadReserve 8 a d

/-- sc (R142). -/
def execSc (_ : BitVec 4) (b a d : BitVec 5) (s : State) : Res :=
  s.storeConditional 8 b a d

/-- amoswap.w (R141). -/
def execAmoswapW (_ : BitVec 4) (b a d : BitVec 5) (s : State) : Res :=
  s.atomic 4 .swap b a d

/-- amoadd.w (R141). -/
def execAmoaddW (_ : BitVec 4) (b a d : BitVec 5) (s : State) : Res :=
  s.atomic 4 .add b a d

/-- amoand.w (R141). -/
def execAmoandW (_ : BitVec 4) (b a d : BitVec 5) (s : State) : Res :=
  s.atomic 4 .and b a d

/-- amoor.w (R141). -/
def execAmoorW (_ : BitVec 4) (b a d : BitVec 5) (s : State) : Res :=
  s.atomic 4 .or b a d

/-- amoxor.w (R141). -/
def execAmoxorW (_ : BitVec 4) (b a d : BitVec 5) (s : State) : Res :=
  s.atomic 4 .xor b a d

/-- amomin.w (R141). -/
def execAmominW (_ : BitVec 4) (b a d : BitVec 5) (s : State) : Res :=
  s.atomic 4 .min b a d

/-- amomax.w (R141). -/
def execAmomaxW (_ : BitVec 4) (b a d : BitVec 5) (s : State) : Res :=
  s.atomic 4 .max b a d

/-- amominu.w (R141). -/
def execAmominuW (_ : BitVec 4) (b a d : BitVec 5) (s : State) : Res :=
  s.atomic 4 .minu b a d

/-- amomaxu.w (R141). -/
def execAmomaxuW (_ : BitVec 4) (b a d : BitVec 5) (s : State) : Res :=
  s.atomic 4 .maxu b a d

/-- amocas.w (R141): s[sd] is read as the expected value first. -/
def execAmocasW (_ : BitVec 4) (b a d : BitVec 5) (s : State) : Res :=
  s.atomic 4 (.cas ((s.rs d).toNat % 2 ^ 32)) b a d

/-- lr.w (R142). -/
def execLrW (_ : BitVec 4) (a d : BitVec 5) (s : State) : Res :=
  s.loadReserve 4 a d

/-- sc.w (R142). -/
def execScW (_ : BitVec 4) (b a d : BitVec 5) (s : State) : Res :=
  s.storeConditional 4 b a d

end Sys2Proof.Machine
end

