-- ==== Sys2Proof/Machine/Jobs.lean ====
section
/-! DEFINITION. The Loom's own view of jobs: priorities of jobs and harts (R79, R85, R95, R293). -/

namespace Sys2Proof.Machine

/-- What the Loom last read of a QCB (R79); the full range where it has read nothing. -/
def State.view (s : State) (qcb : Word) : QcbView :=
  (s.loom.views.find? fun v => decide (v.qcb = qcb)).getD ⟨qcb, 0, 0, 0, 15, 0, 0⟩

/-- A priority clamped into the range that the Loom last read of a QCB (R79, R80). -/
def State.clampPrio (s : State) (qcb : Word) (p : Nat) : Nat :=
  max (s.view qcb).prioMin.toNat (min p (s.view qcb).prioMax.toNat)

/-- The job of that id in that QCB. -/
def State.job (s : State) (qcb id : Word) : Option Job :=
  s.loom.jobs.find? fun j => decide (j.qcb = qcb) && decide (j.id = id)

/-- A job's record changed. -/
def State.onJob (s : State) (qcb id : Word) (f : Job → Job) : State :=
  { s with loom := { s.loom with
      jobs := s.loom.jobs.map fun j => if j.qcb = qcb ∧ j.id = id then f j else j } }

/-- The job is neither complete nor failed. -/
def Job.open (j : Job) : Bool := decide (j.state = 0) || decide (j.state = 1)

/-- The largest own priority of a job and of those that depend on it (R85), following chains of dependence for at most n links. -/
def State.effectiveFrom (s : State) : Nat → Job → Nat
  | 0, j => s.clampPrio j.qcb j.prio.toNat
  | n + 1, j =>
    let own := s.clampPrio j.qcb j.prio.toNat
    let dependents := s.loom.jobs.filter fun k => k.open && k.deps.any fun d => decide (d.2 = j.pa)
    dependents.foldl (fun p k => max p (s.effectiveFrom n k)) own

/-- The effective priority of a job (R85): no dependent lifts it above its own QCB's prio.max. -/
def State.effective (s : State) (j : Job) : Nat :=
  min (s.view j.qcb).prioMax.toNat (s.effectiveFrom s.loom.jobs.length j)

/-- The issue priority of a hart (R95, R293): its job's effective priority, or its advice context's override clamped
into the range that the Loom last read. -/
def State.issuePriority (s : State) (h : Hart) : Nat :=
  if h.adv.prio = 31 then
    match s.job h.qcb h.job with
    | some j => s.effective j
    | none => h.prio.toNat
  else s.clampPrio h.qcb h.adv.prio.toNat

/-- Every hart's issue priority brought up to date (R79, R85, R95). -/
def State.refreshPriorities (s : State) : State :=
  s.updateAll fun h => if h.active then { h with prio := BitVec.ofNat 4 (s.issuePriority h) } else h

end Sys2Proof.Machine
end

