-- ==== Sys2Proof/Machine/Tile.lean ====
section
/-! DEFINITION. Registered tensors and the tile cache: major 0x1B (R168 to R179). -/

namespace Sys2Proof.Machine

/-- The context's kept bytes (tc.keep.bytes, R178). -/
def Ctx.keptBytes (x : Ctx) : Nat :=
  x.kept.foldl (fun n p => match x.tensor p.tensor with
    | .some t => n + t.tileBytes p.i p.j
    | .none => n) 0

/-- The start of each page that [a, a + n) meets; n > 0. -/
def pagesOf (a n : Nat) : List Nat :=
  (List.range ((a % 4096 + n - 1) / 4096 + 1)).map fun k => ((a / 4096 + k) * 4096) % 2 ^ 64

/-- An address translates in the context now. One whose walk has to wait for an engine or a flip, or finds a poisoned entry, does not
(DESIGN CHOICE, log 9). -/
def State.translates (s : State) (c : BitVec 12) (va : Nat) : Bool :=
  match s.walkIn c va with
  | .page _ _ => true
  | _ => false

/-- Every page of the tile translates (R175). -/
def Tensor.tileMaps (t : Tensor) (i j : Nat) (maps : Nat → Bool) : Bool :=
  let (rows, cols) := t.extent i j
  (List.range rows).all fun r => (pagesOf (t.addr (i * t.t0 + r) (j * t.t1)) (cols * t.esz)).all maps

/-- A tile and the neighbours that the mask of a coordinate register selects, centre first and then by ascending mask
bit, as signed coordinates (R171). -/
def coordTiles (x : Nat) : List (Int × Int) :=
  let i : Int := bits x 23 0
  let j : Int := bits x 47 24
  let around : List (Int × Int) := [(-1, -1), (-1, 0), (-1, 1), (0, -1), (0, 1), (1, -1), (1, 0), (1, 1)]
  (i, j) :: (around.zipIdx.filter fun p => x.testBit (56 + p.2)).map fun p => (i + p.1.1, j + p.1.2)

/-- A descriptor read from memory (R168). -/
def Tensor.ofWords (w0 w1 w2 : Nat) : Tensor where
  base := BitVec.ofNat 64 w0
  fmt := BitVec.ofNat 4 w1
  lt0 := BitVec.ofNat 4 (w1 / 256)
  lt1 := BitVec.ofNat 4 (w1 / 4096)
  place := BitVec.ofNat 2 (w1 / 2 ^ 16)
  pdie := BitVec.ofNat 2 (w1 / 2 ^ 18)
  d0 := BitVec.ofNat 32 w2
  d1 := BitVec.ofNat 32 (w2 / 2 ^ 32)

/-- The descriptor is valid (R168). -/
def tensorValid (w0 w1 w2 w3 : Nat) : Bool :=
  let t := Tensor.ofWords w0 w1 w2
  canonical w0 && decide (w0 % 64 = 0) && (Fmt.ofCode t.fmt.toNat).isSome && decide (bits w1 7 4 = 0) &&
    decide (bits w1 63 20 = 0) && decide (w3 = 0) && decide (t.place ≠ 3) && (decide (t.place = 1) || decide (t.pdie = 0)) &&
    decide (t.d0 ≠ 0) && decide (t.d1 ≠ 0) && decide (t.d1.toNat * t.esz % 64 = 0) && decide (t.t1 * t.esz % 64 = 0) &&
    decide (t.t0 * t.t1 * t.esz ≤ 65536) && decide (t.size ≤ 2 ^ 40)

/-- Two byte ranges meet. -/
def rangesMeet (a n b m : Nat) : Bool := decide (a < b + m) && decide (b < a + n)

/-- A read of the hart outside regions and the local store: the value, or what stops it. -/
def State.readChecked (s : State) (va n : Nat) : Except Stop (Nat × State) :=
  match s.pieces s.hart false .load va n with
  | .error e => .error e
  | .ok ps => .ok (s.peek ps, s.noteReads 0 ps)

/-- treg (R172): reads the descriptor and registers it. -/
def execTreg (_ : BitVec 4) (i b d : BitVec 5) (s : State) : Res :=
  s.outsideRegion <|
    let a := (s.rs b).toNat
    if a % 32 ≠ 0 then s.takeTrap 4 0 0 0 (some a)
    else match s.readChecked a 32 with
      | .error e => s.stopAt 0 e
      | .ok (x, t) =>
        if s.full .ld then s.waitFor .counter
        else
          let w0 := bits x 63 0
          let w1 := bits x 127 64
          let w2 := bits x 191 128
          let w3 := bits x 255 192
          let c := s.ctx s.hart.ctx
          let id := BitVec.ofNat 6 (s.rs i).toNat
          let new := Tensor.ofWords w0 w1 w2
          let r := if !tensorValid w0 w1 w2 w3 then 3
            else if (c.tensor id).isSome then 1
            else if c.tensors.any (fun p => rangesMeet p.2.base.toNat p.2.size w0 new.size) then 2
            else 0
          let t := t.issueOp .ld
          let t := if r = 0 then t.onCtx s.hart.ctx fun c => { c with tensors := c.tensors ++ [(id, new)] } else t
          t.give d (BitVec.ofNat 64 r)

/-- The drop of every line of a tensor (R173): the number of tiles that held one, and fills in flight discarded. A line that two
registrations reach is filed under the one that filled it, and leaves with that one alone (DESIGN CHOICE, log 9). -/
def State.dropTensor (s : State) (c : BitVec 12) (id : BitVec 6) (unregister : Bool) : State × Nat :=
  let mine := fun (t : Tile) => decide (t.ctx = c) && decide (t.tensor = id)
  let n := ((s.pkg.tileCache.filter fun l => mine l.tile).map (·.tile)).eraseDups.length
  let s := { s with agenda := s.agenda.filter fun d => match d with
    | .tileFill c' id' _ _ => !(decide (c' = c) && decide (id' = id))
    | _ => true }
  let s := (s.onPkg fun p => { p with tileCache := p.tileCache.filter fun l => !mine l.tile }).forgetTiles mine
  let s := if unregister then s.onCtx c fun x => { x with
      kept := x.kept.filter fun t => decide (t.tensor ≠ id)
      tensors := x.tensors.filter fun p => decide (p.1 ≠ id) } else s
  (s, min n (2 ^ 32 - 1))

/-- tinv and tunreg (R173). -/
def State.flushTensor (s : State) (unregister : Bool) (i d : BitVec 5) : Res :=
  s.outsideRegion <|
    let id := BitVec.ofNat 6 (s.rs i).toNat
    if ((s.ctx s.hart.ctx).tensor id).isNone then s.give d 0
    else if s.full .st then s.waitFor .counter
    else
      let (t, n) := s.dropTensor s.hart.ctx id unregister
      (t.issueOp .st).give d (BitVec.ofNat 64 n)

/-- tunreg (R173). -/
def execTunreg (i d : BitVec 5) (s : State) : Res := s.flushTensor true i d

/-- tinv (R173). -/
def execTinv (i d : BitVec 5) (s : State) : Res := s.flushTensor false i d

/-- tlook (R174). -/
def execTlook (c i d : BitVec 5) (s : State) : Res :=
  let x := s.ctx s.hart.ctx
  let id := BitVec.ofNat 6 (s.rs i).toNat
  let co := (s.rs c).toNat
  let ti := bits co 23 0
  let tj := bits co 47 24
  match x.tensor id with
  | none => s.give d 0x20
  | some t =>
    if !t.inRange ti tj then s.give d 0x20
    else
      let p : Tile := ⟨s.hart.ctx, id, ti, tj⟩
      let lines := s.tileLines p
      let flags := (if lines.isEmpty then 0 else 1) + s.tileDie s.hart.ctx t ti tj * 2 + (if x.kept.elem p then 8 else 0) +
        (if lines.any (·.dirty) then 16 else 0)
      s.give d (BitVec.ofNat 64 (t.addr (ti * t.t0) (tj * t.t1) ||| flags))

/-- A prefetch of tiles in a context (R175): each tile of the fetch that is in range and maps is filled by `fill`; the others are
dropped and counted. -/
def State.fetchTiles (s : State) (c : BitVec 12) (id : BitVec 6) (co : Nat) (maps : Nat → Bool)
    (fill : State → Tensor → Nat → Nat → State) : State :=
  match (s.ctx c).tensor id with
  | none => s.count c 0x742 0 (coordTiles co).length
  | some t => (coordTiles co).foldl (fun s p =>
      let (i, j) := p
      if i < 0 || j < 0 || !t.inRange i.toNat j.toNat then s.count c 0x742 0 1
      else if !t.tileMaps i.toNat j.toNat maps then s.count c 0x742 0 1
      else fill s t i.toNat j.toNat) s

/-- tfetch (R175). -/
def execTfetch (c i : BitVec 5) (s : State) : Res :=
  let id := BitVec.ofNat 6 (s.rs i).toNat
  s.outsideRegion (s.fetchTiles s.hart.ctx id (s.rs c).toNat (s.translates s.hart.ctx) fun s _ i j => s.due (.tileFill s.hart.ctx id i j)).done

/-- Keeps made or released for a context (R176): centre first, stopping at the first tile beyond the quota. -/
def Ctx.keepTiles (x : Ctx) (c : BitVec 12) (quota : Nat) (id : BitVec 6) (t : Tensor) (release : Bool) : List (Int × Int) → Ctx
  | [] => x
  | (i, j) :: rest =>
    if i < 0 || j < 0 || !t.inRange i.toNat j.toNat then x.keepTiles c quota id t release rest
    else
      let p : Tile := ⟨c, id, i.toNat, j.toNat⟩
      if release then
        Ctx.keepTiles { x with kept := x.kept.filter fun q => decide (q ≠ p) } c quota id t release rest
      else if x.kept.elem p then x.keepTiles c quota id t release rest
      else if x.keptBytes + t.tileBytes i.toNat j.toNat > quota then x
      else Ctx.keepTiles { x with kept := x.kept ++ [p] } c quota id t release rest

/-- The keeps of a coordinate register applied; the context's kept bytes afterwards. -/
def State.keep (s : State) (c : BitVec 12) (id : BitVec 6) (co : Nat) : State × Nat :=
  let s := match (s.ctx c).tensor id with
    | none => s
    | some t => s.onCtx c fun x =>
        x.keepTiles c (s.tenant (tenantOf c)).kquota.toNat id t (co.testBit 48) (coordTiles co)
  (s, (s.ctx c).keptBytes)

/-- tkeep (R176). -/
def execTkeep (c i d : BitVec 5) (s : State) : Res :=
  s.outsideRegion <|
    let (t, n) := s.keep s.hart.ctx (BitVec.ofNat 6 (s.rs i).toNat) (s.rs c).toNat
    t.give d (BitVec.ofNat 64 n)

/-- One element of a thalo: its offset from the destination, and its address where it lies inside the tensor. -/
structure HaloCell where
  off : Nat
  src : Option Nat

/-- The elements that a thalo writes, in order (R177). -/
def haloCells (t : Tensor) (i j k : Nat) : List HaloCell :=
  let W := t.t1 + 2 * k
  (List.range (t.t0 + 2 * k)).flatMap fun (a : Nat) => (List.range W).map fun (b : Nat) =>
    -- row i*t0 - k + a, column j*t1 - k + b
    let r : Int := i * t.t0 + a - k
    let c : Int := j * t.t1 + b - k
    ⟨(a * W + b) * t.esz, if 0 ≤ r ∧ r < t.d0.toNat ∧ 0 ≤ c ∧ c < t.d1.toNat then some (t.addr r.toNat c.toNat) else none⟩

/-- The first stop among some, by the order of causes (R301). -/
def worstStop : List Stop → Option Stop
  | [] => none
  | e :: rest => match worstStop rest with
    | some f => if f.rank < e.rank then some f else some e
    | none => some e

/-- The values of the source elements of a thalo, or the stop of its checks. -/
def State.haloSources (s : State) (esz : Nat) (cells : List HaloCell) : Except Stop (List (List Piece)) :=
  let tries := cells.map fun c => match c.src with
    | none => (Except.ok [] : Except Stop (List Piece))
    | some a => s.pieces s.hart false .load a esz
  let stops := tries.filterMap fun r => match r with
    | .error e => some e
    | .ok _ => none
  match worstStop stops with
  | some e => .error e
  | none => .ok (tries.map fun r => match r with
    | .ok ps => ps
    | .error _ => [])

/-- thalo (R177). Its causes come in the order of R301, so a misaligned destination comes first on a control core too. -/
def execThalo (_ : BitVec 4) (c i d : BitVec 5) (s : State) : Res :=
  s.outsideRegion <|
    let h := s.hart
    let dst := (s.rs d).toNat
    let co := (s.rs c).toNat
    let k := bits co 55 48
    if dst % 8 ≠ 0 then s.takeTrap 4 0 0 0 (some dst)
    else if h.id.control then s.denied
    else match (s.ctx h.ctx).tensor (BitVec.ofNat 6 (s.rs i).toNat) with
      | none => s.denied
      | some t =>
        let total := (t.t0 + 2 * k) * (t.t1 + 2 * k) * t.esz
        let cells := haloCells t (bits co 23 0) (bits co 47 24) k
        let sources := s.haloSources t.esz cells
        let destination := s.pieces h true .store dst 1
        match sources with
          | .error (.trap 5 u a) => s.stopWith (cells.filterMap (·.src)) 0 (.trap 5 u a)
          | _ =>
            if k > 64 || 65536 < total then s.denied
            else if (List.range ((total + 32767) / 32768 + 1)).any (fun n =>
                let a := dst + min (n * 32768) (total - 1)
                !inWindow a || !s.ownPart h (a - windowBase)) then
              s.takeTrap 6 0 0 0 (some (match destination with
                | .ok _ => dst + total - 1
                | .error _ => dst))
            else if rangesMeet t.base.toNat t.size windowBase (2 ^ 18) then s.takeTrap 6 0 0 0 (some windowBase)
            else match sources with
              | .error e => s.stopWith (cells.filterMap (·.src)) 0 e
              | .ok ps =>
                if s.full .ld then s.waitFor .counter
                else
                  let values := ps.map s.peek
                  let s := (cells.zip ps).foldl (fun s p => match p.1.src with
                    | some _ => s.noteReads 0 p.2
                    | none => s) s
                  let off := dst - windowBase
                  let bytes := (cells.zip values).flatMap fun p =>
                    (toBytes t.esz p.2).zipIdx.map fun b => (storeKey h.id (off + p.1.off) + b.2, b.1)
                  let s := (bytes.map fun b => (Place.store b.1).block).eraseDups.foldl State.clearReservations s
                  ((State.heal { s with lstore := s.lstore.setBytes bytes } [] (bytes.map (·.1))).issueOp .ld).done

end Sys2Proof.Machine
end

