-- ==== Sys2Proof/Machine/Advice.lean ====
section
/-! DEFINITION. The advice sequencer (17_advice.md): mark events, realignment, and the advice instructions. Each
meaning runs one word of the context of the hart that stands first. No advice action changes a register of the
hart, memory, or a trap (R294). -/

namespace Sys2Proof.Machine

/-- The hart's advice context changed. -/
def State.onAdv (s : State) (f : Advice → Advice) : State := s.on fun h => { h with adv := f h.adv }

/-- Advice register n; x0 reads zero (R286). -/
def Advice.get (a : Advice) (n : BitVec 4) : Word := if n = 0 then 0 else Vector.get a.x n.toFin

/-- A write of an advice register; x0 discards it (R286). -/
def Advice.set (a : Advice) (n : BitVec 4) (v : Word) : Advice :=
  if n = 0 then a else { a with x := a.x.set n.toNat v n.isLt }

/-- An idle context examines the events that are queued, in order, until one has an entry (R289, R291). -/
def Advice.examine (a : Advice) : List (BitVec 12) → Advice
  | [] => { a with queue := [], state := .idle, realignNext := true }
  | j :: rest => match (a.index.filter fun e => decide (e.1 ≤ j)).getLast? with
    | some e => { a with queue := rest, apc := BitVec.ofNat 32 e.2, state := .running, realignNext := false }
    | none => a.examine rest

/-- realign(j) (R289) with the events queued behind j: the entry of largest k not above j, or idle until the next event, which
is examined in turn. -/
def Advice.realign (a : Advice) (j : BitVec 12) (rest : List (BitVec 12)) : Advice := a.examine (j :: rest)

/-- The running contexts of a core (R287). -/
def State.advisers (s : State) (core : Nat) : List Hart :=
  s.harts.filter fun h => !h.id.control && decide (globalCore h.id = core) && decide (h.adv.state = .running)

/-- The sequencer of a core takes another turn if a context of it runs (R287). -/
def State.adviceAgain (s : State) (core : Nat) : State :=
  if (s.advisers core).isEmpty || s.agenda.elem (.advice core) then s else s.due (.advice core)

/-- The sequencer of the core of the hart that stands first takes another turn if a context runs (R287). -/
def State.adviceTurn (s : State) : State := s.adviceAgain (globalCore s.hart.id)

/-- The word is done: apc + 4. -/
def State.adviceDone (s : State) (f : Advice → Advice) : Res :=
  .next (s.onAdv fun a => let b := f a; { b with apc := b.apc + 4 }).adviceTurn

/-- A mark event of the hart appended to its context's queue (R287), which wakes a context that waits for one. A control core
has no context. -/
def State.markEvent (s : State) (k : BitVec 12) : State :=
  if s.hart.id.control then s
  else
    let s := if s.hart.adv.queue.length < 8 then s.onAdv fun a => { a with queue := a.queue ++ [k] }
      else (s.onAdv fun a => { a with queue := [k] }).count s.hart.ctx 0x793 0 8
    match s.hart.adv.state with
    | .awaiting => (s.onAdv fun a => { a with state := .running }).adviceTurn
    | .idle => if s.hart.adv.realignNext then (s.onAdv fun a => a.examine a.queue).adviceTurn else s
    | _ => s

/-- A fetch outside the advice code (R291). -/
def State.adviceStray (s : State) : State :=
  ((s.onAdv fun a => a.examine a.queue).count s.hart.ctx 0x794 0 1).adviceTurn

/-- A context reset at a task start (R286) with the image then loaded (R296), or with none. -/
def Advice.fresh (image : Option AdviceImage) (control : Bool) : Advice :=
  match image with
  | some i => if control then Advice.idle
    else { Advice.idle with state := .running, code := i.code, index := i.index, loaded := true }
  | none => Advice.idle

/-- A context restarted when its hart resumes (R290). -/
def Advice.restart (a : Advice) (mark : BitVec 13) : Advice :=
  if !a.loaded then Advice.idle
  else
    let b := { Advice.idle with state := .running, code := a.code, index := a.index, loaded := true }
    if mark.getLsbD 12 then b.realign (mark.setWidth 12) [] else b

/-- What await finds in the queue (R289): the events left, and the event that ends the wait. -/
def awaitQueue (k : BitVec 12) : List (BitVec 12) → List (BitVec 12) × Option (BitVec 12)
  | [] => ([], none)
  | j :: rest => if j < k then awaitQueue k rest else (rest, some j)

/-- anop (R291). -/
def execAnop (s : State) : Res := s.adviceDone id

/-- ali (R291). -/
def execAli (d : BitVec 4) (i : BitVec 18) (s : State) : Res := s.adviceDone fun a => a.set d (i.signExtend 64)

/-- ashor (R291). -/
def execAshor (d a : BitVec 4) (i : BitVec 18) (s : State) : Res :=
  s.adviceDone fun c => c.set d ((c.get a <<< 18) ||| i.setWidth 64)

/-- aadd (R291). -/
def execAadd (d a b : BitVec 4) (s : State) : Res := s.adviceDone fun c => c.set d (c.get a + c.get b)

/-- aaddi (R291). -/
def execAaddi (d a : BitVec 4) (i : BitVec 18) (s : State) : Res :=
  s.adviceDone fun c => c.set d (c.get a + i.signExtend 64)

/-- asll (R291). -/
def execAsll (d a : BitVec 4) (i : BitVec 18) (s : State) : Res :=
  s.adviceDone fun c => c.set d (c.get a <<< i.toNat)

/-- amark (R291). -/
def execAmark (d : BitVec 4) (s : State) : Res := s.adviceDone fun c => c.set d (s.hart.mark.setWidth 64)

/-- The apc moved by a signed number of words. -/
def State.adviceHop {w : Nat} (s : State) (taken : Bool) (o : BitVec w) : Res :=
  .next (s.onAdv fun a => { a with apc := if taken then a.apc + (o.signExtend 32 <<< 2) else a.apc + 4 }).adviceTurn

/-- ajmp (R291). -/
def execAjmp (o : BitVec 18) (s : State) : Res := s.adviceHop true o

/-- abeq (R291). -/
def execAbeq (a b : BitVec 4) (o : BitVec 14) (s : State) : Res :=
  s.adviceHop (s.hart.adv.get a = s.hart.adv.get b) o

/-- abne (R291). -/
def execAbne (a b : BitVec 4) (o : BitVec 14) (s : State) : Res :=
  s.adviceHop (s.hart.adv.get a ≠ s.hart.adv.get b) o

/-- await (R289). -/
def execAwait (k : BitVec 12) (s : State) : Res :=
  match awaitQueue k s.hart.adv.queue with
  | (rest, none) => .next (s.onAdv fun a => { a with queue := rest, state := .awaiting })
  | (rest, some j) =>
    if j = k then s.adviceDone fun a => { a with queue := rest }
    else .next ((s.onAdv fun a => a.realign j rest).count s.hart.ctx 0x790 0 1).adviceTurn

/-- adelay (R291). -/
def execAdelay (n : BitVec 18) (s : State) : Res :=
  .next (s.onAdv fun a => { a with apc := a.apc + 4, state := .delaying, delay := n })

/-- aend (R289). -/
def execAend (s : State) : Res :=
  match s.hart.adv.queue with
  | [] => .next (s.onAdv fun a => { a with state := .awaiting })
  | j :: rest => .next (s.onAdv fun a => a.realign j rest).adviceTurn

/-- The line that a hart's context prefetches, or none where it is dropped (R292, R294): translated as the hart's own load. -/
def State.prefetchable (s : State) (h : Hart) (va : Nat) : Option Nat :=
  if inWindow va then none
  else match s.walkFor h va with
    | .page pa rwx => if !Perm.load.allowed rwx || s.owned (pa / 64) then none else some (pa / 64)
    | _ => none

/-- A line prefetched into a level (R170, R292): a line of no registered tensor, prefetched for the tile cache, goes to L2. -/
def State.fillLevel (s : State) (h : Hart) (level : PrefetchLevel) (va line : Nat) : State :=
  match level, (s.ctx h.ctx).tileAt h.ctx va with
  | .tc, some t => if s.atHost line then s else s.fileLine t line false
  | .l1, _ => s.prefetchLine h.accessor va line
  | _, _ => s.prefetchLine h.engine va line

/-- A line prefetched, its translation installed, or dropped and counted (R292, R297). -/
def State.prefetchInto (s : State) (h : Hart) (level : PrefetchLevel) (va : Nat) : State :=
  match s.prefetchable h va with
  | some l => (s.keepTranslation h va).fillLevel h level va l
  | none => s.count h.ctx 0x792 0 1

/-- A walk of a hart of the core may be waiting (R297): one of them waits for an engine's line or for its own contributions. -/
def State.walkerBusy (s : State) (core : Nat) : Bool :=
  s.harts.any fun h => h.active && !h.id.control && decide (globalCore h.id = core) &&
    (decide (h.wait = some .engineLine) || decide (h.wait = some .reduction))

/-- A line that misses in the buffer is not walked yet (R297): a walk of the semantic program waits, or the line's own has to. -/
def State.prefetchWaits (s : State) (h : Hart) (va : Nat) : Bool :=
  (s.translation h va).isNone && (s.walkerBusy (globalCore h.id) || decide (s.walkFor h va = .wait))

/-- The first lines, at most `room` of the n from an address on, that nothing of the address itself drops (R292). -/
def goodLines : Nat → Nat → Nat → List Nat
  | 0, _, _ => []
  | _, 0, _ => []
  | n + 1, room + 1, va =>
    let next := (va + 64) % 2 ^ 64
    if canonical va && !inWindow va then va :: goodLines n room next else goodLines n (room + 1) next

/-- Lines as runs: the first line of each, and their number. -/
def runsOf : List Nat → List (Nat × Nat)
  | [] => []
  | a :: rest => match runsOf rest with
    | (b, n) :: more => if a + 64 = b then (a, n + 1) :: more else (a, 1) :: (b, n) :: more
    | [] => [(a, 1)]

/-- The prefetch of n lines from an address (R292): at most 16 lines in flight. Lines with no canonical address and those of the window
take no place among them; these, and the lines beyond, are dropped and counted. -/
def State.prefetch (s : State) (level : PrefetchLevel) (a : BitVec 4) (n : BitVec 18) : Res :=
  let lines := goodLines n.toNat (16 - s.hart.adv.inFlight) ((s.hart.adv.get a).toNat / 64 * 64)
  let take := lines.length
  let t := if take < n.toNat then s.count s.hart.ctx 0x792 0 (n.toNat - take) else s
  let t := (runsOf lines).foldl (fun t r => t.due (.advicePrefetchWalk s.hart.id level (BitVec.ofNat 64 r.1) r.2)) t
  t.adviceDone fun c => { c with inFlight := c.inFlight + take }

/-- apf.l1 (R292). -/
def execApfL1 (a : BitVec 4) (n : BitVec 18) (s : State) : Res := s.prefetch .l1 a n

/-- apf.l2 (R292). -/
def execApfL2 (a : BitVec 4) (n : BitVec 18) (s : State) : Res := s.prefetch .l2 a n

/-- apf.tc (R292). -/
def execApfTc (a : BitVec 4) (n : BitVec 18) (s : State) : Res := s.prefetch .tc a n

/-- A line of an advised tile (R292, R297): dropped where 16 lines are in flight, itself in flight where its walk has to wait. -/
def State.fetchAdvised (s : State) (va : Nat) : State :=
  if 16 ≤ s.hart.adv.inFlight then s.count s.hart.ctx 0x792 0 1
  else if s.prefetchWaits s.hart va then
    (s.onAdv fun c => { c with inFlight := c.inFlight + 1 }).due (.advicePrefetchWalk s.hart.id .tc (BitVec.ofNat 64 va) 1)
  else s.prefetchInto s.hart .tc va

/-- An address of an advised tile translates as the hart's own load would (R294), or has its walk still to come (R297). -/
def State.advisedMaps (s : State) (va : Nat) : Bool :=
  s.prefetchWaits s.hart va || match s.walkFor s.hart va with
    | .page _ _ => true
    | _ => false

/-- atfetch (R292): as tfetch, but that each line is translated as the hart's own load, and dropped as a prefetched one. -/
def execAtfetch (a b : BitVec 4) (s : State) : Res :=
  (s.fetchTiles s.hart.ctx (BitVec.ofNat 6 (s.hart.adv.get a).toNat) (s.hart.adv.get b).toNat s.advisedMaps fun s t i j =>
    (t.lineAddrs i j).foldl State.fetchAdvised s).adviceDone id

/-- akeep (R292). -/
def execAkeep (d a b : BitVec 4) (s : State) : Res :=
  let (t, n) := s.keep s.hart.ctx (BitVec.ofNat 6 (s.hart.adv.get a).toNat) (s.hart.adv.get b).toNat
  t.adviceDone fun c => c.set d (BitVec.ofNat 64 n)

/-- aprio (R293). -/
def execAprio (p : BitVec 18) (s : State) : Res :=
  let p5 : BitVec 5 := p.setWidth 5
  let s := s.onAdv fun a => { a with prio := p5 }
  let s := if p5 ≠ 31 ∧ s.clampPrio s.hart.qcb p5.toNat ≠ p5.toNat then s.count s.hart.ctx 0x795 0 1 else s
  let q := s.issuePriority s.hart
  (s.on fun h => { h with prio := BitVec.ofNat 4 q }).adviceDone id

/-- aorder (R293): the order among ready instructions of one hart; the model issues them in program order. -/
def execAorder (m : BitVec 18) (s : State) : Res := s.adviceDone fun a => { a with order := m.setWidth 2 }

/-- aplace (R293). -/
def execAplace (a : BitVec 4) (s : State) : Res := s.adviceDone fun c => { c with place := (c.get a).setWidth 9 }

/-- A word that is not an advice instruction (R76, R291). -/
def execAdviceWordDrop (s : State) : Res := (s.count s.hart.ctx 0x791 0 1).adviceDone id

/-- The delay of a context runs out (R291). -/
def execAdelayExpiry (who : AgentId) (s : State) : Res :=
  match s.find who with
  | none => .fault .notDue
  | some h =>
    if h.adv.state = .delaying ∧ h.adv.delay = 0 then
      .next ((s.update who fun h => { h with adv := { h.adv with state := .running, delay := 0 } }).adviceAgain (globalCore who))
    else .fault .notDue

/-- One line in flight is prefetched or dropped, and in flight no more; or it waits for its walk (R292, R297). -/
def State.landLine (s : State) (who : AgentId) (level : PrefetchLevel) (va : Nat) : State :=
  match s.find who with
  | none => s
  | some h =>
    if s.prefetchWaits h va then s.due (.advicePrefetchWalk who level (BitVec.ofNat 64 va) 1)
    else (s.prefetchInto h level va).update who fun h => { h with adv := { h.adv with inFlight := h.adv.inFlight - 1 } }

/-- The walker walks for a context's prefetched lines, installing nothing on failure (R297). -/
def execAdvicePrefetchWalk (who : AgentId) (level : PrefetchLevel) (addr : Word) (lines : Nat) (s : State) : Res :=
  match s.find who with
  | none => .fault .notDue
  | some h =>
    if h.adv.inFlight < lines ∨ lines = 0 then .fault .notDue
    else
      let base := addr.toNat / 64 * 64
      .next ((List.range lines).foldl (fun s k => s.landLine who level ((base + 64 * k) % 2 ^ 64)) s)

/-- The prefetches that some harts have issued are carried out before their contexts end (R290, R298): they stay issued. -/
def State.flushPrefetches (s : State) (ids : List AgentId) : State :=
  s.agenda.foldl (fun t d => match d with
    | .advicePrefetchWalk who level addr lines =>
      if ids.elem who then match execAdvicePrefetchWalk who level addr lines t with
        | .next u => u
        | _ => t
      else t
    | _ => t) s

end Sys2Proof.Machine
end

