-- ==== Sys2Proof/Machine/Operands.lean ====
section
/-! DEFINITION. Vector operands: registers and streams (R67, R138, R155, R226), and the writing of a vector register
(R137). A stream operand's element e, from vstart up, is the next element of its stream. -/

namespace Sys2Proof.Machine

/-- Why an instruction does not start: a stream trap, a stream lost to a dead engine, a wait, or a form that a region
forbids. -/
inductive Hold where
  | trap (code sub : Nat)
  | dead (stream : Nat)
  | forbidden
  | wait (r : Wait)
deriving DecidableEq, Repr

/-- The outcome of an instruction that does not start. -/
def State.holdBack (s : State) : Hold → Res
  | .trap code sub => s.trapAt code sub
  | .dead k => s.lostTrap (· = 64 + k)
  | .forbidden => s.forbidden
  | .wait r => s.waitFor r

/-- A vector source: its field, and the width in bits at which it is read. -/
structure Source where
  field : BitVec 6
  sew : Nat
deriving DecidableEq, Repr

/-- A vector operand field names a stream (R67). -/
def isStream (v : BitVec 6) : Bool := decide (48 ≤ v.toNat)

/-- The handle that a stream field is bound to. -/
def Hart.bound (h : Hart) (v : BitVec 6) : Option (BitVec 5) := h.q.getD (v.toNat - 48) none

/-- The copy of a handle. -/
def Hart.copyOf (h : Hart) (i : BitVec 5) : Option Copy := h.copy.getD i.toNat none

/-- A copy of the hart changed. -/
def Hart.onCopy (h : Hart) (i : BitVec 5) (f : Copy → Copy) : Hart :=
  { h with copy := h.copy.setIfInBounds i.toNat ((h.copyOf i).map f) }

/-- The element size of a copy in bits. -/
def Copy.sew (c : Copy) : Nat := ((Fmt.ofCode c.fmt.toNat).getD .f64).sew

/-- Register vk is an empty pushed register (R159), or of a collective call in progress (R161). -/
def Hart.isEmpty (h : Hart) (v : BitVec 6) : Bool := h.empty.getLsbD v.toNat

/-- The elements that an instruction consumes from a stream: those from vstart to g (R155). -/
def Hart.span (h : Hart) : Nat := h.g - h.vstart.toNat

/-- The trap of a stream register that is not bound (R155), or whose copy was lost to a dead engine (R316). -/
def Hart.unboundTrap (h : Hart) (v : BitVec 6) : Hold :=
  if h.lost.elem (64 + (v.toNat - 48)) then .dead (v.toNat - 48) else .trap 3 0

/-- Why a stream source traps (R155). -/
def Hart.sourceTrap (h : Hart) (x : Source) : Option Hold :=
  match h.bound x.field with
  | none => some (h.unboundTrap x.field)
  | some i => match h.copyOf i with
    | none => some (.trap 3 0)
    | some c => if c.kind ≠ 0 then some (.trap 3 1) else if c.sew ≠ x.sew then some (.trap 3 2) else none

/-- Why a stream destination traps (R155). -/
def Hart.destTrap (h : Hart) (d : BitVec 6) (sew : Nat) : Option Hold :=
  match h.bound d with
  | none => some (h.unboundTrap d)
  | some i => match h.copyOf i with
    | none => some (.trap 3 0)
    | some c => if c.kind ≠ 1 then some (.trap 3 1) else if c.sew ≠ sew then some (.trap 3 2) else none

/-- The first of some reasons. -/
def firstHold : List (Option Hold) → Option Hold
  | [] => none
  | some x :: _ => some x
  | none :: rest => firstHold rest

/-- Whether the elements of a stream source have arrived, `before` earlier occurrences of the stream consuming first. -/
def Hart.arrived (h : Hart) (v : BitVec 6) (before : Nat) : Bool :=
  match h.bound v with
  | none => true
  | some i => match h.copyOf i with
    | none => true
    | some c => decide (min ((before + 1) * h.span) (c.n.toNat - c.pos) ≤ c.data.length)

/-- How many earlier sources name the same stream. -/
def occurrences (v : BitVec 6) (xs : List Source) : Nat := (xs.filter fun x => decide (x.field = v)).length

/-- A strip of g elements finds no free strip buffer in the stream of a field (R39): four buffers hold what the engine has not
yet taken. -/
def Hart.noBuffer (h : Hart) (v : BitVec 6) : Bool :=
  match h.bound v with
  | none => false
  | some i => match h.copyOf i with
    | none => false
    | some c => decide (4 * h.mvl c.sew < c.pos - c.got + min h.g (c.n.toNat - c.pos))

/-- Why an instruction with these sources, and this destination and its width, does not start (R39, R155, R159, R199):
traps first, then waits. -/
def State.hold (s : State) (srcs : List Source) (dst : Option Source) : Option Hold :=
  let h := s.hart
  let fields := srcs ++ dst.toList
  let region := if h.region.isSome && fields.any fun x => isStream x.field then some Hold.forbidden else none
  let traps := (srcs.map fun x => if isStream x.field then h.sourceTrap x else none) ++
    [match dst with
      | some d => if isStream d.field then h.destTrap d.field d.sew else none
      | none => none]
  let empties := fields.map fun x =>
    if !isStream x.field && h.isEmpty x.field then some (Hold.wait .emptyRegister) else none
  let waits := srcs.zipIdx.map fun p =>
    if isStream p.1.field && !h.arrived p.1.field (occurrences p.1.field (srcs.take p.2)) then some (Hold.wait .stream)
    else none
  let room := match dst with
    | some d => if isStream d.field && h.noBuffer d.field then some (Hold.wait .strip) else none
    | none => none
  firstHold (region :: (traps ++ empties ++ waits ++ [room]))

/-- The value of a source as a packed register (R155, R226): a stream gives its next elements from vstart on, zero at
padding and beyond its end. Those below vstart it does not give again: free values (DESIGN CHOICE, log 35). -/
def Hart.sourceValue (h : Hart) (x : Source) (before : Nat) : Nat :=
  if isStream x.field then
    match h.bound x.field with
    | none => 0
    | some i => match h.copyOf i with
      | none => 0
      | some c => pack x.sew h.g fun e =>
          if e < h.vstart.toNat then (Config.passed c.order c.pos e).toNat % 2 ^ x.sew
          else c.data.getD (before * h.span + (e - h.vstart.toNat)) 0
  else h.getV x.field.toNat

/-- The values of the sources, in order; the first textual occurrence of a stream consumes first. -/
def Hart.sourceValues (h : Hart) (srcs : List Source) : List Nat :=
  srcs.zipIdx.map fun p => h.sourceValue p.1 (occurrences p.1.field (srcs.take p.2))

/-- What is left of a copy's buffers when an instruction that names its stream k times, for `span` elements each, has consumed
the first n of each: the others are delivered again (R155). -/
def Copy.consumed (c : Copy) (k span n : Nat) : Copy :=
  let kept := (List.range c.data.length).filter fun j => decide (k * span ≤ j) || decide (n ≤ j % span)
  let gone := c.data.length - kept.length
  let pos := c.pos + gone
  let moved := fun (l : List Nat) =>
    kept.zipIdx.filterMap (fun q => if l.elem (c.pos + q.1) then some (pos + q.2) else none) ++ l.filter (c.pos + c.data.length ≤ ·)
  { c with
    pos := pos
    data := kept.map fun j => c.data.getD j 0
    poisoned := moved c.poisoned
    spoiled := moved c.spoiled
    apart := max (c.apart - gone) (if 2 ≤ k ∧ 0 < n ∧ n < span then k * (span - n) else 0) }

/-- The stream of a field consumed by an instruction that names it k times and has performed n elements (R154, R155). Where it
is complete, a kind-0 copy whose last element is consumed frees its handle; otherwise room in its strip buffers makes the next
arrival due. -/
def State.consume (s : State) (v : BitVec 6) (k n : Nat) (complete : Bool) : State :=
  match s.hart.bound v with
  | none => s
  | some i => match s.hart.copyOf i with
    | none => s
    | some c =>
      let d := c.consumed k s.hart.span n
      if complete && decide (d.pos = c.n.toNat) then s.on fun h => (h.freeHandle i.toNat).unbindHandle i.toNat
      else
        let s := s.on fun h => h.onCopy i fun _ => d
        let ev : Due := .streamStripArrival s.hart.id i
        if c.got < c.n.toNat ∧ ev ∉ s.agenda then s.due ev else s

/-- The stream sources among some consumed by an instruction that has performed n elements. -/
def State.consumeUpTo (s : State) (srcs : List Source) (n : Nat) (complete : Bool) : State :=
  ((srcs.map (·.field)).filter isStream).eraseDups.foldl (fun t v => t.consume v (occurrences v srcs) n complete) s

/-- The stream sources among some consumed by an instruction that is complete. -/
def State.consumeAll (s : State) (srcs : List Source) : State := s.consumeUpTo srcs s.hart.span true

/-- Elements pushed into the stream of a field (R39, R154, R155): those at or beyond n are discarded, and the last one
makes the copy's completion due and unbinds the stream. -/
def State.push (s : State) (v : BitVec 6) (xs : List Nat) : State :=
  match s.hart.bound v with
  | none => s
  | some i => match s.hart.copyOf i with
    | none => s
    | some c =>
      let pos := min (c.pos + xs.length) c.n.toNat
      let s := s.on fun h => h.onCopy i fun c =>
        { c with pos := pos, data := c.data ++ xs.take (c.n.toNat - c.pos) }
      let ev : Due := .streamStripArrival s.hart.id i
      if pos = c.n.toNat then
        (s.on fun h => { h.unbindHandle i.toNat with h := h.h.setIfInBounds i.toNat .draining }).due
          (.copyComplete s.hart.id i)
      else if ev ∈ s.agenda then s else s.due ev

/-- Element e of a destination after an instruction (R137). `stop` is the element at which it stopped inside, if it
did; `keeps` says which tail elements keep their values under tail-dead. -/
def Hart.destElem (h : Hart) (mask : Nat) (stop : Option Nat) (keeps : Nat → Bool) (old new : Nat → Nat) (e : Nat) : Nat :=
  if e < h.vstart.toNat then old e
  else if e < stop.getD h.g then
    if mask.testBit e then new e else if h.maskZero then 0 else old e
  else if stop.isSome then old e
  else if e < h.vl.toNat then 0
  else match h.tailPolicy with
    | 0 => old e
    | 1 => if keeps e then old e else 0
    | _ => 0

/-- A destination register after an instruction (R137), elements of sew bits. -/
def Hart.destReg (h : Hart) (sew mask : Nat) (stop : Option Nat) (keeps : Nat → Bool) (old : Nat) (new : Nat → Nat) : Nat :=
  pack sew (h.mvl sew) fun e => h.destElem mask stop keeps (elem old sew) new e

/-- Whether an instruction writes element e of its destination rather than keeping its old value (R137). -/
def Hart.writes (h : Hart) (mask : Nat) (stop : Option Nat) (keeps : Nat → Bool) (e : Nat) : Bool :=
  if e < h.vstart.toNat then false
  else if e < stop.getD h.g then mask.testBit e || h.maskZero
  else if stop.isSome then false
  else if e < h.vl.toNat then true
  else match h.tailPolicy with
    | 0 => false
    | 1 => !keeps e
    | _ => true

/-- The slots that a destination's elements of sew bits fill whole, and the rows that instructions write an element of: those
below vl (R35, R313). -/
def Hart.wrote (h : Hart) (n sew : Nat) (p : Nat → Bool) : Hart :=
  if h.parity.isEmpty && h.pooled.getD n 0 = 0 then h
  else
    let k := 64 / sew
    let row := h.lanes * k
    h.goodV n (fun slot => (List.range k).all fun j => p (slot * k + j))
      (fun r => (List.range row).any fun j => p (r * row + j) && decide (r * row + j < h.vl.toNat))

/-- Vector register n written by R137, but for the elements that `kept` names, whose `new` is what they held. -/
def State.writeBut (s : State) (n sew mask : Nat) (stop : Option Nat) (kept : Nat → Bool) (new : Nat → Nat) : State :=
  (s.fresh).on fun h =>
    (h.wrote n sew fun e => h.writes mask stop (Config.keepsTail s.free) e && !kept e).setV n
      (h.destReg sew mask stop (Config.keepsTail s.free) (h.getV n) new)

/-- Vector register n written by R137. -/
def State.writeV (s : State) (n sew mask : Nat) (stop : Option Nat) (new : Nat → Nat) : State :=
  s.writeBut n sew mask stop (fun _ => false) new

/-- A vector destination written on completion: a register by R137, or a strip pushed, inactive elements as zero
(R138). -/
def State.writeDest (s : State) (d : BitVec 6) (sew mask : Nat) (new : Nat → Nat) : State :=
  if isStream d then s.push d ((List.range s.hart.g).map fun e => if mask.testBit e then new e % 2 ^ sew else 0)
  else s.writeV d.toNat sew mask none new

/-- A vector instruction is complete: vstart returns to 0. -/
def State.vectorDone (s : State) : Res := (s.on fun h => { h with vstart := 0 }).done

/-- The active elements of an instruction under a mask (R121): those below g with their mask bit set. -/
def Hart.activeCount (h : Hart) (mask : Nat) : Nat := popCount h.g mask

/-! Elements that stop an instruction (R301, R305, R313). -/

/-- Why an element is not performed: a breakpoint, a source that holds an uncorrectable error, with its subcode, or what stops
its access. -/
inductive Cut where
  | brk (i : Nat)
  | bad (sub : Nat)
  | stop (e : Stop)
deriving DecidableEq, Repr

/-- An instruction stopped at element e. -/
def State.cutAt (s : State) (e : Nat) : Cut → Res
  | .brk i => s.breakTrap i e
  | .bad sub => s.takeTrap 8 sub 0 e none
  | .stop x => s.stopAt e x

/-- The value that a source gives element e is lost (R300, R313): its register slot has a parity error (subcode 1), the stream read it
from a poisoned granule (subcode 0), or it was spoiled in the copy engine's strip buffer (subcode 3). `before` earlier sources name the
same stream. -/
def Hart.badIn (h : Hart) (x : Source) (before e : Nat) : Option Nat :=
  if isStream x.field then
    match h.bound x.field with
    | none => none
    | some i => match h.copyOf i with
      | none => none
      | some c =>
        let k := c.pos + before * h.span + (e - h.vstart.toNat)
        if e < h.vstart.toNat then none
        else if c.poisoned.elem k then some 0
        else if c.spoiled.elem k then some 3 else none
  else if h.parity.isEmpty then none
  else if h.parity.elem (.v x.field.toNat (x.sew * e / 64)) then some 1 else none

/-- The first source, in order, whose value for element e is lost. -/
def Hart.badElement (h : Hart) (srcs : List Source) (e : Nat) : Option Nat :=
  srcs.zipIdx.findSome? fun p => h.badIn p.1 (occurrences p.1.field (srcs.take p.2)) e

/-- The active elements of an instruction at or above vstart (R121). -/
def Hart.activeFrom (h : Hart) (mask : Nat) : List Nat :=
  (List.range h.g).filter fun e => decide (h.vstart.toNat ≤ e) && mask.testBit e

/-- The lowest active element of which a source is lost. -/
def Hart.firstBad (h : Hart) (srcs : List Source) (mask : Nat) : Option (Nat × Cut) :=
  (h.activeFrom mask).findSome? fun e => (h.badElement srcs e).map fun sub => (e, .bad sub)

/-- Of two causes the one at the lower element; the first of them where they meet (R301). -/
def firstCut (a b : Option (Nat × Cut)) : Option (Nat × Cut) :=
  match a, b with
  | none, b => b
  | a, none => a
  | some (e, x), some (f, y) => if e ≤ f then some (e, x) else some (f, y)

/-- Where an elementwise instruction stops, and why: the lowest element that meets a cause, a breakpoint first. -/
def Hart.cutInside (h : Hart) (inside : Bool) (srcs : List Source) (mask : Nat) : Option (Nat × Cut) :=
  firstCut (if inside then (h.breakInside (h.activeCount mask)).map fun b => (b.2, .brk b.1) else none) (h.firstBad srcs mask)

/-- The first element of the element group of e, but not below vstart (R231): a group is 64 bytes of a row. -/
def Hart.groupStart (h : Hart) (sew e : Nat) : Nat := max h.vstart.toNat (e / (512 / sew) * (512 / sew))

/-- An elementwise instruction that writes vector register or stream d (R226, R231): its sources have been read, and
`new` gives each element. A breakpoint or a lost source may stop it inside (`cut`), at an element group; one that pushes a strip
is stopped before it. `after` is what else its completion writes. -/
def State.elementwiseCut (s : State) (cut : Option (Nat × Cut)) (srcs : List Source) (d : BitVec 6) (sew mask : Nat)
    (new : Nat → Nat) (after : State → State) : Res :=
  let h := s.hart
  match cut with
  | some (e, c) =>
    if isStream d then s.cutAt 0 c
    else
      let f := h.groupStart sew e
      ((s.writeV d.toNat sew mask (some f) new).consumeUpTo srcs (f - h.vstart.toNat) false).cutAt f c
  | none => (after ((s.writeDest d sew mask new).consumeAll srcs)).vectorDone

/-- An elementwise instruction, stopped by a breakpoint or by a lost source. -/
def State.elementwiseAnd (s : State) (srcs : List Source) (d : BitVec 6) (sew mask : Nat) (new : Nat → Nat)
    (after : State → State) : Res :=
  s.elementwiseCut (s.hart.cutInside (!isStream d) srcs mask) srcs d sew mask new after

/-- An elementwise instruction that writes its vector destination only. -/
def State.elementwise (s : State) (srcs : List Source) (d : BitVec 6) (sew mask : Nat) (new : Nat → Nat) : Res :=
  s.elementwiseAnd srcs d sew mask new id

/-- An instruction with vector sources and vector destination d (R225, R226): the configuration check, then what holds
it back, then `k` with the sources' values, packed. -/
def State.withSources (s : State) (ok : Bool) (srcs : List Source) (dst : Option Source) (k : List Nat → Res) : Res :=
  if !ok then s.badConfig
  else match s.hold srcs dst with
    | some x => s.holdBack x
    | none => k (s.hart.sourceValues srcs)

/-- A lost element below g among some sources, of an instruction that reads all of them before its first effect (R229, R306). -/
def Hart.anyBad (h : Hart) (srcs : List Source) : Option Nat :=
  (List.range h.g).findSome? fun e => h.badElement srcs e

/-- An instruction that is not stopped inside (R229, R306): as `withSources`, and a lost element stops it before it, at
element 0. -/
def State.withWhole (s : State) (ok : Bool) (srcs : List Source) (dst : Option Source) (k : List Nat → Res) : Res :=
  s.withSources ok srcs dst fun xs => match s.hart.anyBad srcs with
    | some sub => s.takeTrap 8 sub 0 0 none
    | none => k xs

/-- The value of one source among some. -/
def pick (xs : List Nat) (i w e : Nat) : Nat := elem (xs.getD i 0) w e

end Sys2Proof.Machine
end

