-- ==== Sys2Proof/Machine/Sync.lean ====
section
/-! DEFINITION. Waiting, fences, barriers, the shuttle ring, marks and yield: majors 0x0C and 0x0D but for launch (R109
to R118, R268). Every access is performed in its own step, so an instruction that only orders accesses waits for
the accesses that are still to come, and otherwise advances the pc. -/

namespace Sys2Proof.Machine

/-- waitc (R109). -/
def execWaitc (t c st l : BitVec 4) (s : State) : Res :=
  s.outsideRegion <|
    let k := s.hart.cnt
    if !s.hart.lost.isEmpty then s.lostTrap fun _ => true
    else if k.ld.toNat ≤ l.toNat ∧ k.st.toNat ≤ st.toNat ∧ k.cp.toNat ≤ c.toNat ∧ k.tl.toNat ≤ t.toNat then s.done
    else s.waitFor .counter

/-- A control core's tile operations are still to complete (R268). -/
def State.tilesPending (s : State) : Bool := s.hart.id.control && decide (s.hart.cnt.tl ≠ 0)

/-- The engine can read on: a copy to memory or to a slot until its source is read, a copy to a stream while a strip buffer
has room (R154, R155). -/
def Hart.readsOn (h : Hart) (c : Copy) : Bool :=
  match c.kind.toNat with
  | 0 =>
    let mvl := h.mvl c.sew
    decide (c.got < c.n.toNat) && decide (c.data.length + min mvl (c.n.toNat - c.got) ≤ 4 * mvl)
  | 1 => false
  | _ => true

/-- A copy of the hart in a class of the set, or in class 15, has source reads still to come (R110, R153). Those that wait
for room in a strip buffer, which only the hart's own later instructions make, are not waited for: a fence.c puts them before
later accesses instead (DEDUCED, log 45). -/
def State.sourcePending (s : State) (set : Nat) : Bool :=
  (s.hart.copy.toList.zip s.hart.h.toList).any fun p => match p with
    | (some c, .filling) => s.hart.readsOn c && (set.testBit c.cls.toNat || decide (c.cls = 15))
    | _ => false

/-- Earlier accesses of the hart in a class of the set, or in class 15, are still to be performed (R110, R112, R149). -/
def State.accessesPending (s : State) (set : Nat) : Bool := s.sending s.hart || s.sourcePending set

/-- Earlier accesses or accumulator transfers of the hart are still to be performed (R267, R276, R278). -/
def State.transfersPending (s : State) : Bool := s.accessesPending 0xFFFF || !s.hart.accStores.isEmpty

/-- The class set lo..hi as bits; empty when lo > hi (R110). -/
def classRange (lo hi : Nat) : Nat := (2 ^ (hi + 1) - 1) / 2 ^ lo * 2 ^ lo

/-- The stream copies of the hart in a class of the set, or in class 15, that have source reads still to come, by their order of issue. -/
def Hart.streamReads (h : Hart) (set : Nat) : List Nat :=
  h.copy.toList.filterMap fun c => match c with
    | some c => if c.kind = 0 ∧ c.got < c.n.toNat ∧ (set.testBit c.cls.toNat ∨ c.cls = 15) then some c.order else none
    | none => none

/-- The reads of stream copies in B come before later accesses in A, and in class 15 (R110). What an earlier fence.c has put before
others stays, for copies that the hart still holds. -/
def Hart.gate (h : Hart) (B A : Nat) : Hart :=
  let held := fun (n : Nat) => h.copy.toList.any fun c => match c with
    | some c => decide (c.order = n)
    | none => false
  { h with gates := (h.gates.filter fun g => held g.1) ++ (h.streamReads B).map fun n => (n, BitVec.ofNat 16 (A ||| 2 ^ 15)) }

/-- fence.c between the class sets B and A (R110, R268). -/
def State.fence (s : State) (B A : Nat) : Res :=
  s.outsideRegion <|
    if s.tilesPending && B != 0 then s.waitFor .tileOps
    else if s.accessesPending B then s.waitFor .handle
    else (s.on fun h => h.gate B A).done

/-- fence.c, immediate form (R110): w..x is B, y..z is A. -/
def execFenceC (_ : BitVec 3) (w x y z : BitVec 4) (s : State) : Res :=
  s.fence (classRange w.toNat x.toNat) (classRange y.toNat z.toNat)

/-- fence.c, register form (R110). -/
def execFenceCReg (_ : BitVec 3) (a : BitVec 5) (s : State) : Res :=
  s.fence (bits (s.rs a).toNat 15 0) (bits (s.rs a).toNat 31 16)

/-- The place of an agent at a scope (R111). -/
def placeAt (id : AgentId) (scope : BitVec 3) : Nat :=
  match scope.toNat with
  | 1 => globalCore id
  | 2 => id.quad
  | 3 => die id
  | _ => 0

/-- A barrier that has never been used. -/
def Barrier.fresh : Barrier := ⟨0, 0, 0, 0⟩

/-- The barrier of that key (R111). -/
def State.barrier (s : State) (k : BarrierKey) : Barrier :=
  ((s.barriers.find? fun p => decide (p.1 = k)).map (·.2)).getD Barrier.fresh

/-- The barrier of that key set. -/
def State.setBarrier (s : State) (k : BarrierKey) (b : Barrier) : State :=
  let rest := s.barriers.filter fun p => decide (p.1 ≠ k)
  { s with barriers := if b = Barrier.fresh then rest else (k, b) :: rest }

/-- Phase x has been released. Phases are numbered from 0 in 32 bits (R114); once 2^31 of them have been released, a number
stands for the phase nearest to the present one that has it (DESIGN CHOICE, log 47). -/
def Barrier.isReleased (b : Barrier) (x : Nat) : Bool :=
  decide (x < 2 ^ 32) && if b.released < 2 ^ 31 then decide (x < b.released) else
    decide ((BitVec.ofNat 32 b.released - BitVec.ofNat 32 x - 1).toNat < 2 ^ 31)

/-- The core barrier id lies outside the context's share (R273). -/
def State.foreignBarrier (s : State) (scope : BitVec 3) (id : Nat) : Bool :=
  scope = 1 && (s.hart.id.control || !s.ownPart s.hart (2 ^ 15 * (id / 6)))

/-- An arrival (R112): the state with it counted, and the phase it joined. The arrival that reaches the count makes the
release of the phase due. -/
def State.arriveAt (s : State) (k : BarrierKey) (n : Nat) : State × BitVec 32 :=
  let b := s.barrier k
  let count := if b.arrived = 0 then max n 1 else b.count
  if b.arrived + 1 ≥ count then
    ((s.setBarrier k { b with phase := b.phase + 1, count := 0, arrived := 0 }).due (.barrierRelease k), BitVec.ofNat 32 b.phase)
  else (s.setBarrier k { b with count := count, arrived := b.arrived + 1 }, BitVec.ofNat 32 b.phase)

/-- The wait of a bar or bar.w for a phase. -/
def State.awaitPhase (s : State) (k : BarrierKey) (p : Nat) : Res :=
  if (s.barrier k).isReleased p then (s.on fun h => { h with barWait := none }).done else s.waitFor .barrier

/-- The key of the barrier that the hart names. -/
def State.barrierKey (s : State) (scope : BitVec 3) (id : Nat) : BarrierKey :=
  ⟨s.hart.ctx, scope, id, placeAt s.hart.id scope⟩

/-- bar (R112, R113): arrives once, then waits for its phase (R114). -/
def execBar (sc : BitVec 3) (i : BitVec 6) (a : BitVec 5) (s : State) : Res :=
  s.outsideRegion <|
    let k := s.barrierKey sc i.toNat
    match s.hart.barWait with
    | some (k', p) => s.awaitPhase k' p.toNat
    | none =>
      if s.foreignBarrier sc i.toNat then s.denied
      else if s.tilesPending then s.waitFor .tileOps
      else if s.accessesPending 0xFFFF then s.waitFor .handle
      else
        let (t, p) := s.arriveAt k (bits (s.rs a).toNat 31 0)
        (t.on fun h => { h with barWait := some (k, p) }).awaitPhase k p.toNat

/-- bar.w (R113). -/
def execBarW (sc : BitVec 3) (i : BitVec 6) (a : BitVec 5) (s : State) : Res :=
  s.outsideRegion <|
    if s.foreignBarrier sc i.toNat then s.denied
    else s.awaitPhase (s.barrierKey sc i.toNat) (s.rs a).toNat

/-- arrive (R113). -/
def execArrive (sc : BitVec 3) (i : BitVec 6) (a d : BitVec 5) (s : State) : Res :=
  s.outsideRegion <|
    if s.foreignBarrier sc i.toNat then s.denied
    else if s.tilesPending then s.waitFor .tileOps
    else if s.accessesPending 0xFFFF then s.waitFor .handle
    else
      let (t, p) := s.arriveAt (s.barrierKey sc i.toNat) (bits (s.rs a).toNat 31 0)
      t.give d (p.setWidth 64)

/-- The ring position of an agent on its die (R52, R115). -/
def ringPosition (id : AgentId) : Nat := 4 * (id.quad % 36) + id.core

/-- A shuttle channel, by 8*die + channel (R115). -/
def State.channel (s : State) (n : Nat) : Channel := Sparse.get (fun _ => Channel.idle) s.shuttle n

/-- A change of a shuttle channel. -/
def State.onChannel (s : State) (n : Nat) (f : Channel → Channel) : State :=
  { s with shuttle := Sparse.set (fun _ => Channel.idle) s.shuttle n (f (s.channel n)) }

/-- A post becomes due to be observed where harts of the die wait on the ring (R115). -/
def State.observers (s : State) (d ch : Nat) : State :=
  let ps := ((s.harts.filter fun h => decide (die h.id = d) && decide (h.wait = some .shuttle)).map fun h => ringPosition h.id).eraseDups
  ps.foldl (fun s p =>
    let ev : Due := .shuttlePostObserved d ch p
    if ev ∈ s.agenda then s else s.due ev) s

/-- The largest value that an agent has posted to a channel. -/
def raisePost (l : List (AgentId × Word)) (who : AgentId) (x : Word) : List (AgentId × Word) :=
  let old := ((l.find? fun p => decide (p.1 = who)).map (·.2)).getD 0
  (who, if old < x then x else old) :: l.filter fun p => decide (p.1 ≠ who)

/-- ipost (R115, R268). Values are compared unsigned (DESIGN CHOICE, log 55). -/
def execIpost (hi lo : BitVec 4) (c : BitVec 3) (a : BitVec 5) (s : State) : Res :=
  s.outsideRegion <|
    let n := 8 * die s.hart.id + c.toNat
    if (s.channel n).ctx ≠ some s.hart.ctx then s.denied
    else if s.tilesPending then s.waitFor .tileOps
    else if s.accessesPending (classRange lo.toNat hi.toNat) then s.waitFor .handle
    else
      let x := s.rs a
      let s := s.onChannel n fun ch => { ch with
        value := if ch.value < x then x else ch.value
        posts := raisePost ch.posts s.hart.id x }
      (s.observers (die s.hart.id) c.toNat).done

/-- iwait (R115): the value observed at the hart's ring position, compared unsigned (DESIGN CHOICE, log 55). A newer value becomes due to
be observed there. -/
def execIwait (_ _ : BitVec 4) (c : BitVec 3) (a : BitVec 5) (s : State) : Res :=
  s.outsideRegion <|
    let n := 8 * die s.hart.id + c.toNat
    let pos := ringPosition s.hart.id
    let ch := s.channel n
    if ch.ctx ≠ some s.hart.ctx then s.denied
    else
      let seen := Sparse.get (fun _ => 0) ch.seen pos
      if s.rs a ≤ seen then s.done
      else
        let ev : Due := .shuttlePostObserved (die s.hart.id) c.toNat pos
        let s := if seen < ch.value ∧ ev ∉ s.agenda then s.due ev else s
        s.waitFor .shuttle

/-- The mark register set to a valid ordinal, its event delivered and traced (R116, R287, R317). -/
def State.setMark (s : State) (k : BitVec 12) : State :=
  let s := s.on fun h => { h with mark := 1#1 ++ k }
  (s.markEvent k).trace s.hart 3 s.hart.pc.toNat k.toNat 0

/-- mark (R116). -/
def execMark (k : BitVec 12) (s : State) : Res := (s.setMark k).done

/-- yield (R118). -/
def execYield (n : BitVec 8) (s : State) : Res :=
  s.outsideRegion <|
    (s.on fun h => { h with yielded := BitVec.ofNat 9 (max n.toNat 1 + 1), urgent := false, passed := 0 }).done

end Sys2Proof.Machine
end

