-- ==== Sys2Proof/Machine/Compressed.lean ====
section
/-! DEFINITION. The compressed forms (R59, R105): each has the effect of the form it aliases, with pc + 2 for pc + 4. -/

namespace Sys2Proof.Machine

/-- A compressed form writes sd and goes on to the next halfword. -/
def State.give2 (s : State) (d : BitVec 5) (x : Word) : Res := .next ((s.ws d x).skip 2)

/-- The register s8 to s15 of a three-bit field (R59). -/
def shortReg (r : BitVec 3) : BitVec 5 := 0b01#2 ++ r

/-- c.addi (R105). -/
def execCAddi (d : BitVec 5) (i : BitVec 6) (s : State) : Res := s.give2 d (s.rs d + i.signExtend 64)

/-- c.add (R105). -/
def execCAdd (d b : BitVec 5) (s : State) : Res := s.give2 d (s.rs d + s.rs b)

/-- c.sub (R105). -/
def execCSub (d b : BitVec 5) (s : State) : Res := s.give2 d (s.rs d - s.rs b)

/-- c.and (R105). -/
def execCAnd (d b : BitVec 5) (s : State) : Res := s.give2 d (s.rs d &&& s.rs b)

/-- c.or (R105). -/
def execCOr (d b : BitVec 5) (s : State) : Res := s.give2 d (s.rs d ||| s.rs b)

/-- c.xor (R105). -/
def execCXor (d b : BitVec 5) (s : State) : Res := s.give2 d (s.rs d ^^^ s.rs b)

/-- c.slli (R105): the immediate is unsigned. -/
def execCSlli (d : BitVec 5) (i : BitVec 6) (s : State) : Res := s.give2 d (s.rs d <<< i.toNat)

/-- c.srli (R105). -/
def execCSrli (d : BitVec 5) (i : BitVec 6) (s : State) : Res := s.give2 d (s.rs d >>> i.toNat)

/-- c.srai (R105). -/
def execCSrai (d : BitVec 5) (i : BitVec 6) (s : State) : Res := s.give2 d ((s.rs d).sshiftRight i.toNat)

/-- The address of c.ldd and c.std: the unsigned immediate is scaled by 8 (R59). -/
def State.shortAddr (s : State) (b i : BitVec 3) : Nat := (s.rs (shortReg b) + BitVec.ofNat 64 (8 * i.toNat)).toNat

/-- c.ldd (R105). -/
def execCLdd (d : BitVec 5) (b i : BitVec 3) (s : State) : Res := s.load 2 8 true d (s.shortAddr b i)

/-- c.std (R105). -/
def execCStd (r : BitVec 5) (b i : BitVec 3) (s : State) : Res := s.storeTo 2 8 (s.rs r) (s.shortAddr b i)

/-- c.beq (R105): against s0. -/
def execCBeq (a : BitVec 3) (o : BitVec 8) (s : State) : Res := s.branch 2 (s.rs (shortReg a) = 0) o

/-- c.bne (R105): against s0. -/
def execCBne (a : BitVec 3) (o : BitVec 8) (s : State) : Res := s.branch 2 (s.rs (shortReg a) ≠ 0) o

/-- c.jal (R105): the link is s31. -/
def execCJal (o : BitVec 11) (s : State) : Res := s.link 2 31 o

/-- c.jalr (R105): no immediate. -/
def execCJalr (d b : BitVec 5) (s : State) : Res := s.jumpLink 2 d (s.rs b)

/-- c.mark (R105). -/
def execCMark (k : BitVec 11) (s : State) : Res := .next ((s.setMark (k.setWidth 12)).skip 2)

end Sys2Proof.Machine
end

