-- ==== Sys2Proof/Machine/Hash.lean ====
section
/-! DEFINITION. SHA-512 and the RSASSA-PSS verification that loading uses (R280, R282). The spec names these functions and
gives no algorithm; they are those of FIPS 180-4 and RFC 8017 (PRESUMED, log 20). -/

namespace Sys2Proof.Machine

/-- The initial hash value. -/
def shaInit : List (BitVec 64) :=
  [0x6A09E667F3BCC908, 0xBB67AE8584CAA73B, 0x3C6EF372FE94F82B, 0xA54FF53A5F1D36F1,
   0x510E527FADE682D1, 0x9B05688C2B3E6C1F, 0x1F83D9ABFB41BD6B, 0x5BE0CD19137E2179]

/-- Round constants 0 to 19. -/
def shaK0 : List (BitVec 64) :=
  [0x428A2F98D728AE22, 0x7137449123EF65CD, 0xB5C0FBCFEC4D3B2F, 0xE9B5DBA58189DBBC,
   0x3956C25BF348B538, 0x59F111F1B605D019, 0x923F82A4AF194F9B, 0xAB1C5ED5DA6D8118,
   0xD807AA98A3030242, 0x12835B0145706FBE, 0x243185BE4EE4B28C, 0x550C7DC3D5FFB4E2,
   0x72BE5D74F27B896F, 0x80DEB1FE3B1696B1, 0x9BDC06A725C71235, 0xC19BF174CF692694,
   0xE49B69C19EF14AD2, 0xEFBE4786384F25E3, 0x0FC19DC68B8CD5B5, 0x240CA1CC77AC9C65]

/-- Round constants 20 to 39. -/
def shaK1 : List (BitVec 64) :=
  [0x2DE92C6F592B0275, 0x4A7484AA6EA6E483, 0x5CB0A9DCBD41FBD4, 0x76F988DA831153B5,
   0x983E5152EE66DFAB, 0xA831C66D2DB43210, 0xB00327C898FB213F, 0xBF597FC7BEEF0EE4,
   0xC6E00BF33DA88FC2, 0xD5A79147930AA725, 0x06CA6351E003826F, 0x142929670A0E6E70,
   0x27B70A8546D22FFC, 0x2E1B21385C26C926, 0x4D2C6DFC5AC42AED, 0x53380D139D95B3DF,
   0x650A73548BAF63DE, 0x766A0ABB3C77B2A8, 0x81C2C92E47EDAEE6, 0x92722C851482353B]

/-- Round constants 40 to 59. -/
def shaK2 : List (BitVec 64) :=
  [0xA2BFE8A14CF10364, 0xA81A664BBC423001, 0xC24B8B70D0F89791, 0xC76C51A30654BE30,
   0xD192E819D6EF5218, 0xD69906245565A910, 0xF40E35855771202A, 0x106AA07032BBD1B8,
   0x19A4C116B8D2D0C8, 0x1E376C085141AB53, 0x2748774CDF8EEB99, 0x34B0BCB5E19B48A8,
   0x391C0CB3C5C95A63, 0x4ED8AA4AE3418ACB, 0x5B9CCA4F7763E373, 0x682E6FF3D6B2B8A3,
   0x748F82EE5DEFB2FC, 0x78A5636F43172F60, 0x84C87814A1F0AB72, 0x8CC702081A6439EC]

/-- Round constants 60 to 79. -/
def shaK3 : List (BitVec 64) :=
  [0x90BEFFFA23631E28, 0xA4506CEBDE82BDE9, 0xBEF9A3F7B2C67915, 0xC67178F2E372532B,
   0xCA273ECEEA26619C, 0xD186B8C721C0C207, 0xEADA7DD6CDE0EB1E, 0xF57D4F7FEE6ED178,
   0x06F067AA72176FBA, 0x0A637DC5A2C898A6, 0x113F9804BEF90DAE, 0x1B710B35131C471B,
   0x28DB77F523047D84, 0x32CAAB7B40C72493, 0x3C9EBE0A15C9BEBC, 0x431D67C49C100D4C,
   0x4CC5D4BECB3E42B6, 0x597F299CFC657E2A, 0x5FCB6FAB3AD6FAEC, 0x6C44198C4A475817]

/-- The round constants. -/
def shaK : List (BitVec 64) := shaK0 ++ shaK1 ++ shaK2 ++ shaK3

/-- The message schedule, newest word first, extended by n words. -/
def shaExtend : Nat → List (BitVec 64) → List (BitVec 64)
  | 0, w => w
  | n + 1, w =>
    let a := w.getD 14 0
    let b := w.getD 1 0
    let s0 := a.rotateRight 1 ^^^ a.rotateRight 8 ^^^ (a >>> 7)
    let s1 := b.rotateRight 19 ^^^ b.rotateRight 61 ^^^ (b >>> 6)
    shaExtend n ((w.getD 15 0 + s0 + w.getD 6 0 + s1) :: w)

/-- One round: the eight working variables, a round constant and a schedule word. -/
def shaRound (v : List (BitVec 64)) (kw : BitVec 64 × BitVec 64) : List (BitVec 64) :=
  match v with
  | [a, b, c, d, e, f, g, h] =>
    let s1 := e.rotateRight 14 ^^^ e.rotateRight 18 ^^^ e.rotateRight 41
    let ch := (e &&& f) ^^^ (~~~e &&& g)
    let t1 := h + s1 + ch + kw.1 + kw.2
    let s0 := a.rotateRight 28 ^^^ a.rotateRight 34 ^^^ a.rotateRight 39
    let maj := (a &&& b) ^^^ (a &&& c) ^^^ (b &&& c)
    [t1 + s0 + maj, a, b, c, d + t1, e, f, g]
  | _ => v

/-- The number whose bytes these are, highest first. -/
def ofBytesBig (bs : List Byte) : Nat := bs.foldl (fun a b => a * 256 + b.toNat) 0

/-- n bytes of a number, highest first. -/
def toBytesBig (n x : Nat) : List Byte := (toBytes n x).reverse

/-- The hash value after a block of 128 bytes. -/
def shaBlock (h : List (BitVec 64)) (block : List Byte) : List (BitVec 64) :=
  let w := (List.range 16).map fun i => BitVec.ofNat 64 (ofBytesBig ((block.drop (8 * i)).take 8))
  let v := (shaK.zip (shaExtend 64 w.reverse).reverse).foldl shaRound h
  (h.zip v).map fun p => p.1 + p.2

/-- The hash value after n blocks. -/
def shaBlocks : Nat → List (BitVec 64) → List Byte → List (BitVec 64)
  | 0, h, _ => h
  | n + 1, h, m => shaBlocks n (shaBlock h (m.take 128)) (m.drop 128)

/-- SHA-512 of a byte string: 64 bytes. -/
def sha512 (m : List Byte) : List Byte :=
  let pad := (111 + 128 - m.length % 128) % 128
  let all := m ++ 0x80 :: List.replicate pad 0 ++ toBytesBig 16 (8 * m.length)
  (shaBlocks (all.length / 128) shaInit all).flatMap fun x => toBytesBig 8 x.toNat

/-- The 64 bytes of an attestation register, byte i at bits [8i+7:8i] (R282). -/
def attBytes (r : BitVec 512) : List Byte := toBytes 64 r.toNat

/-- An extend of an attestation register by the measurement of m (R282). -/
def attExtend (r : BitVec 512) (m : List Byte) : BitVec 512 := BitVec.ofNat 512 (ofBytes (sha512 (attBytes r ++ sha512 m)))

/-- MGF1 with SHA-512: n bytes. -/
def mgf1 (seed : List Byte) (n : Nat) : List Byte :=
  ((List.range ((n + 63) / 64)).flatMap fun i => sha512 (seed ++ toBytesBig 4 i)).take n

/-- b^(2^k) mod n. -/
def powTwo (b n : Nat) : Nat → Nat
  | 0 => b % n
  | k + 1 => powTwo (b * b % n) n k

/-- RSASSA-PSS verification with SHA-512, salt length 64 and public exponent 65,537 of a message under a modulus of 4,096
bits (R280). -/
def pssVerify (modulus : Nat) (message signature : List Byte) : Bool :=
  let s := ofBytesBig signature
  if modulus = 0 ∨ modulus ≤ s then false
  else
    let m := powTwo s modulus 16 * s % modulus
    -- the encoded message has 8 * 512 - 1 bits
    let bits4095 := bitLength modulus - 1
    let len := (bits4095 + 7) / 8
    let em := toBytesBig len m
    let masked := em.take (len - 65)
    let h := (em.drop (len - 65)).take 64
    let top := 8 * len - bits4095
    let db : List Byte := (masked.zip (mgf1 h (len - 65))).map fun p => p.1 ^^^ p.2
    let db : List Byte := match db with
      | [] => []
      | x :: rest => BitVec.ofNat 8 (x.toNat % 2 ^ (8 - top)) :: rest
    let zeros := len - 65 - 65
    let salt := db.drop (zeros + 1)
    decide (m < 2 ^ (8 * len)) && decide (130 ≤ len) && decide (em.getD (len - 1) 0 = 0xBC) &&
      decide ((ofBytesBig masked) < 2 ^ (8 * (len - 65) - top)) && (db.take zeros).all (fun x => decide (x = 0)) &&
      decide (db.getD zeros 0 = 1) && decide (h = sha512 (List.replicate 8 0 ++ sha512 message ++ salt))

end Sys2Proof.Machine
end

