-- ==== Sys2Proof/Machine/Engine.lean ====
section
/-! DEFINITION. What engines share: checking and translating the ranges of an operation, writing destination lines
(R128, R153), and free summation trees (R221). -/

namespace Sys2Proof.Machine

/-- A format of a code; every code that reaches here is assigned. -/
def fmtOf (c : BitVec 4) : Fmt := (Fmt.ofCode c.toNat).getD .f64

/-- A value put into a list in increasing order of a key, behind those of the same key. -/
def insertBy {α : Type} (key : α → Nat) (x : α) : List α → List α
  | [] => [x]
  | y :: rest => if key x < key y then x :: y :: rest else y :: insertBy key x rest

/-- A list sorted by a key; equal keys keep their order. -/
def sortBy {α : Type} (key : α → Nat) (l : List α) : List α := l.foldl (fun acc x => insertBy key x acc) []

/-- A list cut into pieces of n, n > 0, the last one shorter; `fuel` bounds their number. -/
def chunks {α : Type} (n : Nat) : Nat → List α → List (List α)
  | 0, _ => []
  | _, [] => []
  | fuel + 1, l => l.take n :: chunks n fuel (l.drop n)

/-- The stop that comes first by the order of causes, and by position among equals (R301). -/
def firstStop : List Stop → Option Stop
  | [] => none
  | e :: rest => match firstStop rest with
    | some f => if f.rank < e.rank then some f else some e
    | none => some e

/-- Every piece of some ranges checked and placed outside the local store; one stop for all. -/
def State.placeAll (s : State) (h : Hart) (p : Perm) (ranges : List (Nat × Nat)) : Except Stop (List Nat) :=
  let tries := (ranges.flatMap fun r => if r.2 = 0 then [] else granules r.1 r.2).map fun r =>
    s.place h false p (r.1 % 2 ^ 64) r.2
  match firstStop (tries.filterMap fun r => match r with
      | .error e => some e
      | .ok _ => none) with
  | some e => .error e
  | none => .ok (tries.filterMap fun r => match r with
      | .ok (.mem pa) => some pa
      | _ => none)

/-- The physical address of a virtual one by held translations: (virtual page, physical page) of 4 KiB. -/
def heldPage (pages : List (Nat × Nat)) (va : Nat) : Nat :=
  match pages.find? (fun p => decide (p.1 = va / 4096)) with
  | some p => p.2 * 4096 + va % 4096
  | none => 0

/-- The bytes of a line among some, as a mask. -/
def maskOf (bytes : List (Nat × Byte)) (line : Nat) : Nat :=
  (bytes.filter fun b => decide (b.1 / 64 = line)).foldl (fun m b => m ||| (2 : Nat) ^ (b.1 % 64)) 0

/-- The bytes of an engine's operation performed (R128): regions that track a line meet an access from outside (R197), the
directory takes each write (R182, R184), a line written whole loses its poison (R312). `by_` names the engine for a line. -/
def State.engineWrite (s : State) (by_ : Nat → Accessor) (bytes : List (Nat × Byte)) : State :=
  let lines := (bytes.map fun b => b.1 / 64).eraseDups
  let s := lines.foldl (fun s l =>
    ((s.outside l true).writeLine (by_ l) noAddress l (maskOf bytes l) none).1.clearReservations l) s
  let whole := lines.filter fun l => maskOf bytes l = 2 ^ 64 - 1
  let s := s.setMem bytes
  if whole.any (s.pkg.poison.elem ·) then s.onPkg fun p => { p with poison := p.poison.filter (· ∉ whole) } else s

/-- An engine takes ownership of a line (R128): that is an access, which meets the regions that track it (R197), and the engine
holds the line in M at its die slice (R184). -/
def State.takeLine (s : State) (a : Accessor) (va line : Nat) : State :=
  ((s.outside line true).writeLine a va line 0 none).1

/-- An engine reads bytes of a line for its hart. -/
def State.engineRead (s : State) (a : Accessor) (va line mask : Nat) : State :=
  ((s.outside line false).readLine a va line mask none).1

/-- The walks that the device makes in a context for the bytes [va, va + n) (R197, R321). -/
def State.noteRange (s : State) (c : BitVec 12) (va n : Nat) : State :=
  (if n = 0 then [] else rangePages [(va, n)]).foldl (fun s p => s.noteWalk c p) s

/-- The walks for some addresses that the hart that moves has translated (R321). -/
def State.noteWalks (s : State) (vas : List Nat) : State := s.walkAll 0 vas

/-- An address that lies in a line, among some (virtual, physical) ones. -/
def addressIn (l : List (Nat × Nat)) (line : Nat) : Nat :=
  ((l.find? fun p => decide (p.2 / 64 = line)).map (·.1)).getD noAddress

/-- An operation is lost to a dead engine (R316): later waits for it trap. -/
def Hart.lose (h : Hart) (ks : List Nat) : Hart := { h with lost := (ks ++ h.lost).eraseDups }

/-! Operand slots (R252). -/

/-- The state of a slot. -/
def Quad.slot (q : Quad) (n : Nat) : SlotState := q.slots.getD n .free

/-- The state of a slot set. -/
def Quad.setSlot (q : Quad) (n : Nat) (x : SlotState) : Quad := { q with slots := q.slots.setIfInBounds n x }

/-- The slot is in a state, and its holder has not given it back by an orel (R252, R268). -/
def Quad.held (q : Quad) (n : Nat) (x : SlotState) : Bool := decide (q.slot n = x) && !q.releasing.elem n

/-- The slot is held by this hart as feeder (R252). -/
def State.feeds (s : State) (n : Nat) : Bool :=
  (s.quad s.hart.id.quad).held n (.feeder s.hart.id.core s.hart.id.hart)

/-- Operand memory written: the granules that the bytes fill lose their poison, and some others take one (R312, R313). -/
def State.markSlots (s : State) (written bad : List Nat) : State :=
  let gone := filled s.pkg.slotPoison written
  if gone.isEmpty && bad.isEmpty then s
  else s.onPkg fun p => { p with slotPoison := (p.slotPoison.filter (· ∉ gone) ++ bad).eraseDups }

/-- A full binary tree over some leaves, any of them (R221): at each of its steps two nodes that a free value picks are
joined. -/
def freeTree {α : Type} (pick : Nat → Nat) (join : α → α → α) : Nat → List α → Option α
  | _, [] => none
  | _, [x] => some x
  | 0, x :: _ => some x
  | k + 1, x :: y :: rest =>
    let l := x :: y :: rest
    let i := pick (2 * k) % l.length
    let l' := l.eraseIdx i
    let j := pick (2 * k + 1) % l'.length
    freeTree pick join k (join (l.getD i x) (l'.getD j y) :: l'.eraseIdx j)

/-- The cells of `m` in [a, a + n) copied to [b, b + n) of `dst`. -/
def copyRange (m : Memory) (a n : Nat) (dst : Memory) (b : Nat) : Memory :=
  (m.filter fun c => a ≤ c.1 && c.1 < a + n).foldl (fun d c => d.setByte (b + (c.1 - a)) c.2) (dst.clear b n)

end Sys2Proof.Machine
end

