-- ==== Sys2Proof/Machine/Atomic.lean ====
section
/-! DEFINITION. Atomic regions and strided claims: major 0x1C (R185 to R200), the commit arbiter, narrowing and FINAL
messages and the renewal of positions (R190 to R196). -/

namespace Sys2Proof.Machine

/-- The region that would begin is pinned (R195). -/
def Hart.beginsPinned (h : Hart) : Bool := decide (h.aborts ≥ 4)

/-- The checkpoint of the hart's registers (R199). -/
def Hart.checkpoint (h : Hart) : Checkpoint := ⟨h.s, h.v, h.m, h.vl, h.vlPad, h.vt, h.sw, h.vstart, h.parity, h.pooled⟩

/-- A region of the hart with no accesses yet. -/
def Hart.newRegion (h : Hart) (strict pinned package : Bool) (d : BitVec 5) : Region where
  strict := strict
  pinned := pinned
  package := package
  begin := h.pc
  sd := d
  lines := []
  buf := []
  ckpt := h.checkpoint
  partners := []
  stores := 0
  asked := none
  gen := none
  outdone := []
  covered := []

/-- A hart that would begin pinned takes its place in the arbiter's queue (R195). -/
def State.queueBegin (s : State) : State :=
  if s.arb.beginQueue.elem s.hart.id then s
  else { s with arb := { s.arb with beginQueue := s.arb.beginQueue ++ [s.hart.id] } }

/-- The first of the queue of harts that would begin pinned (R195). One that leaves its xbegin, by a trap, a pre-emption or its end,
leaves the queue, so it holds up no other. -/
def State.firstToBegin (s : State) : Option AgentId := s.arb.beginQueue.head?

/-- What an xbegin does once it is admitted (R199): the state with the region live, its bounds set, sd zero. -/
def State.beginRegion (s : State) (strict pinned package : Bool) (d : BitVec 5) : State :=
  let top : Int := match s.pinnedAt with
    | some x => (x : Int) - 1
    | none => maxPosition
  let h := s.hart
  let s := s.on fun h => { h with region := some (h.newRegion strict pinned package d) }
  let s := (s.ws d 0).skip 4
  if strict then s.on fun h => { h with ebLo := 0, ebHi := 0 }
  else if pinned then
    let x := s.arb.high + 1
    let s := { s with arb := { s.arb with beginQueue := s.arb.beginQueue.filter fun i => decide (i ≠ h.id) } }
    let s := s.on fun h => { h with ebLo := BitVec.ofNat 40 x, ebHi := BitVec.ofNat 40 x }
    (s.count h.ctx 0x752 0 1).pinOthers h.id x
  else
    let s := s.on fun h => { h with ebLo := 0, ebHi := BitVec.ofInt 40 top }
    if top < 0 then s.abortRegion h.id 1 else s

/-- xbegin.e and xbegin.s (R194, R195, R196, R199). -/
def State.xbegin (s : State) (strict package : Bool) (d : BitVec 5) : Res :=
  let pinned := !strict && s.hart.beginsPinned
  if s.hart.region.isSome then .next (s.abortRegion s.hart.id 7)
  else
    let s := if pinned then s.queueBegin else s
    if s.arb.renewing || (pinned && (s.pinnedAt.isSome || s.firstToBegin != some s.hart.id)) then s.waitFor .regionBegin
    else if s.accessesPending 0xFFFF then s.waitFor .handle
    else .next (s.beginRegion strict pinned package d)

/-- xbegin.e (R198, R199). -/
def execXbeginE (f : BitVec 4) (d : BitVec 5) (s : State) : Res := s.xbegin false (decide (f = 4)) d

/-- xbegin.s (R197 to R199). -/
def execXbeginS (f : BitVec 4) (d : BitVec 5) (s : State) : Res := s.xbegin true (decide (f = 4)) d

/-- xend (R194, R200): the request to the arbiter; the hart goes on when COMMIT has processed it. -/
def execXend (d : BitVec 5) (s : State) : Res :=
  match s.hart.region with
  | none => s.give d (-1)
  | some r =>
    if r.asked.isSome then s.waitFor .regionEnd
    else if s.accessesPending 0xFFFF then s.waitFor .handle
    else
      let t := s.on fun h => { h with region := some { r with asked := some d } }
      (t.due (.commit s.hart.id)).waitFor .regionEnd

/-- xabort (R200). -/
def execXabort (a : BitVec 5) (s : State) : Res :=
  if s.hart.region.isSome then .next (s.abortRegion s.hart.id (128 + bits (s.rs a).toNat 6 0)) else s.done

/-- xbnd.lo (R200). -/
def execXbndLo (d : BitVec 5) (s : State) : Res := s.give d (s.hart.ebLo.setWidth 64)

/-- xbnd.hi (R200). -/
def execXbndHi (d : BitVec 5) (s : State) : Res := s.give d (s.hart.ebHi.setWidth 64)

/-- xbnd (R200). -/
def execXbnd (b a d : BitVec 5) (s : State) : Res :=
  match s.hart.region with
  | none => s.give d (-1)
  | some r =>
    if r.strict then s.give d (-1)
    else
      let x := (s.rs a).setWidth 40
      let y := (s.rs b).setWidth 40
      let lo := if s.hart.ebLo < x then x else s.hart.ebLo
      let hi := if y < s.hart.ebHi then y else s.hart.ebHi
      let t := if r.pinned then s else s.on fun h => { h with ebLo := lo, ebHi := hi }
      if hi < lo then .next (t.abortRegion s.hart.id 1)
      else t.give d ((t.hart.ebHi - t.hart.ebLo).setWidth 64)

/-! Claims (R185 to R187). -/

/-- The bytes of element i of a claim start at this offset from its base. -/
def Claim.offset (c : Claim) (i : Nat) : Int := (i : Int) * c.stride.toInt

/-- An interval of addresses that holds every byte of the claim. -/
def Claim.hull (c : Claim) : Int × Int :=
  let last := c.offset (c.count.toNat - 1)
  let b : Int := c.base.toNat
  (b + min 0 last, b + max 0 last + 2 ^ c.lw.toNat)

/-- Whether two claims share a byte: every element of the first is looked up in the second. -/
def Claim.overlaps (c k : Claim) : Bool :=
  let a := c.hull
  let b := k.hull
  if a.2 ≤ b.1 ∨ b.2 ≤ a.1 then false
  else (List.range c.count.toNat).any fun i => (List.range (2 ^ c.lw.toNat)).any fun j =>
    k.has (c.offset i + j + c.base.toNat - k.base.toNat)

/-- The claim that a descriptor names (R186). -/
def Claim.ofWords (base desc : Word) : Claim where
  id := 0
  slices := []
  base := base
  count := desc.setWidth 24
  stride := BitVec.ofNat 24 (desc.toNat / 2 ^ 24)
  lw := BitVec.ofNat 2 (desc.toNat / 2 ^ 48)

/-- A valid claim (R186, result -3). -/
def Claim.valid (c : Claim) : Bool :=
  let w := 2 ^ c.lw.toNat
  decide (c.count ≠ 0) && decide (c.base.toNat % w = 0) &&
    decide ((c.count.toNat - 1) * c.stride.toInt.natAbs + w ≤ 2 ^ 24)

/-- Every live claim of the package. -/
def State.allClaims (s : State) : List Claim := (s.harts ++ s.saved).flatMap fun h => h.claims

/-- The home slices of the lines that meet a claim's bytes (R164, R186), page by page as the hart's walk maps them. -/
def State.claimSlices (s : State) (c : Claim) : List Nat :=
  let first := (c.hull.1 % 2 ^ 64).toNat / 64 * 64
  let n := ((c.hull.2 - c.hull.1).toNat + 63) / 64 + 1
  (((List.range n).map fun k => (first + 64 * k) % 2 ^ 64).filterMap fun va =>
    if c.onLine va = 0 then none
    else match s.walkFor s.hart va with
      | .page pa _ => some (homeSlice (pa / 64))
      | _ => none).eraseDups

/-- The claims that the table of a home slice holds (R186). -/
def State.claimsAt (s : State) (slice : Nat) : Nat := s.allClaims.countP fun c => c.slices.elem slice

/-- sclaim (R186): a home slice's table holds 64 entries. -/
def execSclaim (b a d : BitVec 5) (s : State) : Res :=
  s.outsideRegion <|
    let c := Claim.ofWords (s.rs a) (s.rs b)
    let h := s.hart
    if h.claims.length ≥ 8 then s.give d (-1)
    else if !c.valid then s.give d (-3)
    else if (s.parked ++ s.saved).any fun k => decide (k.ctx = h.ctx) && k.claims.any fun q => c.overlaps q then s.give d (-2)
    else
      let slices := s.claimSlices c
      if slices.any fun k => decide (64 ≤ s.claimsAt k) then s.give d (-4)
      else match (List.range 8).find? fun i => !h.claims.any fun q => decide (q.id.toNat = i) with
        | none => s.give d (-1)
        | some i =>
          (s.on fun h => { h with claims := h.claims ++ [{ c with id := BitVec.ofNat 3 i, slices := slices }] }).give d (BitVec.ofNat 64 i)

/-- srel (R187). -/
def execSrel (a : BitVec 5) (s : State) : Res :=
  s.outsideRegion <|
    let i := (s.rs a).setWidth 3
    (s.on fun h => { h with claims := h.claims.filter fun q => decide (q.id ≠ i) }).done

/-! The arbiter and its messages (R190 to R196). -/

/-- REGION_CONFLICT (R192, R197): the home slice of a line that a live region tracks meets the other live regions that track it and
have a conflict with this one that neither has recorded. Each access of a region meets them in its own step already, so the home slice
finds none that is open; what an access has ordered is not ordered again (R192). -/
def execRegionConflict (who : AgentId) (line : Nat) (write : Bool) (s : State) : Res :=
  match s.find who with
  | none => .fault .notDue
  | some h => match h.region with
    | none => .fault .notDue
    | some r =>
      let known := fun (a : Region) (id : AgentId) => a.partners.any fun p => decide (p.1 = id)
      let open_ := s.inRegions.filter fun k => decide (k.id ≠ who) && match k.region with
        | none => false
        | some o => !known r k.id && !known o who && o.lines.any fun t => decide (t.line = line) && (write || t.wrote)
      if (r.lines.any fun t => decide (t.line = line) && (if write then t.wrote else t.read)) && !open_.isEmpty then
        .next (open_.foldl (fun s k => if s.live who then s.meet who k.id ⟨line, noAddress, write, !write⟩ else s) s)
      else .fault .notDue

/-- The n-th entry of a list removed. -/
def dropAt {α : Type} (l : List α) (n : Nat) : List α := l.take n ++ l.drop (n + 1)

/-- NARROWING_APPLY (R192, R193). -/
def execNarrowingApply (n : Nat) (s : State) : Res :=
  match s.arb.narrowings[n]? with
  | none => .fault .notDue
  | some m =>
    let t := { s with arb := { s.arb with narrowings := dropAt s.arb.narrowings n } }
    .next (t.repostMessages.narrow m.target m.lo m.hi none)

/-- FINAL_APPLY (R194). -/
def execFinalApply (n : Nat) (s : State) : Res :=
  match s.arb.finals[n]? with
  | none => .fault .notDue
  | some m =>
    let t := { s with arb := { s.arb with finals := dropAt s.arb.finals n } }
    let t := t.repostMessages
    .next (if m.before then t.narrow m.target 0 (m.pos - 1 : Int) none
      else t.narrow m.target (m.pos + 1 : Int) maxPosition none)

/-- The position at which a region commits (R194). -/
def State.commitPosition (s : State) (h : Hart) (r : Region) : Nat :=
  if r.strict then r.lines.foldl (fun a t => max a (max (s.stamps t.line).1 (s.stamps t.line).2)) 0 + 1 else h.ebLo.toNat

/-- The stamps of a region's lines raised to p (R194). -/
def State.stampLines (s : State) (r : Region) (p : Nat) : State :=
  r.lines.foldl (fun s t =>
    let (w, rd) := s.stamps t.line
    let new := (if t.wrote then max w p else w, if t.read then max rd p else rd)
    let rest := s.arb.stamps.filter fun q => decide (q.1 ≠ t.line)
    { s with arb := { s.arb with stamps := (t.line, new) :: rest } }) s

/-- The writes of a region performed (R134), but for bytes whose writes another region's have overtaken (R192): each line is written
through at its die slice, what its claims cover as claimed stores (R183, R185), the rest after them. -/
def State.performWrites (s : State) (h : Hart) (r : Region) : State :=
  let bytes := r.buf.filterMap fun p => match p.2 with
    | some b => if r.outdone.elem p.1 then none else some (p.1, b)
    | none => none
  let s := (s.setMem bytes).heal (bytes.map (·.1)) []
  (r.lines.filter fun t => t.wrote).foldl (fun s t =>
    let mine := r.covered.filter fun p => decide (p.1 = t.line)
    let claimed := mine.foldl (fun m p => m ||| p.2.1) 0
    let rest := without (maskOf bytes t.line) claimed
    let s := mine.foldl (fun s p => s.writeFor h 0 t.va t.line p.2.1 (some p.2.2)) s
    let s := if rest = 0 then s else s.writeFor h 0 t.va t.line rest none
    s.clearReservations t.line) s

/-- FINAL(p) sent to every live region that recorded the committed one as a partner (R194); a region that comes before
it has lost the bytes both have written. -/
def State.sendFinals (s : State) (who : AgentId) (r : Region) (p : Nat) : State :=
  (s.inRegions.filter fun h => decide (h.id ≠ who)).foldl (fun s h => match h.region with
    | none => s
    | some o =>
      let ps := o.partners.filter fun q => decide (q.1 = who)
      let s := ps.foldl (fun s q =>
        { s with arb := { s.arb with finals := s.arb.finals ++ [⟨who, h.ctx, h.id, q.2, p⟩] } }) s
      if ps.any fun q => q.2 then
        let both := r.buf.filterMap fun q => if (Sparse.get (fun _ => none) o.buf q.1).isSome then some q.1 else none
        s.update h.id fun k => { k with region := k.region.map fun o => { o with outdone := both ++ o.outdone } }
      else s) s

/-- The commit of a region at position p (R194, R195, R199). -/
def State.commitRegion (s : State) (h : Hart) (r : Region) (d : BitVec 5) (p : Nat) : State :=
  let s := ((s.performWrites h r).stampLines r p).sendFinals h.id r p
  let high := max s.arb.high p
  let renew := decide (high ≥ 2 ^ 39)
  let s := { s with arb := { s.arb with high := high, renewing := s.arb.renewing || renew } }
  let s := if renew && !s.agenda.elem .positionRenewal then s.due .positionRenewal else s
  let s := (s.count h.ctx 0x750 0 1).trace h 5 h.pc.toNat p 0
  let s := s.update h.id fun k =>
    let k := k.setS d (BitVec.ofNat 64 p)
    { k with
      region := none
      aborts := 0
      pc := k.pc + 4
      wait := none
      cnt := { k.cnt with st := k.cnt.st - BitVec.ofNat 6 r.stores } }
  s.forgetRegion h.id

/-- The request must wait (R190, R194): a message for the region or a FINAL of the previous commit is on its way, an
engine owns a line that it writes, or a flip of it is under way (R285), or a strict region would pass the pinned one. -/
def State.commitBlocked (s : State) (h : Hart) (r : Region) (p : Nat) : Bool :=
  (s.arb.narrowings.any fun n => decide (n.target = h.id)) || !s.arb.finals.isEmpty ||
    (r.lines.any fun t => t.wrote && (s.owned t.line || s.flipping (64 * t.line))) ||
    (r.strict && match s.pinnedAt with
      | some x => decide (p ≥ x)
      | none => false)

/-- COMMIT (R194): a blocked request is made again; otherwise the region commits, or aborts when its interval is
empty (R193). -/
def execCommit (who : AgentId) (s : State) : Res :=
  match s.find who with
  | none => .fault .notDue
  | some h => match h.region with
    | none => .fault .notDue
    | some r => match r.asked with
      | none => .fault .notDue
      | some d =>
        let p := s.commitPosition h r
        if s.commitBlocked h r p then .next (s.due (.commit who))
        else if !r.strict && decide (h.ebHi < h.ebLo) then .next (s.abortRegion who 1)
        else .next (s.commitRegion h r d p)

/-- POSITION_RENEWAL (R196): made again until no region is live. -/
def execPositionRenewal (s : State) : Res :=
  if !s.arb.renewing then .fault .notDue
  else if !s.inRegions.isEmpty || !s.arb.finals.isEmpty then .next (s.due .positionRenewal)
  else .next { s with
    arb := { s.arb with high := 0, stamps := [], floors := [], renewing := false, rebase := s.arb.rebase + 1 } }

end Sys2Proof.Machine
end

