-- ==== Sys2Proof/Machine/Copy.lean ====
section
/-! DEFINITION. Copies, handles and stream bindings: major 0x19 (R152 to R157), and the steps of the copy engine (R154,
R155). -/

namespace Sys2Proof.Machine

/-- The size of an element, or of a row of a kind-3 copy (R152). -/
def Copy.esz (c : Copy) : Nat := ((Fmt.ofCode c.fmt.toNat).getD .f64).esz

/-- The rows of a slot's tile by format (R152): none where a kind-3 copy is invalid. -/
def tileRows : Fmt → Option Nat
  | .f64 | .f32 => some 64
  | .bf16 | .f16 | .e4m3 | .e5m2 | .i8 => some 128
  | _ => none

/-- The bytes that the copy moves for one element. -/
def Copy.unit (c : Copy) : Nat := if c.kind = 3 then 16384 / c.n.toNat else c.esz

/-- The address of element i of the source (R152). -/
def Copy.srcAddr (c : Copy) (i : Nat) : Nat := addr64 (c.src.toNat + i * c.sstride.toInt)

/-- The address of element i of the destination (R152). -/
def Copy.dstAddr (c : Copy) (i : Nat) : Nat := addr64 (c.dst.toNat + i * c.dstride.toInt)

/-- The copy reads memory. -/
def Copy.reads (c : Copy) : Bool := decide (c.kind ≠ 1)

/-- The copy writes memory. -/
def Copy.writes (c : Copy) : Bool := decide (c.kind = 1) || decide (c.kind = 2)

/-- The copy has a stream. -/
def Copy.streams (c : Copy) : Bool := decide (c.kind = 0) || decide (c.kind = 1)

/-- The source ranges. -/
def Copy.sources (c : Copy) : List (Nat × Nat) :=
  if c.reads then (List.range c.n.toNat).map fun i => (c.srcAddr i, c.unit) else []

/-- The destination ranges. -/
def Copy.destinations (c : Copy) : List (Nat × Nat) :=
  if c.writes then (List.range c.n.toNat).map fun i => (c.dstAddr i, c.unit) else []

/-- The fields of a descriptor are valid (R152, R153): w0 is its first doubleword. -/
def Copy.valid (c : Copy) (w0 : Nat) : Bool :=
  match Fmt.ofCode c.fmt.toNat with
  | none => false
  | some f =>
    decide (bits w0 2 0 ≤ 3) && !w0.testBit 3 && decide (bits w0 31 13 = 0) &&
      (decide (c.kind = 3) || decide (c.slot = 0)) &&
      (!c.reads || (decide (c.src.toNat % f.esz = 0) && decide (c.sstride.toNat % f.esz = 0))) &&
      (!c.writes || (decide (c.dst.toNat % f.esz = 0) && decide (c.dstride.toNat % f.esz = 0))) &&
      (decide (c.kind ≠ 3) || tileRows f = some c.n.toNat)

/-- The translation of a byte range of one granule, permissions checked; what the bytes hold or who owns them does not
matter yet. -/
def State.translate (s : State) (h : Hart) (p : Perm) (va n : Nat) : Except Stop Nat :=
  if inWindow va then .error (.trap 6 0 va)
  else if s.walkHeld h va then .error (.wait .reduction)
  else match s.walkFor h va with
    | .fault => .error (.trap 5 0 va)
    | .wait => .error (.wait .engineLine)
    | .poison => .error (.trap 8 0 va)
    | .page pa rwx =>
      if !p.allowed rwx then .error (.trap 6 0 va)
      else if p.writes && !privileged h.ctx && s.isText pa n then .error (.trap 6 0 va)
      else if s.pkg.lostHost.elem (pa / 2 ^ 21) then .error (.trap 8 4 va)
      else .ok pa

/-- Every granule of some ranges translated: (virtual, physical) addresses, or the stop that comes first (R301). -/
def State.translateAll (s : State) (h : Hart) (p : Perm) (ranges : List (Nat × Nat)) : Except Stop (List (Nat × Nat)) :=
  let gs := ranges.flatMap fun r => if r.2 = 0 then [] else granules r.1 r.2
  let tries := gs.map fun r => s.translate h p (r.1 % 2 ^ 64) r.2
  match firstStop (tries.filterMap fun r => match r with
      | .error e => some e
      | .ok _ => none) with
  | some e => .error e
  | none => .ok ((gs.zip tries).filterMap fun r => match r.2 with
      | .ok pa => some (r.1.1 % 2 ^ 64, pa)
      | .error _ => none)

/-- The pages of some translated granules. -/
def pagePairs (l : List (Nat × Nat)) : List (Nat × Nat) := (l.map fun p => (p.1 / 4096, p.2 / 4096)).eraseDups

/-- The physical bytes of a range by held translations. -/
def heldBytes (pages : List (Nat × Nat)) (va n : Nat) : List Nat :=
  (List.range n).map fun k => heldPage pages ((va + k) % 2 ^ 64)

/-- The event that carries a copy on. -/
def Copy.nextDue (c : Copy) (state : HandleState) (id : AgentId) (i : BitVec 5) : Option Due :=
  match c.kind.toNat, state with
  | 0, _ => if c.got < c.n.toNat then some (.streamStripArrival id i) else none
  | 1, .draining => some (.copyComplete id i)
  | 1, _ => if c.got < c.pos then some (.streamStripArrival id i) else none
  | _, .filling => some (.copySourceRead id i)
  | _, .draining => some (.copyComplete id i)
  | _, _ => none

/-- Every copy of a hart carried on, after a resume (R158). -/
def State.rearmCopies (s : State) (h : Hart) : State :=
  (List.range 32).foldl (fun s i => match h.copy.getD i none with
    | some c => match c.nextDue (h.h.getD i .free) h.id (BitVec.ofNat 5 i) with
      | some d => s.due d
      | none => s
    | none => s) s

/-- The copy engine of the hart's core is dead (R188, R316). -/
def State.copyEngineDead (s : State) : Bool :=
  !s.hart.id.control && s.pkg.dead.elem (.copyEngine s.hart.id.quad s.hart.id.core)

/-- copy.cfg (R153). A slot that the hart does not hold is an access fault, which a translation fault of either range
comes before (R301). A copy given to a dead engine is lost: its handle is free at once (R316). -/
def execCopyCfg (cls : BitVec 4) (q : BitVec 3) (i a : BitVec 5) (s : State) : Res :=
  s.outsideRegion <|
    let h := s.hart
    let va := (s.rs a).toNat
    if va % 32 ≠ 0 then s.takeTrap 4 0 0 0 (some va)
    else match s.readChecked va 32 with
      | .error e => s.stopAt 0 e
      | .ok (x, t) =>
        let c := Copy.ofWords (bits x 63 0) (bits x 127 64) (bits x 191 128) (bits x 255 192) cls
        if !c.valid (bits x 63 0) || h.h.getD i.toNat .free ≠ .free || (c.streams && (h.q.getD q.toNat none).isSome) then
          t.badConfig
        else
          let src := s.translateAll h .load c.sources
          let dst := s.translateAll h .store c.destinations
          let fault5 := fun (r : Except Stop (List (Nat × Nat))) => match r with
            | .error (.trap 5 u b) => some (Stop.trap 5 u b)
            | _ => none
          match firstHoldStop (fault5 src) (fault5 dst) with
          | some e => s.stopWith (rangePages (c.sources ++ c.destinations)) 0 e
          | none =>
            if c.kind = 3 ∧ !s.feeds c.slot.toNat then t.denied
            else match src, dst with
              | .error e, _ => s.stopWith (rangePages (c.sources ++ c.destinations)) 0 e
              | _, .error e => s.stopWith (rangePages (c.sources ++ c.destinations)) 0 e
              | .ok ls, .ok ld =>
                let lines := (ld.map fun p => p.2 / 64).eraseDups
                if lines.any s.owned then s.waitFor .engineLine
                else if lines.any fun l => s.flipping (64 * l) then s.waitFor .biasFlip
                else if s.full .cp then s.waitFor .counter
                else if c.n = 0 then (t.noteWalks ((ls ++ ld).map (·.1))).done
                else if s.copyEngineDead then
                  (t.on fun h => h.lose (i.toNat :: if c.streams then [64 + q.toNat] else [])).done
                else
                  let t := t.noteWalks ((ls ++ ld).map (·.1))
                  let c := { c with
                    gen := (s.ctx h.ctx).gen
                    pages := pagePairs (ls ++ ld)
                    lines := lines
                    order := s.free }
                  let t := (t.raise .cp).fresh.on fun h => { h with
                    h := h.h.setIfInBounds i.toNat .filling
                    copy := h.copy.setIfInBounds i.toNat (some c)
                    q := if c.streams then h.q.setIfInBounds q.toNat (some i) else h.q
                    lost := h.lost.filter fun k => decide (k ≠ i.toNat) && decide (k ≠ 64 + q.toNat) }
                  -- the issue is an access: it meets the regions that track a destination line (R197)
                  let t := lines.foldl (fun t l => t.takeLine h.engine (addressIn ld l) l) t
                  (match c.nextDue .filling h.id i with
                    | some d => t.due d
                    | none => t).done
where
  /-- The first of two reasons. -/
  firstHoldStop (a b : Option Stop) : Option Stop := match a with
    | some e => some e
    | none => b

/-- The stream of handle i is still in use (R154, R156). -/
def Hart.streamInUse (h : Hart) (i : BitVec 5) : Bool :=
  match h.copyOf i with
  | none => false
  | some c => decide (c.kind = 0) || (decide (c.kind = 1) && h.h.getD i.toNat .free = .filling)

/-- qbind (R156). -/
def execQbind (q : BitVec 3) (i : BitVec 5) (s : State) : Res :=
  s.outsideRegion <|
    let h := s.hart
    let other := match h.q.getD q.toNat none with
      | some k => decide (k ≠ i)
      | none => false
    if !h.streamInUse i || other then s.trapAt 3 3
    else (s.on fun h => { h.unbindHandle i.toNat with q := (h.unbindHandle i.toNat).q.setIfInBounds q.toNat (some i) }).done

/-- qunbind (R156). -/
def execQunbind (q : BitVec 3) (s : State) : Res :=
  s.outsideRegion (s.on fun h => { h with q := h.q.setIfInBounds q.toNat none }).done

/-- hwait.src (R156). -/
def execHwaitSrc (i : BitVec 5) (s : State) : Res :=
  s.outsideRegion <|
    if s.hart.lost.elem i.toNat then s.lostTrap (· = i.toNat)
    else if s.hart.h.getD i.toNat .free = .filling then s.waitFor .handle
    else s.done

/-- hwait.vis (R156): at every scope a copy's writes become visible when its handle becomes free. -/
def execHwaitVis (_ : BitVec 3) (i : BitVec 5) (s : State) : Res :=
  s.outsideRegion <|
    if s.hart.lost.elem i.toNat then s.lostTrap (· = i.toNat)
    else if s.hart.h.getD i.toNat .free ≠ .free then s.waitFor .handle
    else s.done

/-- hrel (R157). -/
def execHrel (i : BitVec 5) (s : State) : Res :=
  s.outsideRegion (s.releaseHandle s.hart.id i.toNat).done

/-- The elements that remain of a copy (R157). -/
def Copy.remaining (c : Copy) : Nat := if c.streams then c.n.toNat - c.pos else c.n.toNat - c.written

/-- hstate (R157): a free handle has no kind, no stream and no elements. -/
def execHstate (i d : BitVec 5) (s : State) : Res :=
  s.outsideRegion <|
    let h := s.hart
    let bound := h.q.toList.findIdx? fun b => decide (b = some i)
    let word := match h.copyOf i with
      | none => (h.h.getD i.toNat .free).code
      | some c => (h.h.getD i.toNat .free).code + c.kind.toNat * 4 + (match bound with
          | some k => 32 + k * 64
          | none => 0) + min c.remaining (2 ^ 32 - 1) * 2 ^ 32
    s.give d (BitVec.ofNat 64 word)

/-! The copy engine. -/

/-- A line that the read of a copy waits for: owned by a copy issued before it, by an accumulator store or by an open
window, or in a region whose bias is being flipped (R128, R285). -/
def State.blocksRead (s : State) (order line : Nat) : Bool :=
  (s.harts ++ s.saved).any (fun h =>
    h.copy.toList.any (fun c => match c with
      | some c => decide (c.order < order) && c.lines.elem line
      | none => false) ||
    h.accStores.any fun p => p.lines.elem line) ||
  s.windows.any (fun w => w.contribs.any fun c => decide (c.addr / 64 = line)) || s.flipping (64 * line)

/-- A copy of a hart changed. -/
def State.onCopyOf (s : State) (id : AgentId) (i : BitVec 5) (f : Copy → Copy) : State :=
  s.update id fun h => h.onCopy i f

/-- Source elements [first, first + k) read: their values, which of them (of their 64-byte parts) are poisoned, and the state
after. -/
def State.readElements (s : State) (a : Accessor) (c : Copy) (first k : Nat) : State × List Nat × List Nat :=
  let places := (List.range k).map fun j => heldBytes c.pages (c.srcAddr (first + j)) c.unit
  let values := places.map fun p => ofBytes (s.mem.bytes p)
  let parts := places.flatMap fun p => chunks 64 p.length p
  let bad := ((parts.zipIdx).filter fun p => p.1.any s.poisoned).map fun p => first + p.2
  let reads := ((List.range k).flatMap fun j => granules (c.srcAddr (first + j)) c.unit).map fun g => (g.1 % 2 ^ 64, g.2)
  (reads.foldl (fun s g =>
    let pa := heldPage c.pages g.1
    s.engineRead a g.1 (pa / 64) (byteMask (pa % 64) g.2)) s, values, bad)

/-- The lines of source elements [from, from + k). -/
def Copy.sourceLines (c : Copy) (first k : Nat) : List Nat :=
  (((List.range k).flatMap fun j => heldBytes c.pages (c.srcAddr (first + j)) c.unit).map (· / 64)).eraseDups

/-- The source of a kind-2 or kind-3 copy is read (R154): the handle leaves filling. -/
def execCopySourceRead (who : AgentId) (i : BitVec 5) (s : State) : Res :=
  match s.find who with
  | none => .fault .notDue
  | some h => match h.copyOf i, h.h.getD i.toNat .free with
    | some c, .filling =>
      if c.streams then .fault .notDue
      else if (c.sourceLines 0 c.n.toNat).any (s.blocksRead c.order) then .next (s.due (.copySourceRead who i))
      else
        let (t, values, bad) := s.readElements h.engine c 0 c.n.toNat
        let t := t.onCopyOf who i fun c => { c with got := c.n.toNat, data := values, poisoned := bad }
        let t := t.update who fun h => { h with h := h.h.setIfInBounds i.toNat .draining }
        .next (t.due (.copyComplete who i))
    | _, _ => .fault .notDue

/-- A strip buffer is filled ahead of consumption (R155): up to one MVL of elements, four strips in all. The engine of a kind-1
copy takes a strip out of its buffer (R39). -/
def execStreamStripArrival (who : AgentId) (i : BitVec 5) (s : State) : Res :=
  match s.find who with
  | none => .fault .notDue
  | some h => match h.copyOf i with
    | none => .fault .notDue
    | some c =>
      let mvl := h.mvl c.sew
      let k := min mvl (c.n.toNat - c.got)
      if c.kind = 1 then
        if c.pos ≤ c.got then .fault .notDue
        else
          let got := min c.pos (c.got + mvl)
          let t := s.onCopyOf who i fun c => { c with got := got }
          .next (if got < c.pos then t.due (.streamStripArrival who i) else t)
      else if c.kind ≠ 0 || k = 0 then .fault .notDue
      else if c.data.length + k > 4 * mvl then .next s
      else if (c.sourceLines c.got k).any (s.blocksRead c.order) then .next (s.due (.streamStripArrival who i))
      else
        let (t, values, bad) := s.readElements h.engine c c.got k
        let t := t.onCopyOf who i fun c =>
          { c with got := c.got + k, data := c.data ++ values, poisoned := c.poisoned ++ bad }
        if c.got + k = c.n.toNat then
          .next (t.update who fun h => { h with h := h.h.setIfInBounds i.toNat .full })
        else if c.data.length + k + mvl ≤ 4 * mvl then .next (t.due (.streamStripArrival who i))
        else .next t

/-- The destination bytes of a copy, element by element. -/
def Copy.destBytes (c : Copy) : List (Nat × Byte) :=
  c.data.zipIdx.flatMap fun p => (heldBytes c.pages (c.dstAddr p.2) c.unit).zip (toBytes c.unit p.1)

/-- The poison that a copy carries to its destination granules (R313): of elements read from poisoned granules or spoiled in a strip
buffer. -/
def Copy.poisonLines (c : Copy) : List Nat :=
  ((c.poisoned ++ c.spoiled).flatMap fun e => (heldBytes c.pages (c.dstAddr e) c.unit).map (· / 64)).eraseDups

/-- The poison that a kind-3 copy carries to 64-byte parts of its slot (R313). -/
def Copy.poisonParts (c : Copy) : List Nat :=
  (c.poisoned ++ c.spoiled.flatMap fun e => (List.range ((c.unit + 63) / 64)).map (e * c.unit / 64 + ·)).eraseDups

/-- A copy completes (R154): its writes are performed, its lines released, its handle free and cp lower. -/
def execCopyComplete (who : AgentId) (i : BitVec 5) (s : State) : Res :=
  match s.find who with
  | none => .fault .notDue
  | some h => match h.copyOf i, h.h.getD i.toNat .free with
    | some c, .draining =>
      let t := if c.kind = 3 then
          let bytes := c.data.zipIdx.flatMap fun p => (toBytes c.unit p.1).zipIdx.map fun b =>
            (h.id.quad * 2 ^ 19 + c.slot.toNat * 2 ^ 14 + p.2 * c.unit + b.2, b.1)
          State.markSlots { s with slots := s.slots.setBytes bytes } (bytes.map (·.1))
            (c.poisonParts.map fun k => h.id.quad * 2 ^ 13 + c.slot.toNat * 2 ^ 8 + k)
        else (s.engineWrite (fun _ => h.engine) c.destBytes).poisonGranules c.poisonLines
      .next (t.update who fun h => (h.freeHandle i.toNat).unbindHandle i.toNat)
    | _, _ => .fault .notDue

end Sys2Proof.Machine
end

