-- ==== Sys2Proof/Machine/Collective.lean ====
section
/-! DEFINITION. Pushes, collective reductions and ordered-reduction units: major 0x1A (R159 to R161) and the closing of
damo.add windows (R147 to R149, R203). A hart stays at its vpush or xred until the engine has completed it, so that
the traps of R159 and R161 name that instruction. -/

namespace Sys2Proof.Machine

/-- The hart of that name made the one that moves first; the others keep their order. -/
def State.bringForward (s : State) (id : AgentId) : State :=
  if s.hart.id = id then s
  else match s.parked.find? fun h => decide (h.id = id) with
    | none => s
    | some h => { s with hart := h, parked := s.hart :: s.parked.filter fun k => decide (k.id ≠ id) }

/-- A trap that an engine raises in a hart, at the instruction where the hart stands. -/
def State.trapHart (s : State) (id : AgentId) (code sub : Nat) : State :=
  let me := s.hart.id
  match (s.bringForward id).takeTrap code sub 0 0 none with
  | .next t => t.bringForward me
  | _ => s

/-- The registers first .. first + n - 1 hold an empty one. -/
def Hart.emptyRun (h : Hart) (first n : Nat) : Bool := (List.range n).any fun k => h.empty.getLsbD (first + k)

/-- The elements 0 .. g - 1 of a register at the current SEW. -/
def Hart.elements (h : Hart) (n : Nat) : List Nat := (List.range h.g).map fun e => elem (h.getV n) h.sew e

/-- The receiver that a vpush descriptor names (R159). -/
def pushReceiver (sender : AgentId) (x : Nat) : AgentId :=
  ⟨36 * die sender + bits x 7 0 / 4, bits x 7 0 % 4, bits x 10 8, false⟩

/-- A push or a call that a hart waits for is gone, and no longer counted in cp. -/
def Hart.transferGone (h : Hart) : Hart := { h with pushing := none, xredCall := none, cnt := h.cnt.add .cp (-1) }

/-- vpush (R159). One that was lost with the engine while its hart stood saved traps here (R316). -/
def execVpush (cls : BitVec 4) (b : BitVec 5) (n f : BitVec 6) (s : State) : Res :=
  s.outsideRegion <|
    let h := s.hart
    let x := (s.rs b).toNat
    let d := bits x 21 16
    let dest := pushReceiver h.id x
    let fits := fun (r : Hart) => decide (r.ctx = h.ctx) && decide (dest ≠ h.id) && decide (dest.hart < 2 ^ r.split.toNat)
    let ok := match s.find dest with
      | none => false
      | some r => r.active && fits r
    -- a receiver that stands pre-empted still holds its task (DESIGN CHOICE, log 44): the push waits for it
    let away := !(s.harts.any fun r => r.active && decide (r.id = dest)) &&
      s.saved.any fun r => decide (r.id = dest) && fits r
    if h.lost.elem 33 then (s.on Hart.transferGone).lostTrap (· = 33)
    else match h.pushing with
    | some _ => s.waitFor .collective
    | none =>
      let lostAt := ((List.range n.toNat).any fun k => h.parity.any fun r => match r with
        | .v j slot => decide (j = f.toNat + k) && decide (slot * (64 / h.sew) < h.g)
        | _ => false)
      if (!ok && !away) || 144 ≤ bits x 7 0 || d + n.toNat > 48 then s.denied
      else if !ok then s.waitFor .collective
      else if h.emptyRun f.toNat n.toNat then s.waitFor .emptyRegister
      else if s.accessesPending (2 ^ cls.toNat) then s.waitFor .handle
      else if s.full .cp then s.waitFor .counter
      else if lostAt then s.trapAt 8 1
      else if s.pkg.dead.elem .collectiveEngine then s.trapAt 8 4
      else
        let bundle := match s.find dest with
          | some r => (r.qcb, r.job, r.bundle)
          | none => (0, 0, 0)
        let data := (List.range n.toNat).map fun k => (d + k, pack h.sew h.g fun e => elem (h.getV (f.toNat + k)) h.sew e)
        let marks := data.foldl (fun a p => a ||| 2 ^ p.1) 0
        let t := (s.raise .cp).update dest fun r => { r with empty := r.empty ||| BitVec.ofNat 48 marks }
        let t := t.fresh.on fun h => { h with pushing := some s.free }
        let t := { t with
          pushes := t.pushes ++ [(⟨s.free, h.id, dest, bundle, BitVec.ofNat 4 h.fmtCode, h.g, data⟩ : Push)]
          agenda := t.agenda ++ data.map fun (_ : Nat × Nat) => Due.vpushDelivery s.free }
        t.waitFor .collective

/-- A register with its first n elements replaced by those of x, up to the MVL (R159). -/
def Hart.landed (h : Hart) (sew n old x : Nat) : Nat :=
  pack sew (h.mvl sew) fun e => if e < n then elem x sew e else elem old sew e

/-- A pushed register lands at the receiver and is full (R159): its first n elements are written. -/
def Hart.receive (h : Hart) (sew n reg x : Nat) : Hart :=
  let k := 64 / sew
  let h := (h.setV reg (h.landed sew n (h.getV reg) x)).goodV reg (fun slot => decide ((slot + 1) * k ≤ n))
    (fun r => decide (r * (h.lanes * k) < n))
  { h with empty := h.empty &&& ~~~(BitVec.ofNat 48 (2 ^ reg)) }

/-- The instruction at which a hart has waited for an engine is complete. -/
def Hart.engineDone (h : Hart) : Hart :=
  { h with pc := h.pc + 4, vstart := 0, wait := none, cnt := h.cnt.add .cp (-1), pushing := none, xredCall := none }

/-- A pushed register lands at the receiver and is full (R159); when the receiver's task has ended, the sender takes
an access fault. -/
def execVpushDelivery (n : Nat) (s : State) : Res :=
  match s.pushes.find? fun p => decide (p.id = n) with
  | none => .fault .notDue
  | some p =>
    let mine := fun (r : Hart) => decide (r.id = p.receiver) && r.active && decide ((r.qcb, r.job, r.bundle) = p.bundle)
    match p.data with
    | [] => .fault .notDue
    | (reg, x) :: rest =>
      let sends := match s.find p.sender with
        | some h => decide (h.pushing = some n)
        | none => false
      if !sends then .next (s.due (.vpushDelivery n))
      else if s.harts.any mine then
        let sew := (fmtOf p.fmt).sew
        let t := s.update p.receiver fun r => r.receive sew p.granted reg x
        let others := fun (q : Push) => decide (q.id ≠ n)
        if rest.isEmpty then
          .next ({ t with pushes := t.pushes.filter others }.update p.sender Hart.engineDone)
        else .next { t with pushes := t.pushes.map fun q => if q.id = n then { q with data := rest } else q }
      else if s.saved.any mine then .next (s.due (.vpushDelivery n))
      else
        let t := { s with
          pushes := s.pushes.filter fun (q : Push) => decide (q.id ≠ n)
          agenda := s.agenda.filter fun (d : Due) => decide (d ≠ Due.vpushDelivery n) }
        .next ((t.update p.sender Hart.transferGone).trapHart p.sender 6 2)

/-! Collective reductions. -/

/-- The formats of xred (R160). -/
def xredTakes (f : Fmt) : Bool := f = .f64 || f = .f32 || f = .bf16 || f = .i64 || f = .i32

/-- The group is granted to the context (R277). -/
def State.groupGranted (s : State) (g : Nat) (c : BitVec 12) : Bool :=
  Sparse.get (fun _ => (0 : BitVec 13)) s.pkg.coll g = 1#1 ++ c

/-- The least member count that a member of a call has given: with so many members the engine compares them (R161). -/
def XredCall.fewest (c : XredCall) : Nat :=
  match c.members with
  | [] => 0
  | m :: rest => rest.foldl (fun n k => min n k.parts) m.parts

/-- A contribution to a call: it joins the oldest open call of its group and context that the member has not joined (R160). A member
that stands saved is another hart than the one that now has its name. A call with one ordered member is ordered for all of them: its
left fold is one of the trees that the free form may take (R7, R160; DEDUCED, log 44). -/
def joinCall (id group : Nat) (ctx : BitVec 12) (ordered : Bool) (m : Member) : List XredCall → List XredCall × Nat
  | [] => ([⟨id, group, ctx, ordered, [m], none⟩], id)
  | c :: rest =>
    if c.group = group ∧ c.ctx = ctx ∧ c.outcome = none ∧ !(c.members.any fun k => !k.away && decide (k.who = m.who)) then
      ({ c with members := c.members ++ [m], ordered := c.ordered || ordered } :: rest, c.id)
    else
      let r := joinCall id group ctx ordered m rest
      (c :: r.1, r.2)

/-- xred.o and xred.f (R160): the member contributes once, then waits for the call. One that was lost with the engine while its hart
stood saved traps here (R316). -/
def State.collective (s : State) (ordered : Bool) (cls : BitVec 4) (b : BitVec 5) (n f : BitVec 6) : Res :=
  s.outsideRegion <|
    let h := s.hart
    let x := (s.rs b).toNat
    if h.lost.elem 33 then (s.on Hart.transferGone).lostTrap (· = 33)
    else match h.xredCall with
    | some _ => s.waitFor .collective
    | none =>
      if !xredTakes h.fmt then s.badConfig
      else if !s.groupGranted (bits x 15 0) h.ctx then s.denied
      else if h.emptyRun f.toNat n.toNat then s.waitFor .emptyRegister
      else if s.accessesPending (2 ^ cls.toNat) then s.waitFor .handle
      else if s.full .cp then s.waitFor .counter
      else if s.pkg.dead.elem .collectiveEngine then s.trapAt 8 4
      else
        let bad := h.parity.filterMap fun r => match r with
          | .v j slot => if f.toNat ≤ j ∧ j < f.toNat + n.toNat ∧ slot * (64 / h.sew) < h.g then some (j - f.toNat, slot) else none
          | _ => none
        let m : Member := ⟨h.id, bits x 47 32, n.toNat, h.g, BitVec.ofNat 4 h.fmtCode, f.toNat, bits x 31 16,
          (List.range n.toNat).map fun k => h.elements (f.toNat + k), bad, BitVec.ofNat 2 (bits h.vt.toNat 10 9), false⟩
        let (calls, id) := joinCall s.free (bits x 15 0) h.ctx ordered m s.xred
        let t := { (s.raise .cp).fresh with xred := calls }
        let t := t.on fun h => { h with xredCall := some id }
        let ready := calls.any fun c => decide (c.id = id) && decide (c.fewest ≤ c.members.length)
        let t := if ready && !t.agenda.elem (.xredComplete id) then t.due (.xredComplete id) else t
        t.waitFor .collective

/-- xred.o (R160). -/
def execXredO (cls : BitVec 4) (b : BitVec 5) (n f : BitVec 6) (s : State) : Res := s.collective true cls b n f

/-- xred.f (R160). -/
def execXredF (cls : BitVec 4) (b : BitVec 5) (n f : BitVec 6) (s : State) : Res := s.collective false cls b n f

/-- The members of a call agree, and their ranks are those of its N members (R161). -/
def XredCall.agrees (c : XredCall) (remote : List (Nat × List (List Nat))) : Bool :=
  match c.members with
  | [] => false
  | m :: rest =>
    rest.all (fun k => decide (k.parts = m.parts) && decide (k.count = m.count) && decide (k.granted = m.granted) &&
      decide (k.fmt = m.fmt)) &&
    (List.range m.parts).all (fun r => decide (((c.members.map (·.rank)) ++ remote.map (·.1)).count r = 1)) &&
    decide (c.members.length + remote.length = m.parts)

/-- The contributions of a call by rank. -/
def XredCall.byRank (c : XredCall) (remote : List (Nat × List (List Nat))) (n : Nat) : List (List (List Nat)) :=
  let all := (c.members.map fun m => (m.rank, m.data)) ++ remote
  (List.range n).map fun r => ((all.find? fun p => decide (p.1 = r)).map (·.2)).getD []

/-- The rounding mode of a call (R160): that of its members; where they differ, a free function of their modes by rank, so
that neither arrival nor placement enters it (R7; DESIGN CHOICE, log 44). -/
def XredCall.rounding (c : XredCall) : Rnd :=
  let modes := (sortBy (·.rank) c.members).map fun m => (m.rank, m.rnd)
  match modes with
  | [] => .rne
  | p :: rest => if rest.all fun q => decide (q.2 = p.2) then Rnd.ofCode p.2.toNat else Rnd.ofCode (Config.mixedRounding modes).toNat

/-- RND(a + b) of a format; integers modulo (R160). -/
def addIn (f : Fmt) (r : Rnd) (a b : Nat) : Nat := if f.isFloat then fpAdd f r a b else (a + b) % 2 ^ f.sew

/-- One reduced element: in rank order, or by a free tree (R160). -/
def reduceRanks (ordered : Bool) (f : Fmt) (r : Rnd) (pick : Nat → Nat) (xs : List Nat) : Nat :=
  match xs with
  | [] => 0
  | x :: rest =>
    if ordered then rest.foldl (addIn f r) x
    else (freeTree pick (addIn f r) (x :: rest).length (x :: rest)).getD 0

/-- A destination register of a call: elements below g, padding kept, tail by R137 (R160). -/
def Hart.reduced (h : Hart) (sew old : Nat) (keeps : Nat → Bool) (new : Nat → Nat) : Nat :=
  pack sew (h.mvl sew) fun e =>
    if e < h.g then new e
    else if e < h.vl.toNat then elem old sew e
    else h.destElem 0 none keeps (elem old sew) new e

/-- A destination register of a call written. -/
def Hart.reduce (h : Hart) (sew : Nat) (keeps : Nat → Bool) (n : Nat) (new : Nat → Nat) : Hart :=
  (h.wrote n sew fun e => decide (e < h.g) || (decide (h.vl.toNat ≤ e) && h.writes 0 none keeps e)).setV n
    (h.reduced sew (h.getV n) keeps new)

/-- Uncorrectable errors carried to register slots (R313). -/
def Hart.carry (h : Hart) (bad : List RegSlot) : Hart :=
  if bad.isEmpty then h else { h with parity := (h.parity ++ bad).eraseDups }

/-- What a call gives (R160, R161): the sums of its elements, in the formats that its members agree on, or the trap. `free` numbers its
choice of trees. -/
def XredCall.result (c : XredCall) (m : Member) (remote : List (Nat × List (List Nat))) (free : Nat) : XredOutcome :=
  if !c.agrees remote then .trap 7 0
  else
    let f := fmtOf m.fmt
    let ranks := c.byRank remote m.parts
    let value := fun (k e : Nat) => reduceRanks c.ordered f c.rounding (Config.pick free k e) (ranks.map fun d => (d.getD k []).getD e 0)
    .sums ((List.range m.count).map fun k => pack f.sew m.granted (value k)) (c.members.flatMap (·.bad)).eraseDups

/-- The sums of a call as a member receives them (R160, R161). -/
def Hart.sums (h : Hart) (k : Member) (keeps : Nat → Bool) (sums : List Nat) (bad : List (Nat × Nat)) : Hart :=
  let w := (fmtOf k.fmt).sew
  ((sums.zipIdx.foldl (fun (h : Hart) (p : Nat × Nat) => h.reduce w keeps (k.first + p.2) (elem p.1 w)) h).carry
    (bad.map fun b => .v (k.first + b.1) b.2)).engineDone

/-- A member takes what its call gives it. -/
def State.takeOutcome (s : State) (free : Nat) (o : XredOutcome) (k : Member) : State :=
  match o with
  | .trap code sub => (s.update k.who Hart.transferGone).trapHart k.who code sub
  | .sums l bad => s.update k.who fun h => h.sums k (Config.keepsTail free) l bad

/-- A call that is complete gives the members that run what it gives; those whose bundles stand pre-empted take it once they resume
(R161). -/
def State.deliverCall (s : State) (c : XredCall) (o : XredOutcome) : State :=
  let away := c.members.filter (·.away)
  let rest := s.xred.filter fun k => decide (k.id ≠ c.id)
  let s' := { s with xred := if away.isEmpty then rest else rest ++ [{ c with members := away, outcome := some o }] }
  (c.members.filter fun k => !k.away).foldl (fun t k => t.takeOutcome s.free o k) s'.fresh

/-- A call completes (R160, R161), or gives a resumed member what it gave the others. `remote` are the contributions of members in other
packages, by rank. -/
def execXredComplete (n : Nat) (remote : List (Nat × List (List Nat))) (s : State) : Res :=
  match s.xred.find? fun c => decide (c.id = n) with
  | none => .fault .notDue
  | some c => match c.outcome, c.members with
    | _, [] => .fault .notDue
    | some o, _ => if c.members.all (·.away) then .fault .notDue else .next (s.deliverCall c o)
    | none, m :: _ =>
      if c.members.length + remote.length < c.fewest then .fault .notDue
      else .next (s.deliverCall c (c.result m remote s.free))

/-! Ordered-reduction units. -/

/-- A window is that of a message at a slice's unit (R147): one of its context and identifier. -/
def Window.is (w : Window) (m : OruMsg) (slice : Nat) : Bool :=
  decide (w.slice = slice) && decide (w.ctx = m.ctx) && decide (w.win = m.win)

/-- The window of a message at a slice. -/
def State.windowOf (s : State) (m : OruMsg) (slice : Nat) : Option Window := s.windows.find? fun w => w.is m slice

/-- The slice of a message of contributions. -/
def OruMsg.slice (m : OruMsg) : Nat := m.slices.headD 0

/-- The issuers that hold an entry of a line in a window (R203). -/
def Window.issuers (w : Window) (line : Nat) : List Nat :=
  ((w.contribs.filter fun c => decide (c.addr / 64 = line)).map (·.issuer)).eraseDups

/-- The overflow entries of a slice in use (R203). -/
def State.overflowUsed (s : State) (slice : Nat) : Nat :=
  (s.windows.filter fun w => decide (w.slice = slice)).foldl (fun n w =>
    (((w.contribs.map fun c => c.addr / 64).eraseDups).foldl (fun k l => k + ((w.issuers l).length - 16)) n)) 0

/-- A line of contributions takes an overflow entry: the first 16 issuers fill the buffer (R203). -/
def OruMsg.overflows (m : OruMsg) (w : Option Window) : Bool :=
  match w, m.contribs with
  | some w, c :: _ => decide ((w.issuers m.line).length ≥ 16) && !(w.issuers m.line).elem c.issuer
  | _, _ => false

/-- The sum of one address (R148): up to 16 issuers one by one, more in groups of 16 whose sums are added. -/
def oruSum (f : Fmt) (old : Nat) (cs : List Nat) : Nat :=
  let add := addIn f .rne
  if cs.length ≤ 16 then cs.foldl add old
  else ((chunks 16 cs.length cs).map fun g => match g with
    | [] => 0
    | x :: xs => xs.foldl add x).foldl add old

/-- The slice logs of a close (R319): one record for each line, of the hart whose contribution to it came first. -/
def State.logClose (s : State) (w : Window) : State :=
  ((w.contribs.map fun c => c.addr / 64).eraseDups).foldl (fun s l => match w.contribs.find? fun c => decide (c.addr / 64 = l) with
    | some c =>
      s.slog { (s.find c.who).getD (Hart.idle c.who) with ctx := w.ctx, pc := c.pc } c.elem c.va 4 w.slice
    | none => s) s

/-- The accesses of a window's unit, at its slice. -/
def Window.unit (w : Window) : Accessor := ⟨some w.ctx, w.slice / 128, none, true⟩

/-- The bytes that a window's close writes at one address (R148), from the old value and the contributions in the order of their issuers.
Where issuers give different formats there, all are read in that of the lowest issuer (DESIGN CHOICE, log 44). -/
def Window.sumAt (w : Window) (m : Memory) (a : Nat) : List (Nat × Byte) :=
  let cs := sortBy (·.issuer) (w.contribs.filter fun c => decide (c.addr = a))
  let f := fmtOf ((cs.head?.map (·.fmt)).getD 0)
  let new := oruSum f (m.read a f.esz) (cs.map fun c => c.value % 2 ^ f.sew)
  (toBytes f.esz new).zipIdx.map fun p => (a + p.2, p.1)

/-- The addresses that the contributions of a window touch, ascending. -/
def Window.addrs (w : Window) : List Nat := sortBy id ((w.contribs.map (·.addr)).eraseDups)

/-- A window closes (R148): each address is written once; a poisoned granule that its sums read stays poisoned (R313). -/
def State.closeWindow (s : State) (w : Window) : State :=
  let bytes := w.addrs.flatMap (w.sumAt s.mem)
  let bad := ((bytes.map fun b => b.1 / 64).eraseDups).filter s.pkg.poison.elem
  ((s.engineWrite (fun _ => w.unit) bytes).poisonGranules bad).logClose w

/-- A message is accepted by the unit of a slice (R147, R203): contributions enter the window, the first token fixes its
count, the last closes it. -/
def State.acceptAt (s : State) (m : OruMsg) (slice : Nat) : State :=
  let w := (s.windowOf m slice).getD ⟨slice, m.ctx, m.win, none, 0, []⟩
  let w : Window := match m.token with
    | none => { w with contribs := w.contribs ++ m.contribs.map fun (c : Contribution) => { c with stamp := s.free } }
    | some n => { w with parts := some (w.parts.getD n), tokens := w.tokens + 1 }
  -- each contribution is an access, and the unit owns its line from then on (R149)
  let s : State := match m.contribs with
    | [] => s
    | c :: _ => s.takeLine w.unit c.va (c.addr / 64)
  let full := match w.parts with
    | some n => decide (n ≤ w.tokens)
    | none => false
  if full then { s with windows := s.windows.filter fun k => !k.is m slice }.closeWindow w
  else if (s.windowOf m slice).isSome then { s with windows := s.windows.map fun k => if k.is m slice then w else k }
  else { s with windows := s.windows ++ [w] }

/-- When the first contribution of a message's window was accepted at its slice; none before that (R203). -/
def State.firstAccepted (s : State) (m : OruMsg) : Option Nat :=
  ((s.windowOf m m.slice).bind fun w => w.contribs.head?).map (·.stamp)

/-- A waiting contribution comes before another at their slice: by their windows' first contributions, then by arrival
(R203). -/
def State.comesFirst (s : State) (k m : OruMsg) : Bool :=
  let arrival := match k.waited, m.waited with
    | some a, some b => decide (a < b)
    | some _, none => true
    | none, _ => false
  match s.firstAccepted k, s.firstAccepted m with
  | some a, some b => decide (a < b) || (decide (a = b) && arrival)
  | some _, none => true
  | none, some _ => false
  | none, none => arrival

/-- A contribution waits behind another one that waits at its slice (R203). -/
def State.waitsBehind (s : State) (m : OruMsg) : Bool :=
  s.oruIn.any fun k => k.token.isNone && k.waited.isSome && decide (k.id ≠ m.id) && decide (k.slice = m.slice) && s.comesFirst k m

/-- The slices that a token does not reach yet: contributions of its own damo.add go before it (R147). -/
def State.tokenBehind (s : State) (m : OruMsg) : List Nat :=
  m.slices.filter fun n => s.oruIn.any fun k => k.token.isNone && decide (k.op = m.op) && k.slices.elem n

/-- The accepted message leaves; the damo.add is complete when the last of its messages has left (R135). -/
def State.leaveOru (s : State) (m : OruMsg) : State :=
  let t := { s with oruIn := s.oruIn.filter fun k => decide (k.id ≠ m.id) }
  if m.owed && !(t.oruIn.any fun k => decide (k.op = m.op)) then t.due (.operationComplete m.sender .st) else t

/-- Ordered-reduction units accept a contribution or close tokens (R203), or let them wait. -/
def execOruAccept (n : Nat) (s : State) : Res :=
  match s.oruIn.find? fun m => decide (m.id = n) with
  | none => .fault .notDue
  | some m =>
    if m.token.isSome then
      let behind := s.tokenBehind m
      let t := (m.slices.filter fun k => !behind.elem k).foldl (fun t k => t.acceptAt m k) s
      .next (if behind.isEmpty then t.leaveOru m
        else { t with oruIn := t.oruIn.map fun (k : OruMsg) => if k.id = n then { k with slices := behind } else k }.due (.oruAccept n))
    else if s.engineOwned m.line || s.flipping (64 * m.line) then .next (s.due (.oruAccept n))
    else
      let extra := m.overflows (s.windowOf m m.slice)
      if extra && (decide (s.overflowUsed m.slice ≥ 2048) || s.waitsBehind m) then
        let t := if m.waited.isSome then s else
          { s.fresh.count m.ctx 0x759 0 1 with
            oruIn := s.oruIn.map fun (k : OruMsg) => if k.id = n then { k with waited := some s.free } else k }
        .next (t.due (.oruAccept n))
      else
        let t := if extra then s.count m.ctx 0x758 0 1 else s
        .next ((t.acceptAt m m.slice).fresh.leaveOru m)

end Sys2Proof.Machine
end

