-- ==== Sys2Proof/Machine/Matrix.lean ====
section
/-! DEFINITION. The matrix engine: major 0x1D and the T64 tile operations (14_matrix.md, R219 to R221). A tile
operation computes at its completion, reading its slots, scale lines and window there: they change only by what R268
allows meanwhile. -/

namespace Sys2Proof.Machine

/-- The shape of a format's tile operation: window rows H, columns W, K of one slot, dot group G (R219, R254, R255). -/
structure TileShape where
  H : Nat
  W : Nat
  K : Nat
  G : Nat

/-- The shape by format (R219, R254, R255). -/
def tileShape : Fmt → TileShape
  | .f64 => ⟨64, 64, 32, 1⟩
  | .f32 => ⟨64, 64, 64, 8⟩
  | .bf16 | .f16 => ⟨128, 128, 64, 64⟩
  | _ => ⟨128, 128, 128, 128⟩

/-- The address of a slot's byte. -/
def slotAddr (quad slot off : Nat) : Nat := quad * 2 ^ 19 + slot * 2 ^ 14 + off

/-- The address of a cell. -/
def cellAddr (quad row col : Nat) : Nat := quad * 2 ^ 18 + (row * 256 + col) * 4

/-- The key of scale i of a line; i = 128 is b. -/
def scaleKey (quad line i : Nat) : Nat := (quad * 32 + line) * 129 + i

/-- The bits of 1.0 in FP32: every scale at placement (R251). -/
def oneScale (_ : Nat) : BitVec 32 := 0x3F800000

/-- A scale. -/
def State.scale (s : State) (quad line i : Nat) : Nat := (Sparse.get oneScale s.scales (scaleKey quad line i)).toNat

/-- An element (row i, place k) of a slot's tile (R254). -/
def State.slotElem (s : State) (quad slot : Nat) (f : Fmt) (i k : Nat) : Nat :=
  s.slots.read (slotAddr quad slot ((i * (tileShape f).K + k) * f.esz)) f.esz

/-- The bits of an accumulator element: a cell, or the pair of an FP64 one (R45). -/
def State.cell (s : State) (quad row col : Nat) (wide : Bool) : Nat :=
  s.acc.read (cellAddr quad row col) (if wide then 8 else 4)

/-- The group values of one output element, as numbers, in increasing K (R219, R257). -/
def State.groupValues (s : State) (quad : Nat) (f : Fmt) (a b kc : Nat) (sc : Option Nat) (m n : Nat) : List Num :=
  let sh := tileShape f
  (List.range kc).flatMap fun st => (List.range (sh.K / sh.G)).map fun j =>
    let products := (List.range sh.G).map fun i =>
      let k := j * sh.G + i
      Num.mul (.decode f (s.slotElem quad (a + st) f m k)) (.decode f (s.slotElem quad (b + st) f n k))
    let sum := match products with
      | [] => .zero false
      | p :: ps => ps.foldl (Num.add .rne) p
    if f = .f64 then sum
    else
      let v := sum.round .f32 .rne
      match sc with
      | none => .decode .f32 v
      | some line => .decode .f32 (fpMul .f32 .rne v
          (fpMul .f32 .rne (s.scale quad (line + st) m) (s.scale quad (line + st) 128)))

/-- The group sums of one output element of an INT8 operation. -/
def State.groupInts (s : State) (quad a b kc m n : Nat) : List Int :=
  (List.range kc).map fun st => (List.range 128).foldl (fun x k =>
    x + toSigned 8 (s.slotElem quad (a + st) .i8 m k) * toSigned 8 (s.slotElem quad (b + st) .i8 n k)) 0

/-- acc := RNEacc(acc + v) over the first values (R220). -/
def addOrdered (acc : Fmt) (old : Nat) (vs : List Num) : Nat :=
  vs.foldl (fun x v => (Num.add .rne (.decode acc x) v).round acc .rne) old

/-- The root of a tree over acc_old and some values (R221), each node rounded. -/
def addFree (acc : Fmt) (pick : Nat → Nat) (old : Nat) (vs : List Num) : Nat :=
  let leaves := Num.decode acc old :: vs
  let join := fun x y => Num.decode acc ((Num.add .rne x y).round acc .rne)
  match vs with
  | [] => old
  | _ => ((freeTree pick join leaves.length leaves).getD .nan).round acc .rne

/-- The accumulator format of a tile operation (R219). -/
def accFmt (f : Fmt) : Fmt := if f = .f64 then .f64 else .f32

/-- One output element of an mma after its first `groups` groups, all of them when none (R257, R261). -/
def State.mmaElem (s : State) (quad : Nat) (ordered : Bool) (f : Fmt) (a b kc : Nat) (sc : Option Nat) (row0 col0 m n : Nat)
    (groups : Option Nat) : Nat :=
  let wide := f = .f64
  let row := row0 + m
  let col := col0 + (if wide then 2 * n else n)
  let old := s.cell quad row col wide
  if f = .i8 then
    let vs := s.groupInts quad a b kc m n
    ofSigned 32 ((vs.take (groups.getD vs.length)).foldl (· + ·) (toSigned 32 old))
  else
    let vs := s.groupValues quad f a b kc sc m n
    let vs := vs.take (groups.getD vs.length)
    if ordered then addOrdered (accFmt f) old vs else addFree (accFmt f) (Config.pick s.free row col) old vs

/-- A window of cells written, `new` giving each element. -/
def State.writeWindow (s : State) (quad row0 col0 H W : Nat) (wide : Bool) (new : Nat → Nat → Nat) : State :=
  let bytes := (List.range H).flatMap fun m => (List.range W).flatMap fun n =>
    (toBytes (if wide then 8 else 4) (new m n)).zipIdx.map fun p =>
      (cellAddr quad (row0 + m) (col0 + (if wide then 2 * n else n)) + p.2, p.1)
  { s with acc := s.acc.setBytes bytes }

/-- The scale line of an operation's scale field; 63 is none (R256). -/
def scaleOf (sc : BitVec 6) : Option Nat := if sc = 63 then none else some sc.toNat

/-- The rescaled value of a cell (R263). -/
def State.rescale (s : State) (quad line m x : Nat) : Nat :=
  fpMul .f32 .rne x (fpMul .f32 .rne (s.scale quad line m) (s.scale quad line 128))

/-- The key of a cell among the poisoned ones. -/
def cellKeyOf (quad row col : Nat) : Nat := quad * 2 ^ 16 + row * 256 + col

/-- One of an element's cells is poisoned (R313). -/
def State.cellBad (s : State) (quad row col : Nat) (wide : Bool) : Bool :=
  s.pkg.cellPoison.elem (cellKeyOf quad row col) || (wide && s.pkg.cellPoison.elem (cellKeyOf quad row (col + 1)))

/-- A window of w columns of cells is written: each granule of 16 cells that lies in it whole loses its poison, a part of one
keeps it (R312). -/
def State.healCells (s : State) (quad row0 col0 H w : Nat) : State :=
  if s.pkg.cellPoison.isEmpty then s
  else s.onPkg fun p => { p with cellPoison := p.cellPoison.filter fun k =>
    let col := bits k 7 0 / 16 * 16
    !(decide (k / 2 ^ 16 = quad) && decide (row0 ≤ bits k 15 8) && decide (bits k 15 8 < row0 + H) &&
      decide (col0 ≤ col) && decide (col + 16 ≤ col0 + w)) }

/-- A row of one of kc slots' tiles meets a poisoned granule. -/
def State.rowBad (s : State) (quad slot kc : Nat) (f : Fmt) (i : Nat) : Bool :=
  let n := (tileShape f).K * f.esz / 64
  (List.range kc).any fun st => (List.range n).any fun q =>
    s.pkg.slotPoison.elem (slotAddr quad (slot + st) 0 / 64 + i * n + q)

/-- The poison of operand memory carried to each cell that its values reach (R313). -/
def State.carryPoison (s : State) (quad : Nat) (f : Fmt) (a b kc row0 col0 : Nat) : State :=
  if s.pkg.slotPoison.isEmpty then s
  else
    let sh := tileShape f
    let wide := f = .f64
    let bad := (List.range sh.H).flatMap fun m => (List.range sh.W).flatMap fun n =>
      if s.rowBad quad a kc f m || s.rowBad quad b kc f n then
        if wide then [cellKeyOf quad (row0 + m) (col0 + 2 * n), cellKeyOf quad (row0 + m) (col0 + 2 * n + 1)]
        else [cellKeyOf quad (row0 + m) (col0 + n)]
      else []
    if bad.isEmpty then s else s.onPkg fun p => { p with cellPoison := (p.cellPoison ++ bad).eraseDups }

/-- A tile operation performed (R257, R260, R262, R263, R313). -/
def State.runTileOp (s : State) (quad : Nat) : TileOp → State
  | .mma ordered sc kc fmt col0 row0 slotB slotA =>
    let f := fmtOf fmt
    let sh := tileShape f
    (s.writeWindow quad row0.toNat col0.toNat sh.H sh.W (f = .f64) fun m n =>
      s.mmaElem quad ordered f slotA.toNat slotB.toNat kc.toNat (scaleOf sc) row0.toNat col0.toNat m n none).fresh.carryPoison quad f
        slotA.toNat slotB.toNat kc.toNat row0.toNat col0.toNat
  | .accz fmt col0 row0 =>
    let f := fmtOf fmt
    let sh := tileShape f
    (s.writeWindow quad row0.toNat col0.toNat sh.H sh.W (f = .f64) fun _ _ => 0).healCells quad row0.toNat col0.toNat sh.H
      (if f = .f64 then 2 * sh.W else sh.W)
  | .tscl sc col0 row0 =>
    s.writeWindow quad row0.toNat col0.toNat 128 128 false fun m n =>
      s.rescale quad sc.toNat m (s.cell quad (row0.toNat + m) (col0.toNat + n) false)
  | .scaleA line values =>
    { s with scales := values.zipIdx.foldl (fun m p => Sparse.set oneScale m (scaleKey quad line p.2) p.1) s.scales }
  | .scaleW line value => { s with scales := Sparse.set oneScale s.scales (scaleKey quad line 128) value }

/-- The window of an operation holds a cell, or one of the pair of an FP64 read (R258, R261). -/
def TileOp.covers (op : TileOp) (row col : Nat) (wide : Bool) : Bool :=
  let window := fun (f : Fmt) (row0 col0 : BitVec 8) =>
    let sh := tileShape f
    let w := if f = .f64 then 2 * sh.W else sh.W
    decide (row0.toNat ≤ row) && decide (row < row0.toNat + sh.H) &&
      decide (col0.toNat ≤ col + (if wide then 1 else 0)) && decide (col < col0.toNat + w)
  match op with
  | .mma _ _ _ fmt col0 row0 _ _ => window (fmtOf fmt) row0 col0
  | .accz fmt col0 row0 => window (fmtOf fmt) row0 col0
  | .tscl _ col0 row0 => window .bf16 row0 col0
  | _ => false

/-- The operation reads a slot (R252). -/
def TileOp.readsSlot (op : TileOp) (n : Nat) : Bool :=
  match op with
  | .mma _ _ kc _ _ _ slotB slotA =>
    (decide (slotA.toNat ≤ n) && decide (n < slotA.toNat + kc.toNat)) ||
      (decide (slotB.toNat ≤ n) && decide (n < slotB.toNat + kc.toNat))
  | _ => false

/-- A tile operation, not a scale load. -/
def TileOp.isTile : TileOp → Bool
  | .scaleA _ _ => false
  | .scaleW _ _ => false
  | _ => true

/-- The operations issued and not complete, the running one first. -/
def Quad.ops (q : Quad) : List TileOp := q.running.toList ++ q.waiting

/-- The hart belongs to the bundle that owns its quad's matrix engine (R251). -/
def State.ownsMatrix (s : State) : Bool :=
  (s.quad s.hart.id.quad).owner = some (s.hart.qcb, s.hart.job, s.hart.bundle)

/-- The matrix engine of the hart's quad is dead (R316): an operation given to it is lost, and later waits for it trap. -/
def State.engineDead (s : State) : Bool := s.pkg.dead.elem (.matrixEngine s.hart.id.quad)

/-- An operation of a dead matrix engine is lost (R316). -/
def State.loseOperation (s : State) : State :=
  s.on fun h => h.lose [32]

/-- A tile operation issued (R258): it waits for its place behind at most 8 others, and counts in tl. `size` is
the size of its word. -/
def State.issueTileOp (s : State) (size : Nat) (op : TileOp) : Res :=
  let q := s.quad s.hart.id.quad
  if s.engineDead then .next (s.loseOperation.skip size)
  else if op.isTile && decide ((q.waiting.filter (·.isTile)).length ≥ 8) then s.waitFor .tileQueue
  else if s.full .tl then s.waitFor .counter
  else
    let idle := q.ops.isEmpty
    let s := (s.raise .tl).onQuad s.hart.id.quad fun q => { q with waiting := q.waiting ++ [op] }
    .next ((if idle then s.due (.tileOpStart s.hart.id.quad) else s).skip size)

/-- oclaim (R252, R253). -/
def execOclaim (n : BitVec 5) (s : State) : Res :=
  s.outsideRegion <|
    let k := s.hart.id.quad
    if !s.ownsMatrix then s.denied
    else if s.hart.lost.elem 32 then s.lostTrap (· = 32)
    else match (s.quad k).slot n.toNat, s.hart.id.control with
      | .free, false => (s.onQuad k fun q => q.setSlot n.toNat (.feeder s.hart.id.core s.hart.id.hart)).done
      | .full, true => (s.onQuad k fun q => q.setSlot n.toNat .control).done
      | .control, true => if (s.quad k).releasing.elem n.toNat then s.waitFor .slot else s.done
      | .feeder _ _, false => if s.feeds n.toNat then s.done else s.waitFor .slot
      | _, _ => s.waitFor .slot

/-- orel (R252, R253): it takes effect when the slot's writes have landed, or its reads have finished; the hart does
not wait. -/
def execOrel (n : BitVec 5) (s : State) : Res :=
  s.outsideRegion <|
    let k := s.hart.id.quad
    let mark := fun (s : State) => s.onQuad k fun q => { q with releasing := n.toNat :: q.releasing }
    if !s.ownsMatrix then s.denied
    else if (s.quad k).releasing.elem n.toNat then s.done
    else if !s.hart.id.control && s.feeds n.toNat then ((mark s).due (.slotFull k n.toNat)).done
    else if s.hart.id.control && decide ((s.quad k).slot n.toNat = .control) then ((mark s).due (.slotFree k n.toNat)).done
    else s.done

/-- oput (R264). -/
def execOput (_ : BitVec 4) (a n : BitVec 5) (v : BitVec 6) (s : State) : Res :=
  s.outsideRegion <|
    let h := s.hart
    let src : Source := ⟨v, h.sew⟩
    let off := (s.rs a).toNat
    let esz := h.fmt.esz
    if !s.ownsMatrix then s.denied
    else match s.hold [src] none with
      | some x => s.holdBack x
      | none =>
        if !s.feeds n.toNat || off % esz ≠ 0 || off + h.g * esz > 16384 then s.denied
        else if s.sending h then s.waitFor .reduction
        else if s.full .tl then s.waitFor .counter
        else if let some sub := h.anyBad [src] then s.takeTrap 8 sub 0 0 none
        else if s.engineDead then (s.loseOperation.consumeAll [src]).vectorDone
        else
          let x := h.sourceValue src 0
          let base := slotAddr h.id.quad n.toNat off
          let t := State.markSlots { s with slots := s.slots.setBytes ((List.range h.g).flatMap fun (e : Nat) =>
            (toBytes esz (elem x h.sew e)).zipIdx.map fun (p : Byte × Nat) => (base + e * esz + p.2, p.1)) }
            ((List.range (h.g * esz)).map (base + ·)) []
          ((t.consumeAll [src]).issueOp .tl).vectorDone

/-- The cells of accget and accput, row and first column, when they lie in the store (R265). -/
def Hart.cellRun (h : Hart) (x : Word) : Option (Nat × Nat) :=
  let row := bits x.toNat 7 0
  let c := bits x.toNat 15 8
  if h.fmt = .f64 then (if c % 2 = 0 ∧ c + 2 * h.g ≤ 256 then some (row, c) else none)
  else if c + h.g ≤ 256 then some (row, c) else none

/-- The element that accget makes of a cell (R265). -/
def cellToElem (f : Fmt) (r : Rnd) (x : Nat) : Nat :=
  match f with
  | .f32 | .i32 | .f64 => x
  | .bf16 | .f16 | .e4m3 | .e5m2 => convert r .f32 f x
  | .i8 | .i16 => ofSigned f.sew (satSigned f.sew (toSigned 32 x))
  | .i64 => ofSigned 64 (toSigned 32 x)

/-- The cell that accput makes of an element (R266). -/
def elemToCell (f : Fmt) (x : Nat) : Nat :=
  match f with
  | .f32 | .i32 | .f64 => x
  | .bf16 | .f16 | .e4m3 | .e5m2 => convert .rne f .f32 x
  | .i8 | .i16 => ofSigned 32 (toSigned f.sew x)
  | .i64 => ofSigned 32 (satSigned 32 (toSigned 64 x))

/-- accget (R265). -/
def execAccget (_ : BitVec 4) (a : BitVec 5) (v : BitVec 6) (s : State) : Res :=
  s.outsideRegion <|
    let h := s.hart
    let wide := h.fmt = .f64
    if !s.ownsMatrix then s.denied
    else match s.hold [] (some ⟨v, h.sew⟩) with
      | some x => s.holdBack x
      | none => match h.cellRun (s.rs a) with
        | none => s.denied
        | some (row, c) =>
          if s.sending h then s.waitFor .reduction
          else if s.full .tl then s.waitFor .counter
          else if s.engineDead then s.trapAt 8 4
          else if (List.range h.g).any fun e => s.cellBad h.id.quad row (c + (if wide then 2 * e else e)) wide then s.trapAt 8 2
          else
            let new := fun e => cellToElem h.fmt h.rnd (s.cell h.id.quad row (c + (if wide then 2 * e else e)) wide)
            ((s.writeDest v h.sew (h.getM 0) new).issueOp .tl).vectorDone

/-- accput (R266). -/
def execAccput (_ : BitVec 4) (a : BitVec 5) (v : BitVec 6) (s : State) : Res :=
  s.outsideRegion <|
    let h := s.hart
    let wide := h.fmt = .f64
    let src : Source := ⟨v, h.sew⟩
    if !s.ownsMatrix then s.denied
    else match s.hold [src] none with
      | some x => s.holdBack x
      | none => match h.cellRun (s.rs a) with
        | none => s.denied
        | some (row, c) =>
          if s.sending h then s.waitFor .reduction
          else if s.full .tl then s.waitFor .counter
          else if let some sub := h.anyBad [src] then s.takeTrap 8 sub 0 0 none
          else if s.engineDead then (s.loseOperation.consumeAll [src]).vectorDone
          else
            let x := h.sourceValue src 0
            let t := (s.writeWindow h.id.quad row c 1 h.g wide fun _ e => elemToCell h.fmt (elem x h.sew e)).healCells
              h.id.quad row c 1 (if wide then 2 * h.g else h.g)
            ((t.consumeAll [src]).issueOp .tl).vectorDone

/-- The bytes of a cell stored to memory in a format (R267). -/
def storedCell (f : Fmt) (x : Nat) : Nat := if f = .bf16 ∨ f = .f16 then convert .rne .f32 f x else x

/-- accstore (R267): its cells are read at issue, its lines owned until it completes. -/
def execAccstore (_ : BitVec 4) (a : BitVec 5) (s : State) : Res :=
  s.outsideRegion <|
    let h := s.hart
    let dst := (s.rs a).toNat
    let w := (s.rs (a + 1)).toNat
    let row0 := bits w 7 0
    let col0 := bits w 15 8
    let rows := bits w 23 16 + 1
    let cols := bits w 31 24 + 1
    let pitch := bits w 63 40
    if !s.ownsMatrix then s.denied
    else match Fmt.ofCode (bits w 35 32) with
      | none => s.badConfig
      | some f =>
        let wide := f = .f64
        if bits w 39 36 ≠ 0 || !(f = .f32 || f = .i32 || f = .f64 || f = .bf16 || f = .f16) then s.badConfig
        else if dst % f.esz ≠ 0 || pitch % f.esz ≠ 0 then s.takeTrap 4 0 0 0 (some dst)
        else
          let ranges := (List.range rows).map fun i => ((dst + i * pitch) % 2 ^ 64, cols * f.esz)
          let outside := row0 + rows > 256 || col0 + (if wide then 2 * cols else cols) > 256 || (wide && col0 % 2 = 1)
          match s.placeAll h .store ranges, outside with
          | .error (.trap 5 u x), _ => s.stopWith (rangePages ranges) 0 (.trap 5 u x)
          | _, true => s.denied
          | .error e, _ => s.stopWith (rangePages ranges) 0 e
          | .ok places, _ =>
            if s.full .tl then s.waitFor .counter
            else if s.engineDead then s.loseOperation.done
            else
              let vas := ranges.flatMap fun r => (granules r.1 r.2).map fun g => g.1 % 2 ^ 64
              let pages := (vas.zip places).map fun p => (p.1 / 4096, p.2 / 4096)
              let bytes := (List.range rows).flatMap fun i => (List.range cols).flatMap fun j =>
                let x := storedCell f (s.cell h.id.quad (row0 + i) (col0 + (if wide then 2 * j else j)) wide)
                (toBytes f.esz x).zipIdx.map fun p =>
                  (heldPage pages ((dst + i * pitch + j * f.esz + p.2) % 2 ^ 64), p.1)
              let bad := if s.pkg.cellPoison.isEmpty then [] else
                (List.range rows).flatMap fun i => (List.range cols).flatMap fun j =>
                  if s.cellBad h.id.quad (row0 + i) (col0 + (if wide then 2 * j else j)) wide then
                    [heldPage pages ((dst + i * pitch + j * f.esz) % 2 ^ 64) / 64]
                  else []
              let lines := (places.map (· / 64)).eraseDups
              -- the issue is an access: it meets the regions that track a destination line (R128, R197)
              let t := lines.foldl (fun t l => t.takeLine h.engine (addressIn (vas.zip places) l) l) (s.noteWalks vas)
              ((t.on fun h => { h with accStores := h.accStores ++ [⟨lines, bytes, bad.eraseDups, (s.ctx h.ctx).gen⟩] }).issueOp .tl).done

/-- scld.a (R262): the values are read at issue; the line is written in the order of tile operations (R258). -/
def execScldA (_ : BitVec 4) (a n : BitVec 5) (p : BitVec 6) (s : State) : Res :=
  s.outsideRegion <|
    let h := s.hart
    let va := (s.rs a).toNat
    let k := 128 - p.toNat
    if !s.ownsMatrix then s.denied
    else if va % 64 ≠ 0 then s.takeTrap 4 0 0 0 (some va)
    else match s.placeAll h .load [(va, 4 * k)] with
      | .error e => s.stopWith (rangePages [(va, 4 * k)]) 0 e
      | .ok places =>
        let vas := (granules va (4 * k)).map fun g => g.1 % 2 ^ 64
        let t := (vas.zip places).foldl (fun s p => s.engineRead h.engine p.1 (p.2 / 64) (2 ^ 64 - 1)) (s.noteWalks vas)
        let values := (List.range 128).map fun i =>
          if i < k then BitVec.ofNat 32 (s.mem.read (places.getD (i / 16) 0 + 4 * (i % 16)) 4) else 0x3F800000
        if s.full .tl then s.waitFor .counter else t.issueTileOp 4 (.scaleA n.toNat values)

/-- scld.w (R262). -/
def execScldW (_ : BitVec 4) (a n : BitVec 5) (s : State) : Res :=
  s.outsideRegion <|
    let h := s.hart
    let va := (s.rs a).toNat
    if !s.ownsMatrix then s.denied
    else if va % 4 ≠ 0 then s.takeTrap 4 0 0 0 (some va)
    else match s.placeAll h .load [(va, 4)] with
      | .error e => s.stopAt 0 e
      | .ok places =>
        let pa := places.headD 0
        if s.full .tl then s.waitFor .counter
        else ((s.noteWalks [va]).engineRead h.engine va (pa / 64) (byteMask (pa % 64) 4)).issueTileOp 4 (.scaleW n.toNat (BitVec.ofNat 32 (s.mem.read pa 4)))

/-- A run of slots is held by the control core. -/
def Quad.holdsRun (q : Quad) (first n : Nat) : Bool := (List.range n).all fun k => q.held (first + k) .control

/-- An mma issued (R256): every slot that it names must be held by the control core. -/
def State.issueMma (s : State) (ordered : Bool) (sc : BitVec 6) (kc : BitVec 7) (fmt : BitVec 4) (col0 row0 : BitVec 8)
    (slotB slotA : BitVec 6) : Res :=
  let q := s.quad s.hart.id.quad
  if !s.ownsMatrix then s.denied
  else if !(q.holdsRun slotA.toNat kc.toNat && q.holdsRun slotB.toNat kc.toNat) then s.denied
  else s.issueTileOp 8 (.mma ordered sc kc fmt col0 row0 slotB slotA)

/-- mma.o (R256, R257). -/
def execMmaO (sc : BitVec 6) (kc : BitVec 7) (fmt : BitVec 4) (col0 row0 : BitVec 8) (slotB slotA : BitVec 6)
    (s : State) : Res := s.issueMma true sc kc fmt col0 row0 slotB slotA

/-- mma.f (R256, R257). -/
def execMmaF (sc : BitVec 6) (kc : BitVec 7) (fmt : BitVec 4) (col0 row0 : BitVec 8) (slotB slotA : BitVec 6)
    (s : State) : Res := s.issueMma false sc kc fmt col0 row0 slotB slotA

/-- accz (R260). -/
def execAccz (fmt : BitVec 4) (col0 row0 : BitVec 8) (s : State) : Res :=
  if !s.ownsMatrix then s.denied else s.issueTileOp 8 (.accz fmt col0 row0)

/-- tscl (R263). -/
def execTscl (sc : BitVec 6) (col0 row0 : BitVec 8) (s : State) : Res :=
  if !s.ownsMatrix then s.denied else s.issueTileOp 8 (.tscl sc col0 row0)

/-- What accrd writes to its register from the bits read (R261). -/
def readValue (f : Fmt) (x : Nat) : Word := if f = .i32 then BitVec.ofInt 64 (toSigned 32 x) else BitVec.ofNat 64 x

/-- accrd.s (R261): it waits for every earlier operation whose window holds the cell. -/
def execAccrdS (d : BitVec 5) (fmt : BitVec 4) (col0 row0 : BitVec 8) (s : State) : Res :=
  let f := fmtOf fmt
  let wide := f = .f64
  let q := s.hart.id.quad
  if !s.ownsMatrix then s.denied
  else if s.hart.lost.elem 32 then s.lostTrap (· = 32)
  else if (s.quad q).ops.any fun op => op.covers row0.toNat col0.toNat wide then s.waitFor .tileResult
  else if s.cellBad q row0.toNat col0.toNat wide then s.trapAt 8 2
  else .next ((s.ws d (readValue f (s.cell q row0.toNat col0.toNat wide))).skip 8)

/-- The cell by which progress is kept: the even one of a pair for an FP64 operation. -/
def TileOp.cellKey (op : TileOp) (row col : Nat) : Nat :=
  match op with
  | .mma _ _ _ fmt _ _ _ _ => row * 256 + (if fmtOf fmt = .f64 then col / 2 * 2 else col)
  | .accz fmt _ _ => row * 256 + (if fmtOf fmt = .f64 then col / 2 * 2 else col)
  | _ => row * 256 + col

/-- How much of the running operation a read shows of a cell, at least what an earlier read showed, and the cell's
32 bits (R261). Which of the values is a free value. -/
def State.partialCell (s : State) (quad : Nat) (op : TileOp) (row col : Nat) : Nat × Nat :=
  let key := op.cellKey row col
  let seen := Sparse.get (fun _ => 0) (s.quad quad).progress key
  let pick := Config.pick s.free row (key % 256)
  let old := s.cell quad row col false
  match op with
  | .mma ordered sc kc fmt col0 row0 slotB slotA =>
    let f := fmtOf fmt
    let m := row - row0.toNat
    let n := if f = .f64 then (col - col0.toNat) / 2 else col - col0.toNat
    let total := kc.toNat * ((tileShape f).K / (tileShape f).G)
    let half := fun x => if f = .f64 then elem x 32 (col % 2) else x
    if ordered || f = .i8 then
      let j := seen + pick 0 % (total - seen + 1)
      (j, half (s.mmaElem quad true f slotA.toNat slotB.toNat kc.toNat (scaleOf sc) row0.toNat col0.toNat m n (some j)))
    else
      let vs := s.groupValues quad f slotA.toNat slotB.toNat kc.toNat (scaleOf sc) m n
      let some' := (vs.zipIdx.filter fun p => decide (pick (p.2 + 1) % 2 = 1)).map (·.1)
      let part := if some'.isEmpty && decide (seen > 0) then vs else some'
      let wide := f = .f64
      let base := s.cell quad row (if wide then col / 2 * 2 else col) wide
      (if part.isEmpty then 0 else 1, half (addFree (accFmt f) (fun k => pick (1000 + k)) base part))
  | .accz _ _ _ => if seen > 0 || pick 0 % 2 = 1 then (1, 0) else (0, old)
  | .tscl sc _ row0 =>
    if seen > 0 || pick 0 % 2 = 1 then (1, s.rescale quad sc.toNat (row - row0.toNat) old) else (0, old)
  | _ => (0, old)

/-- One cell as accrd.p sees it, and the state that remembers it: an operation that has not started shows the old
value. -/
def State.glimpse (s : State) (quad row col : Nat) : Nat × Option (Nat × Nat) :=
  match (s.quad quad).running with
  | some op =>
    if op.covers row col false then
      let r := s.partialCell quad op row col
      (r.2, some (op.cellKey row col, r.1))
    else (s.cell quad row col false, none)
  | none => (s.cell quad row col false, none)

/-- What a read has shown, remembered. -/
def Quad.remember (q : Quad) (r : Option (Nat × Nat)) : Quad :=
  match r with
  | some (key, n) => { q with progress := Sparse.set (fun _ => 0) q.progress key n }
  | none => q

/-- accrd.p (R261): it waits for nothing. -/
def execAccrdP (d : BitVec 5) (fmt : BitVec 4) (col0 row0 : BitVec 8) (s : State) : Res :=
  let f := fmtOf fmt
  let q := s.hart.id.quad
  if !s.ownsMatrix then s.denied
  else if s.cellBad q row0.toNat col0.toNat (f = .f64) then s.trapAt 8 2
  else
    let lo := s.glimpse q row0.toNat col0.toNat
    let hi := if f = .f64 then s.glimpse q row0.toNat (col0.toNat + 1) else (0, none)
    let x := lo.1 + hi.1 * 2 ^ 32
    let t := (s.onQuad q fun k => (k.remember lo.2).remember hi.2).fresh
    .next ((t.ws d (readValue f x)).skip 8)

/-- A queued tile operation starts (R259). -/
def execTileOpStart (quad : Nat) (s : State) : Res :=
  let q := s.quad quad
  match q.running, q.waiting with
  | none, op :: rest =>
    .next ((s.onQuad quad fun q => { q with running := some op, waiting := rest, progress := [] }).due (.tileOpComplete quad))
  | _, _ => .fault .notDue

/-- The control core of a quad. -/
def controlOf (quad : Nat) : AgentId := ⟨quad, 0, 0, true⟩

/-- The running operation completes (R258): its window or line is written, tl falls, the next one may start. -/
def execTileOpComplete (quad : Nat) (s : State) : Res :=
  match (s.quad quad).running with
  | none => .fault .notDue
  | some op =>
    let t := s.runTileOp quad op
    let t := t.onQuad quad fun q => { q with running := none, progress := [] }
    let t := t.lower (controlOf quad) .tl
    .next (if (t.quad quad).waiting.isEmpty then t else t.due (.tileOpStart quad))

/-- A kind-3 copy of the hart that feeds a slot still writes it. -/
def State.slotPending (s : State) (quad slot core hart : Nat) : Bool :=
  match s.find ⟨quad, core, hart, false⟩ with
  | none => false
  | some h => h.copy.toList.any fun c => match c with
    | some c => decide (c.kind = 3) && decide (c.slot.toNat = slot)
    | none => false

/-- A hart's orel takes effect once its writes into the slot have landed (R252). -/
def execSlotFull (quad slot : Nat) (s : State) : Res :=
  let q := s.quad quad
  match q.slot slot with
  | .feeder c h =>
    if !q.releasing.elem slot then .fault .notDue
    else if s.slotPending quad slot c h then .next (s.due (.slotFull quad slot))
    else .next (s.onQuad quad fun q =>
      { q.setSlot slot .full with releasing := q.releasing.filter (· ≠ slot) })
  | _ => .fault .notDue

/-- A control core's orel takes effect once the operations before it have read the slot (R252). -/
def execSlotFree (quad slot : Nat) (s : State) : Res :=
  let q := s.quad quad
  if q.slot slot ≠ .control || !q.releasing.elem slot then .fault .notDue
  else if q.ops.any fun op => op.readsSlot slot then .next (s.due (.slotFree quad slot))
  else .next (s.onQuad quad fun q => { q.setSlot slot .free with releasing := q.releasing.filter (· ≠ slot) })

/-! Saving and restoring the matrix state (R269). -/

/-- The T64 word of an operation (R68, R256). -/
def TileOp.word : TileOp → Nat
  | .mma ordered sc kc fmt col0 row0 slotB slotA =>
    3 + (if ordered then 0 else 1) * 4 + slotA.toNat * 2 ^ 8 + slotB.toNat * 2 ^ 14 + row0.toNat * 2 ^ 20 + col0.toNat * 2 ^ 28 +
      fmt.toNat * 2 ^ 36 + kc.toNat * 2 ^ 40 + sc.toNat * 2 ^ 47
  | .accz fmt col0 row0 => 3 + 4 * 4 + row0.toNat * 2 ^ 20 + col0.toNat * 2 ^ 28 + fmt.toNat * 2 ^ 36
  | .tscl sc col0 row0 => 3 + 8 * 4 + row0.toNat * 2 ^ 20 + col0.toNat * 2 ^ 28 + 2 ^ 36 + sc.toNat * 2 ^ 47
  | _ => 0

/-- The state word of a slot: [1:0] state, [12:8] feeder hart within the bundle. -/
def SlotState.word (harts : Nat) (index : Nat → Nat) : SlotState → Nat
  | .free => 0
  | .feeder c h => 1 + 256 * (index c * harts + h)
  | .full => 2
  | .control => 3

/-- The state of a slot word. -/
def SlotState.ofWord (harts : Nat) (cores : List Nat) (w : Nat) : SlotState :=
  match w % 4 with
  | 0 => .free
  | 1 => .feeder (cores.getD (bits w 12 8 / harts) 0) (bits w 12 8 % harts)
  | 2 => .full
  | _ => .control

/-- The matrix area of a save slot. -/
def matrixArea (slotBase : Nat) : Nat := slotBase + 2 ^ 22 + 2 ^ 17

/-- The parts of the matrix state of a quad that a save slot receives (R269); the running operation has completed. -/
def State.matrixParts (s : State) (quad slotBase : Nat) (cores : List Nat) (harts : Nat) (ops : List TileOp) :
    List (Nat × List Byte) :=
  let a := matrixArea slotBase
  let run := fun (m : Memory) (first n : Nat) => m.bytes ((List.range n).map (first + ·))
  let tiles := ops.filter (·.isTile)
  [(a, run s.slots (quad * 2 ^ 19) (2 ^ 19)), (a + 0x80000, run s.acc (quad * 2 ^ 18) (2 ^ 18)),
    (a + 0xC0000, (List.range 32).flatMap fun line => (List.range 129).flatMap fun i => toBytes 4 (s.scale quad line i)),
    (a + 0xC4080, wordBytes ((s.quad quad).slots.toList.map (SlotState.word harts fun c => cores.findIdx (· = c)))),
    (a + 0xC4180, wordBytes (tiles.map (·.word))), (a + 0xC41C0, wordBytes [tiles.length])]

/-- The granules of the save area that take the poison of a quad's slots and cells (R313). -/
def State.matrixPoison (s : State) (quad slotBase : Nat) : List Nat :=
  let a := matrixArea slotBase / 64
  ((s.pkg.slotPoison.filter fun g => decide (g / 2 ^ 13 = quad)).map fun g => a + g % 2 ^ 13) ++
    (s.pkg.cellPoison.filter fun k => decide (k / 2 ^ 16 = quad)).map fun k => a + 2 ^ 13 + k % 2 ^ 16 / 16

/-- The matrix state of a quad written to a save slot (R269, R309), with its poison, which ctx.lost reports (R311, R313). -/
def State.saveMatrix (s : State) (c : BitVec 12) (quad slotBase : Nat) (cores : List Nat) (harts : Nat) (ops : List TileOp) :
    State :=
  let bad := s.matrixPoison quad slotBase
  let s := s.saveParts (s.matrixParts quad slotBase cores harts ops)
  if bad.isEmpty then s else (s.poisonWritten bad).onCtx c fun x => { x with lost := x.lost ||| 4 }

/-- Scale lines, slot states or saved operations of a saved matrix state hold an uncorrectable error, so that no resume can take them
(R313). -/
def State.matrixLost (s : State) (slotBase : Nat) : Bool := (linesFrom (matrixArea slotBase + 0xC0000) 0x41C8).any s.deviceBad

/-- The matrix state of a quad read back from a save slot (R269); `ops` are the operations that start first. -/
def loadMatrix (s : State) (quad slotBase : Nat) (cores : List Nat) (harts : Nat) (ops : List TileOp) : State :=
  let a := matrixArea slotBase
  let s := (linesFrom a 0xC41C8).foldl State.deviceRead s
  let m := s.deviceMem
  let s := { s with
    slots := copyRange m a (2 ^ 19) s.slots (quad * 2 ^ 19)
    acc := copyRange m (a + 0x80000) (2 ^ 18) s.acc (quad * 2 ^ 18)
    scales := (List.range 32).foldl (fun (x : Sparse (BitVec 32)) (line : Nat) => (List.range 129).foldl
      (fun (x : Sparse (BitVec 32)) (i : Nat) => Sparse.set oneScale x (scaleKey quad line i)
        (BitVec.ofNat 32 (m.read (a + 0xC0000 + 516 * line + 4 * i) 4))) x) s.scales }
  s.onQuad quad fun q => { q with
    slots := Vector.ofFn fun (i : Fin 32) => SlotState.ofWord harts cores (m.read (a + 0xC4080 + 8 * i.val) 8)
    waiting := ops
    progress := [] }

/-- The poison of a save area carried to a quad's slots and cells (R269, R313), which ctx.lost reports (R311). -/
def State.loadPoison (s : State) (c : BitVec 12) (quad slotBase : Nat) : State :=
  let a := matrixArea slotBase / 64
  let bad := s.deviceBads
  let slots := (bad.filter fun g => decide (a ≤ g) && decide (g < a + 2 ^ 13)).map fun g => quad * 2 ^ 13 + (g - a)
  let cells := (bad.filter fun g => decide (a + 2 ^ 13 ≤ g) && decide (g < a + 2 ^ 13 + 2 ^ 12)).flatMap fun g =>
    (List.range 16).map fun i => quad * 2 ^ 16 + 16 * (g - a - 2 ^ 13) + i
  if slots.isEmpty && cells.isEmpty then s
  else (s.onPkg fun p => { p with slotPoison := p.slotPoison ++ slots, cellPoison := p.cellPoison ++ cells }).onCtx c fun x =>
    { x with lost := x.lost ||| 4 }

/-- The matrix state that a placement gives a bundle with a control program (R251). -/
def State.resetMatrix (s : State) (quad : Nat) (owner : Word × Word × Nat) : State :=
  let s := if s.pkg.slotPoison.isEmpty && s.pkg.cellPoison.isEmpty then s else s.onPkg fun p => { p with
    slotPoison := p.slotPoison.filter fun g => decide (g / 2 ^ 13 ≠ quad)
    cellPoison := p.cellPoison.filter fun k => decide (k / 2 ^ 16 ≠ quad) }
  let s := { s with
    slots := s.slots.clear (quad * 2 ^ 19) (2 ^ 19)
    acc := s.acc.clear (quad * 2 ^ 18) (2 ^ 18)
    scales := s.scales.filter fun p => p.1 < scaleKey quad 0 0 || scaleKey (quad + 1) 0 0 ≤ p.1 }
  s.onQuad quad fun _ => { Quad.idle with owner := some owner }

end Sys2Proof.Machine
end

