-- ==== Sys2Proof/Machine/Qcb.lean ====
section
/-! DEFINITION. Queue control blocks, job records and decision records in memory (R78 to R90), and the append operation
(R83). A QCB is named by its physical address. -/

namespace Sys2Proof.Machine

/-- The part's own entries of the repair tables (R50, R51, R164): an identity map with no substitute, and attach row 0 in
every column (DESIGN CHOICE, log 5). -/
def partTable (key : Nat) : Word :=
  let i := key % 1024
  match key / 1024 with
  | 0x701 => if i < 144 then BitVec.ofNat 64 (i % 36) else 0
  | 0x702 => if i < 576 then BitVec.ofNat 64 (63 + 63 * 2 ^ 12) else 0
  | 0x703 => if i < 512 then BitVec.ofNat 64 ((i % 128) / 32 + (i % 32) * 4) else 0
  | _ => 0

/-- An entry of a repair table (R50, R313). -/
def State.table (s : State) (num idx : Nat) : Word := Sparse.get partTable s.pkg.tables (1024 * num + idx)

/-- An entry of a repair table changed (R51). -/
def State.setTable (s : State) (num idx : Nat) (x : Word) : State :=
  s.onPkg fun p => { p with tables := Sparse.set partTable p.tables (1024 * num + idx) x }

/-- Core k of a quad, or with k = 4 the quad itself, is retired (R313, R315). -/
def State.retired (s : State) (quad k : Nat) : Bool := (s.table 0x70B quad).getLsbD k

/-- A decision counter of a tenant and of the package raised (R90), by its number less 0x720. -/
def State.decide_ (s : State) (tenant i : Nat) : State :=
  let bump := fun (v : Vector Word 9) => v.setIfInBounds i (v.getD i 0 + 1)
  (s.onTenant tenant fun t => { t with dec := bump t.dec }).onPkg fun p => { p with dec := bump p.dec }

/-- The doubleword of a QCB at an offset (R78), with the device's own writes that wait (R128). -/
def State.qword (s : State) (q : Word) (off : Nat) : Nat := s.deviceMem.read (q.toNat + off) 8

/-- The control word, the list words or the ring words of a QCB are poisoned: the Loom takes nothing from them (R313; DESIGN CHOICE,
log 36). -/
def State.qcbBad (s : State) (q : Word) : Bool := s.deviceBad (q.toNat / 64)

/-- A write of the Loom or of an append. -/
def State.loomWrite (s : State) (pa n x : Nat) : State := s.deviceWrite pa (toBytes n x)

/-- A read of the Loom: an access from outside every region (R197). -/
def State.loomRead (s : State) (line : Nat) : State := (s.outside line false).deviceLine line false

/-- A doubleword of a QCB written. -/
def State.setQword (s : State) (q : Word) (off x : Nat) : State := s.loomWrite (q.toNat + off) 8 x

/-- A count of a QCB raised by one: 0 appended, 1 refused, 2 placed, 3 deferred, 4 pre-empted, 5 resumed, 6 completed,
7 overrun (R78). -/
def State.bumpQ (s : State) (q : Word) (i : Nat) : State :=
  s.setQword q (0x40 + 8 * i) ((s.qword q (0x40 + 8 * i) + 1) % 2 ^ 64)

/-- The control word is that of an open QCB (R78). -/
def openWord (cw : Nat) : Bool :=
  cw.testBit 0 && decide (bits cw 7 3 = 0) && decide (bits cw 63 28 = 0) && decide (bits cw 11 8 ≤ bits cw 15 12)

/-- The context of a control word (R78). -/
def ctxOfWord (cw : Nat) : BitVec 12 := BitVec.ofNat 12 (cw / 2 ^ 16)

/-- The QCB is open (R78). One whose control word is poisoned is not (log 36). -/
def State.qopen (s : State) (q : Word) : Bool := !s.qcbBad q && openWord (s.qword q 0)

/-- The context of a QCB: the one that the Loom last read, where the word is poisoned (log 36). -/
def State.qctx (s : State) (q : Word) : BitVec 12 := if s.qcbBad q then (s.view q).ctx else ctxOfWord (s.qword q 0)

/-- The tenant of a QCB. -/
def State.qtenant (s : State) (q : Word) : Nat := tenantOf (s.qctx q)

/-- The decision ring of a QCB (R78): its base and size, if it has one. With must-be-zero bits of dec.cfg or low bits of dec.base set,
for which the spec names no consequence, it has none (DESIGN CHOICE, log 49); nor has one whose words are poisoned (log 36). -/
def State.ring (s : State) (q : Word) : Option (Nat × Nat) :=
  let base := s.qword q 0x20
  let cfg := s.qword q 0x28
  if s.qcbBad q ∨ base = 0 ∨ base % 32 ≠ 0 ∨ 2 ^ 5 ≤ cfg ∨ cfg < 4 ∨ 16 < cfg then none else some (base, 2 ^ cfg)

/-- Records of a QCB whose place in its ring waits for an engine or a flip (R128, R285), so that dec.wr has not passed them. -/
def State.lateRecords (s : State) (q : Word) : Nat :=
  s.pkg.late.countP fun l => match l with
    | .decision p _ _ _ => decide (p = q)
    | _ => false

/-- Decision records that have their place in the ring of a QCB (R89). -/
def State.recordsGiven (s : State) (q : Word) : Nat := (s.qword q 0x30 + s.lateRecords q) % 2 ^ 64

/-- The ring is full (R84). The rule says so where dec.wr - dec.rd equals the number of entries; a program's writes of dec.rd can bring
the difference above it, and the ring counts as full there too (DESIGN CHOICE, log 49). -/
def State.ringFull (s : State) (q : Word) (size : Nat) : Bool :=
  decide (size ≤ (s.recordsGiven q + 2 ^ 64 - s.qword q 0x38) % 2 ^ 64)

/-- Records of a QCB that wait inside the Loom (R84). -/
def State.heldRecords (s : State) (q : Word) : List (List Word) :=
  (s.loom.held.filter fun p => decide (p.1 = q)).map (·.2)

/-- The QCB is held by a full ring under dec.block (R84). One with no ring has nothing to fill, so dec.block holds nothing there
(DESIGN CHOICE, log 49). -/
def State.ringBlocked (s : State) (q : Word) : Bool :=
  match s.ring q with
  | none => false
  | some (_, size) => (s.qword q 0).testBit 2 && (s.ringFull q size || !(s.heldRecords q).isEmpty)

/-- A record lost counts as an overrun (R84, R89). -/
def State.overrun (s : State) (q : Word) : State := (s.bumpQ q 7).decide_ (s.qtenant q) 7

/-- A decision record written at its place, and dec.wr moved past it, which happens too where its store faults (R89). Both wait for an
engine's line, for a flip, and behind the records that wait already (R128, R285). -/
def State.writeRecord (s : State) (q : Word) (c : BitVec 12) (va : Nat) (bs : List Byte) : State :=
  let passed := fun (s : State) => s.setQword q 0x30 ((s.qword q 0x30 + 1) % 2 ^ 64)
  let waits := match s.walkIn c va with
    | .wait => true
    | .page pa _ => s.owned (pa / 64) || s.flipping pa || s.lateAt (pa / 64)
    | _ => false
  if waits || decide (s.lateRecords q ≠ 0) then s.addLate (.decision q c va bs)
  else passed (match s.writeIn c va bs (.decision q c va bs) with
    | some t => t
    | none => (s.noteWalk c va).overrun q)

/-- A decision record given the next place of the ring (R84, R89). -/
def State.storeRecord (s : State) (q : Word) (base size : Nat) (ws : List Word) : State :=
  let va := base + 32 * (s.recordsGiven q % size)
  let s := if s.ringFull q size then s.overrun q else s
  s.writeRecord q (s.qctx q) va (ws.flatMap fun w => toBytes 8 w.toNat)

/-- One write of the device that has waited is tried again (R128, R285). -/
def State.performLate (s : State) : Late → State
  | .bytes pa bs bad => s.writeOrWait pa bs bad
  | .trace c va bs => match s.writeIn c va bs (.trace c va bs) with
    | some t => t
    | none => (s.noteWalk c va).onCtx c fun x => { x with trcBase := 0 }
  | .decision q c va bs => s.writeRecord q c va bs

/-- The device's writes that wait are tried again, in their order (R128, R285). -/
def State.settleLate (s : State) : State :=
  if s.pkg.late.isEmpty then s
  else s.pkg.late.foldl State.performLate (s.onPkg fun p => { p with late := [] })

/-- A decision record written, or held in the Loom while the ring is full under dec.block (R84, R89). -/
def State.putDecision (s : State) (q : Word) (ws : List Word) : State :=
  match s.ring q with
  | none => s
  | some (base, size) =>
    if s.ringBlocked q then
      if (s.heldRecords q).length < 64 then { s with loom := { s.loom with held := s.loom.held ++ [(q, ws)] } }
      else s.overrun q
    else s.storeRecord q base size ws

/-- DEC_RECORD_FLUSH (R84): the oldest held record of a QCB is written once the ring has room. -/
def execDecRecordFlush (q : Word) (s : State) : Res :=
  match s.loom.held.find? (fun p => decide (p.1 = q)), s.ring q with
  | some (_, ws), some (base, size) =>
    if s.ringFull q size then .next s
    else
      let t := { s with loom := { s.loom with held := s.loom.held.erase (q, ws) } }
      let t := t.storeRecord q base size ws
      .next (if (t.heldRecords q).isEmpty then t else t.due (.decRecordFlush q))
  | _, _ => .fault .notDue

/-- The tasks of a bundle (R82). -/
def BundleDesc.harts (d : BundleDesc) : Nat := d.cores * 2 ^ d.split.toNat

/-- The number of bundles of a job (R82). -/
def Job.bundles (j : Job) : Nat := (j.grid.toNat + j.desc.harts) / j.desc.harts

/-- The job has bundles that are not placed (R89). -/
def Job.unplaced (j : Job) : Bool := j.open && (!j.read || decide (j.next < j.bundles))

/-- The identifier of the microcode that decides; 0 for the boot microcode (R89, R93). -/
def State.ucode (s : State) : BitVec 16 :=
  match s.loom.image with
  | some m => m.id
  | none => 0

/-- The reason of a record that no command of an image names (R89): 0 under the boot microcode, a free value under an image. -/
def State.reason (s : State) : BitVec 8 := if s.loom.image.isNone then 0 else Config.freeByte s.free 0

/-- A decision record of a kind about a QCB (R89). -/
def State.decision (s : State) (q : Word) (kind : Nat) (job : Word) (bidx eprio : Nat) (p : PlaceInfo) (reason : BitVec 8) : State :=
  let depth := min (s.loom.jobs.filter fun j => decide (j.qcb = q) && j.unplaced).length 0xFFFF
  let w1 := bidx % 2 ^ 32 + kind * 2 ^ 32 + eprio * 2 ^ 36 + p.quad / 36 * 2 ^ 40 + p.quad % 36 * 2 ^ 42 +
    (p.cores.foldl (fun a c => a + 2 ^ c) 0) * 2 ^ 48 + p.split * 2 ^ 52 + p.hint * 2 ^ 54 + reason.toNat * 2 ^ 56
  s.fresh.putDecision q [job, BitVec.ofNat 64 w1, s.pkg.timebase, BitVec.ofNat 64 (depth + s.ucode.toNat * 2 ^ 16)]

/-- A decision record that names no quad (R89). -/
def State.decisionAlone (s : State) (q : Word) (kind : Nat) (job : Word) (bidx eprio hint : Nat) : State :=
  s.decision q kind job bidx eprio ⟨0, [], 0, hint⟩ s.reason

/-- The status word of a record written (R80). -/
def State.setStatus (s : State) (pa state code : Nat) : State := s.loomWrite (pa + 0x38) 8 (state + code * 256)

/-- The oldest record of a QCB that is neither complete nor failed; 0 when there is none (R78). -/
def State.firstOpen (s : State) (q : Word) : Word :=
  ((s.loom.jobs.find? fun j => decide (j.qcb = q) && j.open).map (·.addr)).getD 0

/-- The head word brought up to date (R78). -/
def State.setHead (s : State) (q : Word) : State := s.setQword q 0x10 (s.firstOpen q).toNat

/-- The view of a QCB replaced. -/
def State.setView (s : State) (v : QcbView) : State :=
  { s with loom := { s.loom with views := v :: s.loom.views.filter fun w => decide (w.qcb ≠ v.qcb) } }

/-- An append refused (R83). -/
def State.refuseAppend (s : State) (q : Word) : State := (s.bumpQ q 1).decide_ (s.qtenant q) 6

/-- The lines that an append or a Loom event touches of a QCB and of a record wait for an engine's write (R128). -/
def State.qcbBusy (s : State) (q : Word) : Bool :=
  (List.range 4).any fun k => s.owned (q.toNat / 64 + k) || s.flipping (q.toNat + 64 * k)

/-- Where an append by context c writes the next word of the record that the tail names (R83): at the place of the record appended
last, or where the context can store at the tail's address. None when the list is empty. -/
def State.tailNext (s : State) (c : BitVec 12) (q : Word) : Option Nat :=
  let old := s.qword q 0x08
  if old = 0 then none
  else if (s.view q).last.toNat = old then some (s.view q).lastPa
  else match s.walkIn c old with
    | .page pa rwx => if Perm.store.allowed rwx && decide (pa % 8 = 0) then some pa else none
    | _ => none

/-- The walk for the tail's address, where an append makes one (R197). -/
def State.noteTail (s : State) (c : BitVec 12) (q : Word) : State :=
  let old := s.qword q 0x08
  if old = 0 || decide ((s.view q).last.toNat = old) then s else s.noteWalk c old

/-- The line of the record that the tail names, which an append writes, waits for an engine or a flip (R128, R285). -/
def State.tailBusy (s : State) (c : BitVec 12) (q : Word) : Bool :=
  let old := s.qword q 0x08
  if old = 0 then false
  else match s.tailNext c q with
    | some pa => s.owned (pa / 64) || s.flipping pa
    | none => match s.walkIn c old with
      | .wait => true
      | _ => false

/-- The doublewords that an append writes, in order (R83): four fields of the record, then the words of the QCB and the next word
of the record that was last. -/
def State.appendWrites (s : State) (c : BitVec 12) (q record : Word) (rpa origin : Nat) (cmask : BitVec 16) (hint : BitVec 9) :
    List (Nat × Nat) :=
  let w := s.deviceMem.read (rpa + 8) 8
  let at_ := fun (off : Nat) => q.toNat + off
  [(rpa, 0), (rpa + 8, bits w 15 0 + cmask.toNat * 2 ^ 16 + origin * 2 ^ 32 + bits w 63 35 * 2 ^ 35),
    (rpa + 0x30, bits (s.deviceMem.read (rpa + 0x30) 8) 63 9 * 2 ^ 9 + hint.toNat),
    (at_ 0x18, (s.qword q 0x18 + 1) % 2 ^ 64), (at_ 0x08, record.toNat)] ++
  (if s.qword q 0x08 = 0 then [(at_ 0x10, record.toNat)] else ((s.tailNext c q).map fun a => (a, record.toNat)).toList) ++
  [(at_ 0x40, (s.qword q 0x40 + 1) % 2 ^ 64)]

/-- The append operation (R83), by context c, of the record at (record, rpa) to the QCB at (qva, q): the state after, and
the job id or 0. -/
def State.append (s : State) (c : BitVec 12) (q qva : Word) (record : Word) (rpa origin : Nat) (cmask : BitVec 16)
    (hint : BitVec 9) : State × Word :=
  if !s.qopen q || decide (tenantOf c ≠ s.qtenant q) then (s.refuseAppend q, 0)
  else
    let id := BitVec.ofNat 64 (s.qword q 0x18 + 1)
    let v := s.view q
    let s := (s.appendWrites c q record rpa origin cmask hint).foldl (fun s p => s.loomWrite p.1 8 p.2) (s.noteTail c q)
    let job : Job := {
      qcb := q, qva := qva, addr := record, pa := rpa, id := id, origin := BitVec.ofNat 3 origin, cmask := cmask, hint := hint
      seq := s.loom.seq, time := s.pkg.timebase, read := false, prio := 0, preempt := false, deps := [], entry := 0, args := 0, grid := 0
      desc := ⟨1, 0, false, 0⟩, state := 0, code := 0, next := 0, deferred := false }
    let s := { s with loom := { s.loom with jobs := s.loom.jobs ++ [job], seq := s.loom.seq + 1 } }
    let s := s.setView { v with qcb := q, qva := qva, last := record, lastPa := rpa }
    (s.due (.loomAppendEvent q record), id)

/-- launch (R117, R131, R268): the QCB and the record are checked as stores; the append follows the accesses that it must
come after. It reads words of the QCB and of the record, which must not be poisoned (R313; DEDUCED, log 36). -/
def execLaunch (c b a d : BitVec 5) (s : State) : Res :=
  s.outsideRegion <|
    let h := s.hart
    let qva := s.rs a
    let record := s.rs b
    let cmask := (s.rs c).setWidth 16
    if qva.toNat % 512 ≠ 0 then s.takeTrap 4 0 0 0 (some qva.toNat)
    else if record.toNat % 128 ≠ 0 then s.takeTrap 4 0 0 0 (some record.toNat)
    else match s.place h false .store qva.toNat 256, s.place h false .store record.toNat 128 with
      | .ok (.mem q), .ok (.mem rpa) =>
        let q := BitVec.ofNat 64 q
        let bad := [(q.toNat, qva.toNat), (q.toNat + 64, qva.toNat + 64), (rpa, record.toNat)].find? fun p => s.poisoned p.1
        if s.qcbBusy q || s.tailBusy h.ctx q || s.owned (rpa / 64) || s.owned (rpa / 64 + 1) then s.waitFor .engineLine
        else if let some p := bad then s.takeTrap 8 0 0 0 (some p.2)
        else if s.tilesPending then s.waitFor .tileOps
        else if s.accessesPending cmask.toNat then s.waitFor .handle
        else
          let hint := if h.id.control then 0 else h.adv.place
          let (t, id) := (s.noteWalks [qva.toNat, record.toNat]).append h.ctx q qva record rpa 2 cmask hint
          t.give d id
      | .error e, .ok _ => s.stopWith [qva.toNat, record.toNat] 0 e
      | .ok _, .error e => s.stopWith [qva.toNat, record.toNat] 0 e
      | .error e, .error f => s.stopWith [qva.toNat, record.toNat] 0 (if f.rank < e.rank then f else e)
      | .ok (.store _), _ => s.takeTrap 6 0 0 0 (some qva.toNat)
      | _, .ok (.store _) => s.takeTrap 6 0 0 0 (some record.toNat)

end Sys2Proof.Machine
end

