-- ==== Sys2Proof/Machine/Loom.lean ====
section
/-! DEFINITION. The Loom under the boot microcode: readiness, placement, pre-emption and resumption of bundles (R79 to
R93, R251, R269, R273, R308 to R311). -/

namespace Sys2Proof.Machine

/-! The harts of a core and of a bundle. -/

/-- The hart belongs to the bundle. -/
def Bundle.has (b : Bundle) (h : Hart) : Bool :=
  h.active && decide (h.qcb = b.qcb) && decide (h.job = b.job) && decide (h.bundle = b.index)

/-- Harts that satisfy p leave the machine; if the one that moves leaves, the next one takes its place. -/
def State.removeHarts (s : State) (p : Hart → Bool) : State :=
  let rest := s.parked.filter fun h => !p h
  if p s.hart then
    match rest with
    | h :: more => { s with hart := h, parked := more }
    | [] => { s with hart := Hart.idle ⟨0, 0, 0, false⟩, parked := [] }
  else { s with parked := rest }

/-- A hart put at its place. -/
def State.putHart (s : State) (h : Hart) : State :=
  if s.hart.id = h.id then { s with hart := h }
  else { s with parked := (s.parked.filter fun k => decide (k.id ≠ h.id)) ++ [h] }

/-- The hart that a due step concerns. -/
def Due.agent : Due → Option AgentId
  | .adelayExpiry id | .advicePrefetchWalk id _ _ _ | .taskStart id | .taskEnd id | .urgent id
  | .yieldExpiry id | .operationComplete id _ | .copySourceRead id _ | .copyComplete id _
  | .streamStripArrival id _ | .commit id => some id
  | _ => none

/-- The quad whose matrix engine a due step concerns. -/
def Due.quad : Due → Option Nat
  | .slotFull q _ | .slotFree q _ | .tileOpStart q | .tileOpComplete q => some q
  | _ => none

/-- The due steps of some harts are gone, with their places in the arbiter's queue (R195). What they have issued to ordered-reduction
units goes on, and nobody counts it. -/
def State.dropDue (s : State) (ids : List AgentId) : State :=
  { s with
    agenda := s.agenda.filter fun d => match d.agent with
      | some id => !ids.elem id
      | none => true
    arb := { s.arb with beginQueue := s.arb.beginQueue.filter fun id => !ids.elem id }
    oruIn := s.oruIn.map fun (m : OruMsg) => if ids.elem m.sender then { m with owed := false } else m }

/-- The due steps of a quad's matrix engine are gone. -/
def State.dropQuadDue (s : State) (q : Nat) : State :=
  { s with agenda := s.agenda.filter fun d => decide (d.quad ≠ some q) }

/-- The harts that hold a task on a core. -/
def State.coreTasks (s : State) (gc : Nat) : List Hart :=
  s.harts.filter fun h => h.active && !h.id.control && decide (globalCore h.id = gc)

/-- A pending split of a core whose harts have all ended before any SETVL is gone, and the core keeps the split that it has: no SETVL
has applied the other (DESIGN CHOICE, log 26). -/
def State.settleCore (s : State) (gc : Nat) : State :=
  if (s.coreTasks gc).isEmpty && (s.core gc).pending.isSome then s.onCore gc fun c => { c with pending := none } else s

/-! Free cores (R87, R88). -/

/-- A bundle that is being saved still holds its quad's core, or its control core. -/
def State.beingSaved (s : State) (quad : Nat) (p : Bundle → Bool) : Bool :=
  s.loom.bundles.any fun b => decide (b.quad = quad) && p b && match b.stage with
    | .saving _ _ => true
    | _ => false

/-- A core can take `need` harts of a bundle of that split (R87, R88, R315, R316): none while a split of it is pending. -/
def State.coreTakes (s : State) (quad split core need : Nat) : Bool :=
  let gc := 4 * quad + core
  let ts := s.coreTasks gc
  !s.retired quad core && !s.pkg.dead.elem (.vectorCore quad core) && !s.beingSaved quad (fun b => b.cores.elem core) &&
    (s.core gc).pending.isNone &&
    (ts.isEmpty || (decide ((s.core gc).split.toNat = split) && ts.all fun h => decide (need ≤ h.id.hart)))

/-- The control core and the matrix engine of a quad are free (R87, R251). -/
def State.controlFree (s : State) (quad : Nat) : Bool :=
  (s.quad quad).owner.isNone && !(s.harts.any fun h => h.active && decide (h.id = controlOf quad)) &&
    !s.beingSaved quad (·.ctl) && !s.pkg.dead.elem (.controlCore quad) && !s.pkg.dead.elem (.matrixEngine quad)

/-- The lowest-numbered cores of a list that take a bundle's positions in order. -/
def takeCores (ok : Nat → Nat → Bool) : List Nat → List Nat → Option (List Nat)
  | [], _ => some []
  | _ :: _, [] => none
  | n :: needs, c :: cores =>
    if ok c n then (takeCores ok needs cores).map (c :: ·) else takeCores ok (n :: needs) cores

/-- The cores on which a quad takes a bundle, if it has enough of them free (R87). -/
def State.quadTakes (s : State) (quad split : Nat) (ctl : Bool) (needs : List Nat) : Option (List Nat) :=
  if s.retired quad 4 || (ctl && !s.controlFree quad) then none
  else takeCores (s.coreTakes quad split) needs (List.range 4)

/-- The quads that a tenant is allowed, by (die, quad) (R87, R272). -/
def State.allowed (s : State) (tenant : Nat) : List Nat :=
  (List.range 144).filter fun q => (s.tenant tenant).loaded && (s.tenant tenant).quads.getLsbD q

/-- The lowest allowed quad that takes a bundle (R87). -/
def State.lowestQuad (s : State) (tenant split : Nat) (ctl : Bool) (needs : List Nat) : Option (Nat × List Nat) :=
  (s.allowed tenant).findSome? fun q => (s.quadTakes q split ctl needs).map fun cs => (q, cs)

/-- How many tasks bundle b of a job starts (R82). -/
def Job.tasksOf (j : Job) (b : Nat) : Nat := min j.desc.harts (j.grid.toNat + 1 - b * j.desc.harts)

/-- How many harts of a bundle with n tasks stand on each of its cores (R82). -/
def BundleDesc.needs (d : BundleDesc) (n : Nat) : List Nat :=
  (List.range d.cores).map fun p => min (2 ^ d.split.toNat) (n - p * 2 ^ d.split.toNat)

/-- Where the next bundle of a job goes: the hint's result (R89) and the quad with its cores, if there is one (R87). -/
def State.choose (s : State) (j : Job) : Nat × Option (Nat × List Nat) :=
  let t := s.qtenant j.qcb
  let split := j.desc.split.toNat
  let needs := j.desc.needs (j.tasksOf j.next)
  let hq := 36 * bits j.hint.toNat 2 1 + bits j.hint.toNat 8 3
  if !j.hint.getLsbD 0 then (0, s.lowestQuad t split j.desc.ctl needs)
  else if 36 ≤ bits j.hint.toNat 8 3 ∨ !(s.allowed t).elem hq then (2, s.lowestQuad t split j.desc.ctl needs)
  else match s.quadTakes hq split j.desc.ctl needs with
    | some cs => (1, some (hq, cs))
    | none => (3, s.lowestQuad t split j.desc.ctl needs)

/-! Placement. -/

/-- The eighths that a hart receives are zeroed, and their core barriers reset (R273). -/
def State.zeroPart (s : State) (id : AgentId) (split : Nat) : State :=
  let w := 8 / 2 ^ split
  let gc := globalCore id
  let base := gc * 2 ^ 12 + 2 ^ 9 * (w * id.hart)
  let s := if s.pkg.storePoison.isEmpty then s else s.onPkg fun p => { p with
    storePoison := p.storePoison.filter fun g => !(decide (base ≤ g) && decide (g < base + 2 ^ 9 * w)) }
  { s with
    lstore := s.lstore.clear (gc * 2 ^ 18 + 2 ^ 15 * (w * id.hart)) (2 ^ 15 * w)
    barriers := s.barriers.filter fun p =>
      !(decide (p.1.scope = 1) && decide (p.1.place = gc) && decide (p.1.id / 6 / w = id.hart)) }

/-- The split of a core set for a bundle: pending where it differs from the core's own (R88). -/
def State.splitFor (s : State) (gc : Nat) (n : BitVec 2) : State :=
  if (s.coreTasks gc).isEmpty then
    s.onCore gc fun c => { c with pending := if c.split = n then none else some n }
  else s

/-- A hart with a task of a placed bundle, before its start (R82, R95). -/
def newTask (id : AgentId) (c : BitVec 12) (split : BitVec 2) (j : Job) (b task : Nat) (entry : BitVec 48) (eprio : Nat)
    (fenced : Nat) : Hart :=
  { Hart.idle id with
    active := true
    ctx := c
    split := split
    prio := BitVec.ofNat 4 eprio
    qcb := j.qcb
    job := j.id
    bundle := b
    task := BitVec.ofNat 32 task
    args := j.args
    entry := entry
    fenced := fenced
    pc := entry &&& ~~~1#48 }

/-- Register banks of a core that are in retention wake: harts come to hold their registers (R55). -/
def State.wakeBanks (s : State) (gc : Nat) : State :=
  if (s.core gc).retained.isEmpty then s else s.onCore gc fun c => { c with retained := [] }

/-- The next bundle of a job placed (R82, R87 to R90, R251, R273). Its record's depth still counts the job, which is not yet fully
placed when the Loom decides (DESIGN CHOICE, log 49). -/
def State.placeBundle (s : State) (j : Job) (hint quad : Nat) (cores : List Nat) (reason : BitVec 8) : State :=
  let b := j.next
  let d := j.desc
  let h := 2 ^ d.split.toNat
  let c := s.qctx j.qcb
  let t := s.qtenant j.qcb
  let eprio := s.effective j
  let s := if hint = 0 then s else s.decide_ t (if hint = 1 then 4 else 5)
  let s := s.decision j.qcb 0 j.id b eprio ⟨quad, cores, d.split.toNat, hint⟩ reason
  let s := (s.bumpQ j.qcb 2).decide_ t 0
  let s := if j.state = 0 then s.setStatus j.pa 1 0 else s
  let s := s.onJob j.qcb j.id fun k => { k with state := 1, next := b + 1, deferred := false }
  let bundle : Bundle := ⟨j.qcb, j.id, b, c, quad, cores, d.split, d.ctl, .running, [], [], []⟩
  let s := { s with loom := { s.loom with bundles := s.loom.bundles ++ [bundle] } }
  let s := cores.foldl (fun s k => (s.splitFor (4 * quad + k) d.split).wakeBanks (4 * quad + k)) s
  let s := (List.range (j.tasksOf b)).foldl (fun s i =>
    let id : AgentId := ⟨quad, cores.getD (i / h) 0, i % h, false⟩
    ((s.zeroPart id d.split.toNat).putHart (newTask id c (s.core (globalCore id)).split j b (b * d.harts + i) j.entry eprio
      s.pkg.oldCode.length)).due (.taskStart id)) s
  if d.ctl then
    let id := controlOf quad
    let s := s.resetMatrix quad (j.qcb, j.id, b)
    (s.putHart (newTask id c 0 j b (b * d.harts) (d.control.setWidth 48) eprio
      s.pkg.oldCode.length)).due (.taskStart id)
  else s

/-! Pre-emption (R91, R269, R308). -/

/-- The copies of a hart as a pre-emption leaves them (R158). -/
def Hart.cutCopies (h : Hart) : Vector (Option Copy) 32 :=
  Vector.ofFn fun (i : Fin 32) => (h.copy.get i).map fun c =>
    c.cut (h.mvl ((Fmt.ofCode c.fmt.toNat).getD .f64).sew) (decide (h.h.get i = .full))

/-- A hart of a bundle of that split as it is saved: no load or store is outstanding, no transfer but a suspended accstore or a tile
operation, no wait stands, and its streams are cut back (R158, R269, R308). -/
def Hart.suspended (h : Hart) (split : BitVec 2) : Hart :=
  let tl := if h.id.control then h.cnt.tl else BitVec.ofNat 6 h.accStores.length
  { h with
    split := if h.id.control then h.split else split
    copy := h.cutCopies
    cnt := { h.cnt with ld := 0, st := 0, tl := tl }
    reservation := none
    wait := none
    yielded := 0
    urgent := false
    passed := 0
    lineBuffer := [] }

/-- The locks of a context that no longer runs are dropped (R181, R311). A context is switched out by a pre-emption that leaves no hart
of it running; the end of its last bundle keeps its locks, and the context's own end drops them (DESIGN CHOICE, log 26). -/
def State.dropLocks (s : State) (c : BitVec 12) : State :=
  if (s.ctx c).locks.isEmpty || s.harts.any (fun h => h.active && decide (h.ctx = c)) then s
  else s.onCtx c fun x => { x with locks := [], lost := x.lost ||| 2 }

/-- The running tile operation of a pre-empted bundle completes (R269). -/
def State.finishRunning (s : State) (quad : Nat) : State :=
  match (s.quad quad).running with
  | none => s
  | some op =>
    let t := s.runTileOp quad op
    (t.onQuad quad fun q => { q with running := none, progress := [] }).lower (controlOf quad) .tl

/-- The stage of a bundle changed. -/
def State.onBundle (s : State) (b : Bundle) (f : Bundle → Bundle) : State :=
  { s with loom := { s.loom with
      bundles := s.loom.bundles.map fun k => if k.qcb = b.qcb ∧ k.job = b.job ∧ k.index = b.index then f k else k } }

/-- How many eighths of a core a hart of a bundle of that split holds (R32, R273). -/
def eighths (split : BitVec 2) : Nat := 8 / 2 ^ split.toNat

/-- The core barriers in the eighths of a bundle's harts (R114, R273), as a saved bundle keeps them. -/
def State.coreBarriers (s : State) (b : Bundle) : List (Nat × Nat × Nat × Barrier) :=
  let n := 6 * eighths b.split
  (s.harts.filter fun h => b.has h && !h.id.control).flatMap fun h =>
    (s.barriers.filter fun p => decide (p.1 = ⟨b.ctx, 1, p.1.id, globalCore h.id⟩) && decide (p.1.id / n = h.id.hart)).map fun p =>
      (h.id.core, p.1.id % n, h.id.hart, p.2)

/-- The members of calls among these harts are away until they resume (R161). -/
def State.awayMembers (s : State) (hs : List Hart) : State :=
  let leaves := fun (x : XredCall) (m : Member) => hs.any fun h => decide (h.id = m.who) && decide (h.xredCall = some x.id)
  let away := fun (x : XredCall) => { x with members := x.members.map fun m => if leaves x m then { m with away := true } else m }
  { s with xred := s.xred.map away }

/-- A bundle's harts stopped and saved in a slot (R308 to R310); PRE_EMPTION_COMPLETE is due. -/
def State.preempt (s : State) (b : Bundle) (slot : Nat) (reason : BitVec 8) : State :=
  let c := b.ctx
  let ids := (s.harts.filter b.has).map (·.id)
  let s := ids.foldl (fun s id => s.abortRegion id 6) s
  let s := if b.ctl then s.finishRunning b.quad else s
  let s := (s.flushPrefetches ids).updateAll fun h => if b.has h then h.suspended b.split else h
  let hs := s.harts.filter b.has
  let s := hs.foldl (fun s h => s.trace h 2 (h.pc.toNat + h.vstart.toNat * 2 ^ 48) slot 0) s
  let q := s.quad b.quad
  let barriers := s.coreBarriers b
  let s := s.onBundle b fun b => { b with
    stage := .saving slot reason
    barriers := barriers
    ops := if b.ctl then q.waiting else []
    releasing := if b.ctl then q.releasing else [] }
  let s := hs.foldl (fun s h => s.saveHart (s.recordBase h slot) h false (s.ctx c).discards) s
  let s := if b.ctl then
      ((s.saveMatrix c b.quad ((s.ctx c).slotBase slot) b.cores (2 ^ b.split.toNat) q.waiting).dropQuadDue b.quad).onQuad b.quad
        fun _ => Quad.idle
    else s
  let s := ((s.awayMembers hs).removeHarts b.has).dropDue ids
  let s := { s with saved := s.saved ++ hs }
  ((s.onCtx c fun x => x.markSlot slot true).dropLocks c).due (.preEmptionComplete b.qcb b.job b.index)

/-- A bundle is running. -/
def Bundle.runs (b : Bundle) : Bool := decide (b.stage = .running)

/-- The save slot of a bundle that waits to resume. -/
def Bundle.slot? (b : Bundle) : Option Nat := match b.stage with
  | .saved i => some i
  | _ => none

/-! Resumption (R308, R309). -/

/-- How many harts a saved bundle needs on each of its cores. -/
def State.savedNeeds (s : State) (b : Bundle) : List Nat :=
  b.cores.map fun c => (s.saved.filter fun h => b.has h && !h.id.control && decide (h.id.core = c)).foldl
    (fun n h => max n (h.id.hart + 1)) 0

/-- What names a hart of old name in transfers under way takes its new name; the hart is back in its calls (R161). -/
def State.renameHart (s : State) (h : Hart) (new : AgentId) : State :=
  { s with
    pushes := s.pushes.map fun p =>
      let p := if h.pushing = some p.id then { p with sender := new } else p
      if p.receiver = h.id ∧ p.bundle = (h.qcb, h.job, h.bundle) then { p with receiver := new } else p
    xred := s.xred.map fun x =>
      if h.xredCall = some x.id then
        { x with members := x.members.map fun m => if m.who = h.id ∧ m.away then { m with who := new, away := false } else m }
      else x }

/-- The steps of a call that has its result already, and waits for a member that resumes (R161). -/
def State.rejoin (s : State) (h : Hart) : State :=
  match h.xredCall with
  | none => s
  | some n => if s.xred.any fun x => decide (x.id = n) && x.outcome.isSome then s.due (.xredComplete n) else s

/-- The copies of a hart lost with its copy engine (R316): their handles are free, and the hart will trap where it waits
for them. -/
def State.loseCopies (s : State) (h : Hart) : State :=
  (List.range 32).foldl (fun s i => match h.copy.getD i none with
    | none => s
    | some _ =>
      let streams := (List.range 8).filter fun q => decide (h.q.getD q none = some (BitVec.ofNat 5 i))
      (s.releaseHandle h.id i).update h.id fun h => h.lose (i :: streams.map (64 + ·))) s

/-- A hart whose record cannot be read ends as with an unhandled trap, and its job fails with code 6 (R304, R313; DESIGN CHOICE, log
36). -/
def Hart.broken (h : Hart) : Hart := { h with ending := true, failCode := 6 }

/-- A barrier at which a hart waits, after a resume on a core (R114): a core barrier has moved with the hart's part of the core. -/
def movedKey (k : BarrierKey) (id : AgentId) : BarrierKey := if k.scope = 1 then { k with place := globalCore id } else k

/-- A resumed hart is put at its place, and the steps that carry it on become due. Registers whose record holds an uncorrectable error
stay so, and ctx.lost says so (R311, R313). Where other words of its record, or of the matrix state of its bundle (`lost`), hold one,
it has nothing to go on from. -/
def State.resumeHart (s : State) (b : Bundle) (slot quad : Nat) (cores : List Nat) (lost : Bool) (h : Hart) : State :=
  let base := s.recordBase h slot
  let id : AgentId := if h.id.control then controlOf quad else
    ⟨quad, cores.getD (b.cores.findIdx (· = h.id.core)) 0, h.id.hart, false⟩
  let discard := (s.deviceMem.byte base).toNat.testBit 2
  let s := s.deviceReads (recordLines s.deviceMem base h)
  let s := s.renameHart h id
  let lost := lost || recordLost s.deviceMem s.deviceBad base
  let h := { (if lost then h.broken else loadRecord s.deviceMem s.deviceBad base h) with id := id }
  let h := { h with adv := h.adv.restart h.mark, barWait := h.barWait.map fun w => (movedKey w.1 id, w.2) }
  let s := if lost then (s.count h.ctx 0x7AD 0 1).onCtx h.ctx fun x => { x with lost := x.lost ||| 4 } else s
  let s := if id.control then s else s.zeroPart id b.split.toNat
  let s := s.putHart h
  let s := if discard then s.onCtx h.ctx fun x => { x with lost := x.lost ||| 1 } else s
  let s := if h.parity.isEmpty then s else s.onCtx h.ctx fun x => { x with lost := x.lost ||| 4 }
  let s := s.rejoin h
  let s := if !id.control && s.pkg.dead.elem (.copyEngine id.quad id.core) then s.loseCopies h else s.rearmCopies h
  let s := h.accStores.foldl (fun s _ => s.due (.operationComplete id .tl)) s
  let s := if h.ending then s.due (.taskEnd id) else if !h.started then s.due (.taskStart id) else s
  let s := if id.control then s else s.adviceAgain (globalCore id)
  (s.onCtx h.ctx fun x => { x with trcResync := true }).trace h 9 (h.pc.toNat + h.vstart.toNat * 2 ^ 48) 0 0

/-- The core barriers that a saved bundle kept, in the eighths that its harts now hold (R114, R273). -/
def State.restoreBarriers (s : State) (b : Bundle) (quad : Nat) (cores : List Nat) : State :=
  b.barriers.foldl (fun s x =>
    let k : BarrierKey := ⟨b.ctx, 1, 6 * eighths b.split * x.2.2.1 + x.2.1, 4 * quad + cores.getD (b.cores.findIdx (· = x.1)) 0⟩
    let s := s.setBarrier k x.2.2.2
    (List.range (x.2.2.2.phase - x.2.2.2.released)).foldl (fun s _ => s.due (.barrierRelease k)) s) s

/-- A saved bundle resumes on a quad (R269, R308 to R311). -/
def State.resume (s : State) (j : Job) (b : Bundle) (slot quad : Nat) (cores : List Nat) (reason : BitVec 8) : State :=
  let c := b.ctx
  let t := tenantOf b.ctx
  let s := s.decision b.qcb 3 b.job b.index (s.effective j) ⟨quad, cores, b.split.toNat, 0⟩ reason
  let lost := b.ctl && s.matrixLost ((s.ctx c).slotBase slot)
  let s := (s.bumpQ b.qcb 5).decide_ t 3
  let s := cores.foldl (fun s k => s.onCore (4 * quad + k) fun x => { x with split := b.split, pending := none, retained := [] }) s
  let s := if b.ctl then
      let s := s.resetMatrix quad (b.qcb, b.job, b.index)
      let s := (loadMatrix s quad ((s.ctx c).slotBase slot) cores (2 ^ b.split.toNat) b.ops).loadPoison c quad
        ((s.ctx c).slotBase slot)
      let s := s.onQuad quad fun q => { q with releasing := b.releasing }
      let s := b.releasing.foldl (fun s i => match (s.quad quad).slots.getD i .free with
        | .control => s.due (.slotFree quad i)
        | _ => s.due (.slotFull quad i)) s
      if b.ops.isEmpty then s else s.due (.tileOpStart quad)
    else s
  let hs := s.saved.filter b.has
  let s := { s with saved := s.saved.filter fun h => !b.has h }
  let s := (hs.foldl (fun s h => s.resumeHart b slot quad cores lost h) s).restoreBarriers b quad cores
  let s := s.onBundle b fun b => { b with stage := .running, quad := quad, cores := cores, ops := [], releasing := [], barriers := [] }
  s.onCtx c fun x => x.markSlot slot false

/-! The policy (R84 to R88, R91). -/

/-- The QCB lets its jobs be placed and resumed (R78, R84). -/
def State.qcbRuns (s : State) (q : Word) : Bool := s.qopen q && !(s.qword q 0).testBit 1 && !s.ringBlocked q

/-- The job's next bundle may be placed (R84). -/
def State.ready (s : State) (j : Job) : Bool :=
  j.open && j.read && decide (j.next < j.bundles) && j.deps.isEmpty && s.qcbRuns j.qcb

/-- Context c maps an address with write permission to the page of `pa`, where one is given (R79). A table entry that only waits for
an engine or a flip says nothing against it yet. -/
def State.mapsWrite (s : State) (c : BitVec 12) (va : Nat) (at_ : Option Nat) : Bool :=
  match s.walkIn c va with
  | .page pa rwx => Perm.store.allowed rwx && match at_ with
    | some q => decide (pa = q)
    | none => true
  | .wait => true
  | _ => false

/-- The QCB, which lies within one page, and its ring are mapped with write permission (R79). -/
def State.qcbMapped (s : State) (j : Job) : Bool :=
  let c := s.qctx j.qcb
  s.mapsWrite c j.qva.toNat (some j.qcb.toNat) && match s.ring j.qcb with
    | none => true
    | some (base, size) => (pagesOf base (32 * size)).all fun p => s.mapsWrite c p none

/-- The place of a wish in the order of R86: effective priority, saved bundles first, the time of acceptance, the QCB's address, and
the job id. -/
def State.wishKey (s : State) (w : Job × Option Bundle) : Nat :=
  ((((15 - s.effective w.1) * 2 + (if w.2.isSome then 0 else 1)) * 2 ^ 64 + w.1.time.toNat) * 2 ^ 64 + w.1.qcb.toNat) * 2 ^ 64 +
    w.1.id.toNat

/-- What asks for cores, in the order of R86: a job's next bundle, or a saved bundle of it. -/
def State.wants (s : State) : List (Job × Option Bundle) :=
  sortBy s.wishKey (s.loom.jobs.flatMap fun j =>
    let saved := s.loom.bundles.filter fun b =>
      decide (b.qcb = j.qcb) && decide (b.job = j.id) && b.slot?.isSome && s.qcbRuns j.qcb
    saved.map (fun b => (j, some b)) ++ (if s.ready j then [(j, none)] else []))

/-- One wish granted, if a quad takes it; placing and resuming are checked against R79 (R92). A bundle that resumes takes the lowest
quad, whatever its job's hint says: R87 speaks of the hint for placements (DESIGN CHOICE, log 26). -/
def State.attempt (s : State) (w : Job × Option Bundle) : Option State :=
  if !s.qcbMapped w.1 then none
  else match w.2 with
  | none => match s.choose w.1 with
    | (hint, some (quad, cores)) => some (s.placeBundle w.1 hint quad cores 0)
    | (_, none) => none
  | some b => match b.slot? with
    | none => none
    | some slot => (s.lowestQuad (tenantOf b.ctx) b.split.toNat b.ctl (s.savedNeeds b)).map
        fun p => s.resume w.1 b slot p.1 p.2 0

/-- Wishes granted in order until none can be, at most n of them. -/
def State.grantWants : Nat → State → State
  | 0, s => s
  | n + 1, s => match s.wants.findSome? s.attempt with
    | some t => State.grantWants n t
    | none => s

/-- Each job left without a place is deferred, once for each episode (R87); its record names the hint's result (R89). -/
def State.deferRest (s : State) : State :=
  (s.wants.filter fun w => w.2.isNone && !w.1.deferred).foldl (fun s w =>
    let j := w.1
    let s := (s.bumpQ j.qcb 3).decide_ (s.qtenant j.qcb) 1
    let s := s.decisionAlone j.qcb 1 j.id j.next (s.effective j) (s.choose j).1
    s.onJob j.qcb j.id fun k => { k with deferred := true }) s

/-- The machine without a bundle. -/
def State.without (s : State) (b : Bundle) : State :=
  let s := s.removeHarts b.has
  let s := if b.ctl then s.onQuad b.quad fun _ => Quad.idle else s
  { s with loom := { s.loom with bundles := s.loom.bundles.filter fun k => decide (k ≠ b) } }

/-- The running bundles that a wish may pre-empt (R91): lowest effective priority first, then highest job id. -/
def State.victims (s : State) (w : Job × Option Bundle) : List Bundle :=
  let own := s.effective w.1
  let bs := s.loom.bundles.filterMap fun b => match s.job b.qcb b.job with
    | some j => if b.runs && j.preempt && decide (s.effective j < own) && ((s.without b).attempt w).isSome then
        some (s.effective j, b) else none
    | none => none
  let bs := sortBy (fun (p : Nat × Bundle) => 2 ^ 64 - p.2.job.toNat) bs
  (sortBy (fun (p : Nat × Bundle) => p.1) bs).map (·.2)

/-- At most one pre-emption at a policy point, and none while another bundle is being saved: its cores are already on their way to a
bundle that waits (DESIGN CHOICE, log 26). A command with no save slot is refused (R92, R309). -/
def State.preemptOne (s : State) : State :=
  if s.loom.bundles.any fun b => !b.runs && b.slot?.isNone then s
  else match s.wants.findSome? fun w => (s.victims w).head?.map fun b => (w, b) with
    | none => s
    | some (_, b) => match (s.ctx b.ctx).freeSlot with
      | some slot => s.preempt b slot 0
      | none => s.due (.commandRefused 1 92)

/-! Failures and checks (R79, R81, R83). -/

/-- Jobs that have ended and hold no bundle leave the list. -/
def State.dropEnded (s : State) : State :=
  { s with loom := { s.loom with jobs := s.loom.jobs.filter fun j =>
      j.open || s.loom.bundles.any fun b => decide (b.qcb = j.qcb) && decide (b.job = j.id) } }

/-- A job fails, and every job that depends on it (R81); chains are followed for n links. -/
def State.failJob : Nat → Job → Byte → State → State
  | n, j, code, s =>
    let eprio := s.effective j
    let s := s.onJob j.qcb j.id fun k => { k with state := 3, code := code }
    let s := (s.setStatus j.pa 3 code.toNat).setHead j.qcb
    let s := s.decisionAlone j.qcb 5 j.id 0 eprio 0
    match n with
    | 0 => s
    | n + 1 =>
      (s.loom.jobs.filter fun k => k.open && k.deps.any fun d => decide (d.2 = j.pa)).foldl
        (fun s k => State.failJob n k 2 s) s

/-- A job that is still open fails. -/
def State.fail (s : State) (qcb id : Word) (code : Byte) : State :=
  match s.job qcb id with
  | none => s
  | some j => if j.open then (State.failJob s.loom.jobs.length j code s).dropEnded else s

/-- What a dependence that is not yet met says now (R81): a record that the Loom holds says its state; any other one says what its
status word holds, read under ctx. -/
inductive Depends where
  | met
  | unmet
  | failed
  /-- the status word is not mapped (code 3) -/
  | unmapped
deriving DecidableEq, Repr

/-- The dependence of a job on the record at an address, whose physical address was `d.2` at the append event. -/
def State.dependence (s : State) (c : BitVec 12) (d : Word × Nat) : Depends :=
  match s.loom.jobs.find? fun k => decide (k.pa = d.2) with
  | some k => if k.open then .unmet else if k.state = 2 then .met else .failed
  | none => match s.walkIn c ((d.1.toNat + 0x38) % 2 ^ 64) with
    | .page pa rwx =>
      if !Perm.load.allowed rwx then .unmapped
      else if s.owned (pa / 64) || s.flipping pa || s.deviceBad (pa / 64) then .unmet
      else match s.mem.read pa 8 % 4 with
        | 2 => .met
        | 3 => .failed
        | _ => .unmet
    | .fault => .unmapped
    | _ => .unmet

/-- The code with which a job that is read and open fails now, if any, and its dependences that are still unmet. -/
def State.checkJob (s : State) (j : Job) : Option Byte × List (Word × Nat) :=
  let c := s.qctx j.qcb
  if !s.qcbMapped j then (some 5, j.deps)
  else
    let foreign := j.deps.any fun d => s.loom.jobs.any fun k => decide (k.pa = d.2) && decide (s.qctx k.qcb ≠ c)
    if foreign || j.deps.any fun d => decide (s.dependence c d = .unmapped) then (some 3, j.deps)
    else if j.deps.any fun d => decide (s.dependence c d = .failed) then (some 2, j.deps)
    else (none, j.deps.filter fun d => decide (s.dependence c d ≠ .met))

/-- The entry reads of the walks by which the Loom finds whether a job's QCB and ring are mapped (R79, R197). -/
def State.noteMapped (s : State) (j : Job) : State :=
  let c := s.qctx j.qcb
  let s := s.noteWalk c j.qva.toNat
  match s.ring j.qcb with
  | none => s
  | some (base, size) => (pagesOf base (32 * size)).foldl (fun s p => s.noteWalk c p) s

/-- Every open job that has been read is checked (R79, R81). -/
def State.checkJobs (s : State) : State :=
  (s.loom.jobs.filter fun j => j.read).foldl (fun s k => match s.job k.qcb k.id with
    | none => s
    | some j =>
      if !j.open then s
      else
        let s := j.deps.foldl (fun s d =>
          let a := (d.1.toNat + 0x38) % 2 ^ 64
          let s := s.noteWalk (s.qctx j.qcb) a
          match s.walkIn (s.qctx j.qcb) a with
          | .page pa _ => s.loomRead (pa / 64)
          | _ => s) (s.noteMapped j)
        match s.checkJob j with
        | (some code, _) => s.fail j.qcb j.id code
        | (none, deps) => s.onJob j.qcb j.id fun j => { j with deps := deps }) s

/-- The head, the tail and the next word of the record appended last are compared with the Loom's list (R83): a record that no append
presented fails with code 1, and the words are written back. Once every record has ended, the tail keeps the last one, since only an
append writes it, and its next word is still compared, unless an append has presented that record to another QCB (DESIGN CHOICE, log
24). -/
def State.checkLinks (s : State) (q : Word) : State :=
  let v := s.view q
  let js := s.loom.jobs.filter fun j => decide (j.qcb = q)
  let elsewhere := s.loom.jobs.any fun j => decide (j.qcb ≠ q) && decide (j.pa = v.lastPa)
  let compare := v.last ≠ 0 && !elsewhere && !s.deviceBad (v.lastPa / 64)
  let s := if compare then s.loomRead (v.lastPa / 64) else s
  let next := if compare then s.deviceMem.read v.lastPa 8 else 0
  let head := if s.qcbBad q then (s.firstOpen q).toNat else s.qword q 0x10
  let tail := if s.qcbBad q then v.last.toNat else s.qword q 0x08
  let known := v.last.toNat :: js.map (·.addr.toNat)
  let foreign := ([next, head, tail].filter fun a => decide (a ≠ 0) && !known.elem a).eraseDups
  let s := foreign.foldl (fun s _ => ((s.bumpQ q 1).decide_ (s.qtenant q) 6).decisionAlone q 6 0 0 0 0) s
  let s := if tail = v.last.toNat then s else s.setQword q 0x08 v.last.toNat
  let s := if head = (s.firstOpen q).toNat then s else s.setHead q
  if next = 0 then s else s.loomWrite v.lastPa 8 0

/-- What the Loom reads of a QCB at an event (R78, R79). -/
def State.readView (s : State) (q : Word) : State :=
  let s := (List.range 2).foldl (fun s k => s.loomRead (q.toNat / 64 + k)) s
  let cw := s.qword q 0
  let lo := bits cw 11 8
  let hi := bits cw 15 12
  let v := s.view q
  let s := if s.qcbBad q ∨ hi < lo then s else
    s.setView { v with qcb := q, ctx := ctxOfWord cw, prioMin := BitVec.ofNat 4 lo, prioMax := BitVec.ofNat 4 hi }
  match s.ring q with
  | some (_, size) =>
    if !(s.heldRecords q).isEmpty && !s.ringFull q size && !s.agenda.elem (.decRecordFlush q) then
      s.due (.decRecordFlush q) else s
  | none => s

/-- The snapshot bytes of a QCB, which the Loom overwrites after each event (R78): free values. -/
def State.snapshot (s : State) (q : Word) : State :=
  let bs := (List.range 128).map fun i => Config.freeByte s.free i
  (s.fresh.deviceWrite (q.toNat + 0x80) (bs.take 64)).deviceWrite (q.toNat + 0xC0) (bs.drop 64)

/-- The QCBs that the Loom serves: those of its jobs and of the records that it holds. -/
def State.qcbs (s : State) : List Word := (s.loom.jobs.map (·.qcb) ++ s.loom.held.map (·.1)).eraseDups

/-- An engine owns a line that satisfies p (R128, R149). -/
def State.ownsAny (s : State) (p : Nat → Bool) : Bool :=
  (s.harts ++ s.saved).any (fun h => h.copy.toList.any (fun c => match c with
      | some c => c.lines.any p
      | none => false) || h.accStores.any fun a => a.lines.any p) ||
    s.windows.any fun w => w.contribs.any fun c => p (c.addr / 64)

/-- The save slot of a bundle that waits to resume holds a line that an engine owns, or lies in a region being flipped (R128, R285). -/
def State.slotBusy (s : State) (b : Bundle) : Bool :=
  match b.slot? with
  | none => false
  | some i =>
    let base := (s.ctx b.ctx).slotBase i
    s.ownsAny (fun l => decide (l / 2 ^ 17 = base / 2 ^ 23)) || s.pkg.flips.any fun f => decide (f.1 / 4 = base / 2 ^ 23)

/-- A line of a QCB, a record or a save slot that the Loom would read or write, for its own QCBs and the one that the event is about,
waits for an engine or a flip (R128, R285). -/
def State.loomBusyWith (s : State) (qs : List Word) : Bool :=
  ((qs ++ s.qcbs).any fun q => s.qcbBusy q || s.owned ((s.view q).lastPa / 64)) ||
    (s.loom.jobs.any fun j => s.owned (j.pa / 64) || s.owned (j.pa / 64 + 1) || s.flipping j.pa) ||
    s.loom.bundles.any s.slotBusy

/-- The Loom's own QCBs, records and save slots wait. -/
def State.loomBusy (s : State) : Bool := s.loomBusyWith []

/-- The policy of the boot microcode (R86, R87, R91). A reloaded image decides by its own commands (R92, R93; log 19). -/
def State.policy (s : State) : State :=
  if s.loom.image.isSome then s else (State.grantWants (4 * 144 + 1) s).deferRest.preemptOne

/-- The handling of one event (R83 to R91): words read and checked, priorities brought up to date, bundles placed and
resumed, jobs deferred, at most one bundle pre-empted. `about` is the QCB of the event, where there is one: it is served even when its
last job has just left the list. -/
def State.loomTurnFor (s : State) (about : List Word) : State :=
  let qs := (s.qcbs ++ about).eraseDups
  let s := qs.foldl (fun s q => (s.readView q).checkLinks q) s
  let s := s.checkJobs.refreshPriorities
  let s := s.policy.refreshPriorities
  qs.foldl (fun s q => s.snapshot q) s

/-- The handling of an event that is about no QCB. -/
def State.loomTurn (s : State) : State := s.loomTurnFor []

end Sys2Proof.Machine
end

