-- ==== Sys2Proof/Machine/LoomEvents.lean ====
section
/-! DEFINITION. The Loom's events (R83 to R94, R104, R308) and the starts and ends of tasks. -/

namespace Sys2Proof.Machine

/-- The fields of a record and of its bundle descriptor, as the Loom reads them once at the append event (R80, R82,
R83); none where a must-be-zero bit is set or the descriptor is invalid (R81, code 4). So is, in the model, an ndeps above 8, and a
descriptor address that is misaligned or that ctx does not map for reading (DESIGN CHOICE, log 49). -/
def State.readRecord (s : State) (j : Job) : Option Job :=
  let w := fun off => s.deviceMem.read (j.pa + off) 8
  let c := s.qctx j.qcb
  let x := w 0x08
  let n := bits x 38 35
  let grid := w 0x28
  let bundle := w 0x18
  match s.walkIn c bundle with
  | .page pa rwx =>
    let d0 := s.deviceMem.read pa 8
    let d1 := s.deviceMem.read (pa + 8) 8
    let ok := decide (bits x 7 4 = 0) && decide (bits x 15 9 = 0) && decide (bits x 63 39 = 0) && decide (n ≤ 8) &&
      decide (w 0x10 < 2 ^ 48) && decide (grid < 2 ^ 32) && decide (bundle % 16 = 0) && Perm.load.allowed rwx &&
      decide (1 ≤ bits d0 2 0) && decide (bits d0 2 0 ≤ 4) && decide (bits d0 7 5 = 0) && decide (bits d0 63 9 = 0) &&
      (d0.testBit 8 || decide (d1 = 0))
    if ok then some { j with
      read := true
      prio := BitVec.ofNat 4 x
      preempt := x.testBit 8
      entry := BitVec.ofNat 48 (w 0x10)
      args := BitVec.ofNat 64 (w 0x20)
      grid := BitVec.ofNat 32 grid
      desc := ⟨bits d0 2 0, BitVec.ofNat 2 (d0 / 8), d0.testBit 8, BitVec.ofNat 64 d1⟩ }
    else none
  | _ => none

/-- The number of dependences that a record names (R80). -/
def State.depCount (s : State) (j : Job) : Nat := bits (s.deviceMem.read (j.pa + 8) 8) 38 35

/-- The i-th dependence that a record names (R80). -/
def State.depAt (s : State) (j : Job) (i : Nat) : Nat := s.deviceMem.read (j.pa + 0x40 + 8 * i) 8

/-- The address of its bundle descriptor (R80). -/
def State.descAt (s : State) (j : Job) : Nat := s.deviceMem.read (j.pa + 0x18) 8

/-- What the Loom reads of a record, or of its bundle descriptor, is poisoned (R313). -/
def State.recordBad (s : State) (j : Job) : Bool :=
  s.deviceBad (j.pa / 64) || (decide (s.depCount j ≠ 0) && s.deviceBad (j.pa / 64 + 1)) ||
    match s.walkIn (s.qctx j.qcb) (s.descAt j) with
    | .page pa _ => s.deviceBad (pa / 64)
    | _ => false

/-- The lines that the Loom reads of a record, and for its bundle descriptor and its dependences (R197, R321). -/
def State.noteRecord (s : State) (j : Job) : State :=
  let c := s.qctx j.qcb
  let s := ((s.loomRead (j.pa / 64)).loomRead (j.pa / 64 + 1)).noteMapped j
  let s := s.noteWalk c (s.descAt j)
  let s := match s.walkIn c (s.descAt j) with
    | .page pa _ => s.loomRead (pa / 64)
    | _ => s
  (List.range (s.depCount j)).foldl (fun s i => s.noteWalk c (s.depAt j i)) s

/-- The dependences of a record with their physical addresses; none where one is misaligned or not mapped (R81,
code 3). -/
def State.readDeps (s : State) (j : Job) : Option (List (Word × Nat)) :=
  (List.range (s.depCount j)).foldr (fun i acc =>
    let a := s.depAt j i
    match acc, s.walkIn (s.qctx j.qcb) a with
    | some l, .page pa rwx => if a % 128 = 0 && Perm.load.allowed rwx then some ((BitVec.ofNat 64 a, pa) :: l) else none
    | _, _ => none) (some [])

/-- What the Loom would read of a record waits for an engine or a flip (R128, R285). -/
def State.recordBusy (s : State) (j : Job) : Bool :=
  let c := s.qctx j.qcb
  let waits := fun (va : Nat) => match s.walkIn c va with
    | .wait => true
    | .page pa _ => s.owned (pa / 64) || s.flipping pa
    | _ => false
  waits (s.descAt j) || (List.range (s.depCount j)).any fun i => match s.walkIn c (s.depAt j i) with
    | .wait => true
    | _ => false

/-- A record read into the Loom's list, or its job failed (R81, R83). The job is pending from now on, and its status word says so
(R80; log 28). Where several causes hold, code 5 comes first, then 4, then 3 (DESIGN CHOICE, log 49). A record of which the Loom reads
poisoned bytes fails with code 4, and the error counts (R313; DESIGN CHOICE, log 36). -/
def State.takeRecord (s : State) (j : Job) : State :=
  let s := (s.noteRecord j).setStatus j.pa 0 0
  if !s.qcbMapped j then s.fail j.qcb j.id 5
  else if s.recordBad j then (s.count (s.qctx j.qcb) 0x7AD 0 1).fail j.qcb j.id 4
  else
    let s := s.onJob j.qcb j.id fun k => { k with prio := BitVec.ofNat 4 (s.deviceMem.read (j.pa + 8) 8) }
    match s.readRecord j with
      | none => s.fail j.qcb j.id 4
      | some k => match s.readDeps j with
        | none => s.fail j.qcb j.id 3
        | some deps => s.onJob j.qcb j.id fun _ => { k with deps := deps }

/-- LOOM_APPEND_EVENT (R83). -/
def execLoomAppendEvent (qcb record : Word) (s : State) : Res :=
  match s.loom.jobs.find? fun j => decide (j.qcb = qcb) && decide (j.addr = record) && !j.read && j.open with
  | none => .fault .notDue
  | some j =>
    if s.loomBusy || s.recordBusy j then .next (s.due (.loomAppendEvent qcb record))
    else .next (((s.readView qcb).takeRecord j).loomTurnFor [qcb])

/-- A policy point of a job that is still held (R84, R91). -/
def State.policyPoint (s : State) (again : Due) : Res := .next (if s.loomBusy then s.due again else s.loomTurn)

/-- DEPENDENCE_MET (R84, R85). -/
def execDependenceMet (qcb job : Word) (s : State) : Res :=
  match s.job qcb job with
  | none => .fault .notDue
  | some _ => s.policyPoint (.dependenceMet qcb job)

/-- The bundle of that name. -/
def State.bundle (s : State) (qcb job : Word) (index : Nat) : Option Bundle :=
  s.loom.bundles.find? fun b => decide (b.qcb = qcb) && decide (b.job = job) && decide (b.index = index)

/-- Every hart of a bundle has ended. -/
def State.bundleDone (s : State) (b : Bundle) : Bool := !(s.harts ++ s.saved).any b.has

/-- The last bundle of a job has ended (R84). -/
def State.jobDone (s : State) (j : Job) : Bool :=
  j.open && j.read && decide (j.bundles ≤ j.next) && !(s.loom.bundles.any fun b => decide (b.qcb = j.qcb) && decide (b.job = j.id))

/-- BUNDLE_ENDED (R91, R251): its cores and its matrix engine are free. The job's last bundle completes the job before
the Loom places anything else (DESIGN CHOICE, log 23). -/
def execBundleEnded (qcb job : Word) (index : Nat) (s : State) : Res :=
  match s.bundle qcb job index with
  | none => .fault .notDue
  | some b =>
    if !s.bundleDone b || !b.runs then .fault .notDue
    else if s.loomBusyWith [qcb] then .next (s.due (.bundleEnded qcb job index))
    else
      let t := { s with loom := { s.loom with bundles := s.loom.bundles.filter fun k => decide (k ≠ b) } }
      let t := if b.ctl then (t.dropQuadDue b.quad).onQuad b.quad fun _ => Quad.idle else t
      let t := b.cores.foldl (fun t k => t.settleCore (4 * b.quad + k)) t
      match t.job qcb job with
      | some j => .next (if t.jobDone j then t.due (.jobEnded qcb job) else t.dropEnded.loomTurnFor [qcb])
      | none => .next (t.dropEnded.loomTurnFor [qcb])

/-- JOB_ENDED (R84): the job completes; its dependences are met. -/
def execJobEnded (qcb job : Word) (s : State) : Res :=
  match s.job qcb job with
  | none => .fault .notDue
  | some j =>
    if !s.jobDone j then .fault .notDue
    else if s.loomBusy then .next (s.due (.jobEnded qcb job))
    else
      let eprio := s.effective j
      let t := s.setStatus j.pa 2 0
      let t := t.onJob qcb job fun k => { k with state := 2 }
      let t := (t.bumpQ qcb 6).decisionAlone qcb 4 job 0 eprio 0
      let ds := t.loom.jobs.filter fun k => k.open && k.deps.any fun d => decide (d.2 = j.pa)
      let t := ds.foldl (fun t k =>
        (t.onJob k.qcb k.id fun k => { k with deps := k.deps.filter fun d => decide (d.2 ≠ j.pa) }).due
          (.dependenceMet k.qcb k.id)) t
      .next ((t.dropEnded.setHead qcb).loomTurnFor [qcb])

/-- The Loom handles what stands (R93), or once no engine owns what it would read. -/
def State.loomAgain (s : State) : State :=
  if !s.loomBusy then s.loomTurn else if s.agenda.elem .loomAgain then s else s.due .loomAgain

/-- The new window begins (R94): the forecast written for it comes into force, and a clock lowered for the rest of the old one is full
again. -/
def State.newWindow (s : State) : State :=
  ({ s with loom := { s.loom with
    forecast := s.loom.next.map fun (x : Option (BitVec 16)) => x.getD 1024
    next := Vector.replicate 4 none } } : State).onPkg fun p => { p with clockLow := false }

/-- WINDOW_TICK (R91, R94): the new window begins, and the Loom decides. -/
def execWindowTick (s : State) : Res := .next s.newWindow.loomAgain

/-- PRE_EMPTION_COMPLETE (R91, R308): the cores are free and the record is written. -/
def execPreEmptionComplete (qcb job : Word) (index : Nat) (s : State) : Res :=
  match s.bundle qcb job index with
  | none => .fault .notDue
  | some b => match b.stage with
    | .saving slot reason =>
      if s.loomBusyWith [qcb] then .next (s.due (.preEmptionComplete qcb job index))
      else
        let t := s.onBundle b fun b => { b with stage := .saved slot }
        let t := b.cores.foldl (fun t k => t.settleCore (4 * b.quad + k)) t
        let eprio := match s.job qcb job with
          | some j => s.effective j
          | none => 0
        let t := t.decision qcb 2 job index eprio ⟨b.quad, b.cores, b.split.toNat, 0⟩ reason
        .next (((t.bumpQ qcb 4).decide_ (tenantOf b.ctx) 2).loomTurnFor [qcb])
    | _ => .fault .notDue

/-- COMMAND_REFUSED (R92): the Loom counts the command; nothing else happens. -/
def execCommandRefused (_ _ : BitVec 8) (s : State) : Res :=
  .next { s with loom := { s.loom with refused := s.loom.refused + 1 } }

/-- MICROCODE_WATCHDOG (R93): the boot microcode again, which handles the event again. -/
def execMicrocodeWatchdog (s : State) : Res :=
  let t := { s with loom := { s.loom with image := none } }
  .next (t.onPkg fun p => { p with loomCost := 120, dec := p.dec.setIfInBounds 8 (p.dec.getD 8 0 + 1) }).loomAgain

/-- MICROCODE_SWITCH (R93): the loaded image runs on all four Looms. -/
def execMicrocodeSwitch (s : State) : Res :=
  match s.loom.reload with
  | none => .fault .notDue
  | some m =>
    let t := { s with loom := { s.loom with image := some m, reload := none } }
    .next (t.onPkg fun p => { p with loomCost := m.cost })

/-! The commands of a reloaded image (R92). Which of them it gives, and when, its program decides: they come with the moves of the
outside (log 19). The codes of commands and causes are the model's own: command 0 place, 1 pre-empt, 2 resume; a cause is the number
of the rule that the check comes from (DESIGN CHOICE, log 49). -/

/-- The cores named for a bundle take it (R87, R88): as many as it has, in increasing order. -/
def State.coresTake (s : State) (quad split : Nat) (needs cores : List Nat) : Bool :=
  decide (cores.length = needs.length) && (cores.zip (cores.drop 1)).all (fun p => decide (p.1 < p.2)) &&
    (cores.zip needs).all fun p => decide (p.1 < 4) && s.coreTakes quad split p.1 p.2

/-- The cause for which hardware refuses a bundle its cores, if there is one (R79, R87, R88, R92). -/
def State.refuses (s : State) (j : Job) (c : BitVec 12) (ready : Bool) (quad split : Nat) (ctl : Bool) (needs cores : List Nat) :
    Option (BitVec 8) :=
  if !s.qcbMapped j then some 79
  else if !ready then some 84
  else if !(s.allowed (tenantOf c)).elem quad || s.retired quad 4 || (ctl && !s.controlFree quad) then some 87
  else if !s.coresTake quad split needs cores then some 88
  else none

/-- What a placement says of the hint (R89), on a quad that the image has chosen. -/
def State.hintResult (s : State) (j : Job) (quad : Nat) : Nat :=
  if (s.choose j).1 = 0 ∨ (s.choose j).1 = 2 then (s.choose j).1
  else if 36 * bits j.hint.toNat 2 1 + bits j.hint.toNat 8 3 = quad then 1
  else 3

/-- A command refused: the event is due (R92). -/
def State.refuse (s : State) (command cause : BitVec 8) : State := s.due (.commandRefused command cause)

/-- The image reaches only QCBs that appends have presented to the Loom (R92). -/
def State.presented (s : State) (q : Word) : Bool := s.qcbs.elem q

/-- A decision record that an image writes (R89, R92): kinds 7 to 15 are never written, and kinds defer, complete, fail and refuse name
no quad. -/
def State.commandRecord (s : State) (q job : Word) (kind : BitVec 3) (b : BitVec 32) (eprio : BitVec 4) (p : PlaceInfo)
    (reason : BitVec 8) : State :=
  let names := kind = 0 ∨ kind = 2 ∨ kind = 3
  if !s.presented q ∨ kind = 7 then s
  else s.decision q kind.toNat job b.toNat eprio.toNat (if names then p else ⟨0, [], 0, p.hint⟩) reason

/-- A command of the reloaded image, checked by hardware (R80, R92, R94). One that writes a status word changes no state of a job that the
Loom itself holds (log 19). -/
def State.loomCommand (s : State) : LoomCommand → State
  | .place q id quad cores reason => match s.job q id with
    | none => s.refuse 0 84
    | some j => match s.refuses j (s.qctx q) (s.ready j) quad j.desc.split.toNat j.desc.ctl (j.desc.needs (j.tasksOf j.next)) cores with
      | some cause => s.refuse 0 cause
      | none => (s.placeBundle j (s.hintResult j quad) quad cores reason).refreshPriorities
  | .preempt q id index reason => match s.job q id, s.bundle q id index with
    | some j, some b => match (s.ctx b.ctx).freeSlot with
      | some slot => if b.runs && j.preempt then s.preempt b slot reason else s.refuse 1 80
      | none => s.refuse 1 92
    | _, _ => s.refuse 1 91
  | .resume q id index quad cores reason => match s.job q id, s.bundle q id index with
    | some j, some b => match b.slot?, s.refuses j b.ctx (s.qcbRuns q) quad b.split.toNat b.ctl (s.savedNeeds b) cores with
      | some slot, none => (s.resume j b slot quad cores reason).refreshPriorities
      | some _, some cause => s.refuse 2 cause
      | none, _ => s.refuse 2 91
    | _, _ => s.refuse 2 91
  | .forecast d x => { s with loom := { s.loom with next := s.loom.next.setIfInBounds d (some (BitVec.ofNat 16 (min x 1024))) } }
  | .record q id kind b eprio p reason => s.commandRecord q id kind b eprio p reason
  | .status q id state code => match s.job q id with
    | none => s
    | some j => s.setStatus j.pa state.toNat code.toNat
  | .bump q i =>
    if !s.presented q then s
    else if i < 8 then s.bumpQ q i
    else if i < 17 then s.decide_ (s.qtenant q) (i - 8) else s

/-- TASK_START (R82, R286, R296): s1 and s2 are set and the advice context starts under the image now loaded. -/
def execTaskStart (who : AgentId) (s : State) : Res :=
  match s.find who with
  | none => .fault .notDue
  | some h =>
    if !h.active || h.started then .fault .notDue
    else
      let a := Advice.fresh (s.ctx h.ctx).advice who.control
      let t := s.update who fun h => { (h.setS 1 h.args).setS 2 (h.task.setWidth 64) with
        started := true
        pc := h.entry &&& ~~~1#48
        adv := a }
      .next (if a.state = .running then t.adviceAgain (globalCore who) else t)

/-- Operations of an ending hart that are still to complete (R104, R157). -/
def Hart.draining (h : Hart) : Bool :=
  decide (h.cnt.ld ≠ 0) || decide (h.cnt.st ≠ 0) || decide (h.cnt.tl ≠ 0) || h.copy.toList.any fun c => match c with
    | some c => decide (c.kind ≠ 0)
    | none => false

/-- The hart holds a slot in that state (R252). -/
def Hart.holds (h : Hart) : SlotState → Bool
  | .feeder c k => !h.id.control && decide (c = h.id.core) && decide (k = h.id.hart)
  | .control => h.id.control
  | _ => false

/-- The hart holds a slot whose release has not taken effect (R252). -/
def State.slotsReleasing (s : State) (h : Hart) : Bool :=
  (s.quad h.id.quad).releasing.any fun i => h.holds ((s.quad h.id.quad).slots.getD i .free)

/-- Operations of damo.add that the hart has issued still have messages on their way, whether or not st counts them: a pre-emption
leaves st at 0 (R84, R104, R308). -/
def State.oruPending (s : State) (h : Hart) : Bool := s.oruIn.any fun m => h.sent.elem m.op

/-- The slots that an ending program holds are free, and no release of them stands (R252). -/
def State.freeSlots (s : State) (h : Hart) : State :=
  if (s.quad h.id.quad).owner ≠ some (h.qcb, h.job, h.bundle) then s
  else s.onQuad h.id.quad fun q => { q with
    slots := q.slots.map fun x => if h.holds x then .free else x
    releasing := q.releasing.filter fun i => !h.holds (q.slots.getD i .free) }

/-- TASK_END (R104, R157, R186, R252, R298, R304): once its operations have completed the hart is idle. -/
def execTaskEnd (who : AgentId) (s : State) : Res :=
  match s.find who with
  | none => .fault .notDue
  | some h =>
    if !h.ending then .fault .notDue
    else if h.draining || s.oruPending h || s.slotsReleasing h then .next (s.due (.taskEnd who))
    else
      let t := ((s.flushPrefetches [who]).releaseHandles who).freeSlots h
      let t := (t.removeHarts fun k => decide (k.id = who)).dropDue [who]
      let t := if h.id.control then t else t.settleCore (globalCore who)
      let t := if h.failCode = 0 then t else t.fail h.qcb h.job h.failCode
      .next (match t.bundle h.qcb h.job h.bundle with
        | some b => if t.bundleDone b then t.due (.bundleEnded h.qcb h.job h.bundle) else t
        | none => t)

/-- POWER_ON (R93, R282): the boot microcode runs, and att.pkg restarts with the boot firmware. -/
def State.bootLoom (s : State) : State := { s with loom := { Loom.boot with refused := 0 } }.onPkg fun p => { p with loomCost := 120 }

end Sys2Proof.Machine
end

