-- ==== Sys2Proof/Machine/System.lean ====
section
/-! DEFINITION. System registers and system instructions: major 0x0E (R276 to R285, R296, R302, R309, R317 to R320), with
the effects of each write to a register as operations that setc and the hardware steps of the same names share. -/

namespace Sys2Proof.Machine

/-! Bytes by translation. -/

/-- The result of a load whose bytes do not translate or are not readable (R280); so it is, in the model, where they hold an
uncorrectable error (DESIGN CHOICE, log 19). -/
def unreadable : Nat := 5

/-- Stands for no result yet: what a load would read waits for an engine or a flip (R128, R285). -/
def notYet : Nat := 256

/-- n bytes at va through a context's translation, with read permission (R280), or a result. -/
def State.bytesIn (s : State) (c : BitVec 12) (va n : Nat) : Except Nat (List Byte) :=
  (granules va n).foldr (fun g acc => match s.walkIn c (g.1 % 2 ^ 64), acc with
    | .wait, .ok _ => .error notYet
    | .page pa rwx, .ok l =>
      if !Perm.load.allowed rwx then .error unreadable
      else if s.owned (pa / 64) || s.flipping pa then .error notYet
      else if s.poisoned pa then .error unreadable
      else .ok (s.mem.bytes ((List.range g.2).map (pa + ·)) ++ l)
    | .page _ _, .error r => .error r
    | .wait, .error r => .error r
    | _, _ => .error unreadable) (.ok [])

/-- The reads of bytes in a context noted, with those of their walks: accesses of the device from outside every region (R197). -/
def State.noteBytes (s : State) (c : BitVec 12) (va n : Nat) : State :=
  let s := s.noteRange c va n
  (if n = 0 then [] else granules va n).foldl (fun s g => match s.walkIn c (g.1 % 2 ^ 64) with
    | .page pa _ => s.engineRead (contextAccessor c (pa / 64)) (g.1 % 2 ^ 64) (pa / 64) (byteMask (pa % 64) g.2)
    | _ => s) s

/-- n bytes at va through the translation of the hart that moves, or what stops their read. -/
def State.bytesFor (s : State) (va n : Nat) : Except Stop (List Byte × State) :=
  (granules va n).foldl (fun acc g => match acc with
    | .error e => .error e
    | .ok (l, t) => match t.readChecked (g.1 % 2 ^ 64) g.2 with
      | .error e => .error e
      | .ok (x, u) => .ok (l ++ toBytes g.2 x, u)) (.ok ([], s))

/-- The doubleword at an offset of some bytes. -/
def dword (bs : List Byte) (off : Nat) : Nat := ofBytes ((bs.drop off).take 8)

/-! Contexts and tenants (R271, R272, R277). -/

/-- Translations of a context removed from every buffer of the package (R275). -/
def State.dropTranslations (s : State) (c : BitVec 12) (p : Nat → Bool) : State :=
  s.onPkg fun k => { k with tlb := k.tlb.filter fun t => decide (t.ctx ≠ c) || !p t.page }

/-- ctx.root written (R277): a valid root on a context that does not exist creates it. -/
def State.setRoot (s : State) (i v : Word) : State :=
  if 4096 ≤ i.toNat then s
  else
    let c := i.setWidth 12
    let root := v &&& 0x000FFFFFFFFFF001#64
    let t := (s.dropTranslations c fun _ => true).forgetTiles fun k => decide (k.ctx = c)
    if (s.ctx c).live then t.onCtx c fun x => { x with root := root }
    else if root.getLsbD 0 then t.onCtx c fun _ => { Ctx.none with live := true, root := root }
    else s

/-- The transfers of harts that leave are gone: of harts that run, or of saved ones (`away`). -/
def State.dropTransfers (s : State) (away : Bool) (hs : List Hart) : State :=
  let leaves := fun (x : XredCall) (m : Member) =>
    decide (m.away = away) && hs.any fun h => decide (h.xredCall = some x.id) && decide (h.id = m.who)
  let xs := s.xred.map fun x => { x with members := x.members.filter fun m => !leaves x m }
  { s with
    pushes := s.pushes.filter fun p => !hs.any fun h => decide (h.pushing = some p.id)
    xred := xs.filter fun x => !x.members.isEmpty }

/-- The bundles of a context stopped and saved where there is a slot (R91, R277). -/
def State.preemptContext (s : State) (c : BitVec 12) : State :=
  (s.loom.bundles.filter fun b => decide (b.ctx = c) && b.runs).foldl (fun s b => match (s.ctx c).freeSlot with
    | some slot =>
      let s := s.preempt b slot 0
      let s := s.onBundle b fun b => { b with stage := .saved slot }
      let eprio := match s.job b.qcb b.job with
        | some j => s.effective j
        | none => 0
      ((s.decision b.qcb 2 b.job b.index eprio ⟨b.quad, b.cores, b.split.toNat, 0⟩ s.reason).bumpQ b.qcb 4).decide_ (tenantOf c) 2
    | none =>
      let ids := (s.harts.filter b.has).map (·.id)
      let s := (ids.foldl (fun s id => s.abortRegion id 6) s).dropTransfers false (s.harts.filter b.has)
      let s := ((s.flushPrefetches ids).removeHarts b.has).dropDue ids
      if b.ctl then (s.dropQuadDue b.quad).onQuad b.quad fun _ => Quad.idle else s) s

/-- ctx.end written (R129, R271, R277): the context's bundles stop, its jobs fail, and what it holds is released. -/
def State.endCtx (s : State) (i : Word) : State :=
  let c := i.setWidth 12
  if 4096 ≤ i.toNat ∨ !(s.ctx c).live then s
  else
    let s := s.preemptContext c
    let gone := s.saved.filter fun h => decide (h.ctx = c)
    let s := s.dropTransfers true gone
    let bundles := s.loom.bundles.filter fun b => decide (b.ctx = c)
    let s := { s with
      saved := s.saved.filter fun h => decide (h.ctx ≠ c)
      loom := { s.loom with bundles := s.loom.bundles.filter fun b => decide (b.ctx ≠ c) }
      agenda := s.agenda.filter fun d => match d with
        | .preEmptionComplete q j k => !bundles.any fun b => decide (b.qcb = q) && decide (b.job = j) && decide (b.index = k)
        | .bundleEnded q j k => !bundles.any fun b => decide (b.qcb = q) && decide (b.job = j) && decide (b.index = k)
        | .tileFill k _ _ _ => decide (k ≠ c)
        | _ => true
      barriers := s.barriers.filter fun p => decide (p.1.ctx ≠ c)
      oruIn := s.oruIn.filter fun m => decide (m.ctx ≠ c)
      windows := s.windows.filter fun w => decide (w.ctx ≠ c) }
    let s := bundles.foldl (fun s b => b.cores.foldl (fun s k => s.settleCore (4 * b.quad + k)) s) s
    let js := s.loom.jobs.filter fun j => j.open && decide (s.qctx j.qcb = c)
    let s := js.foldl (fun s j => s.fail j.qcb j.id 5) s
    ((s.dropEnded.onPkg fun p => { p with
      tileCache := p.tileCache.filter fun l => decide (l.tile.ctx ≠ c)
      tlb := p.tlb.filter fun t => decide (t.ctx ≠ c) }).forgetTiles fun t => decide (t.ctx = c)).onCtx c
      fun _ => Ctx.none

/-- A tenant descriptor is valid (R272). -/
def tenantValid (bs : List Byte) : Bool :=
  let w := dword bs
  decide (bits (w 0x10) 63 16 = 0) && decide (bits (w 0x18) 15 0 ≠ 0) && decide (bits (w 0x18) 63 32 = 0) &&
    decide (bits (w 0x20) 7 0 = 0) && decide (w 0x30 ≤ 4096)

/-- A valid descriptor loaded for a tenant and measured (R272, R282). -/
def State.setTenant (s : State) (t : Nat) (bs : List Byte) : State :=
  let w := fun k => BitVec.ofNat 64 (dword bs k)
  let s := s.onTenant t fun x => { x with
    loaded := true
    quads := BitVec.ofNat 144 (ofBytes (bs.take 18))
    ways := (w 0x18).setWidth 16
    pod := BitVec.ofNat 16 ((w 0x18).toNat / 2 ^ 16)
    fmask := w 0x20
    kquota := w 0x28
    iquota := w 0x30
    key := w 0x38 }
  s.onPkg fun p => { p with attPkg := attExtend p.attPkg bs }

/-- tenant.desc written (R272). -/
def State.loadTenant (s : State) (i v : Word) (k : State → Res) : Res :=
  if 16 ≤ i.toNat then k s
  else match s.bytesFor v.toNat 64 with
    | .error e => s.stopWith (rangePages [(v.toNat, 64)]) 0 e
    | .ok (bs, t) => if tenantValid bs then k (t.setTenant i.toNat bs) else t.denied

/-- A grant's value: bit 12 valid, bits [11:0] the context (R277). -/
def grantWord (v : Word) : BitVec 13 := if v.getLsbD 12 then v.setWidth 13 else 0

/-- shuttle.grant written (R115, R277): the channel starts at 0. -/
def State.grantShuttle (s : State) (i v : Word) : State :=
  if 32 ≤ i.toNat then s
  else s.onChannel i.toNat fun _ => ⟨if v.getLsbD 12 then some (v.setWidth 12) else none, 0, [], []⟩

/-- coll.grant written (R277). -/
def State.grantGroup (s : State) (i v : Word) : State :=
  if 1024 ≤ i.toNat then s
  else s.onPkg fun p => { p with coll := Sparse.set (fun _ => 0) p.coll i.toNat (grantWord v) }

/-- uec.bind written (R277, R284). -/
def State.bindEndpoint (s : State) (i v : Word) : State :=
  if 4096 ≤ i.toNat then s
  else s.onPkg fun p => { p with uec := Sparse.set (fun _ => 0) p.uec i.toNat (grantWord v) }

/-! Loading (R280, R281, R288, R296). -/

/-- An image entry of a fat code object (R280). -/
structure ObjectEntry where
  index : Nat
  advice : Bool
  rank : Nat
  rev : Nat
  req : Nat
  off : Nat
  size : Nat
  textOff : Nat
  textSize : Nat
  sig : Nat
  chip : Nat
  valid : Bool

/-- The entry in 64 bytes (R280). -/
def ObjectEntry.ofBytes (i : Nat) (bs : List Byte) : ObjectEntry :=
  let w := dword bs
  { index := i
    advice := (w 0).testBit 0
    rank := bits (w 0) 15 8
    rev := bits (w 0) 23 16
    req := w 8
    off := w 0x10
    size := bits (w 0x18) 31 0
    textOff := bits (w 0x20) 31 0
    textSize := bits (w 0x20) 63 32
    sig := w 0x28
    chip := bits (w 0x30) 47 0
    valid := decide (bits (w 0) 63 24 = 0) && decide (bits (w 8) 7 0 = 0) &&
      decide (w 0x38 = 0) && ((w 0).testBit 0 || decide (bits (w 0x20) 31 0 + bits (w 0x20) 63 32 ≤ bits (w 0x18) 31 0)) }

/-- cap.isa (R281). -/
def capIsa : Nat := 0x3F01

/-- cap.feat.mask of a context's tenant (R50). -/
def State.featMask (s : State) (c : BitVec 12) : Word :=
  let t := s.tenant (tenantOf c)
  if t.loaded then t.fmask else 0

/-- The entry is eligible for a context (R280). -/
def State.eligible (s : State) (c : BitVec 12) (e : ObjectEntry) : Bool :=
  decide (e.rev ≤ capIsa % 256) && decide (e.req &&& capIsa = e.req) && decide (e.req &&& (s.featMask c).toNat = 0) &&
    (!e.advice || decide (e.chip = 0) || decide (e.chip = s.pkg.serial.toNat))

/-- The winner among some entries: highest rank, then higher rev, then lower index (R280). -/
def winner : List ObjectEntry → Option ObjectEntry
  | [] => none
  | e :: rest => match winner rest with
    | none => some e
    | some f => if e.rank < f.rank ∨ (e.rank = f.rank ∧ e.rev < f.rev) then some f else some e

/-- An advice image read from its bytes (R288), with its gen; none when it is invalid. -/
def adviceOf (bs : List Byte) : Option (AdviceImage × Nat) :=
  let count := bits (dword bs 0) 31 0
  let code := bits (dword bs 0) 63 32
  let size := bits (dword bs 8) 31 0
  let entry := fun (i : Nat) => dword bs (0x10 + 8 * i)
  let index := (List.range (min count 4096)).map fun i => (BitVec.ofNat 12 (entry i), bits (entry i) 63 32)
  let ordered := (index.zip (index.drop 1)).all fun p => decide (p.1.1 < p.2.1)
  let fields := (List.range (min count 4096)).all fun i =>
    decide (bits (entry i) 31 12 = 0) && decide (bits (entry i) 63 32 % 4 = 0) && decide (bits (entry i) 63 32 < size)
  if count ≤ 4096 ∧ code % 4 = 0 ∧ size % 4 = 0 ∧ 0x10 + 8 * count ≤ bs.length ∧ code + size ≤ bs.length ∧ ordered ∧ fields then
    some (⟨(bs.drop code).take size, index⟩, bits (dword bs 8) 63 32)
  else none

/-- What reading the header and the entries of an object gives: a result code, or its entries (R280). -/
def State.readObject (s : State) (c : BitVec 12) (va : Nat) : Except Nat (List ObjectEntry) :=
  if !(s.ctx c).live then .error 4
  else match s.bytesIn c va 64 with
    | .error r => .error r
    | .ok hd =>
      let n := bits (dword hd 0) 39 32
      if bits (dword hd 0) 31 0 ≠ 0x3146584A ∨ n = 0 ∨ 32 < n ∨ bits (dword hd 0) 63 40 ≠ 0 ∨ !((hd.drop 8).all fun b => decide (b = 0)) then
        .error 1
      else
        match s.bytesIn c (va + 0x40) (64 * n) with
        | .error r => .error r
        | .ok bs =>
          let es := (List.range n).map fun i => ObjectEntry.ofBytes i ((bs.drop (64 * i)).take 64)
          if es.all (·.valid) then .ok es else .error 1

/-- The signature of a semantic image is as the tenant's key demands (R280): a result where it is not, 5 where its bytes, which belong to
the object, cannot be read. The key is read as the loading context, which gave its address, reads it. -/
def State.signed (s : State) (c : BitVec 12) (va : Nat) (e : ObjectEntry) (image : List Byte) : Except Nat Unit :=
  let key := (s.tenant (tenantOf c)).key.toNat
  if key = 0 then .ok ()
  else if e.sig = 0 then .error 3
  else match s.bytesIn c (va + e.sig) 512, s.bytesIn s.hart.ctx key 512 with
    | .ok g, .ok k => if pssVerify (ofBytesBig k) image g then .ok () else .error 3
    | .ok _, .error r => .error (if r = notYet then notYet else 3)
    | .error r, k => .error (if k matches .error 256 then notYet else r)

/-- The advice side of a load: a result code, or the image that is chosen, if any, with its entry, bytes and gen. -/
def State.chooseAdvice (s : State) (c : BitVec 12) (va : Nat) (es : List ObjectEntry) :
    Except Nat (Option (ObjectEntry × List Byte × AdviceImage × Nat)) :=
  match winner (es.filter fun e => e.advice && s.eligible c e) with
  | none => .ok none
  | some e => match s.bytesIn c (va + e.off) e.size with
    | .error r => .error r
    | .ok bs => match adviceOf bs with
      | none => .error 1
      | some (a, g) => .ok (some (e, bs, a, g))

/-- What a load reads of an object, as far as it comes: the header, the entries, and the images of `kinds` that it chooses. -/
def State.noteObject (s : State) (c : BitVec 12) (va : Nat) (kinds : List Bool) : State :=
  let t := s.noteBytes c va 64
  match s.readObject c va with
  | .error _ => t
  | .ok es =>
    let t := t.noteBytes c (va + 0x40) (64 * es.length)
    kinds.foldl (fun t k => match winner (es.filter fun e => decide (e.advice = k) && s.eligible c e) with
      | some e => t.noteBytes c (va + e.off) e.size
      | none => t) t

/-- What the check of a semantic image's signature reads (R280). -/
def State.noteSignature (s : State) (c : BitVec 12) (va : Nat) : State :=
  let key := (s.tenant (tenantOf c)).key.toNat
  match s.readObject c va with
  | .error _ => s
  | .ok es => match winner (es.filter fun e => !e.advice && s.eligible c e) with
    | none => s
    | some e => if key = 0 ∨ e.sig = 0 then s else (s.noteBytes c (va + e.sig) 512).noteBytes s.hart.ctx key 512

/-- code.status after a load that ended with a nonzero result: no image was chosen. -/
def failedStatus (result : Nat) : Word := BitVec.ofNat 64 (result + 0xFF0000)

/-- Bit 24 of code.status: the image's gen is nonzero and differs from cap.gen (R288). -/
def State.genBit (s : State) (g : Nat) : Nat := if g ≠ 0 ∧ g ≠ s.pkg.gen.toNat then 2 ^ 24 else 0

/-- The physical bytes of a text range, page by page (R280). -/
def State.textPages (s : State) (c : BitVec 12) (lo size : Nat) : List (Nat × Nat) :=
  (pagesOf lo size).filterMap fun p => match s.walkIn c p with
    | .page pa _ => some (p / 4096, pa / 4096)
    | _ => none

/-- A context holds a running task. -/
def State.running (s : State) (c : BitVec 12) : Bool := s.harts.any fun h => h.active && decide (h.ctx = c)

/-- The result of a load (R280): the semantic image with its entry and bytes, and what is chosen of advice. -/
def State.codeResult (s : State) (c : BitVec 12) (va : Nat) :
    Except Nat (ObjectEntry × List Byte × Option (ObjectEntry × List Byte × AdviceImage × Nat)) :=
  match s.readObject c va with
  | .error r => .error r
  | .ok es =>
    if s.running c then .error 6
    else match winner (es.filter fun e => !e.advice && s.eligible c e) with
      | none => .error 2
      | some e => match s.bytesIn c (va + e.off) e.size, s.chooseAdvice c va es with
        | .error r, _ => .error r
        | _, .error r => .error r
        | .ok image, .ok a => match s.signed c va e image with
          | .error r => .error r
          | .ok _ => .ok (e, image, a)

/-- code.load written (R280, R282, R296): none while it must wait. -/
def State.loadCode (s : State) (i v : Word) : Option State :=
  let c := i.setWidth 12
  if 4096 ≤ i.toNat then some s
  else
    let t := (s.noteObject c v.toNat [false, true]).noteSignature c v.toNat
    match s.codeResult c v.toNat with
    | .error r => if r = notYet then none else some (t.onCtx c fun x => { x with codeStatus := failedStatus r })
    | .ok (e, image, a) =>
      let lo := (v.toNat + e.off + e.textOff) % 2 ^ 64
      some ((t.noteRange c lo e.textSize).onCtx c fun x => { x with
        image := some ⟨BitVec.ofNat 64 lo, e.textSize, s.textPages c lo e.textSize⟩
        advice := a.map fun p => p.2.2.1
        attCtx := attExtend x.attCtx image
        attAdv := match a with
          | some p => attExtend 0 p.2.1
          | none => 0
        codeStatus := BitVec.ofNat 64 (e.index * 256 + match a with
          | some p => p.1.index * 2 ^ 16 + s.genBit p.2.2.2
          | none => 0xFF0000) })

/-- adv.load written (R296): only the advice image, code.status [7:0] and [23:16], and att.adv change. None while it must wait. -/
def State.loadAdvice (s : State) (i v : Word) : Option State :=
  let c := i.setWidth 12
  let status := fun (x : Ctx) (n : Nat) => (x.codeStatus &&& 0xFF00#64) ||| BitVec.ofNat 64 n
  let t := s.noteObject c v.toNat [true]
  let failed := fun (r : Nat) =>
    if r = notYet then none else some (t.onCtx c fun x => { x with codeStatus := status x (r + 0xFF0000) })
  match s.readObject c v.toNat with
  | .error r => failed r
  | .ok es => match s.chooseAdvice c v.toNat es with
    | .error r => failed r
    | .ok none => failed 2
    | .ok (some (e, bs, a, g)) => some (t.onCtx c fun x => { x with
        advice := some a
        attAdv := attExtend 0 bs
        codeStatus := status x (e.index * 2 ^ 16 + s.genBit g) })

/-- loom.reload written (R93): the image is measured and the switch to it is due. -/
def State.reloadLoom (s : State) (v : Word) (k : State → Res) : Res :=
  match s.bytesFor v.toNat 24 with
  | .error e => s.stopWith (rangePages [(v.toNat, 24)]) 0 e
  | .ok (hd, t) =>
    let size := bits (dword hd 0) 31 0
    if 2 ^ 18 < size then k t
    else match t.bytesFor v.toNat size with
      | .error e => s.stopWith (rangePages [(v.toNat, size)]) 0 e
      | .ok (image, t) =>
        let t := t.onPkg fun p => { p with attPkg := attExtend p.attPkg image }
        let t := { t with loom := { t.loom with
          reload := some ⟨BitVec.ofNat 16 (dword hd 0 / 2 ^ 32), BitVec.ofNat 32 (dword hd 8), BitVec.ofNat 64 (dword hd 16),
            image⟩ } }
        k (if t.agenda.elem .microcodeSwitch then t else t.due .microcodeSwitch)

/-! Bias (R285). -/

/-- The bias that a region holds once every flip under way is complete: true for host. -/
def State.finalBias (s : State) (r : Nat) : Bool :=
  match (s.pkg.flips.filter fun f => decide (f.1 = r)).getLast? with
  | some f => f.2
  | none => s.pkg.hostBias.elem r

/-- The bias regions: addresses have 52 bits (R43, R277). -/
def biasRegions : Nat := 2 ^ 31

/-- A flip of a region started; none where the region already comes to hold that bias, or where there is no such region. -/
def State.startFlip (s : State) (i v : Word) : State :=
  let r := i.toNat
  if biasRegions ≤ r || s.finalBias r = v.getLsbD 0 then s
  else (s.onPkg fun p => { p with flips := p.flips ++ [(r, v.getLsbD 0)] }).due (.biasFlipComplete r)

/-- setc of bias.flip (R276, R285): it starts its flip once, and the hart waits until every flip of the region is complete. -/
def State.flip (s : State) (i v : Word) : Res :=
  let t := if s.hart.flipping then s else s.startFlip i v
  if t.pkg.flips.any fun f => decide (f.1 = i.toNat) then (t.on fun h => { h with flipping := true }).waitFor .biasFlip
  else (t.on fun h => { h with flipping := false }).done

/-- BIAS_FLIP_COMPLETE (R285): once no engine owns a line of the region, its cached copies leave and its bias changes. While the CXL
port is dead, a region that would become host bias is lost to it (R316). -/
def execBiasFlipComplete (region : Nat) (s : State) : Res :=
  match s.pkg.flips.find? fun f => decide (f.1 = region) with
  | none => .fault .notDue
  | some (_, host) =>
    let held := (s.harts ++ s.saved).any fun h =>
      (h.copy.toList.any fun c => match c with
        | some c => c.lines.any fun l => decide (l / 2 ^ 15 = region)
        | none => false) || h.accStores.any fun p => p.lines.any fun l => decide (l / 2 ^ 15 = region)
    let open_ := s.windows.any fun w => w.contribs.any fun c => decide (c.addr / 2 ^ 21 = region)
    if held || open_ then .next (s.due (.biasFlipComplete region))
    else
      let without := fun (l : List Nat) => l.filter (· ≠ region)
      let gone := host && s.pkg.dead.elem .cxlPort
      .next ((s.flushLines fun l => decide (l / 2 ^ 15 = region)).onPkg fun p => { p with
        flips := p.flips.erase (region, host)
        hostBias := if host && !gone then region :: without p.hostBias else without p.hostBias
        lostHost := if gone then region :: without p.lostHost else without p.lostHost })

/-! Registers of the hart and its context. -/

/-- ctx.lost written (R277). -/
def State.clearLost (s : State) (v : Word) : State := s.onCtx s.hart.ctx fun x => { x with lost := x.lost &&& ~~~v }

/-- ctx.save.use written (R309): index 4*context + w. -/
def State.clearSaveUse (s : State) (i v : Word) : State :=
  if 16384 ≤ i.toNat then s
  else s.onCtx (BitVec.ofNat 12 (i.toNat / 4)) fun x =>
    { x with saveUse := x.saveUse.setIfInBounds (i.toNat % 4) (x.saveUse.getD (i.toNat % 4) 0 &&& ~~~v) }

/-- stall.evict written (R320). -/
def State.clearStalls (s : State) : State := s.on fun h => { h with stalls := [] }

/-- A register with no behaviour of its own written (R276, R302, R305, R309, R317, R319). -/
def State.setPlain (s : State) (num : Nat) (i v : Word) : State :=
  let c := s.hart.ctx
  match num with
  | 0x7A0 => s.on fun h => { h with trap := { h.trap with vec := v &&& 0x0000FFFFFFFFFFFE#64 } }
  | 0x7A1 => s.on fun h => { h with trap := { h.trap with pc := v } }
  | 0x7A2 => s.on fun h => { h with trap := { h.trap with elem := v &&& 0x7FF#64 } }
  | 0x7A7 => s.on fun h => { h with trap := { h.trap with tmp0 := v } }
  | 0x7A8 => s.on fun h => { h with trap := { h.trap with tmp1 := v } }
  | 0x7A9 => if 4 ≤ i.toNat then s else s.on fun h => { h with bp := h.bp.setIfInBounds i.toNat (v &&& 0x07FFFFFFFFFFFFFF#64) }
  | 0x7AA => if 4096 ≤ i.toNat then s else s.onCtx (i.setWidth 12) fun x => { x with save := v &&& 0x1FFFFFFFFF800000#64 }
  | 0x7B0 => s.onCtx c fun x => { x with
      trcBase := v &&& 0x0000FFFFFFFFFFE0#64
      trcResync := x.trcResync || decide (x.trcBase = 0) }
  | 0x7B1 => s.onCtx c fun x => { x with trcCfg := v &&& 0xFFFF3FFF#64 }
  | 0x7B3 => s.onCtx c fun x => { x with trcRd := v }
  | 0x7B4 => if 4 ≤ i.toNat then s else
      s.onCtx c fun x => { x with slogCfg := x.slogCfg.setIfInBounds i.toNat (v &&& 0x003FFFFFFFFFFFC0#64) }
  | 0x7B5 => if 4 ≤ i.toNat then s else
      s.onCtx c fun x => { x with slogEv := x.slogEv.setIfInBounds i.toNat (v &&& 0x7F#64) }
  | _ => s

/-- Registers that only a privileged context reads or writes (R277, R309, R93). -/
def privilegedRegister (num : Nat) : Bool :=
  num = 0x738 || (decide (0x780 ≤ num) && decide (num ≤ 0x786)) || num = 0x788 || num = 0x7AA

/-- The write of setc is refused to the hart's context (R277, R296, R309). -/
def State.writeDenied (s : State) (num : Nat) (i : Word) : Bool :=
  let c := s.hart.ctx
  if privileged c then false
  else privilegedRegister num || (decide (num = 0x798) && decide (i.toNat ≠ c.toNat)) ||
    (decide (num = 0x7AB) && decide (i.toNat / 4 ≠ c.toNat))

/-- setc (R276): the effect follows every earlier access of the hart. -/
def execSetc (num : BitVec 11) (a j : BitVec 5) (s : State) : Res :=
  s.outsideRegion <|
    let v := s.rs a
    let i := s.rs j
    if s.writeDenied num.toNat i then s.denied
    else if s.transfersPending then s.waitFor .handle
    else match num.toNat with
      | 0x713 => (s.clearLost v).done
      | 0x738 => s.reloadLoom v State.done
      | 0x780 => (s.setRoot i v).done
      | 0x781 => .next ((s.skip 4).endCtx i)
      | 0x782 => s.loadTenant i v State.done
      | 0x783 => (s.grantShuttle i v).done
      | 0x784 => (s.grantGroup i v).done
      | 0x785 => (s.bindEndpoint i v).done
      | 0x786 => match s.loadCode i v with
        | some t => t.done
        | none => s.waitFor .engineLine
      | 0x788 => s.flip i v
      | 0x798 => if 4096 ≤ i.toNat then s.denied else match s.loadAdvice i v with
        | some t => t.done
        | none => s.waitFor .engineLine
      | 0x7AB => (s.clearSaveUse i v).done
      | 0x7BC => s.clearStalls.done
      | n => (s.setPlain n i v).done

/-! Reading. -/

/-- The locks of a context in a quad (R178, R181). -/
def Ctx.locksIn (x : Ctx) (quad : Nat) : Nat := x.locks.countP fun l => decide (l.1 = quad)

/-- cap.diering (R50). -/
def dieRing : Nat :=
  (List.range 4).foldl (fun a i => (List.range 4).foldl (fun a j =>
    let d := max i j - min i j
    a + min d (4 - d) * 2 ^ (8 * i + 2 * j)) a) 0

/-- A register of another context, readable within the reader's tenant (R277). -/
def State.tenantRead (s : State) (c : Nat) (f : Ctx → Nat) : Nat :=
  if 4096 ≤ c then 0
  else if privileged s.hart.ctx || decide (tenantOf (BitVec.ofNat 12 c) = tenantOf s.hart.ctx) then f (s.ctx (BitVec.ofNat 12 c))
  else 0

/-- Word w of an attestation register (R282). -/
def attWord (r : BitVec 512) (w : Nat) : Nat := r.toNat / 2 ^ (64 * w) % 2 ^ 64

/-- ObjectEntry i of the stall registers (R320). -/
def Hart.stall (h : Hart) (i : Nat) : Stall := h.stalls.getD i ⟨0, 0, 0, 0⟩

/-- The value of a system register at an index (R50, R90, R178, R201, R204, R277, R295, R302, R305, R309, R313, R317, R319,
R320); an index out of range reads zero. -/
def State.readReg (s : State) (num i : Nat) : Nat :=
  let h := s.hart
  let c := h.ctx
  let x := s.ctx c
  let cnt := fun (n : Nat) => if i < n then (s.counter c num i).toNat else 0
  match num with
  | 0x700 => 36
  | 0x701 => if i < 144 then (s.table num i).toNat else 0
  | 0x702 => if i < 576 then (s.table num i).toNat else 0
  | 0x703 => if i < 512 then (s.table num i).toNat else 0
  | 0x704 => if i < 576 then (s.table num i).toNat else 0
  | 0x705 => dieRing
  | 0x706 => s.pkg.loomCost.toNat
  | 0x707 => capIsa
  | 0x708 => (s.featMask c).toNat
  | 0x709 => s.pkg.gen.toNat
  | 0x70A => s.pkg.serial.toNat
  | 0x70B => if i < 144 then (s.table num i).toNat else 0
  | 0x710 => h.idWord
  | 0x711 => c.toNat
  | 0x712 => x.gen.toNat
  | 0x713 => x.lost.toNat
  | 0x720 | 0x721 | 0x722 | 0x723 | 0x724 | 0x725 | 0x726 | 0x727 | 0x728 =>
    ((if privileged c then s.pkg.dec else (s.tenant (tenantOf c)).dec).getD (num - 0x720) 0).toNat
  | 0x730 => (List.range 4).foldl (fun a d => a + (s.loom.forecast.getD d 0).toNat * 2 ^ (16 * d)) 0
  | 0x740 | 0x741 | 0x742 => (s.counter c num 0).toNat
  | 0x743 => x.keptBytes
  | 0x744 => (s.tenant (tenantOf c)).kquota.toNat
  | 0x745 => if i < 144 then x.locksIn i else 0
  | 0x746 => (s.tenant (tenantOf c)).iquota.toNat
  | 0x747 => cnt 512
  | 0x750 | 0x752 | 0x755 | 0x757 | 0x758 | 0x759 => (s.counter c num 0).toNat
  | 0x751 => cnt 256
  | 0x753 => s.arb.rebase.toNat
  | 0x754 => s.arb.high
  | 0x760 => if i < 8 then attWord s.pkg.attPkg i else 0
  | 0x761 => s.tenantRead (i / 8) fun y => attWord y.attCtx (i % 8)
  | 0x762 => s.tenantRead (i / 8) fun y => attWord y.attAdv (i % 8)
  | 0x787 => s.tenantRead i fun y => y.codeStatus.toNat
  | 0x789 => if biasRegions ≤ i then 0 else (if s.pkg.hostBias.elem i then 1 else 0) + (if s.pkg.flips.any fun f => decide (f.1 = i) then 2 else 0)
  | 0x790 | 0x791 | 0x792 | 0x793 | 0x794 | 0x795 => (s.counter c num 0).toNat
  | 0x7A0 => h.trap.vec.toNat
  | 0x7A1 => h.trap.pc.toNat
  | 0x7A2 => h.trap.elem.toNat
  | 0x7A3 => h.trap.cause.toNat
  | 0x7A4 => h.trap.addr.toNat
  | 0x7A5 => h.trap.word.toNat
  | 0x7A6 => h.trap.fpc.toNat
  | 0x7A7 => h.trap.tmp0.toNat
  | 0x7A8 => h.trap.tmp1.toNat
  | 0x7A9 => if i < 4 then (h.bp.getD i 0).toNat else 0
  | 0x7AA => if i < 4096 then (s.ctx (BitVec.ofNat 12 i)).save.toNat else 0
  | 0x7AB =>
    if 16384 ≤ i ∨ (i / 4 ≠ c.toNat ∧ !privileged c) then 0
    else
      let y := s.ctx (BitVec.ofNat 12 (i / 4))
      (y.saveUse.getD (i % 4) 0).toNat % 2 ^ min 64 (y.slotCount - 64 * (i % 4))
  | 0x7AC | 0x7AD | 0x7AE => (s.counter c num 0).toNat
  | 0x7AF => s.pkg.health.toNat
  | 0x7B0 => x.trcBase.toNat
  | 0x7B1 => x.trcCfg.toNat
  | 0x7B2 => x.trcWr.toNat
  | 0x7B3 => x.trcRd.toNat
  | 0x7B4 => if i < 4 then (x.slogCfg.getD i 0).toNat else 0
  | 0x7B5 => if i < 4 then (x.slogEv.getD i 0).toNat else 0
  | 0x7B8 => if i < 64 then (h.stall i).prod.toNat else 0
  | 0x7B9 => if i < 64 then (h.stall i).cons.toNat else 0
  | 0x7BA => if i < 64 then (h.stall i).cyc.toNat else 0
  | 0x7BB => if i < 64 then (h.stall i).lag.toNat else 0
  | 0x7BC => h.stallEvict.toNat
  | _ => 0

/-- getc (R276). -/
def execGetc (num : BitVec 11) (a d : BitVec 5) (s : State) : Res :=
  s.outsideRegion <|
    if privilegedRegister num.toNat && !privileged s.hart.ctx then s.denied
    else s.give d (BitVec.ofNat 64 (s.readReg num.toNat (s.rs a).toNat))

/-! The other system instructions (R278). -/

/-- trap n (R278). -/
def execTrap (n : BitVec 11) (s : State) : Res := s.outsideRegion (s.takeTrap 9 0 n.toNat 0 none)

/-- eret (R278, R303). -/
def execEret (s : State) : Res := s.outsideRegion s.returnFromTrap

/-- The page of 4 KiB may lie in the page that holds an address: pages go up to 1 GiB (R274). -/
def mayShare (va page : Nat) : Bool := decide (page / 2 ^ 18 = va % 2 ^ 48 / 2 ^ 30)

/-- tlbinv (R275, R278): with bit 12 of the selector it names every page of the context, without it the page that holds s[sa]. A
buffer may give up a translation at any time, and those beside the named page, in its 1 GiB, go too (DESIGN CHOICE, log 2). -/
def execTlbinv (a ss : BitVec 5) (s : State) : Res :=
  s.outsideRegion <|
    if !privileged s.hart.ctx then s.denied
    else if s.transfersPending then s.waitFor .handle
    else
      let c := (s.rs ss).setWidth 12
      let all := (s.rs ss).getLsbD 12
      let t := s.dropTranslations c fun page => all || mayShare (s.rs a).toNat page
      (t.onCtx c fun x => if x.live then { x with gen := x.gen + 1 } else x).done

/-- Accesses of a context translated under an older generation are still to come (R132, R275). -/
def State.olderPending (s : State) (c : BitVec 12) : Bool :=
  let old := fun (g : Word) => decide (g ≠ (s.ctx c).gen)
  ((s.harts ++ s.saved).any fun h => decide (h.ctx = c) && (h.copy.toList.any (fun k => match k with
    | some k => old k.gen && !(decide (k.kind = 0) && decide (k.n.toNat ≤ k.got))
    | none => false) || h.accStores.any (fun a => old a.gen) || match h.region.bind (·.gen) with
    | some g => old g
    | none => false)) || s.oruIn.any fun m => decide (m.ctx = c) && m.token.isNone && old m.gen

/-- tlbsync (R132, R275, R278). -/
def execTlbsync (a : BitVec 5) (s : State) : Res :=
  s.outsideRegion <|
    if !privileged s.hart.ctx then s.denied
    else if s.olderPending ((s.rs a).setWidth 12) then s.waitFor .tlbsync
    else s.done

/-- The virtual lines of 128 bytes that ilock and iunlock name. -/
def lockLines (a : Word) (n : BitVec 10) : List Nat :=
  (List.range n.toNat).map fun k => ((a.toNat / 128 + k) * 128 % 2 ^ 64) / 128

/-- The lines of all contexts locked in a quad. -/
def State.quadLocks (s : State) (quad : Nat) : Nat := s.ctxs.foldl (fun n p => n + p.2.locksIn quad) 0

/-- Lines locked one by one (R181): those of pages that do not translate and those already locked are passed over, and
the first that would pass a limit stops. -/
def State.lockEach (s : State) : List Nat → State × Nat
  | [] => (s, 0)
  | l :: rest =>
    let c := s.hart.ctx
    let q := s.hart.id.quad
    let x := s.ctx c
    let maps := match s.walkFor s.hart (128 * l) with
      | .page _ _ => true
      | _ => false
    if !maps || x.locks.elem (q, l) then s.lockEach rest
    else if (s.tenant (tenantOf c)).iquota.toNat ≤ x.locksIn q ∨ 4096 ≤ s.quadLocks q then (s, 0)
    else
      let r := State.lockEach (s.onCtx c fun x => { x with locks := x.locks ++ [(q, l)] }) rest
      (r.1, r.2 + 1)

/-- The lines that the hart's context has locked come into its quad's cache (R180, R181), those of pages that translate. -/
def State.fillLocked (s : State) : State :=
  (s.ctx s.hart.ctx).locks.foldl (fun s l =>
    if l.1 ≠ s.hart.id.quad then s
    else match s.walkFor s.hart (128 * l.2) with
      | .page pa _ => s.fillCode (128 * l.2) (pa / 128)
      | _ => s) s

/-- ilock (R181, R278): the lines that it locks are in the quad's cache. -/
def execIlock (n : BitVec 10) (a d : BitVec 5) (s : State) : Res :=
  s.outsideRegion <|
    let lines := lockLines (s.rs a) n
    if lines.any fun l => decide (s.walkFor s.hart (128 * l) = .wait) then s.waitFor .engineLine
    else
      let (t, k) := (s.noteWalks (lines.map (128 * ·))).lockEach lines
      t.fillLocked.give d (BitVec.ofNat 64 k)

/-- iunlock (R181, R278). -/
def execIunlock (n : BitVec 10) (a d : BitVec 5) (s : State) : Res :=
  s.outsideRegion <|
    let c := s.hart.ctx
    let gone := (lockLines (s.rs a) n).map fun l => (s.hart.id.quad, l)
    let k := (s.ctx c).locks.countP fun l => gone.elem l
    (s.onCtx c fun x => { x with locks := x.locks.filter fun l => !gone.elem l }).give d (BitVec.ofNat 64 k)

/-- The caches of code after a FENCE.I of the hart (R278): its line buffer and its core's L1I are empty, its quad's cache keeps only
lines that are locked, and those of its context are fetched again. -/
def State.invalidateCode (s : State) : State :=
  let h := s.hart
  let mine := fun (l : Nat) => (s.ctx h.ctx).locks.any fun k => decide (k.1 = h.id.quad) && match s.walkFor h (128 * k.2) with
    | .page pa _ => decide (pa / 128 = l)
    | _ => false
  let stays := fun (c : Nat × Nat) => decide (c.1 ≠ h.id.quad) || (s.codeLocked c.1 c.2 && !mine c.2)
  let gone := (s.pkg.quadCode.filter fun c => !stays c).map (·.2)
  let s := gone.foldl (fun s l => s.dropCode h.id.quad l) s
  let s := if h.id.control then s else s.onPkg fun p => { p with
    coreCode := p.coreCode.filter fun c => decide (c.1 ≠ globalCore h.id) }
  (s.on fun h => { h with lineBuffer := [] }).fillLocked

/-- fence.i (R75, R278): the hart's later fetches see every change of code that has been performed. -/
def execFenceI (s : State) : Res :=
  s.outsideRegion <|
    if s.transfersPending then s.waitFor .handle
    else (s.invalidateCode.on fun h => { h with fenced := s.pkg.oldCode.length }).done

/-! The hardware steps of the writes (R272, R277, R280, R285, R296, R309, R320): the hart that moves is the one whose setc
they belong to. -/

/-- CTX_ROOT (R277). -/
def execCtxRoot (ctx value : Word) (s : State) : Res := .next (s.setRoot ctx value)

/-- CTX_END (R277). -/
def execCtxEnd (ctx : Word) (s : State) : Res := .next (s.endCtx ctx)

/-- TENANT_DESC (R272). -/
def execTenantDesc (tenant addr : Word) (s : State) : Res := s.loadTenant tenant addr .next

/-- SHUTTLE_GRANT (R277). -/
def execShuttleGrant (idx value : Word) (s : State) : Res := .next (s.grantShuttle idx value)

/-- COLL_GRANT (R277). -/
def execCollGrant (group value : Word) (s : State) : Res := .next (s.grantGroup group value)

/-- UEC_BIND (R277). -/
def execUecBind (ep value : Word) (s : State) : Res := .next (s.bindEndpoint ep value)

/-- CODE_LOAD (R280). -/
def execCodeLoad (ctx addr : Word) (s : State) : Res :=
  match s.loadCode ctx addr with
  | some t => .next t
  | none => .fault .notDue

/-- ADV_LOAD (R296). -/
def execAdvLoad (ctx addr : Word) (s : State) : Res :=
  match if 4096 ≤ ctx.toNat then none else s.loadAdvice ctx addr with
  | some t => .next t
  | none => .fault .notDue

/-- LOOM_RELOAD (R93). -/
def execLoomReload (addr : Word) (s : State) : Res := s.reloadLoom addr .next

/-- BIAS_FLIP (R285). -/
def execBiasFlip (region value : Word) (s : State) : Res := .next (s.startFlip region value)

/-- CTX_LOST_CLEAR (R277). -/
def execCtxLostClear (value : Word) (s : State) : Res := .next (s.clearLost value)

/-- CTX_SAVE_USE_CLEAR (R309). -/
def execCtxSaveUseClear (idx value : Word) (s : State) : Res := .next (s.clearSaveUse idx value)

/-- STALL_EVICT_CLEAR (R320). -/
def execStallEvictClear (s : State) : Res := .next s.clearStalls

/-- SYSREG_WRITE (R276). -/
def execSysregWrite (num : BitVec 11) (idx value : Word) (s : State) : Res := .next (s.setPlain num.toNat idx value)

end Sys2Proof.Machine
end

