-- ==== Sys2Proof/Machine/Events.lean ====
section
/-! DEFINITION. What no instruction stands for by its own word: hints and illegal words (R70 to R74), command messages
and SPDM (R283, R284), the host on the CXL port (R133), clocks and power (R2, R55, R94, R167), the ends of waits
(R95, R96, R112, R115, R118, R135, R142, R166), errors, repair and agent death (R188, R189, R312 to R316), and trace
samples (R317, R320). -/

namespace Sys2Proof.Machine

/-- hint n (R74). -/
def execHint (_ : BitVec 24) (s : State) : Res := s.done

/-- A word that is no instruction of its agent (R70, R72). -/
def execIllegalInstruction (sub : BitVec 3) (s : State) : Res := s.trapAt 1 sub.toNat

/-! Command messages (R284). -/

/-- The context that an endpoint is bound to (R277, R284). -/
def State.endpoint (s : State) (ep : BitVec 12) : Option (BitVec 12) :=
  let w := Sparse.get (fun _ => 0) s.pkg.uec ep.toNat
  if w.getLsbD 12 then some (w.setWidth 12) else none

/-- A message dropped and counted (R90, R284): one of an unbound endpoint in the package total alone. -/
def State.dropMessage (s : State) (ep : BitVec 12) : State :=
  match s.endpoint ep with
  | some c => s.decide_ (tenantOf c) 6
  | none => s.onPkg fun p => { p with dec := p.dec.setIfInBounds 6 (p.dec.getD 6 0 + 1) }

/-- A reply goes out. -/
def State.reply (s : State) (r : Reply) : State := { s with outbox := s.outbox ++ [r] }

/-- Where bytes lie that a message or the host names: each granule's virtual and physical address and its length. -/
inductive Reach where
  | fault
  | wait
  | found (l : List (Nat × Nat × Nat))

/-- The bytes [va, va + n) under a context, with a permission (R274, R280, R284). Memory behind a dead CXL port faults (R316). -/
def State.reach (s : State) (c : BitVec 12) (p : Perm) (va n : Nat) : Reach :=
  (granules va n).foldr (fun g acc =>
    let a := g.1 % 2 ^ 64
    match acc, s.walkIn c a with
    | .fault, _ => .fault
    | _, .fault => .fault
    | _, .poison => .fault
    | .wait, _ => .wait
    | _, .wait => .wait
    | .found l, .page pa rwx =>
      if inWindow a || !p.allowed rwx || (p.writes && !privileged c && s.isText pa g.2) then .fault
      else if s.pkg.lostHost.elem (pa / 2 ^ 21) then .fault
      else if s.owned (pa / 64) || s.flipping pa then .wait
      else .found ((a, pa, g.2) :: l)) (.found [])

/-- Bytes written at granules by an accessor, each an access from outside every region (R170, R197). -/
def State.putBytes (s : State) (by_ : Nat → Accessor) : List (Nat × Nat × Nat) → List Byte → State
  | [], _ => s
  | (va, pa, n) :: rest, bs =>
    ((s.takeLine (by_ (pa / 64)) va (pa / 64)).deviceWrite pa (bs.take n)).putBytes by_ rest (bs.drop n)

/-- Bytes read at granules by an accessor. -/
def State.takeBytes (s : State) (by_ : Nat → Accessor) (l : List (Nat × Nat × Nat)) : State × List Byte :=
  (l.foldl (fun s g => s.engineRead (by_ (g.2.1 / 64)) g.1 (g.2.1 / 64) (byteMask (g.2.1 % 64) g.2.2)) s,
    l.flatMap fun g => s.mem.bytes ((List.range g.2.2).map (g.2.1 + ·)))

/-- The append that a message asks for (R83, R284): none while it must wait. A refused one leaves the record alone. -/
def State.appendMessage (s : State) (c ep : BitVec 12) (q r : Word) (payload : List Byte) : Option State :=
  let fail := some (s.reply (.uec ep false []))
  if q.toNat % 512 ≠ 0 ∨ r.toNat % 128 ≠ 0 then fail
  else match s.reach c .store q.toNat 256, s.reach c .store r.toNat 128 with
    | .found ((_, qpa, _) :: _), .found (rec1 :: rec2) =>
      let qp := BitVec.ofNat 64 qpa
      let taken := s.qopen qp && decide (tenantOf c = s.qtenant qp)
      if taken && s.tailBusy c qp then none
      else
        let s := (s.noteRange c q.toNat 256).noteRange c r.toNat 128
        let s := if taken then s.putBytes (contextAccessor c) (rec1 :: rec2) payload else s
        some ((s.append c qp q r rec1.2.1 1 0xFFFF 0).1.reply (.uec ep true []))
    | .wait, .found _ => none
    | .found _, .wait => none
    | .wait, .wait => none
    | _, _ => fail

/-! SPDM (R283). The codes of requests and responses, and the places of fields in a reply, are those of SPDM 1.3 (PRESUMED, log
20). -/

/-- The bytes of a reply that the spec does not give: free values. -/
def State.spdmFree (s : State) (code : Nat) : List Byte :=
  (List.range (Config.spdmLength code s.free)).map (Config.spdmByte code s.free)

/-- The bytes of measurement 2 before the hash (R283): each register of R50 and cap.retired in number order, eight bytes an
entry. No hart reads id.hart for the device: its entry is a free value. -/
def State.registerBytes (s : State) (c : BitVec 12) : List Byte :=
  let one := fun (x : Word) => toBytes 8 x.toNat
  let row := fun (num n : Nat) => (List.range n).flatMap fun i => one (s.table num i)
  one 36 ++ row 0x701 144 ++ row 0x702 576 ++ row 0x703 512 ++ row 0x704 576 ++ one (BitVec.ofNat 64 dieRing) ++
    one (s.pkg.loomCost.setWidth 64) ++ one (BitVec.ofNat 64 capIsa) ++ one (s.featMask c) ++ one (s.pkg.gen.setWidth 64) ++
    one (Config.freeWord s.free) ++ row 0x70B 144

/-- The bytes of measurement 3 (R283). -/
def State.contextBytes (s : State) (c : BitVec 12) : List Byte :=
  (s.ctxs.filter fun p => p.2.live && decide (tenantOf (BitVec.ofNat 12 p.1) = tenantOf c)).flatMap fun p =>
    toBytes 8 p.1 ++ toBytes 64 p.2.attCtx.toNat ++ toBytes 64 p.2.attAdv.toNat

/-- The contents of a measurement for a context's tenant (R283); a free value for an index that the spec does not list. -/
def State.measurement (s : State) (c : BitVec 12) (index : Nat) : List Byte :=
  match index with
  | 1 => toBytes 64 s.pkg.attPkg.toNat
  | 2 => sha512 (s.registerBytes c)
  | 3 => s.contextBytes c
  | n => s.spdmFree (0xE000 + n)

/-- VERSION names SPDM 1.3 alone (R283): the message from its third byte on. -/
def spdmVersions : List Byte := [0, 0, 0, 1, 0x00, 0x13]

/-- ALGORITHMS offers RSASSA with a 4,096-bit key and SHA-512 alone (R283): the message from its third byte on. BaseAsymSel stands at
bytes 12 to 15 of the message, BaseHashSel at 16 to 19, and no extended algorithm is counted at 32 and 33; the other bytes are free. -/
def State.spdmAlgorithms (s : State) : List Byte :=
  (List.range 34).map fun i =>
    match i + 2 with
    | 12 => 0x20
    | 13 | 14 | 15 => 0
    | 16 => 0x04
    | 17 | 18 | 19 | 32 | 33 => 0
    | _ => Config.spdmByte 0xE3 s.free i

/-- The response to an SPDM request under a context: its code, and what follows (R283). Slot 0 alone is served, and every other
request gets the error response UnsupportedRequest. -/
def State.spdmAnswer (s : State) (c : BitVec 12) : Spdm → Byte × List Byte
  | .version => (0x04, spdmVersions)
  | .capabilities => (0x61, s.spdmFree 0xE1)
  | .algorithms => (0x63, s.spdmAlgorithms)
  | .digests slot => if slot = 0 then (0x01, s.spdmFree 0x81) else (0x7F, [0x07])
  | .certificate slot => if slot = 0 then (0x02, s.spdmFree 0x82) else (0x7F, [0x07])
  | .challenge slot => if slot = 0 then (0x03, s.spdmFree 0x83) else (0x7F, [0x07])
  | .measurements i => (0x60, s.measurement c i.toNat ++ s.spdmFree 0xE0)
  | .other => (0x7F, [0x07])

/-- A message performed under its context: none while it must wait (R284). -/
def State.performMessage (s : State) (c ep : BitVec 12) : Message → Option State
  | .append q r payload => s.appendMessage c ep q r payload
  | .write a data => match s.reach c .store a.toNat data.length with
    | .fault => some (s.reply (.uec ep false []))
    | .wait => none
    | .found l => some (((s.noteRange c a.toNat data.length).putBytes (contextAccessor c) l data).reply (.uec ep true []))
  | .read a n => match s.reach c .load a.toNat n.toNat with
    | .fault => some (s.reply (.uec ep false []))
    | .wait => none
    | .found l =>
      if l.any fun g => s.poisoned g.2.1 then some (s.reply (.uec ep false []))
      else
        let (t, bs) := (s.noteRange c a.toNat n.toNat).takeBytes (contextAccessor c) l
        some (t.reply (.uec ep true bs))
  | .spdm r =>
    let (code, data) := s.spdmAnswer c r
    some (s.fresh.reply (.spdm ep code data))

/-- The oldest message of an endpoint leaves the queue. -/
def State.dropHead (s : State) (ep : BitVec 12) : State :=
  s.onPkg fun p => { p with inbox := p.inbox.eraseP fun q => decide (q.1 = ep) }

/-- A message of the endpoint waits. -/
def State.queued (s : State) (ep : BitVec 12) : Bool := s.pkg.inbox.any fun q => decide (q.1 = ep)

/-- The next message of an endpoint becomes due, where one waits. -/
def State.nextMessage (s : State) (ep : BitVec 12) : State :=
  if s.queued ep && !s.agenda.elem (.message ep) then s.due (.message ep) else s

/-- The oldest message of an endpoint performed (R284), or dropped where the endpoint has become unbound; one that must wait stays where
it is. -/
def State.deliverNext (s : State) (ep : BitVec 12) : State :=
  match s.pkg.inbox.find? fun q => decide (q.1 = ep) with
  | none => s
  | some (_, m) => match s.endpoint ep with
    | none => ((s.dropHead ep).dropMessage ep).nextMessage ep
    | some c => match s.performMessage c ep m with
      | none => s.nextMessage ep
      | some t => (t.dropHead ep).nextMessage ep

/-- A message delivered (R284): dropped when the endpoint is unbound, performed behind those of its endpoint that wait. -/
def State.deliver (s : State) (ep : BitVec 12) (m : Message) : State :=
  if (s.endpoint ep).isNone then s.dropMessage ep
  else
    let t := s.onPkg fun p => { p with inbox := p.inbox ++ [(ep, m)] }
    if s.queued ep then t.nextMessage ep else t.deliverNext ep

/-- UEC_APPEND (R83, R284): its payload is the 128 bytes of a record. -/
def execUecAppend (ep : BitVec 12) (q r : Word) (payload : List Byte) (s : State) : Res :=
  if payload.length ≠ 128 then .fault .notDue else .next (s.deliver ep (.append q r payload))

/-- UEC_WRITE (R284). -/
def execUecWrite (ep : BitVec 12) (a : Word) (data : List Byte) (s : State) : Res :=
  .next (if data.length = 0 ∨ 4096 < data.length then s.dropMessage ep else s.deliver ep (.write a data))

/-- UEC_READ (R284). -/
def execUecRead (ep : BitVec 12) (a n : Word) (s : State) : Res :=
  .next (if n = 0 ∨ 4096#64 < n then s.dropMessage ep else s.deliver ep (.read a n))

/-- UEC_INVALID_MESSAGE (R284). -/
def execUecInvalidMessage (ep : BitVec 12) (s : State) : Res := .next (s.dropMessage ep)

/-! The SPDM requests (R283), each a message of its endpoint (R284). -/

/-- GET_VERSION (R283). -/
def execGetVersion (ep : BitVec 12) (s : State) : Res := .next (s.deliver ep (.spdm .version))

/-- GET_CAPABILITIES (R283). -/
def execGetCapabilities (ep : BitVec 12) (s : State) : Res := .next (s.deliver ep (.spdm .capabilities))

/-- NEGOTIATE_ALGORITHMS (R283). -/
def execNegotiateAlgorithms (ep : BitVec 12) (s : State) : Res := .next (s.deliver ep (.spdm .algorithms))

/-- GET_DIGESTS (R283). -/
def execGetDigests (ep : BitVec 12) (slot : BitVec 8) (s : State) : Res := .next (s.deliver ep (.spdm (.digests slot)))

/-- GET_CERTIFICATE (R283): the bytes of the chain are free, whichever part of it is asked for. -/
def execGetCertificate (ep : BitVec 12) (slot : BitVec 8) (_ _ : BitVec 16) (s : State) : Res :=
  .next (s.deliver ep (.spdm (.certificate slot)))

/-- CHALLENGE (R283): the signature over the nonce is free. -/
def execChallenge (ep : BitVec 12) (slot : BitVec 8) (_ : BitVec 256) (s : State) : Res :=
  .next (s.deliver ep (.spdm (.challenge slot)))

/-- GET_MEASUREMENTS (R283): the measurement, and what SPDM adds to it. -/
def execGetMeasurements (ep : BitVec 12) (index : BitVec 8) (_ : BitVec 256) (s : State) : Res :=
  .next (s.deliver ep (.spdm (.measurements index)))

/-- Any other SPDM request (R283). -/
def execSpdmUnsupportedRequest (ep : BitVec 12) (_ : BitVec 8) (s : State) : Res := .next (s.deliver ep (.spdm .other))

/-! The host on the CXL port (R133). -/

/-- The granules of a range of physical addresses. -/
def physical (pa n : Nat) : List (Nat × Nat × Nat) :=
  if n = 0 then [] else (granules pa n).map fun g => (noAddress, g.1 % 2 ^ 52, g.2)

/-- CXL_HOST_WRITE (R133): a line that an engine owns is recalled first (R128); nothing is taken from a dead port
(R188). -/
def execCxlHostWrite (pa : BitVec 52) (data : List Byte) (s : State) : Res :=
  let l := physical pa.toNat data.length
  if s.pkg.dead.elem .cxlPort then .next s
  else if l.any fun g => s.owned (g.2.1 / 64) then .next (s.due (.cxlHostWrite pa data))
  else .next (s.putBytes deviceAccessor l data)

/-- CXL_HOST_READ (R133): a poisoned granule is never delivered as valid (R313), so the reply is empty. -/
def execCxlHostRead (pa : BitVec 52) (count : Nat) (s : State) : Res :=
  let l := physical pa.toNat count
  if s.pkg.dead.elem .cxlPort then .next s
  else if l.any fun g => s.owned (g.2.1 / 64) then .next (s.due (.cxlHostRead pa count))
  else if l.any fun g => s.poisoned g.2.1 then .next (s.reply (.cxl pa.toNat []))
  else
    let (t, bs) := s.takeBytes deviceAccessor l
    .next (t.reply (.cxl pa.toNat bs))

/-! Power and clocks. -/

/-- POWER_ON (R93, R282): everything as at reset but for the part's own tables and its failed places, and the boot firmware measured
(log 30). -/
def execPowerOn (s : State) : Res :=
  .next { State.reset.bootLoom with
    sched := s.sched
    free := s.free
    outbox := s.outbox
    pkg := { Pkg.reset with
      tables := s.pkg.tables
      gen := s.pkg.gen
      health := s.pkg.health
      serial := s.pkg.serial
      worn := s.pkg.worn
      attPkg := attExtend 0 Config.bootFirmware } }

/-- DEEP_IDLE_ENTRY (R2, R318): the timebase stops, and every trace ring starts again with a resync record. -/
def execDeepIdleEntry (s : State) : Res :=
  .next { s.onPkg (fun p => { p with deepIdle := true }) with
    ctxs := (s.ctxs.map fun p => (p.1, { p.2 with trcResync := true })).filter fun p => decide (p.2 ≠ Ctx.none) }

/-- DEEP_IDLE_EXIT (R2). -/
def execDeepIdleExit (s : State) : Res :=
  if s.pkg.deepIdle then .next (s.onPkg fun p => { p with deepIdle := false }) else .fault .notDue

/-- CLOCK_LOWER (R94): wall-clock time alone grows; the next window begins at the full clock. -/
def execClockLower (s : State) : Res := .next (s.onPkg fun p => { p with clockLow := true })

/-- An engine owns a line that a slice serves, at the engine's die or at home (R128, R149, R267). -/
def State.sliceOwned (s : State) (slice : Nat) : Bool :=
  let at_ := fun (d line : Nat) => decide (sliceAt d line = slice) || decide (homeSlice line = slice)
  (s.harts ++ s.saved).any (fun h => h.copy.toList.any (fun c => match c with
      | some c => c.lines.any (at_ (die h.id))
      | none => false) || h.accStores.any fun p => p.lines.any (at_ (die h.id))) ||
    s.windows.any fun w => decide (w.slice = slice) || w.contribs.any fun c => decide (homeSlice (c.addr / 64) = slice)

/-- L2_DROWSY_ENTRY (R167): a low forecast, and no access, snoop or recall for 2,048 fabric clocks, each ten eighteenths of a
nanosecond (R2). -/
def execL2DrowsyEntry (slice : Nat) (s : State) : Res :=
  let used := Sparse.get (fun _ => 0) s.pkg.slicesUsed slice
  if 512 ≤ slice ∨ 512#16 ≤ s.loom.forecast.getD (slice / 128) 1024 ∨ s.now < used + 20480 ∨ s.sliceOwned slice ∨
      s.pkg.misses.any (fun m => decide (m.1 = slice)) ∨ s.pkg.drowsy.elem slice then .fault .notDue
  else .next (s.onPkg fun p => { p with drowsy := slice :: p.drowsy })

/-- REGISTER_BANK_RETENTION (R35, R55): the bank keeps its contents. Banks 0 to 7 of a core hold the architectural rows of its lanes
by eighths, and 8 to 15 the row pool's (DESIGN CHOICE, log 52); those of a hart's own lanes hold live registers and never sleep. -/
def execRegisterBankRetention (core bank : Nat) (s : State) : Res :=
  let live := (s.coreTasks core).any fun h => decide (bank / 2 ^ (3 - s.shareSplit h) = h.id.hart)
  if 576 ≤ core ∨ 16 ≤ bank ∨ (bank < 8 ∧ live) then .fault .notDue
  else .next (s.onCore core fun c => { c with retained := if c.retained.elem bank then c.retained else bank :: c.retained })

/-! The ends of waits. -/

/-- URGENT (R95). -/
def execUrgent (who : AgentId) (s : State) : Res :=
  match s.find who with
  | none => .fault .notDue
  | some h =>
    if h.active && decide (8 ≤ h.passed) then .next (s.update who fun h => { h with urgent := true }) else .fault .notDue

/-- YIELD_EXPIRY (R118). -/
def execYieldExpiry (who : AgentId) (s : State) : Res :=
  match s.find who with
  | none => .fault .notDue
  | some h => if h.yielded = 1 then .next (s.update who fun h => { h with yielded := 0 }) else .fault .notDue

/-- ROW_GRANT (R96): the hart that began to wait first is ready again. -/
def execRowGrant (core : Nat) (s : State) : Res :=
  match (s.core core).rowWaiters with
  | [] => .fault .notDue
  | id :: rest =>
    .next ((s.onCore core fun c => { c with rowWaiters := rest }).update id fun h =>
      { h with wait := if h.wait = some .rowPool then none else h.wait })

/-- The oldest accumulator store of a hart performed (R267). -/
def State.finishAccStore (s : State) (who : AgentId) : State :=
  match s.find who with
  | none => s
  | some h => match h.accStores.head? with
    | none => s
    | some a => ((s.engineWrite (fun _ => h.engine) a.bytes).poisonGranules a.bad).update who fun h =>
        { h with accStores := h.accStores.drop 1 }

/-- Operations of damo.add that st counts and that ordered-reduction units have not accepted whole (R135). -/
def State.owedOps (s : State) (h : Hart) : Nat := h.sent.countP fun n => s.oruIn.any fun m => decide (m.op = n) && m.owed

/-- Operations of a class that complete by OPERATION_COMPLETE alone: a region's stores complete at its commit (R199), those of a damo.add
once they are accepted (R135), tile operations and copies in their own steps (R135, R258). -/
def State.completable (s : State) (h : Hart) : OpClass → Bool
  | .ld => decide (h.cnt.ld ≠ 0)
  | .st => decide ((match h.region with
    | some r => r.stores
    | none => 0) + s.owedOps h < h.cnt.st.toNat)
  | .tl => decide ((if h.id.control then (s.quad h.id.quad).ops.length else 0) < h.cnt.tl.toNat)
  | .cp => false

/-- OPERATION_COMPLETE (R135). -/
def execOperationComplete (who : AgentId) (cls : OpClass) (s : State) : Res :=
  match s.find who with
  | none => .fault .notDue
  | some h =>
    if s.completable h cls then
      .next ((if cls = .tl then s.finishAccStore who else s).lower who cls)
    else .fault .notDue

/-- BARRIER_RELEASE (R112): the oldest phase whose count has been reached. -/
def execBarrierRelease (key : BarrierKey) (s : State) : Res :=
  let b := s.barrier key
  if b.released = b.phase then .fault .notDue
  else .next (s.setBarrier key { b with released := b.released + 1 })

/-- SHUTTLE_POST_OBSERVED (R115). -/
def execShuttlePostObserved (die ch pos : Nat) (s : State) : Res :=
  let n := 8 * die + ch
  let c := s.channel n
  if 4 ≤ die ∨ 8 ≤ ch ∨ 144 ≤ pos ∨ c.value ≤ Sparse.get (fun _ => 0) c.seen pos then .fault .notDue
  else .next (s.onChannel n fun c => { c with seen := Sparse.set (fun _ => 0) c.seen pos c.value })

/-- RESERVATION_HOLD_EXPIRY (R142). -/
def execReservationHoldExpiry (block : Nat) (s : State) : Res :=
  if s.pkg.holds.any fun p => decide (p.1 = block) then
    .next (s.onPkg fun p => { p with holds := p.holds.filter fun q => decide (q.1 ≠ block) })
  else .fault .notDue

/-- MISS_ENTRY_GRANT (R166): the miss of the slice that arrived first leaves the queue. -/
def execMissEntryGrant (slice : Nat) (s : State) : Res :=
  match s.pkg.misses.find? fun m => decide (m.1 = slice) with
  | none => .fault .notDue
  | some m => .next (s.onPkg fun p => { p with misses := p.misses.erase m })

/-- TILE_FILL (R170, R175): a tile lands in the tile cache of its holding die. -/
def execTileFill (ctx : BitVec 12) (tensor : BitVec 6) (i j : Nat) (s : State) : Res :=
  match (s.ctx ctx).tensor tensor with
  | none => .fault .notDue
  | some t =>
    if !t.inRange i j then .fault .notDue
    else
      .next ((t.lineAddrs i j).foldl (fun s va => match s.walkIn ctx va with
        | .page pa _ => if s.atHost (pa / 64) then s else s.fileLine ⟨ctx, tensor, i, j⟩ (pa / 64) false
        | _ => s) s)

/-! Errors and repair (R312 to R315). -/

/-- A repair or a retirement done: the generation moves on (R50, R314, R315). -/
def State.repaired (s : State) (health : BitVec 2) : State :=
  s.onPkg fun p => { p with gen := p.gen + 1, health := health }

/-- pkg.health of at least 1 (R314). -/
def State.mended (s : State) : State := s.repaired (if s.pkg.health = 0 then 1 else s.pkg.health)

/-- The bundle uses a unit (R314): a lane or a quad serves those that stand on it, a slice, a memory channel or a link every
one. -/
def unitServes (u : RepairUnit) (b : Bundle) : Bool :=
  match u with
  | .lane core _ _ => b.cores.any fun k => decide (4 * b.quad + k = core)
  | .quad q _ => decide (b.quad = q)
  | _ => true

/-- The contexts that use a unit pre-empted (R51, R314): none while one of their bundles has no free save slot or is
still being saved. -/
def State.vacate (s : State) (u : RepairUnit) : Option State :=
  let bs := s.loom.bundles.filter fun b => unitServes u b && b.slot?.isNone
  if bs.any fun b => !b.runs then none
  else bs.foldl (fun acc b => acc.bind fun s => ((s.ctx b.ctx).freeSlot).map fun slot => s.preempt b slot s.reason) (some s)

/-- The physical lane that serves logical lane l of an entry of cap.lanemap (R50). -/
def laneOf (e : Word) (l : Nat) : Nat :=
  let x := e.toNat
  if bits x 5 0 = l then bits x 11 6 else if bits x 17 12 = l then bits x 23 18 else l

/-- cap.lanemap with logical lane l served by physical lane p (R50): at its own place of the two, or at a free one. -/
def laneEntry (e : Word) (l p : Nat) : Word :=
  let x := e.toNat
  if bits x 5 0 = 63 ∨ bits x 5 0 = l then BitVec.ofNat 64 (l + p * 64 + bits x 23 12 * 2 ^ 12)
  else BitVec.ofNat 64 (bits x 11 0 + l * 2 ^ 12 + p * 2 ^ 18)

/-- The physical place that serves a unit's logical name now, by class and number (R50); none for a unit with no table. -/
def State.placeOf (s : State) : RepairUnit → Option (Nat × Nat)
  | .lane core l _ => some (0, 64 * core + laneOf (s.table 0x702 core) l)
  | .quad q _ => some (1, 64 * (q / 36) + bits (s.table 0x701 q).toNat 5 0)
  | .slice k _ _ => some (2, 256 * (k / 128) + bits (s.table 0x703 k).toNat 7 0)
  | _ => none

/-- The spares that remain for a unit (R314, R315), as physical places: two lanes of its core, four quad positions of its die, four
slice positions of its die, that serve no logical name and have not failed before. -/
def State.spares (s : State) : RepairUnit → List Nat
  | .lane core _ _ => [32, 33].filter fun p =>
      !((List.range 32).any fun l => decide (laneOf (s.table 0x702 core) l = p)) && !s.pkg.worn.elem (0, 64 * core + p)
  | .quad q _ => (List.range 40).filter fun p =>
      !((List.range 36).any fun k => decide (bits (s.table 0x701 (36 * (q / 36) + k)).toNat 5 0 = p)) &&
        !s.pkg.worn.elem (1, 64 * (q / 36) + p)
  | .slice k _ _ => (List.range 132).filter fun p =>
      !((List.range 128).any fun j => decide (bits (s.table 0x703 (128 * (k / 128) + j)).toNat 7 0 = p)) &&
        !s.pkg.worn.elem (2, 256 * (k / 128) + p)
  | _ => []

/-- The repair is one that the device makes (R314, R315): it moves a name to a spare that remains, and goes without one only where
none does. A unit that is retired is repaired no more. -/
def State.repairable (s : State) (u : RepairUnit) : Bool :=
  match u with
  | .lane core l p => decide (core < 576) && decide (l < 32) && !s.retired (core / 4) (core % 4) && match p with
    | some p => (s.spares u).elem p.toNat
    | none => (s.spares u).isEmpty
  | .quad q p => decide (q < 144) && !s.retired q 4 && match p with
    | some p => (s.spares u).elem p.toNat
    | none => (s.spares u).isEmpty
  | .slice k v _ => decide (k < 512) && match v with
    | some v => v.getLsbD 8 && (s.spares u).elem (bits v.toNat 7 0)
    | none => (s.spares u).isEmpty
  | _ => true

/-- Regions that track a line of a slice lose their tracking state (R197, R314). -/
def State.loseTracking (s : State) (slice : Nat) : State :=
  (s.inRegions.filter fun h => match h.region with
    | some r => r.lines.any fun t => decide (homeSlice t.line = slice)
    | none => false).foldl (fun s h => s.abortRegion h.id 8) s

/-- A unit of its own retired (R315): bit k of the quad's cap.retired. -/
def State.retire (s : State) (quad k : Nat) : State :=
  (s.setTable 0x70B quad (s.table 0x70B quad ||| BitVec.ofNat 64 (2 ^ k))).repaired 2

/-- Failing granules found, in a unit that stays in service (R315). -/
def State.service (s : State) (gs : List Nat) : State := (s.poisonGranules gs).onPkg fun p => { p with health := 3 }

/-- The place that a unit leaves serves no more. -/
def State.wear (s : State) (u : RepairUnit) : State :=
  match s.placeOf u with
  | some p => s.onPkg fun q => { q with worn := p :: q.worn }
  | none => s

/-- A repair once the unit is free of work (R314, R315). -/
def State.repair (s : State) (u : RepairUnit) : State :=
  match u with
  | .lane core l (some p) => ((s.wear u).setTable 0x702 core (laneEntry (s.table 0x702 core) l p.toNat)).mended
  | .lane core _ none => s.retire (core / 4) (core % 4)
  | .quad q (some p) => ((s.wear u).setTable 0x701 q (p.setWidth 64)).mended
  | .quad q none => s.retire q 4
  | .slice k (some v) _ => ((((s.flushSlice k).loseTracking k).wear u).setTable 0x703 k (v.setWidth 64)).mended
  | .slice _ none gs => s.service gs
  | .hbm _ [] => s.mended
  | .hbm _ gs => s.service gs
  | .link _ [] => s.mended
  | .link _ gs => s.service gs

/-- The unit stays in service, so nothing is pre-empted for it (R315). -/
def staysInService : RepairUnit → Bool
  | .slice _ none _ => true
  | .hbm _ (_ :: _) => true
  | .link _ (_ :: _) => true
  | _ => false

/-- FIELD_REPAIR (R314, R315). -/
def execFieldRepair (unit : RepairUnit) (s : State) : Res :=
  if !s.repairable unit then .fault .notDue
  else if staysInService unit then .next (s.repair unit)
  else match s.vacate unit with
    | none => .next (s.due (.fieldRepair unit))
    | some t => .next (t.repair unit)

/-- LINK_RETRY (R312): after the last of 8 retries the lane of the link is repaired (R314). -/
def execLinkRetry (link : Nat) (lastRetry : Bool) (s : State) : Res :=
  if lastRetry then execFieldRepair (.link link []) s else .next s

/-- A unit with its lowest spare, where one remains: what its repair will be (R314, R315). -/
def State.withSpare (s : State) : RepairUnit → RepairUnit
  | .lane core l x => .lane core l ((s.spares (.lane core l x)).head?.map (BitVec.ofNat 6))
  | .quad q x => .quad q ((s.spares (.quad q x)).head?.map (BitVec.ofNat 6))
  | .slice k x _ => .slice k ((s.spares (.slice k x [])).head?.map fun p => BitVec.ofNat 9 (256 + p)) []
  | .hbm part _ => .hbm part []
  | .link part _ => .link part []

/-- The two name the same unit, whatever its spare: an HBM row or channel, and a link lane, by its number. -/
def sameUnit : RepairUnit → RepairUnit → Bool
  | .lane c l _, .lane d m _ => decide (c = d) && decide (l = m)
  | .quad q _, .quad r _ => decide (q = r)
  | .slice j _ _, .slice k _ _ => decide (j = k)
  | .hbm j _, .hbm k _ => decide (j = k)
  | .link j _, .link k _ => decide (j = k)
  | _, _ => false

/-- A corrected error of a unit: 16 of them within one second of the timebase make its repair due (R314). -/
def State.noteCorrected (s : State) (u : RepairUnit) : State :=
  let recent := s.pkg.errors.filter fun p => decide (s.pkg.timebase.toNat < p.2.toNat + 10 ^ 9)
  let errors := recent ++ [(u, s.pkg.timebase)]
  if 16 ≤ errors.countP fun p => sameUnit p.1 u then
    (s.onPkg fun p => { p with errors := errors.filter fun p => !sameUnit p.1 u }).due (.fieldRepair (s.withSpare u))
  else s.onPkg fun p => { p with errors := errors }

/-! Agent death (R188, R189, R316). -/

/-- The slots of a dead control core: each is free once the operations issued before have read it (R252, R316). -/
def State.orphanSlots (s : State) (h : Hart) : State :=
  let q := s.quad h.id.quad
  let held := (List.range 32).filter fun i => decide (q.slot i = .control) && !q.releasing.elem i
  if q.owner ≠ some (h.qcb, h.job, h.bundle) then s
  else held.foldl (fun s i =>
    (s.onQuad h.id.quad fun q => { q with releasing := i :: q.releasing }).due (.slotFree h.id.quad i)) s

/-- Contributions that a dead core has sent and no unit has accepted are never performed (R149, R189). -/
def State.dropUnaccepted (s : State) (mine : AgentId → Bool) : State :=
  { s with oruIn := s.oruIn.filter fun m => !(m.token.isNone && mine m.sender) }

/-- The harts of a dead core stop with no save and their jobs fail (R189, R316). -/
def State.killHarts (s : State) (p : Hart → Bool) : State :=
  let gone := s.harts.filter fun h => h.active && p h
  let s := gone.foldl (fun s h =>
    let s := (s.abortRegion h.id 8).releaseHandles h.id
    if h.id.control then s.orphanSlots h else s.freeSlots h) s
  let s := (s.dropTransfers false gone).removeHarts fun h => h.active && p h
  let s := s.dropDue (gone.map (·.id))
  let s := (gone.filter fun h => !h.id.control).foldl (fun s h => s.settleCore (globalCore h.id)) s
  let s := gone.foldl (fun s h => s.fail h.qcb h.job 6) s
  ((gone.map fun h => (h.qcb, h.job, h.bundle)).eraseDups).foldl (fun s k => match s.bundle k.1 k.2.1 k.2.2 with
    | some b => if s.bundleDone b then s.due (.bundleEnded k.1 k.2.1 k.2.2) else s
    | none => s) s

/-- The transfers of a hart lost with its matrix engine (R316). -/
def Hart.loseTiles (h : Hart) : Hart :=
  if h.cnt.tl = 0 then h
  else { h with cnt := { h.cnt with tl := 0 }, accStores := [] }.lose [32]

/-- The matrix engine of a quad is lost (R316): cells that no operation has written keep their values. -/
def State.loseMatrix (s : State) (quad : Nat) : State :=
  let s := s.updateAll fun h => if h.id.quad = quad then h.loseTiles else h
  let s := s.onQuad quad fun q => { q with running := none, waiting := [], progress := [] }
  { s with agenda := s.agenda.filter fun d => match d with
    | .operationComplete id .tl => decide (id.quad ≠ quad)
    | .tileOpStart q => decide (q ≠ quad)
    | .tileOpComplete q => decide (q ≠ quad)
    | _ => true }

/-- A saved hart whose push or call is lost with the engine: it traps at its instruction once it resumes (R316). -/
def Hart.loseTransfer (h : Hart) : Hart :=
  let g := { h with empty := 0 }
  if h.pushing.isSome || h.xredCall.isSome then { g with pushing := none, xredCall := none }.lose [33] else g

/-- The pushes and collective calls under way are lost (R316): their harts trap where they stand, or where they resume. -/
def State.loseCollectives (s : State) : State :=
  let hs := s.harts.filter fun h => h.pushing.isSome || h.xredCall.isSome
  let s := { s with
    pushes := []
    xred := []
    agenda := s.agenda.filter fun d => match d with
      | .vpushDelivery _ => false
      | .xredComplete _ => false
      | _ => true
    saved := s.saved.map Hart.loseTransfer }
  let s := s.updateAll fun h => { h with empty := 0 }
  hs.foldl (fun s h => (s.update h.id Hart.transferGone).trapHart h.id 8 4) s

/-- An agent declared dead (R188, R189, R316). A gather engine performs its operations in their own steps, so none is pending on it,
and those given to it later trap (log 48); the Loom that takes over from a dead one is the same Loom of the model. Memory that was
host-bias at the death of the CXL port takes code 8, subcode 4, until the port is re-admitted (log 53). -/
def State.declareDead (s : State) (a : DyingAgent) : Res :=
  if s.pkg.dead.elem a then .fault .notDue
  else
    let s := s.onPkg fun p => { p with dead := a :: p.dead }
    .next (match a with
      | .vectorCore q c =>
        let mine := fun (id : AgentId) => !id.control && decide (id.quad = q) && decide (id.core = c)
        ((s.dropUnaccepted mine).killHarts fun h => mine h.id).dropCopies (4 * q + c)
      | .controlCore q => s.killHarts fun h => h.id.control && decide (h.id.quad = q)
      | .copyEngine q c => (s.harts.filter fun h =>
          !h.id.control && decide (h.id.quad = q) && decide (h.id.core = c)).foldl (fun s h => s.loseCopies h) s
      | .matrixEngine q => s.loseMatrix q
      | .collectiveEngine => s.loseCollectives
      | .gatherEngine _ _ => s
      | .loom _ => s
      | .cxlPort => s.onPkg fun p => { p with hostBias := [], lostHost := (p.hostBias ++ p.lostHost).eraseDups })

/-- AGENT_FATAL_ERROR (R316). -/
def execAgentFatalError (dead : DyingAgent) (s : State) : Res := s.declareDead dead

/-- AGENT_RESPONSE_TIMEOUT (R316). -/
def execAgentResponseTimeout (dead : DyingAgent) (s : State) : Res := s.declareDead dead

/-- The incarnation number of an agent (R188). -/
def Pkg.incarnation (p : Pkg) (a : DyingAgent) : Byte :=
  ((p.incarnations.find? fun q => decide (q.1 = a)).map (·.2)).getD 0

/-- The agent whose incarnation number the messages of a hart carry (R188): its core. -/
def coreAgent (id : AgentId) : DyingAgent := if id.control then .controlCore id.quad else .vectorCore id.quad id.core

/-- The largest value that any ring position of a channel has observed. -/
def Channel.observed (c : Channel) : Word := c.seen.foldl (fun x p => if x < p.2 then p.2 else x) 0

/-- The posts of some agents that no ring position has observed yet. -/
def Channel.stale (c : Channel) (old : AgentId → Bool) : List (AgentId × Word) :=
  c.posts.filter fun p => old p.1 && decide (c.observed < p.2)

/-- A channel without the posts of some agents: what a ring position has observed stands (R188). -/
def Channel.without (c : Channel) (old : AgentId → Bool) : Channel :=
  let rest := c.posts.filter fun p => !old p.1
  { c with posts := rest, value := rest.foldl (fun x p => if x < p.2 then p.2 else x) c.observed }

/-- The messages of an agent's old incarnation are dropped without effect, and counted (R188): contributions and tokens, narrowing
messages, and shuttle posts. FINAL messages come from the arbiter, and are none of its own (R194). -/
def State.dropStale (s : State) (a : DyingAgent) : State :=
  let old := fun (id : AgentId) => decide (coreAgent id = a)
  let oru := s.oruIn.filter fun m => old m.sender
  let narrowings := s.arb.narrowings.filter fun m => old m.partner
  let posts := s.shuttle.flatMap fun p => (p.2.stale old).filterMap fun _ => p.2.ctx
  let t := { s with
    oruIn := s.oruIn.filter fun m => !old m.sender
    arb := { s.arb with narrowings := s.arb.narrowings.filter fun m => !old m.partner }
    shuttle := (s.shuttle.map fun (p : Nat × Channel) => (p.1, p.2.without old)).filter fun (p : Nat × Channel) => decide (p.2 ≠ Channel.idle)
    agenda := s.agenda.filter fun d => match d with
      | .oruAccept n => !oru.any fun m => decide (m.id = n)
      | _ => true }
  (oru.map (·.ctx) ++ narrowings.map (·.ctx) ++ posts).foldl (fun s c => s.count c 0x757 0 1) t.repostMessages

/-- READMISSION (R188, R316). -/
def execReadmission (dead : DyingAgent) (s : State) : Res :=
  if s.pkg.dead.elem dead then
    .next ((s.onPkg fun p => { p with
      dead := p.dead.filter fun a => decide (a ≠ dead)
      lostHost := if dead = .cxlPort then [] else p.lostHost
      incarnations := (dead, p.incarnation dead + 1) :: p.incarnations.filter fun q => decide (q.1 ≠ dead) }).dropStale dead)
  else .fault .notDue

/-! Observation. -/

/-- The stall entry of most cycles, if one is taken (R320). -/
def Hart.worstStall (h : Hart) : Option Stall :=
  h.stalls.foldl (fun best x => match best with
    | some b => if b.cyc < x.cyc then some x else some b
    | none => if x.cyc = 0 then none else some x) none

/-- TRACE_SAMPLE (R317, R320): a sample record, and the stall record of the hart's worst entry. -/
def execTraceSample (who : AgentId) (s : State) : Res :=
  match s.find who with
  | none => .fault .notDue
  | some h =>
    if !h.active || bits (s.ctx h.ctx).trcCfg.toNat 31 16 = 0 then .fault .notDue
    else
      let t := s.trace h 4 (h.pc.toNat + h.vstart.toNat * 2 ^ 48) h.prio.toNat 0
      .next (match h.worstStall with
        | none => t
        | some x => t.trace h 6 x.cons.toNat x.prod.toNat (bits x.cyc.toNat 31 0 + x.lag.toNat * 2 ^ 32))

end Sys2Proof.Machine
end

