-- ==== Sys2Proof/Machine/Flags.lean ====
section
/-! DEFINITION. The machine has no flags (R97, R207): what a comparison decides stands in mask bits. The writing of a mask
register (R36, R227). -/

namespace Sys2Proof.Machine

/-- Bit e of a mask destination after an instruction (R227), for e below the MVL of the current SEW. -/
def Hart.destBit (h : Hart) (mask : Nat) (stop : Option Nat) (keeps : Nat → Bool) (old : Nat) (new : Nat → Bool)
    (e : Nat) : Bool :=
  if e < h.vstart.toNat then old.testBit e
  else if e < stop.getD h.g then
    if mask.testBit e then new e else if h.maskZero then false else old.testBit e
  else if stop.isSome then old.testBit e
  else if e < h.vl.toNat then false
  else match h.tailPolicy with
    | 0 => old.testBit e
    | 1 => keeps e && old.testBit e
    | _ => false

/-- A mask destination after an instruction (R227): bits at and above MVL stay as they are. -/
def Hart.destMask (h : Hart) (sew mask : Nat) (stop : Option Nat) (keeps : Nat → Bool) (old : Nat) (new : Nat → Bool) :
    Nat :=
  let n := h.mvl sew
  old / 2 ^ n * 2 ^ n + pack 1 n fun e => if h.destBit mask stop keeps old new e then 1 else 0

/-- Mask register n written by R227; m0 discards it (R36). -/
def State.writeM (s : State) (n sew mask : Nat) (stop : Option Nat) (new : Nat → Bool) : State :=
  (s.fresh).on fun h =>
    let t := h.setM n (h.destMask sew mask stop (Config.keepsTail s.free) (h.getM n) new)
    if h.parity.isEmpty then t
    else t.goodM n fun slot => (List.range 64).all fun j =>
      decide (64 * slot + j < h.mvl sew) && h.writes mask stop (Config.keepsTail s.free) (64 * slot + j)

/-- An elementwise instruction that writes mask register d (R227), and may be stopped inside as one that writes a vector. -/
def State.elementwiseMask (s : State) (srcs : List Source) (d : Nat) (sew mask : Nat) (new : Nat → Bool) : Res :=
  let h := s.hart
  match h.cutInside true srcs mask with
  | some (e, c) =>
    let f := h.groupStart sew e
    ((s.writeM d sew mask (some f) new).consumeUpTo srcs (f - h.vstart.toNat) false).cutAt f c
  | none => ((s.writeM d sew mask none new).consumeAll srcs).vectorDone

end Sys2Proof.Machine
end

