-- ==== Sys2Proof/Machine/VecInt.lean ====
section
/-! DEFINITION. Integer vector arithmetic (R225 to R238): majors 0x20 to 0x27, the integer forms of 0x30 to 0x34, and the
integer multiply-accumulate forms of 0x3D, with the merges and moves of any format. -/

namespace Sys2Proof.Machine

/-- The format groups of R225. -/
def Fmt.isInt (f : Fmt) : Bool := !f.isFloat

/-- Two vector sources, one vector destination (R232). -/
def State.vec3 (s : State) (ok : Bool) (m : BitVec 4) (b a d : BitVec 6) (f : Nat → Nat → Nat) : Res :=
  let w := s.hart.sew
  s.withSources ok [⟨a, w⟩, ⟨b, w⟩] (some ⟨d, w⟩) fun xs =>
    s.elementwise [⟨a, w⟩, ⟨b, w⟩] d w (s.hart.getM m.toNat) fun e => f (pick xs 0 w e) (pick xs 1 w e)

/-- Two vector sources, a mask destination (R227, R232). -/
def State.vec3m (s : State) (ok : Bool) (m : BitVec 4) (b a d : BitVec 6) (f : Nat → Nat → Bool) : Res :=
  let w := s.hart.sew
  s.withSources ok [⟨a, w⟩, ⟨b, w⟩] none fun xs =>
    s.elementwiseMask [⟨a, w⟩, ⟨b, w⟩] d.toNat w (s.hart.getM m.toNat) fun e => f (pick xs 0 w e) (pick xs 1 w e)

/-- One vector source, one vector destination (R237, R238). -/
def State.vec2 (s : State) (ok : Bool) (m : BitVec 4) (a d : BitVec 6) (f : Nat → Nat) : Res :=
  let w := s.hart.sew
  s.withSources ok [⟨a, w⟩] (some ⟨d, w⟩) fun xs =>
    s.elementwise [⟨a, w⟩] d w (s.hart.getM m.toNat) fun e => f (pick xs 0 w e)

/-- One vector source, a mask destination (R237). -/
def State.vec2m (s : State) (ok : Bool) (m : BitVec 4) (a d : BitVec 6) (f : Nat → Bool) : Res :=
  let w := s.hart.sew
  s.withSources ok [⟨a, w⟩] none fun xs =>
    s.elementwiseMask [⟨a, w⟩] d.toNat w (s.hart.getM m.toNat) fun e => f (pick xs 0 w e)

/-- No vector source (R237): every active element takes x. -/
def State.vec1 (s : State) (ok : Bool) (m : BitVec 4) (d : BitVec 6) (x : Nat) : Res :=
  let w := s.hart.sew
  s.withSources ok [] (some ⟨d, w⟩) fun _ => s.elementwise [] d w (s.hart.getM m.toNat) fun _ => x

/-- Two vector sources, and the destination read as a third (R236). -/
def State.vecAcc (s : State) (ok : Bool) (m : BitVec 4) (b a d : BitVec 6) (f : Nat → Nat → Nat → Nat) : Res :=
  let w := s.hart.sew
  let old := s.hart.getV d.toNat
  s.withSources ok [⟨a, w⟩, ⟨b, w⟩] (some ⟨d, w⟩) fun xs =>
    s.elementwise ([⟨a, w⟩, ⟨b, w⟩] ++ if isStream d then [] else [⟨d, w⟩]) d w (s.hart.getM m.toNat)
      fun e => f (pick xs 0 w e) (pick xs 1 w e) (elem old w e)

/-- A merge (R227, R232): the mask field selects, and every element of [vstart, g) is written. -/
def State.merge (s : State) (m : BitVec 4) (b a d : BitVec 6) : Res :=
  let w := s.hart.sew
  let sel := s.hart.getM m.toNat
  s.withSources true [⟨a, w⟩, ⟨b, w⟩] (some ⟨d, w⟩) fun xs =>
    s.elementwise [⟨a, w⟩, ⟨b, w⟩] d w (s.hart.getM 0)
      fun e => if sel.testBit e then pick xs 1 w e else pick xs 0 w e

/-- An integer form is accepted (R225). -/
def State.intFmt (s : State) : Bool := s.hart.fmt.isInt

/-- The scalar operand of an integer or any-format form (R226). -/
def State.intScalar (s : State) (x : BitVec 5) : Nat := (s.rs x).toNat % 2 ^ s.hart.sew

/-- Signed division at width w (R233). -/
def divSigned (w a b : Nat) : Nat :=
  if b = 0 then 2 ^ w - 1 else ofSigned w ((toSigned w a).tdiv (toSigned w b))

/-- Signed remainder at width w (R233). -/
def remSigned (w a b : Nat) : Nat :=
  if b = 0 then a else ofSigned w ((toSigned w a).tmod (toSigned w b))

/-- Signed less-than at width w. -/
def ltSigned (w a b : Nat) : Bool := decide (toSigned w a < toSigned w b)

/-- The shift count of an element (R232). -/
def shiftCount (w b : Nat) : Nat := b % w

/-- An arithmetic right shift at width w. -/
def sraAt (w a k : Nat) : Nat := ofSigned w (toSigned w a / (2 ^ k : Nat))

/-! Two sources (R232). -/

/-- vadd (R232). -/
def execVadd (m : BitVec 4) (vb va vd : BitVec 6) (s : State) : Res :=
  s.vec3 s.intFmt m vb va vd fun a b => a + b

/-- vsub (R232). -/
def execVsub (m : BitVec 4) (vb va vd : BitVec 6) (s : State) : Res :=
  let w := s.hart.sew
  s.vec3 s.intFmt m vb va vd fun a b => ofSigned w ((a : Int) - b)

/-- vrsub (R232). -/
def execVrsub (m : BitVec 4) (vb va vd : BitVec 6) (s : State) : Res :=
  let w := s.hart.sew
  s.vec3 s.intFmt m vb va vd fun a b => ofSigned w ((b : Int) - a)

/-- vmul (R232). -/
def execVmul (m : BitVec 4) (vb va vd : BitVec 6) (s : State) : Res :=
  s.vec3 s.intFmt m vb va vd fun a b => a * b

/-- vmulh (R232). -/
def execVmulh (m : BitVec 4) (vb va vd : BitVec 6) (s : State) : Res :=
  let w := s.hart.sew
  s.vec3 s.intFmt m vb va vd fun a b => ofSigned w ((toSigned w a * toSigned w b) / (2 ^ w : Nat))

/-- vmulhu (R232). -/
def execVmulhu (m : BitVec 4) (vb va vd : BitVec 6) (s : State) : Res :=
  let w := s.hart.sew
  s.vec3 s.intFmt m vb va vd fun a b => (a * b) / 2 ^ w

/-- vdiv (R232, R233). -/
def execVdiv (m : BitVec 4) (vb va vd : BitVec 6) (s : State) : Res :=
  let w := s.hart.sew
  s.vec3 s.intFmt m vb va vd fun a b => divSigned w a b

/-- vdivu (R232, R233). -/
def execVdivu (m : BitVec 4) (vb va vd : BitVec 6) (s : State) : Res :=
  let w := s.hart.sew
  s.vec3 s.intFmt m vb va vd fun a b => if b = 0 then 2 ^ w - 1 else a / b

/-- vrem (R232, R233). -/
def execVrem (m : BitVec 4) (vb va vd : BitVec 6) (s : State) : Res :=
  let w := s.hart.sew
  s.vec3 s.intFmt m vb va vd fun a b => remSigned w a b

/-- vremu (R232, R233). -/
def execVremu (m : BitVec 4) (vb va vd : BitVec 6) (s : State) : Res :=
  s.vec3 s.intFmt m vb va vd fun a b => if b = 0 then a else a % b

/-- vand (R232). -/
def execVand (m : BitVec 4) (vb va vd : BitVec 6) (s : State) : Res :=
  s.vec3 s.intFmt m vb va vd fun a b => a &&& b

/-- vor (R232). -/
def execVor (m : BitVec 4) (vb va vd : BitVec 6) (s : State) : Res :=
  s.vec3 s.intFmt m vb va vd fun a b => a ||| b

/-- vxor (R232). -/
def execVxor (m : BitVec 4) (vb va vd : BitVec 6) (s : State) : Res :=
  s.vec3 s.intFmt m vb va vd fun a b => a ^^^ b

/-- vsll (R232). -/
def execVsll (m : BitVec 4) (vb va vd : BitVec 6) (s : State) : Res :=
  let w := s.hart.sew
  s.vec3 s.intFmt m vb va vd fun a b => a <<< shiftCount w b

/-- vsrl (R232). -/
def execVsrl (m : BitVec 4) (vb va vd : BitVec 6) (s : State) : Res :=
  let w := s.hart.sew
  s.vec3 s.intFmt m vb va vd fun a b => a >>> shiftCount w b

/-- vsra (R232). -/
def execVsra (m : BitVec 4) (vb va vd : BitVec 6) (s : State) : Res :=
  let w := s.hart.sew
  s.vec3 s.intFmt m vb va vd fun a b => sraAt w a (shiftCount w b)

/-- vmin (R232). -/
def execVmin (m : BitVec 4) (vb va vd : BitVec 6) (s : State) : Res :=
  let w := s.hart.sew
  s.vec3 s.intFmt m vb va vd fun a b => if ltSigned w b a then b else a

/-- vmax (R232). -/
def execVmax (m : BitVec 4) (vb va vd : BitVec 6) (s : State) : Res :=
  let w := s.hart.sew
  s.vec3 s.intFmt m vb va vd fun a b => if ltSigned w a b then b else a

/-- vminu (R232). -/
def execVminu (m : BitVec 4) (vb va vd : BitVec 6) (s : State) : Res :=
  s.vec3 s.intFmt m vb va vd fun a b => min a b

/-- vmaxu (R232). -/
def execVmaxu (m : BitVec 4) (vb va vd : BitVec 6) (s : State) : Res :=
  s.vec3 s.intFmt m vb va vd fun a b => max a b

/-- vsadd (R232). -/
def execVsadd (m : BitVec 4) (vb va vd : BitVec 6) (s : State) : Res :=
  let w := s.hart.sew
  s.vec3 s.intFmt m vb va vd fun a b => ofSigned w (satSigned w (toSigned w a + toSigned w b))

/-- vsaddu (R232). -/
def execVsaddu (m : BitVec 4) (vb va vd : BitVec 6) (s : State) : Res :=
  let w := s.hart.sew
  s.vec3 s.intFmt m vb va vd fun a b => ofSigned w (satUnsigned w ((a : Int) + b))

/-- vssub (R232). -/
def execVssub (m : BitVec 4) (vb va vd : BitVec 6) (s : State) : Res :=
  let w := s.hart.sew
  s.vec3 s.intFmt m vb va vd fun a b => ofSigned w (satSigned w (toSigned w a - toSigned w b))

/-- vssubu (R232). -/
def execVssubu (m : BitVec 4) (vb va vd : BitVec 6) (s : State) : Res :=
  let w := s.hart.sew
  s.vec3 s.intFmt m vb va vd fun a b => ofSigned w (satUnsigned w ((a : Int) - b))

/-- vavg (R232). -/
def execVavg (m : BitVec 4) (vb va vd : BitVec 6) (s : State) : Res :=
  let w := s.hart.sew
  s.vec3 s.intFmt m vb va vd fun a b => ofSigned w ((toSigned w a + toSigned w b) / 2)

/-- vseq (R232). -/
def execVseq (m : BitVec 4) (vb va vd : BitVec 6) (s : State) : Res :=
  s.vec3m s.intFmt m vb va vd fun a b => decide (a = b)

/-- vsne (R232). -/
def execVsne (m : BitVec 4) (vb va vd : BitVec 6) (s : State) : Res :=
  s.vec3m s.intFmt m vb va vd fun a b => decide (a ≠ b)

/-- vslt (R232). -/
def execVslt (m : BitVec 4) (vb va vd : BitVec 6) (s : State) : Res :=
  let w := s.hart.sew
  s.vec3m s.intFmt m vb va vd fun a b => ltSigned w a b

/-- vsltu (R232). -/
def execVsltu (m : BitVec 4) (vb va vd : BitVec 6) (s : State) : Res :=
  s.vec3m s.intFmt m vb va vd fun a b => decide (a < b)

/-- vsle (R232). -/
def execVsle (m : BitVec 4) (vb va vd : BitVec 6) (s : State) : Res :=
  let w := s.hart.sew
  s.vec3m s.intFmt m vb va vd fun a b => !ltSigned w b a

/-- vsleu (R232). -/
def execVsleu (m : BitVec 4) (vb va vd : BitVec 6) (s : State) : Res :=
  s.vec3m s.intFmt m vb va vd fun a b => decide (a ≤ b)

/-- vmerge (R232). -/
def execVmerge (m : BitVec 4) (vb va vd : BitVec 6) (s : State) : Res := s.merge m vb va vd

/-! A scalar second operand (R237). -/

/-- vadds (R237). -/
def execVadds (m : BitVec 4) (sb : BitVec 5) (va vd : BitVec 6) (s : State) : Res :=
  let b := s.intScalar sb
  s.vec2 s.intFmt m va vd fun a => a + b

/-- vsubs (R237). -/
def execVsubs (m : BitVec 4) (sb : BitVec 5) (va vd : BitVec 6) (s : State) : Res :=
  let b := s.intScalar sb
  let w := s.hart.sew
  s.vec2 s.intFmt m va vd fun a => ofSigned w ((a : Int) - b)

/-- vrsubs (R237). -/
def execVrsubs (m : BitVec 4) (sb : BitVec 5) (va vd : BitVec 6) (s : State) : Res :=
  let b := s.intScalar sb
  let w := s.hart.sew
  s.vec2 s.intFmt m va vd fun a => ofSigned w ((b : Int) - a)

/-- vmuls (R237). -/
def execVmuls (m : BitVec 4) (sb : BitVec 5) (va vd : BitVec 6) (s : State) : Res :=
  let b := s.intScalar sb
  s.vec2 s.intFmt m va vd fun a => a * b

/-- vands (R237). -/
def execVands (m : BitVec 4) (sb : BitVec 5) (va vd : BitVec 6) (s : State) : Res :=
  let b := s.intScalar sb
  s.vec2 s.intFmt m va vd fun a => a &&& b

/-- vors (R237). -/
def execVors (m : BitVec 4) (sb : BitVec 5) (va vd : BitVec 6) (s : State) : Res :=
  let b := s.intScalar sb
  s.vec2 s.intFmt m va vd fun a => a ||| b

/-- vxors (R237). -/
def execVxors (m : BitVec 4) (sb : BitVec 5) (va vd : BitVec 6) (s : State) : Res :=
  let b := s.intScalar sb
  s.vec2 s.intFmt m va vd fun a => a ^^^ b

/-- vslls (R237). -/
def execVslls (m : BitVec 4) (sb : BitVec 5) (va vd : BitVec 6) (s : State) : Res :=
  let b := s.intScalar sb
  let w := s.hart.sew
  s.vec2 s.intFmt m va vd fun a => a <<< shiftCount w b

/-- vsrls (R237). -/
def execVsrls (m : BitVec 4) (sb : BitVec 5) (va vd : BitVec 6) (s : State) : Res :=
  let b := s.intScalar sb
  let w := s.hart.sew
  s.vec2 s.intFmt m va vd fun a => a >>> shiftCount w b

/-- vsras (R237). -/
def execVsras (m : BitVec 4) (sb : BitVec 5) (va vd : BitVec 6) (s : State) : Res :=
  let b := s.intScalar sb
  let w := s.hart.sew
  s.vec2 s.intFmt m va vd fun a => sraAt w a (shiftCount w b)

/-- vmins (R237). -/
def execVmins (m : BitVec 4) (sb : BitVec 5) (va vd : BitVec 6) (s : State) : Res :=
  let b := s.intScalar sb
  let w := s.hart.sew
  s.vec2 s.intFmt m va vd fun a => if ltSigned w b a then b else a

/-- vmaxs (R237). -/
def execVmaxs (m : BitVec 4) (sb : BitVec 5) (va vd : BitVec 6) (s : State) : Res :=
  let b := s.intScalar sb
  let w := s.hart.sew
  s.vec2 s.intFmt m va vd fun a => if ltSigned w a b then b else a

/-- vseqs (R237). -/
def execVseqs (m : BitVec 4) (sb : BitVec 5) (va vd : BitVec 6) (s : State) : Res :=
  let b := s.intScalar sb
  s.vec2m s.intFmt m va vd fun a => decide (a = b)

/-- vslts (R237). -/
def execVslts (m : BitVec 4) (sb : BitVec 5) (va vd : BitVec 6) (s : State) : Res :=
  let b := s.intScalar sb
  s.vec2m s.intFmt m va vd fun a => ltSigned s.hart.sew a b

/-- vsgts (R237). -/
def execVsgts (m : BitVec 4) (sb : BitVec 5) (va vd : BitVec 6) (s : State) : Res :=
  let b := s.intScalar sb
  s.vec2m s.intFmt m va vd fun a => ltSigned s.hart.sew b a

/-- vmvs (R237): any format. -/
def execVmvs (m : BitVec 4) (sb : BitVec 5) (vd : BitVec 6) (s : State) : Res := s.vec1 true m vd (s.intScalar sb)

/-! One source (R238). -/

/-- vmv (R238): any format. -/
def execVmv (m : BitVec 4) (va vd : BitVec 6) (s : State) : Res := s.vec2 true m va vd fun a => a

/-- vnot (R238). -/
def execVnot (m : BitVec 4) (va vd : BitVec 6) (s : State) : Res :=
  let w := s.hart.sew
  s.vec2 s.intFmt m va vd fun a => 2 ^ w - 1 - a

/-- vabs (R238): the most negative value stays itself. -/
def execVabs (m : BitVec 4) (va vd : BitVec 6) (s : State) : Res :=
  let w := s.hart.sew
  s.vec2 s.intFmt m va vd fun a => (toSigned w a).natAbs

/-- vneg (R238). -/
def execVneg (m : BitVec 4) (va vd : BitVec 6) (s : State) : Res :=
  let w := s.hart.sew
  s.vec2 s.intFmt m va vd fun a => ofSigned w (-(a : Int))

/-! Multiply and accumulate (R236). -/

/-- vmacc (R236). -/
def execVmacc (m : BitVec 4) (vb va vd : BitVec 6) (s : State) : Res := s.vecAcc s.intFmt m vb va vd fun a b d => d + a * b

/-- vnmsac (R236). -/
def execVnmsac (m : BitVec 4) (vb va vd : BitVec 6) (s : State) : Res :=
  let w := s.hart.sew
  s.vecAcc s.intFmt m vb va vd fun a b d => ofSigned w ((d : Int) - a * b)

/-- vmadd (R236). -/
def execVmadd (m : BitVec 4) (vb va vd : BitVec 6) (s : State) : Res := s.vecAcc s.intFmt m vb va vd fun a b d => a * d + b

/-- vnmsub (R236). -/
def execVnmsub (m : BitVec 4) (vb va vd : BitVec 6) (s : State) : Res :=
  let w := s.hart.sew
  s.vecAcc s.intFmt m vb va vd fun a b d => ofSigned w ((b : Int) - a * d)

end Sys2Proof.Machine
end

