-- ==== Sys2Proof/Machine/VecFloat.lean ====
section
/-! DEFINITION. Floating vector arithmetic and conversions (R225 to R242): majors 0x28 to 0x2B, the floating forms of 0x32 to
0x34, and the fused forms of 0x3C. -/

namespace Sys2Proof.Machine

/-- A floating form is accepted (R225). -/
def State.floatFmt (s : State) : Bool := s.hart.fmt.isVectorFloat

/-- The scalar operand of a floating form (R226): the FP64 value rounded to vt.fmt with RND. -/
def State.floatScalar (s : State) (x : BitVec 5) : Nat := convert s.hart.rnd .f64 s.hart.fmt (s.rs x).toNat

/-- a with its sign bit replaced (R234). -/
def withSign (f : Fmt) (a : Nat) (neg : Bool) : Nat := a % f.signBit + (if neg then f.signBit else 0)

/-- The sign bit of a pattern. -/
def signOf (f : Fmt) (a : Nat) : Bool := a.testBit (f.sew - 1)

/-- Equality of two patterns as numbers (R235). -/
def fpEq (f : Fmt) (a b : Nat) : Bool := (Num.decode f a).eq (.decode f b)

/-- Less-than of two patterns as numbers (R235). -/
def fpLt (f : Fmt) (a b : Nat) : Bool := (Num.decode f a).lt (.decode f b)

/-- Less-or-equal of two patterns as numbers (R235). -/
def fpLe (f : Fmt) (a b : Nat) : Bool := fpLt f a b || fpEq f a b

/-! Two sources (R234, R235). -/

/-- vfadd (R234). -/
def execVfadd (m : BitVec 4) (vb va vd : BitVec 6) (s : State) : Res :=
  let f := s.hart.fmt
  let r := s.hart.rnd
  s.vec3 s.floatFmt m vb va vd fun a b => fpAdd f r a b

/-- vfsub (R234). -/
def execVfsub (m : BitVec 4) (vb va vd : BitVec 6) (s : State) : Res :=
  let f := s.hart.fmt
  let r := s.hart.rnd
  s.vec3 s.floatFmt m vb va vd fun a b => fpSub f r a b

/-- vfmul (R234). -/
def execVfmul (m : BitVec 4) (vb va vd : BitVec 6) (s : State) : Res :=
  let f := s.hart.fmt
  let r := s.hart.rnd
  s.vec3 s.floatFmt m vb va vd fun a b => fpMul f r a b

/-- vfdiv (R234). -/
def execVfdiv (m : BitVec 4) (vb va vd : BitVec 6) (s : State) : Res :=
  let f := s.hart.fmt
  let r := s.hart.rnd
  s.vec3 s.floatFmt m vb va vd fun a b => fpDiv f r a b

/-- vfmin (R235). -/
def execVfmin (m : BitVec 4) (vb va vd : BitVec 6) (s : State) : Res :=
  let f := s.hart.fmt
  s.vec3 s.floatFmt m vb va vd fun a b => fpMinMax f false a b

/-- vfmax (R235). -/
def execVfmax (m : BitVec 4) (vb va vd : BitVec 6) (s : State) : Res :=
  let f := s.hart.fmt
  s.vec3 s.floatFmt m vb va vd fun a b => fpMinMax f true a b

/-- vfsgnj (R234). -/
def execVfsgnj (m : BitVec 4) (vb va vd : BitVec 6) (s : State) : Res :=
  let f := s.hart.fmt
  s.vec3 s.floatFmt m vb va vd fun a b => withSign f a (signOf f b)

/-- vfsgnjn (R234). -/
def execVfsgnjn (m : BitVec 4) (vb va vd : BitVec 6) (s : State) : Res :=
  let f := s.hart.fmt
  s.vec3 s.floatFmt m vb va vd fun a b => withSign f a (!signOf f b)

/-- vfsgnjx (R234). -/
def execVfsgnjx (m : BitVec 4) (vb va vd : BitVec 6) (s : State) : Res :=
  let f := s.hart.fmt
  s.vec3 s.floatFmt m vb va vd fun a b => withSign f a (signOf f a != signOf f b)

/-- vfeq (R235). -/
def execVfeq (m : BitVec 4) (vb va vd : BitVec 6) (s : State) : Res :=
  let f := s.hart.fmt
  s.vec3m s.floatFmt m vb va vd fun a b => fpEq f a b

/-- vfne (R235). -/
def execVfne (m : BitVec 4) (vb va vd : BitVec 6) (s : State) : Res :=
  let f := s.hart.fmt
  s.vec3m s.floatFmt m vb va vd fun a b => !fpEq f a b

/-- vflt (R235). -/
def execVflt (m : BitVec 4) (vb va vd : BitVec 6) (s : State) : Res :=
  let f := s.hart.fmt
  s.vec3m s.floatFmt m vb va vd fun a b => fpLt f a b

/-- vfle (R235). -/
def execVfle (m : BitVec 4) (vb va vd : BitVec 6) (s : State) : Res :=
  let f := s.hart.fmt
  s.vec3m s.floatFmt m vb va vd fun a b => fpLe f a b

/-- vfmerge (R234): bits moved unchanged, any format. -/
def execVfmerge (m : BitVec 4) (vb va vd : BitVec 6) (s : State) : Res := s.merge m vb va vd

/-! A scalar second operand (R237). -/

/-- vfadds (R237). -/
def execVfadds (m : BitVec 4) (sb : BitVec 5) (va vd : BitVec 6) (s : State) : Res :=
  let f := s.hart.fmt
  let r := s.hart.rnd
  let b := s.floatScalar sb
  s.vec2 s.floatFmt m va vd fun a => fpAdd f r a b

/-- vfsubs (R237). -/
def execVfsubs (m : BitVec 4) (sb : BitVec 5) (va vd : BitVec 6) (s : State) : Res :=
  let f := s.hart.fmt
  let r := s.hart.rnd
  let b := s.floatScalar sb
  s.vec2 s.floatFmt m va vd fun a => fpSub f r a b

/-- vfrsubs (R237). -/
def execVfrsubs (m : BitVec 4) (sb : BitVec 5) (va vd : BitVec 6) (s : State) : Res :=
  let f := s.hart.fmt
  let r := s.hart.rnd
  let b := s.floatScalar sb
  s.vec2 s.floatFmt m va vd fun a => fpSub f r b a

/-- vfmuls (R237). -/
def execVfmuls (m : BitVec 4) (sb : BitVec 5) (va vd : BitVec 6) (s : State) : Res :=
  let f := s.hart.fmt
  let r := s.hart.rnd
  let b := s.floatScalar sb
  s.vec2 s.floatFmt m va vd fun a => fpMul f r a b

/-- vfdivs (R237). -/
def execVfdivs (m : BitVec 4) (sb : BitVec 5) (va vd : BitVec 6) (s : State) : Res :=
  let f := s.hart.fmt
  let r := s.hart.rnd
  let b := s.floatScalar sb
  s.vec2 s.floatFmt m va vd fun a => fpDiv f r a b

/-- vfrdivs (R237). -/
def execVfrdivs (m : BitVec 4) (sb : BitVec 5) (va vd : BitVec 6) (s : State) : Res :=
  let f := s.hart.fmt
  let r := s.hart.rnd
  let b := s.floatScalar sb
  s.vec2 s.floatFmt m va vd fun a => fpDiv f r b a

/-- vfmins (R237). -/
def execVfmins (m : BitVec 4) (sb : BitVec 5) (va vd : BitVec 6) (s : State) : Res :=
  let f := s.hart.fmt
  let b := s.floatScalar sb
  s.vec2 s.floatFmt m va vd fun a => fpMinMax f false a b

/-- vfmaxs (R237). -/
def execVfmaxs (m : BitVec 4) (sb : BitVec 5) (va vd : BitVec 6) (s : State) : Res :=
  let f := s.hart.fmt
  let b := s.floatScalar sb
  s.vec2 s.floatFmt m va vd fun a => fpMinMax f true a b

/-- vfeqs (R237). -/
def execVfeqs (m : BitVec 4) (sb : BitVec 5) (va vd : BitVec 6) (s : State) : Res :=
  let f := s.hart.fmt
  let b := s.floatScalar sb
  s.vec2m s.floatFmt m va vd fun a => fpEq f a b

/-- vflts (R237). -/
def execVflts (m : BitVec 4) (sb : BitVec 5) (va vd : BitVec 6) (s : State) : Res :=
  let f := s.hart.fmt
  let b := s.floatScalar sb
  s.vec2m s.floatFmt m va vd fun a => fpLt f a b

/-- vfgts (R237). -/
def execVfgts (m : BitVec 4) (sb : BitVec 5) (va vd : BitVec 6) (s : State) : Res :=
  let f := s.hart.fmt
  let b := s.floatScalar sb
  s.vec2m s.floatFmt m va vd fun a => fpLt f b a

/-- vfmvs (R237). -/
def execVfmvs (m : BitVec 4) (sb : BitVec 5) (vd : BitVec 6) (s : State) : Res :=
  s.vec1 s.floatFmt m vd (s.floatScalar sb)

/-! One source (R238, R239). -/

/-- vfabs (R238). -/
def execVfabs (m : BitVec 4) (va vd : BitVec 6) (s : State) : Res :=
  let f := s.hart.fmt
  s.vec2 s.floatFmt m va vd fun a => withSign f a false

/-- vfneg (R238). -/
def execVfneg (m : BitVec 4) (va vd : BitVec 6) (s : State) : Res :=
  let f := s.hart.fmt
  s.vec2 s.floatFmt m va vd fun a => withSign f a (!signOf f a)

/-- vfsqrt (R238). -/
def execVfsqrt (m : BitVec 4) (va vd : BitVec 6) (s : State) : Res :=
  let f := s.hart.fmt
  let r := s.hart.rnd
  s.vec2 s.floatFmt m va vd fun a => (Num.decode f a).sqrt.round f r

/-- vfrecip (R238). -/
def execVfrecip (m : BitVec 4) (va vd : BitVec 6) (s : State) : Res :=
  let f := s.hart.fmt
  let r := s.hart.rnd
  s.vec2 s.floatFmt m va vd fun a => (Num.decode f a).recip.round f r

/-- vfrsqrt (R238). -/
def execVfrsqrt (m : BitVec 4) (va vd : BitVec 6) (s : State) : Res :=
  let f := s.hart.fmt
  let r := s.hart.rnd
  s.vec2 s.floatFmt m va vd fun a => (Num.decode f a).rsqrt.round f r

/-- vfclass (R239). -/
def execVfclass (m : BitVec 4) (va vd : BitVec 6) (s : State) : Res :=
  let f := s.hart.fmt
  s.vec2 s.floatFmt m va vd fun a => fpClass f a

/-! The fused multiply-add family (R236). -/

/-- vfmadd (R236). -/
def execVfmadd (m : BitVec 4) (vb va vd : BitVec 6) (s : State) : Res :=
  let f := s.hart.fmt
  let r := s.hart.rnd
  s.vecAcc s.floatFmt m vb va vd fun a b d => fpFma f r false false a b d

/-- vfmsub (R236). -/
def execVfmsub (m : BitVec 4) (vb va vd : BitVec 6) (s : State) : Res :=
  let f := s.hart.fmt
  let r := s.hart.rnd
  s.vecAcc s.floatFmt m vb va vd fun a b d => fpFma f r false true a b d

/-- vfnmadd (R236). -/
def execVfnmadd (m : BitVec 4) (vb va vd : BitVec 6) (s : State) : Res :=
  let f := s.hart.fmt
  let r := s.hart.rnd
  s.vecAcc s.floatFmt m vb va vd fun a b d => fpFma f r true true a b d

/-- vfnmsub (R236). -/
def execVfnmsub (m : BitVec 4) (vb va vd : BitVec 6) (s : State) : Res :=
  let f := s.hart.fmt
  let r := s.hart.rnd
  s.vecAcc s.floatFmt m vb va vd fun a b d => fpFma f r true false a b d

/-! Conversions and FP8 quantisation (R240 to R242). -/

/-- vcvt (R240): source elements are read at the width of the source format; more elements than a register of that
format holds are refused. -/
def execVcvt (src m : BitVec 4) (va vd : BitVec 6) (s : State) : Res :=
  let h := s.hart
  let from_ := (Fmt.ofCode src.toNat).getD .f64
  let w := from_.sew
  s.withSources (decide (h.vl.toNat ≤ h.mvl w)) [⟨va, w⟩] (some ⟨vd, h.sew⟩) fun xs =>
    s.elementwise [⟨va, w⟩] vd h.sew (h.getM m.toNat) fun e => convert h.rnd from_ h.fmt (pick xs 0 w e)

/-- What vquant and vdequant require (R241). -/
def State.quantFmt (s : State) : Bool :=
  s.hart.fmt.isFp8 && decide (s.hart.blk ≠ 0) && decide (s.hart.vl.toNat ≤ s.hart.mvl 32)

/-- The larger of two magnitudes. -/
def Num.larger (a b : Num) : Num := if a.lt b then b else a

/-- The magnitude of a number. -/
def Num.abs : Num → Num
  | .nan => .nan
  | .inf _ => .inf false
  | .zero _ => .zero false
  | .fin _ m e => .fin false m e

/-- amax of R217 over some values: the finite ones only; +0 when there is none. -/
def amax (xs : List Num) : Num :=
  xs.foldl (fun a x => match x with
    | .fin n m e => a.larger (Num.abs (.fin n m e))
    | _ => a) (.zero false)

/-- The scale of a block as an FP32 pattern (R217). -/
def blockScale (f : Fmt) (xs : List Num) : Nat :=
  match amax xs with
  | .zero _ => 0x3F800000
  | a =>
    let s := (Num.div a (.decode f f.maxBits)).round .f32 .rne
    if s < 0x00800000 then 0x00800000 else s

/-- The scales of some blocks written to a register (R241). -/
def State.writeScales (s : State) (n nb : Nat) (p : Nat → Bool) (scale : Nat → Nat) : State :=
  s.on fun k => (k.wrote n 32 fun b => decide (b < nb) && p b).setV n (pack 32 (k.mvl 32) fun b =>
    if b < nb && p b then scale b else elem (k.getV n) 32 b)

/-- vquant (R241). Where it stops inside, the scales of the blocks that it has begun are written with their elements; a form that resumes
on a stream, which gives the elements below vstart no more (R155), takes those scales from there (DESIGN CHOICE, log 35). -/
def execVquant (m : BitVec 4) (va vd : BitVec 6) (s : State) : Res :=
  let h := s.hart
  let f := h.fmt
  let mask := h.getM m.toNat
  s.withSources s.quantFmt [⟨va, 32⟩] (some ⟨vd, 8⟩) fun xs =>
    if h.isEmpty (vd + 1) then s.waitFor .emptyRegister
    else
      let nb := h.vl.toNat / h.blk
      let value := fun e => Num.decode .f32 (pick xs 0 32 e)
      let scales := (List.range nb).map fun b => blockScale f
        (((List.range h.blk).map fun k => h.blk * b + k).filterMap fun e =>
          if mask.testBit e && decide (e < h.g) then some (value e) else none)
      let begun := fun b => decide (h.blk * b < h.vstart.toNat)
      let taken := fun b => isStream va && begun b
      let scale := fun b => if taken b then elem (h.getV (vd.toNat + 1)) 32 b else scales.getD b 0
      let first := h.vstart.toNat / h.blk
      let lost := taken first && h.parity.elem (.v (vd.toNat + 1) (first / 2))
      let cut := if lost then some (h.vstart.toNat, .bad 1) else h.cutInside true [⟨va, 32⟩] mask
      let s := match cut with
        | some (e, _) => s.writeScales (vd.toNat + 1) nb (fun b => !begun b && decide (h.blk * b < h.groupStart 8 e)) scale
        | none => s
      s.elementwiseCut cut [⟨va, 32⟩] vd 8 mask
        (fun e => (Num.div (value e) (.decode .f32 (scale (e / h.blk)))).round f .rne)
        fun t => (t.fresh).on fun k => (k.wrote (vd.toNat + 1) 32 fun e => decide (e < nb) && !taken e).setV (vd.toNat + 1) (pack 32 (h.mvl 32) fun e =>
          let old := elem (k.getV (vd.toNat + 1)) 32 e
          if e < nb then scale e
          else match h.tailPolicy with
            | 0 => old
            | 1 => if Config.keepsTail t.free e then old else 0
            | _ => 0)

/-- vdequant (R242). -/
def execVdequant (m : BitVec 4) (va vd : BitVec 6) (s : State) : Res :=
  let h := s.hart
  let mask := h.getM m.toNat
  let scaleLost := if h.parity.isEmpty then none else
    (h.activeFrom mask).findSome? fun e => (h.badIn ⟨va + 1, 32⟩ 0 (e / h.blk)).map fun sub => (e, Cut.bad sub)
  s.withSources s.quantFmt [⟨va, 8⟩, ⟨va + 1, 32⟩] (some ⟨vd, 32⟩) fun xs =>
    s.elementwiseCut (firstCut (h.cutInside (!isStream vd) [⟨va, 8⟩] mask) scaleLost) [⟨va, 8⟩] vd 32 mask
      (fun e => (Num.mul (.decode h.fmt (pick xs 0 8 e)) (.decode .f32 (pick xs 1 32 (e / h.blk)))).round .f32 h.rnd) id

end Sys2Proof.Machine
end

