-- ==== Sys2Proof/Machine/VecCross.lean ====
section
/-! DEFINITION. Cross-lane vector forms (R243 to R249): reductions, scans and segmented sums, permutes, slides, index
generation and mask operations. -/

namespace Sys2Proof.Machine

/-- A cross-lane form (R229): it reads all of its sources before it begins, and writes vector register d by R137. -/
def State.crossLane (s : State) (ok : Bool) (srcs : List Source) (d : BitVec 6) (mask : Nat) (new : List Nat → Nat → Nat) :
    Res :=
  let w := s.hart.sew
  s.withWhole ok srcs (some ⟨d, w⟩) fun xs =>
    ((s.writeV d.toNat w mask none (new xs)).consumeAll srcs).vectorDone

/-- A tail element under the tail policy (R137). -/
def Hart.tailElem (h : Hart) (keeps : Nat → Bool) (old e : Nat) : Nat :=
  match h.tailPolicy with
  | 0 => old
  | 1 => if keeps e then old else 0
  | _ => 0

/-! Reductions, scans, segments. -/

/-- Position e contributes to a reduction (R222): active, and not padding. -/
def Hart.contributes (h : Hart) (mask e : Nat) : Bool := mask.testBit e && decide (e < h.g)

/-- The contributing elements at positions lo to lo + n - 1, ascending. -/
def Hart.contributors (h : Hart) (mask lo n : Nat) (x : Nat → Nat) : List Nat :=
  (List.range n).filterMap fun k => if h.contributes mask (lo + k) then some (x (lo + k)) else none

/-- The ordered combination of R222 with no initial value: +0 when nothing contributes. -/
def ordered (op : Nat → Nat → Nat) : List Nat → Nat
  | [] => 0
  | x :: rest => rest.foldl op x

/-- T(lo, 2^k) of R223. -/
def tree (op : Nat → Nat → Nat) (x : Nat → Option Nat) : Nat → Nat → Option Nat
  | 0, lo => x lo
  | k + 1, lo => match tree op x k lo, tree op x k (lo + 2 ^ k) with
    | none, b => b
    | a, none => a
    | some a, some b => some (op a b)

/-- log2 of n' of R223: the smallest power of two at least vl, or 1. -/
def Hart.treeHeight (h : Hart) : Nat := bitLength (h.vl.toNat - 1)

/-- The tree over the contributing positions up to `top` (R223, R224). -/
def Hart.treeSum (h : Hart) (op : Nat → Nat → Nat) (mask top : Nat) (x : Nat → Nat) : Option Nat :=
  tree op (fun e => if h.contributes mask e && decide (e ≤ top) then some (x e) else none) h.treeHeight 0

/-- A reduction (R243): the initial value is element 0 of vd; `combine` gives the result from it and the packed source. -/
def State.reduce (s : State) (ok : Bool) (va vd : BitVec 6) (combine : Nat → (Nat → Nat) → Nat) : Res :=
  let h := s.hart
  let w := h.sew
  s.withWhole ok [⟨va, w⟩] (some ⟨vd, w⟩) fun xs =>
    let t := s.consumeAll [⟨va, w⟩]
    if h.vl = 0 then t.vectorDone
    else if h.parity.elem (.v vd.toNat 0) then s.takeTrap 8 1 0 0 none
    else
      let old := h.getV vd.toNat
      let r := combine (elem old w 0) fun e => pick xs 0 w e
      ((t.fresh).on fun k => (k.wrote vd.toNat w fun e => decide (e = 0)).setV vd.toNat (pack w (h.mvl w) fun e =>
        if e = 0 then r else h.tailElem (Config.keepsTail t.free) (elem old w e) e)).vectorDone

/-- The ordered reduction (R222). -/
def State.reduceOrdered (s : State) (ok : Bool) (m : BitVec 4) (va vd : BitVec 6) (op : Nat → Nat → Nat) : Res :=
  s.reduce ok va vd fun init x => (s.hart.contributors (s.hart.getM m.toNat) 0 s.hart.g x).foldl op init

/-- The tree reduction (R223). -/
def State.reduceTree (s : State) (ok : Bool) (m : BitVec 4) (va vd : BitVec 6) (op : Nat → Nat → Nat) : Res :=
  s.reduce ok va vd fun init x => match s.hart.treeSum op (s.hart.getM m.toNat) s.hart.g x with
    | some r => op init r
    | none => init

/-- A scan (R244): `combine` gives element e from the packed source. -/
def State.scanWith (s : State) (ok : Bool) (m : BitVec 4) (va vd : BitVec 6) (combine : (Nat → Nat) → Nat → Nat) : Res :=
  let w := s.hart.sew
  s.crossLane ok [⟨va, w⟩] vd (s.hart.getM m.toNat) fun xs e => combine (fun i => pick xs 0 w i) e

/-- The ordered scan (R224). -/
def State.scanOrdered (s : State) (ok : Bool) (m : BitVec 4) (va vd : BitVec 6) (op : Nat → Nat → Nat) : Res :=
  s.scanWith ok m va vd fun x e => ordered op (s.hart.contributors (s.hart.getM m.toNat) 0 (e + 1) x)

/-- The tree scan (R224). -/
def State.scanTree (s : State) (ok : Bool) (m : BitVec 4) (va vd : BitVec 6) (op : Nat → Nat → Nat) : Res :=
  s.scanWith ok m va vd fun x e => (s.hart.treeSum op (s.hart.getM m.toNat) e x).getD 0

/-- The starts of the segments below g (R245). -/
def Hart.segments (h : Hart) (bound : Nat) : List Nat :=
  (List.range h.g).filter fun e => decide (e = 0) || bound.testBit e

/-- A segmented sum or scan (R245). -/
def State.segmented (s : State) (ok scan : Bool) (m : BitVec 4) (vb va vd : BitVec 6) (op : Nat → Nat → Nat) : Res :=
  let h := s.hart
  let w := h.sew
  let mask := h.getM m.toNat
  let starts := h.segments (h.getM vb.toNat)
  s.crossLane ok [⟨va, w⟩] vd (if scan then mask else h.getM 0) fun xs e =>
    let x := fun i => pick xs 0 w i
    if scan then
      let lo := (starts.filter fun b => decide (b ≤ e)).getLastD 0
      ordered op (h.contributors mask lo (e + 1 - lo) x)
    else match starts[e]? with
      | none => 0
      | some lo => ordered op (h.contributors mask lo ((starts[e + 1]?).getD h.g - lo) x)

/-- RND(x + y) at vt (R222). -/
def State.fpSum (s : State) (x y : Nat) : Nat := fpAdd s.hart.fmt s.hart.rnd x y

/-- Addition modulo 2^SEW. -/
def State.intSum (s : State) (x y : Nat) : Nat := (x + y) % 2 ^ s.hart.sew

/-- vredsum.o (R243). -/
def execVredsumO (m : BitVec 4) (va vd : BitVec 6) (s : State) : Res :=
  s.reduceOrdered s.intFmt m va vd s.intSum

/-- vredsum.t (R243). -/
def execVredsumT (m : BitVec 4) (va vd : BitVec 6) (s : State) : Res :=
  s.reduceTree s.intFmt m va vd s.intSum

/-- vredmin (R243). -/
def execVredmin (m : BitVec 4) (va vd : BitVec 6) (s : State) : Res :=
  s.reduceOrdered s.intFmt m va vd fun x y => if ltSigned s.hart.sew y x then y else x

/-- vredmax (R243). -/
def execVredmax (m : BitVec 4) (va vd : BitVec 6) (s : State) : Res :=
  s.reduceOrdered s.intFmt m va vd fun x y => if ltSigned s.hart.sew x y then y else x

/-- vredand (R243). -/
def execVredand (m : BitVec 4) (va vd : BitVec 6) (s : State) : Res :=
  s.reduceOrdered s.intFmt m va vd fun x y => x &&& y

/-- vredor (R243). -/
def execVredor (m : BitVec 4) (va vd : BitVec 6) (s : State) : Res :=
  s.reduceOrdered s.intFmt m va vd fun x y => x ||| y

/-- vredxor (R243). -/
def execVredxor (m : BitVec 4) (va vd : BitVec 6) (s : State) : Res :=
  s.reduceOrdered s.intFmt m va vd fun x y => x ^^^ y

/-- vfredsum.o (R243). -/
def execVfredsumO (m : BitVec 4) (va vd : BitVec 6) (s : State) : Res :=
  s.reduceOrdered s.floatFmt m va vd s.fpSum

/-- vfredsum.t (R243). -/
def execVfredsumT (m : BitVec 4) (va vd : BitVec 6) (s : State) : Res :=
  s.reduceTree s.floatFmt m va vd s.fpSum

/-- vfredmin (R243). -/
def execVfredmin (m : BitVec 4) (va vd : BitVec 6) (s : State) : Res :=
  s.reduceOrdered s.floatFmt m va vd (fpMinMax s.hart.fmt false)

/-- vfredmax (R243). -/
def execVfredmax (m : BitVec 4) (va vd : BitVec 6) (s : State) : Res :=
  s.reduceOrdered s.floatFmt m va vd (fpMinMax s.hart.fmt true)

/-- vscan.o (R244). -/
def execVscanO (m : BitVec 4) (va vd : BitVec 6) (s : State) : Res :=
  s.scanOrdered s.intFmt m va vd s.intSum

/-- vscan.t (R244). -/
def execVscanT (m : BitVec 4) (va vd : BitVec 6) (s : State) : Res :=
  s.scanTree s.intFmt m va vd s.intSum

/-- vfscan.o (R244). -/
def execVfscanO (m : BitVec 4) (va vd : BitVec 6) (s : State) : Res :=
  s.scanOrdered s.floatFmt m va vd s.fpSum

/-- vfscan.t (R244). -/
def execVfscanT (m : BitVec 4) (va vd : BitVec 6) (s : State) : Res :=
  s.scanTree s.floatFmt m va vd s.fpSum

/-- vsegsum (R245). -/
def execVsegsum (m : BitVec 4) (vb va vd : BitVec 6) (s : State) : Res :=
  s.segmented s.intFmt false m vb va vd s.intSum

/-- vfsegsum (R245). -/
def execVfsegsum (m : BitVec 4) (vb va vd : BitVec 6) (s : State) : Res :=
  s.segmented s.floatFmt false m vb va vd s.fpSum

/-- vsegscan (R245). -/
def execVsegscan (m : BitVec 4) (vb va vd : BitVec 6) (s : State) : Res :=
  s.segmented s.intFmt true m vb va vd s.intSum

/-- vfsegscan (R245). -/
def execVfsegscan (m : BitVec 4) (vb va vd : BitVec 6) (s : State) : Res :=
  s.segmented s.floatFmt true m vb va vd s.fpSum

/-! Permutes (R246). -/

/-- vrgather (R246). -/
def execVrgather (m : BitVec 4) (vb va vd : BitVec 6) (s : State) : Res :=
  let w := s.hart.sew
  let g := s.hart.g
  s.crossLane true [⟨va, w⟩, ⟨vb, w⟩] vd (s.hart.getM m.toNat) fun xs e =>
    let i := pick xs 1 w e
    if i < g then pick xs 0 w i else 0

/-- vcompress (R246): the mask field selects; elements behind the packed ones are tail elements. -/
def execVcompress (m : BitVec 4) (va vd : BitVec 6) (s : State) : Res :=
  let h := s.hart
  let w := h.sew
  let mask := h.getM m.toNat
  let sel := (List.range h.g).filter fun e => mask.testBit e
  s.withWhole true [⟨va, w⟩] (some ⟨vd, w⟩) fun xs =>
    let t := s.consumeAll [⟨va, w⟩]
    let old := h.getV vd.toNat
    ((t.fresh).on fun k => (k.wrote vd.toNat w fun e => decide (h.vstart.toNat ≤ e) && decide (e < sel.length)).setV vd.toNat (pack w (h.mvl w) fun e =>
      if e < h.vstart.toNat then elem old w e
      else match sel[e]? with
        | some i => pick xs 0 w i
        | none => h.tailElem (Config.keepsTail t.free) (elem old w e) e)).vectorDone

/-- vzip (R246). -/
def execVzip (m : BitVec 4) (vb va vd : BitVec 6) (s : State) : Res :=
  let w := s.hart.sew
  s.crossLane true [⟨va, w⟩, ⟨vb, w⟩] vd (s.hart.getM m.toNat) fun xs e => pick xs (e % 2) w (e / 2)

/-- vunzip (R246). -/
def execVunzip (m : BitVec 4) (vb va vd : BitVec 6) (s : State) : Res :=
  let w := s.hart.sew
  let g := s.hart.g
  s.crossLane true [⟨va, w⟩, ⟨vb, w⟩] vd (s.hart.getM m.toNat) fun xs e =>
    if 2 * e < g then pick xs 0 w (2 * e) else pick xs 1 w (2 * e - g)

/-! Slides and index generation (R247). -/

/-- vslideup (R247): elements below s, active or not, stay unchanged. -/
def execVslideup (m : BitVec 4) (sb : BitVec 5) (va vd : BitVec 6) (s : State) : Res :=
  let h := s.hart
  let w := h.sew
  let n := min (s.rs sb).toNat h.g
  s.withWhole true [⟨va, w⟩] (some ⟨vd, w⟩) fun xs =>
    ((s.writeBut vd.toNat w (h.getM m.toNat ||| (2 ^ n - 1)) none (fun e => decide (e < n)) fun e =>
      if e < n then elem (h.getV vd.toNat) w e else pick xs 0 w (e - n)).consumeAll [⟨va, w⟩]).vectorDone

/-- vslidedown (R247). -/
def execVslidedown (m : BitVec 4) (sb : BitVec 5) (va vd : BitVec 6) (s : State) : Res :=
  let h := s.hart
  let w := h.sew
  let n := min (s.rs sb).toNat h.g
  s.crossLane true [⟨va, w⟩] vd (h.getM m.toNat) fun xs e => if e + n < h.g then pick xs 0 w (e + n) else 0

/-- A slide up by one (R247). -/
def State.slideUpOne (s : State) (ok : Bool) (m : BitVec 4) (va vd : BitVec 6) (x : Nat) : Res :=
  let w := s.hart.sew
  s.crossLane ok [⟨va, w⟩] vd (s.hart.getM m.toNat) fun xs e => if e = 0 then x else pick xs 0 w (e - 1)

/-- A slide down by one (R247). -/
def State.slideDownOne (s : State) (ok : Bool) (m : BitVec 4) (va vd : BitVec 6) (x : Nat) : Res :=
  let h := s.hart
  let w := h.sew
  s.crossLane ok [⟨va, w⟩] vd (h.getM m.toNat) fun xs e => if e + 1 = h.g then x else pick xs 0 w (e + 1)

/-- vslide1up (R247). -/
def execVslide1up (m : BitVec 4) (sb : BitVec 5) (va vd : BitVec 6) (s : State) : Res :=
  s.slideUpOne true m va vd (s.intScalar sb)

/-- vslide1down (R247). -/
def execVslide1down (m : BitVec 4) (sb : BitVec 5) (va vd : BitVec 6) (s : State) : Res :=
  s.slideDownOne true m va vd (s.intScalar sb)

/-- vfslide1up (R247). -/
def execVfslide1up (m : BitVec 4) (sb : BitVec 5) (va vd : BitVec 6) (s : State) : Res :=
  s.slideUpOne s.floatFmt m va vd (s.floatScalar sb)

/-- vfslide1down (R247). -/
def execVfslide1down (m : BitVec 4) (sb : BitVec 5) (va vd : BitVec 6) (s : State) : Res :=
  s.slideDownOne s.floatFmt m va vd (s.floatScalar sb)

/-- viota (R247). -/
def execViota (m : BitVec 4) (va vd : BitVec 6) (s : State) : Res :=
  let mask := s.hart.getM m.toNat
  let both := mask &&& s.hart.getM va.toNat
  s.crossLane s.intFmt [] vd mask fun _ e => popCount e both

/-- vid (R247). -/
def execVid (m : BitVec 4) (sb : BitVec 5) (vd : BitVec 6) (s : State) : Res :=
  let x := s.intScalar sb
  s.crossLane s.intFmt [] vd (s.hart.getM m.toNat) fun _ e => e + x

/-! Mask operations (R248, R249). -/

/-- A combination of two mask registers (R248). -/
def State.maskPair (s : State) (vb va vd : BitVec 6) (f : Bool → Bool → Bool) : Res :=
  let a := s.hart.getM va.toNat
  let b := s.hart.getM vb.toNat
  s.elementwiseMask [] vd.toNat s.hart.sew (s.hart.getM 0) fun e => f (a.testBit e) (b.testBit e)

/-- mand (R248). -/
def execMand (vb va vd : BitVec 6) (s : State) : Res := s.maskPair vb va vd fun a b => a && b

/-- mor (R248). -/
def execMor (vb va vd : BitVec 6) (s : State) : Res := s.maskPair vb va vd fun a b => a || b

/-- mxor (R248). -/
def execMxor (vb va vd : BitVec 6) (s : State) : Res := s.maskPair vb va vd fun a b => a != b

/-- mandn (R248). -/
def execMandn (vb va vd : BitVec 6) (s : State) : Res := s.maskPair vb va vd fun a b => a && !b

/-- The active positions at which ma is set (R249). -/
def Hart.hits (h : Hart) (m : BitVec 4) (va : BitVec 6) : List Nat :=
  (List.range h.g).filter fun e => (h.getM m.toNat).testBit e && (h.getM va.toNat).testBit e

/-- mnot (R249). -/
def execMnot (m : BitVec 4) (va vd : BitVec 6) (s : State) : Res :=
  let a := s.hart.getM va.toNat
  s.elementwiseMask [] vd.toNat s.hart.sew (s.hart.getM m.toNat) fun e => !a.testBit e

/-- mfirst (R249). -/
def execMfirst (m : BitVec 4) (va vd : BitVec 6) (s : State) : Res :=
  (s.ws (vd.setWidth 5) (match (s.hart.hits m va).head? with
    | some f => BitVec.ofNat 64 f
    | none => -1)).vectorDone

/-- mpopc (R249). -/
def execMpopc (m : BitVec 4) (va vd : BitVec 6) (s : State) : Res :=
  (s.ws (vd.setWidth 5) (BitVec.ofNat 64 (s.hart.hits m va).length)).vectorDone

/-- A mask written from the lowest hit f, if any (R249). -/
def State.maskFirst (s : State) (m : BitVec 4) (va vd : BitVec 6) (f : Option Nat → Nat → Bool) : Res :=
  let first := (s.hart.hits m va).head?
  (s.writeM vd.toNat s.hart.sew (s.hart.getM m.toNat) none (f first)).vectorDone

/-- msbf (R249). -/
def execMsbf (m : BitVec 4) (va vd : BitVec 6) (s : State) : Res :=
  s.maskFirst m va vd fun f e => match f with
    | some i => decide (e < i)
    | none => true

/-- msif (R249). -/
def execMsif (m : BitVec 4) (va vd : BitVec 6) (s : State) : Res :=
  s.maskFirst m va vd fun f e => match f with
    | some i => decide (e ≤ i)
    | none => true

/-- msof (R249). -/
def execMsof (m : BitVec 4) (va vd : BitVec 6) (s : State) : Res :=
  s.maskFirst m va vd fun f e => match f with
    | some i => decide (e = i)
    | none => false

end Sys2Proof.Machine
end

