-- ==== Sys2Proof/Machine/VectorLen.lean ====
section
/-! DEFINITION. Granting the vector length: major 0x0B (R88, R106 to R108). -/

namespace Sys2Proof.Machine

/-- The grant of R106 for n elements with block length B: vl and vl.pad. -/
def grant (n B mvl : Nat) : Nat × Nat :=
  if B = 0 then (min n mvl, 0)
  else if n = 0 then (0, 0)
  else if n < B then (B, B - n)
  else (min (n - n % B) mvl, 0)

/-- vl and vl.pad set. -/
def Hart.setVl (h : Hart) (g : Nat × Nat) : Hart :=
  { h with vl := BitVec.ofNat 11 g.1, vlPad := BitVec.ofNat 7 g.2 }

/-- The block length of a blk code (R37). -/
def blockLength (b : BitVec 2) : Nat := if b = 0 then 0 else 16 * 2 ^ b.toNat

/-- The harts of the same core that hold a task, other than this one. -/
def State.coMates (s : State) (h : Hart) : List Hart :=
  s.harts.filter fun k =>
    k.active && !k.id.control && decide (k.id ≠ h.id) && decide (globalCore k.id = globalCore h.id)

/-- The pending split applied to the whole core (R88). -/
def State.applySplit (s : State) (c : Nat) (n : BitVec 2) : State :=
  let s := s.onCore c fun _ => { s.core c with split := n, pending := none }
  s.updateAll fun h => if !h.id.control && decide (globalCore h.id = c) then { h with split := n } else h

/-- Row r of a register of the hart holds no element below vl (R35). -/
def Hart.unreached (h : Hart) (r : Nat) : Bool := decide (h.vl.toNat ≤ r * (h.lanes * (64 / h.sew)))

/-- A vl set under tail-dead (R35): the rows that it does not reach return to the row pool, for every architectural register.
Until an instruction writes them, each of their slots reads as its old value or as zero, as a free value says (log 46). -/
def State.returnRows (s : State) : State :=
  let h := s.hart
  if h.tailPolicy ≠ 1 || !h.unreached 3 then s
  else
    let gone := fun (n r : Nat) => h.unreached r && !h.inPool n r
    (s.fresh).on fun k => { k with
      v := Vector.ofFn fun (i : Fin 48) => BitVec.ofNat 8192 (pack 64 (4 * h.lanes) fun j =>
        if gone i.val (j / h.lanes) && !Config.keepsRow s.free i.val j then 0 else elem (h.getV i.val) 64 j)
      pooled := h.pooled.map fun b => b ||| BitVec.ofNat 4 (pack 1 4 fun r => if h.unreached r then 1 else 0) }

/-- setvl (R106). Its wait for a pending split ends when every other hart of the core that holds a task stands at a
SETVL boundary (R88). -/
def execSetvl (p : BitVec 1) (t b : BitVec 2) (f : BitVec 4) (a d : BitVec 5) (s : State) : Res :=
  let h := s.hart
  let c := globalCore h.id
  let split := (s.core c).pending.getD h.split
  let sew := ((Fmt.ofCode f.toNat).getD .f64).sew
  let mvl := 4 * (32 / 2 ^ split.toNat) * (64 / sew)
  let B := blockLength b
  if B > mvl then s.badConfig
  else if (s.core c).pending.isSome && (s.coMates h).any (·.setvlDone) then s.waitFor .split
  else
    let s := if (s.core c).pending.isSome then s.applySplit c split else s
    let g := grant (s.rs a).toNat B mvl
    let s := s.on fun h => { h.setVl g with
      setvlDone := true
      vt := BitVec.ofNat 11 (bits h.vt.toNat 10 9 * 512 + p.toNat * 256 + t.toNat * 64 + b.toNat * 16 + f.toNat) }
    s.returnRows.give d (BitVec.ofNat 64 (g.1 - g.2))

/-- setsw (R107). -/
def execSetsw (a d : BitVec 5) (s : State) : Res :=
  let x := (s.rs a).toNat
  let t := s.hart.sw
  let s := s.on fun h => { h with
    sw := BitVec.ofNat 16 (bits x 1 0 + bits x 5 4 * 16 + bits x 9 8 * 256 + bits x 13 12 * 4096) }
  s.give d (t.setWidth 64)

/-- getvt (R107). -/
def execGetvt (d : BitVec 5) (s : State) : Res := s.give d (s.hart.vt.setWidth 64)

/-- getsw (R107). -/
def execGetsw (d : BitVec 5) (s : State) : Res := s.give d (s.hart.sw.setWidth 64)

/-- setrm (R107). -/
def execSetrm (a d : BitVec 5) (s : State) : Res :=
  let x := (s.rs a).toNat
  let t := bits s.hart.vt.toNat 10 9
  let s := s.on fun h => { h with vt := BitVec.ofNat 11 (h.vt.toNat % 512 + bits x 1 0 * 512) }
  s.give d (BitVec.ofNat 64 t)

/-- The pointer registers of a strip, each advanced by g elements of its width (R38, R108). -/
def Hart.advancePointers (h : Hart) (g : Nat) (p : BitVec 5) : Nat → Hart
  | 0 => h
  | k + 1 =>
    let h := h.advancePointers g p k
    let r := p + BitVec.ofNat 5 k
    h.setS r (h.getS r + BitVec.ofNat 64 (g * 2 ^ bits h.sw.toNat (4 * k + 1) (4 * k)))

/-- strip (R108). Bit 31 of the word is the sign of its offset. -/
def execStrip (o : BitVec 10) (n : BitVec 2) (p c : BitVec 5) (s : State) : Res :=
  let g := s.hart.g
  let rem := (s.rs c).toNat - g
  let s := s.on fun h => h.advancePointers g p (n.toNat + 1)
  let s := s.ws c (BitVec.ofNat 64 rem)
  let s := (s.on fun h => h.setVl (grant rem h.blk (h.mvl h.sew))).returnRows
  .next (if rem ≠ 0 then s.jump (s.hart.pc + (((1#1 ++ o).signExtend 48) <<< 1)) else s.skip 4)

end Sys2Proof.Machine
end

