-- ==== Sys2Proof/Machine/VectorMem.lean ====
section
/-! DEFINITION. Vector memory: majors 0x10 to 0x18 (R136 to R139, R143 to R151). The elements of one access are checked
in increasing order; those below the first that stops are performed in increasing order, so that the highest index
supplies the final value of a byte (R144). -/

namespace Sys2Proof.Machine

/-- A checked element: its index, its address, and where its bytes lie. -/
structure Checked where
  e : Nat
  va : Nat
  ps : List Piece
deriving DecidableEq, Repr

/-- The elements that pass their checks, and the first element that stops. -/
structure Scan where
  ok : List Checked
  cut : Option (Nat × Cut)
deriving DecidableEq, Repr

/-- The check of one element of n bytes at va (R136): aligned, then translated and permitted. A local-store form
reaches only the window (R139). -/
def State.checkElement (s : State) (window : Bool) (p : Perm) (va n : Nat) : Except Stop (List Piece) :=
  if va % n ≠ 0 then .error (.trap 4 0 va)
  else if window && !inWindow va then .error (.trap 6 0 va)
  else s.pieces s.hart window p va n

/-- What an access can lose before it reaches memory (R313): the subcode of an element whose index is lost, which comes before its
address, and of one whose data are. -/
structure Losses where
  index : Nat → Option Nat
  data : Nat → Option Nat

/-- An access with no vector source. -/
def Losses.none : Losses := ⟨fun _ => .none, fun _ => .none⟩

/-- The elements checked in order, up to the first that stops (R136, R301). -/
def State.scanElements (s : State) (window : Bool) (p : Perm) (n : Nat) (addr : Nat → Nat) (l : Losses) : List Nat → Scan
  | [] => ⟨[], none⟩
  | e :: rest => match l.index e, s.checkElement window p (addr e) n, l.data e with
    | some sub, _, _ => ⟨[], some (e, .bad sub)⟩
    | none, .error x, _ => ⟨[], some (e, .stop x)⟩
    | none, .ok _, some sub => ⟨[], some (e, .bad sub)⟩
    | none, .ok ps, none =>
      let r := s.scanElements window p n addr l rest
      ⟨⟨e, addr e, ps⟩ :: r.ok, r.cut⟩

/-- The elements of an access checked, with the breakpoint that may stop it before one (R305). -/
def State.scan (s : State) (window : Bool) (p : Perm) (n : Nat) (addr : Nat → Nat) (l : Losses) (mask : Nat)
    (brk : Option (Nat × Nat)) : Scan :=
  match brk with
  | none => s.scanElements window p n addr l (s.hart.activeFrom mask)
  | some (i, b) =>
    let r := s.scanElements window p n addr l ((s.hart.activeFrom mask).filter (· < b))
    match r.cut with
    | some _ => r
    | none => ⟨r.ok, some (b, .brk i)⟩

/-- What a load loses: its index. -/
def Hart.loadLosses (h : Hart) (index : List Source) : Losses := ⟨h.badElement index, fun _ => none⟩

/-- What a store or an atomic scatter loses: its data, which consume first (R138), and its index. -/
def Hart.storeLosses (h : Hart) (data : Source) (index : List Source) : Losses :=
  ⟨fun e => index.findSome? fun x => h.badIn x (occurrences x.field [data]) e, h.badIn data 0⟩

/-- A byte of some active element lies in the local-store window. -/
def Hart.touchesWindow (h : Hart) (mask n : Nat) (addr : Nat → Nat) : Bool :=
  (h.activeFrom mask).any fun e => meetsWindow (addr e) n

/-- The loads of checked elements noted, up to an abort of the hart's own region. -/
def State.noteElements (s : State) (l : List Checked) : State :=
  l.foldl (fun t c => if s.lost t then t else t.noteReads c.e c.ps) s

/-- The value that a load found for element e. -/
def loaded (values : List (Nat × Nat)) (e : Nat) : Nat := ((values.find? fun p => decide (p.1 = e)).map (·.2)).getD 0

/-- A vector load (R143, R150): `srcs` are its streams and index, `addr` the addresses. A load into a stream that is
stopped pushes nothing and restarts at element 0 (R138). -/
def State.vload (s : State) (window : Bool) (d : BitVec 6) (mask : Nat) (srcs : List Source) (addr : Nat → Nat) : Res :=
  let h := s.hart
  let n := h.fmt.esz
  match s.hold srcs (some ⟨d, h.sew⟩) with
  | some x => s.holdBack x
  | none =>
    if h.region.isSome && !window && h.touchesWindow mask n addr then s.forbidden
    else if s.full .ld then s.waitFor .counter
    else
      let brk := if isStream d then none else h.breakInside (h.activeCount mask)
      let r := s.scan window .load n addr (h.loadLosses srcs) mask brk
      let values := r.ok.map fun c => (c.e, s.peek c.ps)
      match r.cut with
      | some (_, .stop (.wait w)) => s.waitFor w
      | some (e, x) =>
        let t := s.noteElements r.ok
        if s.lost t then .next t
        else if isStream d then t.cutAt 0 x
        else
            let t := t.writeV d.toNat h.sew mask (some e) (loaded values)
            (t.consumeUpTo srcs (e - h.vstart.toNat) false).cutAt e x
      | none =>
        let t := s.noteElements r.ok
        if s.lost t then .next t
        else (((t.writeDest d h.sew mask (loaded values)).consumeAll srcs).issueOp .ld).vectorDone

/-- The stores of checked elements performed in order, up to an abort of the hart's own region. -/
def State.pokeElements (s : State) (n : Nat) (value : Nat → Nat) (l : List Checked) : State :=
  l.foldl (fun t c => if s.lost t then t else t.poke c.e false (t.hart.claimOn c.va n) (value c.e) c.ps) s

/-- A vector store (R143, R150): the data source comes first among `srcs` (R138). -/
def State.vstore (s : State) (window : Bool) (v : BitVec 6) (mask : Nat) (index : List Source) (addr : Nat → Nat) : Res :=
  let h := s.hart
  let n := h.fmt.esz
  let srcs := ⟨v, h.sew⟩ :: index
  match s.hold srcs none with
  | some x => s.holdBack x
  | none =>
    if h.region.isSome && !window && h.touchesWindow mask n addr then s.forbidden
    else if s.full .st then s.waitFor .counter
    else
      let r := s.scan window .store n addr (h.storeLosses ⟨v, h.sew⟩ index) mask (h.breakInside (h.activeCount mask))
      let data := (h.sourceValues srcs).headD 0
      match r.cut with
      | some (_, .stop (.wait w)) => s.waitFor w
      | some (e, x) =>
        let t := (s.pokeElements n (fun e => elem data h.sew e) r.ok).healPieces (r.ok.flatMap (·.ps))
        if s.lost t then .next t else (t.consumeUpTo srcs (e - h.vstart.toNat) false).cutAt e x
      | none =>
        let t := (s.pokeElements n (fun e => elem data h.sew e) r.ok).healPieces (r.ok.flatMap (·.ps))
        if s.lost t then .next t else ((t.consumeAll srcs).issueStore).vectorDone

/-- s[base] + e * esz (R143). -/
def State.unitAddr (s : State) (b : BitVec 5) (e : Nat) : Nat := addr64 ((s.rs b).toNat + e * s.hart.fmt.esz : Nat)

/-- s[base] + e * s[sX], the stride signed (R143). -/
def State.strideAddr (s : State) (b x : BitVec 5) (e : Nat) : Nat := addr64 ((s.rs b).toNat + e * (s.rs x).toInt)

/-- s[base] + zext(elem(vX, e)) * esz (R143): `index` is the index operand's value. -/
def State.indexAddr (s : State) (b : BitVec 5) (index e : Nat) : Nat :=
  addr64 ((s.rs b).toNat + elem index s.hart.sew e * s.hart.fmt.esz : Nat)

/-- The index operand of an indexed form. -/
def State.indexSource (s : State) (x : BitVec 6) : Source := ⟨x, s.hart.sew⟩

/-- The value of the index operand after `data` sources have consumed (R138). -/
def State.indexValue (s : State) (data : List Source) (x : BitVec 6) : Nat :=
  ((s.hart.sourceValues (data ++ [s.indexSource x])).getLast?).getD 0

/-- The mask of a three-bit field: m0 to m7 (R65). -/
def State.mask3 (s : State) (m : BitVec 3) : Nat := s.hart.getM m.toNat

/-- vld (R143). -/
def execVld (_ : BitVec 4) (m : BitVec 3) (b : BitVec 5) (d : BitVec 6) (s : State) : Res :=
  s.vload false d (s.mask3 m) [] (s.unitAddr b)

/-- vlds (R143). -/
def execVlds (_ : BitVec 4) (m : BitVec 3) (x b : BitVec 5) (d : BitVec 6) (s : State) : Res :=
  s.vload false d (s.mask3 m) [] (s.strideAddr b x)

/-- The gather engine of the hart's core is dead (R188, R316): a vgather or vscatter given to it, which waits for it in its own
step, takes the dead-agent trap (log 48). -/
def State.gatherDead (s : State) : Bool :=
  !s.hart.id.control && s.pkg.dead.elem (.gatherEngine s.hart.id.quad s.hart.id.core)

/-- vgather (R143). -/
def execVgather (_ : BitVec 4) (m : BitVec 3) (x : BitVec 6) (b : BitVec 5) (d : BitVec 6) (s : State) : Res :=
  if s.gatherDead then s.trapAt 8 4
  else s.vload false d (s.mask3 m) [s.indexSource x] (s.indexAddr b (s.indexValue [] x))

/-- vst (R143). -/
def execVst (_ : BitVec 4) (m : BitVec 3) (b : BitVec 5) (v : BitVec 6) (s : State) : Res :=
  s.vstore false v (s.mask3 m) [] (s.unitAddr b)

/-- vsts (R143). -/
def execVsts (_ : BitVec 4) (m : BitVec 3) (x b : BitVec 5) (v : BitVec 6) (s : State) : Res :=
  s.vstore false v (s.mask3 m) [] (s.strideAddr b x)

/-- vscatter (R143). -/
def execVscatter (_ : BitVec 4) (m : BitVec 3) (x : BitVec 6) (b : BitVec 5) (v : BitVec 6) (s : State) : Res :=
  if s.gatherDead then s.trapAt 8 4
  else s.vstore false v (s.mask3 m) [s.indexSource x] (s.indexAddr b (s.indexValue [⟨v, s.hart.sew⟩] x))

/-- The length to which vldff trims at element f (R145). -/
def trimmed (f B : Nat) : Nat := if B = 0 then f else f - f % B

/-- What a trim of vldff notes after the walks of its pages: its loads, and that it installs no translation (R322). -/
def State.noteTrim (t s : State) (l : List Checked) : State :=
  if s.lost t then t else (t.noteElements l).onPkg fun p => { p with tlb := s.pkg.tlb }

/-- vldff (R145, R322): it trims past its first active element, by whole blocks, once every page that its active elements touch is
translated. -/
def execVldff (_ : BitVec 4) (m : BitVec 3) (b : BitVec 5) (d : BitVec 6) (s : State) : Res :=
  let h := s.hart
  let n := h.fmt.esz
  let mask := s.mask3 m
  let addr := s.unitAddr b
  let trims := fun (r : Scan) => match r.cut with
    | some (f, .stop (.trap code _ _)) =>
      (code = 5 || code = 6) && !r.ok.isEmpty && (h.blk = 0 || decide (h.blk ≤ f))
    | _ => false
  let brk := if isStream d then none else h.breakInside (h.activeCount mask)
  let r := s.scan false .load n addr .none mask brk
  let pages := rangePages ((h.activeFrom mask).map fun e => (addr e, n))
  if (s.hold [] (some ⟨d, h.sew⟩)).isSome || (h.region.isSome && h.touchesWindow mask n addr) || s.full .ld || !trims r then
    s.vload false d mask [] addr
  else if pages.any (s.walkHeld h) then s.waitFor .reduction
  else if pages.any fun va => !inWindow va && decide (s.walkFor h va = .wait) then s.waitFor .engineLine
  else
    let f := (r.cut.map (·.1)).getD 0
    let values := r.ok.map fun c => (c.e, s.peek c.ps)
    let t := (s.walkAll f (pages.filter fun va => !inWindow va)).noteTrim s r.ok
    if s.lost t then .next t
    else
      let g := trimmed f h.blk
      if isStream d then
        ((((t.on fun h => h.setVl (g, 0)).returnRows.writeDest d h.sew mask (loaded values))).issueOp .ld).vectorDone
      else
        let t := t.writeV d.toNat h.sew mask (some f) (loaded values)
        let t := (t.on fun h => h.setVl (g, 0)).returnRows
        let held := t.hart.getV d.toNat
        ((t.writeV d.toNat h.sew (2 ^ g - 1) none (elem held h.sew)).issueOp .ld).vectorDone

/-! Atomic scatters. -/

/-- The operations of atomic scatters (R146). -/
inductive ScatterOp where
  | add
  | min
  | max
  | and
  | or
  | xor
  | swap
deriving DecidableEq, Repr

/-- The formats that an operation takes (R146). -/
def ScatterOp.takes (op : ScatterOp) (f : Fmt) : Bool :=
  match op with
  | .and | .or | .xor => f = .i32 || f = .i64
  | _ => f = .i32 || f = .i64 || f = .f32 || f = .f64

/-- OP(a, b) on the patterns of a format (R146): a came first. -/
def ScatterOp.apply (op : ScatterOp) (f : Fmt) (r : Rnd) (a b : Nat) : Nat :=
  match op with
  | .add => if f.isFloat then fpAdd f r a b else (a + b) % 2 ^ f.sew
  | .min => if f.isFloat then fpMinMax f false a b else if toSigned f.sew b < toSigned f.sew a then b else a
  | .max => if f.isFloat then fpMinMax f true a b else if toSigned f.sew a < toSigned f.sew b then b else a
  | .and => a &&& b
  | .or => a ||| b
  | .xor => a ^^^ b
  | .swap => b

/-- The contributions of checked elements merged by address, in increasing element order (R146). -/
def mergeByAddress (op : Nat → Nat → Nat) (value : Nat → Nat) (l : List Checked) : List (Checked × Nat) :=
  let firsts := l.filter fun c => !(l.any fun k => decide (k.va = c.va) && decide (k.e < c.e))
  firsts.map fun c =>
    match (l.filter fun k => decide (k.va = c.va)).map fun k => value k.e with
    | [] => (c, 0)
    | x :: xs => (c, xs.foldl op x)

/-- The merged contributions applied, each as one access at its home slice (R146). -/
def State.applyScatter (s : State) (op : Nat → Nat → Nat) (l : List (Checked × Nat)) : State :=
  l.foldl (fun t p => t.poke p.1.e true none (op (t.peek p.1.ps) p.2) p.1.ps) s

/-- A vamo form (R146). -/
def State.vamo (s : State) (op : ScatterOp) (m : BitVec 3) (x : BitVec 6) (b : BitVec 5) (v : BitVec 6) : Res :=
  s.outsideRegion <|
    let h := s.hart
    let f := h.fmt
    let mask := s.mask3 m
    let srcs := [⟨v, h.sew⟩, s.indexSource x]
    if !op.takes f then s.badConfig
    else match s.hold srcs none with
      | some y => s.holdBack y
      | none =>
        if s.full .st then s.waitFor .counter
        else
          let vals := h.sourceValues srcs
          let data := vals.headD 0
          let r := s.scan false .update f.esz (s.indexAddr b (vals.getD 1 0)) (h.storeLosses ⟨v, h.sew⟩ [s.indexSource x]) mask
            (h.breakInside (h.activeCount mask))
          let go := fun (_ : Unit) => s.applyScatter (op.apply f h.rnd)
            (mergeByAddress (op.apply f h.rnd) (fun e => elem data h.sew e) r.ok)
          match r.cut with
          | some (_, .stop (.wait w)) => s.waitFor w
          | some (e, y) => ((go ()).consumeUpTo srcs (e - h.vstart.toNat) false).cutAt e y
          | none => (((go ()).consumeAll srcs).issueStore).vectorDone

/-- vamo.add (R146). -/
def execVamoAdd (m : BitVec 3) (x : BitVec 6) (b : BitVec 5) (v : BitVec 6) (s : State) : Res := s.vamo .add m x b v

/-- vamo.min (R146). -/
def execVamoMin (m : BitVec 3) (x : BitVec 6) (b : BitVec 5) (v : BitVec 6) (s : State) : Res := s.vamo .min m x b v

/-- vamo.max (R146). -/
def execVamoMax (m : BitVec 3) (x : BitVec 6) (b : BitVec 5) (v : BitVec 6) (s : State) : Res := s.vamo .max m x b v

/-- vamo.and (R146). -/
def execVamoAnd (m : BitVec 3) (x : BitVec 6) (b : BitVec 5) (v : BitVec 6) (s : State) : Res := s.vamo .and m x b v

/-- vamo.or (R146). -/
def execVamoOr (m : BitVec 3) (x : BitVec 6) (b : BitVec 5) (v : BitVec 6) (s : State) : Res := s.vamo .or m x b v

/-- vamo.xor (R146). -/
def execVamoXor (m : BitVec 3) (x : BitVec 6) (b : BitVec 5) (v : BitVec 6) (s : State) : Res := s.vamo .xor m x b v

/-- vamo.swap (R146). -/
def execVamoSwap (m : BitVec 3) (x : BitVec 6) (b : BitVec 5) (v : BitVec 6) (s : State) : Res := s.vamo .swap m x b v

/-! Deterministic scatter-add. -/

/-- The messages of one damo.add (R147): one for each line, in the order of the lines' first elements, then the close
token; numbered from `id` on. -/
def oruMessages (id : Nat) (h : Hart) (gen : Word) (desc : Nat) (merged : List (Checked × Nat)) : List OruMsg :=
  let contribs := merged.map fun p =>
    (⟨bits desc 15 0, match p.1.ps with
      | ⟨_, .mem pa, _, _⟩ :: _ => pa
      | _ => 0, p.2, BitVec.ofNat 4 h.fmtCode, h.id, h.pc, p.1.e, p.1.va, 0⟩ : Contribution)
  let lines := (contribs.map fun c => c.addr / 64).eraseDups
  let msg := fun (line : Nat) (cs : List Contribution) (tok : Option Nat) =>
    (⟨0, id, match tok with
      | none => [oruSlice (desc.testBit 48) (die h.id) line]
      | some _ => if desc.testBit 48 then List.range 512 else (List.range 128).map (128 * die h.id + ·),
      h.ctx, BitVec.ofNat 16 (desc / 2 ^ 32), BitVec.ofNat 4 h.fmtCode, line, cs, tok, h.id, gen, none, true⟩ : OruMsg)
  let all := (lines.map fun l => msg l (contribs.filter fun c => decide (c.addr / 64 = l)) none) ++
    [msg 0 [] (some (bits desc 31 16))]
  all.zipIdx.map fun p => { p.1 with id := id + p.2 }

/-- damo.add (R147): nothing is sent until every element has passed its checks, and a trap names element 0 with the
address of the lowest element that met a cause. -/
def execDamoAdd (m : BitVec 3) (x : BitVec 6) (b : BitVec 5) (v : BitVec 6) (s : State) : Res :=
  s.outsideRegion <|
    let h := s.hart
    let f := h.fmt
    let desc := (s.rs (b + 1)).toNat
    let mask := s.mask3 m
    let srcs := [⟨v, h.sew⟩, s.indexSource x]
    if !ScatterOp.add.takes f || bits desc 31 16 ≤ bits desc 15 0 then s.badConfig
    else match s.hold srcs none with
      | some y => s.holdBack y
      | none =>
        if s.full .st then s.waitFor .counter
        else
          let vals := h.sourceValues srcs
          let data := vals.headD 0
          let r := s.scanElements false .contribute f.esz (s.indexAddr b (vals.getD 1 0))
            (h.storeLosses ⟨v, h.sew⟩ [s.indexSource x]) (h.activeFrom mask)
          match r.cut with
          | some (_, y) => s.cutAt 0 y
          | none =>
            let s := s.walkAll 0 ((r.ok.flatMap fun c => memParts c.ps).map (·.1))
            let msgs := oruMessages s.free h (s.ctx h.ctx).gen desc
              (mergeByAddress (ScatterOp.add.apply f .rne) (fun e => elem data h.sew e) r.ok)
            let t := { s.raise .st with
              free := s.free + msgs.length
              oruIn := s.oruIn ++ msgs
              agenda := s.agenda ++ msgs.map fun (m : OruMsg) => Due.oruAccept m.id }
            let pending := fun (n : Nat) => s.oruIn.any fun m => decide (m.op = n)
            ((t.on fun h => { h with sent := s.free :: h.sent.filter pending }).consumeAll srcs).vectorDone

/-! Local-store forms. -/

/-- lsld (R150). -/
def execLsld (m : BitVec 3) (b : BitVec 5) (d : BitVec 6) (s : State) : Res :=
  s.outsideRegion (s.vload true d (s.mask3 m) [] (s.unitAddr b))

/-- lslds (R150). -/
def execLslds (m : BitVec 3) (x b : BitVec 5) (d : BitVec 6) (s : State) : Res :=
  s.outsideRegion (s.vload true d (s.mask3 m) [] (s.strideAddr b x))

/-- lsgather (R150). -/
def execLsgather (m : BitVec 3) (x : BitVec 6) (b : BitVec 5) (d : BitVec 6) (s : State) : Res :=
  s.outsideRegion (s.vload true d (s.mask3 m) [s.indexSource x] (s.indexAddr b (s.indexValue [] x)))

/-- lsst (R150). -/
def execLsst (m : BitVec 3) (b : BitVec 5) (v : BitVec 6) (s : State) : Res :=
  s.outsideRegion (s.vstore true v (s.mask3 m) [] (s.unitAddr b))

/-- lssts (R150). -/
def execLssts (m : BitVec 3) (x b : BitVec 5) (v : BitVec 6) (s : State) : Res :=
  s.outsideRegion (s.vstore true v (s.mask3 m) [] (s.strideAddr b x))

/-- lsscatter (R150). -/
def execLsscatter (m : BitVec 3) (x : BitVec 6) (b : BitVec 5) (v : BitVec 6) (s : State) : Res :=
  s.outsideRegion (s.vstore true v (s.mask3 m) [s.indexSource x] (s.indexAddr b (s.indexValue [⟨v, s.hart.sew⟩] x)))

/-! The pair forms (R150): chunk c is 8 bytes of vd and 8 bytes of vd + 1. -/

/-- The SEW and the format count of a pair form: elements per chunk of one register. -/
def Hart.perChunk (h : Hart) : Nat := 8 / h.fmt.esz

/-- The chunks that hold an element from vstart up to g, and of those, the ones with an active element. -/
def Hart.activeChunks (h : Hart) (mask : Nat) : List Nat :=
  let p := h.perChunk
  (List.range ((h.g + p - 1) / p)).filter fun c => (List.range p).any fun k =>
    let e := c * p + k
    decide (h.vstart.toNat ≤ e) && decide (e < h.g) && mask.testBit e

/-- lsldq (R150): a chunk stops at its lowest active element. -/
def execLsldq (m : BitVec 3) (x b : BitVec 5) (d : BitVec 6) (s : State) : Res :=
  s.outsideRegion <|
    let h := s.hart
    let mask := s.mask3 m
    let p := h.perChunk
    match s.hold [] (some ⟨d, h.sew⟩), s.hold [] (some ⟨d + 1, h.sew⟩) with
    | some y, _ => s.holdBack y
    | none, some y => s.holdBack y
    | none, none =>
      if s.full .ld then s.waitFor .counter
      else
        let r := s.scanElements true .load 16 (s.strideAddr b x) .none (h.activeChunks mask)
        let values := r.ok.map fun c => (c.e, s.peek c.ps)
        let low := fun e => elem (loaded values (e / p)) h.sew (e % p)
        let high := fun e => elem (loaded values (e / p)) h.sew (p + e % p)
        let first := fun c => ((h.activeFrom mask).filter fun e => decide (c * p ≤ e)).headD (c * p)
        match r.cut, h.breakInside (h.activeCount mask) with
        | some (_, .stop (.wait w)), _ => s.waitFor w
        | some (c, y), none =>
          ((s.writeV d.toNat h.sew mask (some (first c)) low).writeV (d.toNat + 1) h.sew mask (some (first c)) high).cutAt
            (first c) y
        | none, none =>
          (((s.writeV d.toNat h.sew mask none low).writeV (d.toNat + 1) h.sew mask none high).issueOp .ld).vectorDone
        | cut, some (i, e) =>
          let (stop, why) := match cut with
            | some (c, y) => if first c < e then (first c, y) else (e, Cut.brk i)
            | none => (e, Cut.brk i)
          ((s.writeV d.toNat h.sew mask (some stop) low).writeV (d.toNat + 1) h.sew mask (some stop) high).cutAt stop why

/-- The bytes of a pair store's chunk whose elements are active and lie in [from, stop): (element place, value). -/
def Hart.pairBytes (h : Hart) (mask c stop lo hi : Nat) : List (Nat × Nat) :=
  let p := h.perChunk
  (List.range p).flatMap fun k =>
    let e := c * p + k
    if h.vstart.toNat ≤ e && e < h.g && e < stop && mask.testBit e then
      [(k, elem lo h.sew e), (p + k, elem hi h.sew e)]
    else []

/-- lsstq (R150): the active elements of each chunk are written. -/
def execLsstq (m : BitVec 3) (x b : BitVec 5) (v : BitVec 6) (s : State) : Res :=
  s.outsideRegion <|
    let h := s.hart
    let mask := s.mask3 m
    let p := h.perChunk
    let esz := h.fmt.esz
    match s.hold [⟨v, h.sew⟩, ⟨v + 1, h.sew⟩] none with
    | some y => s.holdBack y
    | none =>
      if s.full .st then s.waitFor .counter
      else
        let lost := fun (c : Nat) => ((h.activeFrom mask).filter fun e => decide (e / p = c)).findSome? fun e =>
          h.badElement [⟨v, h.sew⟩, ⟨v + 1, h.sew⟩] e
        let r := s.scanElements true .store 16 (s.strideAddr b x) ⟨fun _ => none, lost⟩ (h.activeChunks mask)
        let lo := h.getV v.toNat
        let hi := h.getV (v.toNat + 1)
        let first := fun c => ((h.activeFrom mask).filter fun e => decide (c * p ≤ e)).headD (c * p)
        let keys := fun (stop : Nat) => r.ok.flatMap fun (c : Checked) => match c.ps with
          | ⟨_, .store key, _, _⟩ :: _ =>
            (h.pairBytes mask c.e stop lo hi).flatMap fun q => (List.range esz).map (key + q.1 * esz + ·)
          | _ => []
        let write := fun (stop : Nat) => (r.ok.foldl (fun (t : State) (c : Checked) =>
          (h.pairBytes mask c.e stop lo hi).foldl (fun (t : State) (q : Nat × Nat) => match c.ps with
            | ⟨_, .store key, _, _⟩ :: _ =>
              ({ t with lstore := t.lstore.write (key + q.1 * esz) esz q.2 }).clearReservations (Place.store key).block
            | _ => t) t) s).heal [] (keys stop)
        match r.cut, h.breakInside (h.activeCount mask) with
        | some (_, .stop (.wait w)), _ => s.waitFor w
        | some (c, y), none => (write (first c)).cutAt (first c) y
        | none, none => ((write h.g).issueStore).vectorDone
        | cut, some (i, e) =>
          let (stop, why) := match cut with
            | some (c, y) => if first c < e then (first c, y) else (e, Cut.brk i)
            | none => (e, Cut.brk i)
          (write stop).cutAt stop why

end Sys2Proof.Machine
end

