-- ==== Sys2Proof/Machine/Dispatch.lean ====
section
/-! DEFINITION. The meaning of every instruction: one direct call for each row of the opcode table. -/

namespace Sys2Proof.Machine

def exec (i : Instr) (s : State) : Host.Outcome State Fault Refusal :=
  match i with
  | .add b a d => Sys2Proof.Machine.execAdd b a d s
  | .sub b a d => Sys2Proof.Machine.execSub b a d s
  | .and b a d => Sys2Proof.Machine.execAnd b a d s
  | .or b a d => Sys2Proof.Machine.execOr b a d s
  | .xor b a d => Sys2Proof.Machine.execXor b a d s
  | .sll b a d => Sys2Proof.Machine.execSll b a d s
  | .srl b a d => Sys2Proof.Machine.execSrl b a d s
  | .sra b a d => Sys2Proof.Machine.execSra b a d s
  | .addw b a d => Sys2Proof.Machine.execAddw b a d s
  | .subw b a d => Sys2Proof.Machine.execSubw b a d s
  | .sllw b a d => Sys2Proof.Machine.execSllw b a d s
  | .srlw b a d => Sys2Proof.Machine.execSrlw b a d s
  | .sraw b a d => Sys2Proof.Machine.execSraw b a d s
  | .min b a d => Sys2Proof.Machine.execMin b a d s
  | .max b a d => Sys2Proof.Machine.execMax b a d s
  | .minu b a d => Sys2Proof.Machine.execMinu b a d s
  | .maxu b a d => Sys2Proof.Machine.execMaxu b a d s
  | .andn b a d => Sys2Proof.Machine.execAndn b a d s
  | .orn b a d => Sys2Proof.Machine.execOrn b a d s
  | .addi im a d => Sys2Proof.Machine.execAddi im a d s
  | .andi im a d => Sys2Proof.Machine.execAndi im a d s
  | .ori im a d => Sys2Proof.Machine.execOri im a d s
  | .xori im a d => Sys2Proof.Machine.execXori im a d s
  | .slli im a d => Sys2Proof.Machine.execSlli im a d s
  | .srli im a d => Sys2Proof.Machine.execSrli im a d s
  | .srai im a d => Sys2Proof.Machine.execSrai im a d s
  | .shori im a d => Sys2Proof.Machine.execShori im a d s
  | .addiw im a d => Sys2Proof.Machine.execAddiw im a d s
  | .mul b a d => Sys2Proof.Machine.execMul b a d s
  | .mulh b a d => Sys2Proof.Machine.execMulh b a d s
  | .mulhu b a d => Sys2Proof.Machine.execMulhu b a d s
  | .mulhsu b a d => Sys2Proof.Machine.execMulhsu b a d s
  | .div b a d => Sys2Proof.Machine.execDiv b a d s
  | .divu b a d => Sys2Proof.Machine.execDivu b a d s
  | .rem b a d => Sys2Proof.Machine.execRem b a d s
  | .remu b a d => Sys2Proof.Machine.execRemu b a d s
  | .mulw b a d => Sys2Proof.Machine.execMulw b a d s
  | .divw b a d => Sys2Proof.Machine.execDivw b a d s
  | .remw b a d => Sys2Proof.Machine.execRemw b a d s
  | .aupc im d => Sys2Proof.Machine.execAupc im d s
  | .beq o b a => Sys2Proof.Machine.execBeq o b a s
  | .bne o b a => Sys2Proof.Machine.execBne o b a s
  | .blt o b a => Sys2Proof.Machine.execBlt o b a s
  | .bge o b a => Sys2Proof.Machine.execBge o b a s
  | .bltu o b a => Sys2Proof.Machine.execBltu o b a s
  | .bgeu o b a => Sys2Proof.Machine.execBgeu o b a s
  | .jal im d => Sys2Proof.Machine.execJal im d s
  | .jalr im a d => Sys2Proof.Machine.execJalr im a d s
  | .ret a => Sys2Proof.Machine.execRet a s
  | .seq b a d => Sys2Proof.Machine.execSeq b a d s
  | .sne b a d => Sys2Proof.Machine.execSne b a d s
  | .slt b a d => Sys2Proof.Machine.execSlt b a d s
  | .sltu b a d => Sys2Proof.Machine.execSltu b a d s
  | .clz a d => Sys2Proof.Machine.execClz a d s
  | .ctz a d => Sys2Proof.Machine.execCtz a d s
  | .cpop a d => Sys2Proof.Machine.execCpop a d s
  | .rev8 a d => Sys2Proof.Machine.execRev8 a d s
  | .bext b a d => Sys2Proof.Machine.execBext b a d s
  | .bdep b a d => Sys2Proof.Machine.execBdep b a d s
  | .rotl b a d => Sys2Proof.Machine.execRotl b a d s
  | .rotr b a d => Sys2Proof.Machine.execRotr b a d s
  | .ldb im c b d => Sys2Proof.Machine.execLdb im c b d s
  | .ldh im c b d => Sys2Proof.Machine.execLdh im c b d s
  | .ldw im c b d => Sys2Proof.Machine.execLdw im c b d s
  | .ldd im c b d => Sys2Proof.Machine.execLdd im c b d s
  | .ldbu im c b d => Sys2Proof.Machine.execLdbu im c b d s
  | .ldhu im c b d => Sys2Proof.Machine.execLdhu im c b d s
  | .ldwu im c b d => Sys2Proof.Machine.execLdwu im c b d s
  | .stb im c b st => Sys2Proof.Machine.execStb im c b st s
  | .sth im c b st => Sys2Proof.Machine.execSth im c b st s
  | .stw im c b st => Sys2Proof.Machine.execStw im c b st s
  | .std im c b st => Sys2Proof.Machine.execStd im c b st s
  | .amoswap c b a d => Sys2Proof.Machine.execAmoswap c b a d s
  | .amoadd c b a d => Sys2Proof.Machine.execAmoadd c b a d s
  | .amoand c b a d => Sys2Proof.Machine.execAmoand c b a d s
  | .amoor c b a d => Sys2Proof.Machine.execAmoor c b a d s
  | .amoxor c b a d => Sys2Proof.Machine.execAmoxor c b a d s
  | .amomin c b a d => Sys2Proof.Machine.execAmomin c b a d s
  | .amomax c b a d => Sys2Proof.Machine.execAmomax c b a d s
  | .amominu c b a d => Sys2Proof.Machine.execAmominu c b a d s
  | .amomaxu c b a d => Sys2Proof.Machine.execAmomaxu c b a d s
  | .amocas c b a d => Sys2Proof.Machine.execAmocas c b a d s
  | .lr c a d => Sys2Proof.Machine.execLr c a d s
  | .sc c b a d => Sys2Proof.Machine.execSc c b a d s
  | .amoswapW c b a d => Sys2Proof.Machine.execAmoswapW c b a d s
  | .amoaddW c b a d => Sys2Proof.Machine.execAmoaddW c b a d s
  | .amoandW c b a d => Sys2Proof.Machine.execAmoandW c b a d s
  | .amoorW c b a d => Sys2Proof.Machine.execAmoorW c b a d s
  | .amoxorW c b a d => Sys2Proof.Machine.execAmoxorW c b a d s
  | .amominW c b a d => Sys2Proof.Machine.execAmominW c b a d s
  | .amomaxW c b a d => Sys2Proof.Machine.execAmomaxW c b a d s
  | .amominuW c b a d => Sys2Proof.Machine.execAmominuW c b a d s
  | .amomaxuW c b a d => Sys2Proof.Machine.execAmomaxuW c b a d s
  | .amocasW c b a d => Sys2Proof.Machine.execAmocasW c b a d s
  | .lrW c a d => Sys2Proof.Machine.execLrW c a d s
  | .scW c b a d => Sys2Proof.Machine.execScW c b a d s
  | .setvl p t b f a d => Sys2Proof.Machine.execSetvl p t b f a d s
  | .setsw a d => Sys2Proof.Machine.execSetsw a d s
  | .getvt d => Sys2Proof.Machine.execGetvt d s
  | .getsw d => Sys2Proof.Machine.execGetsw d s
  | .setrm a d => Sys2Proof.Machine.execSetrm a d s
  | .strip o n p c => Sys2Proof.Machine.execStrip o n p c s
  | .waitc t c st l => Sys2Proof.Machine.execWaitc t c st l s
  | .fenceC st w x y z => Sys2Proof.Machine.execFenceC st w x y z s
  | .fenceCReg st a => Sys2Proof.Machine.execFenceCReg st a s
  | .bar st im a => Sys2Proof.Machine.execBar st im a s
  | .barW st im a => Sys2Proof.Machine.execBarW st im a s
  | .arrive st im a d => Sys2Proof.Machine.execArrive st im a d s
  | .ipost h l c a => Sys2Proof.Machine.execIpost h l c a s
  | .iwait h l c a => Sys2Proof.Machine.execIwait h l c a s
  | .mark k => Sys2Proof.Machine.execMark k s
  | .launch c b a d => Sys2Proof.Machine.execLaunch c b a d s
  | .yield n => Sys2Proof.Machine.execYield n s
  | .getc im a d => Sys2Proof.Machine.execGetc im a d s
  | .setc im a j => Sys2Proof.Machine.execSetc im a j s
  | .trap n => Sys2Proof.Machine.execTrap n s
  | .eret => Sys2Proof.Machine.execEret s
  | .tlbinv a st => Sys2Proof.Machine.execTlbinv a st s
  | .tlbsync a => Sys2Proof.Machine.execTlbsync a s
  | .ilock n a d => Sys2Proof.Machine.execIlock n a d s
  | .iunlock n a d => Sys2Proof.Machine.execIunlock n a d s
  | .fenceI => Sys2Proof.Machine.execFenceI s
  | .vld c m b d => Sys2Proof.Machine.execVld c m b d s
  | .vlds c m st b d => Sys2Proof.Machine.execVlds c m st b d s
  | .vgather c m x b d => Sys2Proof.Machine.execVgather c m x b d s
  | .vldff c m b d => Sys2Proof.Machine.execVldff c m b d s
  | .vst c m b st => Sys2Proof.Machine.execVst c m b st s
  | .vsts c m x b st => Sys2Proof.Machine.execVsts c m x b st s
  | .vscatter c m x b st => Sys2Proof.Machine.execVscatter c m x b st s
  | .vamoAdd m x b st => Sys2Proof.Machine.execVamoAdd m x b st s
  | .vamoMin m x b st => Sys2Proof.Machine.execVamoMin m x b st s
  | .vamoMax m x b st => Sys2Proof.Machine.execVamoMax m x b st s
  | .vamoAnd m x b st => Sys2Proof.Machine.execVamoAnd m x b st s
  | .vamoOr m x b st => Sys2Proof.Machine.execVamoOr m x b st s
  | .vamoXor m x b st => Sys2Proof.Machine.execVamoXor m x b st s
  | .vamoSwap m x b st => Sys2Proof.Machine.execVamoSwap m x b st s
  | .damoAdd m x b st => Sys2Proof.Machine.execDamoAdd m x b st s
  | .lsld m b d => Sys2Proof.Machine.execLsld m b d s
  | .lslds m st b d => Sys2Proof.Machine.execLslds m st b d s
  | .lsgather m x b d => Sys2Proof.Machine.execLsgather m x b d s
  | .lsldq m st b d => Sys2Proof.Machine.execLsldq m st b d s
  | .lsst m b d => Sys2Proof.Machine.execLsst m b d s
  | .lssts m st b d => Sys2Proof.Machine.execLssts m st b d s
  | .lsscatter m x b d => Sys2Proof.Machine.execLsscatter m x b d s
  | .lsstq m st b d => Sys2Proof.Machine.execLsstq m st b d s
  | .copyCfg c q h a => Sys2Proof.Machine.execCopyCfg c q h a s
  | .qbind q h => Sys2Proof.Machine.execQbind q h s
  | .qunbind q => Sys2Proof.Machine.execQunbind q s
  | .hwaitSrc h => Sys2Proof.Machine.execHwaitSrc h s
  | .hwaitVis st h => Sys2Proof.Machine.execHwaitVis st h s
  | .hrel h => Sys2Proof.Machine.execHrel h s
  | .hstate h d => Sys2Proof.Machine.execHstate h d s
  | .vpush c b n f => Sys2Proof.Machine.execVpush c b n f s
  | .xredO c b n f => Sys2Proof.Machine.execXredO c b n f s
  | .xredF c b n f => Sys2Proof.Machine.execXredF c b n f s
  | .treg c im b d => Sys2Proof.Machine.execTreg c im b d s
  | .tunreg im d => Sys2Proof.Machine.execTunreg im d s
  | .tlook c im d => Sys2Proof.Machine.execTlook c im d s
  | .tfetch c im => Sys2Proof.Machine.execTfetch c im s
  | .thalo k c im d => Sys2Proof.Machine.execThalo k c im d s
  | .tinv im d => Sys2Proof.Machine.execTinv im d s
  | .tkeep c im d => Sys2Proof.Machine.execTkeep c im d s
  | .xbeginE st d => Sys2Proof.Machine.execXbeginE st d s
  | .xbeginS st d => Sys2Proof.Machine.execXbeginS st d s
  | .xend d => Sys2Proof.Machine.execXend d s
  | .xabort a => Sys2Proof.Machine.execXabort a s
  | .xbndLo d => Sys2Proof.Machine.execXbndLo d s
  | .xbndHi d => Sys2Proof.Machine.execXbndHi d s
  | .xbnd b a d => Sys2Proof.Machine.execXbnd b a d s
  | .sclaim b a d => Sys2Proof.Machine.execSclaim b a d s
  | .srel a => Sys2Proof.Machine.execSrel a s
  | .oclaim n => Sys2Proof.Machine.execOclaim n s
  | .orel n => Sys2Proof.Machine.execOrel n s
  | .oput c a n v => Sys2Proof.Machine.execOput c a n v s
  | .accget c a v => Sys2Proof.Machine.execAccget c a v s
  | .accput c a v => Sys2Proof.Machine.execAccput c a v s
  | .accstore c a => Sys2Proof.Machine.execAccstore c a s
  | .scldA c a st p => Sys2Proof.Machine.execScldA c a st p s
  | .scldW c a st => Sys2Proof.Machine.execScldW c a st s
  | .mmaO sc kc fmt col0 row0 slotB slotA => Sys2Proof.Machine.execMmaO sc kc fmt col0 row0 slotB slotA s
  | .mmaF sc kc fmt col0 row0 slotB slotA => Sys2Proof.Machine.execMmaF sc kc fmt col0 row0 slotB slotA s
  | .accz fmt col0 row0 => Sys2Proof.Machine.execAccz fmt col0 row0 s
  | .accrdS d fmt col0 row0 => Sys2Proof.Machine.execAccrdS d fmt col0 row0 s
  | .accrdP d fmt col0 row0 => Sys2Proof.Machine.execAccrdP d fmt col0 row0 s
  | .tscl sc col0 row0 => Sys2Proof.Machine.execTscl sc col0 row0 s
  | .vadd m b a d => Sys2Proof.Machine.execVadd m b a d s
  | .vsub m b a d => Sys2Proof.Machine.execVsub m b a d s
  | .vrsub m b a d => Sys2Proof.Machine.execVrsub m b a d s
  | .vmul m b a d => Sys2Proof.Machine.execVmul m b a d s
  | .vmulh m b a d => Sys2Proof.Machine.execVmulh m b a d s
  | .vmulhu m b a d => Sys2Proof.Machine.execVmulhu m b a d s
  | .vdiv m b a d => Sys2Proof.Machine.execVdiv m b a d s
  | .vdivu m b a d => Sys2Proof.Machine.execVdivu m b a d s
  | .vrem m b a d => Sys2Proof.Machine.execVrem m b a d s
  | .vremu m b a d => Sys2Proof.Machine.execVremu m b a d s
  | .vand m b a d => Sys2Proof.Machine.execVand m b a d s
  | .vor m b a d => Sys2Proof.Machine.execVor m b a d s
  | .vxor m b a d => Sys2Proof.Machine.execVxor m b a d s
  | .vsll m b a d => Sys2Proof.Machine.execVsll m b a d s
  | .vsrl m b a d => Sys2Proof.Machine.execVsrl m b a d s
  | .vsra m b a d => Sys2Proof.Machine.execVsra m b a d s
  | .vmin m b a d => Sys2Proof.Machine.execVmin m b a d s
  | .vmax m b a d => Sys2Proof.Machine.execVmax m b a d s
  | .vminu m b a d => Sys2Proof.Machine.execVminu m b a d s
  | .vmaxu m b a d => Sys2Proof.Machine.execVmaxu m b a d s
  | .vsadd m b a d => Sys2Proof.Machine.execVsadd m b a d s
  | .vsaddu m b a d => Sys2Proof.Machine.execVsaddu m b a d s
  | .vssub m b a d => Sys2Proof.Machine.execVssub m b a d s
  | .vssubu m b a d => Sys2Proof.Machine.execVssubu m b a d s
  | .vseq m b a d => Sys2Proof.Machine.execVseq m b a d s
  | .vsne m b a d => Sys2Proof.Machine.execVsne m b a d s
  | .vslt m b a d => Sys2Proof.Machine.execVslt m b a d s
  | .vsltu m b a d => Sys2Proof.Machine.execVsltu m b a d s
  | .vsle m b a d => Sys2Proof.Machine.execVsle m b a d s
  | .vsleu m b a d => Sys2Proof.Machine.execVsleu m b a d s
  | .vmerge m b a d => Sys2Proof.Machine.execVmerge m b a d s
  | .vavg m b a d => Sys2Proof.Machine.execVavg m b a d s
  | .vfadd m b a d => Sys2Proof.Machine.execVfadd m b a d s
  | .vfsub m b a d => Sys2Proof.Machine.execVfsub m b a d s
  | .vfmul m b a d => Sys2Proof.Machine.execVfmul m b a d s
  | .vfdiv m b a d => Sys2Proof.Machine.execVfdiv m b a d s
  | .vfmin m b a d => Sys2Proof.Machine.execVfmin m b a d s
  | .vfmax m b a d => Sys2Proof.Machine.execVfmax m b a d s
  | .vfsgnj m b a d => Sys2Proof.Machine.execVfsgnj m b a d s
  | .vfsgnjn m b a d => Sys2Proof.Machine.execVfsgnjn m b a d s
  | .vfsgnjx m b a d => Sys2Proof.Machine.execVfsgnjx m b a d s
  | .vfeq m b a d => Sys2Proof.Machine.execVfeq m b a d s
  | .vfne m b a d => Sys2Proof.Machine.execVfne m b a d s
  | .vflt m b a d => Sys2Proof.Machine.execVflt m b a d s
  | .vfle m b a d => Sys2Proof.Machine.execVfle m b a d s
  | .vfmerge m b a d => Sys2Proof.Machine.execVfmerge m b a d s
  | .vadds m st a d => Sys2Proof.Machine.execVadds m st a d s
  | .vsubs m st a d => Sys2Proof.Machine.execVsubs m st a d s
  | .vrsubs m st a d => Sys2Proof.Machine.execVrsubs m st a d s
  | .vmuls m st a d => Sys2Proof.Machine.execVmuls m st a d s
  | .vands m st a d => Sys2Proof.Machine.execVands m st a d s
  | .vors m st a d => Sys2Proof.Machine.execVors m st a d s
  | .vxors m st a d => Sys2Proof.Machine.execVxors m st a d s
  | .vslls m st a d => Sys2Proof.Machine.execVslls m st a d s
  | .vsrls m st a d => Sys2Proof.Machine.execVsrls m st a d s
  | .vsras m st a d => Sys2Proof.Machine.execVsras m st a d s
  | .vmins m st a d => Sys2Proof.Machine.execVmins m st a d s
  | .vmaxs m st a d => Sys2Proof.Machine.execVmaxs m st a d s
  | .vseqs m st a d => Sys2Proof.Machine.execVseqs m st a d s
  | .vslts m st a d => Sys2Proof.Machine.execVslts m st a d s
  | .vsgts m st a d => Sys2Proof.Machine.execVsgts m st a d s
  | .vmvs m st d => Sys2Proof.Machine.execVmvs m st d s
  | .vfadds m st a d => Sys2Proof.Machine.execVfadds m st a d s
  | .vfsubs m st a d => Sys2Proof.Machine.execVfsubs m st a d s
  | .vfrsubs m st a d => Sys2Proof.Machine.execVfrsubs m st a d s
  | .vfmuls m st a d => Sys2Proof.Machine.execVfmuls m st a d s
  | .vfdivs m st a d => Sys2Proof.Machine.execVfdivs m st a d s
  | .vfrdivs m st a d => Sys2Proof.Machine.execVfrdivs m st a d s
  | .vfmins m st a d => Sys2Proof.Machine.execVfmins m st a d s
  | .vfmaxs m st a d => Sys2Proof.Machine.execVfmaxs m st a d s
  | .vfeqs m st a d => Sys2Proof.Machine.execVfeqs m st a d s
  | .vflts m st a d => Sys2Proof.Machine.execVflts m st a d s
  | .vfgts m st a d => Sys2Proof.Machine.execVfgts m st a d s
  | .vfmvs m st d => Sys2Proof.Machine.execVfmvs m st d s
  | .vmv m a d => Sys2Proof.Machine.execVmv m a d s
  | .vnot m a d => Sys2Proof.Machine.execVnot m a d s
  | .vabs m a d => Sys2Proof.Machine.execVabs m a d s
  | .vneg m a d => Sys2Proof.Machine.execVneg m a d s
  | .vfabs m a d => Sys2Proof.Machine.execVfabs m a d s
  | .vfneg m a d => Sys2Proof.Machine.execVfneg m a d s
  | .vfsqrt m a d => Sys2Proof.Machine.execVfsqrt m a d s
  | .vfrecip m a d => Sys2Proof.Machine.execVfrecip m a d s
  | .vfrsqrt m a d => Sys2Proof.Machine.execVfrsqrt m a d s
  | .vfclass m a d => Sys2Proof.Machine.execVfclass m a d s
  | .vcvt f m a d => Sys2Proof.Machine.execVcvt f m a d s
  | .vquant m a d => Sys2Proof.Machine.execVquant m a d s
  | .vdequant m a d => Sys2Proof.Machine.execVdequant m a d s
  | .vredsumO m a d => Sys2Proof.Machine.execVredsumO m a d s
  | .vredsumT m a d => Sys2Proof.Machine.execVredsumT m a d s
  | .vredmin m a d => Sys2Proof.Machine.execVredmin m a d s
  | .vredmax m a d => Sys2Proof.Machine.execVredmax m a d s
  | .vredand m a d => Sys2Proof.Machine.execVredand m a d s
  | .vredor m a d => Sys2Proof.Machine.execVredor m a d s
  | .vredxor m a d => Sys2Proof.Machine.execVredxor m a d s
  | .vfredsumO m a d => Sys2Proof.Machine.execVfredsumO m a d s
  | .vfredsumT m a d => Sys2Proof.Machine.execVfredsumT m a d s
  | .vfredmin m a d => Sys2Proof.Machine.execVfredmin m a d s
  | .vfredmax m a d => Sys2Proof.Machine.execVfredmax m a d s
  | .vscanO m a d => Sys2Proof.Machine.execVscanO m a d s
  | .vscanT m a d => Sys2Proof.Machine.execVscanT m a d s
  | .vfscanO m a d => Sys2Proof.Machine.execVfscanO m a d s
  | .vfscanT m a d => Sys2Proof.Machine.execVfscanT m a d s
  | .vsegsum m b a d => Sys2Proof.Machine.execVsegsum m b a d s
  | .vfsegsum m b a d => Sys2Proof.Machine.execVfsegsum m b a d s
  | .vsegscan m b a d => Sys2Proof.Machine.execVsegscan m b a d s
  | .vfsegscan m b a d => Sys2Proof.Machine.execVfsegscan m b a d s
  | .vrgather m b a d => Sys2Proof.Machine.execVrgather m b a d s
  | .vcompress m a d => Sys2Proof.Machine.execVcompress m a d s
  | .vzip m b a d => Sys2Proof.Machine.execVzip m b a d s
  | .vunzip m b a d => Sys2Proof.Machine.execVunzip m b a d s
  | .vslideup m st a d => Sys2Proof.Machine.execVslideup m st a d s
  | .vslidedown m st a d => Sys2Proof.Machine.execVslidedown m st a d s
  | .vslide1up m st a d => Sys2Proof.Machine.execVslide1up m st a d s
  | .vslide1down m st a d => Sys2Proof.Machine.execVslide1down m st a d s
  | .vfslide1up m st a d => Sys2Proof.Machine.execVfslide1up m st a d s
  | .vfslide1down m st a d => Sys2Proof.Machine.execVfslide1down m st a d s
  | .viota m a d => Sys2Proof.Machine.execViota m a d s
  | .vid m st d => Sys2Proof.Machine.execVid m st d s
  | .mand b a d => Sys2Proof.Machine.execMand b a d s
  | .mor b a d => Sys2Proof.Machine.execMor b a d s
  | .mxor b a d => Sys2Proof.Machine.execMxor b a d s
  | .mandn b a d => Sys2Proof.Machine.execMandn b a d s
  | .mnot m a d => Sys2Proof.Machine.execMnot m a d s
  | .mfirst m a d => Sys2Proof.Machine.execMfirst m a d s
  | .mpopc m a d => Sys2Proof.Machine.execMpopc m a d s
  | .msbf m a d => Sys2Proof.Machine.execMsbf m a d s
  | .msif m a d => Sys2Proof.Machine.execMsif m a d s
  | .msof m a d => Sys2Proof.Machine.execMsof m a d s
  | .vfmadd m b a d => Sys2Proof.Machine.execVfmadd m b a d s
  | .vfmsub m b a d => Sys2Proof.Machine.execVfmsub m b a d s
  | .vfnmadd m b a d => Sys2Proof.Machine.execVfnmadd m b a d s
  | .vfnmsub m b a d => Sys2Proof.Machine.execVfnmsub m b a d s
  | .vmacc m b a d => Sys2Proof.Machine.execVmacc m b a d s
  | .vnmsac m b a d => Sys2Proof.Machine.execVnmsac m b a d s
  | .vmadd m b a d => Sys2Proof.Machine.execVmadd m b a d s
  | .vnmsub m b a d => Sys2Proof.Machine.execVnmsub m b a d s
  | .hint n => Sys2Proof.Machine.execHint n s
  | .cAddi d im => Sys2Proof.Machine.execCAddi d im s
  | .cAdd d b => Sys2Proof.Machine.execCAdd d b s
  | .cSub d b => Sys2Proof.Machine.execCSub d b s
  | .cAnd d b => Sys2Proof.Machine.execCAnd d b s
  | .cOr d b => Sys2Proof.Machine.execCOr d b s
  | .cXor d b => Sys2Proof.Machine.execCXor d b s
  | .cSlli d im => Sys2Proof.Machine.execCSlli d im s
  | .cSrli d im => Sys2Proof.Machine.execCSrli d im s
  | .cSrai d im => Sys2Proof.Machine.execCSrai d im s
  | .cLdd d b im => Sys2Proof.Machine.execCLdd d b im s
  | .cStd st b im => Sys2Proof.Machine.execCStd st b im s
  | .cBeq a o => Sys2Proof.Machine.execCBeq a o s
  | .cBne a o => Sys2Proof.Machine.execCBne a o s
  | .cJal o => Sys2Proof.Machine.execCJal o s
  | .cJalr d b => Sys2Proof.Machine.execCJalr d b s
  | .cMark k => Sys2Proof.Machine.execCMark k s
  | .illegalInstruction sub => Sys2Proof.Machine.execIllegalInstruction sub s
  | .anop => Sys2Proof.Machine.execAnop s
  | .ali d im => Sys2Proof.Machine.execAli d im s
  | .ashor d a im => Sys2Proof.Machine.execAshor d a im s
  | .aadd d a b => Sys2Proof.Machine.execAadd d a b s
  | .aaddi d a im => Sys2Proof.Machine.execAaddi d a im s
  | .asll d a im => Sys2Proof.Machine.execAsll d a im s
  | .amark d => Sys2Proof.Machine.execAmark d s
  | .ajmp o => Sys2Proof.Machine.execAjmp o s
  | .abeq a b o => Sys2Proof.Machine.execAbeq a b o s
  | .abne a b o => Sys2Proof.Machine.execAbne a b o s
  | .await k => Sys2Proof.Machine.execAwait k s
  | .adelay n => Sys2Proof.Machine.execAdelay n s
  | .aend => Sys2Proof.Machine.execAend s
  | .apfL1 a n => Sys2Proof.Machine.execApfL1 a n s
  | .apfL2 a n => Sys2Proof.Machine.execApfL2 a n s
  | .apfTc a n => Sys2Proof.Machine.execApfTc a n s
  | .atfetch a b => Sys2Proof.Machine.execAtfetch a b s
  | .akeep d a b => Sys2Proof.Machine.execAkeep d a b s
  | .aprio p => Sys2Proof.Machine.execAprio p s
  | .aorder m => Sys2Proof.Machine.execAorder m s
  | .aplace a => Sys2Proof.Machine.execAplace a s
  | .adviceWordDrop => Sys2Proof.Machine.execAdviceWordDrop s
  | .adelayExpiry who => Sys2Proof.Machine.execAdelayExpiry who s
  | .advicePrefetchWalk who level addr lines => Sys2Proof.Machine.execAdvicePrefetchWalk who level addr lines s
  | .uecAppend ep qcb recAddr payload => Sys2Proof.Machine.execUecAppend ep qcb recAddr payload s
  | .uecWrite ep addr data => Sys2Proof.Machine.execUecWrite ep addr data s
  | .uecRead ep addr count => Sys2Proof.Machine.execUecRead ep addr count s
  | .uecInvalidMessage ep => Sys2Proof.Machine.execUecInvalidMessage ep s
  | .getVersion ep => Sys2Proof.Machine.execGetVersion ep s
  | .getCapabilities ep => Sys2Proof.Machine.execGetCapabilities ep s
  | .negotiateAlgorithms ep => Sys2Proof.Machine.execNegotiateAlgorithms ep s
  | .getDigests ep slot => Sys2Proof.Machine.execGetDigests ep slot s
  | .getCertificate ep slot offset length => Sys2Proof.Machine.execGetCertificate ep slot offset length s
  | .challenge ep slot nonce => Sys2Proof.Machine.execChallenge ep slot nonce s
  | .getMeasurements ep index nonce => Sys2Proof.Machine.execGetMeasurements ep index nonce s
  | .spdmUnsupportedRequest ep code => Sys2Proof.Machine.execSpdmUnsupportedRequest ep code s
  | .cxlHostWrite pa data => Sys2Proof.Machine.execCxlHostWrite pa data s
  | .cxlHostRead pa count => Sys2Proof.Machine.execCxlHostRead pa count s
  | .loomAppendEvent qcb recAddr => Sys2Proof.Machine.execLoomAppendEvent qcb recAddr s
  | .dependenceMet qcb job => Sys2Proof.Machine.execDependenceMet qcb job s
  | .bundleEnded qcb job bundle => Sys2Proof.Machine.execBundleEnded qcb job bundle s
  | .jobEnded qcb job => Sys2Proof.Machine.execJobEnded qcb job s
  | .windowTick => Sys2Proof.Machine.execWindowTick s
  | .preEmptionComplete qcb job bundle => Sys2Proof.Machine.execPreEmptionComplete qcb job bundle s
  | .commandRefused command cause => Sys2Proof.Machine.execCommandRefused command cause s
  | .decRecordFlush qcb => Sys2Proof.Machine.execDecRecordFlush qcb s
  | .microcodeWatchdog => Sys2Proof.Machine.execMicrocodeWatchdog s
  | .microcodeSwitch => Sys2Proof.Machine.execMicrocodeSwitch s
  | .powerOn => Sys2Proof.Machine.execPowerOn s
  | .deepIdleEntry => Sys2Proof.Machine.execDeepIdleEntry s
  | .deepIdleExit => Sys2Proof.Machine.execDeepIdleExit s
  | .clockLower => Sys2Proof.Machine.execClockLower s
  | .taskStart who => Sys2Proof.Machine.execTaskStart who s
  | .taskEnd who => Sys2Proof.Machine.execTaskEnd who s
  | .urgent who => Sys2Proof.Machine.execUrgent who s
  | .yieldExpiry who => Sys2Proof.Machine.execYieldExpiry who s
  | .rowGrant core => Sys2Proof.Machine.execRowGrant core s
  | .operationComplete who cls => Sys2Proof.Machine.execOperationComplete who cls s
  | .barrierRelease key => Sys2Proof.Machine.execBarrierRelease key s
  | .shuttlePostObserved die ch pos => Sys2Proof.Machine.execShuttlePostObserved die ch pos s
  | .reservationHoldExpiry block => Sys2Proof.Machine.execReservationHoldExpiry block s
  | .copySourceRead who h => Sys2Proof.Machine.execCopySourceRead who h s
  | .copyComplete who h => Sys2Proof.Machine.execCopyComplete who h s
  | .streamStripArrival who h => Sys2Proof.Machine.execStreamStripArrival who h s
  | .vpushDelivery n => Sys2Proof.Machine.execVpushDelivery n s
  | .xredComplete n remote => Sys2Proof.Machine.execXredComplete n remote s
  | .oruAccept n => Sys2Proof.Machine.execOruAccept n s
  | .missEntryGrant slice => Sys2Proof.Machine.execMissEntryGrant slice s
  | .l2DrowsyEntry slice => Sys2Proof.Machine.execL2DrowsyEntry slice s
  | .tileFill ctx tensor im j => Sys2Proof.Machine.execTileFill ctx tensor im j s
  | .regionConflict who line write => Sys2Proof.Machine.execRegionConflict who line write s
  | .narrowingApply n => Sys2Proof.Machine.execNarrowingApply n s
  | .commit who => Sys2Proof.Machine.execCommit who s
  | .finalApply n => Sys2Proof.Machine.execFinalApply n s
  | .positionRenewal => Sys2Proof.Machine.execPositionRenewal s
  | .slotFull quad slot => Sys2Proof.Machine.execSlotFull quad slot s
  | .slotFree quad slot => Sys2Proof.Machine.execSlotFree quad slot s
  | .tileOpStart quad => Sys2Proof.Machine.execTileOpStart quad s
  | .tileOpComplete quad => Sys2Proof.Machine.execTileOpComplete quad s
  | .linkRetry link lastRetry => Sys2Proof.Machine.execLinkRetry link lastRetry s
  | .fieldRepair unit => Sys2Proof.Machine.execFieldRepair unit s
  | .agentFatalError dead => Sys2Proof.Machine.execAgentFatalError dead s
  | .agentResponseTimeout dead => Sys2Proof.Machine.execAgentResponseTimeout dead s
  | .readmission dead => Sys2Proof.Machine.execReadmission dead s
  | .traceSample who => Sys2Proof.Machine.execTraceSample who s
  | .ctxRoot ctx value => Sys2Proof.Machine.execCtxRoot ctx value s
  | .ctxEnd ctx => Sys2Proof.Machine.execCtxEnd ctx s
  | .tenantDesc tenant addr => Sys2Proof.Machine.execTenantDesc tenant addr s
  | .shuttleGrant idx value => Sys2Proof.Machine.execShuttleGrant idx value s
  | .collGrant group value => Sys2Proof.Machine.execCollGrant group value s
  | .uecBind ep value => Sys2Proof.Machine.execUecBind ep value s
  | .codeLoad ctx addr => Sys2Proof.Machine.execCodeLoad ctx addr s
  | .advLoad ctx addr => Sys2Proof.Machine.execAdvLoad ctx addr s
  | .loomReload addr => Sys2Proof.Machine.execLoomReload addr s
  | .biasFlip region value => Sys2Proof.Machine.execBiasFlip region value s
  | .biasFlipComplete region => Sys2Proof.Machine.execBiasFlipComplete region s
  | .ctxLostClear value => Sys2Proof.Machine.execCtxLostClear value s
  | .ctxSaveUseClear idx value => Sys2Proof.Machine.execCtxSaveUseClear idx value s
  | .stallEvictClear => Sys2Proof.Machine.execStallEvictClear s
  | .sysregWrite num idx value => Sys2Proof.Machine.execSysregWrite num idx value s
  | .registerBankRetention core bank => Sys2Proof.Machine.execRegisterBankRetention core bank s

end Sys2Proof.Machine
end

