-- ==== Sys2Proof/Machine/Reads.lean ====
section
/-! DEFINITION. Which scalar and mask registers an instruction reads (R313). Vector sources are looked at element by element, by the
instructions themselves. -/

namespace Sys2Proof.Machine

open Sys2Proof

/-- The scalar registers that an instruction reads. -/
def scalarReads : Instr → List (BitVec 5)
  | .add b a _ | .sub b a _ | .and b a _ | .or b a _ | .xor b a _ | .sll b a _ | .srl b a _ | .sra b a _ | .addw b a _
  | .subw b a _ | .sllw b a _ | .srlw b a _ | .sraw b a _ | .min b a _ | .max b a _ | .minu b a _ | .maxu b a _
  | .andn b a _ | .orn b a _ | .mul b a _ | .mulh b a _ | .mulhu b a _ | .mulhsu b a _ | .div b a _ | .divu b a _
  | .rem b a _ | .remu b a _ | .mulw b a _ | .divw b a _ | .remw b a _ | .beq _ b a | .bne _ b a | .blt _ b a
  | .bge _ b a | .bltu _ b a | .bgeu _ b a | .seq b a _ | .sne b a _ | .slt b a _ | .sltu b a _ | .bext b a _
  | .bdep b a _ | .rotl b a _ | .rotr b a _ | .amoswap _ b a _ | .amoadd _ b a _ | .amoand _ b a _ | .amoor _ b a _
  | .amoxor _ b a _ | .amomin _ b a _ | .amomax _ b a _ | .amominu _ b a _ | .amomaxu _ b a _ | .sc _ b a _
  | .amoswapW _ b a _ | .amoaddW _ b a _ | .amoandW _ b a _ | .amoorW _ b a _ | .amoxorW _ b a _ | .amominW _ b a _
  | .amomaxW _ b a _ | .amominuW _ b a _ | .amomaxuW _ b a _ | .scW _ b a _ | .xbnd b a _ | .sclaim b a _ => [a, b]
  | .addi _ a _ | .andi _ a _ | .ori _ a _ | .xori _ a _ | .slli _ a _ | .srli _ a _ | .srai _ a _ | .shori _ a _
  | .addiw _ a _ | .jalr _ a _ | .ret a | .clz a _ | .ctz a _ | .cpop a _ | .rev8 a _ | .lr _ a _ | .lrW _ a _
  | .setvl _ _ _ _ a _ | .setsw a _ | .setrm a _ | .fenceCReg _ a | .bar _ _ a | .barW _ _ a | .arrive _ _ a _
  | .ipost _ _ _ a | .iwait _ _ _ a | .getc _ a _ | .tlbsync a | .ilock _ a _ | .iunlock _ a _ | .copyCfg _ _ _ a
  | .xabort a | .srel a | .oput _ a _ _ | .accget _ a _ | .accput _ a _ | .scldA _ a _ _ | .scldW _ a _ => [a]
  | .ldb _ _ b _ | .ldh _ _ b _ | .ldw _ _ b _ | .ldd _ _ b _ | .ldbu _ _ b _ | .ldhu _ _ b _ | .ldwu _ _ b _
  | .vld _ _ b _ | .vgather _ _ _ b _ | .vldff _ _ b _ | .vst _ _ b _ | .vscatter _ _ _ b _ | .vamoAdd _ _ b _
  | .vamoMin _ _ b _ | .vamoMax _ _ b _ | .vamoAnd _ _ b _ | .vamoOr _ _ b _ | .vamoXor _ _ b _ | .vamoSwap _ _ b _
  | .lsld _ b _ | .lsgather _ _ b _ | .lsst _ b _ | .lsscatter _ _ b _ | .vpush _ b _ _ | .xredO _ b _ _
  | .xredF _ b _ _ | .cJalr _ b => [b]
  | .stb _ _ b s | .sth _ _ b s | .stw _ _ b s | .std _ _ b s | .vlds _ _ s b _ | .lslds _ s b _ | .lsldq _ s b _
  | .lssts _ s b _ | .lsstq _ s b _ => [b, s]
  | .amocas _ b a d | .amocasW _ b a d => [a, b, d]
  | .strip _ n p c => c :: (List.range (n.toNat + 1)).map fun k => p + BitVec.ofNat 5 k
  | .launch c b a _ => [a, b, c]
  | .setc _ a j => [a, j]
  | .tlbinv a s => [a, s]
  | .vsts _ _ x b _ => [b, x]
  | .damoAdd _ _ b _ => [b, b + 1]
  | .treg _ i b _ => [i, b]
  | .tunreg i _ | .tinv i _ => [i]
  | .tlook c i _ | .tfetch c i | .tkeep c i _ => [c, i]
  | .thalo _ c i d => [c, i, d]
  | .accstore _ a => [a, a + 1]
  | .vadds _ s _ _ | .vsubs _ s _ _ | .vrsubs _ s _ _ | .vmuls _ s _ _ | .vands _ s _ _ | .vors _ s _ _
  | .vxors _ s _ _ | .vslls _ s _ _ | .vsrls _ s _ _ | .vsras _ s _ _ | .vmins _ s _ _ | .vmaxs _ s _ _
  | .vseqs _ s _ _ | .vslts _ s _ _ | .vsgts _ s _ _ | .vmvs _ s _ | .vfadds _ s _ _ | .vfsubs _ s _ _
  | .vfrsubs _ s _ _ | .vfmuls _ s _ _ | .vfdivs _ s _ _ | .vfrdivs _ s _ _ | .vfmins _ s _ _ | .vfmaxs _ s _ _
  | .vfeqs _ s _ _ | .vflts _ s _ _ | .vfgts _ s _ _ | .vfmvs _ s _ | .vslideup _ s _ _ | .vslidedown _ s _ _
  | .vslide1up _ s _ _ | .vslide1down _ s _ _ | .vfslide1up _ s _ _ | .vfslide1down _ s _ _ | .vid _ s _ => [s]
  | .cAddi d _ | .cSlli d _ | .cSrli d _ | .cSrai d _ => [d]
  | .cAdd d b | .cSub d b | .cAnd d b | .cOr d b | .cXor d b => [d, b]
  | .cLdd _ b _ => [shortReg b]
  | .cStd s b _ => [s, shortReg b]
  | .cBeq a _ | .cBne a _ => [shortReg a]
  | _ => []

/-- The mask registers that an instruction reads. -/
def maskReads : Instr → List Nat
  | .vld _ m _ _ | .vlds _ m _ _ _ | .vgather _ m _ _ _ | .vldff _ m _ _ | .vst _ m _ _ | .vsts _ m _ _ _
  | .vscatter _ m _ _ _ | .vamoAdd m _ _ _ | .vamoMin m _ _ _ | .vamoMax m _ _ _ | .vamoAnd m _ _ _ | .vamoOr m _ _ _
  | .vamoXor m _ _ _ | .vamoSwap m _ _ _ | .damoAdd m _ _ _ | .lsld m _ _ | .lslds m _ _ _ | .lsgather m _ _ _
  | .lsldq m _ _ _ | .lsst m _ _ | .lssts m _ _ _ | .lsscatter m _ _ _ | .lsstq m _ _ _ | .vadd m _ _ _
  | .vsub m _ _ _ | .vrsub m _ _ _ | .vmul m _ _ _ | .vmulh m _ _ _ | .vmulhu m _ _ _ | .vdiv m _ _ _ | .vdivu m _ _ _
  | .vrem m _ _ _ | .vremu m _ _ _ | .vand m _ _ _ | .vor m _ _ _ | .vxor m _ _ _ | .vsll m _ _ _ | .vsrl m _ _ _
  | .vsra m _ _ _ | .vmin m _ _ _ | .vmax m _ _ _ | .vminu m _ _ _ | .vmaxu m _ _ _ | .vsadd m _ _ _ | .vsaddu m _ _ _
  | .vssub m _ _ _ | .vssubu m _ _ _ | .vseq m _ _ _ | .vsne m _ _ _ | .vslt m _ _ _ | .vsltu m _ _ _ | .vsle m _ _ _
  | .vsleu m _ _ _ | .vmerge m _ _ _ | .vavg m _ _ _ | .vfadd m _ _ _ | .vfsub m _ _ _ | .vfmul m _ _ _
  | .vfdiv m _ _ _ | .vfmin m _ _ _ | .vfmax m _ _ _ | .vfsgnj m _ _ _ | .vfsgnjn m _ _ _ | .vfsgnjx m _ _ _
  | .vfeq m _ _ _ | .vfne m _ _ _ | .vflt m _ _ _ | .vfle m _ _ _ | .vfmerge m _ _ _ | .vadds m _ _ _ | .vsubs m _ _ _
  | .vrsubs m _ _ _ | .vmuls m _ _ _ | .vands m _ _ _ | .vors m _ _ _ | .vxors m _ _ _ | .vslls m _ _ _
  | .vsrls m _ _ _ | .vsras m _ _ _ | .vmins m _ _ _ | .vmaxs m _ _ _ | .vseqs m _ _ _ | .vslts m _ _ _
  | .vsgts m _ _ _ | .vmvs m _ _ | .vfadds m _ _ _ | .vfsubs m _ _ _ | .vfrsubs m _ _ _ | .vfmuls m _ _ _
  | .vfdivs m _ _ _ | .vfrdivs m _ _ _ | .vfmins m _ _ _ | .vfmaxs m _ _ _ | .vfeqs m _ _ _ | .vflts m _ _ _
  | .vfgts m _ _ _ | .vfmvs m _ _ | .vmv m _ _ | .vnot m _ _ | .vabs m _ _ | .vneg m _ _ | .vfabs m _ _ | .vfneg m _ _
  | .vfsqrt m _ _ | .vfrecip m _ _ | .vfrsqrt m _ _ | .vfclass m _ _ | .vcvt _ m _ _ | .vquant m _ _ | .vdequant m _ _
  | .vredsumO m _ _ | .vredsumT m _ _ | .vredmin m _ _ | .vredmax m _ _ | .vredand m _ _ | .vredor m _ _
  | .vredxor m _ _ | .vfredsumO m _ _ | .vfredsumT m _ _ | .vfredmin m _ _ | .vfredmax m _ _ | .vscanO m _ _
  | .vscanT m _ _ | .vfscanO m _ _ | .vfscanT m _ _ | .vrgather m _ _ _ | .vcompress m _ _ | .vzip m _ _ _
  | .vunzip m _ _ _ | .vslideup m _ _ _ | .vslidedown m _ _ _ | .vslide1up m _ _ _ | .vslide1down m _ _ _
  | .vfslide1up m _ _ _ | .vfslide1down m _ _ _ | .vid m _ _ | .vfmadd m _ _ _ | .vfmsub m _ _ _ | .vfnmadd m _ _ _
  | .vfnmsub m _ _ _ | .vmacc m _ _ _ | .vnmsac m _ _ _ | .vmadd m _ _ _ | .vnmsub m _ _ _ => [m.toNat]
  | .vsegsum m b _ _ | .vfsegsum m b _ _ | .vsegscan m b _ _ | .vfsegscan m b _ _ => [m.toNat, b.toNat]
  | .viota m a _ | .mnot m a _ | .mfirst m a _ | .mpopc m a _ | .msbf m a _ | .msif m a _ | .msof m a _ =>
    [m.toNat, a.toNat]
  | .mand b a _ | .mor b a _ | .mxor b a _ | .mandn b a _ => [a.toNat, b.toNat]
  | _ => []

/-- The scalar registers among them on which it depends what an instruction accesses. -/
def addressReads : Instr → List (BitVec 5)
  | .ldb _ _ b _ | .ldh _ _ b _ | .ldw _ _ b _ | .ldd _ _ b _ | .ldbu _ _ b _ | .ldhu _ _ b _ | .ldwu _ _ b _
  | .stb _ _ b _ | .sth _ _ b _ | .stw _ _ b _ | .std _ _ b _ | .vld _ _ b _ | .vgather _ _ _ b _ | .vldff _ _ b _
  | .vst _ _ b _ | .vscatter _ _ _ b _ | .vamoAdd _ _ b _ | .vamoMin _ _ b _ | .vamoMax _ _ b _ | .vamoAnd _ _ b _
  | .vamoOr _ _ b _ | .vamoXor _ _ b _ | .vamoSwap _ _ b _ | .lsld _ b _ | .lsgather _ _ b _ | .lsst _ b _
  | .lsscatter _ _ b _ | .vpush _ b _ _ | .xredO _ b _ _ | .xredF _ b _ _ => [b]
  | .amoswap _ _ a _ | .amoadd _ _ a _ | .amoand _ _ a _ | .amoor _ _ a _ | .amoxor _ _ a _ | .amomin _ _ a _
  | .amomax _ _ a _ | .amominu _ _ a _ | .amomaxu _ _ a _ | .amocas _ _ a _ | .lr _ a _ | .sc _ _ a _
  | .amoswapW _ _ a _ | .amoaddW _ _ a _ | .amoandW _ _ a _ | .amoorW _ _ a _ | .amoxorW _ _ a _ | .amominW _ _ a _
  | .amomaxW _ _ a _ | .amominuW _ _ a _ | .amomaxuW _ _ a _ | .amocasW _ _ a _ | .lrW _ a _ | .scW _ _ a _
  | .getc _ a _ | .tlbsync a | .ilock _ a _ | .iunlock _ a _ | .copyCfg _ _ _ a | .oput _ a _ _ | .accget _ a _
  | .accput _ a _ | .scldA _ a _ _ | .scldW _ a _ => [a]
  | .launch _ b a _ => [a, b]
  | .setc _ a j => [a, j]
  | .tlbinv a s => [a, s]
  | .vlds _ _ s b _ | .lslds _ s b _ | .lsldq _ s b _ | .lssts _ s b _ | .lsstq _ s b _ => [b, s]
  | .vsts _ _ x b _ => [b, x]
  | .damoAdd _ _ b _ => [b, b + 1]
  | .treg _ i b _ => [i, b]
  | .tunreg i _ | .tinv i _ => [i]
  | .tlook c i _ | .tfetch c i | .tkeep c i _ => [c, i]
  | .thalo _ c i d => [c, i, d]
  | .accstore _ a => [a, a + 1]
  | .cLdd _ b _ | .cStd _ b _ => [shortReg b]
  | _ => []

/-- The ordering class of an instruction's accesses to memory, or of those of the operation that it gives to an engine (R65, R123). -/
def accessClass : Instr → Option (BitVec 4)
  | .ldb _ c _ _ | .ldh _ c _ _ | .ldw _ c _ _ | .ldd _ c _ _ | .ldbu _ c _ _ | .ldhu _ c _ _ | .ldwu _ c _ _
  | .stb _ c _ _ | .sth _ c _ _ | .stw _ c _ _ | .std _ c _ _ | .amoswap c _ _ _ | .amoadd c _ _ _ | .amoand c _ _ _
  | .amoor c _ _ _ | .amoxor c _ _ _ | .amomin c _ _ _ | .amomax c _ _ _ | .amominu c _ _ _ | .amomaxu c _ _ _
  | .amocas c _ _ _ | .lr c _ _ | .sc c _ _ _ | .amoswapW c _ _ _ | .amoaddW c _ _ _ | .amoandW c _ _ _
  | .amoorW c _ _ _ | .amoxorW c _ _ _ | .amominW c _ _ _ | .amomaxW c _ _ _ | .amominuW c _ _ _ | .amomaxuW c _ _ _
  | .amocasW c _ _ _ | .lrW c _ _ | .scW c _ _ _ | .vld c _ _ _ | .vlds c _ _ _ _ | .vgather c _ _ _ _
  | .vldff c _ _ _ | .vst c _ _ _ | .vsts c _ _ _ _ | .vscatter c _ _ _ _ | .copyCfg c _ _ _ | .vpush c _ _ _
  | .xredO c _ _ _ | .xredF c _ _ _ | .treg c _ _ _ | .oput c _ _ _ | .accget c _ _ | .accput c _ _ | .accstore c _
  | .scldA c _ _ _ | .scldW c _ _ => some c
  | .vamoAdd _ _ _ _ | .vamoMin _ _ _ _ | .vamoMax _ _ _ _ | .vamoAnd _ _ _ _ | .vamoOr _ _ _ _ | .vamoXor _ _ _ _
  | .vamoSwap _ _ _ _ | .damoAdd _ _ _ _ | .xbeginE _ _ | .xbeginS _ _ | .xend _ => some 15
  | .thalo k _ _ _ => some k
  | .cLdd _ _ _ | .cStd _ _ _ => some 0
  | _ => none

/-- A scalar register of some holds an uncorrectable error (R313). -/
def Hart.scalarLost (h : Hart) (l : List (BitVec 5)) : Bool := l.any fun r => r != 0 && h.parity.elem (.s r.toNat)

/-- A mask register that the instruction reads holds an uncorrectable error in a slot with bits of elements below vl (R313). -/
def Hart.maskLost (h : Hart) (i : Instr) : Bool :=
  (maskReads i).any fun n => n != 0 && (List.range ((h.vl.toNat + 63) / 64)).any fun k => h.parity.elem (.m n k)

/-- The scalar registers that the instruction reads now: a bar whose arrival has counted reads none (R114). -/
def Hart.readsNow (h : Hart) : Instr → List (BitVec 5)
  | .bar _ _ a => if h.barWait.isSome then [] else [a]
  | i => scalarReads i

/-- A scalar or mask register that the instruction reads holds an uncorrectable error (R313). -/
def Hart.readsLost (h : Hart) (i : Instr) : Bool := !h.parity.isEmpty && (h.scalarLost (h.readsNow i) || h.maskLost i)

/-- A lost register leaves open what the instruction accesses, or which elements of it are active. -/
def Hart.extentLost (h : Hart) (i : Instr) : Bool := h.scalarLost (addressReads i) || h.maskLost i

end Sys2Proof.Machine
end

