-- ==== Sys2Proof/Machine/Turn.lean ====
section
/-! DEFINITION. One turn of the machine: which hart issues (R95), fetching and decoding at its pc (R58), breakpoints
before an instruction (R305), the advice sequencer's turn (R287), the hardware steps that have become due, and the
placing of a word where the next step fetches it. -/

namespace Sys2Proof.Machine

open Sys2Proof

/-! Due steps and rows. -/

/-- The row of the table that a due step performs, where one does: the advice sequencer's turn runs a word of its image instead, a
message goes on to be performed, and the Loom looks again at what stands. -/
noncomputable def Due.instr : Due → Option Instr
  | .advice _ => none
  | .message _ => none
  | .loomAgain => none
  | .adelayExpiry who => some (.adelayExpiry who)
  | .advicePrefetchWalk who level addr lines => some (.advicePrefetchWalk who level addr lines)
  | .loomAppendEvent qcb recAddr => some (.loomAppendEvent qcb recAddr)
  | .dependenceMet qcb job => some (.dependenceMet qcb job)
  | .bundleEnded qcb job bundle => some (.bundleEnded qcb job bundle)
  | .jobEnded qcb job => some (.jobEnded qcb job)
  | .windowTick => some .windowTick
  | .preEmptionComplete qcb job bundle => some (.preEmptionComplete qcb job bundle)
  | .commandRefused command cause => some (.commandRefused command cause)
  | .decRecordFlush qcb => some (.decRecordFlush qcb)
  | .microcodeSwitch => some .microcodeSwitch
  | .taskStart who => some (.taskStart who)
  | .taskEnd who => some (.taskEnd who)
  | .urgent who => some (.urgent who)
  | .yieldExpiry who => some (.yieldExpiry who)
  | .operationComplete who cls => some (.operationComplete who cls)
  | .barrierRelease key => some (.barrierRelease key)
  | .shuttlePostObserved die ch pos => some (.shuttlePostObserved die ch pos)
  | .reservationHoldExpiry block => some (.reservationHoldExpiry block)
  | .copySourceRead who h => some (.copySourceRead who h)
  | .copyComplete who h => some (.copyComplete who h)
  | .streamStripArrival who h => some (.streamStripArrival who h)
  | .vpushDelivery n => some (.vpushDelivery n)
  | .xredComplete n => some (.xredComplete n [])
  | .oruAccept n => some (.oruAccept n)
  | .tileFill ctx tensor i j => some (.tileFill ctx tensor i j)
  | .narrowingApply n => some (.narrowingApply n)
  | .commit who => some (.commit who)
  | .finalApply n => some (.finalApply n)
  | .positionRenewal => some .positionRenewal
  | .slotFull quad slot => some (.slotFull quad slot)
  | .slotFree quad slot => some (.slotFree quad slot)
  | .tileOpStart quad => some (.tileOpStart quad)
  | .tileOpComplete quad => some (.tileOpComplete quad)
  | .biasFlipComplete region => some (.biasFlipComplete region)
  | .rowGrant core => some (.rowGrant core)
  | .cxlHostWrite pa data => some (.cxlHostWrite pa data)
  | .cxlHostRead pa count => some (.cxlHostRead pa count)
  | .fieldRepair unit => some (.fieldRepair unit)

/-- The rows that the hardware, or the outside, performs as a step of its own. -/
def isStep : Instr → Bool
  | .adelayExpiry _ | .advicePrefetchWalk _ _ _ _ | .uecAppend _ _ _ _ | .uecWrite _ _ _ | .uecRead _ _ _
  | .uecInvalidMessage _ | .getVersion _ | .getCapabilities _ | .negotiateAlgorithms _ | .getDigests _ _
  | .getCertificate _ _ _ _ | .challenge _ _ _ | .getMeasurements _ _ _ | .spdmUnsupportedRequest _ _
  | .cxlHostWrite _ _ | .cxlHostRead _ _ | .loomAppendEvent _ _ | .dependenceMet _ _ | .bundleEnded _ _ _
  | .jobEnded _ _ | .windowTick | .preEmptionComplete _ _ _ | .commandRefused _ _ | .decRecordFlush _
  | .microcodeWatchdog | .microcodeSwitch | .powerOn | .deepIdleEntry | .deepIdleExit | .clockLower | .taskStart _
  | .taskEnd _ | .urgent _ | .yieldExpiry _ | .rowGrant _ | .operationComplete _ _ | .barrierRelease _
  | .shuttlePostObserved _ _ _ | .reservationHoldExpiry _ | .copySourceRead _ _ | .copyComplete _ _
  | .streamStripArrival _ _ | .vpushDelivery _ | .oruAccept _ | .missEntryGrant _ | .l2DrowsyEntry _
  | .tileFill _ _ _ _ | .regionConflict _ _ _ | .narrowingApply _ | .commit _ | .finalApply _ | .positionRenewal
  | .slotFull _ _ | .slotFree _ _ | .tileOpStart _ | .tileOpComplete _ | .linkRetry _ _ | .fieldRepair _
  | .agentFatalError _ | .agentResponseTimeout _ | .readmission _ | .traceSample _ | .ctxRoot _ _ | .ctxEnd _
  | .tenantDesc _ _ | .shuttleGrant _ _ | .collGrant _ _ | .uecBind _ _ | .codeLoad _ _ | .advLoad _ _
  | .loomReload _ | .biasFlip _ _ | .biasFlipComplete _ | .ctxLostClear _ | .ctxSaveUseClear _ _ | .stallEvictClear
  | .sysregWrite _ _ _ | .registerBankRetention _ _ | .xredComplete _ _ => true
  | _ => false

/-! Which hart issues (R95). -/

/-- The hart's next instruction may issue (R95). -/
def Hart.ready (h : Hart) : Bool :=
  h.active && h.started && !h.ending && h.wait.isNone && decide (h.yielded = 0)

/-- The two share an issue arbiter: harts of one core, or a control core with itself (R95). -/
def sameCore (a b : AgentId) : Bool :=
  decide (a.control = b.control) && decide (a.quad = b.quad) && (a.control || decide (a.core = b.core))

/-- How far a hart stands after the one granted last (R95). -/
def Hart.turnFrom (h : Hart) (last : BitVec 3) : Nat := (h.id.hart + 7 - last.toNat) % 8

/-- The hart is urgent: it has been ready for 8 consecutive grants of its core without issuing (R95). -/
def Hart.pressing (h : Hart) : Bool := h.urgent || decide (8 ≤ h.passed)

/-- The arbiter grants a before b (R95): urgent ones first and the oldest of them, then priority, then the round. -/
def before (last : BitVec 3) (a b : Hart) : Bool :=
  if a.pressing && b.pressing then
    decide (b.passed < a.passed) || (decide (a.passed = b.passed) && decide (a.turnFrom last < b.turnFrom last))
  else if a.pressing || b.pressing then a.pressing
  else decide (b.prio < a.prio) || (decide (a.prio = b.prio) && decide (a.turnFrom last < b.turnFrom last))

/-- The hart granted among some (R95). -/
def granted (last : BitVec 3) : List Hart → Option Hart
  | [] => none
  | h :: rest => match granted last rest with
    | none => some h
    | some k => if before last k h then some k else some h

/-- The hart that issues next: the first agent in the order that has a ready hart, then its arbiter's choice. The order
among agents is the model's own (DESIGN CHOICE, log 21). -/
def State.grant (s : State) : Option Hart :=
  match (s.parked ++ [s.hart]).filter Hart.ready with
  | [] => none
  | h :: rest => granted (s.core (globalCore h.id)).last (h :: rest.filter fun k => sameCore k.id h.id)

/-- The hart of that name stands first; those of its core go to the end of the order. -/
def State.focus (s : State) (g : Hart) : State :=
  let others := (s.parked ++ [s.hart]).filter fun h => decide (h.id ≠ g.id)
  { s with
    hart := g
    parked := (others.filter fun h => !sameCore h.id g.id) ++ others.filter fun h => sameCore h.id g.id }

/-- A hart that waited can issue again: its ready time starts anew (R95). -/
def Hart.retry (h : Hart) : Hart := if h.wait.isNone then h else { h with wait := none, passed := 0 }

/-- One ac passes for a yield and for a delay of the advice context (R118, R291). -/
def Hart.elapse (h : Hart) : Hart :=
  { h with
    yielded := if 1#9 < h.yielded then h.yielded - 1 else h.yielded
    adv := if h.adv.state = .delaying ∧ h.adv.delay ≠ 0 then { h.adv with delay := h.adv.delay - 1 } else h.adv }

/-- What becomes due for a hart as one ac passes. -/
def Hart.elapsed (h : Hart) : List Due :=
  (if h.yielded = 2 then [.yieldExpiry h.id] else []) ++
    if h.adv.state = .delaying ∧ h.adv.delay = 1 then [.adelayExpiry h.id] else []

/-- One ac of the timebase (R2), and the window's end every 4000 ticks of it, which comes before all else that is due (R94). The
timebase runs on at its own rate under a lowered clock, whose ac lasts longer by a free value
(R94, log 51). -/
def State.advanceTime (s : State) : State :=
  let low := s.pkg.clockLow
  let n := s.pkg.phase.toNat + 5 + (if low then Config.slowClock s.free else 0)
  let now := s.pkg.timebase.toNat + n / 18
  let t := (if low then s.fresh else s).onPkg fun p => { p with phase := BitVec.ofNat 5 (n % 18), timebase := BitVec.ofNat 64 now }
  if now / 4000 = s.pkg.timebase.toNat / 4000 then t else { t with agenda := .windowTick :: t.agenda, eventTurn := true }

/-- One ac passes: each own step of the machine takes one (DESIGN CHOICE, log 21). -/
def State.tick (s : State) : State :=
  let t := s.advanceTime.updateAll Hart.elapse
  { t with agenda := t.agenda ++ s.harts.flatMap Hart.elapsed }

/-- A ready hart of the core was passed over once more; after eight times URGENT is due (R95). -/
def State.passOver (s : State) (g : AgentId) : State :=
  let mine := fun (h : Hart) => h.ready && sameCore h.id g
  let s := { s with parked := s.parked.map fun h => if mine h then { h with passed := h.passed + 1 } else h }
  (s.parked.filter fun h => mine h && decide (h.passed = 8)).foldl (fun s h => s.due (.urgent h.id)) s

/-- A hart of a core issues: the banks of its row pool leave retention, since renaming draws from them (R35, R55). -/
def Core.issues (c : Core) (hart : Nat) : Core :=
  { c with last := BitVec.ofNat 3 hart, retained := c.retained.filter (· < 8) }

/-- A hart is granted its issue slot (R95). -/
def State.prepare (s : State) (g : Hart) : State :=
  let s := { s.focus g with eventTurn := true }.passOver g.id
  let s := if g.id.control then s else s.onCore (globalCore g.id) fun c => c.issues g.id.hart
  s.on fun h => { h with passed := 0, urgent := false }

/-! Issuing. -/

/-- How a breakpoint can stop an instruction inside (R305): the number of its governing mask register, and whether its
destination is a stream, which nothing stops inside. -/
structure Stops where
  mask : Nat
  stream : Bool

/-- The instructions that a breakpoint can stop inside. -/
def stops : Instr → Option Stops
  | .vld _ m _ d | .vlds _ m _ _ d | .vgather _ m _ _ d | .vldff _ m _ d | .lsld m _ d | .lslds m _ _ d
  | .lsgather m _ _ d => some ⟨m.toNat, isStream d⟩
  | .vst _ m _ _ | .vsts _ m _ _ _ | .vscatter _ m _ _ _ | .vamoAdd m _ _ _ | .vamoMin m _ _ _ | .vamoMax m _ _ _
  | .vamoAnd m _ _ _ | .vamoOr m _ _ _ | .vamoXor m _ _ _ | .vamoSwap m _ _ _ | .lsldq m _ _ _ | .lsst m _ _
  | .lssts m _ _ _ | .lsscatter m _ _ _ | .lsstq m _ _ _ => some ⟨m.toNat, false⟩
  | .vadd m _ _ d | .vsub m _ _ d | .vrsub m _ _ d | .vmul m _ _ d | .vmulh m _ _ d | .vmulhu m _ _ d
  | .vdiv m _ _ d | .vdivu m _ _ d | .vrem m _ _ d | .vremu m _ _ d | .vand m _ _ d | .vor m _ _ d
  | .vxor m _ _ d | .vsll m _ _ d | .vsrl m _ _ d | .vsra m _ _ d | .vmin m _ _ d | .vmax m _ _ d
  | .vminu m _ _ d | .vmaxu m _ _ d | .vsadd m _ _ d | .vsaddu m _ _ d | .vssub m _ _ d | .vssubu m _ _ d
  | .vavg m _ _ d | .vfadd m _ _ d | .vfsub m _ _ d | .vfmul m _ _ d | .vfdiv m _ _ d | .vfmin m _ _ d
  | .vfmax m _ _ d | .vfsgnj m _ _ d | .vfsgnjn m _ _ d | .vfsgnjx m _ _ d | .vadds m _ _ d | .vsubs m _ _ d
  | .vrsubs m _ _ d | .vmuls m _ _ d | .vands m _ _ d | .vors m _ _ d | .vxors m _ _ d | .vslls m _ _ d
  | .vsrls m _ _ d | .vsras m _ _ d | .vmins m _ _ d | .vmaxs m _ _ d | .vmvs m _ d | .vfadds m _ _ d
  | .vfsubs m _ _ d | .vfrsubs m _ _ d | .vfmuls m _ _ d | .vfdivs m _ _ d | .vfrdivs m _ _ d | .vfmins m _ _ d
  | .vfmaxs m _ _ d | .vfmvs m _ d | .vmv m _ d | .vnot m _ d | .vabs m _ d | .vneg m _ d | .vfabs m _ d
  | .vfneg m _ d | .vfsqrt m _ d | .vfrecip m _ d | .vfrsqrt m _ d | .vfclass m _ d | .vcvt _ m _ d
  | .vquant m _ d | .vdequant m _ d | .vfmadd m _ _ d | .vfmsub m _ _ d | .vfnmadd m _ _ d | .vfnmsub m _ _ d
  | .vmacc m _ _ d | .vnmsac m _ _ d | .vmadd m _ _ d | .vnmsub m _ _ d => some ⟨m.toNat, isStream d⟩
  | .vmerge _ _ _ d | .vfmerge _ _ _ d => some ⟨0, isStream d⟩
  | .vseq m _ _ _ | .vsne m _ _ _ | .vslt m _ _ _ | .vsltu m _ _ _ | .vsle m _ _ _ | .vsleu m _ _ _
  | .vfeq m _ _ _ | .vfne m _ _ _ | .vflt m _ _ _ | .vfle m _ _ _ | .vseqs m _ _ _ | .vslts m _ _ _
  | .vsgts m _ _ _ | .vfeqs m _ _ _ | .vflts m _ _ _ | .vfgts m _ _ _ | .mnot m _ _ => some ⟨m.toNat, false⟩
  | .mand _ _ _ | .mor _ _ _ | .mxor _ _ _ | .mandn _ _ _ => some ⟨0, false⟩
  | _ => none

/-- The number of active elements of an instruction that can stop inside (R121, R305). -/
def Hart.activeOf (h : Hart) (i : Instr) : Option Nat :=
  match stops i with
  | some p => if p.stream then none else some (h.activeCount (h.getM p.mask))
  | none => none

/-- The element at which an instruction that has not begun stops (R306): it starts at vstart where it can stop inside, and else at
0. -/
def Hart.startOf (h : Hart) (i : Instr) : Nat := if (h.activeOf i).isSome then h.vstart.toNat else 0

/-- The trap register says that a trap is being handled (R302). -/
def Hart.busy (h : Hart) : Bool := h.trap.cause.toNat.testBit 32

/-- An instruction has completed: breakpoints that eret left at its address stand again (R305). -/
def State.rearm (before : State) : Res → Res
  | .next t =>
    let h := before.hart
    let k := t.hart
    let completed := decide (k.id = h.id) && k.wait.isNone && (h.busy || !k.busy)
    if completed && decide (k.bpDone = h.bpDone) && decide (h.bpDone.map (·.1) = some h.pc) then
      .next (t.on fun k => { k with bpDone := none })
    else .next t
  | r => r

/-- What an instruction would do, as far as the order of causes asks (R301): nothing but its effect, a wait, or a trap with its code
and subcode. -/
inductive Fate where
  | effect
  | waits
  | traps (code sub : Nat)
deriving DecidableEq, Repr

/-- A handler address that no instruction at the pc goes to of itself. -/
def Hart.probeVec (h : Hart) : BitVec 48 := h.pc + 0x1000#48

/-- What an instruction would do. Its trap is seen as the taking of it in a hart that handles none. -/
def State.fate (s : State) (i : Instr) : Fate :=
  let h := s.hart
  match exec i (s.on fun h => { h with trap := { h.trap with vec := h.probeVec.setWidth 64, cause := 0 } }) with
  | .next t => match t.find h.id with
    | some k =>
      if k.busy && decide (k.pc = h.probeVec &&& ~~~1#48) then
        .traps (bits k.trap.cause.toNat 7 0) (bits k.trap.cause.toNat 15 8)
      else if k.wait.isSome then .waits
      else .effect
    | none => .effect
  | _ => .effect

/-- The access fault, subcode 2, that a form takes whatever its registers hold (R177, R251, R277). -/
def State.deniedAnyway (s : State) : Instr → Bool
  | .oput _ _ _ _ | .accget _ _ _ | .accput _ _ _ | .accstore _ _ | .scldA _ _ _ _ | .scldW _ _ _ => !s.ownsMatrix
  | .tlbinv _ _ | .tlbsync _ => !privileged s.hart.ctx
  | .setc n _ _ | .getc n _ _ => privilegedRegister n.toNat && !privileged s.hart.ctx
  | .thalo _ _ _ _ => s.hart.id.control
  | _ => false

/-- A vector-configuration trap of the form hangs on what its scalar registers name. -/
def configured : Instr → Bool
  | .copyCfg _ _ _ _ | .treg _ _ _ _ | .accstore _ _ | .damoAdd _ _ _ _ | .setc _ _ _ => true
  | _ => false

/-- What an instruction that reads a lost scalar or mask register would do comes before the uncorrectable error, which is the last
cause (R301, R313). Where a lost register leaves open what it accesses, only a cause that no register decides does. -/
def State.precedesLoss (s : State) (i : Instr) : Bool :=
  match s.fate i with
  | .effect => false
  | .waits => !s.hart.extentLost i
  | .traps code sub =>
    if s.hart.extentLost i then
      code = 1 || code = 3 || (code = 2 && !configured i) || (code = 6 && sub = 2 && s.deniedAnyway i)
    else code ≠ 8 && code ≠ 10

/-- The breakpoint, if any, that stands at the first element of an instruction that it can stop inside (R305). -/
def Hart.breakFirst (h : Hart) (i : Instr) : Option (Nat × Nat) :=
  match h.activeOf i with
  | none => none
  | some n => match h.breakInside n with
    | some b => if b.2 = h.vstart.toNat then some b else none
    | none => none

/-- Accesses of a class wait for the reads of a copy that a fence.c has put before them (R110). -/
def Hart.gated (h : Hart) (k : BitVec 4) : Bool :=
  h.gates.any fun g => g.2.getLsbD k.toNat && h.copy.toList.any fun c => match c with
    | some c => decide (c.order = g.1) && decide (c.got < c.n.toNat)
    | none => false

/-- An instruction's accesses wait for copies that a fence.c has put before them (R110). -/
def Hart.fencedOff (h : Hart) (i : Instr) : Bool :=
  match accessClass i with
  | some k => !h.gates.isEmpty && h.gated k
  | none => false

/-- A decoded instruction issues (R301, R305, R306, R313): a word that is no instruction comes first, then a breakpoint before its
first effect, then a fence's order, then a lost scalar or mask register that it reads, in its place among the causes, and then its own
effect. A form so stopped resumes at min(e, vl) (R305) with nothing taken from its stream sources, which then give that element their
next one (DESIGN CHOICE, log 14). -/
def State.perform (s : State) (i : Instr) : Res :=
  let h := s.hart
  match i with
  | .illegalInstruction sub => execIllegalInstruction sub s
  | i => match h.breakBefore (h.activeOf i) with
    | some (k, e) => s.breakTrap k (if (h.activeOf i).isSome then min e h.vl.toNat else 0)
    | none =>
      if h.fencedOff i then s.waitFor .handle
      else if !h.readsLost i then s.rearm (exec i s)
      else match h.breakFirst i with
        | some (k, e) => s.breakTrap k e
        | none => if s.precedesLoss i then s.rearm (exec i s) else s.takeTrap 8 1 0 (h.startOf i) none

/-- The halfwords that the fetch at the hart's pc takes. -/
def State.fetchLength (s : State) (h : Hart) : Nat :=
  match s.fetchHalf h h.pc with
  | .ok w => halfwords w
  | .error _ => 1

/-- The code lines at some addresses fetched (R180). -/
def State.fetchLines (s : State) (vas : List Nat) : State :=
  vas.foldl (fun s va => match s.walkFor s.hart va with
    | .page pa _ => s.fetchLine (va / 128 * 128) (pa / 128)
    | _ => s) s

/-- What a fetch does beside its reading of halfwords from the pc to some last one: its walks read their entries as the hart's own
accesses (R321), and its code lines come through the caches (R180). -/
def State.noteFetchTo (s : State) (last : BitVec 48) : State :=
  let vas := [pcAddr s.hart.pc, pcAddr last]
  let t := s.walkAll 0 vas
  if s.lost t then t else t.fetchLines vas

/-- What the fetch at the hart's pc does beside its reading. -/
def State.noteFetch (s : State) : State := s.noteFetchTo (s.hart.pc + BitVec.ofNat 48 (2 * (s.fetchLength s.hart - 1)))

/-- A fetch that may see old or new words takes a free value of its own (R75, log 54). -/
def State.beginFetch (s : State) : State := if (s.unseen s.hart).isEmpty then s else s.fresh

/-- A fetch that is stopped (R58, R300, R302): a trap names the instruction's own address. The halfwords before it have been fetched,
and the walk that stops it has read its entries (R321). -/
def State.fetchStop (s : State) : Stop → Res
  | .trap code sub a =>
    let t := if a = pcAddr s.hart.pc then s else s.noteFetchTo (BitVec.ofNat 48 a - 2)
    let t := if s.lost t then t else t.walkAll 0 [a]
    if s.lost t then .next t else t.takeTrap code.toNat sub.toNat 0 s.hart.vstart.toNat none
  | .wait r => s.waitFor r

/-- The hart that stands first issues its next instruction (R58, R70); a fetch whose own walk ends the hart's region goes no
further. -/
noncomputable def State.issue (s : State) : Res :=
  let s := s.beginFetch
  match s.fetch s.hart with
  | .error e => s.fetchStop e
  | .ok w =>
    let t := s.noteFetch
    if s.lost t then .next t
    else t.perform (decode s.hart.id.control (s.featMask s.hart.ctx).toNat w.toNat)

/-- The state in which the next instruction of a hart has only to wait (R95): none where it can issue, be it that it does a part of
what it has to do and then waits for something else. -/
noncomputable def State.waitsOnly (s : State) (h : Hart) : Option State :=
  match (s.focus h.retry).issue with
  | .next t => match t.find h.id with
    | some k => if k.wait.isSome && decide ({ k with wait := none } = h.retry) then some t else none
    | none => none
  | _ => none

/-- Whether a hart is ready (R95): its next instruction can issue now. One that has to wait has made its request: it stands in the
queue, and what it waits for is due. -/
noncomputable def State.assess (s : State) (id : AgentId) : State :=
  match s.find id with
  | none => s
  | some h =>
    if !h.active || !h.started || h.ending || h.yielded ≠ 0 then s
    else match s.waitsOnly h with
      | some t => { s with
          agenda := t.agenda, cores := t.cores, arb := { s.arb with beginQueue := t.arb.beginQueue } }.update id fun h => { h with
          wait := (t.find id).bind (·.wait) }
      | none => s.update id Hart.retry

/-- Which harts are ready now (R95). -/
noncomputable def State.refresh (s : State) : State := (s.harts.map (·.id)).foldl State.assess s

/-- One word of the advice context of the hart that stands first (R287, R291). -/
noncomputable def State.adviceWord (s : State) : Res :=
  let a := s.hart.adv
  if a.apc.toNat + 4 ≤ a.code.length then exec (decodeAdvice (ofBytes ((a.code.drop a.apc.toNat).take 4))) s
  else .next s.adviceStray

/-- One word of a hart's context that the outside picks (log 21). -/
noncomputable def State.adviceStep (s : State) (who : AgentId) : Res :=
  match s.find who with
  | none => .fault .notDue
  | some h => if h.adv.state = .running then (s.focus h).adviceWord else .fault .notDue

/-- The first of some contexts in the round that starts after the one that took the last turn (R287). -/
def firstTurn (last : BitVec 3) : List Hart → Option Hart
  | [] => none
  | h :: rest => match firstTurn last rest with
    | none => some h
    | some k => if k.turnFrom last < h.turnFrom last then some k else some h

/-- The turn of a core's sequencer (R287): it runs a word of the running context next in the round by hart index, and takes another
turn while a context runs. -/
noncomputable def State.adviceRound (s : State) (core : Nat) : Res :=
  match firstTurn (s.core core).adviceLast (s.advisers core) with
  | none => .next s
  | some h =>
    let t := (s.focus h).onCore core fun c => { c with adviceLast := BitVec.ofNat 3 h.id.hart }
    match t.adviceWord with
    | .next t => .next (t.adviceAgain core)
    | r => r

/-- An instruction of a hart that the outside picks (log 21). -/
noncomputable def State.hartStep (s : State) (who : AgentId) : Res :=
  match s.find who with
  | none => .fault .notDue
  | some h => if h.retry.ready && !s.pkg.deepIdle then (s.prepare h.retry).issue else .fault .notDue

/-- A due step performed; one that is no longer due is dropped. -/
noncomputable def State.dueStep (s : State) (d : Due) : Res :=
  let r := match d with
    | .advice core => s.adviceRound core
    | .message ep => .next (s.deliverNext ep)
    | .loomAgain => .next s.loomAgain
    | d => match d.instr with
      | some i => exec i s
      | none => .next s
  match r with
  | .fault .notDue => .next s
  | r => r

/-- Elements of a strip buffer that share 64 bytes with element `first` of a copy are spoiled (R312, R313). -/
def Copy.spoil (c : Copy) (first : Nat) : Copy :=
  let n := 64 / c.esz
  let (lo, hi) := if c.kind = 1 then (c.got, c.pos) else (c.pos, c.pos + c.data.length)
  let hit := ((List.range n).map (first / n * n + ·)).filter fun e => decide (lo ≤ e) && decide (e < hi)
  { c with spoiled := (c.spoiled ++ hit).eraseDups }

/-- A soft error (R312, R313): the count of one that is corrected, a granule that becomes poisoned, or a parity error of a register
slot. A granule of an accumulator is 16 cells of a row (DESIGN CHOICE, log 50). -/
def State.softError (s : State) : SoftError → Res
  | .corrected c u =>
    let t := s.count c 0x7AC 0 1
    .next (match u with
      | some u => t.noteCorrected u
      | none => t)
  | .memory g => .next (s.poisonGranules [g])
  | .store g => .next (s.onPkg fun p => { p with storePoison := (p.storePoison ++ [g]).eraseDups })
  | .slot g => .next (s.onPkg fun p => { p with slotPoison := (p.slotPoison ++ [g]).eraseDups })
  | .accumulator k => .next (s.onPkg fun p => { p with
      cellPoison := (p.cellPoison ++ (List.range 16).map (k / 16 * 16 + ·)).eraseDups })
  | .strip who h first => match s.find who with
    | none => .fault .notDue
    | some k => match k.copy.getD h.toNat none with
      | none => .fault .notDue
      | some c => .next (s.update who fun k => { k with copy := k.copy.setIfInBounds h.toNat (some (c.spoil first)) })
  | .reexecuted who => match s.find who with
    | none => .fault .notDue
    | some h => .next (s.count h.ctx 0x7AE 0 1)
  | .register who slot => match s.find who with
    | none => .fault .notDue
    | some _ => .next (s.update who fun k => { k with parity := if k.parity.elem slot then k.parity else k.parity ++ [slot] })

/-- A copy that a cache gives up of its own accord (R163, R176, R180, R183, R191, R275); what it does not hold it cannot give up. -/
def State.evict (s : State) : Eviction → Res
  | .l1 core line =>
    if (s.dirLine line).l1.any fun k => decide (k.core = core) then .next ((s.evictL1 core line).spill core line)
    else .fault .notDue
  | .l2 d line => if ((s.dirLine line).at_ d).isSome then .next (s.evictL2 d line) else .fault .notDue
  | .tile line => if s.pkg.tileCache.any fun l => decide (l.line = line) then .next (s.evictTile line) else .fault .notDue
  | .code quad line =>
    if s.pkg.quadCode.elem (quad, line) && !s.codeLocked quad line then .next (s.dropCode quad line) else .fault .notDue
  | .coreCode core line =>
    if s.pkg.coreCode.elem (core, line) then
      .next (s.onPkg fun p => { p with coreCode := p.coreCode.filter (· ≠ (core, line)) })
    else .fault .notDue
  | .translation who c page =>
    let p := fun (t : Translation) => decide (t.who = who) && decide (t.ctx = c) && decide (t.page = page)
    if s.pkg.tlb.any p then .next (s.onPkg fun k => { k with tlb := k.tlb.filter fun t => !p t }) else .fault .notDue

/-- A move that the outside has scheduled. An arrival at a pod barrier from another package counts as one of this package's (R111,
R112); a reloaded image gives a command when the Loom has nothing to wait for (R92, R93, log 19). -/
noncomputable def State.move (s : State) : Move → Res
  | .event i => if isStep i then exec i s else .fault .notDue
  | .advice who => s.adviceStep who
  | .hart who => s.hartStep who
  | .softError e => s.softError e
  | .evict e => s.evict e
  | .podArrival c id n => if id < 4 then .next (s.arriveAt ⟨c, 5, id, 0⟩ n).1 else .fault .notDue
  | .loom c => if s.loom.image.isSome && !s.loomBusy then .next (s.loomCommand c) else .fault .notDue

/-- Nobody can issue: a due step, or an ac in which nothing happens. -/
noncomputable def State.idleStep (s : State) : Res :=
  match s.agenda with
  | d :: rest => State.dueStep { s with agenda := rest, eventTurn := false } d
  | [] => .next s

/-- The machine's own next step: due steps and instructions take turns (DESIGN CHOICE, log 21); in deep idle nothing
moves (R2). -/
noncomputable def State.ownStep (s : State) : Res :=
  if s.pkg.deepIdle then .next s
  else
    let s := s.tick.refresh
    if s.eventTurn && !s.agenda.isEmpty then s.idleStep
    else match s.grant with
      | some g => (s.prepare g).issue
      | none => s.idleStep

/-- The end of a step: device writes that waited for an engine or a flip are performed where they can be (R128, R285), and the device's
accesses meet the regions that track their lines (R197). -/
def settled : Res → Res
  | .next t => .next t.settleLate.settle
  | r => r

/-- One step: the move that the outside has scheduled first, or the machine's own. -/
noncomputable def State.turn (s : State) : Res :=
  settled (match s.sched with
    | m :: rest => State.move { s with sched := rest } m
    | [] => s.ownStep)

/-! Placing a word where the next step fetches it. -/

/-- The context of a placed program: privileged, its text at 0x2000 to 0x2FFF, one leaf of 1 GiB for everything. -/
def placedCtx (c : Ctx) : Ctx :=
  { c with live := true, root := 0x3001, image := some ⟨0x2000, 0x1000, []⟩ }

/-- A hart at the placed program's first instruction. -/
def placedHart (h : Hart) : Hart :=
  { h with
    active := true
    started := true
    ending := false
    ctx := 1
    pc := 0x2000
    region := none
    wait := none
    yielded := 0
    bp := Vector.replicate 4 0
    bpDone := none }

/-- A hart whose advice context runs one placed word. -/
def placedAdvice (h : Hart) (w : Nat) : Hart :=
  { h with adv := { h.adv with code := toBytes 4 w, apc := 0, state := .running, loaded := true } }

/-- The machine with a hart in front under a name. -/
def State.put (s : State) (id : AgentId) (f : Hart → Hart) : State :=
  { s with
    hart := f ((s.find id).getD (Hart.idle id))
    parked := s.harts.filter fun h => decide (h.id ≠ id) }

/-- The program's page tables and eight bytes of code in memory. -/
def placedMemory (m : Memory) (w : Nat) : Memory :=
  ((m.write 0x3000 8 0x4001).write 0x4000 8 0x1F).write 0x2000 8 w

/-- The word is an instruction of a hart of the kind. -/
noncomputable def runsOn (control : Bool) (nbits w : Nat) : Bool :=
  (decide (nbits = 16) && decide (w % 2 = 0) || decide (nbits = 32) && decide (w % 4 = 1) ||
    decide (nbits = 64) && decide (w % 4 = 3)) && (decode control 0 w).wf

/-- The machine whose next step runs one placed word of nbits bits: on a vector hart, or else on a control core, or
else as an advice word. -/
noncomputable def State.withWord (s : State) (nbits w : Nat) : State :=
  let w := w % 2 ^ nbits
  if !runsOn false nbits w && !runsOn true nbits w && decide (nbits = 32) then
    let id : AgentId := ⟨0, 0, 0, false⟩
    { s.put id (placedAdvice · w) with sched := [.advice id] }
  else
    let id : AgentId := ⟨0, 0, 0, !runsOn false nbits w && runsOn true nbits w⟩
    { (s.put id placedHart).onCtx 1 placedCtx with
      sched := [.hart id]
      mem := placedMemory s.mem w
      pkg := { s.pkg with
        deepIdle := false
        tlb := s.pkg.tlb.filter fun t => decide (t.ctx ≠ 1) } }

end Sys2Proof.Machine
end

