-- ==== Sys2Proof/Machine/Step.lean ====
section
/-! DEFINITION. One step of the machine, and the placing of an instruction where it fetches its next one. -/

namespace Sys2Proof.Machine

/-- One step (Turn.lean). -/
noncomputable def step (s : State) : Host.Outcome State Fault Refusal := s.turn

/-- The machine with one instruction stored where the next step fetches it: code, page tables and context as CODE_LOAD
and a task's start leave them, or an advice image as ADV_LOAD leaves it, and a hart at its first word (log 22). -/
noncomputable def State.withFetchWord (s : State) (nbits w : Nat) : State := s.withWord nbits w

end Sys2Proof.Machine
end

