-- ==== Sys2Proof/Safety.lean ====
section
/-! DEFINITION. The terms that claims use: which parts of the machine two states agree on, what a scalar, vector or mask
destination holds after an instruction, and the canonical form of the memories. -/

namespace Sys2Proof.Safety

open Sys2Proof.Machine

/-- The parts of the machine that a claim may say are unchanged: those of the hart that moves, the others. -/
inductive Part where
  /-- scalar registers -/
  | scalars
  /-- vector registers -/
  | vectors
  /-- mask registers -/
  | masks
  | pc
  | vstart
  /-- vl and vl.pad -/
  | length
  /-- vt -/
  | vt
  /-- sw -/
  | sw
  /-- the split of the core, and whether the task's first SETVL has been executed -/
  | split
  /-- buffer handles, copies and stream bindings, and which of them were lost -/
  | copies
  /-- the counters of outstanding operations -/
  | counters
  /-- the atomic region, its bounds and its aborts -/
  | region
  | mark
  /-- the trap registers -/
  | trap
  /-- the breakpoint registers, and which breakpoint was taken last -/
  | breakpoints
  | reservation
  /-- parity errors of register slots -/
  | integrity
  /-- rows in the row pool -/
  | rows
  /-- how far the hart's last FENCE.I has made it see changes of code, and the stream reads that a fence.c has put first -/
  | fence
  /-- why the hart is not ready: waits, yields, barriers, a bias flip that its setc has started -/
  | waits
  /-- empty registers, pushes and collective calls -/
  | collective
  | claims
  /-- stall registers -/
  | stalls
  /-- accumulator stores on their way -/
  | accStores
  /-- which task the hart holds, and whether it is ending -/
  | task
  /-- scheduling: priority, urgency, passed grants -/
  | scheduling
  /-- the advice context -/
  | advice
  /-- the other harts -/
  | others
  /-- harts of pre-empted bundles -/
  | saved
  /-- what is due and what the outside schedules -/
  | agenda
  /-- the number of the next free value -/
  | free
  /-- replies -/
  | outbox
  /-- every byte of physical memory, and the device's writes that wait -/
  | memory
  /-- every byte of every local store -/
  | localStore
  /-- operand slots, accumulators, scales and the state of the matrix engines -/
  | matrix
  /-- the cores -/
  | cores
  /-- barriers and shuttle channels -/
  | barriers
  /-- contexts, with their counters -/
  | contexts
  | tenants
  /-- package registers -/
  | package
  /-- what the caches, the hart's line buffer, translation buffers and directories hold, when slices were used, and old values of
  changed code -/
  | caches
  /-- what is poisoned -/
  | poison
  /-- the commit arbiter -/
  | arbiter
  /-- ordered-reduction units, collective calls and pushes on their way, and the hart's own damo.add among them -/
  | reductions
  | loom
deriving DecidableEq, Repr

/-- The registers of the package agree: everything but the caches, the poison, writes that wait and the records of this step's
accesses. -/
def SameRegisters (p q : Pkg) : Prop :=
  q = { p with
    drowsy := q.drowsy
    slicesUsed := q.slicesUsed
    tileCache := q.tileCache
    wakes := q.wakes
    dir := q.dir
    tlb := q.tlb
    wrote := q.wrote
    readLines := q.readLines
    oldCode := q.oldCode
    coreCode := q.coreCode
    quadCode := q.quadCode
    late := q.late
    poison := q.poison
    storePoison := q.storePoison
    slotPoison := q.slotPoison
    cellPoison := q.cellPoison }

/-- Two states agree on a part. -/
def Agree (s t : State) : Part → Prop
  | .scalars => t.hart.s = s.hart.s
  | .vectors => t.hart.v = s.hart.v
  | .masks => t.hart.m = s.hart.m
  | .pc => t.hart.pc = s.hart.pc
  | .vstart => t.hart.vstart = s.hart.vstart
  | .length => t.hart.vl = s.hart.vl ∧ t.hart.vlPad = s.hart.vlPad
  | .vt => t.hart.vt = s.hart.vt
  | .sw => t.hart.sw = s.hart.sw
  | .split => t.hart.split = s.hart.split ∧ t.hart.setvlDone = s.hart.setvlDone
  | .copies => t.hart.h = s.hart.h ∧ t.hart.copy = s.hart.copy ∧ t.hart.q = s.hart.q ∧ t.hart.lost = s.hart.lost
  | .counters => t.hart.cnt = s.hart.cnt
  | .region => t.hart.region = s.hart.region ∧ t.hart.ebLo = s.hart.ebLo ∧ t.hart.ebHi = s.hart.ebHi ∧
      t.hart.aborts = s.hart.aborts
  | .mark => t.hart.mark = s.hart.mark
  | .trap => t.hart.trap = s.hart.trap
  | .breakpoints => t.hart.bp = s.hart.bp ∧ t.hart.bpDone = s.hart.bpDone ∧ t.hart.fired = s.hart.fired
  | .reservation => t.hart.reservation = s.hart.reservation
  | .integrity => t.hart.parity = s.hart.parity
  | .rows => t.hart.pooled = s.hart.pooled
  | .fence => t.hart.fenced = s.hart.fenced ∧ t.hart.gates = s.hart.gates
  | .waits => t.hart.wait = s.hart.wait ∧ t.hart.yielded = s.hart.yielded ∧ t.hart.barWait = s.hart.barWait ∧
      t.hart.flipping = s.hart.flipping
  | .collective => t.hart.empty = s.hart.empty ∧ t.hart.xredCall = s.hart.xredCall ∧ t.hart.pushing = s.hart.pushing
  | .claims => t.hart.claims = s.hart.claims
  | .stalls => t.hart.stalls = s.hart.stalls ∧ t.hart.stallEvict = s.hart.stallEvict
  | .accStores => t.hart.accStores = s.hart.accStores
  | .task => t.hart.id = s.hart.id ∧ t.hart.active = s.hart.active ∧ t.hart.started = s.hart.started ∧
      t.hart.ending = s.hart.ending ∧ t.hart.failCode = s.hart.failCode ∧ t.hart.ctx = s.hart.ctx ∧
      t.hart.qcb = s.hart.qcb ∧ t.hart.job = s.hart.job ∧ t.hart.bundle = s.hart.bundle ∧
      t.hart.task = s.hart.task ∧ t.hart.args = s.hart.args ∧ t.hart.entry = s.hart.entry
  | .scheduling => t.hart.prio = s.hart.prio ∧ t.hart.urgent = s.hart.urgent ∧ t.hart.passed = s.hart.passed
  | .advice => t.hart.adv = s.hart.adv
  | .others => t.parked = s.parked
  | .saved => t.saved = s.saved
  | .agenda => t.agenda = s.agenda ∧ t.sched = s.sched ∧ t.eventTurn = s.eventTurn
  | .free => t.free = s.free
  | .outbox => t.outbox = s.outbox
  | .memory => t.mem = s.mem ∧ t.pkg.late = s.pkg.late
  | .localStore => t.lstore = s.lstore
  | .matrix => t.slots = s.slots ∧ t.acc = s.acc ∧ t.scales = s.scales ∧ t.quads = s.quads
  | .cores => t.cores = s.cores
  | .barriers => t.barriers = s.barriers ∧ t.shuttle = s.shuttle
  | .contexts => t.ctxs = s.ctxs
  | .tenants => t.tenants = s.tenants
  | .package => SameRegisters s.pkg t.pkg
  | .caches => t.pkg.drowsy = s.pkg.drowsy ∧ t.pkg.slicesUsed = s.pkg.slicesUsed ∧ t.pkg.tileCache = s.pkg.tileCache ∧
      t.pkg.wakes = s.pkg.wakes ∧ t.pkg.dir = s.pkg.dir ∧ t.pkg.tlb = s.pkg.tlb ∧
      t.pkg.wrote = s.pkg.wrote ∧ t.pkg.readLines = s.pkg.readLines ∧ t.pkg.oldCode = s.pkg.oldCode ∧
      t.pkg.coreCode = s.pkg.coreCode ∧ t.pkg.quadCode = s.pkg.quadCode ∧ t.hart.lineBuffer = s.hart.lineBuffer
  | .poison => t.pkg.poison = s.pkg.poison ∧ t.pkg.storePoison = s.pkg.storePoison ∧
      t.pkg.slotPoison = s.pkg.slotPoison ∧ t.pkg.cellPoison = s.pkg.cellPoison
  | .arbiter => t.arb = s.arb
  | .reductions => t.oruIn = s.oruIn ∧ t.windows = s.windows ∧ t.xred = s.xred ∧ t.pushes = s.pushes ∧
      t.hart.sent = s.hart.sent
  | .loom => t.loom = s.loom

/-- Two states agree on every part of the machine but those listed. -/
def Keeps (changed : List Part) (s t : State) : Prop := ∀ p, p ∉ changed → Agree s t p

/-- Every scalar register but d is unchanged, and d, which is not s0, holds x and has no parity error any more: a write of s0 is
discarded (R36, R313). -/
def Wrote (s t : State) (d : BitVec 5) (x : Word) : Prop :=
  t.rs d = (if d = 0 then 0 else x) ∧ (∀ r, r ≠ d → t.rs r = s.rs r) ∧
  ∀ r, r ∈ t.hart.parity ↔ r ∈ s.hart.parity ∧ (d = 0 ∨ r ≠ .s d.toNat)

/-- A register write clears the parity errors of slots that it fills, which lie among `slots`, and takes rows of register n
out of the row pool for those n that `rows` names (R35, R313): every other slot has an error just when it had one before. -/
def Healed (s t : State) (slots : RegSlot → Prop) (rows : Nat → Prop) : Prop :=
  (∀ r, r ∈ t.hart.parity → r ∈ s.hart.parity) ∧ (∀ r, r ∈ s.hart.parity → ¬ slots r → r ∈ t.hart.parity) ∧
  ∀ n, ¬ rows n → t.hart.pooled.getD n 0 = s.hart.pooled.getD n 0

/-- The instruction completes: it answers state t, which holds x in scalar register d, has its pc n bytes on, and agrees
with s on everything else. -/
def Gives (i : Instr) (s : State) (n : Nat) (d : BitVec 5) (x : Word) : Prop :=
  ∃ t, exec i s = .next t ∧ Wrote s t d x ∧ t.hart.pc = s.hart.pc + BitVec.ofNat 48 n ∧
    Keeps [.scalars, .pc, .integrity] s t

/-- The instruction completes with the pc at a and no other change. -/
def Goes (i : Instr) (s : State) (a : BitVec 48) : Prop :=
  ∃ t, exec i s = .next t ∧ t.hart.pc = a ∧ Keeps [.pc] s t

/-- No context records a trace (R317): accesses then write no trace records. -/
def Untraced (s : State) : Prop := ∀ c, (s.ctx c).trcBase = 0

/-- The parts of the machine that a trace record may change (R317, R318): its bytes in memory, the reservations on their
block (R142), what the caches hold of its line (R182), and the ring's registers. -/
def traceEffects : List Part := [.contexts, .memory, .reservation, .others, .caches, .poison, .free]

/-- The parts of the machine that an access outside regions may change beside its own results: what it does to regions
of others (R197), what the caches hold (R163, R167, R170, R182) and granules whose poison it clears (R312), with the counters,
traces and slice logs of these. -/
def accessEffects : List Part := [.agenda, .arbiter] ++ traceEffects

/-- The parts of the machine that an access of the device, or of the host, may change beside its own results: as
`accessEffects`, where the hart that moves may itself lose its region (R197, R199). -/
def deviceEffects : List Part :=
  [.region, .scalars, .vectors, .masks, .pc, .length, .vt, .sw, .vstart, .waits, .counters, .integrity, .rows] ++ accessEffects

/-- Byte `a` of physical memory belongs to some pieces of an access. -/
def covers (ps : List Piece) (a : Nat) : Prop := ∃ p ∈ ps, ∃ pa, p.place = .mem pa ∧ pa ≤ a ∧ a < pa + p.len

/-- Byte `a` of the local stores belongs to some pieces of an access. -/
def coversLocal (ps : List Piece) (a : Nat) : Prop := ∃ p ∈ ps, ∃ k, p.place = .store k ∧ k ≤ a ∧ a < k + p.len

/-- After an access with these pieces, memory holds the bytes of x, lowest first, at the pieces (R30), and every byte of
every memory outside them is what it was, trace records of slice logs apart (R317, R319). -/
def Stored (s t : State) (ps : List Piece) (x : Nat) : Prop :=
  (Untraced s → ∀ a, ¬ covers ps a → t.mem.byte a = s.mem.byte a) ∧
  (∀ a, ¬ coversLocal ps a → t.lstore.byte a = s.lstore.byte a) ∧
  ∀ p ∈ ps, ∀ j, j < p.len → match p.place with
    | .mem pa => Untraced s → t.mem.byte (pa + j) = BitVec.ofNat 8 (x / 2 ^ (8 * (p.at_ + j)))
    | .store k => t.lstore.byte (k + j) = BitVec.ofNat 8 (x / 2 ^ (8 * (p.at_ + j)))

/-- No byte of any memory has changed, trace records of slice logs apart (R317, R319). -/
def StoredNothing (s t : State) : Prop := (Untraced s → t.mem = s.mem) ∧ t.lstore = s.lstore

/-- After an access that performs some stores in order, each one at pieces and of a value: a byte that no store covers is
what it was, and a byte of a store that no later one covers is that of its value (R144). -/
def StoredInOrder (s t : State) (l : List (List Piece × Nat)) : Prop :=
  (Untraced s → ∀ a, (∀ q ∈ l, ¬ covers q.1 a) → t.mem.byte a = s.mem.byte a) ∧
  (∀ a, (∀ q ∈ l, ¬ coversLocal q.1 a) → t.lstore.byte a = s.lstore.byte a) ∧
  ∀ before q after, l = before ++ q :: after → ∀ p ∈ q.1, ∀ j, j < p.len → match p.place with
    | .mem pa => Untraced s → (∀ r ∈ after, ¬ covers r.1 (pa + j)) →
        t.mem.byte (pa + j) = BitVec.ofNat 8 (q.2 / 2 ^ (8 * (p.at_ + j)))
    | .store k => (∀ r ∈ after, ¬ coversLocal r.1 (k + j)) →
        t.lstore.byte (k + j) = BitVec.ofNat 8 (q.2 / 2 ^ (8 * (p.at_ + j)))

/-- The device or the host has written some bytes from physical address p on, and no others. -/
def PutBytes (s t : State) (p : Nat) (data : List Byte) : Prop :=
  (∀ j, j < data.length → t.mem.byte (p + j) = data.getD j 0) ∧
  ∀ b, b < p ∨ p + data.length ≤ b → t.mem.byte b = s.mem.byte b

/-- Memory m' is memory m after some doublewords, each with its address, were written in order. -/
def AfterWrites (m m' : Memory) (l : List (Nat × Nat)) : Prop :=
  (∀ a, (∀ p ∈ l, ¬ (p.1 ≤ a ∧ a < p.1 + 8)) → m'.byte a = m.byte a) ∧
  ∀ before p after, l = before ++ p :: after → ∀ j, j < 8 → (∀ r ∈ after, ¬ (r.1 ≤ p.1 + j ∧ p.1 + j < r.1 + 8)) →
    m'.byte (p.1 + j) = BitVec.ofNat 8 (p.2 / 2 ^ (8 * j))

/-- The SPDM requests that the device supports (R283), those of a slot at slot 0, with the codes of their replies. -/
noncomputable def spdmRequests (ep : BitVec 12) (x y : BitVec 16) (index : BitVec 8) (nonce : BitVec 256) : List (Instr × Byte) :=
  [(.getVersion ep, 0x04), (.getCapabilities ep, 0x61), (.negotiateAlgorithms ep, 0x63), (.getDigests ep 0, 0x01),
    (.getCertificate ep 0 x y, 0x02), (.challenge ep 0 nonce, 0x03), (.getMeasurements ep index nonce, 0x60)]

/-- The instruction issues an operation that counts in a class, and its completion becomes due (R41, R135). -/
def Issued (s t : State) (k : OpClass) : Prop :=
  t.hart.cnt = s.hart.cnt.add k 1 ∧ Due.operationComplete s.hart.id k ∈ t.agenda

/-- As `Issued`, for a form whose streams may end a copy, which lowers cp. -/
def Counted (s t : State) (k : OpClass) : Prop :=
  t.hart.cnt.get k = s.hart.cnt.get k + 1 ∧ Due.operationComplete s.hart.id k ∈ t.agenda

/-- Each of some elements passes its checks (R136), n bytes at addr e, and its bytes lie at the pieces place e. -/
def Reaches (s : State) (window : Bool) (p : Perm) (n : Nat) (addr : Nat → Nat) (es : List Nat)
    (place : Nat → List Piece) : Prop :=
  ∀ e ∈ es, s.checkElement window p (addr e) n = .ok (place e)

/-- The scalar loads (R140): the form, the bytes that it reads, and whether it extends their sign. -/
def scalarLoads : List ((BitVec 7 → BitVec 4 → BitVec 5 → BitVec 5 → Instr) × Nat × Bool) :=
  [(.ldb, 1, true), (.ldh, 2, true), (.ldw, 4, true), (.ldd, 8, true), (.ldbu, 1, false), (.ldhu, 2, false),
    (.ldwu, 4, false)]

/-- The scalar stores (R140): the form and the bytes that it writes. -/
def scalarStores : List ((BitVec 7 → BitVec 4 → BitVec 5 → BitVec 5 → Instr) × Nat) :=
  [(.stb, 1), (.sth, 2), (.stw, 4), (.std, 8)]

/-- The atomics that always write (R141): the form, its bytes n, and its new value from the old one and the operand, both
numbers below 256^n. -/
def scalarAtomics : List ((BitVec 4 → BitVec 5 → BitVec 5 → BitVec 5 → Instr) × Nat × (Nat → Nat → Nat)) :=
  [(.amoswap, 8, fun _ x => x), (.amoadd, 8, fun m x => (m + x) % 2 ^ 64), (.amoand, 8, fun m x => m &&& x),
    (.amoor, 8, fun m x => m ||| x), (.amoxor, 8, fun m x => m ^^^ x),
    (.amomin, 8, fun m x => if toSigned 64 m ≤ toSigned 64 x then m else x),
    (.amomax, 8, fun m x => if toSigned 64 m ≤ toSigned 64 x then x else m),
    (.amominu, 8, fun m x => if m ≤ x then m else x), (.amomaxu, 8, fun m x => if m ≤ x then x else m),
    (.amoswapW, 4, fun _ x => x), (.amoaddW, 4, fun m x => (m + x) % 2 ^ 32), (.amoandW, 4, fun m x => m &&& x),
    (.amoorW, 4, fun m x => m ||| x), (.amoxorW, 4, fun m x => m ^^^ x),
    (.amominW, 4, fun m x => if toSigned 32 m ≤ toSigned 32 x then m else x),
    (.amomaxW, 4, fun m x => if toSigned 32 m ≤ toSigned 32 x then x else m),
    (.amominuW, 4, fun m x => if m ≤ x then m else x), (.amomaxuW, 4, fun m x => if m ≤ x then x else m)]

/-- A number of n bytes as a register holds it. -/
def extended (signed : Bool) (n x : Nat) : Word :=
  if signed then BitVec.ofInt 64 (toSigned (8 * n) x) else BitVec.ofNat 64 x

/-- A tail element x of a destination that held `old` (R137): kept, kept or zero, or zero, by the tail policy. -/
def TailElement (h : Hart) (old x : Nat) : Prop :=
  match h.tailPolicy with
  | 0 => x = old
  | 1 => x = old ∨ x = 0
  | _ => x = 0

/-- Element e of a vector destination by R137: it held `old`, holds x, and `new` is its result if it is active. -/
def DestElement (h : Hart) (active : Bool) (e old new x : Nat) : Prop :=
  if e < h.vstart.toNat then x = old
  else if e < h.g then (if active then x = new else if h.maskZero then x = 0 else x = old)
  else if e < h.vl.toNat then x = 0
  else TailElement h old x

/-- Vector register d holds the results `new`, elements of w bits, by R137, and every other one is unchanged. -/
def WroteVector (s t : State) (d w mask : Nat) (new : Nat → Nat) : Prop :=
  (∀ e, e < s.hart.mvl w →
    DestElement s.hart (mask.testBit e) e (elem (s.hart.getV d) w e) (new e % 2 ^ w) (elem (t.hart.getV d) w e)) ∧
  (∀ n, n ≠ d → t.hart.getV n = s.hart.getV n) ∧ Healed s t (fun r => ∃ k, r = .v d k) (· = d)

/-- Mask register d holds the results `new` by R227, its bits at and above MVL and every other mask register are
unchanged, and a write of m0 is discarded (R36). -/
def WroteMask (s t : State) (d mask : Nat) (new : Nat → Bool) : Prop :=
  (∀ e, e < s.hart.mvl s.hart.sew → d ≠ 0 →
    DestElement s.hart (mask.testBit e) e ((s.hart.getM d).testBit e).toNat (new e).toNat ((t.hart.getM d).testBit e).toNat) ∧
  (∀ e, s.hart.mvl s.hart.sew ≤ e → (t.hart.getM d).testBit e = (s.hart.getM d).testBit e) ∧
  (∀ n, n ≠ d ∨ d = 0 → t.hart.getM n = s.hart.getM n) ∧ Healed s t (fun r => d ≠ 0 ∧ ∃ k, r = .m d k) (fun _ => False)

/-- A vector instruction is complete: the pc is at the next word and vstart is 0. -/
def VectorDone (s t : State) : Prop := t.hart.pc = s.hart.pc + 4 ∧ t.hart.vstart = 0

/-- A grant of vl: under another tail policy than tail-dead no vector register changes; under it, the rows that vl does not reach
return to the row pool (R35). What their slots then hold the spec leaves open: what they held or zero, as free values say (DESIGN
CHOICE, log 46). -/
def RowsReturned (s t : State) : Prop :=
  (t.hart.tailPolicy ≠ 1 → t.hart.v = s.hart.v ∧ t.hart.pooled = s.hart.pooled ∧ t.free = s.free) ∧
  ∀ n k, k < 4 * t.hart.lanes → elem (t.hart.getV n) 64 k = elem (s.hart.getV n) 64 k ∨
    elem (t.hart.getV n) 64 k = 0 ∧ t.hart.vl.toNat ≤ k / t.hart.lanes * (t.hart.lanes * (64 / t.hart.sew))

/-- What a vector form may change beside its destination: the pc, vstart, the streams that it consumes or fills with the
handles and copies behind them, the number of the next free value, the parity of the slots that it fills and the rows that it takes out of the row pool. -/
def vectorEffects : List Part := [.pc, .vstart, .copies, .counters, .agenda, .free, .integrity, .rows]

/-- An elementwise form that writes vector register d, elements of w bits (R137, R226): when it has what it needs and nothing
stops it inside (`clear`), it completes with the results `new`, computed from the sources' values. -/
def ElementwiseIf (clear : Prop) (i : Instr) (s : State) (ok : Bool) (srcs : List Source) (d : BitVec 6) (w mask : Nat)
    (new : List Nat → Nat → Nat) : Prop :=
  ok = true → s.hold srcs (some ⟨d, w⟩) = none → isStream d = false → clear →
  ∃ t, exec i s = .next t ∧ WroteVector s t d.toNat w mask (new (s.hart.sourceValues srcs)) ∧ VectorDone s t ∧
    Keeps (.vectors :: vectorEffects) s t

/-- An elementwise form, which a breakpoint or a source whose value is lost stops inside (R305, R313). -/
def Elementwise (i : Instr) (s : State) (ok : Bool) (srcs : List Source) (d : BitVec 6) (w mask : Nat)
    (new : List Nat → Nat → Nat) : Prop :=
  ElementwiseIf (s.hart.cutInside true srcs mask = none) i s ok srcs d w mask new

/-- An elementwise form that writes mask register d (R227). -/
def ElementwiseMask (i : Instr) (s : State) (ok : Bool) (srcs : List Source) (d mask : Nat)
    (new : List Nat → Nat → Bool) : Prop :=
  ok = true → s.hold srcs none = none → d < 12 → s.hart.cutInside true srcs mask = none →
  ∃ t, exec i s = .next t ∧ WroteMask s t d mask (new (s.hart.sourceValues srcs)) ∧ VectorDone s t ∧
    Keeps (.masks :: vectorEffects) s t

/-- A cross-lane form that writes vector register d (R229): as an elementwise one, but nothing stops it inside, so a source
element below g whose value is lost stops it before it starts (R313). -/
def CrossLane (i : Instr) (s : State) (ok : Bool) (srcs : List Source) (d : BitVec 6) (mask : Nat)
    (new : List Nat → Nat → Nat) : Prop :=
  ok = true → s.hold srcs (some ⟨d, s.hart.sew⟩) = none → d.toNat < 48 → s.hart.anyBad srcs = none →
  ∃ t, exec i s = .next t ∧ WroteVector s t d.toNat s.hart.sew mask (new (s.hart.sourceValues srcs)) ∧ VectorDone s t ∧
    Keeps (.vectors :: vectorEffects) s t

/-- A form with two vector sources, or a vector and a scalar one. -/
structure Form2 (κ : Type) where
  form : κ
  float : Bool
  /-- its result on an element, from the hart's vt and the two operands -/
  result : Hart → Nat → Nat → Nat

/-- A form with two operands that writes a mask. -/
structure Compare2 (κ : Type) where
  form : κ
  float : Bool
  result : Hart → Nat → Nat → Bool

/-- The format that a form accepts: an integer one, or a floating one (R225). -/
def accepts (float : Bool) (h : Hart) : Bool := if float then h.fmt.isVectorFloat else h.fmt.isInt

/-- The signed value of an element. -/
def sg (h : Hart) (a : Nat) : Int := toSigned h.sew a

/-- The number of a pattern in the hart's format. -/
def num (h : Hart) (a : Nat) : Machine.Num := Machine.Num.decode h.fmt a

/-- A number rounded as vt says. -/
def rnd (h : Hart) (x : Machine.Num) : Nat := x.round h.fmt h.rnd

/-- The integer operations of two operands at width w = SEW (R232, R233). -/
def intAdd (h : Hart) (a b : Nat) : Nat := ofSigned h.sew (sg h a + sg h b)
def intSub (h : Hart) (a b : Nat) : Nat := ofSigned h.sew (sg h a - sg h b)
def intMul (h : Hart) (a b : Nat) : Nat := ofSigned h.sew (sg h a * sg h b)
def intMulh (h : Hart) (a b : Nat) : Nat := ofSigned h.sew (sg h a * sg h b / (2 ^ h.sew : Nat))
def intDiv (h : Hart) (a b : Nat) : Nat := if b = 0 then 2 ^ h.sew - 1 else ofSigned h.sew ((sg h a).tdiv (sg h b))
def intRem (h : Hart) (a b : Nat) : Nat := if b = 0 then a else ofSigned h.sew ((sg h a).tmod (sg h b))
def intSll (h : Hart) (a b : Nat) : Nat := a * 2 ^ (b % h.sew)
def intSrl (h : Hart) (a b : Nat) : Nat := a / 2 ^ (b % h.sew)
def intSra (h : Hart) (a b : Nat) : Nat := ofSigned h.sew (sg h a / (2 ^ (b % h.sew) : Nat))
def intMin (h : Hart) (a b : Nat) : Nat := ofSigned h.sew (min (sg h a) (sg h b))
def intMax (h : Hart) (a b : Nat) : Nat := ofSigned h.sew (max (sg h a) (sg h b))

/-- The floating operations of two operands (R234, R235). -/
def floatAdd (h : Hart) (a b : Nat) : Nat := rnd h (Machine.Num.add h.rnd (num h a) (num h b))
def floatSub (h : Hart) (a b : Nat) : Nat := rnd h (Machine.Num.add h.rnd (num h a) (num h b).neg)
def floatMul (h : Hart) (a b : Nat) : Nat := rnd h (Machine.Num.mul (num h a) (num h b))
def floatDiv (h : Hart) (a b : Nat) : Nat := rnd h (Machine.Num.div (num h a) (num h b))
def floatSign (h : Hart) (a : Nat) (neg : Bool) : Nat := a % h.fmt.signBit + (if neg then h.fmt.signBit else 0)
def floatNeg (h : Hart) (a : Nat) : Bool := a.testBit (h.sew - 1)
def floatEq (h : Hart) (a b : Nat) : Bool := (num h a).eq (num h b)
def floatLt (h : Hart) (a b : Nat) : Bool := (num h a).lt (num h b)

/-- The forms of two vector sources that write a vector (R232, R234, R235). -/
noncomputable def vectorForms : List (Form2 (BitVec 4 → BitVec 6 → BitVec 6 → BitVec 6 → Instr)) :=
  [⟨.vadd, false, intAdd⟩, ⟨.vsub, false, intSub⟩, ⟨.vrsub, false, fun h a b => intSub h b a⟩, ⟨.vmul, false, intMul⟩,
    ⟨.vmulh, false, intMulh⟩, ⟨.vmulhu, false, fun h a b => a * b / 2 ^ h.sew⟩, ⟨.vdiv, false, intDiv⟩,
    ⟨.vdivu, false, fun h a b => if b = 0 then 2 ^ h.sew - 1 else a / b⟩, ⟨.vrem, false, intRem⟩,
    ⟨.vremu, false, fun _ a b => if b = 0 then a else a % b⟩, ⟨.vand, false, fun _ a b => a &&& b⟩,
    ⟨.vor, false, fun _ a b => a ||| b⟩, ⟨.vxor, false, fun _ a b => a ^^^ b⟩] ++
  [⟨.vsll, false, intSll⟩, ⟨.vsrl, false, intSrl⟩, ⟨.vsra, false, intSra⟩, ⟨.vmin, false, intMin⟩, ⟨.vmax, false, intMax⟩,
    ⟨.vminu, false, fun _ a b => min a b⟩, ⟨.vmaxu, false, fun _ a b => max a b⟩,
    ⟨.vsadd, false, fun h a b => ofSigned h.sew (satSigned h.sew (sg h a + sg h b))⟩,
    ⟨.vsaddu, false, fun h a b => ofSigned h.sew (satUnsigned h.sew ((a : Int) + b))⟩,
    ⟨.vssub, false, fun h a b => ofSigned h.sew (satSigned h.sew (sg h a - sg h b))⟩,
    ⟨.vssubu, false, fun h a b => ofSigned h.sew (satUnsigned h.sew ((a : Int) - b))⟩,
    ⟨.vavg, false, fun h a b => ofSigned h.sew ((sg h a + sg h b) / 2)⟩] ++
  [⟨.vfadd, true, floatAdd⟩, ⟨.vfsub, true, floatSub⟩, ⟨.vfmul, true, floatMul⟩, ⟨.vfdiv, true, floatDiv⟩,
    ⟨.vfmin, true, fun h a b => fpMinMax h.fmt false a b⟩, ⟨.vfmax, true, fun h a b => fpMinMax h.fmt true a b⟩,
    ⟨.vfsgnj, true, fun h a b => floatSign h a (floatNeg h b)⟩,
    ⟨.vfsgnjn, true, fun h a b => floatSign h a (!floatNeg h b)⟩,
    ⟨.vfsgnjx, true, fun h a b => floatSign h a (floatNeg h a != floatNeg h b)⟩]

/-- The forms with a scalar second operand that write a vector (R237). -/
noncomputable def scalarForms : List (Form2 (BitVec 4 → BitVec 5 → BitVec 6 → BitVec 6 → Instr)) :=
  [⟨.vadds, false, intAdd⟩, ⟨.vsubs, false, intSub⟩, ⟨.vrsubs, false, fun h a b => intSub h b a⟩, ⟨.vmuls, false, intMul⟩,
    ⟨.vands, false, fun _ a b => a &&& b⟩, ⟨.vors, false, fun _ a b => a ||| b⟩, ⟨.vxors, false, fun _ a b => a ^^^ b⟩,
    ⟨.vslls, false, intSll⟩, ⟨.vsrls, false, intSrl⟩, ⟨.vsras, false, intSra⟩, ⟨.vmins, false, intMin⟩,
    ⟨.vmaxs, false, intMax⟩] ++
  [⟨.vfadds, true, floatAdd⟩, ⟨.vfsubs, true, floatSub⟩, ⟨.vfrsubs, true, fun h a b => floatSub h b a⟩,
    ⟨.vfmuls, true, floatMul⟩, ⟨.vfdivs, true, floatDiv⟩, ⟨.vfrdivs, true, fun h a b => floatDiv h b a⟩,
    ⟨.vfmins, true, fun h a b => fpMinMax h.fmt false a b⟩, ⟨.vfmaxs, true, fun h a b => fpMinMax h.fmt true a b⟩]

/-- The scalar operand of a form (R226): the low SEW bits, or the FP64 value rounded to vt.fmt. -/
def scalarOperand (float : Bool) (s : State) (b : BitVec 5) : Nat :=
  if float then convert s.hart.rnd .f64 s.hart.fmt (s.rs b).toNat else (s.rs b).toNat % 2 ^ s.hart.sew

/-- The comparisons of two vector sources (R232, R235). -/
noncomputable def compareForms : List (Compare2 (BitVec 4 → BitVec 6 → BitVec 6 → BitVec 6 → Instr)) :=
  [⟨.vseq, false, fun _ a b => decide (a = b)⟩, ⟨.vsne, false, fun _ a b => decide (a ≠ b)⟩,
    ⟨.vslt, false, fun h a b => decide (sg h a < sg h b)⟩, ⟨.vsltu, false, fun _ a b => decide (a < b)⟩,
    ⟨.vsle, false, fun h a b => decide (sg h a ≤ sg h b)⟩, ⟨.vsleu, false, fun _ a b => decide (a ≤ b)⟩,
    ⟨.vfeq, true, floatEq⟩, ⟨.vfne, true, fun h a b => !floatEq h a b⟩, ⟨.vflt, true, floatLt⟩,
    ⟨.vfle, true, fun h a b => floatLt h a b || floatEq h a b⟩]

/-- The comparisons with a scalar second operand (R237). -/
noncomputable def compareScalarForms : List (Compare2 (BitVec 4 → BitVec 5 → BitVec 6 → BitVec 6 → Instr)) :=
  [⟨.vseqs, false, fun _ a b => decide (a = b)⟩, ⟨.vslts, false, fun h a b => decide (sg h a < sg h b)⟩,
    ⟨.vsgts, false, fun h a b => decide (sg h b < sg h a)⟩, ⟨.vfeqs, true, floatEq⟩, ⟨.vflts, true, floatLt⟩,
    ⟨.vfgts, true, fun h a b => floatLt h b a⟩]

/-- A form of one vector source; `any` says that it accepts every format. -/
structure Form1 where
  form : BitVec 4 → BitVec 6 → BitVec 6 → Instr
  any : Bool
  float : Bool
  result : Hart → Nat → Nat

/-- The forms of one vector source (R238, R239). -/
noncomputable def unaryForms : List Form1 :=
  [⟨.vmv, true, false, fun _ a => a⟩, ⟨.vnot, false, false, fun h a => 2 ^ h.sew - 1 - a⟩,
    ⟨.vabs, false, false, fun h a => (sg h a).natAbs⟩, ⟨.vneg, false, false, fun h a => ofSigned h.sew (-sg h a)⟩,
    ⟨.vfabs, false, true, fun h a => floatSign h a false⟩, ⟨.vfneg, false, true, fun h a => floatSign h a (!floatNeg h a)⟩,
    ⟨.vfsqrt, false, true, fun h a => rnd h (num h a).sqrt⟩, ⟨.vfrecip, false, true, fun h a => rnd h (num h a).recip⟩,
    ⟨.vfrsqrt, false, true, fun h a => rnd h (num h a).rsqrt⟩, ⟨.vfclass, false, true, fun h a => fpClass h.fmt a⟩]

/-- A multiply and accumulate form: its result from both sources and the old destination element (R236). -/
structure FormAcc where
  form : BitVec 4 → BitVec 6 → BitVec 6 → BitVec 6 → Instr
  float : Bool
  result : Hart → Nat → Nat → Nat → Nat

/-- RND(± a*b ± d), rounded once (R236). -/
def fused (negProduct negAddend : Bool) (h : Hart) (a b d : Nat) : Nat :=
  let p := Machine.Num.mul (num h a) (num h b)
  rnd h (Machine.Num.add h.rnd (if negProduct then p.neg else p) (if negAddend then (num h d).neg else num h d))

/-- The multiply and accumulate forms (R236). -/
noncomputable def accumulateForms : List FormAcc :=
  [⟨.vmacc, false, fun _ a b d => a * b + d⟩, ⟨.vnmsac, false, fun h a b d => ofSigned h.sew (sg h d - sg h a * sg h b)⟩,
    ⟨.vmadd, false, fun _ a b d => a * d + b⟩, ⟨.vnmsub, false, fun h a b d => ofSigned h.sew (sg h b - sg h a * sg h d)⟩,
    ⟨.vfmadd, true, fused false false⟩, ⟨.vfmsub, true, fused false true⟩, ⟨.vfnmadd, true, fused true true⟩,
    ⟨.vfnmsub, true, fused true false⟩]

/-- The operation of a reduction, a scan or a segmented sum: addition modulo 2^SEW, or RND(x + y) (R222). -/
def sumOp (float : Bool) (h : Hart) (x y : Nat) : Nat := if float then floatAdd h x y else (x + y) % 2 ^ h.sew

/-- The order-fixed reductions (R243), each with the operation that it folds from element 0 of vd. -/
noncomputable def orderedReductions : List (Form2 (BitVec 4 → BitVec 6 → BitVec 6 → Instr)) :=
  [⟨.vredsumO, false, sumOp false⟩, ⟨.vredmin, false, intMin⟩, ⟨.vredmax, false, intMax⟩,
    ⟨.vredand, false, fun _ x y => x &&& y⟩, ⟨.vredor, false, fun _ x y => x ||| y⟩, ⟨.vredxor, false, fun _ x y => x ^^^ y⟩,
    ⟨.vfredsumO, true, sumOp true⟩, ⟨.vfredmin, true, fun h => fpMinMax h.fmt false⟩,
    ⟨.vfredmax, true, fun h => fpMinMax h.fmt true⟩]

/-- A reduction completes with r in element 0 of vd and the tail policy applied to the others; with vl = 0 it leaves vd
alone (R243). -/
def Reduces (i : Instr) (s : State) (ok : Bool) (a d : BitVec 6) (r : (Nat → Nat) → Nat → Nat) : Prop :=
  let w := s.hart.sew
  let old := elem (s.hart.getV d.toNat) w
  ok = true → s.hold [⟨a, w⟩] (some ⟨d, w⟩) = none → d.toNat < 48 → s.hart.anyBad [⟨a, w⟩] = none → RegSlot.v d.toNat 0 ∉ s.hart.parity →
  ∃ t, exec i s = .next t ∧ VectorDone s t ∧ (∀ n, n ≠ d.toNat ∨ s.hart.vl = 0 → t.hart.getV n = s.hart.getV n) ∧
    (s.hart.vl ≠ 0 → elem (t.hart.getV d.toNat) w 0 = r (pick (s.hart.sourceValues [⟨a, w⟩]) 0 w) (old 0) % 2 ^ w ∧
      ∀ e, 0 < e → e < s.hart.mvl w → TailElement s.hart (old e) (elem (t.hart.getV d.toNat) w e)) ∧
    Healed s t (fun r => ∃ k, r = .v d.toNat k) (· = d.toNat) ∧
    Keeps (.vectors :: vectorEffects) s t

/-- A vector load into register d (R136, R137, R143, R150): when every active element passes its checks, they are
loaded. -/
def VectorLoad (i : Instr) (s : State) (window : Bool) (srcs : List Source) (d : BitVec 6) (mask : Nat) (addr : Nat → Nat) :
    Prop :=
  ∀ place, s.hart.region = none → s.full .ld = false → s.hold srcs (some ⟨d, s.hart.sew⟩) = none → isStream d = false →
  s.hart.cutInside true srcs mask = none →
  Reaches s window .load s.hart.fmt.esz addr (s.hart.activeFrom mask) place →
  ∃ t, exec i s = .next t ∧ WroteVector s t d.toNat s.hart.sew mask (fun e => s.peek (place e)) ∧ VectorDone s t ∧
    Counted s t .ld ∧ StoredNothing s t ∧ Keeps (.vectors :: vectorEffects ++ accessEffects) s t

/-- A vector store of register or stream v (R136, R143, R144, R150): when every active element passes its checks, they are
stored in ascending order. -/
def VectorStore (i : Instr) (s : State) (window : Bool) (v : BitVec 6) (index : List Source) (mask : Nat)
    (addr : Nat → Nat) : Prop :=
  ∀ place, let srcs : List Source := ⟨v, s.hart.sew⟩ :: index
  s.hart.region = none → s.full .st = false → s.hold srcs none = none → s.hart.cutInside true srcs mask = none →
  Reaches s window .store s.hart.fmt.esz addr (s.hart.activeFrom mask) place →
  ∃ t, exec i s = .next t ∧
    StoredInOrder s t ((s.hart.activeFrom mask).map fun e => (place e, pick (s.hart.sourceValues srcs) 0 s.hart.sew e)) ∧
    VectorDone s t ∧ Counted s t .st ∧ Keeps (.localStore :: vectorEffects ++ accessEffects) s t

/-- A vector load is stopped at active element f, whose access meets a cause (R136, R138): the trap names it, with what the access has
done before. The elements below it are loaded and written, the others of the destination are not, and the operation is not counted;
one that loads into a stream pushes nothing, and its trap names element 0. The walk that found the cause reads its entries again (R321). -/
def LoadStops (i : Instr) (s : State) (window : Bool) (srcs : List Source) (d : BitVec 6) (mask : Nat) (addr : Nat → Nat) : Prop :=
  ∀ (place : Nat → List Piece) (f at_ : Nat) (code sub : Byte),
  let h := s.hart
  let w := h.sew
  h.region = none → s.full .ld = false → s.hold srcs (some ⟨d, w⟩) = none → h.cutInside true srcs mask = none →
  f ∈ h.activeFrom mask → Reaches s window .load h.fmt.esz addr ((h.activeFrom mask).filter fun e => decide (e < f)) place →
  s.checkElement window .load (addr f) h.fmt.esz = .error (.trap code sub at_) → code ≠ 8 →
  let e := if isStream d then 0 else f
  ∃ u : State, exec i s = (if code = 4 ∨ inWindow at_ = true then u else u.walkAll e [at_]).takeTrap code.toNat sub.toNat 0 e (some at_) ∧
    u.hart.pc = h.pc ∧ StoredNothing s u ∧ (isStream d = true → Keeps accessEffects s u) ∧
    (isStream d = false → (∀ e, e < h.mvl w → if e < f then
          DestElement h (mask.testBit e) e (elem (h.getV d.toNat) w e) (s.peek (place e) % 2 ^ w) (elem (u.hart.getV d.toNat) w e)
        else elem (u.hart.getV d.toNat) w e = elem (h.getV d.toNat) w e) ∧
      (∀ n, n ≠ d.toNat → u.hart.getV n = h.getV n) ∧ Healed s u (fun r => ∃ k, r = .v d.toNat k) (· = d.toNat) ∧
      Keeps (.vectors :: .copies :: .integrity :: .rows :: accessEffects) s u)

/-- A vector store is stopped at active element f, whose access meets a cause (R136): the trap names it, the elements below it are
stored, and the operation is not counted. -/
def StoreStops (i : Instr) (s : State) (window : Bool) (v : BitVec 6) (index : List Source) (mask : Nat) (addr : Nat → Nat) : Prop :=
  ∀ (place : Nat → List Piece) (f at_ : Nat) (code sub : Byte),
  let h := s.hart
  let srcs : List Source := ⟨v, h.sew⟩ :: index
  h.region = none → s.full .st = false → s.hold srcs none = none → h.cutInside true srcs mask = none →
  f ∈ h.activeFrom mask → Reaches s window .store h.fmt.esz addr ((h.activeFrom mask).filter fun e => decide (e < f)) place →
  s.checkElement window .store (addr f) h.fmt.esz = .error (.trap code sub at_) → code ≠ 8 →
  ∃ u : State, exec i s = (if code = 4 ∨ inWindow at_ = true then u else u.walkAll f [at_]).takeTrap code.toNat sub.toNat 0 f (some at_) ∧
    u.hart.pc = h.pc ∧ StoredInOrder s u (((h.activeFrom mask).filter fun e => decide (e < f)).map fun e =>
      (place e, pick (h.sourceValues srcs) 0 h.sew e)) ∧
    Keeps (.localStore :: .copies :: accessEffects) s u

/-- A form with a stream as its destination (R138, R155): it pushes one element for each element from 0 to g, zero where it is inactive,
as far as the copy has room. -/
def Pushes (i : Instr) (s : State) (ok : Bool) (srcs : List Source) (d : BitVec 6) (w mask : Nat) (new : List Nat → Nat → Nat) : Prop :=
  ∀ (k : BitVec 5) (c : Copy),
  let h := s.hart
  let pushed := (List.range h.g).map fun e => if mask.testBit e then new (h.sourceValues srcs) e % 2 ^ w else 0
  ok = true → s.hold srcs (some ⟨d, w⟩) = none → isStream d = true → h.bound d = some k → h.copyOf k = some c →
  h.firstBad srcs mask = none →
  ∃ t : State, exec i s = .next t ∧ VectorDone s t ∧
    t.hart.copyOf k = some { c with pos := min (c.pos + h.g) c.n.toNat, data := c.data ++ pushed.take (c.n.toNat - c.pos) } ∧
    Keeps vectorEffects s t

/-- A vector load into a stream (R138, R143): as `Pushes`, when every active element passes its checks. -/
def PushesLoad (i : Instr) (s : State) (window : Bool) (srcs : List Source) (d : BitVec 6) (mask : Nat) (addr : Nat → Nat) : Prop :=
  ∀ (place : Nat → List Piece) (k : BitVec 5) (c : Copy),
  let h := s.hart
  let w := h.sew
  let pushed := (List.range h.g).map fun e =>
    if mask.testBit e && decide (h.vstart.toNat ≤ e) then s.peek (place e) % 2 ^ w else 0
  h.region = none → s.full .ld = false → s.hold srcs (some ⟨d, w⟩) = none → isStream d = true → h.bound d = some k →
  h.copyOf k = some c → h.firstBad srcs mask = none → Reaches s window .load h.fmt.esz addr (h.activeFrom mask) place →
  ∃ t : State, exec i s = .next t ∧ VectorDone s t ∧ Counted s t .ld ∧ StoredNothing s t ∧
    t.hart.copyOf k = some { c with pos := min (c.pos + h.g) c.n.toNat, data := c.data ++ pushed.take (c.n.toNat - c.pos) } ∧
    Keeps (vectorEffects ++ accessEffects) s t

/-- The addresses of the elements of a vector access (R143): consecutive, at a signed stride, or by an index operand. -/
def unitAddress (s : State) (b : BitVec 5) (e : Nat) : Nat := ((s.rs b).toNat + e * s.hart.fmt.esz) % 2 ^ 64
def strideAddress (s : State) (b x : BitVec 5) (e : Nat) : Nat := (BitVec.ofInt 64 ((s.rs b).toInt + e * (s.rs x).toInt)).toNat
def indexAddress (s : State) (b : BitVec 5) (srcs : List Source) (k e : Nat) : Nat :=
  ((s.rs b).toNat + pick (s.hart.sourceValues srcs) k s.hart.sew e * s.hart.fmt.esz) % 2 ^ 64

/-- The atomic scatters (R146): the form, whether it takes floating formats, and its operation, memory's value first. -/
noncomputable def scatterForms :
    List ((BitVec 3 → BitVec 6 → BitVec 5 → BitVec 6 → Instr) × Bool × (Hart → Nat → Nat → Nat)) :=
  [(.vamoAdd, true, fun h a b => sumOp h.fmt.isFloat h a b),
    (.vamoMin, true, fun h a b => if h.fmt.isFloat then fpMinMax h.fmt false a b else intMin h a b),
    (.vamoMax, true, fun h a b => if h.fmt.isFloat then fpMinMax h.fmt true a b else intMax h a b),
    (.vamoAnd, false, fun _ a b => a &&& b), (.vamoOr, false, fun _ a b => a ||| b), (.vamoXor, false, fun _ a b => a ^^^ b),
    (.vamoSwap, true, fun _ _ b => b)]

/-- The formats of atomic scatters (R146). -/
def scatterFormat (float : Bool) (f : Fmt) : Prop := f = .i32 ∨ f = .i64 ∨ float = true ∧ (f = .f32 ∨ f = .f64)

/-- The sum that the close of a window gives one address (R148), from its old value and the contributions in ascending order of their
issuers: up to 16 one by one, more in groups of 16. -/
def windowSum (f : Fmt) (old : Nat) (cs : List Nat) : Nat :=
  let add := addIn f .rne
  if cs.length ≤ 16 then ordered add (old :: cs)
  else ordered add (old :: (List.range ((cs.length + 15) / 16)).map fun i => ordered add ((cs.drop (16 * i)).take 16))

/-- Byte a is one of those that a contribution is added to. -/
def Sums (c : Contribution) (a : Nat) : Prop := c.addr ≤ a ∧ a < c.addr + (fmtOf c.fmt).esz

/-- Two elements' bytes lie apart. -/
def Apart (ps qs : List Piece) : Prop := ∀ a, ¬ (covers ps a ∧ covers qs a)

/-- The words of the advice ISA (R291). -/
def isAdvice : Instr → Bool
  | .anop | .ali _ _ | .ashor _ _ _ | .aadd _ _ _ | .aaddi _ _ _ | .asll _ _ _ | .amark _ | .ajmp _ | .abeq _ _ _
  | .abne _ _ _ | .await _ | .adelay _ | .aend | .apfL1 _ _ | .apfL2 _ _ | .apfTc _ _ | .atfetch _ _ | .akeep _ _ _
  | .aprio _ | .aorder _ | .aplace _ => true
  | _ => false

/-- The values of the full binary trees over some leaves, each used once and in that order; `join` gives a node (R221). -/
inductive Joined {α : Type} (join : α → α → α) : List α → α → Prop
  | leaf (x : α) : Joined join [x] x
  | node {l r : List α} {x y : α} : Joined join l x → Joined join r y → Joined join (l ++ r) (join x y)

/-- Every memory of the machine, and every table of its operands, scales, units, contexts, tenants and package registers, is in
its canonical form: addresses or keys strictly rising, and no entry equal to what an unlisted one reads as. -/
def Canonical (s : State) : Prop :=
  s.mem.wf = true ∧ s.lstore.wf = true ∧ s.slots.wf = true ∧ s.acc.wf = true ∧
  Sparse.wf oneScale s.scales = true ∧ Sparse.wf (fun _ => Quad.idle) s.quads = true ∧
  Sparse.wf (fun _ => Core.idle) s.cores = true ∧ Sparse.wf (fun _ => Channel.idle) s.shuttle = true ∧
  Sparse.wf (fun _ => Ctx.none) s.ctxs = true ∧ Sparse.wf (fun _ => Tenant.none) s.tenants = true ∧
  Sparse.wf partTable s.pkg.tables = true ∧ Sparse.wf (fun _ => 0) s.pkg.uec = true ∧
  Sparse.wf (fun _ => 0) s.pkg.coll = true

end Sys2Proof.Safety
end

