-- ==== Sys2Proof/Certificates/Slice0/Obligations.lean ====
section
/-! DEFINITION. The statements. -/

open Sys2Proof Sys2Proof.Machine Sys2Proof.Safety

/-! Scalar instructions. -/

/-- R97: the results of add, sub, the bitwise forms, the shifts and rotations, minimum, maximum and
the comparisons; a form on the low 32 bits gives its sign-extended result. -/
def Obligations.ScalarResults : Prop := ∀ (s : State) (b a d : BitVec 5),
  let x := s.rs a
  let y := s.rs b
  let k := bits y.toNat 5 0
  let kw := bits y.toNat 4 0
  Gives (.add b a d) s 4 d (BitVec.ofInt 64 (x.toInt + y.toInt)) ∧
  Gives (.sub b a d) s 4 d (BitVec.ofInt 64 (x.toInt - y.toInt)) ∧
  Gives (.and b a d) s 4 d (x &&& y) ∧
  Gives (.or b a d) s 4 d (x ||| y) ∧
  Gives (.xor b a d) s 4 d (x ^^^ y) ∧
  Gives (.andn b a d) s 4 d (x &&& ~~~y) ∧
  Gives (.orn b a d) s 4 d (x ||| ~~~y) ∧
  Gives (.sll b a d) s 4 d (BitVec.ofNat 64 (x.toNat * 2 ^ k)) ∧
  Gives (.srl b a d) s 4 d (BitVec.ofNat 64 (x.toNat / 2 ^ k)) ∧
  Gives (.sra b a d) s 4 d (BitVec.ofInt 64 (x.toInt / (2 ^ k : Nat))) ∧
  Gives (.rotl b a d) s 4 d (BitVec.ofNat 64 (x.toNat * 2 ^ k + x.toNat / 2 ^ (64 - k))) ∧
  Gives (.rotr b a d) s 4 d (BitVec.ofNat 64 (x.toNat / 2 ^ k + x.toNat * 2 ^ (64 - k))) ∧
  Gives (.min b a d) s 4 d (BitVec.ofInt 64 (min x.toInt y.toInt)) ∧
  Gives (.max b a d) s 4 d (BitVec.ofInt 64 (max x.toInt y.toInt)) ∧
  Gives (.minu b a d) s 4 d (BitVec.ofNat 64 (min x.toNat y.toNat)) ∧
  Gives (.maxu b a d) s 4 d (BitVec.ofNat 64 (max x.toNat y.toNat)) ∧
  Gives (.seq b a d) s 4 d (if x = y then 1 else 0) ∧
  Gives (.sne b a d) s 4 d (if x = y then 0 else 1) ∧
  Gives (.slt b a d) s 4 d (if x.toInt < y.toInt then 1 else 0) ∧
  Gives (.sltu b a d) s 4 d (if x.toNat < y.toNat then 1 else 0) ∧
  Gives (.addw b a d) s 4 d (BitVec.ofInt 64 (toSigned 32 (x.toNat + y.toNat))) ∧
  Gives (.subw b a d) s 4 d (BitVec.ofInt 64 (toSigned 32 (x.toNat + 2 ^ 64 - y.toNat))) ∧
  Gives (.sllw b a d) s 4 d (BitVec.ofInt 64 (toSigned 32 (x.toNat * 2 ^ kw))) ∧
  Gives (.srlw b a d) s 4 d (BitVec.ofInt 64 (toSigned 32 (bits x.toNat 31 0 / 2 ^ kw))) ∧
  Gives (.sraw b a d) s 4 d (BitVec.ofInt 64 (toSigned 32 x.toNat / (2 ^ kw : Nat))) ∧
  Gives (.mulw b a d) s 4 d (BitVec.ofInt 64 (toSigned 32 (x.toNat * y.toNat)))

/-- R97, R98: products and quotients; a division by zero and the division of the most negative number by -1 give the
stated results. -/
def Obligations.MultiplyDivideResults : Prop := ∀ (s : State) (b a d : BitVec 5),
  let x := s.rs a
  let y := s.rs b
  let xw := toSigned 32 x.toNat
  let yw := toSigned 32 y.toNat
  Gives (.mul b a d) s 4 d (BitVec.ofInt 64 (x.toInt * y.toInt)) ∧
  Gives (.mulh b a d) s 4 d (BitVec.ofInt 64 (x.toInt * y.toInt / 2 ^ 64)) ∧
  Gives (.mulhu b a d) s 4 d (BitVec.ofNat 64 (x.toNat * y.toNat / 2 ^ 64)) ∧
  Gives (.mulhsu b a d) s 4 d (BitVec.ofInt 64 (x.toInt * y.toNat / 2 ^ 64)) ∧
  Gives (.div b a d) s 4 d (if y = 0 then -1 else BitVec.ofInt 64 (x.toInt.tdiv y.toInt)) ∧
  Gives (.divu b a d) s 4 d (if y = 0 then BitVec.ofNat 64 (2 ^ 64 - 1) else BitVec.ofNat 64 (x.toNat / y.toNat)) ∧
  Gives (.rem b a d) s 4 d (if y = 0 then x else BitVec.ofInt 64 (x.toInt.tmod y.toInt)) ∧
  Gives (.remu b a d) s 4 d (if y = 0 then x else BitVec.ofNat 64 (x.toNat % y.toNat)) ∧
  Gives (.divw b a d) s 4 d (if yw = 0 then -1 else BitVec.ofInt 64 (toSigned 32 (ofSigned 32 (xw.tdiv yw)))) ∧
  Gives (.remw b a d) s 4 d (if yw = 0 then BitVec.ofInt 64 xw else BitVec.ofInt 64 (xw.tmod yw))

/-- R97: counting and moving bits. -/
def Obligations.BitCountResults : Prop := ∀ (s : State) (b a d : BitVec 5),
  let x := (s.rs a).toNat
  let y := (s.rs b).toNat
  (∃ n, n ≤ 64 ∧ x < 2 ^ (64 - n) ∧ (n < 64 → 2 ^ (63 - n) ≤ x) ∧ Gives (.clz a d) s 4 d (BitVec.ofNat 64 n)) ∧
  (∃ n, n ≤ 64 ∧ (∀ i, i < n → x.testBit i = false) ∧ (n < 64 → x.testBit n = true) ∧
    Gives (.ctz a d) s 4 d (BitVec.ofNat 64 n)) ∧
  Gives (.cpop a d) s 4 d (BitVec.ofNat 64 ((List.range 64).filter fun i => x.testBit i).length) ∧
  (∃ v, Gives (.rev8 a d) s 4 d v ∧ ∀ i, i < 8 → bits v.toNat (8 * i + 7) (8 * i) = bits x (63 - 8 * i) (56 - 8 * i)) ∧
  (∃ v, Gives (.bext b a d) s 4 d v ∧
    (∀ i, i < 64 → y.testBit i = true → v.toNat.testBit (popCount i y) = x.testBit i) ∧
    ∀ j, popCount 64 y ≤ j → v.toNat.testBit j = false) ∧
  (∃ v, Gives (.bdep b a d) s 4 d v ∧
    ∀ i, i < 64 → v.toNat.testBit i = (y.testBit i && x.testBit (popCount i y)))

/-- R99, R100: the forms with an immediate, and aupc, whose 48-bit pc enters the sum zero-extended (the model's choice, log 40). -/
def Obligations.ImmediateResults : Prop := ∀ (s : State) (i : BitVec 11) (n : BitVec 6) (u : BitVec 19) (a d : BitVec 5),
  let x := s.rs a
  Gives (.addi i a d) s 4 d (BitVec.ofInt 64 (x.toInt + i.toInt)) ∧
  Gives (.andi i a d) s 4 d (x &&& BitVec.ofInt 64 i.toInt) ∧
  Gives (.ori i a d) s 4 d (x ||| BitVec.ofInt 64 i.toInt) ∧
  Gives (.xori i a d) s 4 d (x ^^^ BitVec.ofInt 64 i.toInt) ∧
  Gives (.slli n a d) s 4 d (BitVec.ofNat 64 (x.toNat * 2 ^ n.toNat)) ∧
  Gives (.srli n a d) s 4 d (BitVec.ofNat 64 (x.toNat / 2 ^ n.toNat)) ∧
  Gives (.srai n a d) s 4 d (BitVec.ofInt 64 (x.toInt / (2 ^ n.toNat : Nat))) ∧
  Gives (.shori i a d) s 4 d (BitVec.ofNat 64 (x.toNat * 2 ^ 11 + i.toNat)) ∧
  Gives (.addiw i a d) s 4 d (BitVec.ofInt 64 (toSigned 32 (x.toNat + (i.signExtend 64).toNat))) ∧
  Gives (.aupc u d) s 4 d (BitVec.ofInt 64 (s.hart.pc.toNat + u.toInt * 2 ^ 11))

/-- R101 to R104: the branches: taken, the pc moves by twice the offset; not taken, to the next word. Jumps and their links: a
target of 0 ends the program outside regions, and inside a region aborts it with code 4 and writes no link. That a link is the
zero-extended pc, and that a jump keeps the low 48 bits of its target, one that is not canonical too, are the model's choice (DESIGN
CHOICE, log 40). -/
def Obligations.BranchesAndJumps : Prop :=
  ∀ (s : State) (o i : BitVec 11) (u : BitVec 19) (b a d : BitVec 5),
  let x := s.rs a
  let y := s.rs b
  let taken := s.hart.pc + BitVec.ofInt 48 (2 * o.toInt)
  let next := s.hart.pc + 4
  Goes (.beq o b a) s (if x = y then taken else next) ∧
  Goes (.bne o b a) s (if x = y then next else taken) ∧
  Goes (.blt o b a) s (if x.toInt < y.toInt then taken else next) ∧
  Goes (.bge o b a) s (if x.toInt < y.toInt then next else taken) ∧
  Goes (.bltu o b a) s (if x.toNat < y.toNat then taken else next) ∧
  Goes (.bgeu o b a) s (if x.toNat < y.toNat then next else taken) ∧
  (∃ t : State, exec (.jal u d) s = .next t ∧ Wrote s t d (s.hart.pc.setWidth 64 + 4) ∧
    t.hart.pc = s.hart.pc + BitVec.ofInt 48 (2 * u.toInt) ∧ Keeps [.scalars, .integrity, .pc] s t) ∧
  ∀ (j : Instr) (n : Nat) (link : BitVec 5) (x : Word),
    (j, n, link, x) ∈ [(Instr.jalr i a d, 4, d, s.rs a + i.signExtend 64), (.ret a, 4, 0, s.rs a), (.cJalr d a, 2, d, s.rs a)] →
    let target := x.toNat / 2 * 2
    (target ≠ 0 → ∃ t : State, exec j s = .next t ∧ Wrote s t link (s.hart.pc.setWidth 64 + BitVec.ofNat 64 n) ∧
      t.hart.pc = BitVec.ofNat 48 target ∧ Keeps [.scalars, .integrity, .pc] s t) ∧
    (target = 0 → s.hart.region = none → ∃ t : State, exec j s = .next t ∧ t.hart.ending = true ∧ t.hart.failCode = 0 ∧
      .taskEnd s.hart.id ∈ t.agenda ∧ Wrote s t link (s.hart.pc.setWidth 64 + BitVec.ofNat 64 n) ∧
      Keeps [.scalars, .integrity, .pc, .task, .waits, .agenda] s t) ∧
    (target = 0 → s.hart.region ≠ none → exec j s = .next (s.abortRegion s.hart.id 4))

/-- R105: each compressed form of arithmetic and control has the effect of the form it stands for, with pc + 2 for
pc + 4. -/
def Obligations.CompressedResults : Prop :=
  ∀ (s : State) (d b : BitVec 5) (i : BitVec 6) (r : BitVec 3) (o : BitVec 8) (u : BitVec 11),
  let x := s.rs d
  let y := s.rs b
  let short := s.rs (BitVec.ofNat 5 (8 + r.toNat))
  Gives (.cAddi d i) s 2 d (BitVec.ofInt 64 (x.toInt + i.toInt)) ∧
  Gives (.cAdd d b) s 2 d (BitVec.ofInt 64 (x.toInt + y.toInt)) ∧
  Gives (.cSub d b) s 2 d (BitVec.ofInt 64 (x.toInt - y.toInt)) ∧
  Gives (.cAnd d b) s 2 d (x &&& y) ∧
  Gives (.cOr d b) s 2 d (x ||| y) ∧
  Gives (.cXor d b) s 2 d (x ^^^ y) ∧
  Gives (.cSlli d i) s 2 d (BitVec.ofNat 64 (x.toNat * 2 ^ i.toNat)) ∧
  Gives (.cSrli d i) s 2 d (BitVec.ofNat 64 (x.toNat / 2 ^ i.toNat)) ∧
  Gives (.cSrai d i) s 2 d (BitVec.ofInt 64 (x.toInt / (2 ^ i.toNat : Nat))) ∧
  Goes (.cBeq r o) s (if short = 0 then s.hart.pc + BitVec.ofInt 48 (2 * o.toInt) else s.hart.pc + 2) ∧
  Goes (.cBne r o) s (if short = 0 then s.hart.pc + 2 else s.hart.pc + BitVec.ofInt 48 (2 * o.toInt)) ∧
  (∃ t : State, exec (.cJal u) s = .next t ∧ Wrote s t 31 (s.hart.pc.setWidth 64 + 2) ∧
    t.hart.pc = s.hart.pc + BitVec.ofInt 48 (2 * u.toInt) ∧ Keeps [.scalars, .integrity, .pc] s t)

/-! Scalar loads, stores and atomics, outside regions. -/

/-- R140: a load writes sd with its bytes, extended, and counts in ld; it stores nothing. -/
def Obligations.ScalarLoads : Prop :=
  ∀ (s : State) (i : BitVec 7) (c : BitVec 4) (b d : BitVec 5) (r k : BitVec 3) (ps : List Piece),
  Canonical s → s.hart.region = none → s.full .ld = false →
  let Loads := fun (j : Instr) (size n : Nat) (signed : Bool) (a : Nat) =>
    s.pieces s.hart true .load a n = .ok ps →
      ∃ t : State, exec j s = .next t ∧ Wrote s t d (extended signed n (s.peek ps)) ∧
        t.hart.pc = s.hart.pc + BitVec.ofNat 48 size ∧ Issued s t .ld ∧ StoredNothing s t ∧
        Keeps (.scalars :: .integrity :: .pc :: .counters :: accessEffects) s t
  (∀ f ∈ scalarLoads, Loads (f.1 i c b d) 4 f.2.1 f.2.2 (BitVec.ofInt 64 ((s.rs b).toInt + i.toInt * f.2.1)).toNat) ∧
  Loads (.cLdd d r k) 2 8 true (s.rs (BitVec.ofNat 5 (8 + r.toNat)) + BitVec.ofNat 64 (8 * k.toNat)).toNat

/-- R140: a store writes the low bytes of its register at its address and nothing else in memory, and counts in st. -/
def Obligations.ScalarStores : Prop :=
  ∀ (s : State) (i : BitVec 7) (c : BitVec 4) (b x : BitVec 5) (r k : BitVec 3) (ps : List Piece),
  Canonical s → s.hart.region = none → s.full .st = false →
  let Stores := fun (j : Instr) (size n : Nat) (a : Nat) =>
    s.pieces s.hart true .store a n = .ok ps →
      ∃ t : State, exec j s = .next t ∧ Stored s t ps (s.rs x).toNat ∧ t.hart.pc = s.hart.pc + BitVec.ofNat 48 size ∧
        Issued s t .st ∧ Keeps (.pc :: .counters :: .reservation :: .localStore :: accessEffects) s t
  (∀ f ∈ scalarStores, Stores (f.1 i c b x) 4 f.2 (BitVec.ofInt 64 ((s.rs b).toInt + i.toInt * f.2)).toNat) ∧
  Stores (.cStd x r k) 2 8 (s.rs (BitVec.ofNat 5 (8 + r.toNat)) + BitVec.ofNat 64 (8 * k.toNat)).toNat

/-- R141: an atomic reads m, writes its new value and sets sd to m, sign-extended; amocas writes only where m is the
expected value that sd held. It counts in st. -/
def Obligations.ScalarAtomics : Prop :=
  ∀ (s : State) (c : BitVec 4) (b a d : BitVec 5) (ps : List Piece), Canonical s → s.hart.region = none →
  s.full .st = false →
  let va := (s.rs a).toNat
  let Done := fun (j : Instr) (n : Nat) (stored : Option Nat) =>
    ∃ t : State, exec j s = .next t ∧ Wrote s t d (extended true n (s.peek ps)) ∧ t.hart.pc = s.hart.pc + 4 ∧ Issued s t .st ∧
      (match stored with
        | some y => Stored s t ps y
        | none => StoredNothing s t) ∧
      Keeps (.scalars :: .integrity :: .pc :: .counters :: .reservation :: .localStore :: accessEffects) s t
  (∀ f ∈ scalarAtomics, va % f.2.1 = 0 → s.pieces s.hart true .update va f.2.1 = .ok ps →
    Done (f.1 c b a d) f.2.1 (some (f.2.2 (s.peek ps) ((s.rs b).toNat % 256 ^ f.2.1)))) ∧
  ∀ f ∈ [(Instr.amocas, 8), (.amocasW, 4)], va % f.2 = 0 → s.pieces s.hart true .update va f.2 = .ok ps →
    Done (f.1 c b a d) f.2
      (if s.peek ps = (s.rs d).toNat % 256 ^ f.2 then some ((s.rs b).toNat % 256 ^ f.2) else none)

/-- R142: lr and lr.w load and reserve the block; sc and sc.w store and write 0 under a valid reservation on the block, or
write 1 and store nothing; the reservation is cleared. -/
def Obligations.Reservations : Prop :=
  ∀ (s : State) (c : BitVec 4) (b a d : BitVec 5) (p : Piece) (ps : List Piece), Canonical s →
  s.hart.region = none → s.full .st = false →
  let va := (s.rs a).toNat
  (∀ f ∈ [(Instr.lr, 8), (.lrW, 4)], va % f.2 = 0 → s.pieces s.hart true .load va f.2 = .ok (p :: ps) →
    (∀ q ∈ s.pkg.holds, q.1 = p.place.block → q.2 = s.hart.id) →
    ∃ t : State, exec (f.1 c a d) s = .next t ∧ Wrote s t d (extended true f.2 (s.peek (p :: ps))) ∧
      t.hart.pc = s.hart.pc + 4 ∧ t.hart.reservation = some p.place.block ∧ Issued s t .st ∧ StoredNothing s t ∧
      (∃ l, SameRegisters { s.pkg with holds := l } t.pkg) ∧
      Keeps (.scalars :: .integrity :: .pc :: .counters :: .reservation :: .package :: accessEffects) s t) ∧
  ∀ f ∈ [(Instr.sc, 8), (.scW, 4)], va % f.2 = 0 → s.pieces s.hart true .store va f.2 = .ok (p :: ps) →
    let held := s.hart.reservation = some p.place.block
    ∃ t : State, exec (f.1 c b a d) s = .next t ∧ (held → Wrote s t d 0 ∧ Stored s t (p :: ps) (s.rs b).toNat) ∧
      (¬ held → Wrote s t d 1 ∧ StoredNothing s t) ∧ t.hart.pc = s.hart.pc + 4 ∧ t.hart.reservation = none ∧
      Issued s t .st ∧ (∃ l, SameRegisters { s.pkg with holds := l } t.pkg) ∧
      Keeps (.scalars :: .integrity :: .pc :: .counters :: .reservation :: .package :: .localStore :: accessEffects) s t

/-- R136 to R139, R141, R142, R321: a scalar atomic, a load-reserve or a store-conditional whose address is not a multiple of its size
traps with code 4 and has no effect; a scalar access that meets a cause in any byte traps with that cause, after the entry reads of the
walks of its bytes and of the one that found it. A vector access, at consecutive addresses, at a stride or by an index, in memory or in
the local store, that meets a cause at an element, a misaligned address too, traps there: the elements below are performed. One whose
first active element is misaligned traps there and stores nothing. -/
def Obligations.AccessTraps : Prop :=
  ∀ (s : State) (i : BitVec 7) (c : BitVec 4) (m : BitVec 3) (x b a d : BitVec 5) (k v : BitVec 6) (code sub : Byte)
    (at_ e : Nat) (rest : List Nat), Canonical s → s.hart.region = none →
  let va := (s.rs a).toNat
  let h := s.hart
  let w := h.sew
  let M := h.getM m.toNat
  let walked := fun (x n : Nat) =>
    let u := s.walkAll 0 ([x, (x + n - 1) % 2 ^ 64].filter fun y => !inWindow y)
    if inWindow at_ = true then u else u.walkAll 0 [at_]
  let index : List Source := [⟨k, w⟩]
  (∀ f ∈ scalarAtomics, va % f.2.1 ≠ 0 → exec (f.1 c b a d) s = s.takeTrap 4 0 0 0 (some va)) ∧
  (∀ f ∈ [(Instr.amocas c b a d, 8), (.amocasW c b a d, 4), (.lr c a d, 8), (.lrW c a d, 4), (.sc c b a d, 8), (.scW c b a d, 4)],
    va % f.2 ≠ 0 → exec f.1 s = s.takeTrap 4 0 0 0 (some va)) ∧
  (∀ f ∈ scalarLoads, let x := (BitVec.ofInt 64 ((s.rs b).toInt + i.toInt * f.2.1)).toNat
    s.pieces h true .load x f.2.1 = .error (.trap code sub at_) → code ≠ 4 → code ≠ 8 →
      exec (f.1 i c b d) s = (walked x f.2.1).takeTrap code.toNat sub.toNat 0 0 (some at_)) ∧
  (∀ f ∈ scalarStores, let x := (BitVec.ofInt 64 ((s.rs b).toInt + i.toInt * f.2)).toNat
    s.pieces h true .store x f.2 = .error (.trap code sub at_) → code ≠ 4 → code ≠ 8 →
      exec (f.1 i c b d) s = (walked x f.2).takeTrap code.toNat sub.toNat 0 0 (some at_)) ∧
  LoadStops (.vld c m b v) s false [] v M (unitAddress s b) ∧
  LoadStops (.vlds c m x b v) s false [] v M (strideAddress s b x) ∧
  (s.gatherDead = false → LoadStops (.vgather c m k b v) s false index v M (indexAddress s b index 0)) ∧
  LoadStops (.lsld m b v) s true [] v M (unitAddress s b) ∧
  LoadStops (.lslds m x b v) s true [] v M (strideAddress s b x) ∧
  LoadStops (.lsgather m k b v) s true index v M (indexAddress s b index 0) ∧
  StoreStops (.vst c m b v) s false v [] M (unitAddress s b) ∧
  StoreStops (.vsts c m x b v) s false v [] M (strideAddress s b x) ∧
  (s.gatherDead = false → StoreStops (.vscatter c m k b v) s false v index M (indexAddress s b (⟨v, w⟩ :: index) 1)) ∧
  StoreStops (.lsst m b v) s true v [] M (unitAddress s b) ∧
  StoreStops (.lssts m x b v) s true v [] M (strideAddress s b x) ∧
  StoreStops (.lsscatter m k b v) s true v index M (indexAddress s b (⟨v, w⟩ :: index) 1) ∧
  (h.activeFrom M = e :: rest → unitAddress s b e % h.fmt.esz ≠ 0 → h.breakInside (h.activeCount M) = none →
    isStream v = false → s.full .st = false → s.hold [⟨v, h.sew⟩] none = none →
    exec (.vst c m b v) s = s.takeTrap 4 0 0 e (some (unitAddress s b e)))

/-! Traps, waiting and ordering, system registers. -/

/-- R303: a trap taken outside regions by a hart that has a handler and serves no trap: which registers it saves and
where the hart goes on; err.ue counts the traps with code 8 (R313). No scalar, vector or mask register changes. Where no address is
named, trap.addr holds the pc as an address, bit 47 copied upwards, while trap.pc and trap.fpc hold it zero-extended: the model's choice
(DESIGN CHOICE, log 40). -/
def Obligations.TrapEntry : Prop :=
  ∀ (s : State) (code sub n e : Nat) (a : Option Nat), Canonical s → s.hart.region = none → s.hart.trap.vec ≠ 0 →
  s.hart.trap.cause.toNat.testBit 32 = false → code < 2 ^ 8 → sub < 2 ^ 8 → n < 2 ^ 11 → e < 2 ^ 11 →
  ∃ t : State, s.takeTrap code sub n e a = .next t ∧
    t.hart.pc = BitVec.ofNat 48 (s.hart.trap.vec.toNat / 2 * 2) ∧ t.hart.vstart = 0 ∧ t.hart.reservation = none ∧
    t.hart.trap.pc = s.hart.pc.setWidth 64 ∧ t.hart.trap.fpc = s.hart.pc.setWidth 64 ∧
    t.hart.trap.elem = BitVec.ofNat 64 e ∧
    bits t.hart.trap.cause.toNat 7 0 = code ∧ bits t.hart.trap.cause.toNat 15 8 = sub ∧
    bits t.hart.trap.cause.toNat 26 16 = n ∧ bits t.hart.trap.cause.toNat 31 27 = 0 ∧
    t.hart.trap.cause.toNat.testBit 32 = true ∧
    t.hart.trap.addr = BitVec.ofNat 64 (a.getD (pcAddr s.hart.pc)) ∧ t.hart.trap.word = s.wordAt s.hart ∧
    t.hart.trap.vec = s.hart.trap.vec ∧ t.hart.trap.tmp0 = s.hart.trap.tmp0 ∧ t.hart.trap.tmp1 = s.hart.trap.tmp1 ∧
    t.arb = { s.arb with beginQueue := s.arb.beginQueue.filter fun k => decide (k ≠ s.hart.id) } ∧
    (Untraced s → t.mem = s.mem ∧ (code ≠ 8 → t.ctxs = s.ctxs) ∧
      (code = 8 → t.counter s.hart.ctx 0x7AD 0 = s.counter s.hart.ctx 0x7AD 0 + 1)) ∧
    Keeps (.trap :: .pc :: .vstart :: .waits :: .arbiter :: traceEffects) s t

/-- R199, R303, R304: outside regions, a trap with no handler, or while another is served, ends the program and fails its
job with code 6; the trap registers keep what they held. A trap inside a region aborts the region with code 5, which
restores the checkpoint and writes the status, and is then raised at the region's xbegin with element 0. -/
def Obligations.OtherTraps : Prop :=
  ∀ (s : State) (code sub n e : Nat) (a : Option Nat),
  (s.hart.region = none → s.hart.trap.vec = 0 ∨ s.hart.trap.cause.toNat.testBit 32 = true →
    ∃ t : State, s.takeTrap code sub n e a = .next t ∧ t.hart.ending = true ∧ t.hart.failCode = 6 ∧
      .taskEnd s.hart.id ∈ t.agenda ∧ t.hart.trap = s.hart.trap ∧ t.hart.s = s.hart.s ∧ t.hart.v = s.hart.v ∧
      t.hart.m = s.hart.m) ∧
  ∀ r, s.hart.region = some r → s.hart.trap.vec ≠ 0 → s.hart.trap.cause.toNat.testBit 32 = false →
    ∃ t : State, s.takeTrap code sub n e a = .next t ∧ t.hart.region = none ∧ t.hart.trap.pc = r.begin.setWidth 64 ∧
      t.hart.trap.elem = 0 ∧ t.hart.trap.fpc = s.hart.pc.setWidth 64 ∧ t.hart.v = r.ckpt.v ∧ t.hart.m = r.ckpt.m ∧
      (∀ k, k ≠ r.sd → k ≠ 0 → t.rs k = r.ckpt.s.get k.toFin) ∧ (r.sd ≠ 0 → bits (t.rs r.sd).toNat 7 0 = 5)

/-- R70, R278: the instructions that trap: a word that is no instruction of its agent, and trap n, which a region forbids;
eret resumes at trap.pc with vstart from trap.elem, and traps when no trap is being served. -/
def Obligations.TrapInstructions : Prop :=
  ∀ (s : State) (sub : BitVec 3) (n : BitVec 11),
  exec (.illegalInstruction sub) s = s.takeTrap 1 sub.toNat 0 0 none ∧
  (s.hart.region = none → exec (.trap n) s = s.takeTrap 9 0 n.toNat 0 none) ∧
  (s.hart.region ≠ none → exec (.trap n) s = .next (s.abortRegion s.hart.id 4)) ∧
  (s.hart.region = none → s.hart.trap.cause.toNat.testBit 32 = false → exec .eret s = s.takeTrap 6 2 0 0 none) ∧
  (s.hart.region = none → s.hart.trap.cause.toNat.testBit 32 = true →
    ∃ t : State, exec .eret s = .next t ∧ t.hart.pc = BitVec.ofNat 48 (s.hart.trap.pc.toNat / 2 * 2) ∧
      t.hart.vstart = BitVec.ofNat 11 s.hart.trap.elem.toNat ∧ t.hart.trap.cause.toNat.testBit 32 = false ∧
      Keeps [.pc, .vstart, .trap, .breakpoints] s t)

/-- R109, R110, R115, R180, R278: the instructions that only wait or order accesses go on once what they wait for has come: no
register but the pc changes. A fence.c puts the reads still to come of the hart's stream copies in its first set, or in class 15, before
later accesses in its second set, and in class 15. After fence.i the hart fetches every change of code performed before (R75), and its
line buffer and its core's L1I are empty. That iwait compares unsigned is the model's choice (DESIGN CHOICE, log 55). -/
def Obligations.WaitsAndFences : Prop :=
  ∀ (s : State) (t4 c4 s4 l4 w x y z h l : BitVec 4) (sc ch : BitVec 3) (a : BitVec 5) (n : BitVec 24),
  s.hart.region = none →
  let after := s.hart.pc + 4
  let fences := fun (i : Instr) (B A : Nat) => s.tilesPending = false ∨ B = 0 → s.accessesPending B = false →
    ∃ t : State, exec i s = .next t ∧ t.hart.pc = after ∧ t.hart.fenced = s.hart.fenced ∧
      (∀ c, some c ∈ s.hart.copy.toList →
        (c.kind = 0 → c.got < c.n.toNat → B.testBit c.cls.toNat = true ∨ c.cls = 15 →
          (c.order, BitVec.ofNat 16 (A ||| 2 ^ 15)) ∈ t.hart.gates) ∧
        ∀ g ∈ s.hart.gates, g.1 = c.order → g ∈ t.hart.gates) ∧
      (∀ g ∈ t.hart.gates, g ∈ s.hart.gates ∨ g.2 = BitVec.ofNat 16 (A ||| 2 ^ 15) ∧ ∃ c, some c ∈ s.hart.copy.toList ∧
        c.order = g.1 ∧ c.kind = 0 ∧ c.got < c.n.toNat ∧ (B.testBit c.cls.toNat = true ∨ c.cls = 15)) ∧ Keeps [.pc, .fence] s t
  (s.hart.lost = [] → s.hart.cnt.ld ≤ l4.setWidth 6 → s.hart.cnt.st ≤ s4.setWidth 6 → s.hart.cnt.cp ≤ c4.setWidth 6 →
    s.hart.cnt.tl ≤ t4.setWidth 6 → Goes (.waitc t4 c4 s4 l4) s after) ∧
  fences (.fenceC sc w x y z) (classRange w.toNat x.toNat) (classRange y.toNat z.toNat) ∧
  fences (.fenceCReg sc a) (bits (s.rs a).toNat 15 0) (bits (s.rs a).toNat 31 16) ∧
  (let c := 8 * die s.hart.id + ch.toNat;
    (s.channel c).ctx = some s.hart.ctx →
    (s.rs a).toNat ≤ (Sparse.get (fun _ => 0) (s.channel c).seen (ringPosition s.hart.id)).toNat →
    Goes (.iwait h l ch a) s after) ∧
  (s.transfersPending = false → ∃ t : State, exec .fenceI s = .next t ∧ t.hart.pc = after ∧
    t.hart.fenced = s.pkg.oldCode.length ∧ t.hart.gates = s.hart.gates ∧ t.hart.lineBuffer = [] ∧
    (s.hart.id.control = false → ∀ l, (globalCore s.hart.id, l) ∉ t.pkg.coreCode) ∧ (Untraced s → t.mem = s.mem) ∧
    Keeps (.pc :: .fence :: traceEffects) s t) ∧
  Goes (.hint n) s after ∧
  (privileged s.hart.ctx = true → s.olderPending ((s.rs a).setWidth 12) = false → Goes (.tlbsync a) s after)

/-- R111 to R114: an arrival counts at once: the arrival that reaches the count makes the release of the phase due and
opens the next phase. arrive writes the phase it joined and goes on; bar waits for its phase; bar and bar.w go on once
their phase has been released. -/
def Obligations.Barriers : Prop :=
  ∀ (s : State) (sc : BitVec 3) (i : BitVec 6) (a d : BitVec 5), s.hart.region = none →
  let k := s.barrierKey sc i.toNat
  let b := s.barrier k
  let count := if b.arrived = 0 then max ((s.rs a).toNat % 2 ^ 32) 1 else b.count
  let joined := BitVec.ofNat 32 b.phase
  let arrived := fun (t : State) => if b.arrived + 1 ≥ count then
      t.barrier k = { b with phase := b.phase + 1, count := 0, arrived := 0 } ∧ Due.barrierRelease k ∈ t.agenda
    else t.barrier k = { b with count := count, arrived := b.arrived + 1 }
  (s.foreignBarrier sc i.toNat = false → s.tilesPending = false → s.accessesPending 0xFFFF = false →
    (∃ t : State, exec (.arrive sc i a d) s = .next t ∧ Wrote s t d (joined.setWidth 64) ∧ t.hart.pc = s.hart.pc + 4 ∧
      arrived t ∧ Keeps [.scalars, .integrity, .pc, .barriers, .agenda] s t) ∧
    (s.hart.barWait = none → b.isReleased joined.toNat = false →
      ∃ t : State, exec (.bar sc i a) s = .next t ∧ t.hart.pc = s.hart.pc ∧ t.hart.barWait = some (k, joined) ∧ arrived t ∧
        Keeps [.waits, .barriers, .agenda] s t)) ∧
  (∀ k p, s.hart.barWait = some (k, p) → (s.barrier k).isReleased p.toNat = true →
    ∃ t : State, exec (.bar sc i a) s = .next t ∧ t.hart.pc = s.hart.pc + 4 ∧ t.hart.barWait = none ∧ Keeps [.pc, .waits] s t) ∧
  (s.foreignBarrier sc i.toNat = false → b.isReleased (s.rs a).toNat = true →
    ∃ t : State, exec (.barW sc i a) s = .next t ∧ t.hart.pc = s.hart.pc + 4 ∧ Keeps [.pc, .waits] s t)

/-- R115, R116, R118: ipost raises its channel's value, compared unsigned (the model's choice, log 55); mark and c.mark set the mark register to a valid ordinal; yield
gives its turn away for the stated time. -/
def Obligations.PostMarkYield : Prop :=
  ∀ (s : State) (h l : BitVec 4) (ch : BitVec 3) (a : BitVec 5) (k : BitVec 12) (k' : BitVec 11) (n : BitVec 8), Canonical s →
  let c := 8 * die s.hart.id + ch.toNat
  (s.hart.region = none → (s.channel c).ctx = some s.hart.ctx → s.tilesPending = false →
    s.accessesPending (classRange l.toNat h.toNat) = false →
    ∃ t : State, exec (.ipost h l ch a) s = .next t ∧ t.hart.pc = s.hart.pc + 4 ∧
      (t.channel c).value.toNat = max (s.channel c).value.toNat (s.rs a).toNat ∧
      (∀ c', c' ≠ c → t.channel c' = s.channel c') ∧ Keeps [.pc, .barriers, .agenda] s t) ∧
  (∃ t : State, exec (.mark k) s = .next t ∧ t.hart.pc = s.hart.pc + 4 ∧ t.hart.mark = 1#1 ++ k ∧ (Untraced s → t.mem = s.mem) ∧
    Keeps (.pc :: .mark :: .advice :: .agenda :: traceEffects) s t) ∧
  (∃ t : State, exec (.cMark k') s = .next t ∧ t.hart.pc = s.hart.pc + 2 ∧ t.hart.mark = 1#1 ++ k'.setWidth 12 ∧
    (Untraced s → t.mem = s.mem) ∧ Keeps (.pc :: .mark :: .advice :: .agenda :: traceEffects) s t) ∧
  (s.hart.region = none → ∃ t : State, exec (.yield n) s = .next t ∧ t.hart.pc = s.hart.pc + 4 ∧
    t.hart.yielded.toNat = max n.toNat 1 + 1 ∧ Keeps [.pc, .waits, .scheduling] s t)

/-- R50, R178, R276, R277, R302, R305, R320: getc writes the value of the register, and which value the registers of the hart and of its
context have. An index out of range reads zero: R50 and R178 say so of 0x701, 0x745 and 0x747; that it holds of the breakpoint registers
and of the stall entries too is the model's reading (DEDUCED, log 18). -/
def Obligations.RegisterReads : Prop :=
  ∀ (s : State) (num : BitVec 11) (a d : BitVec 5) (i : Nat), s.hart.region = none →
  (privilegedRegister num.toNat = true → privileged s.hart.ctx = true) →
  Gives (.getc num a d) s 4 d (BitVec.ofNat 64 (s.readReg num.toNat (s.rs a).toNat)) ∧
  s.readReg 0x700 i = 36 ∧ s.readReg 0x710 i = s.hart.idWord ∧ s.readReg 0x711 i = s.hart.ctx.toNat ∧
  s.readReg 0x712 i = (s.ctx s.hart.ctx).gen.toNat ∧ s.readReg 0x713 i = (s.ctx s.hart.ctx).lost.toNat ∧
  s.readReg 0x709 i = s.pkg.gen.toNat ∧ s.readReg 0x7AF i = s.pkg.health.toNat ∧
  s.readReg 0x7A0 i = s.hart.trap.vec.toNat ∧ s.readReg 0x7A1 i = s.hart.trap.pc.toNat ∧
  s.readReg 0x7A2 i = s.hart.trap.elem.toNat ∧ s.readReg 0x7A3 i = s.hart.trap.cause.toNat ∧
  s.readReg 0x7A4 i = s.hart.trap.addr.toNat ∧ s.readReg 0x7A5 i = s.hart.trap.word.toNat ∧
  s.readReg 0x7A6 i = s.hart.trap.fpc.toNat ∧ s.readReg 0x7A7 i = s.hart.trap.tmp0.toNat ∧
  s.readReg 0x7A8 i = s.hart.trap.tmp1.toNat ∧
  (i < 4 → s.readReg 0x7A9 i = (s.hart.bp.getD i 0).toNat) ∧ (4 ≤ i → s.readReg 0x7A9 i = 0) ∧
  (512 ≤ i → s.readReg 0x747 i = 0) ∧ (144 ≤ i → s.readReg 0x701 i = 0 ∧ s.readReg 0x745 i = 0) ∧
  (64 ≤ i → s.readReg 0x7B8 i = 0)

/-- R276, R302, R305: setc writes the trap and breakpoint registers, leaving the bits that read zero at zero, and goes
on. -/
def Obligations.RegisterWrites : Prop :=
  ∀ (s : State) (a j : BitVec 5), Canonical s → s.hart.region = none → s.transfersPending = false →
  let v := s.rs a
  let i := (s.rs j).toNat
  let Sets := fun (num : BitVec 11) (ps : List Part) (P : State → Prop) =>
    ∃ t : State, exec (.setc num a j) s = .next t ∧ t.hart.pc = s.hart.pc + 4 ∧ P t ∧ Keeps (.pc :: ps) s t
  Sets 0x7A0 [.trap] (fun t => t.hart.trap = { s.hart.trap with vec := BitVec.ofNat 64 (bits v.toNat 47 1 * 2) }) ∧
  Sets 0x7A1 [.trap] (fun t => t.hart.trap = { s.hart.trap with pc := v }) ∧
  Sets 0x7A2 [.trap] (fun t => t.hart.trap = { s.hart.trap with elem := BitVec.ofNat 64 (bits v.toNat 10 0) }) ∧
  Sets 0x7A7 [.trap] (fun t => t.hart.trap = { s.hart.trap with tmp0 := v }) ∧
  Sets 0x7A8 [.trap] (fun t => t.hart.trap = { s.hart.trap with tmp1 := v }) ∧
  Sets 0x7A9 [.breakpoints] (fun t => ∀ k, k < 4 →
    t.hart.bp.getD k 0 = if k = i then BitVec.ofNat 64 (bits v.toNat 58 0) else s.hart.bp.getD k 0) ∧
  Sets 0x713 [.contexts] (fun t => (t.ctx s.hart.ctx).lost = (s.ctx s.hart.ctx).lost &&& ~~~v) ∧
  Sets 0x7B0 [.contexts] (fun t => (t.ctx s.hart.ctx).trcBase = BitVec.ofNat 64 (bits v.toNat 47 5 * 32)) ∧
  Sets 0x7BC [.stalls] (fun t => t.hart.stalls = [])

/-- R93, R276, R277, R309: outside regions a context that is not privileged writes no privileged register: setc raises the access fault
with subcode 2, and nothing else happens; a getc of ctx.save does so too (that its read is privileged is the model's reading: DEDUCED,
log 18). The others cannot be read: a getc of one is a reserved field value, an illegal instruction with subcode 2. -/
def Obligations.PrivilegedRegisters : Prop :=
  ∀ (s : State) (num : BitVec 11) (a j d : BitVec 5), s.hart.region = none → privileged s.hart.ctx = false →
  (num.toNat ∈ [0x738, 0x780, 0x781, 0x782, 0x783, 0x784, 0x785, 0x786, 0x788, 0x7AA] →
    exec (.setc num a j) s = s.takeTrap 6 2 0 0 none) ∧
  exec (.getc 0x7AA a d) s = s.takeTrap 6 2 0 0 none ∧
  (num.toNat ∈ [0x738, 0x780, 0x781, 0x782, 0x783, 0x784, 0x785, 0x786, 0x788] →
    Instr.wf (.getc num a d) = false ∧ ∀ control, decode control 0 (encode (.getc num a d)) = .illegalInstruction 2)

/-- R275, R181, R278: tlbinv completes once the hart's earlier accesses are performed, starts a new generation of a live
context's translations, and removes the translations that it names from every buffer, those of other contexts never. ilock completes when no walk for a line that it names waits: it locks, in order, those that translate
and are not locked yet, up to a limit of the quad or of the tenant. iunlock always completes and unlocks the lines that it
names. ilock and iunlock write how many. -/
def Obligations.TranslationAndLocks : Prop :=
  ∀ (s : State) (a b d : BitVec 5) (n : BitVec 10), Canonical s → s.hart.region = none →
  let c := (s.rs b).setWidth 12
  (privileged s.hart.ctx = true → s.transfersPending = false →
    ∃ t : State, exec (.tlbinv a b) s = .next t ∧ t.hart.pc = s.hart.pc + 4 ∧
      (t.ctx c).gen = (s.ctx c).gen + (if (s.ctx c).live then 1 else 0) ∧
      (∀ k ∈ t.pkg.tlb, k ∈ s.pkg.tlb ∧ (k.ctx = c → (s.rs b).getLsbD 12 = false ∧ k.page ≠ (s.rs a).toNat % 2 ^ 48 / 4096)) ∧
      (∀ k ∈ s.pkg.tlb, k.ctx ≠ c → k ∈ t.pkg.tlb) ∧ Keeps [.pc, .contexts, .caches] s t) ∧
  (privileged s.hart.ctx = false → exec (.tlbinv a b) s = s.takeTrap 6 2 0 0 none ∧
    exec (.tlbsync a) s = s.takeTrap 6 2 0 0 none) ∧
  (let lines := lockLines (s.rs a) n
    let u := s.noteWalks (lines.map (128 * ·))
    let q := s.hart.id.quad
    let maps := fun (l : Nat) => match u.walkFor u.hart (128 * l) with
      | .page _ _ => true
      | _ => false
    let open_ := (lines.filter fun l => maps l && !(u.ctx s.hart.ctx).locks.elem (q, l)).map fun l => (q, l)
    (∀ l ∈ lines, s.walkFor s.hart (128 * l) ≠ .wait) →
    ∃ (t : State) (k : Nat), exec (.ilock n a d) s = .next t ∧ k ≤ open_.length ∧
      (t.ctx s.hart.ctx).locks = (u.ctx s.hart.ctx).locks ++ open_.take k ∧
      (k ≠ 0 → (t.ctx s.hart.ctx).locksIn q ≤ (s.tenant (tenantOf s.hart.ctx)).iquota.toNat ∧ t.quadLocks q ≤ 4096) ∧
      (k < open_.length → (s.tenant (tenantOf s.hart.ctx)).iquota.toNat ≤ (t.ctx s.hart.ctx).locksIn q ∨ 4096 ≤ t.quadLocks q) ∧
      Wrote s t d (BitVec.ofNat 64 k) ∧ t.hart.pc = s.hart.pc + 4 ∧ (Untraced s → t.mem = s.mem) ∧
      Keeps (.scalars :: .integrity :: .pc :: accessEffects) s t) ∧
  ∃ t : State, exec (.iunlock n a d) s = .next t ∧ t.hart.pc = s.hart.pc + 4 ∧
    Wrote s t d (BitVec.ofNat 64 ((s.ctx s.hart.ctx).locks.length - (t.ctx s.hart.ctx).locks.length)) ∧
    (∀ l, l ∈ (t.ctx s.hart.ctx).locks ↔ l ∈ (s.ctx s.hart.ctx).locks ∧
      ¬ ∃ k, k < n.toNat ∧ l = (s.hart.id.quad, ((s.rs a).toNat / 128 + k) * 128 % 2 ^ 64 / 128)) ∧
    Keeps [.scalars, .integrity, .pc, .contexts] s t


/-! Vector configuration and vector arithmetic. -/

/-- R88, R106: setvl grants vl and vl.pad from the request, writes vt but for its rounding mode, and writes the granted length
to sd; under tail-dead the rows that vl does not reach return to the row pool (R35; what they then read as is the model's choice, log 46).
A pending split is applied first, to every hart of the core, once each other one that holds a task has executed no setvl yet; until then
the setvl waits. A block longer than MVL traps with nothing changed. -/
def Obligations.SetvlGrants : Prop :=
  ∀ (s : State) (p : BitVec 1) (t b : BitVec 2) (f : BitVec 4) (a d : BitVec 5) (fmt : Fmt),
  Fmt.ofCode f.toNat = some fmt → Canonical s →
  let n := (s.rs a).toNat
  let core := globalCore s.hart.id
  let pending := (s.core core).pending
  let split := pending.getD s.hart.split
  let inCore := fun (k : Hart) => k.id.control = false ∧ globalCore k.id = core
  let ready := ∀ k ∈ s.harts, inCore k → k.active = true → k.id ≠ s.hart.id → k.setvlDone = false
  let mvl := 4 * (32 / 2 ^ split.toNat) * (64 / fmt.sew)
  let B := [0, 32, 64, 128].getD b.toNat 0
  let vl := if B = 0 then min n mvl else if n = 0 then 0 else if n < B then B else min (n - n % B) mvl
  let pad := if B ≠ 0 ∧ n ≠ 0 ∧ n < B then B - n else 0
  (mvl < B → exec (.setvl p t b f a d) s = s.takeTrap 2 0 0 0 none) ∧
  (B ≤ mvl → pending ≠ none → ¬ ready → ∃ u, exec (.setvl p t b f a d) s = .next u ∧ u.hart.wait = some .split ∧ Keeps [.waits] s u) ∧
  (B ≤ mvl → (pending = none ∨ ready) → ∃ u, exec (.setvl p t b f a d) s = .next u ∧ u.hart.vl.toNat = vl ∧ u.hart.vlPad.toNat = pad ∧
    bits u.hart.vt.toNat 3 0 = f.toNat ∧ bits u.hart.vt.toNat 5 4 = b.toNat ∧ bits u.hart.vt.toNat 7 6 = t.toNat ∧
    bits u.hart.vt.toNat 8 8 = p.toNat ∧ bits u.hart.vt.toNat 10 9 = bits s.hart.vt.toNat 10 9 ∧
    Wrote s u d (BitVec.ofNat 64 (vl - pad)) ∧ u.hart.pc = s.hart.pc + 4 ∧ u.hart.setvlDone = true ∧
    (pending = none → u.hart.split = s.hart.split ∧ u.cores = s.cores ∧ u.parked = s.parked) ∧
    (pending ≠ none → u.core core = { s.core core with split := split, pending := none } ∧
      (∀ k, k ≠ core → u.core k = s.core k) ∧ (∀ k ∈ u.harts, inCore k → k.split = split) ∧
      ∀ (i : Nat) (k : Hart), s.parked[i]? = some k → ¬ inCore k → u.parked[i]? = some k) ∧
    RowsReturned s u ∧ Keeps [.scalars, .integrity, .length, .vt, .split, .pc, .vectors, .rows, .free, .cores, .others] s u)

/-- R107, R108: the other forms that read or write vt and sw, none of which changes vl or vl.pad; and strip, which subtracts
the granted length from the count, moves each pointer on by that many elements of its width, grants the rest, and branches
back while a count remains. What returned rows read as is the model's choice (DESIGN CHOICE, log 46). -/
def Obligations.TypeAndStrip : Prop :=
  (∀ (s : State) (a d : BitVec 5),
    let x := (s.rs a).toNat
    Gives (.getvt d) s 4 d (BitVec.ofNat 64 s.hart.vt.toNat) ∧ Gives (.getsw d) s 4 d (BitVec.ofNat 64 s.hart.sw.toNat) ∧
    (∃ t : State, exec (.setsw a d) s = .next t ∧ Wrote s t d (BitVec.ofNat 64 s.hart.sw.toNat) ∧ t.hart.pc = s.hart.pc + 4 ∧
      (∀ k, k < 4 → bits t.hart.sw.toNat (4 * k + 1) (4 * k) = bits x (4 * k + 1) (4 * k) ∧
        bits t.hart.sw.toNat (4 * k + 3) (4 * k + 2) = 0) ∧ Keeps [.scalars, .integrity, .sw, .pc] s t) ∧
    ∃ t : State, exec (.setrm a d) s = .next t ∧ Wrote s t d (BitVec.ofNat 64 (bits s.hart.vt.toNat 10 9)) ∧
      t.hart.pc = s.hart.pc + 4 ∧ bits t.hart.vt.toNat 10 9 = bits x 1 0 ∧
      bits t.hart.vt.toNat 8 0 = bits s.hart.vt.toNat 8 0 ∧ Keeps [.scalars, .integrity, .vt, .pc] s t) ∧
  ∀ (s : State) (o : BitVec 10) (n : BitVec 2) (p c : BitVec 5),
  p.toNat + n.toNat < 32 → ¬ (p ≤ c ∧ c.toNat ≤ p.toNat + n.toNat) →
  let g := s.hart.vl.toNat - s.hart.vlPad.toNat
  let rem := (s.rs c).toNat - g
  let G := grant rem s.hart.blk (s.hart.mvl s.hart.sew)
  ∃ t : State, exec (.strip o n p c) s = .next t ∧ (c ≠ 0 → t.rs c = BitVec.ofNat 64 rem) ∧
    (∀ k, k ≤ n.toNat → p.toNat + k ≠ 0 → t.rs (p + BitVec.ofNat 5 k) =
      s.rs (p + BitVec.ofNat 5 k) + BitVec.ofNat 64 (g * 2 ^ bits s.hart.sw.toNat (4 * k + 1) (4 * k))) ∧
    (∀ r, r ≠ c → ¬ (p ≤ r ∧ r.toNat ≤ p.toNat + n.toNat) → t.rs r = s.rs r) ∧
    t.hart.vl = BitVec.ofNat 11 G.1 ∧ t.hart.vlPad = BitVec.ofNat 7 G.2 ∧
    t.hart.pc = (if rem = 0 then s.hart.pc + 4 else s.hart.pc + BitVec.ofInt 48 (2 * ((o.toNat : Int) - 2 ^ 10))) ∧
    RowsReturned s t ∧ Healed s t (fun r => ∃ k : BitVec 5, r = .s k.toNat ∧ (k = c ∨ p ≤ k ∧ k.toNat ≤ p.toNat + n.toNat))
      (fun _ => True) ∧
    Keeps [.scalars, .integrity, .length, .pc, .vectors, .rows, .free] s t

/-- R137, R226, R232 to R235, R237: the forms of two vector sources, and those with a scalar second operand. The cases of integer
division that R233 tables are stated on their own, for either kind of operand, and so are its examples. -/
def Obligations.VectorResults : Prop :=
  ∀ (s : State) (m : BitVec 4) (x : BitVec 5) (b a d : BitVec 6),
  let w := s.hart.sew
  (∀ f ∈ vectorForms, Elementwise (f.form m b a d) s (accepts f.float s.hart) [⟨a, w⟩, ⟨b, w⟩] d w (s.hart.getM m.toNat)
    fun vs e => f.result s.hart (pick vs 0 w e) (pick vs 1 w e)) ∧
  (∀ (h : Hart) (a : Nat), a < 2 ^ h.sew →
    intDiv h a 0 = 2 ^ h.sew - 1 ∧ intRem h a 0 = a ∧
    intDiv h (2 ^ (h.sew - 1)) (2 ^ h.sew - 1) = 2 ^ (h.sew - 1) ∧ intRem h (2 ^ (h.sew - 1)) (2 ^ h.sew - 1) = 0 ∧
    (h.sew = 8 → ofSigned 8 (satSigned 8 (sg h 100 + sg h 50)) = 127) ∧ (h.sew = 16 → intSra h 0x8000 0x13 = 0xF000)) ∧
  decode false 0 0x00304299 = .vseq 0 3 1 2 ∧
  ∀ f ∈ scalarForms, Elementwise (f.form m x a d) s (accepts f.float s.hart) [⟨a, w⟩] d w (s.hart.getM m.toNat)
    fun vs e => f.result s.hart (pick vs 0 w e) (scalarOperand f.float s x)

/-- R236 to R239: the forms of one vector source, the multiply and accumulate forms, the merges, and the moves from a
scalar register. -/
def Obligations.VectorOtherResults : Prop :=
  ∀ (s : State) (m : BitVec 4) (x : BitVec 5) (b a d : BitVec 6),
  let w := s.hart.sew
  let h := s.hart
  (∀ f ∈ unaryForms, Elementwise (f.form m a d) s (f.any || accepts f.float h) [⟨a, w⟩] d w (h.getM m.toNat)
    fun vs e => f.result h (pick vs 0 w e)) ∧
  (∀ f ∈ accumulateForms, ElementwiseIf (h.cutInside true [⟨a, w⟩, ⟨b, w⟩, ⟨d, w⟩] (h.getM m.toNat) = none) (f.form m b a d) s
    (accepts f.float h) [⟨a, w⟩, ⟨b, w⟩] d w (h.getM m.toNat)
    fun vs e => f.result h (pick vs 0 w e) (pick vs 1 w e) (elem (h.getV d.toNat) w e)) ∧
  (∀ f ∈ [Instr.vmerge, .vfmerge], Elementwise (f m b a d) s true [⟨a, w⟩, ⟨b, w⟩] d w (h.getM 0)
    fun vs e => if (h.getM m.toNat).testBit e then pick vs 1 w e else pick vs 0 w e) ∧
  Elementwise (.vmvs m x d) s true [] d w (h.getM m.toNat) (fun _ _ => scalarOperand false s x) ∧
  Elementwise (.vfmvs m x d) s (accepts true h) [] d w (h.getM m.toNat) (fun _ _ => scalarOperand true s x)

/-- R227, R232, R235, R237, R248, R249: the comparisons, which write mask bits, and the mask operations; mfirst and mpopc
write a scalar register. -/
def Obligations.MaskResults : Prop :=
  ∀ (s : State) (m : BitVec 4) (x : BitVec 5) (b a d : BitVec 6),
  let w := s.hart.sew
  let h := s.hart
  let A := h.getM a.toNat
  let B := h.getM b.toNat
  let hit := fun (e : Nat) => decide (e < h.g) && (h.getM m.toNat).testBit e && A.testBit e
  (∀ f ∈ compareForms, ElementwiseMask (f.form m b a d) s (accepts f.float s.hart) [⟨a, w⟩, ⟨b, w⟩] d.toNat
    (s.hart.getM m.toNat) fun vs e => f.result s.hart (pick vs 0 w e) (pick vs 1 w e)) ∧
  (∀ f ∈ compareScalarForms, ElementwiseMask (f.form m x a d) s (accepts f.float s.hart) [⟨a, w⟩] d.toNat
    (s.hart.getM m.toNat) fun vs e => f.result s.hart (pick vs 0 w e) (scalarOperand f.float s x)) ∧
  ElementwiseMask (.mand b a d) s true [] d.toNat (h.getM 0) (fun _ e => A.testBit e && B.testBit e) ∧
  ElementwiseMask (.mor b a d) s true [] d.toNat (h.getM 0) (fun _ e => A.testBit e || B.testBit e) ∧
  ElementwiseMask (.mxor b a d) s true [] d.toNat (h.getM 0) (fun _ e => A.testBit e != B.testBit e) ∧
  ElementwiseMask (.mandn b a d) s true [] d.toNat (h.getM 0) (fun _ e => A.testBit e && !B.testBit e) ∧
  ElementwiseMask (.mnot m a d) s true [] d.toNat (h.getM m.toNat) (fun _ e => !A.testBit e) ∧
  ElementwiseMask (.msbf m a d) s true [] d.toNat (h.getM m.toNat) (fun _ e => (List.range (e + 1)).all fun k => !hit k) ∧
  ElementwiseMask (.msif m a d) s true [] d.toNat (h.getM m.toNat) (fun _ e => (List.range e).all fun k => !hit k) ∧
  ElementwiseMask (.msof m a d) s true [] d.toNat (h.getM m.toNat)
    (fun _ e => hit e && (List.range e).all fun k => !hit k) ∧
  (∃ t n, exec (.mfirst m a d) s = .next t ∧ Wrote s t (d.setWidth 5) n ∧ VectorDone s t ∧
    ((∀ e, hit e = false) → n = -1) ∧ (∀ e, hit e = true → (∀ k, k < e → hit k = false) → n = BitVec.ofNat 64 e) ∧
    Keeps [.scalars, .integrity, .pc, .vstart] s t) ∧
  ∃ t : State, exec (.mpopc m a d) s = .next t ∧
    Wrote s t (d.setWidth 5) (BitVec.ofNat 64 ((List.range h.g).filter hit).length) ∧ VectorDone s t ∧
    Keeps [.scalars, .integrity, .pc, .vstart] s t

/-- R222, R223, R243: the reductions. An ordered one folds the contributing elements in ascending order onto element 0 of
vd; a tree one joins them by the tree of R223, and the initial value with that. -/
def Obligations.ReductionResults : Prop :=
  ∀ (s : State) (m : BitVec 4) (a d : BitVec 6),
  let h := s.hart
  let M := h.getM m.toNat
  (∀ f ∈ orderedReductions, Reduces (f.form m a d) s (accepts f.float h) a d fun x init =>
    (((List.range h.g).filter fun e => M.testBit e).map x).foldl (f.result h) init) ∧
  ∀ f ∈ [(Instr.vredsumT, false), (.vfredsumT, true)], Reduces (f.1 m a d) s (accepts f.2 h) a d fun x init =>
    match tree (sumOp f.2 h) (fun e => if M.testBit e && decide (e < h.g) then some (x e) else none)
      h.treeHeight 0 with
    | some r => sumOp f.2 h init r
    | none => init

/-- R224, R245: scans, and segmented sums and scans. -/
def Obligations.ScanResults : Prop :=
  ∀ (s : State) (m : BitVec 4) (b a d : BitVec 6),
  let h := s.hart
  let w := h.sew
  let M := h.getM m.toNat
  let inside := fun (lo n : Nat) => (List.range n).filter fun e =>
    decide (lo ≤ e) && M.testBit e && decide (e < h.g)
  let starts := (List.range h.g).filter fun e => decide (e = 0) || (h.getM b.toNat).testBit e
  (∀ f ∈ [(Instr.vscanO, false), (.vfscanO, true)], CrossLane (f.1 m a d) s (accepts f.2 h) [⟨a, w⟩] d M fun vs e =>
    ordered (sumOp f.2 h) ((inside 0 (e + 1)).map (pick vs 0 w))) ∧
  (∀ f ∈ [(Instr.vscanT, false), (.vfscanT, true)], CrossLane (f.1 m a d) s (accepts f.2 h) [⟨a, w⟩] d M fun vs e =>
    (h.treeSum (sumOp f.2 h) M e (pick vs 0 w)).getD 0) ∧
  (∀ f ∈ [(Instr.vsegscan, false), (.vfsegscan, true)], CrossLane (f.1 m b a d) s (accepts f.2 h) [⟨a, w⟩] d M fun vs e =>
    ordered (sumOp f.2 h) ((inside ((starts.filter fun k => decide (k ≤ e)).getLastD 0) (e + 1)).map (pick vs 0 w))) ∧
  ∀ f ∈ [(Instr.vsegsum, false), (.vfsegsum, true)], CrossLane (f.1 m b a d) s (accepts f.2 h) [⟨a, w⟩] d (h.getM 0) fun vs e =>
    if e < starts.length then
      ordered (sumOp f.2 h) ((inside (starts.getD e 0) (starts.getD (e + 1) h.g)).map (pick vs 0 w))
    else 0

/-- R246, R247: permutes, slides and index generation. -/
def Obligations.PermuteResults : Prop :=
  ∀ (s : State) (m : BitVec 4) (x : BitVec 5) (b a d : BitVec 6),
  let h := s.hart
  let w := h.sew
  let g := h.g
  let M := h.getM m.toNat
  let n := min (s.rs x).toNat g
  CrossLane (.vrgather m b a d) s true [⟨a, w⟩, ⟨b, w⟩] d M
    (fun vs e => if pick vs 1 w e < g then pick vs 0 w (pick vs 1 w e) else 0) ∧
  CrossLane (.vzip m b a d) s true [⟨a, w⟩, ⟨b, w⟩] d M (fun vs e => pick vs (e % 2) w (e / 2)) ∧
  CrossLane (.vunzip m b a d) s true [⟨a, w⟩, ⟨b, w⟩] d M
    (fun vs e => if 2 * e < g then pick vs 0 w (2 * e) else pick vs 1 w (2 * e - g)) ∧
  CrossLane (.vslideup m x a d) s true [⟨a, w⟩] d (M ||| (2 ^ n - 1))
    (fun vs e => if e < n then elem (h.getV d.toNat) w e else pick vs 0 w (e - n)) ∧
  CrossLane (.vslidedown m x a d) s true [⟨a, w⟩] d M (fun vs e => if e + n < g then pick vs 0 w (e + n) else 0) ∧
  (∀ f ∈ [(Instr.vslide1up, false), (.vfslide1up, true)], CrossLane (f.1 m x a d) s (!f.2 || accepts true h) [⟨a, w⟩] d M
    fun vs e => if e = 0 then scalarOperand f.2 s x else pick vs 0 w (e - 1)) ∧
  (∀ f ∈ [(Instr.vslide1down, false), (.vfslide1down, true)], CrossLane (f.1 m x a d) s (!f.2 || accepts true h) [⟨a, w⟩] d M
    fun vs e => if e + 1 = g then scalarOperand f.2 s x else pick vs 0 w (e + 1)) ∧
  CrossLane (.viota m a d) s (accepts false h) [] d M
    (fun _ e => ((List.range e).filter fun k => M.testBit k && (h.getM a.toNat).testBit k).length) ∧
  CrossLane (.vid m x d) s (accepts false h) [] d M (fun _ e => e + scalarOperand false s x) ∧
  (s.hold [⟨a, w⟩] (some ⟨d, w⟩) = none → d.toNat < 48 → h.anyBad [⟨a, w⟩] = none →
    let selected := (List.range g).filter fun e => M.testBit e
    ∃ t : State, exec (.vcompress m a d) s = .next t ∧ VectorDone s t ∧ (∀ k, k ≠ d.toNat → t.hart.getV k = s.hart.getV k) ∧
      (∀ e, h.vstart.toNat ≤ e → e < h.mvl w → elem (t.hart.getV d.toNat) w e =
          pick (h.sourceValues [⟨a, w⟩]) 0 w (selected.getD e 0) ∧ e < selected.length ∨
        selected.length ≤ e ∧ TailElement h (elem (h.getV d.toNat) w e) (elem (t.hart.getV d.toNat) w e)) ∧
      Healed s t (fun r => ∃ k, r = .v d.toNat k) (· = d.toNat) ∧ Keeps (.vectors :: vectorEffects) s t)

/-- R217, R240 to R242: conversions and FP8 quantisation by blocks. A vquant that resumes on a stream takes the scales of the blocks that
it had begun from v[vd + 1], where its stop has left them: the model's choice (DESIGN CHOICE, log 35), since a stream does not give those
elements again. -/
def Obligations.ConvertResults : Prop :=
  ∀ (s : State) (src m : BitVec 4) (a d : BitVec 6) (f : Fmt), Fmt.ofCode src.toNat = some f →
  let h := s.hart
  let M := h.getM m.toNat
  Elementwise (.vcvt src m a d) s (decide (h.vl.toNat ≤ h.mvl f.sew)) [⟨a, f.sew⟩] d h.sew M
    (fun vs e => convert h.rnd f h.fmt (pick vs 0 f.sew e)) ∧
  ElementwiseIf (h.cutInside true [⟨a, 8⟩] M = none ∧ ∀ e ∈ h.activeFrom M, h.badIn ⟨a + 1, 32⟩ 0 (e / h.blk) = none)
    (.vdequant m a d) s s.quantFmt [⟨a, 8⟩, ⟨a + 1, 32⟩] d 32 M
    (fun vs e => (Machine.Num.mul (.decode h.fmt (pick vs 0 8 e)) (.decode .f32 (pick vs 1 32 (e / h.blk)))).round .f32 h.rnd) ∧
  (s.quantFmt = true → s.hold [⟨a, 32⟩] (some ⟨d, 8⟩) = none → d.toNat < 47 → h.isEmpty (d + 1) = false →
    h.vl.toNat % h.blk = 0 →
    h.cutInside true [⟨a, 32⟩] M = none →
    let taken := fun (b : Nat) => isStream a && decide (h.blk * b < h.vstart.toNat)
    (taken (h.vstart.toNat / h.blk) = true → RegSlot.v (d.toNat + 1) (h.vstart.toNat / h.blk / 2) ∉ h.parity) →
    let value := fun (e : Nat) => Machine.Num.decode .f32 (pick (h.sourceValues [⟨a, 32⟩]) 0 32 e)
    let scale := fun (b : Nat) => if taken b = true then elem (h.getV (d.toNat + 1)) 32 b else blockScale h.fmt
      (((List.range h.blk).map fun k => h.blk * b + k).filterMap fun e => if M.testBit e && decide (e < h.g) then some (value e) else none)
    ∃ t : State, exec (.vquant m a d) s = .next t ∧ VectorDone s t ∧
      (∀ e, e < h.mvl 8 → DestElement h (M.testBit e) e (elem (h.getV d.toNat) 8 e)
        ((Machine.Num.div (value e) (.decode .f32 (scale (e / h.blk)))).round h.fmt .rne % 2 ^ 8) (elem (t.hart.getV d.toNat) 8 e)) ∧
      (∀ b, b < h.vl.toNat / h.blk → elem (t.hart.getV (d.toNat + 1)) 32 b = scale b % 2 ^ 32) ∧
      (∀ n, n ≠ d.toNat → n ≠ d.toNat + 1 → t.hart.getV n = h.getV n) ∧
      Healed s t (fun r => ∃ n k, r = .v n k ∧ (n = d.toNat ∨ n = d.toNat + 1)) (fun n => n = d.toNat ∨ n = d.toNat + 1) ∧
      Keeps (.vectors :: vectorEffects) s t)

/-- R138, R155, R226: a form with a stream as its destination pushes one element for each element from 0 to g, zero where it is
inactive, as far as the copy has room: those of two vector sources, with a scalar second operand, of one source, the conversions, merges
and moves, and the loads. -/
def Obligations.StreamDestinations : Prop :=
  ∀ (s : State) (src m : BitVec 4) (m3 : BitVec 3) (c : BitVec 4) (x y : BitVec 5) (b a d : BitVec 6), Canonical s →
  let h := s.hart
  let w := h.sew
  let M := h.getM m.toNat
  let M3 := h.getM m3.toNat
  let index : List Source := [⟨a, w⟩]
  (∀ f ∈ vectorForms, Pushes (f.form m b a d) s (accepts f.float h) [⟨a, w⟩, ⟨b, w⟩] d w M
    fun vs e => f.result h (pick vs 0 w e) (pick vs 1 w e)) ∧
  (∀ f ∈ scalarForms, Pushes (f.form m x a d) s (accepts f.float h) [⟨a, w⟩] d w M
    fun vs e => f.result h (pick vs 0 w e) (scalarOperand f.float s x)) ∧
  (∀ f ∈ unaryForms, Pushes (f.form m a d) s (f.any || accepts f.float h) [⟨a, w⟩] d w M fun vs e => f.result h (pick vs 0 w e)) ∧
  (∀ f ∈ [Instr.vmerge, .vfmerge], Pushes (f m b a d) s true [⟨a, w⟩, ⟨b, w⟩] d w (h.getM 0)
    fun vs e => if M.testBit e then pick vs 1 w e else pick vs 0 w e) ∧
  Pushes (.vmvs m x d) s true [] d w M (fun _ _ => scalarOperand false s x) ∧
  Pushes (.vfmvs m x d) s (accepts true h) [] d w M (fun _ _ => scalarOperand true s x) ∧
  (∀ f, Fmt.ofCode src.toNat = some f → Pushes (.vcvt src m a d) s (decide (h.vl.toNat ≤ h.mvl f.sew)) [⟨a, f.sew⟩] d w M
    fun vs e => convert h.rnd f h.fmt (pick vs 0 f.sew e)) ∧
  PushesLoad (.vld c m3 y d) s false [] d M3 (unitAddress s y) ∧
  PushesLoad (.vldff c m3 y d) s false [] d M3 (unitAddress s y) ∧
  PushesLoad (.vlds c m3 x y d) s false [] d M3 (strideAddress s y x) ∧
  (s.gatherDead = false → PushesLoad (.vgather c m3 a y d) s false index d M3 (indexAddress s y index 0)) ∧
  PushesLoad (.lsld m3 y d) s true [] d M3 (unitAddress s y) ∧
  PushesLoad (.lslds m3 x y d) s true [] d M3 (strideAddress s y x) ∧
  PushesLoad (.lsgather m3 a y d) s true index d M3 (indexAddress s y index 0)

/-- R225: an integer form under a floating format, and a floating form under a format that it does not accept, raise the
vector-configuration trap, and nothing is written: arithmetic of two vector sources, with a scalar, of one source and fused; comparisons,
reductions, scans and segmented forms; viota and vid, vfmvs and the floating slides. So do vquant and vdequant under a format, a block
length or a length that they do not take, and vcvt where a register does not hold its source (R240, R241). -/
def Obligations.FormatTraps : Prop :=
  ∀ (s : State) (src m : BitVec 4) (x : BitVec 5) (b a d : BitVec 6),
  let h := s.hart
  let traps := fun (i : Instr) => exec i s = s.takeTrap 2 0 0 0 none
  (∀ f ∈ vectorForms, accepts f.float h = false → traps (f.form m b a d)) ∧
  (∀ f ∈ scalarForms, accepts f.float h = false → traps (f.form m x a d)) ∧
  (∀ f ∈ compareForms, accepts f.float h = false → traps (f.form m b a d)) ∧
  (∀ f ∈ compareScalarForms, accepts f.float h = false → traps (f.form m x a d)) ∧
  (∀ f ∈ unaryForms, f.any = false → accepts f.float h = false → traps (f.form m a d)) ∧
  (∀ f ∈ accumulateForms, accepts f.float h = false → traps (f.form m b a d)) ∧
  (∀ f ∈ orderedReductions, accepts f.float h = false → traps (f.form m a d)) ∧
  (∀ f ∈ [(Instr.vredsumT m a d, false), (.vfredsumT m a d, true), (.vscanO m a d, false), (.vscanT m a d, false),
      (.vfscanO m a d, true), (.vfscanT m a d, true), (.vsegsum m b a d, false), (.vsegscan m b a d, false), (.vfsegsum m b a d, true),
      (.vfsegscan m b a d, true), (.viota m a d, false), (.vid m x d, false), (.vfmvs m x d, true), (.vfslide1up m x a d, true),
      (.vfslide1down m x a d, true)], accepts f.2 h = false → traps f.1) ∧
  (¬ (h.fmt ∈ [Fmt.e4m3, .e5m2] ∧ h.blk ≠ 0 ∧ h.vl.toNat ≤ h.mvl 32) → traps (.vquant m a d) ∧ traps (.vdequant m a d)) ∧
  ∀ f, Fmt.ofCode src.toNat = some f → h.mvl f.sew < h.vl.toNat → traps (.vcvt src m a d)

/-! Vector memory. -/

/-- R137, R139, R143, R145, R150: the vector loads, from memory and from the local store. vldff loads every element as vld
where none fails, and trims the length at a later element that fails to translate or is not permitted, by whole blocks; where the
first active element fails, where the one that fails lies in the first block, and for any other cause, it does as vld does. Under
tail-dead the rows that the length then does not reach return to the row pool (R35; what they then read as is the model's choice, log 46).
A gather that a dead engine would perform traps with code 8 (R316; that it does so at issue is the model's choice, log 48). -/
def Obligations.VectorLoads : Prop :=
  ∀ (s : State) (c : BitVec 4) (m : BitVec 3) (x b : BitVec 5) (v d : BitVec 6), Canonical s →
  let h := s.hart
  let w := h.sew
  let M := h.getM m.toNat
  let index : List Source := [⟨v, w⟩]
  (∀ i ∈ [Instr.vld c m b d, .vldff c m b d], VectorLoad i s false [] d M (unitAddress s b)) ∧
  VectorLoad (.vlds c m x b d) s false [] d M (strideAddress s b x) ∧
  (s.gatherDead = false → VectorLoad (.vgather c m v b d) s false index d M (indexAddress s b index 0)) ∧
  (s.gatherDead = true → exec (.vgather c m v b d) s = s.takeTrap 8 4 0 0 none) ∧
  VectorLoad (.lsld m b d) s true [] d M (unitAddress s b) ∧
  VectorLoad (.lslds m x b d) s true [] d M (strideAddress s b x) ∧
  VectorLoad (.lsgather m v b d) s true index d M (indexAddress s b index 0) ∧
  (∀ (place : Nat → List Piece) (f at_ : Nat) (code sub : Byte), isStream d = true ∨ h.breakInside (h.activeCount M) = none →
    f ∈ h.activeFrom M → Reaches s false .load h.fmt.esz (unitAddress s b) ((h.activeFrom M).filter fun e => decide (e < f)) place →
    s.checkElement false .load (unitAddress s b f) h.fmt.esz = .error (.trap code sub at_) →
    (code ≠ 5 ∧ code ≠ 6) ∨ (∀ e ∈ h.activeFrom M, f ≤ e) ∨ f < h.blk →
    exec (.vldff c m b d) s = exec (.vld c m b d) s) ∧
  ∀ (place : Nat → List Piece) (f first at_ : Nat) (code sub : Byte), h.region = none → s.full .ld = false →
    s.hold [] (some ⟨d, w⟩) = none → isStream d = false → h.breakInside (h.activeCount M) = none →
    f ∈ h.activeFrom M → first ∈ h.activeFrom M → first < f →
    Reaches s false .load h.fmt.esz (unitAddress s b) ((h.activeFrom M).filter fun e => decide (e < f)) place →
    s.checkElement false .load (unitAddress s b f) h.fmt.esz = .error (.trap code sub at_) → code = 5 ∨ code = 6 →
    (h.blk = 0 ∨ h.blk ≤ f) →
    (∀ va ∈ rangePages ((h.activeFrom M).map fun e => (unitAddress s b e, h.fmt.esz)), s.walkHeld h va = false ∧
      (inWindow va = true ∨ s.walkFor h va ≠ .wait)) →
    let G := if h.blk = 0 then f else f - f % h.blk
    ∃ t : State, exec (.vldff c m b d) s = .next t ∧ t.hart.vl = BitVec.ofNat 11 G ∧ t.hart.vlPad = 0 ∧
      (∀ e, e < G → DestElement h (M.testBit e) e (elem (h.getV d.toNat) w e) (s.peek (place e) % 2 ^ w)
        (elem (t.hart.getV d.toNat) w e)) ∧
      (∀ e, f ≤ e → h.vstart.toNat ≤ e → e < h.mvl w →
        TailElement h (elem (h.getV d.toNat) w e) (elem (t.hart.getV d.toNat) w e)) ∧
      (h.tailPolicy ≠ 1 → ∀ n, n ≠ d.toNat → t.hart.getV n = h.getV n) ∧
      (∀ n k, n ≠ d.toNat → k < 4 * h.lanes → elem (t.hart.getV n) 64 k = elem (h.getV n) 64 k ∨
        elem (t.hart.getV n) 64 k = 0 ∧ G ≤ k / h.lanes * (h.lanes * (64 / w))) ∧
      Healed s t (fun r => ∃ k, r = .v d.toNat k) (fun _ => True) ∧ VectorDone s t ∧ Counted s t .ld ∧ StoredNothing s t ∧
      Keeps (.vectors :: .length :: vectorEffects ++ accessEffects) s t

/-- R139, R143, R144, R150, R316: the vector stores, to memory and to the local store. A scatter given to a dead gather engine traps with
code 8, subcode 4: that it does so at issue is the model's reading (DEDUCED, log 48). -/
def Obligations.VectorStores : Prop :=
  ∀ (s : State) (c : BitVec 4) (m : BitVec 3) (x b : BitVec 5) (k v : BitVec 6), Canonical s →
  let w := s.hart.sew
  let M := s.hart.getM m.toNat
  let index : List Source := [⟨k, w⟩]
  let address := indexAddress s b (⟨v, w⟩ :: index) 1
  VectorStore (.vst c m b v) s false v [] M (unitAddress s b) ∧
  VectorStore (.vsts c m x b v) s false v [] M (strideAddress s b x) ∧
  (s.gatherDead = false → VectorStore (.vscatter c m k b v) s false v index M address) ∧
  (s.gatherDead = true → exec (.vscatter c m k b v) s = s.takeTrap 8 4 0 0 none) ∧
  VectorStore (.lsst m b v) s true v [] M (unitAddress s b) ∧
  VectorStore (.lssts m x b v) s true v [] M (strideAddress s b x) ∧
  VectorStore (.lsscatter m k b v) s true v index M address

/-- R150: the pair forms move chunks of 8 bytes of a register and 8 bytes of the next one, their active elements only. -/
def Obligations.PairForms : Prop :=
  ∀ (s : State) (m : BitVec 3) (x b : BitVec 5) (d : BitVec 6), Canonical s → s.hart.region = none → d.toNat < 47 →
  let h := s.hart
  let w := h.sew
  let M := h.getM m.toNat
  let p := 8 / h.fmt.esz
  let chunks := h.activeChunks M
  h.breakInside (h.activeCount M) = none →
  (∀ place, s.full .ld = false → s.hold [] (some ⟨d, w⟩) = none → s.hold [] (some ⟨d + 1, w⟩) = none →
    Reaches s true .load 16 (strideAddress s b x) chunks place →
    ∃ t : State, exec (.lsldq m x b d) s = .next t ∧
      (∀ e, e < h.mvl w →
        DestElement h (M.testBit e) e (elem (h.getV d.toNat) w e) (elem (s.peek (place (e / p))) w (e % p))
          (elem (t.hart.getV d.toNat) w e) ∧
        DestElement h (M.testBit e) e (elem (h.getV (d.toNat + 1)) w e) (elem (s.peek (place (e / p))) w (p + e % p))
          (elem (t.hart.getV (d.toNat + 1)) w e)) ∧
      (∀ n, n ≠ d.toNat → n ≠ d.toNat + 1 → t.hart.getV n = h.getV n) ∧
      Healed s t (fun r => ∃ n k, r = .v n k ∧ (n = d.toNat ∨ n = d.toNat + 1)) (fun n => n = d.toNat ∨ n = d.toNat + 1) ∧
      VectorDone s t ∧ Issued s t .ld ∧
      Keeps (.vectors :: vectorEffects) s t) ∧
  ∀ key : Nat → Nat, s.full .st = false → s.hold [⟨d, w⟩, ⟨d + 1, w⟩] none = none →
    h.firstBad [⟨d, w⟩, ⟨d + 1, w⟩] M = none →
    Reaches s true .store 16 (strideAddress s b x) chunks
      (fun c => [⟨strideAddress s b x c, .store (key c), 16, 0⟩]) →
    let moved := fun (c k : Nat) (r e : Nat) => (([⟨0, .store (key c + k * h.fmt.esz), h.fmt.esz, 0⟩] : List Piece), elem r w e)
    ∃ t : State, exec (.lsstq m x b d) s = .next t ∧
      StoredInOrder s t (chunks.flatMap fun c => (List.range p).flatMap fun k =>
        let e := c * p + k
        if decide (h.vstart.toNat ≤ e) && decide (e < h.g) && M.testBit e then
          [moved c k (h.getV d.toNat) e, moved c (p + k) (h.getV (d.toNat + 1)) e]
        else []) ∧
      VectorDone s t ∧ Issued s t .st ∧ t.pkg.poison = s.pkg.poison ∧
      Keeps (.localStore :: .reservation :: .others :: .poison :: vectorEffects) s t

/-- R146: an atomic scatter combines the values of the active elements at each address in ascending order, and what memory
holds there with them, and writes nothing else. A format that the operation does not take traps. -/
def Obligations.AtomicScatters : Prop :=
  ∀ f ∈ scatterForms, ∀ (s : State) (m : BitVec 3) (b : BitVec 5) (k v : BitVec 6), Canonical s → s.hart.region = none →
  let h := s.hart
  let w := h.sew
  let M := h.getM m.toNat
  let srcs : List Source := [⟨v, w⟩, ⟨k, w⟩]
  let vs := h.sourceValues srcs
  let address := indexAddress s b srcs 1
  let es := h.activeFrom M
  (¬ scatterFormat f.2.1 h.fmt → exec (f.1 m k b v) s = s.takeTrap 2 0 0 0 none) ∧
  ∀ place, scatterFormat f.2.1 h.fmt → s.full .st = false → s.hold srcs none = none →
    h.cutInside true srcs M = none → Reaches s false .update h.fmt.esz address es place →
    ∃ t : State, exec (f.1 m k b v) s = .next t ∧ VectorDone s t ∧ Counted s t .st ∧
      (Untraced s → ∀ a, (∀ e ∈ es, ¬ covers (place e) a) → t.mem.byte a = s.mem.byte a) ∧
      (Untraced s → ∀ e ∈ es, (∀ j ∈ es, address j ≠ address e → Apart (place j) (place e)) →
        t.peek (place e) = f.2.2 h (s.peek (place e))
          (ordered (f.2.2 h) ((es.filter fun j => decide (address j = address e)).map (pick vs 0 w)))) ∧
      Keeps (vectorEffects ++ accessEffects) s t

/-- R135, R147 to R149, R203: damo.add sends its contributions, those of one address combined, and one close token to the
ordered-reduction unit, and counts in st until they are accepted. A contribution enters its window at its slice, unless the overflow
entries that it needs are all in use, or others wait for them before it; it waits for an engine that owns its line and for a flip. A
token behind contributions of its own damo.add waits for them; at each other slice it counts, and the one that makes the window's count
closes it: each address that the window touched gets the sum of R148, and no other byte changes. (Where issuers give one address different
formats the sum is the model's choice, log 44: no clause is about it.) -/
def Obligations.OrderedScatters : Prop :=
  (∀ (s : State) (m : BitVec 3) (b : BitVec 5) (k v : BitVec 6) (place : Nat → Nat), Canonical s → s.hart.region = none →
    let h := s.hart
    let w := h.sew
    let srcs : List Source := [⟨v, w⟩, ⟨k, w⟩]
    let vs := h.sourceValues srcs
    let address := indexAddress s b srcs 1
    let es := h.activeFrom (h.getM m.toNat)
    let desc := (s.rs (b + 1)).toNat
    (bits desc 31 16 ≤ bits desc 15 0 → exec (.damoAdd m k b v) s = s.takeTrap 2 0 0 0 none) ∧
    (scatterFormat true h.fmt → bits desc 15 0 < bits desc 31 16 → s.full .st = false → s.hold srcs none = none →
      h.firstBad srcs (h.getM m.toNat) = none → Reaches s false .contribute h.fmt.esz address es (fun e => [⟨address e, .mem (place e), h.fmt.esz, 0⟩]) →
      ∃ t sent, exec (.damoAdd m k b v) s = .next t ∧ VectorDone s t ∧ t.hart.cnt.st = h.cnt.st + 1 ∧
        t.oruIn = s.oruIn ++ sent ∧
        (∀ q ∈ sent, q.sender = h.id ∧ q.ctx = h.ctx ∧ q.win.toNat = bits desc 47 32 ∧
          (q.token = none → q.slices = [oruSlice (desc.testBit 48) (die h.id) q.line]) ∧
          (q.token.isSome → q.slices = if desc.testBit 48 then List.range 512 else (List.range 128).map (128 * die h.id + ·)) ∧
          q.op ∈ t.hart.sent ∧ .oruAccept q.id ∈ t.agenda) ∧
        (sent.getLast?.map (·.token) = some (some (bits desc 31 16)) ∧
          (sent.filter fun q => q.token.isSome).length = 1) ∧
        (∀ e ∈ es, ∃ q ∈ sent, ∃ c ∈ q.contribs, c.issuer = bits desc 15 0 ∧
          c.value = ordered (addIn h.fmt .rne) ((es.filter fun j => decide (address j = address e)).map (pick vs 0 w)) ∧
          ∃ j ∈ es, address j = address e ∧ c.addr = place j) ∧
        StoredNothing s t ∧ Keeps (.reductions :: vectorEffects ++ accessEffects) s t)) ∧
  ∀ (s : State) (n : Nat) (q : OruMsg), Canonical s → s.oruIn.find? (fun x => decide (x.id = n)) = some q →
    let window := fun (k : Nat) => (s.windowOf q k).getD ⟨k, q.ctx, q.win, none, 0, []⟩
    let counted := fun (t : State) (num k : Nat) => Sparse.wf (fun _ => 0) (s.ctx q.ctx).ctr = true →
      t.counter q.ctx num 0 = s.counter q.ctx num 0 + BitVec.ofNat 64 k
    (q.token = none →
      (s.engineOwned q.line = true ∨ s.flipping (64 * q.line) = true → exec (.oruAccept n) s = .next (s.due (.oruAccept n))) ∧
      (s.engineOwned q.line = false → s.flipping (64 * q.line) = false →
        let x := window q.slice
        let extra := q.overflows (s.windowOf q q.slice)
        (extra = true → 2048 ≤ s.overflowUsed q.slice ∨ s.waitsBehind q = true →
          ∃ t : State, exec (.oruAccept n) s = .next t ∧ .oruAccept n ∈ t.agenda ∧ t.windows = s.windows ∧
            (∃ k ∈ t.oruIn, k.id = n ∧ k.waited ≠ none ∧ k.contribs = q.contribs) ∧ counted t 0x759 (if q.waited = none then 1 else 0) ∧
            Keeps [.reductions, .agenda, .contexts, .free] s t) ∧
        (extra = false ∨ s.overflowUsed q.slice < 2048 ∧ s.waitsBehind q = false → (∀ N, x.parts = some N → x.tokens < N) →
          ∃ t : State, exec (.oruAccept n) s = .next t ∧ t.oruIn = s.oruIn.filter (fun x => decide (x.id ≠ n)) ∧
            { x with contribs := x.contribs ++ q.contribs.map fun c => { c with stamp := s.free } } ∈ t.windows ∧
            StoredNothing s t ∧ counted t 0x758 (if extra then 1 else 0) ∧ Keeps (.reductions :: deviceEffects) s t))) ∧
    ∀ N₀, q.token = some N₀ →
      (s.tokenBehind q ≠ [] → ∃ t : State, exec (.oruAccept n) s = .next t ∧ { q with slices := s.tokenBehind q } ∈ t.oruIn ∧
        .oruAccept n ∈ t.agenda ∧ ∀ k ∈ s.tokenBehind q, ∀ w, w.slice = k → (w ∈ t.windows ↔ w ∈ s.windows)) ∧
      (s.tokenBehind q = [] → q.slices.Nodup →
        let parts := fun (k : Nat) => (window k).parts.getD N₀
        let closing := fun (c : Contribution) => ∃ k ∈ q.slices, parts k ≤ (window k).tokens + 1 ∧ c ∈ (window k).contribs
        ∃ t : State, exec (.oruAccept n) s = .next t ∧ t.oruIn = s.oruIn.filter (fun x => decide (x.id ≠ n)) ∧
          (∀ k ∈ q.slices, (window k).tokens + 1 < parts k →
            { window k with parts := some (parts k), tokens := (window k).tokens + 1 } ∈ t.windows) ∧
          (∀ k ∈ q.slices, parts k ≤ (window k).tokens + 1 → ∀ y ∈ t.windows, y.is q k = false) ∧
          (Untraced s → ∀ a, (∀ c, closing c → ¬ Sums c a) → t.mem.byte a = s.mem.byte a) ∧
          (Untraced s → ∀ k ∈ q.slices, parts k ≤ (window k).tokens + 1 → ∀ a fmt cs,
            cs.Perm ((window k).contribs.filter fun c => decide (c.addr = a)) → cs ≠ [] → (∀ c ∈ cs, c.fmt = fmt) →
            cs.Pairwise (fun c e => c.issuer < e.issuer) →
            (∀ k' ∈ q.slices, parts k' ≤ (window k').tokens + 1 → ∀ c ∈ (window k').contribs, k' ≠ k ∨ c.addr ≠ a →
              ∀ j, j < (fmtOf fmt).esz → ¬ Sums c (a + j)) →
            ∀ j, j < (fmtOf fmt).esz → t.mem.byte (a + j) = BitVec.ofNat 8 (windowSum (fmtOf fmt) (s.mem.read a (fmtOf fmt).esz)
              (cs.map fun c => c.value % 2 ^ (fmtOf fmt).sew) / 2 ^ (8 * j))) ∧
          t.lstore = s.lstore ∧ Keeps (.reductions :: deviceEffects) s t)

/-! Copies, collectives and launches. -/

/-- R152, R153: copy.cfg reads its descriptor and issues the copy: the handle is filling, the stream of a streaming copy is
bound, and cp rises; a copy of no elements changes nothing. A descriptor that is not valid, a handle in use or a bound stream
traps, and so does a misaligned address. A copy given to a dead engine is lost: its handle stays free (R188, R316; log 48). -/
def Obligations.CopyIssues : Prop :=
  ∀ (s : State) (cls : BitVec 4) (q : BitVec 3) (i a : BitVec 5) (ps : List Piece) (ls ld : List (Nat × Nat)),
  Canonical s → s.hart.region = none →
  let h := s.hart
  let va := (s.rs a).toNat
  let x := s.peek ps
  let c := Copy.ofWords (bits x 63 0) (bits x 127 64) (bits x 191 128) (bits x 255 192) cls
  let streams := c.kind = 0 ∨ c.kind = 1
  (va % 32 ≠ 0 → exec (.copyCfg cls q i a) s = s.takeTrap 4 0 0 0 (some va)) ∧
  (va % 32 = 0 → s.pieces h false .load va 32 = .ok ps →
    (c.valid (bits x 63 0) = false ∨ h.h.get i.toFin ≠ .free ∨ streams ∧ h.q.get q.toFin ≠ none →
      exec (.copyCfg cls q i a) s = (s.noteReads 0 ps).takeTrap 2 0 0 0 none) ∧
    (c.valid (bits x 63 0) = true → h.h.get i.toFin = .free → (streams → h.q.get q.toFin = none) →
      s.translateAll h .load c.sources = .ok ls → s.translateAll h .store c.destinations = .ok ld →
      (∀ r ∈ ld, s.owned (r.2 / 64) = false ∧ s.flipping (64 * (r.2 / 64)) = false) →
      (c.kind = 3 → s.feeds c.slot.toNat = true) → s.full .cp = false →
      ∃ t : State, exec (.copyCfg cls q i a) s = .next t ∧ t.hart.pc = h.pc + 4 ∧ StoredNothing s t ∧
        (c.n = 0 → Keeps (.pc :: accessEffects) s t) ∧
        (c.n ≠ 0 → s.copyEngineDead = true → t.hart.h.get i.toFin = .free ∧ i.toNat ∈ t.hart.lost ∧
          Keeps (.pc :: .copies :: accessEffects) s t) ∧
        (c.n ≠ 0 → s.copyEngineDead = false → t.hart.h.get i.toFin = .filling ∧ t.hart.cnt = h.cnt.add .cp 1 ∧
          (∃ k, t.hart.copyOf i = some k ∧ k.kind.toNat = bits x 2 0 ∧ k.fmt.toNat = bits x 7 4 ∧ k.slot.toNat = bits x 12 8 ∧
            k.dstride.toNat = bits x 63 32 ∧ k.src.toNat = bits x 127 64 ∧ k.dst.toNat = bits x 191 128 ∧
            k.n.toNat = bits x 223 192 ∧ k.sstride.toNat = bits x 255 224 ∧ k.cls = cls ∧ k.got = 0 ∧ k.pos = 0 ∧
            k.data = [] ∧ ∀ r ∈ ld, r.2 / 64 ∈ k.lines) ∧
          (streams → t.hart.q.get q.toFin = some i) ∧ (∀ r, r ≠ q ∨ ¬ streams → t.hart.q.get r.toFin = h.q.get r.toFin) ∧
          (∀ r, r ≠ i → t.hart.copyOf r = h.copyOf r ∧ t.hart.h.get r.toFin = h.h.get r.toFin) ∧
          Keeps (.pc :: .copies :: .counters :: accessEffects) s t)))

/-- R154, R156, R157, R316: binding a stream of a copy in use and unbinding it, waiting for a handle, releasing it, and reading its
state. qbind to a handle whose stream is not in use, or of a register that another handle holds, traps. hrel writes no memory. An
hwait for a copy that was lost to a dead engine traps, once (R316; log 48). -/
def Obligations.HandleForms : Prop :=
  ∀ (s : State) (q : BitVec 3) (i d : BitVec 5) (sc : BitVec 3), s.hart.region = none →
  let h := s.hart
  let after := h.pc + 4
  (h.streamInUse i = true → (h.q.get q.toFin = none ∨ h.q.get q.toFin = some i) →
    ∃ t : State, exec (.qbind q i) s = .next t ∧ t.hart.pc = after ∧ t.hart.q.get q.toFin = some i ∧
      (∀ r, r ≠ q → t.hart.q.get r.toFin = if h.q.get r.toFin = some i then none else h.q.get r.toFin) ∧
      t.hart.copy = h.copy ∧ t.hart.h = h.h ∧ Keeps [.pc, .copies] s t) ∧
  (h.streamInUse i = false → exec (.qbind q i) s = s.takeTrap 3 3 0 0 none) ∧
  (∀ k, h.q.get q.toFin = some k → k ≠ i → exec (.qbind q i) s = s.takeTrap 3 3 0 0 none) ∧
  (∃ t : State, exec (.qunbind q) s = .next t ∧ t.hart.pc = after ∧ t.hart.q.get q.toFin = none ∧
    (∀ r, r ≠ q → t.hart.q.get r.toFin = h.q.get r.toFin) ∧ t.hart.copy = h.copy ∧ t.hart.h = h.h ∧
    Keeps [.pc, .copies] s t) ∧
  (h.lost.elem i.toNat = false →
    (h.h.get i.toFin ≠ .filling → Goes (.hwaitSrc i) s after) ∧
    (h.h.get i.toFin = .free → Goes (.hwaitVis sc i) s after) ∧
    (h.h.get i.toFin = .filling → ∃ t : State, exec (.hwaitSrc i) s = .next t ∧ t.hart.wait = some .handle ∧ Keeps [.waits] s t) ∧
    (h.h.get i.toFin ≠ .free → ∃ t : State, exec (.hwaitVis sc i) s = .next t ∧ t.hart.wait = some .handle ∧ Keeps [.waits] s t)) ∧
  (h.lost.elem i.toNat = true →
    let told : State := { s with hart := { h with lost := h.lost.filter fun k => decide (k ≠ i.toNat) } }
    exec (.hwaitSrc i) s = told.takeTrap 8 4 0 0 none ∧ exec (.hwaitVis sc i) s = told.takeTrap 8 4 0 0 none) ∧
  (h.copyOf i = none → Goes (.hrel i) s after ∧ Gives (.hstate i d) s 4 d (BitVec.ofNat 64 (h.h.get i.toFin).code)) ∧
  ∀ c, h.copyOf i = some c →
    (∃ t : State, exec (.hrel i) s = .next t ∧ t.hart.pc = after ∧ t.hart.h.get i.toFin = .free ∧ t.hart.copyOf i = none ∧
      t.hart.cnt = h.cnt.add .cp (-1) ∧ (∀ r, t.hart.q.get r ≠ some i) ∧
      (∀ r, r ≠ i → t.hart.copyOf r = h.copyOf r ∧ t.hart.h.get r.toFin = h.h.get r.toFin) ∧
      (c.kind ≠ 3 → t.slots = s.slots) ∧ Keeps [.pc, .copies, .counters, .others, .agenda, .matrix, .free] s t) ∧
    ∃ v, Gives (.hstate i d) s 4 d v ∧ bits v.toNat 1 0 = (h.h.get i.toFin).code ∧ bits v.toNat 4 2 = c.kind.toNat ∧
      (v.toNat.testBit 5 = true ↔ ∃ r, h.q.get r = some i) ∧
      (v.toNat.testBit 5 = true → h.q.getD (bits v.toNat 8 6) none = some i) ∧ bits v.toNat 31 9 = 0 ∧
      bits v.toNat 63 32 = min (if c.kind = 0 ∨ c.kind = 1 then c.n.toNat - c.pos else c.n.toNat - c.written) (2 ^ 32 - 1)

/-- R128, R154, R155, R313: the steps of a copy. Its source is read, whole or one strip at a time; the engine of
a copy from a stream takes a strip out of its buffer (R39); its destination is written
whole, what it read from poisoned granules poisons those that it reaches, and its handle is free. -/
def Obligations.CopySteps : Prop :=
  ∀ (s : State) (who : AgentId) (i : BitVec 5) (h : Hart) (c : Copy), Canonical s → s.find who = some h → h.copyOf i = some c →
  let value := fun (e : Nat) => ofBytes (s.mem.bytes (heldBytes c.pages (c.srcAddr e) c.unit))
  (c.kind = 2 ∨ c.kind = 3 → h.h.get i.toFin = .filling → (c.sourceLines 0 c.n.toNat).any (s.blocksRead c.order) = false →
    ∃ t k, exec (.copySourceRead who i) s = .next t ∧ (t.find who).bind (·.copyOf i) = some k ∧
      k.data = (List.range c.n.toNat).map value ∧ k.got = c.n.toNat ∧
      (t.find who).map (·.h.get i.toFin) = some .draining ∧ .copyComplete who i ∈ t.agenda ∧ StoredNothing s t) ∧
  (let mvl := h.mvl c.sew
    let n := min mvl (c.n.toNat - c.got)
    c.kind = 0 → n ≠ 0 → c.data.length + n ≤ 4 * mvl → (c.sourceLines c.got n).any (s.blocksRead c.order) = false →
    ∃ t k, exec (.streamStripArrival who i) s = .next t ∧ (t.find who).bind (·.copyOf i) = some k ∧ k.got = c.got + n ∧
      k.data = c.data ++ (List.range n).map (fun e => value (c.got + e)) ∧ StoredNothing s t ∧
      (c.got + n = c.n.toNat → (t.find who).map (·.h.get i.toFin) = some .full)) ∧
  (c.kind = 1 → c.got < c.pos →
    ∃ t k, exec (.streamStripArrival who i) s = .next t ∧ (t.find who).bind (·.copyOf i) = some k ∧
      k.got = min c.pos (c.got + h.mvl c.sew) ∧ t.mem = s.mem) ∧
  (h.h.get i.toFin = .draining →
    ∃ t : State, exec (.copyComplete who i) s = .next t ∧ (t.find who).map (·.copyOf i) = some none ∧
      (t.find who).map (·.h.get i.toFin) = some .free ∧ (t.find who).map (·.cnt.cp) = some (h.cnt.cp - 1) ∧
      (c.kind = 3 → t.mem = s.mem ∧
        ∀ e, e < c.data.length → ∀ j, j < c.unit →
          t.slots.byte (h.id.quad * 2 ^ 19 + c.slot.toNat * 2 ^ 14 + e * c.unit + j) = BitVec.ofNat 8 (c.data.getD e 0 / 2 ^ (8 * j))) ∧
      (c.kind = 3 → ∀ n ∈ c.poisonParts, h.id.quad * 2 ^ 13 + c.slot.toNat * 2 ^ 8 + n ∈ t.pkg.slotPoison) ∧
      (c.kind ≠ 3 → (∀ g ∈ c.poisonLines, g ∈ t.pkg.poison) ∧ t.slots = s.slots ∧ (Untraced s →
        (∀ a, a ∉ c.destBytes.map (·.1) → t.mem.byte a = s.mem.byte a) ∧
        ∀ before p after, c.destBytes = before ++ p :: after → p.1 ∉ after.map (·.1) → t.mem.byte p.1 = p.2)))

/-- R159, R160, R161, R316: vpush marks its destination registers empty at the receiver and sends n registers, one delivery each;
a collective reduction contributes n registers to the call of its group and context. Both count in cp, and the hart stays at the
instruction until the engine has completed it (the model's choice: log 16): each delivery fills its register, and a call completes
when every member has contributed, with the sums of xred.o in rank order, rounded as the members say (where they say different
things, as log 44 says). A call with an ordered member is ordered, and members that stand pre-empted keep it open for what it gives
them (log 44). A hart whose push or call was lost with the engine traps at it (R316). -/
def Obligations.Collectives : Prop :=
  (∀ (s : State) (cls : BitVec 4) (b : BitVec 5) (n f : BitVec 6), s.hart.region = none → s.hart.lost.elem 33 = true →
    let h := s.hart
    let told : State := { s with hart := { h with
      pushing := none, xredCall := none, cnt := h.cnt.add .cp (-1), lost := h.lost.filter fun k => decide (k ≠ 33) } }
    ∀ g ∈ [Instr.vpush, Instr.xredO, Instr.xredF], exec (g cls b n f) s = told.takeTrap 8 4 0 0 none) ∧
  (∀ (s : State) (cls : BitVec 4) (b : BitVec 5) (n f : BitVec 6) (r : Hart), s.hart.region = none →
    s.hart.lost.elem 33 = false →
    let h := s.hart
    let x := (s.rs b).toNat
    let d := bits x 21 16
    let dest := pushReceiver h.id x
    h.emptyRun f.toNat n.toNat = false → s.accessesPending (2 ^ cls.toNat) = false → s.full .cp = false →
    s.pkg.dead.elem .collectiveEngine = false →
    (h.pushing = none → s.find dest = some r → r.active = true → r.ctx = h.ctx → dest ≠ h.id →
      dest.hart < 2 ^ r.split.toNat → bits x 7 0 < 144 → d + n.toNat ≤ 48 →
      (∀ k slot, k < n.toNat → .v (f.toNat + k) slot ∈ h.parity → h.g ≤ slot * (64 / h.sew)) →
      ∃ t p, exec (.vpush cls b n f) s = .next t ∧ t.hart.pushing = some p.id ∧ t.hart.pc = h.pc ∧ t.hart.cnt = h.cnt.add .cp 1 ∧
        t.pushes = s.pushes ++ [p] ∧ p.sender = h.id ∧ p.receiver = dest ∧ p.bundle = (r.qcb, r.job, r.bundle) ∧ p.granted = h.g ∧ p.data.length = n.toNat ∧
        (∀ k, k < n.toNat → ∃ y, p.data[k]? = some (d + k, y) ∧
          ∀ e, e < h.g → elem y h.sew e = elem (h.getV (f.toNat + k)) h.sew e) ∧
        (∀ k, k < 48 → (t.find dest).map (·.empty.getLsbD k) =
          some (r.empty.getLsbD k || decide (d ≤ k) && decide (k < d + n.toNat))) ∧
        Keeps [.counters, .collective, .waits, .others, .agenda, .reductions, .free] s t) ∧
    (∀ g ∈ [Instr.xredO, Instr.xredF], h.xredCall = none → xredTakes h.fmt = true → s.groupGranted (bits x 15 0) h.ctx = true →
      ∃ t c m, exec (g cls b n f) s = .next t ∧ t.hart.xredCall = some c.id ∧ t.hart.pc = h.pc ∧ t.hart.cnt = h.cnt.add .cp 1 ∧
        c ∈ t.xred ∧ c.group = bits x 15 0 ∧ c.ctx = h.ctx ∧ c.outcome = none ∧ (g = .xredO → c.ordered = true) ∧ m ∈ c.members ∧ m.who = h.id ∧ m.rank = bits x 47 32 ∧ m.parts = bits x 31 16 ∧
        m.count = n.toNat ∧ m.granted = h.g ∧ m.away = false ∧
        m.data = (List.range n.toNat).map (fun k => (List.range h.g).map fun e => elem (h.getV (f.toNat + k)) h.sew e) ∧
        (c.fewest ≤ c.members.length → Due.xredComplete c.id ∈ t.agenda) ∧
        Keeps [.counters, .collective, .waits, .agenda, .reductions, .free] s t)) ∧
  (∀ (s : State) (p : Push) (reg y : Nat) (rest : List (Nat × Nat)) (h r : Hart),
    s.pushes.find? (fun q => decide (q.id = p.id)) = some p → p.data = (reg, y) :: rest →
    s.find p.sender = some h → h.pushing = some p.id → s.find p.receiver = some r → r.active = true → (r.qcb, r.job, r.bundle) = p.bundle →
    p.sender ≠ p.receiver → reg < 48 →
    ∃ t : State, exec (.vpushDelivery p.id) s = .next t ∧
      (∀ e, e < r.mvl (fmtOf p.fmt).sew → (t.find p.receiver).map (fun k => elem (k.getV reg) (fmtOf p.fmt).sew e) =
        some (if e < p.granted then elem y (fmtOf p.fmt).sew e else elem (r.getV reg) (fmtOf p.fmt).sew e)) ∧
      (t.find p.receiver).map (·.empty.getLsbD reg) = some false ∧
      (rest = [] → (t.find p.sender).map (·.pc) = some (h.pc + 4) ∧ (t.find p.sender).map (·.pushing) = some none ∧
        (t.find p.sender).map (·.cnt.cp) = some (h.cnt.cp - 1))) ∧
  ∀ (s : State) (c : XredCall) (m : Member) (rest : List Member) (h : Hart),
    s.xred.find? (fun x => decide (x.id = c.id)) = some c → c.outcome = none → c.members = m :: rest →
    c.agrees [] = true → m.away = false →
    (∀ k ∈ c.members, k.away = false → (s.find k.who).bind (·.xredCall) = some c.id) →
    ((c.members.filter fun k => !k.away).map (·.who)).Nodup → s.find m.who = some h →
    ((∀ k ∈ c.members, k.rnd = m.rnd) → c.rounding = Rnd.ofCode m.rnd.toNat) ∧
    ∃ t : State, exec (.xredComplete c.id []) s = .next t ∧ (t.find m.who).map (·.pc) = some (h.pc + 4) ∧
      (if c.members.any (·.away) then ∃ o, { c with members := c.members.filter (·.away), outcome := some o } ∈ t.xred
        else ∀ k ∈ t.xred, k.id ≠ c.id) ∧
      (t.find m.who).map (·.xredCall) = some none ∧ (t.find m.who).map (·.cnt.cp) = some (h.cnt.cp - 1) ∧
      (c.ordered = true → m.granted = h.g → ∀ k, k < m.count → m.first + m.count ≤ 48 →
        ∀ e, e < h.g → e < h.mvl (fmtOf m.fmt).sew →
        (t.find m.who).map (fun j => elem (j.getV (m.first + k)) (fmtOf m.fmt).sew e) =
          some (ordered (addIn (fmtOf m.fmt) c.rounding)
            ((List.range m.parts).map fun rank =>
              ((c.members.find? fun q => decide (q.rank = rank)).map fun q => (q.data.getD k []).getD e 0).getD 0) %
            2 ^ (fmtOf m.fmt).sew))

/-- R83, R117: launch completes when no engine owns a line that it needs and the hart's earlier accesses of the named classes are
performed. It appends the record to its QCB: the job id is the new append.seq, and the doublewords written, in order, are the
record's next, origin with cmask, and hint, the QCB's append.seq and tail, its head where the list was empty and else the
next word of the record that was last, and its count of appends; no other byte changes. A QCB that is not open, or belongs to another
tenant, refuses the append: launch writes 0, and only the counts of refusals change. A misaligned QCB or record traps, and so does a
poisoned line of them that the append reads (R313; log 36). -/
def Obligations.LaunchAppends : Prop :=
  ∀ (s : State) (c b a d : BitVec 5) (qpa rpa : Nat), Canonical s → s.hart.region = none →
  let h := s.hart
  let qva := s.rs a
  let record := s.rs b
  let cmask := bits (s.rs c).toNat 15 0
  let hint := if h.id.control then 0 else h.adv.place.toNat
  let q := BitVec.ofNat 64 qpa
  let u := s.noteWalks [qva.toNat, record.toNat]
  let cw := u.qword q 0
  let mine := openWord cw = true ∧ tenantOf h.ctx = tenantOf (ctxOfWord cw)
  let seq := (u.qword q 0x18 + 1) % 2 ^ 64
  (qva.toNat % 512 ≠ 0 → exec (.launch c b a d) s = s.takeTrap 4 0 0 0 (some qva.toNat)) ∧
  (qva.toNat % 512 = 0 → record.toNat % 128 ≠ 0 → exec (.launch c b a d) s = s.takeTrap 4 0 0 0 (some record.toNat)) ∧
  (qva.toNat % 512 = 0 → record.toNat % 128 = 0 → s.place h false .store qva.toNat 256 = .ok (.mem qpa) →
    s.place h false .store record.toNat 128 = .ok (.mem rpa) → s.qcbBusy q = false → s.owned (rpa / 64) = false →
    s.owned (rpa / 64 + 1) = false → s.tailBusy h.ctx q = false →
    (s.poisoned q.toNat = true → exec (.launch c b a d) s = s.takeTrap 8 0 0 0 (some qva.toNat)) ∧
    (s.poisoned q.toNat = false → s.poisoned (q.toNat + 64) = true →
      exec (.launch c b a d) s = s.takeTrap 8 0 0 0 (some (qva.toNat + 64))) ∧
    (s.poisoned q.toNat = false → s.poisoned (q.toNat + 64) = false → s.poisoned rpa = true →
      exec (.launch c b a d) s = s.takeTrap 8 0 0 0 (some record.toNat)) ∧
    (s.poisoned q.toNat = false → s.poisoned (q.toNat + 64) = false → s.poisoned rpa = false → s.tilesPending = false →
    s.accessesPending cmask = false → s.pkg.late = [] →
    ∃ t : State, exec (.launch c b a d) s = .next t ∧ t.hart.pc = h.pc + 4 ∧
      (Untraced s → u.mem = s.mem ∧ u.pkg.late = [] ∧ t.pkg.late = []) ∧
      (mine → Wrote s t d (BitVec.ofNat 64 seq) ∧
        AfterWrites u.deviceMem t.deviceMem ([(rpa, 0),
            (rpa + 8, bits (u.deviceMem.read (rpa + 8) 8) 15 0 + cmask * 2 ^ 16 + 2 * 2 ^ 32 +
              bits (u.deviceMem.read (rpa + 8) 8) 63 35 * 2 ^ 35),
            (rpa + 0x30, bits (u.deviceMem.read (rpa + 0x30) 8) 63 9 * 2 ^ 9 + hint),
            (q.toNat + 0x18, seq), (q.toNat + 0x08, record.toNat)] ++
          (if u.qword q 0x08 = 0 then [(q.toNat + 0x10, record.toNat)]
            else ((u.tailNext h.ctx q).map fun p => (p, record.toNat)).toList) ++
          [(q.toNat + 0x40, (u.qword q 0x40 + 1) % 2 ^ 64)]) ∧
        (∃ j : Job, t.loom = { s.loom with jobs := s.loom.jobs ++ [j], seq := s.loom.seq + 1, views := t.loom.views } ∧
          j.qcb = q ∧ j.qva = qva ∧ j.addr = record ∧ j.pa = rpa ∧ j.id = BitVec.ofNat 64 seq ∧ j.origin = 2 ∧
          j.cmask.toNat = cmask ∧ j.hint.toNat = hint ∧ j.state = 0 ∧ j.seq = s.loom.seq) ∧
        t.view q = { s.view q with qcb := q, qva := qva, last := record, lastPa := rpa } ∧
        (∀ k, k ≠ q → t.view k = s.view k) ∧ Due.loomAppendEvent q record ∈ t.agenda ∧
        Keeps (.scalars :: .integrity :: .pc :: .loom :: accessEffects) s t) ∧
      (¬ mine → Wrote s t d 0 ∧ AfterWrites u.deviceMem t.deviceMem [(q.toNat + 0x48, (u.qword q 0x48 + 1) % 2 ^ 64)] ∧
        (let n := tenantOf (ctxOfWord cw);
          t.tenants = Sparse.set (fun _ => Tenant.none) s.tenants n
            { s.tenant n with dec := (s.tenant n).dec.setIfInBounds 6 ((s.tenant n).dec.getD 6 0 + 1) }) ∧
        SameRegisters { s.pkg with dec := s.pkg.dec.setIfInBounds 6 (s.pkg.dec.getD 6 0 + 1) } t.pkg ∧
        Keeps (.scalars :: .integrity :: .pc :: .tenants :: .package :: accessEffects) s t)))

/-! Tensors, regions and claims. -/

/-- R168 to R178: registering a tensor and dropping it with its fills in flight, looking a tile up, prefetching, keeping and
filling tiles, and copying a tile with its halo into the local store. A fill makes every line of the tile present while the tile
caches have room for it: which lines replacement takes is the model's choice (log 9). So are that a page whose walk has to wait or
meets a poisoned entry counts as one that does not translate, and that a line counts under the one tile that filled it (log 9). -/
def Obligations.TensorForms : Prop :=
  ∀ (s : State) (cls : BitVec 4) (co i b d : BitVec 5), Canonical s →
  let h := s.hart
  let c := s.ctx h.ctx
  let id := BitVec.ofNat 6 (s.rs i).toNat
  let after := h.pc + 4
  let where_ := (s.rs co).toNat
  let named := fun (t : Tile) => t.ctx = h.ctx ∧ t.tensor = id ∧ ((t.i : Int), (t.j : Int)) ∈ coordTiles where_
  (h.region = none →
    (∀ ps, (s.rs b).toNat % 32 = 0 → s.pieces h false .load (s.rs b).toNat 32 = .ok ps → s.full .ld = false →
      let x := s.peek ps
      let new := Tensor.ofWords (bits x 63 0) (bits x 127 64) (bits x 191 128)
      let r := if tensorValid (bits x 63 0) (bits x 127 64) (bits x 191 128) (bits x 255 192) = false then 3
        else if (c.tensor id).isSome then 1
        else if c.tensors.any (fun p => rangesMeet p.2.base.toNat p.2.size new.base.toNat new.size) then 2 else 0
      ∃ t : State, exec (.treg cls i b d) s = .next t ∧ Wrote s t d (BitVec.ofNat 64 r) ∧ t.hart.pc = after ∧ Issued s t .ld ∧
        (t.ctx h.ctx).tensors = (if r = 0 then c.tensors ++ [(id, new)] else c.tensors) ∧ StoredNothing s t ∧
        Keeps (.scalars :: .integrity :: .pc :: .counters :: accessEffects) s t) ∧
    (∀ f ∈ [(Instr.tunreg i d, true), (.tinv i d, false)],
      (c.tensor id = none → Gives f.1 s 4 d 0) ∧
      ((c.tensor id).isSome → s.full .st = false →
        let mine := s.pkg.tileCache.filter fun l => decide (l.tile.ctx = h.ctx) && decide (l.tile.tensor = id)
        ∃ t : State, exec f.1 s = .next t ∧ t.hart.pc = after ∧ Issued s t .st ∧
          Wrote s t d (BitVec.ofNat 64 (min (mine.map (·.tile)).eraseDups.length (2 ^ 32 - 1))) ∧
          (∀ l, l ∈ t.pkg.tileCache ↔ l ∈ s.pkg.tileCache ∧ ¬ (l.tile.ctx = h.ctx ∧ l.tile.tensor = id)) ∧
          (∀ ti tj, Due.tileFill h.ctx id ti tj ∉ t.agenda) ∧
          (f.2 = true → (t.ctx h.ctx).tensor id = none) ∧ (f.2 = false → t.ctxs = s.ctxs) ∧
          (∀ k, k ≠ id → (t.ctx h.ctx).tensor k = c.tensor k) ∧
          Keeps [.scalars, .integrity, .pc, .counters, .agenda, .contexts, .caches] s t)) ∧
    (∃ t : State, exec (.tkeep co i d) s = .next t ∧ t.hart.pc = after ∧
      Wrote s t d (BitVec.ofNat 64 (t.ctx h.ctx).keptBytes) ∧ (c.tensor id = none → (t.ctx h.ctx).kept = c.kept) ∧
      (∀ n, c.tensor id = some n → where_.testBit 48 = true → ∀ q, q ∈ (t.ctx h.ctx).kept ↔
        q ∈ c.kept ∧ ¬ (named q ∧ n.inRange q.i q.j = true)) ∧
      (where_.testBit 48 = false → (∀ q ∈ c.kept, q ∈ (t.ctx h.ctx).kept) ∧
        (∀ q ∈ (t.ctx h.ctx).kept, q ∈ c.kept ∨ named q) ∧
        ((t.ctx h.ctx).kept ≠ c.kept → (t.ctx h.ctx).keptBytes ≤ (s.tenant (tenantOf h.ctx)).kquota.toNat)) ∧
      Keeps [.scalars, .integrity, .pc, .contexts] s t) ∧
    (∃ t : State, exec (.tfetch co i) s = .next t ∧ t.hart.pc = after ∧ Keeps [.pc, .agenda, .contexts] s t ∧
      let good := fun (n : Tensor) (p : Int × Int) =>
        decide (0 ≤ p.1) && decide (0 ≤ p.2) && n.inRange p.1.toNat p.2.toNat && n.tileMaps p.1.toNat p.2.toNat (s.translates h.ctx)
      (c.tensor id = none → Sparse.wf (fun _ => 0) c.ctr = true → t.counter h.ctx 0x742 0 = s.counter h.ctx 0x742 0 + BitVec.ofNat 64 (coordTiles where_).length) ∧
      ∀ n, c.tensor id = some n →
        (∀ p ∈ coordTiles where_, good n p = true → .tileFill h.ctx id p.1.toNat p.2.toNat ∈ t.agenda) ∧
        (Sparse.wf (fun _ => 0) c.ctr = true → t.counter h.ctx 0x742 0 = s.counter h.ctx 0x742 0 +
          BitVec.ofNat 64 ((coordTiles where_).filter fun p => !good n p).length)) ∧
    (∀ (n : Tensor) (place : Nat → List Piece), let dst := (s.rs d).toNat
      let k := bits where_ 55 48
      let cells := haloCells n (bits where_ 23 0) (bits where_ 47 24) k
      let total := (n.t0 + 2 * k) * (n.t1 + 2 * k) * n.esz
      c.tensor id = some n → h.id.control = false → dst % 8 = 0 → k ≤ 64 → total ≤ 65536 →
      (∀ x ∈ cells, ∀ a, x.src = some a → s.pieces h false .load a n.esz = .ok (place a)) →
      (∀ j, j < total → inWindow (dst + j) = true ∧ s.ownPart h (dst + j - windowBase) = true) →
      rangesMeet n.base.toNat n.size windowBase (2 ^ 18) = false → s.full .ld = false →
      let key := storeKey h.id (dst - windowBase)
      ∃ t : State, exec (.thalo cls co i d) s = .next t ∧ t.hart.pc = after ∧ Issued s t .ld ∧ (Untraced s → t.mem = s.mem) ∧
        (∀ x ∈ cells, ∀ j, j < n.esz → t.lstore.byte (key + x.off + j) = match x.src with
          | some a => BitVec.ofNat 8 (s.peek (place a) / 2 ^ (8 * j))
          | none => 0) ∧
        (∀ a, a < key ∨ key + total ≤ a → t.lstore.byte a = s.lstore.byte a) ∧
        Keeps (.pc :: .counters :: .localStore :: accessEffects) s t)) ∧
  (let ti := bits where_ 23 0
    let tj := bits where_ 47 24
    ((∀ n, c.tensor id = some n → n.inRange ti tj = false) → Gives (.tlook co i d) s 4 d 0x20) ∧
    ∀ n, c.tensor id = some n → n.inRange ti tj = true →
      let lines := s.pkg.tileCache.filter fun l => decide (l.tile = ⟨h.ctx, id, ti, tj⟩)
      Gives (.tlook co i d) s 4 d (BitVec.ofNat 64 (n.addr (ti * n.t0) (tj * n.t1) |||
        ((if lines = [] then 0 else 1) + s.tileDie h.ctx n ti tj * 2 + (if (⟨h.ctx, id, ti, tj⟩ : Tile) ∈ c.kept then 8 else 0) +
          (if ∃ l ∈ lines, l.dirty = true then 16 else 0)))) ∧
      ∃ t : State, exec (.tileFill h.ctx id ti tj) s = .next t ∧
        ((s.pkg.tileCache.length + (n.lineAddrs ti tj).length ≤ tileLinesPerDie) →
          ∀ va ∈ n.lineAddrs ti tj, ∀ pa rwx, s.walkIn h.ctx va = .page pa rwx → s.atHost (pa / 64) = false →
            ∃ l ∈ t.pkg.tileCache, l.line = pa / 64) ∧
        Keeps [.contexts, .caches, .free] s t)

/-- R190 to R200: beginning a region, asking for its commit, aborting it, and its bounds. An abort restores the registers of the
checkpoint, writes the status, goes on behind the xbegin (at it, once it resumes, where a pre-emption aborts it), and changes no
memory. Harts that would begin pinned do so in the order in which they reached their xbegin. A store inside a region changes no memory
while the region is live. -/
def Obligations.RegionForms : Prop :=
  ∀ (s : State) (f : BitVec 4) (a b d : BitVec 5), Canonical s →
  let h := s.hart
  let after := h.pc + 4
  (h.region = none →
    (∀ g ∈ [(Instr.xbeginE f d, false), (.xbeginS f d, true)], s.arb.renewing = false → s.accessesPending 0xFFFF = false →
      (g.2 = true ∨ h.aborts < 4) → s.pinnedAt = none →
      ∃ t r, exec g.1 s = .next t ∧ t.hart.region = some r ∧ r.strict = g.2 ∧ r.pinned = false ∧ r.package = decide (f = 4) ∧
        r.begin = h.pc ∧ r.sd = d ∧ r.lines = [] ∧ r.buf = [] ∧ r.stores = 0 ∧ r.ckpt = h.checkpoint ∧ Wrote s t d 0 ∧
        t.hart.pc = after ∧ t.hart.ebLo = 0 ∧ t.hart.ebHi = (if g.2 = true then 0 else BitVec.ofNat 40 (2 ^ 40 - 1)) ∧
        t.hart.aborts = h.aborts ∧ Keeps [.scalars, .integrity, .pc, .region] s t) ∧
    (∀ k, 4 ≤ h.aborts → s.arb.beginQueue.head? = some k → k ≠ h.id →
      ∃ t : State, exec (.xbeginE f d) s = .next t ∧ t.hart.wait = some .regionBegin ∧ h.id ∈ t.arb.beginQueue ∧
        Keeps [.waits, .arbiter] s t) ∧
    (4 ≤ h.aborts → s.arb.renewing = false → (s.arb.beginQueue = [] ∨ s.arb.beginQueue.head? = some h.id) →
      s.pinnedAt = none → s.accessesPending 0xFFFF = false →
      ∃ t r, exec (.xbeginE f d) s = .next t ∧ t.hart.region = some r ∧ r.strict = false ∧ r.pinned = true ∧
        r.ckpt = h.checkpoint ∧ Wrote s t d 0 ∧ t.hart.pc = after ∧ t.hart.ebLo = BitVec.ofNat 40 (s.arb.high + 1) ∧
        t.hart.ebHi = t.hart.ebLo ∧ h.id ∉ t.arb.beginQueue) ∧
    Gives (.xend d) s 4 d (-1) ∧ Goes (.xabort a) s after ∧ Gives (.xbnd b a d) s 4 d (-1)) ∧
  Gives (.xbndLo d) s 4 d (h.ebLo.setWidth 64) ∧ Gives (.xbndHi d) s 4 d (h.ebHi.setWidth 64) ∧
  ∀ r, h.region = some r →
    (∀ g ∈ [Instr.xbeginE f d, .xbeginS f d], exec g s = .next (s.abortRegion h.id 7)) ∧
    exec (.xabort a) s = .next (s.abortRegion h.id (128 + bits (s.rs a).toNat 6 0)) ∧
    (r.asked = none → s.accessesPending 0xFFFF = false →
      ∃ t : State, exec (.xend d) s = .next t ∧ t.hart.region = some { r with asked := some d } ∧ Due.commit h.id ∈ t.agenda ∧
        t.hart.pc = h.pc ∧ Keeps [.region, .waits, .agenda] s t) ∧
    (r.strict = true → Gives (.xbnd b a d) s 4 d (-1)) ∧
    (r.strict = false →
      let lo := if r.pinned = false ∧ h.ebLo < (s.rs a).setWidth 40 then (s.rs a).setWidth 40 else h.ebLo
      let hi := if r.pinned = false ∧ (s.rs b).setWidth 40 < h.ebHi then (s.rs b).setWidth 40 else h.ebHi
      r.pinned = false → lo ≤ hi → ∃ t : State, exec (.xbnd b a d) s = .next t ∧ Wrote s t d ((hi - lo).setWidth 64) ∧
        t.hart.pc = after ∧ t.hart.ebLo = lo ∧ t.hart.ebHi = hi ∧ t.hart.region = h.region ∧
        Keeps [.scalars, .integrity, .pc, .region] s t) ∧
    (∀ code, code < 256 → let t := s.abortRegion h.id code
      let n := h.aborts + (if r.strict = false ∧ code ∈ [1, 2, 3, 7, 8] then 1 else 0)
      t.hart.region = none ∧ t.hart.aborts = n ∧ t.hart.pc = (if code = 6 then r.begin else r.begin + 4) ∧
      t.hart.v = r.ckpt.v ∧ t.hart.m = r.ckpt.m ∧ t.hart.pooled = r.ckpt.pooled ∧
      (∀ q, q ∈ t.hart.parity ↔ q ∈ r.ckpt.parity ∧ (r.sd = 0 ∨ q ≠ .s r.sd.toNat)) ∧
      t.hart.vl = r.ckpt.vl ∧ t.hart.vlPad = r.ckpt.vlPad ∧ t.hart.vt = r.ckpt.vt ∧ t.hart.sw = r.ckpt.sw ∧
      t.hart.vstart = r.ckpt.vstart ∧ (∀ k, k ≠ r.sd → k ≠ 0 → t.rs k = r.ckpt.s.get k.toFin) ∧
      (r.sd ≠ 0 → t.rs r.sd = BitVec.ofNat 64 (code + (if 4 ≤ n then 256 else 0) + min n 255 * 2 ^ 16)) ∧
      (Untraced s → t.mem = s.mem) ∧ t.lstore = s.lstore) ∧
    ∀ (k : BitVec 7) (t : State), exec (.std k f b a) s = .next t → t.hart.region ≠ none →
      (Untraced s → t.mem = s.mem) ∧ t.lstore = s.lstore

/-- R185 to R187: sclaim claims a strided range under a free number, and writes why it does not: eight claims held,
a range that is not valid, a byte that a claim of another hart of the context covers, or a home slice of its lines whose table
holds 64 claims. That the number is the lowest free one, and which refusal is written where several hold, is the model's choice
(log 39). srel drops a claim. -/
def Obligations.Claims : Prop :=
  ∀ (s : State) (a b d : BitVec 5), s.hart.region = none →
  let h := s.hart
  let desc := (s.rs b).toNat
  let c : Claim := ⟨0, [], s.rs a, BitVec.ofNat 24 desc, BitVec.ofNat 24 (desc / 2 ^ 24), BitVec.ofNat 2 (desc / 2 ^ 48)⟩
  let w := 2 ^ c.lw.toNat
  let valid := c.count ≠ 0 ∧ (s.rs a).toNat % w = 0 ∧ (c.count.toNat - 1) * c.stride.toInt.natAbs + w ≤ 2 ^ 24
  let byte := fun (q : Claim) (x : Int) => ∃ i j : Nat, i < q.count.toNat ∧ j < 2 ^ q.lw.toNat ∧
    x = q.base.toNat + i * q.stride.toInt + j
  let overlap := ∃ k ∈ s.parked ++ s.saved, k.ctx = h.ctx ∧ ∃ q ∈ k.claims, ∃ x, byte c x ∧ byte q x
  let full := ∃ n ∈ s.claimSlices c, 64 ≤ s.claimsAt n
  (8 ≤ h.claims.length → Gives (.sclaim b a d) s 4 d (-1)) ∧
  (h.claims.length < 8 → ¬ valid → Gives (.sclaim b a d) s 4 d (-3)) ∧
  (h.claims.length < 8 → valid → overlap → Gives (.sclaim b a d) s 4 d (-2)) ∧
  (h.claims.length < 8 → valid → ¬ overlap → full → Gives (.sclaim b a d) s 4 d (-4)) ∧
  (h.claims.length < 8 → valid → ¬ overlap → ¬ full →
    ∃ t i, exec (.sclaim b a d) s = .next t ∧ Wrote s t d (BitVec.ofNat 64 i) ∧ t.hart.pc = h.pc + 4 ∧
      t.hart.claims = h.claims ++ [{ c with id := BitVec.ofNat 3 i, slices := s.claimSlices c }] ∧ i < 8 ∧ (∀ q ∈ h.claims, q.id.toNat ≠ i) ∧
      (∀ j, j < i → ∃ q ∈ h.claims, q.id.toNat = j) ∧ Keeps [.scalars, .integrity, .pc, .claims] s t) ∧
  ∃ t : State, exec (.srel a) s = .next t ∧ t.hart.pc = h.pc + 4 ∧
    t.hart.claims = h.claims.filter (fun q => decide (q.id ≠ (s.rs a).setWidth 3)) ∧ Keeps [.pc, .claims] s t

/-- R192 to R196: the steps of regions. An access raises the lower bound of its region above the stamps of its line, and orders it
against every other region that tracks the line: a read of what the other has written comes before it, a write behind it, and an access
that does both is ordered both ways; its own interval narrows at once, and a message narrows the other's. A commit performs the buffered
writes, but for bytes whose writes another region's have overtaken (the model's reading: log 13), writes its position to the register of
xend and goes on behind it; narrowing and FINAL messages narrow their target; a renewal of positions starts them again. A conflict that
no access has ordered changes no memory when its home slice meets it. -/
def Obligations.RegionSteps : Prop :=
  ∀ (s : State) (who : AgentId) (h : Hart) (r : Region), Canonical s → s.find who = some h → h.region = some r →
  (∀ d, r.asked = some d →
    let p := s.commitPosition h r
    s.commitBlocked h r p = false → Sparse.wf (fun _ => none) r.buf = true → (r.strict = true ∨ h.ebLo ≤ h.ebHi) →
    (r.strict = false → p = h.ebLo.toNat) ∧
    ∃ t : State, exec (.commit who) s = .next t ∧ (t.find who).map (·.region) = some none ∧ (t.find who).map (·.aborts) = some 0 ∧
      (t.find who).map (·.pc) = some (h.pc + 4) ∧ (t.find who).map (·.getS d) = some (if d = 0 then 0 else BitVec.ofNat 64 p) ∧
      (t.find who).map (·.v) = some h.v ∧ t.lstore = s.lstore ∧
      (Untraced s → ∀ a, t.mem.byte a = match Sparse.get (fun _ => none) r.buf a with
        | some x => if r.outdone.elem a then s.mem.byte a else x
        | none => s.mem.byte a)) ∧
  (∀ d, r.asked = some d → s.commitBlocked h r (s.commitPosition h r) = false → r.strict = false → h.ebHi < h.ebLo →
    exec (.commit who) s = .next (s.abortRegion who 1)) ∧
  (∀ n m, s.arb.narrowings[n]? = some m → m.target = who → r.strict = false → r.pinned = false →
    let lo := max m.lo (h.ebLo.toNat : Int)
    let hi := min m.hi (h.ebHi.toNat : Int)
    lo ≤ hi → lo ≤ 2 ^ 40 - 1 →
    ∃ t : State, exec (.narrowingApply n) s = .next t ∧ (t.find who).map (·.ebLo) = some (BitVec.ofInt 40 lo) ∧
      (t.find who).map (·.ebHi) = some (BitVec.ofInt 40 hi) ∧ t.arb.narrowings = s.arb.narrowings.eraseIdx n ∧
      Keeps [.region, .others, .agenda, .arbiter] s t) ∧
  (∀ n m, s.arb.finals[n]? = some m → m.target = who → r.strict = false → r.pinned = false →
    let lo := if m.before then (h.ebLo.toNat : Int) else max (m.pos + 1 : Int) h.ebLo.toNat
    let hi := if m.before then min (m.pos - 1 : Int) h.ebHi.toNat else (h.ebHi.toNat : Int)
    lo ≤ hi → lo ≤ 2 ^ 40 - 1 →
    ∃ t : State, exec (.finalApply n) s = .next t ∧ (t.find who).map (·.ebLo) = some (BitVec.ofInt 40 lo) ∧
      (t.find who).map (·.ebHi) = some (BitVec.ofInt 40 hi) ∧ t.arb.finals = s.arb.finals.eraseIdx n ∧
      Keeps [.region, .others, .agenda, .arbiter] s t) ∧
  (∀ l ∈ r.lines, ∀ write, (if write then l.wrote else l.read) = true →
    let open_ := ∃ k ∈ s.inRegions, k.id ≠ who ∧ ∃ o, k.region = some o ∧ (∀ p ∈ r.partners, p.1 ≠ k.id) ∧
      (∀ p ∈ o.partners, p.1 ≠ who) ∧ ∃ x ∈ o.lines, x.line = l.line ∧ (write = true ∨ x.wrote = true)
    open_ → ∃ t : State, exec (.regionConflict who l.line write) s = .next t ∧ (Untraced s → t.mem = s.mem) ∧
      t.lstore = s.lstore) ∧
  (∀ line write, r.strict = false → r.pinned = false →
    let (w, rd) := s.stamps line
    let lo := max (if write then max (w + 1) (rd + 1) else w + 1) h.ebLo.toNat
    lo ≤ h.ebHi.toNat →
    let t := s.applyStamps who line write
    (t.find who).map (·.ebLo) = some (BitVec.ofNat 40 lo) ∧ (t.find who).map (·.ebHi) = some h.ebHi) ∧
  (∀ (other : AgentId) (k : Hart) (ro : Region) (l : TrackedLine) (u : LineUse), other ≠ who → s.find other = some k →
    k.region = some ro → r.strict = false → r.pinned = false → ro.strict = false → ro.pinned = false →
    ro.lines.find? (fun x => decide (x.line = u.line)) = some l →
    let t := s.meet who other u
    let hi := min ((k.ebHi.toNat : Int) - 1) h.ebHi.toNat
    let lo := max ((k.ebLo.toNat : Int) + 1) h.ebLo.toNat
    let mine := fun (t : State) (lo hi : Int) (before : Bool) =>
      (t.find who).map (·.ebLo) = some (BitVec.ofInt 40 lo) ∧ (t.find who).map (·.ebHi) = some (BitVec.ofInt 40 hi) ∧
        ∃ r', (t.find who).bind (·.region) = some r' ∧ (other, before) ∈ r'.partners
    let ahead : Narrowing := ⟨h.ctx, other, (h.ebLo.toNat : Int) + 1, 2 ^ 40 - 1, who, false⟩
    (l.wrote = true → u.write = false → (h.ebLo.toNat : Int) ≤ hi →
      mine t h.ebLo.toNat hi true ∧ t.arb.narrowings = s.arb.narrowings ++ [ahead]) ∧
    (u.write = true → l.wrote = false ∨ u.read = false → lo ≤ h.ebHi.toNat →
      mine t lo h.ebHi.toNat false ∧
        t.arb.narrowings = s.arb.narrowings ++ [⟨h.ctx, other, 0, (h.ebHi.toNat : Int) - 1, who, true⟩]) ∧
    (l.wrote = true → u.write = true → u.read = true → (h.ebLo.toNat : Int) ≤ hi → lo ≤ hi →
      mine t lo hi false ∧ t.arb.narrowings = s.arb.narrowings ++ [ahead, ⟨h.ctx, other, 0, hi - 1, who, true⟩]) ∧
    (u.write = false → l.wrote = false → t = s)) ∧
  ∀ s', s'.arb.renewing = true → s'.inRegions = [] → s'.arb.finals = [] →
    ∃ t : State, exec .positionRenewal s' = .next t ∧ t.arb.high = 0 ∧ t.arb.stamps = [] ∧ t.arb.floors = [] ∧
      t.arb.renewing = false ∧ t.arb.rebase = s'.arb.rebase + 1 ∧ Keeps [.arbiter] s' t

/-! The matrix engine. -/

/-- R251 to R253, R264 to R267, R313: claiming and releasing operand slots, writing a slot, moving cells to and from a vector
register, and storing cells. A hart outside the bundle that owns the engine takes an access fault, and so does one that writes a
slot which it does not hold or has given back. Poison leaves the granules that a write fills: those of cells are the aligned runs of 16
in one row, which is the model's choice (log 50, with log 36). -/
def Obligations.MatrixTransfers : Prop :=
  ∀ (s : State) (cls : BitVec 4) (n a : BitVec 5) (v : BitVec 6), Canonical s → s.hart.region = none →
  let h := s.hart
  let k := h.id.quad
  let slot := fun (t : State) (i : Nat) => (t.quad k).slots.getD i .free
  let mine : SlotState := .feeder h.id.core h.id.hart
  let kept := fun (i : Nat) => (s.quad k).releasing.elem i = false
  let w := h.sew
  let esz := h.fmt.esz
  let wide := decide (h.fmt = .f64)
  (s.ownsMatrix = false → ∀ i ∈ [Instr.oclaim n, .orel n, .oput cls a n v, .accget cls a v, .accput cls a v, .accstore cls a],
    exec i s = s.takeTrap 6 2 0 0 none) ∧
  (s.ownsMatrix = true →
    (∀ new, h.lost.elem 32 = false →
      h.id.control = false ∧ (slot s n.toNat = .free ∨ slot s n.toNat = mine ∧ kept n.toNat) ∧ new = mine ∨
        h.id.control = true ∧ (slot s n.toNat = .full ∨ slot s n.toNat = .control ∧ kept n.toNat) ∧ new = .control →
      ∃ t : State, exec (.oclaim n) s = .next t ∧ t.hart.pc = h.pc + 4 ∧ slot t n.toNat = new ∧
        (∀ i, i ≠ n.toNat → slot t i = slot s i) ∧ Keeps [.pc, .matrix] s t) ∧
    (∃ t : State, exec (.orel n) s = .next t ∧ t.hart.pc = h.pc + 4 ∧ (∀ i, slot t i = slot s i) ∧ t.slots = s.slots ∧
      ((s.quad k).releasing.elem n.toNat = false →
        (h.id.control = false → slot s n.toNat = mine → n.toNat ∈ (t.quad k).releasing ∧ .slotFull k n.toNat ∈ t.agenda) ∧
        (h.id.control = true → slot s n.toNat = .control →
          n.toNat ∈ (t.quad k).releasing ∧ .slotFree k n.toNat ∈ t.agenda)) ∧
      Keeps [.pc, .matrix, .agenda] s t) ∧
    (s.hold [⟨v, w⟩] none = none → slot s n.toNat ≠ mine ∨ ¬ kept n.toNat → exec (.oput cls a n v) s = s.takeTrap 6 2 0 0 none) ∧
    (s.full .tl = false → s.sending h = false → s.engineDead = false →
      (let off := (s.rs a).toNat;
        s.hold [⟨v, w⟩] none = none → h.anyBad [⟨v, w⟩] = none → slot s n.toNat = mine → kept n.toNat → off % esz = 0 → off + h.g * esz ≤ 16384 →
        let base := k * 2 ^ 19 + n.toNat * 2 ^ 14 + off
        ∃ t : State, exec (.oput cls a n v) s = .next t ∧ VectorDone s t ∧ Counted s t .tl ∧
          (∀ e, e < h.g → ∀ j, j < esz → t.slots.byte (base + e * esz + j) =
            BitVec.ofNat 8 (pick (h.sourceValues [⟨v, w⟩]) 0 w e / 2 ^ (8 * j))) ∧
          (∀ x, x < base ∨ base + h.g * esz ≤ x → t.slots.byte x = s.slots.byte x) ∧ t.acc = s.acc ∧ t.quads = s.quads ∧
          (∀ g, g ∈ t.pkg.slotPoison ↔ g ∈ s.pkg.slotPoison ∧ ¬ (base ≤ 64 * g ∧ 64 * g + 64 ≤ base + h.g * esz)) ∧
          t.pkg.poison = s.pkg.poison ∧ t.pkg.cellPoison = s.pkg.cellPoison ∧ t.pkg.storePoison = s.pkg.storePoison ∧
          Keeps (.matrix :: .poison :: vectorEffects) s t) ∧
      ∀ row c, h.cellRun (s.rs a) = some (row, c) →
        let col := fun (e : Nat) => c + (if wide then 2 * e else e)
        let bad := (List.range h.g).any fun e => s.cellBad k row (col e) wide
        (s.hold [] (some ⟨v, w⟩) = none → bad = true → exec (.accget cls a v) s = s.takeTrap 8 2 0 0 none) ∧
        (s.hold [] (some ⟨v, w⟩) = none → isStream v = false → bad = false →
          ∃ t : State, exec (.accget cls a v) s = .next t ∧
            WroteVector s t v.toNat w (h.getM 0) (fun e => cellToElem h.fmt h.rnd (s.cell k row (col e) wide)) ∧
            VectorDone s t ∧ Issued s t .tl ∧ Keeps (.vectors :: vectorEffects) s t) ∧
        (s.hold [⟨v, w⟩] none = none → h.anyBad [⟨v, w⟩] = none →
          ∃ t : State, exec (.accput cls a v) s = .next t ∧ VectorDone s t ∧ Counted s t .tl ∧
            (∀ e, e < h.g → t.cell k row (col e) wide =
              elemToCell h.fmt (pick (h.sourceValues [⟨v, w⟩]) 0 w e) % 2 ^ (if wide then 64 else 32)) ∧
            (∀ r q, (r ≠ row ∨ q < c ∨ c + (if wide then 2 * h.g else h.g) ≤ q) → r < 256 → q < 256 →
              t.cell k r q false = s.cell k r q false) ∧ t.slots = s.slots ∧ t.quads = s.quads ∧
            (∀ r q, r < 256 → q < 256 → (t.cellBad k r q false = true ↔ s.cellBad k r q false = true ∧
              ¬ (r = row ∧ c ≤ q / 16 * 16 ∧ q / 16 * 16 + 16 ≤ c + (if wide then 2 * h.g else h.g)))) ∧
            t.pkg.poison = s.pkg.poison ∧ t.pkg.slotPoison = s.pkg.slotPoison ∧ t.pkg.storePoison = s.pkg.storePoison ∧
            Keeps (.matrix :: .poison :: vectorEffects) s t)) ∧
    ∀ f places, let d := (s.rs (a + 1)).toNat
      let rows := bits d 23 16 + 1
      let cols := bits d 31 24 + 1
      let dst := (s.rs a).toNat
      let ranges := (List.range rows).map fun i => ((dst + i * bits d 63 40) % 2 ^ 64, cols * f.esz)
      let wide := f = .f64
      Fmt.ofCode (bits d 35 32) = some f → f ∈ [Fmt.f32, .i32, .f64, .bf16, .f16] → bits d 39 36 = 0 → dst % f.esz = 0 →
      bits d 63 40 % f.esz = 0 → s.placeAll h .store ranges = .ok places → bits d 7 0 + rows ≤ 256 →
      bits d 15 8 + (if wide then 2 * cols else cols) ≤ 256 → (wide → bits d 15 8 % 2 = 0) → s.full .tl = false →
      s.engineDead = false →
      ∃ t x, exec (.accstore cls a) s = .next t ∧ t.hart.pc = h.pc + 4 ∧ Issued s t .tl ∧
        t.hart.accStores = h.accStores ++ [x] ∧ x.gen = (s.ctx h.ctx).gen ∧ (s.pkg.cellPoison = [] → x.bad = []) ∧
        (∀ l, l ∈ x.lines ↔ ∃ pa ∈ places, l = pa / 64) ∧ StoredNothing s t ∧
        x.bytes.map (·.2) = (List.range rows).flatMap (fun i => (List.range cols).flatMap fun j =>
          toBytes f.esz (storedCell f (s.cell k (bits d 7 0 + i) (bits d 15 8 + (if wide then 2 * j else j)) wide))) ∧
        Keeps (.pc :: .accStores :: .counters :: accessEffects) s t)

/-- R219 to R221, R252, R256 to R263, R313: tile operations are issued in order and counted in tl; each computes at its completion, mma.o in
increasing K, mma.f by some tree over the accumulator's value and the group values. accrd.s waits for the operations whose
window holds its cell, accrd.p for nothing. An operation given to a dead engine is lost. Poison of operand memory is carried to
the cells that its values reach, and a read of such a cell traps. A slot's release takes effect once its writes have landed, or
its readers have finished. The model's own: what becomes of an operation given to a dead engine (log 48), the granules of cells from
which poison leaves (log 50), and that an operation reads everything at its completion (log 8). -/
def Obligations.TileOperations : Prop :=
  (∀ (s : State) (cls : BitVec 4) (a n d : BitVec 5) (p sc : BitVec 6) (kc : BitVec 7) (fmt : BitVec 4) (col0 row0 : BitVec 8)
    (slotB slotA : BitVec 6), Canonical s →
    let h := s.hart
    let k := h.id.quad
    let q := s.quad k
    let queued := fun (i : Instr) (size : Nat) (op : TileOp) (more : List Part) => (s.full .tl = false → s.engineDead = true →
      ∃ t : State, exec i s = .next t ∧ t.hart.pc = h.pc + BitVec.ofNat 48 size ∧ 32 ∈ t.hart.lost ∧ t.hart.cnt = h.cnt ∧
        Keeps (.pc :: .copies :: more) s t) ∧ (s.full .tl = false → s.engineDead = false →
      (op.isTile = true → (q.waiting.filter (·.isTile)).length < 8) →
      ∃ t : State, exec i s = .next t ∧ t.hart.pc = h.pc + BitVec.ofNat 48 size ∧ t.hart.cnt = h.cnt.add .tl 1 ∧
        (t.quad k).waiting = q.waiting ++ [op] ∧ (t.quad k).running = q.running ∧ t.acc = s.acc ∧ t.scales = s.scales ∧ StoredNothing s t ∧
        (q.ops = [] → .tileOpStart k ∈ t.agenda) ∧ Keeps (.pc :: .counters :: .matrix :: .agenda :: more) s t)
    (s.ownsMatrix = false → ∀ i ∈ [Instr.mmaO sc kc fmt col0 row0 slotB slotA, .mmaF sc kc fmt col0 row0 slotB slotA, .accz fmt col0 row0, .tscl sc col0 row0,
      .accrdS d fmt col0 row0, .accrdP d fmt col0 row0], exec i s = s.takeTrap 6 2 0 0 none) ∧
    (s.ownsMatrix = true →
      queued (.accz fmt col0 row0) 8 (.accz fmt col0 row0) [] ∧ queued (.tscl sc col0 row0) 8 (.tscl sc col0 row0) [] ∧
      (q.holdsRun slotA.toNat kc.toNat = true → q.holdsRun slotB.toNat kc.toNat = true →
        queued (.mmaO sc kc fmt col0 row0 slotB slotA) 8 (.mma true sc kc fmt col0 row0 slotB slotA) [] ∧
        queued (.mmaF sc kc fmt col0 row0 slotB slotA) 8 (.mma false sc kc fmt col0 row0 slotB slotA) []) ∧
      (let va := (s.rs a).toNat;
        let N := 128 - p.toNat;
        s.hart.region = none → (∀ places, va % 64 = 0 → s.placeAll h .load [(va, 4 * N)] = .ok places →
          queued (.scldA cls a n p) 4 (.scaleA n.toNat ((List.range 128).map fun i =>
            if i < N then BitVec.ofNat 32 (s.mem.read (places.getD (i / 16) 0 + 4 * (i % 16)) 4) else 0x3F800000)) accessEffects) ∧
        (∀ pa, va % 4 = 0 → s.placeAll h .load [(va, 4)] = .ok [pa] →
          queued (.scldW cls a n) 4 (.scaleW n.toNat (BitVec.ofNat 32 (s.mem.read pa 4))) accessEffects)) ∧
      (let wide := decide (fmtOf fmt = .f64);
        h.lost.elem 32 = false → (q.ops.any fun op => op.covers row0.toNat col0.toNat wide) = false →
        if s.cellBad k row0.toNat col0.toNat wide = true then exec (.accrdS d fmt col0 row0) s = s.takeTrap 8 2 0 0 none
        else Gives (.accrdS d fmt col0 row0) s 8 d (readValue (fmtOf fmt) (s.cell k row0.toNat col0.toNat wide))) ∧
      (s.cellBad k row0.toNat col0.toNat (decide (fmtOf fmt = .f64)) = true →
        exec (.accrdP d fmt col0 row0) s = s.takeTrap 8 2 0 0 none) ∧
      (s.cellBad k row0.toNat col0.toNat (decide (fmtOf fmt = .f64)) = false → ∃ t x, exec (.accrdP d fmt col0 row0) s = .next t ∧ Wrote s t d x ∧ t.hart.pc = h.pc + 8 ∧ t.acc = s.acc ∧
        (q.running = none → x = readValue (fmtOf fmt) (s.cell k row0.toNat col0.toNat false +
          (if fmtOf fmt = .f64 then s.cell k row0.toNat (col0.toNat + 1) false * 2 ^ 32 else 0))) ∧
        Keeps [.scalars, .integrity, .pc, .matrix, .free] s t))) ∧
  ∀ (s : State) (k i : Nat), Canonical s →
    let q := s.quad k
    (∀ op rest, q.running = none → q.waiting = op :: rest →
      ∃ t : State, exec (.tileOpStart k) s = .next t ∧ (t.quad k).running = some op ∧ (t.quad k).waiting = rest ∧
        .tileOpComplete k ∈ t.agenda ∧ t.acc = s.acc ∧ Keeps [.matrix, .agenda] s t) ∧
    (∀ op, q.running = some op →
      ∃ t : State, exec (.tileOpComplete k) s = .next t ∧ (t.quad k).running = none ∧ (t.quad k).waiting = q.waiting ∧
        (q.waiting ≠ [] → .tileOpStart k ∈ t.agenda) ∧ t.slots = s.slots ∧
        (∀ fmt col0 row0, op = .accz fmt col0 row0 → ∀ m n, m < (tileShape (fmtOf fmt)).H → n < (tileShape (fmtOf fmt)).W →
          t.cell k (row0.toNat + m) (col0.toNat + (if fmtOf fmt = .f64 then 2 * n else n)) (decide (fmtOf fmt = .f64)) = 0) ∧
        (∀ sc col0 row0, op = .tscl sc col0 row0 → row0.toNat + 128 ≤ 256 → col0.toNat + 128 ≤ 256 →
          ∀ m n, m < 128 → n < 128 → t.cell k (row0.toNat + m) (col0.toNat + n) false =
            fpMul .f32 .rne (s.cell k (row0.toNat + m) (col0.toNat + n) false)
              (fpMul .f32 .rne (s.scale k sc.toNat m) (s.scale k sc.toNat 128)) % 2 ^ 32) ∧
        (∀ ordered sc kc fmt col0 row0 slotB slotA, op = .mma ordered sc kc fmt col0 row0 slotB slotA → kc ≠ 0 →
          let f := fmtOf fmt
          let col := fun (n : Nat) => col0.toNat + (if f = .f64 then 2 * n else n)
          row0.toNat + (tileShape f).H ≤ 256 → col (tileShape f).W ≤ 256 →
          ∀ m n, m < (tileShape f).H → n < (tileShape f).W →
            let old := s.cell k (row0.toNat + m) (col n) (decide (f = .f64))
            let now := t.cell k (row0.toNat + m) (col n) (decide (f = .f64))
            let w := if f = .f64 then 64 else 32
            let values := s.groupValues k f slotA.toNat slotB.toNat kc.toNat (scaleOf sc) m n
            let acc := accFmt f
            (f = .i8 → now = ofSigned 32
              ((s.groupInts k slotA.toNat slotB.toNat kc.toNat m n).foldl (· + ·) (toSigned 32 old)) % 2 ^ w) ∧
            (f ≠ .i8 → ordered = true → now = addOrdered acc old values % 2 ^ w) ∧
            (f ≠ .i8 → ordered = false → ∃ leaves x, leaves.Perm (Machine.Num.decode acc old :: values) ∧
              Joined (fun a b => .decode acc ((Machine.Num.add .rne a b).round acc .rne)) leaves x ∧
              now = x.round acc .rne % 2 ^ w)) ∧
        (∀ line value, op = .scaleW line value → t.acc = s.acc ∧ t.scale k line 128 = value.toNat) ∧
        (∀ line values, op = .scaleA line values → values.length ≤ 128 →
          t.acc = s.acc ∧ ∀ j, j < values.length → t.scale k line j = (values.getD j 0).toNat) ∧
        (∀ fmt col0 row0, op = .accz fmt col0 row0 → ∀ r c, r < 256 → c < 256 → (t.cellBad k r c false = true ↔
          s.cellBad k r c false = true ∧ ¬ (row0.toNat ≤ r ∧ r < row0.toNat + (tileShape (fmtOf fmt)).H ∧
            col0.toNat ≤ c / 16 * 16 ∧
            c / 16 * 16 + 16 ≤ col0.toNat + (if fmtOf fmt = .f64 then 2 else 1) * (tileShape (fmtOf fmt)).W))) ∧
        (∀ ordered sc kc fmt col0 row0 slotB slotA, op = .mma ordered sc kc fmt col0 row0 slotB slotA →
          ∀ m n, m < (tileShape (fmtOf fmt)).H → n < (tileShape (fmtOf fmt)).W →
          s.rowBad k slotA.toNat kc.toNat (fmtOf fmt) m = true ∨ s.rowBad k slotB.toNat kc.toNat (fmtOf fmt) n = true →
          t.cellBad k (row0.toNat + m) (col0.toNat + (if fmtOf fmt = .f64 then 2 * n else n)) false = true) ∧
        t.pkg.poison = s.pkg.poison ∧ t.pkg.slotPoison = s.pkg.slotPoison ∧ t.pkg.storePoison = s.pkg.storePoison ∧
        Keeps [.matrix, .agenda, .counters, .others, .free, .poison] s t) ∧
    (∀ c j, q.slot i = .feeder c j → q.releasing.elem i = true → s.slotPending k i c j = false → i < 32 →
      ∃ t : State, exec (.slotFull k i) s = .next t ∧ (t.quad k).slot i = .full ∧ (t.quad k).releasing.elem i = false ∧
        t.slots = s.slots ∧ Keeps [.matrix] s t) ∧
    (q.slot i = .control → q.releasing.elem i = true → (q.ops.any fun op => op.readsSlot i) = false → i < 32 →
      ∃ t : State, exec (.slotFree k i) s = .next t ∧ (t.quad k).slot i = .free ∧ (t.quad k).releasing.elem i = false ∧
        t.slots = s.slots ∧ Keeps [.matrix] s t)

/-! Advice. -/

/-- R286, R287, R289, R291: the advice words that compute, branch and wait for mark events; a realignment passes over queued events
that have no entry. The sequencer of the core takes another turn while a context runs. None writes a register of the hart,
memory, or a trap. A word that is no advice instruction is dropped and counted. -/
def Obligations.AdviceWords : Prop :=
  ∀ (s : State) (d a b : BitVec 4) (i n : BitVec 18) (o : BitVec 14) (k : BitVec 12), Canonical s →
  let v := s.hart.adv
  let next := v.apc + 4
  let turn := fun (t : State) => s.hart.id.control = false → t.hart.adv.state = .running →
    .advice (globalCore s.hart.id) ∈ t.agenda
  let gives := fun (w : Instr) (x : Word) => ∃ t : State, exec w s = .next t ∧
    t.hart.adv = { v with x := if d = 0 then v.x else v.x.set d.toNat x d.isLt, apc := next } ∧ turn t ∧
    Keeps [.advice, .agenda] s t
  let goes := fun (w : Instr) (x : BitVec 32) => ∃ t : State, exec w s = .next t ∧ t.hart.adv = { v with apc := x } ∧ turn t ∧
    Keeps [.advice, .agenda] s t
  let entry := fun (j : BitVec 12) => (v.index.filter fun e => decide (e.1 ≤ j)).getLast?
  let realigned := fun (queue : List (BitVec 12)) =>
    match queue.dropWhile fun j => (entry j).isNone with
    | j :: rest => { v with
        apc := BitVec.ofNat 32 ((entry j).getD (0, 0)).2, state := .running, realignNext := false, queue := rest }
    | [] => { v with state := .idle, realignNext := true, queue := [] }
  gives (.ali d i) (BitVec.ofInt 64 i.toInt) ∧
  gives (.ashor d a i) (BitVec.ofNat 64 ((v.get a).toNat * 2 ^ 18) ||| BitVec.ofNat 64 i.toNat) ∧
  gives (.aadd d a b) (BitVec.ofNat 64 ((v.get a).toNat + (v.get b).toNat)) ∧
  gives (.aaddi d a i) (BitVec.ofInt 64 ((v.get a).toNat + i.toInt)) ∧
  gives (.asll d a i) (BitVec.ofNat 64 ((v.get a).toNat * 2 ^ i.toNat)) ∧
  gives (.amark d) (BitVec.ofNat 64 s.hart.mark.toNat) ∧
  goes .anop next ∧ goes (.ajmp i) (v.apc + BitVec.ofInt 32 (4 * i.toInt)) ∧
  goes (.abeq a b o) (if v.get a = v.get b then v.apc + BitVec.ofInt 32 (4 * o.toInt) else next) ∧
  goes (.abne a b o) (if v.get a = v.get b then next else v.apc + BitVec.ofInt 32 (4 * o.toInt)) ∧
  (∃ t : State, exec (.adelay n) s = .next t ∧ t.hart.adv = { v with apc := next, state := .delaying, delay := n } ∧
    Keeps [.advice] s t) ∧
  (∃ t : State, exec (.aorder i) s = .next t ∧ t.hart.adv = { v with apc := next, order := i.setWidth 2 } ∧ turn t ∧
    Keeps [.advice, .agenda] s t) ∧
  (∃ t : State, exec (.aplace a) s = .next t ∧ t.hart.adv = { v with apc := next, place := (v.get a).setWidth 9 } ∧ turn t ∧
    Keeps [.advice, .agenda] s t) ∧
  (∃ t : State, exec .adviceWordDrop s = .next t ∧ t.hart.adv = { v with apc := next } ∧ turn t ∧
    (Sparse.wf (fun _ => 0) (s.ctx s.hart.ctx).ctr = true →
      t.counter s.hart.ctx 0x791 0 = s.counter s.hart.ctx 0x791 0 + 1) ∧ Keeps [.advice, .agenda, .contexts] s t) ∧
  (let left := v.queue.dropWhile fun j => decide (j < k);
    ∃ t : State, exec (.await k) s = .next t ∧ Keeps [.advice, .agenda, .contexts] s t ∧ turn t ∧
      (left = [] → t.hart.adv = { v with queue := [], state := .awaiting }) ∧
      ∀ j rest, left = j :: rest →
        (j = k → t.hart.adv = { v with queue := rest, apc := next }) ∧
        (j ≠ k → t.hart.adv = realigned (j :: rest) ∧ (Sparse.wf (fun _ => 0) (s.ctx s.hart.ctx).ctr = true →
          t.counter s.hart.ctx 0x790 0 = s.counter s.hart.ctx 0x790 0 + 1))) ∧
  (∃ t : State, exec .aend s = .next t ∧ Keeps [.advice, .agenda] s t ∧ turn t ∧
    (v.queue = [] → t.hart.adv = { v with state := .awaiting }) ∧
    ∀ j rest, v.queue = j :: rest → t.hart.adv = realigned (j :: rest)) ∧
  ∀ who h, s.find who = some h → who.control = false → h.adv.state = .delaying → h.adv.delay = 0 →
    ∃ t : State, exec (.adelayExpiry who) s = .next t ∧
      (t.find who).map (·.adv) = some { h.adv with state := .running, delay := 0 } ∧ .advice (globalCore who) ∈ t.agenda ∧
      Keeps [.advice, .others, .agenda] s t

/-- R292 to R294, R297: the advice words that prefetch, keep tiles and set a priority, and the walks for prefetched lines. Of the lines
that an apf names, those with a canonical address outside the window take the 16 places in flight, in order; the others are dropped and
counted. A line stays in flight while a walk of the hart's core may be waiting, or its own walk has to. A tile's lines that the hart
may read and no engine owns become present while the tile caches have room: which lines replacement takes, each cache being one set, is
the model's choice (log 9). None writes a register of the hart, memory, or a trap. -/
def Obligations.AdviceActions : Prop :=
  ∀ (s : State) (d a b : BitVec 4) (n p : BitVec 18), Canonical s →
  let v := s.hart.adv
  let c := s.hart.ctx
  let next := v.apc + 4
  let turn := fun (t : State) => s.hart.id.control = false → t.hart.adv.state = .running →
    .advice (globalCore s.hart.id) ∈ t.agenda
  let base := (v.get a).toNat / 64 * 64
  let fit := ((List.range n.toNat).map fun k => (base + 64 * k) % 2 ^ 64).filter fun va => canonical va && !inWindow va
  let flying := fit.take (16 - v.inFlight)
  (∀ w ∈ [(Instr.apfL1 a n, PrefetchLevel.l1), (.apfL2 a n, .l2), (.apfTc a n, .tc)],
    ∃ t : State, exec w.1 s = .next t ∧ t.hart.adv = { v with apc := next, inFlight := v.inFlight + flying.length } ∧ turn t ∧
      (∀ va ∈ flying, ∃ (addr : Word) (run k : Nat), .advicePrefetchWalk s.hart.id w.2 addr run ∈ t.agenda ∧ k < run ∧
        va = addr.toNat + 64 * k) ∧
      (Sparse.wf (fun _ => 0) (s.ctx c).ctr = true →
        t.counter c 0x792 0 = s.counter c 0x792 0 + BitVec.ofNat 64 (n.toNat - flying.length)) ∧
      Keeps [.advice, .agenda, .contexts] s t) ∧
  (∃ t : State, exec (.atfetch a b) s = .next t ∧ t.hart.adv = { v with apc := next, inFlight := t.hart.adv.inFlight } ∧ turn t ∧
    v.inFlight ≤ t.hart.adv.inFlight ∧ t.hart.adv.inFlight ≤ max 16 v.inFlight ∧
    (∀ x, (s.ctx c).tensor ((v.get a).setWidth 6) = some x →
      let good := (coordTiles (v.get b).toNat).filter fun q => decide (0 ≤ q.1) && decide (0 ≤ q.2) &&
        x.inRange q.1.toNat q.2.toNat && x.tileMaps q.1.toNat q.2.toNat s.advisedMaps
      let lines := good.flatMap fun q => x.lineAddrs q.1.toNat q.2.toNat
      (Sparse.wf (fun _ => 0) (s.ctx c).ctr = true → t.counter c 0x742 0 = s.counter c 0x742 0 +
        BitVec.ofNat 64 ((coordTiles (v.get b).toNat).length - good.length)) ∧
      ((∀ va ∈ lines, s.prefetchWaits s.hart va = false) → t.hart.adv.inFlight = v.inFlight) ∧
      (v.inFlight < 16 → (∀ va ∈ lines, s.prefetchWaits s.hart va = false) →
        s.pkg.tileCache.length + lines.length ≤ tileLinesPerDie → (∀ va ∈ lines, (s.ctx c).tileAt c va ≠ none) →
        ∀ va ∈ lines, ∀ pa rwx, inWindow va = false → s.walkFor s.hart va = .page pa rwx → Perm.load.allowed rwx = true →
          s.owned (pa / 64) = false → s.atHost (pa / 64) = false → ∃ l ∈ t.pkg.tileCache, l.line = pa / 64)) ∧
    Keeps [.advice, .agenda, .contexts, .caches, .free] s t) ∧
  (∃ t : State, exec (.akeep d a b) s = .next t ∧ t.hart.adv =
      { v with apc := next, x := if d = 0 then v.x else v.x.set d.toNat (BitVec.ofNat 64 (t.ctx c).keptBytes) d.isLt } ∧
    turn t ∧ ((t.ctx c).kept ≠ (s.ctx c).kept → (v.get b).toNat.testBit 48 = false →
      (t.ctx c).keptBytes ≤ (s.tenant (tenantOf c)).kquota.toNat) ∧ Keeps [.advice, .agenda, .contexts] s t) ∧
  (∃ t : State, exec (.aprio p) s = .next t ∧ t.hart.adv = { v with apc := next, prio := p.setWidth 5 } ∧ turn t ∧
    (p.toNat % 32 ≠ 31 → t.hart.prio.toNat =
      max (s.view s.hart.qcb).prioMin.toNat (min (p.toNat % 32) (s.view s.hart.qcb).prioMax.toNat) % 16) ∧
    Keeps [.advice, .agenda, .contexts, .scheduling] s t) ∧
  ∀ who h level addr lines, s.find who = some h → lines ≠ 0 → lines ≤ h.adv.inFlight →
    let line := fun (k : Nat) => (addr.toNat / 64 * 64 + 64 * k) % 2 ^ 64
    ∃ t : State, exec (.advicePrefetchWalk who level addr lines) s = .next t ∧
      ((∀ k, k < lines → s.prefetchWaits h (line k) = false) →
        (t.find who).map (·.adv) = some { h.adv with inFlight := h.adv.inFlight - lines } ∧ t.agenda = s.agenda) ∧
      (lines = 1 → s.prefetchWaits h (line 0) = true → t = s.due (.advicePrefetchWalk who level (BitVec.ofNat 64 (line 0)) 1)) ∧
      (lines = 1 → s.prefetchWaits h (line 0) = false → s.prefetchable h (line 0) = none →
        Sparse.wf (fun _ => 0) (s.ctx h.ctx).ctr = true → t.counter h.ctx 0x792 0 = s.counter h.ctx 0x792 0 + 1) ∧
      Keeps [.advice, .others, .agenda, .contexts, .caches, .free] s t

/-! Messages, the Loom, the ends of waits, repair, and the privileged writes. -/

/-- R133, R283, R284, R313: command messages and SPDM requests of an endpoint that is not bound are dropped and counted. Those of a
bound endpoint are performed in the order of their delivery: behind a message that waits they wait, else they are answered, a
write and a read after their bytes have moved under the endpoint's context; VERSION names SPDM 1.3, ALGORITHMS RSASSA with a 4,096-bit
key and SHA-512. The host on the CXL port reads and writes physical addresses, and is never given a poisoned granule. The SPDM codes
and the places of fields in the replies are the model's (PRESUMED, log 20); so are the empty reply to a read of a poisoned granule, and
that nothing is taken or answered while the port is dead (DEDUCED, log 29). -/
def Obligations.Messages : Prop :=
  ∀ (s : State) (ep : BitVec 12) (q r a n : Word) (data : List Byte) (code slot index : BitVec 8) (x y : BitVec 16)
    (nonce : BitVec 256) (pa : BitVec 52) (k : Nat), Canonical s →
  let drops := fun (i : Instr) => ∃ t : State, exec i s = .next t ∧ t.pkg.dec.getD 6 0 = s.pkg.dec.getD 6 0 + 1 ∧
    (s.endpoint ep = none → Keeps [.package] s t) ∧ (∀ c, s.endpoint ep = some c → Keeps [.package, .tenants] s t ∧
      (t.tenant (tenantOf c)).dec.getD 6 0 = (s.tenant (tenantOf c)).dec.getD 6 0 + 1)
  let answers := fun (i : Instr) (b : Byte) (ok : List Byte → Prop) => ∃ (t : State) (bytes : List Byte), exec i s = .next t ∧
    t.outbox = s.outbox ++ [Reply.spdm ep b bytes] ∧ ok bytes ∧ Keeps [.outbox, .free] s t
  drops (.uecInvalidMessage ep) ∧
  (data.length = 0 ∨ 4096 < data.length → drops (.uecWrite ep a data)) ∧
  (n = 0 ∨ 4096 < n.toNat → drops (.uecRead ep a n)) ∧
  (s.endpoint ep = none → drops (.uecWrite ep a data) ∧ drops (.uecRead ep a n) ∧
    (data.length = 128 → drops (.uecAppend ep q r data)) ∧ drops (.spdmUnsupportedRequest ep code) ∧
    ∀ p ∈ spdmRequests ep x y index nonce, drops p.1) ∧
  (∀ c, s.endpoint ep = some c → (s.pkg.inbox.any fun p => decide (p.1 = ep)) = true → data.length = 128 → n ≠ 0 →
    n.toNat ≤ 4096 → ∀ p ∈ [(Instr.uecAppend ep q r data, Message.append q r data), (.uecWrite ep a data, .write a data),
      (.uecRead ep a n, .read a n), (.getVersion ep, .spdm .version), (.getDigests ep slot, .spdm (.digests slot)),
      (.getMeasurements ep index nonce, .spdm (.measurements index)), (.spdmUnsupportedRequest ep code, .spdm .other)],
    ∃ t : State, exec p.1 s = .next t ∧ t.pkg = { s.pkg with inbox := s.pkg.inbox ++ [(ep, p.2)] } ∧ Due.message ep ∈ t.agenda ∧
      Keeps [.package, .agenda] s t) ∧
  (∀ c, s.endpoint ep = some c → (s.pkg.inbox.any fun p => decide (p.1 = ep)) = false →
    (∀ p ∈ spdmRequests ep x y index nonce, answers p.1 p.2 fun _ => True) ∧
    answers (.getVersion ep) 0x04 (fun b => b = [0, 0, 0, 1, 0x00, 0x13]) ∧
    answers (.negotiateAlgorithms ep) 0x63 (fun b => (b.drop 10).take 8 = [0x20, 0, 0, 0, 0x04, 0, 0, 0]) ∧
    answers (.getMeasurements ep 1 nonce) 0x60 (fun b => b.take 64 = toBytes 64 s.pkg.attPkg.toNat) ∧
    answers (.spdmUnsupportedRequest ep code) 0x7F (fun b => b = [0x07]) ∧
    (slot ≠ 0 → answers (.getDigests ep slot) 0x7F (fun b => b = [0x07]) ∧
      answers (.getCertificate ep slot x y) 0x7F (fun b => b = [0x07]) ∧
      answers (.challenge ep slot nonce) 0x7F (fun b => b = [0x07])) ∧
    ((0 < data.length → data.length ≤ 4096 → ∀ va p, s.reach c .store a.toNat data.length = .found [(va, p, data.length)] →
        ∃ t : State, exec (.uecWrite ep a data) s = .next t ∧ t.outbox = s.outbox ++ [Reply.uec ep true []] ∧
          (Untraced s → s.pkg.late = [] → PutBytes s t p data) ∧ Keeps (.outbox :: deviceEffects) s t) ∧
      (n ≠ 0 → n.toNat ≤ 4096 → ∀ l, s.reach c .load a.toNat n.toNat = .found l → (∀ g ∈ l, s.poisoned g.2.1 = false) →
        ∃ t : State, exec (.uecRead ep a n) s = .next t ∧
          t.outbox = s.outbox ++ [Reply.uec ep true (l.flatMap fun g => s.mem.bytes ((List.range g.2.2).map fun i => g.2.1 + i))] ∧
          StoredNothing s t ∧ Keeps (.outbox :: deviceEffects) s t) ∧
      (data.length = 128 → q.toNat % 512 ≠ 0 ∨ r.toNat % 128 ≠ 0 →
        ∃ t : State, exec (.uecAppend ep q r data) s = .next t ∧ t.outbox = s.outbox ++ [Reply.uec ep false []] ∧
          Keeps [.outbox] s t) ∧
      (data.length = 128 → q.toNat % 512 = 0 → r.toNat % 128 = 0 → ∀ (qva qpa qn : Nat) (rec1 : Nat × Nat × Nat) (more records : List (Nat × Nat × Nat)), qpa < 2 ^ 52 →
        s.reach c .store q.toNat 256 = .found ((qva, qpa, qn) :: more) → s.reach c .store r.toNat 128 = .found (rec1 :: records) →
        openWord (s.qword (BitVec.ofNat 64 qpa) 0) = true →
        tenantOf c = tenantOf (ctxOfWord (s.qword (BitVec.ofNat 64 qpa) 0)) → s.qcbBad (BitVec.ofNat 64 qpa) = false →
        s.tailBusy c (BitVec.ofNat 64 qpa) = false → s.pkg.late = [] →
        (∀ g ∈ rec1 :: records, g.2.1 + g.2.2 ≤ qpa ∨ qpa + 8 ≤ g.2.1) → Untraced s →
        ∃ (t : State) (j : Job), exec (.uecAppend ep q r data) s = .next t ∧ t.outbox = s.outbox ++ [Reply.uec ep true []] ∧
          t.loom.jobs = s.loom.jobs ++ [j] ∧ j.addr = r ∧ j.pa = rec1.2.1 ∧ j.origin = 1 ∧ j.qva = q))) ∧
  (s.pkg.dead.elem .cxlPort = false →
    (0 < data.length → pa.toNat % 64 + data.length ≤ 64 → s.owned (pa.toNat / 64) = false →
      ∃ t : State, exec (.cxlHostWrite pa data) s = .next t ∧
        (Untraced s → s.pkg.late = [] → s.flipping pa.toNat = false → PutBytes s t pa.toNat data) ∧ Keeps deviceEffects s t) ∧
    (0 < k → pa.toNat % 64 + k ≤ 64 → s.owned (pa.toNat / 64) = false → s.poisoned pa.toNat = false →
      ∃ t : State, exec (.cxlHostRead pa k) s = .next t ∧
        t.outbox = s.outbox ++ [Reply.cxl pa.toNat (s.mem.bytes ((List.range k).map fun i => pa.toNat + i))] ∧ StoredNothing s t ∧
        Keeps (.outbox :: deviceEffects) s t) ∧
    (0 < k → pa.toNat % 64 + k ≤ 64 → s.owned (pa.toNat / 64) = false → s.poisoned pa.toNat = true →
      exec (.cxlHostRead pa k) s = .next { s with outbox := s.outbox ++ [Reply.cxl pa.toNat []] })) ∧
  (s.pkg.dead.elem .cxlPort = true → exec (.cxlHostWrite pa data) s = .next s ∧ exec (.cxlHostRead pa k) s = .next s)

/-- R83, R84, R91 to R94: the Loom's events. Those that can place, resume or pre-empt bundles end with the Loom's policy point,
`loomTurn`, of a state that the event has left as said, which serves the QCB of the event even when its last job has just left; where a
line that the Loom needs is owned, the event waits. A window begins at its tick all the same: only the Loom's decision waits. The
model's own: a record read at its append event is pending from then on, in its status word too (log 28), a window with no forecast
written for it has 1,024, and what waits at a tick (log 30), and what the watchdog counts (log 41). -/
def Obligations.LoomSteps : Prop :=
  ∀ (s : State) (q job record : Word) (index : Nat) (x y : BitVec 8), Canonical s →
  let decides := fun (u : State) =>
    if u.loomBusy then (if u.agenda.elem .loomAgain then u else u.due .loomAgain) else u.loomTurn
  (∀ j, (s.loom.jobs.find? fun j => decide (j.qcb = q) && decide (j.addr = record) && !j.read && j.open) = some j →
    (s.loomBusy = true ∨ s.recordBusy j = true →
      exec (.loomAppendEvent q record) s = .next (s.due (.loomAppendEvent q record))) ∧
    (s.loomBusy = false → s.recordBusy j = false → ∃ u : State, exec (.loomAppendEvent q record) s = .next (u.loomTurnFor [q]) ∧
      let v := { s with mem := s.mem.write (j.pa + 0x38) 8 0 }
      ∀ k ds, Untraced s → s.pkg.late = [] → v.qcbMapped j = true → v.recordBad j = false → v.readRecord j = some k →
        v.readDeps j = some ds →
        u.mem = v.mem ∧ u.loom.jobs = s.loom.jobs.map fun x => if x.qcb = q ∧ x.id = j.id then { k with deps := ds } else x)) ∧
  (∀ j, s.job q job = some j → s.loomBusy = false → exec (.dependenceMet q job) s = .next s.loomTurn) ∧
  (∀ b, s.bundle q job index = some b → s.bundleDone b = true → b.runs = true → s.loomBusyWith [q] = false →
    ∃ u t : State, exec (.bundleEnded q job index) s = .next t ∧ (t = u ∨ t = u.loomTurnFor [q]) ∧ b ∉ u.loom.bundles ∧
      (b.ctl = true → (u.quad b.quad).owner = none) ∧ u.mem = s.mem ∧ u.harts = s.harts) ∧
  (∀ j, s.job q job = some j → s.jobDone j = true → s.loomBusy = false →
    ∃ u : State, exec (.jobEnded q job) s = .next (u.loomTurnFor [q]) ∧ (∀ k ∈ u.loom.jobs, ¬ (k.qcb = q ∧ k.id = job)) ∧
      ∀ k ∈ u.loom.jobs, k.open = true → (∀ d ∈ k.deps, d.2 ≠ j.pa)) ∧
  (∃ u : State, exec .windowTick s = .next (decides u) ∧ (∀ d, d < 4 →
    u.loom.forecast.getD d 0 = (s.loom.next.getD d none).getD 1024 ∧ u.loom.next.getD d none = none) ∧
    u.pkg.clockLow = false ∧ Keeps [.loom, .package] s u) ∧
  (∀ b slot reason, s.bundle q job index = some b → b.stage = .saving slot reason → s.loomBusyWith [q] = false →
    ∃ u : State, exec (.preEmptionComplete q job index) s = .next (u.loomTurnFor [q]) ∧
      ∀ k ∈ u.loom.bundles, k.qcb = q → k.job = job → k.index = index → k.stage = .saved slot) ∧
  (∃ t : State, exec (.commandRefused x y) s = .next t ∧ t.loom = { s.loom with refused := s.loom.refused + 1 } ∧ Keeps [.loom] s t) ∧
  (∀ ws base size, (s.loom.held.find? fun p => decide (p.1 = q)) = some (q, ws) → s.ring q = some (base, size) →
    s.ringFull q size = false →
    ∃ t : State, exec (.decRecordFlush q) s = .next t ∧ t.loom.held = s.loom.held.erase (q, ws) ∧
      ((t.heldRecords q) ≠ [] → .decRecordFlush q ∈ t.agenda)) ∧
  (∃ u : State, exec .microcodeWatchdog s = .next (decides u) ∧
    u.loom = { s.loom with image := none } ∧ u.pkg.loomCost = 120 ∧ u.pkg.dec.getD 8 0 = s.pkg.dec.getD 8 0 + 1 ∧
    Keeps [.loom, .package] s u) ∧
  ∀ m, s.loom.reload = some m →
    ∃ t : State, exec .microcodeSwitch s = .next t ∧ t.loom = { s.loom with image := some m, reload := none } ∧
      t.pkg.loomCost = m.cost ∧ Keeps [.loom, .package] s t

/-- R82, R94 to R96, R104, R112, R115, R118, R135, R142, R166, R267, R285, R317: the starts and ends of tasks, and the steps that
end a wait or complete an operation. A task ends once its operations are complete, those of its damo.adds at their units, and its slots
given back. A region that would become host bias while the CXL port is dead is lost instead (the model's reading: log 53). -/
def Obligations.WaitEnds : Prop :=
  (∀ (s : State) (who : AgentId) (h : Hart) (cls : OpClass), Canonical s → s.find who = some h →
    (h.active = true → h.started = false → ∃ t : State, exec (.taskStart who) s = .next t ∧
      (t.find who).map (fun k => (k.started, k.pc, k.getS 1, k.getS 2)) = some (true, h.entry &&& ~~~1#48, h.args, h.task.setWidth 64) ∧
      Keeps [.scalars, .integrity, .pc, .task, .advice, .others, .agenda] s t) ∧
    (h.ending = true → h.draining = true ∨ s.oruPending h = true ∨ s.slotsReleasing h = true →
      exec (.taskEnd who) s = .next (s.due (.taskEnd who))) ∧
    (h.ending = true → h.draining = false → s.oruPending h = false → s.slotsReleasing h = false → ∃ t : State, exec (.taskEnd who) s = .next t ∧
      ∀ k ∈ t.harts, k.active = true → k.id ≠ who) ∧
    (h.active = true → 8 ≤ h.passed → ∃ t : State, exec (.urgent who) s = .next t ∧ (t.find who).map (·.urgent) = some true ∧
      Keeps [.scheduling, .others] s t) ∧
    (h.yielded = 1 → ∃ t : State, exec (.yieldExpiry who) s = .next t ∧ (t.find who).map (·.yielded) = some 0 ∧
      Keeps [.waits, .others] s t) ∧
    (s.completable h cls = true → cls ≠ .tl ∨ h.accStores = [] → ∃ t : State, exec (.operationComplete who cls) s = .next t ∧
      (t.find who).map (·.cnt) = some (h.cnt.add cls (-1)) ∧ Keeps [.counters, .others] s t) ∧
    (∀ x rest, s.completable h .tl = true → h.accStores = x :: rest →
      ∃ t : State, exec (.operationComplete who .tl) s = .next t ∧ (t.find who).map (·.accStores) = some rest ∧
        (t.find who).map (·.cnt.tl) = some (h.cnt.tl - 1) ∧ (∀ g ∈ x.bad, g ∈ t.pkg.poison) ∧ (Untraced s →
          (∀ a, a ∉ x.bytes.map (·.1) → t.mem.byte a = s.mem.byte a) ∧
          ∀ before p after, x.bytes = before ++ p :: after → p.1 ∉ after.map (·.1) → t.mem.byte p.1 = p.2)) ∧
    (h.active = true → bits (s.ctx h.ctx).trcCfg.toNat 31 16 ≠ 0 →
      ∃ t : State, exec (.traceSample who) s = .next t ∧ (Untraced s → t.mem = s.mem) ∧ Keeps traceEffects s t)) ∧
  ∀ (s : State) (core slice die ch pos block region : Nat) (key : BarrierKey), Canonical s →
    (∀ id rest, (s.core core).rowWaiters = id :: rest → ∃ t : State, exec (.rowGrant core) s = .next t ∧
      (t.core core).rowWaiters = rest ∧ (∀ h, s.find id = some h → h.wait = some .rowPool →
        (t.find id).map (·.wait) = some none) ∧ Keeps [.cores, .waits, .others] s t) ∧
    ((s.barrier key).released ≠ (s.barrier key).phase → ∃ t : State, exec (.barrierRelease key) s = .next t ∧
      t.barrier key = { s.barrier key with released := (s.barrier key).released + 1 } ∧
      (∀ k, k ≠ key → t.barrier k = s.barrier k) ∧ Keeps [.barriers] s t) ∧
    (let n := 8 * die + ch;
      let seen := fun (t : State) (p : Nat) => Sparse.get (fun _ => 0) (t.channel n).seen p
      die < 4 → ch < 8 → pos < 144 → Sparse.wf (fun _ => 0) (s.channel n).seen = true → seen s pos < (s.channel n).value →
      ∃ t : State, exec (.shuttlePostObserved die ch pos) s = .next t ∧ seen t pos = (s.channel n).value ∧
        (∀ p, p ≠ pos → seen t p = seen s p) ∧ (t.channel n).value = (s.channel n).value ∧ Keeps [.barriers] s t) ∧
    (∀ p ∈ s.pkg.holds, p.1 = block → ∃ t : State, exec (.reservationHoldExpiry block) s = .next t ∧
      (∀ q ∈ t.pkg.holds, q.1 ≠ block) ∧ Keeps [.package] s t) ∧
    (∀ m, (s.pkg.misses.find? fun m => decide (m.1 = slice)) = some m → ∃ t : State, exec (.missEntryGrant slice) s = .next t ∧
      t.pkg.misses = s.pkg.misses.erase m ∧ Keeps [.package] s t) ∧
    ∀ host, (s.pkg.flips.find? fun f => decide (f.1 = region)) = some (region, host) →
      (∀ h ∈ s.harts ++ s.saved, (∀ c, some c ∈ h.copy.toList → ∀ l ∈ c.lines, l / 2 ^ 15 ≠ region) ∧
        ∀ p ∈ h.accStores, ∀ l ∈ p.lines, l / 2 ^ 15 ≠ region) →
      (∀ w ∈ s.windows, ∀ c ∈ w.contribs, c.addr / 2 ^ 21 ≠ region) →
      ∃ t : State, exec (.biasFlipComplete region) s = .next t ∧ t.pkg.flips = s.pkg.flips.erase (region, host) ∧
        (region ∈ t.pkg.hostBias ↔ host = true ∧ s.pkg.dead.elem .cxlPort = false) ∧
        (host = true → s.pkg.dead.elem .cxlPort = true → region ∈ t.pkg.lostHost) ∧
        (∀ r, r ≠ region → (r ∈ t.pkg.hostBias ↔ r ∈ s.pkg.hostBias)) ∧
        (∀ l ∈ t.pkg.tileCache, l.line / 2 ^ 15 ≠ region) ∧ (∀ d ∈ t.pkg.dir, d.line / 2 ^ 15 ≠ region) ∧
        Keeps [.package, .caches, .contexts] s t

/-- R2, R55, R93, R94, R167, R188, R312 to R316: power-on, deep idle, clocks and drowsy banks, link retries, field repair, and
the death and return of agents, which drops the messages of its old incarnation. A repair does not change the results of any
instruction: it changes the package's tables. The model's own: what a power-on keeps (log 30), which rows a register bank holds (log
52), that a repair is one step with every bundle of the unit pre-empted before it, where slices, memory and links serve all of them (log
31), and what becomes of host-bias memory at the death and the return of the CXL port (log 53). -/
def Obligations.PowerAndRepair : Prop :=
  ∀ (s : State) (slice core bank link k l : Nat) (p : BitVec 6) (p9 : BitVec 9) (gs : List Nat) (dead : DyingAgent), Canonical s →
  (∃ t : State, exec .powerOn s = .next t ∧ t.hart = State.reset.hart ∧ t.parked = [] ∧ t.saved = [] ∧ t.mem = [] ∧ t.lstore = [] ∧
    t.ctxs = [] ∧ t.tenants = [] ∧ t.loom.jobs = [] ∧ t.loom.image = none ∧ t.pkg.loomCost = 120 ∧
    t.pkg.tables = s.pkg.tables ∧ t.pkg.gen = s.pkg.gen ∧ t.pkg.health = s.pkg.health ∧ t.pkg.serial = s.pkg.serial ∧
    t.pkg.worn = s.pkg.worn) ∧
  (∃ t : State, exec .deepIdleEntry s = .next t ∧ t.pkg = { s.pkg with deepIdle := true } ∧ (∀ c, (t.ctx c).trcResync = true) ∧
    (∀ c, (t.ctx c).root = (s.ctx c).root ∧ (t.ctx c).image = (s.ctx c).image) ∧ Keeps [.package, .contexts] s t) ∧
  (s.pkg.deepIdle = true → ∃ t : State, exec .deepIdleExit s = .next t ∧ t.pkg = { s.pkg with deepIdle := false } ∧
    Keeps [.package] s t) ∧
  (∃ t : State, exec .clockLower s = .next t ∧ t.pkg = { s.pkg with clockLow := true } ∧ Keeps [.package] s t) ∧
  (slice < 512 → (s.loom.forecast.getD (slice / 128) 1024).toNat < 512 → s.pkg.drowsy.elem slice = false →
    (∀ m ∈ s.pkg.misses, m.1 ≠ slice) → s.sliceOwned slice = false →
    Sparse.get (fun _ => 0) s.pkg.slicesUsed slice + 20480 ≤ s.now →
    ∃ t : State, exec (.l2DrowsyEntry slice) s = .next t ∧ t.pkg.drowsy = slice :: s.pkg.drowsy ∧ Keeps [.caches] s t) ∧
  (core < 576 → bank < 16 → (bank < 8 → ∀ h ∈ s.coreTasks core, h.id.hart ≠ bank / 2 ^ (3 - s.shareSplit h)) →
    ∃ t : State, exec (.registerBankRetention core bank) s = .next t ∧ bank ∈ (t.core core).retained ∧ Keeps [.cores] s t) ∧
  exec (.linkRetry link false) s = .next s ∧
  ((∀ b ∈ s.loom.bundles, b.slot?.isSome) →
    ∃ t : State, exec (.linkRetry link true) s = .next t ∧ t.pkg.gen = s.pkg.gen + 1 ∧ t.pkg.health ≠ 0 ∧ Keeps [.package] s t) ∧
  (∀ u : RepairUnit, s.repairable u = true → (∀ b ∈ s.loom.bundles, unitServes u b = false ∨ b.slot?.isSome) →
    let spared := fun (num i : Nat) (x : Word) => ∃ t : State, exec (.fieldRepair u) s = .next t ∧ t.table num i = x ∧
      (∀ n j, j < 1024 → i < 1024 → (n ≠ num ∨ j ≠ i) → t.table n j = s.table n j) ∧ t.pkg.gen = s.pkg.gen + 1 ∧
      Keeps (.package :: deviceEffects) s t
    (u = .lane core l (some p) → spared 0x702 core (laneEntry (s.table 0x702 core) l p.toNat)) ∧
    (u = .quad k (some p) → spared 0x701 k (p.setWidth 64)) ∧
    (u = .slice k (some p9) gs → spared 0x703 k (p9.setWidth 64)) ∧
    (u = .quad k none → spared 0x70B k (s.table 0x70B k ||| 16)) ∧
    (u = .lane core l none → spared 0x70B (core / 4) (s.table 0x70B (core / 4) ||| BitVec.ofNat 64 (2 ^ (core % 4))))) ∧
  (∀ u ∈ RepairUnit.slice k none gs :: (if gs = [] then [] else [.hbm link gs, .link link gs]), s.repairable u = true →
    ∃ t : State, exec (.fieldRepair u) s = .next t ∧ (∀ g ∈ gs, g ∈ t.pkg.poison) ∧ t.pkg.health = 3 ∧ t.pkg.gen = s.pkg.gen ∧
      Keeps [.package, .poison] s t) ∧
  exec (.agentResponseTimeout dead) s = exec (.agentFatalError dead) s ∧
  (s.pkg.dead.elem dead = false → ∃ t : State, exec (.agentFatalError dead) s = .next t ∧ t.pkg.dead.elem dead = true ∧
    (∀ q c, dead = .vectorCore q c → ∀ h ∈ t.harts, h.active = true → ¬ (h.id.control = false ∧ h.id.quad = q ∧ h.id.core = c)) ∧
    (∀ q, dead = .matrixEngine q → (t.quad q).running = none ∧ (t.quad q).waiting = [] ∧ t.acc = s.acc ∧ t.slots = s.slots ∧
      t.mem = s.mem) ∧
    (dead = .cxlPort → t.pkg.hostBias = [] ∧ (∀ r ∈ s.pkg.hostBias, r ∈ t.pkg.lostHost) ∧ Keeps [.package] s t) ∧
    (dead = .collectiveEngine → t.pushes = [] ∧ t.xred = [] ∧ ∀ h ∈ s.saved, h.pushing.isSome ∨ h.xredCall.isSome →
      ∃ k ∈ t.saved, k.id = h.id ∧ k.pushing = none ∧ k.xredCall = none ∧ k.lost.elem 33 = true) ∧
    (∀ q c, dead = .gatherEngine q c → Keeps [.package] s t) ∧ (∀ n, dead = .loom n → Keeps [.package] s t)) ∧
  (s.pkg.dead.elem dead = true → let old := fun (id : AgentId) => decide (coreAgent id = dead)
    let posts := s.shuttle.flatMap fun p => (p.2.posts.filter fun x => old x.1 && decide (p.2.observed < x.2)).filterMap fun _ => p.2.ctx
    ∃ t : State, exec (.readmission dead) s = .next t ∧ t.pkg.dead.elem dead = false ∧
    t.pkg.incarnation dead = s.pkg.incarnation dead + 1 ∧ (dead = .cxlPort → t.pkg.lostHost = []) ∧
    t.oruIn = s.oruIn.filter (fun m => !old m.sender) ∧ t.arb.narrowings = s.arb.narrowings.filter (fun m => !old m.partner) ∧
    t.arb.finals = s.arb.finals ∧ (∀ n, t.channel n = (s.channel n).without old) ∧
    (∀ c, Sparse.wf (fun _ => 0) (s.ctx c).ctr = true → t.counter c 0x757 0 = s.counter c 0x757 0 +
      BitVec.ofNat 64 ((s.oruIn.filter fun m => old m.sender && decide (m.ctx = c)).length +
        (s.arb.narrowings.filter fun m => old m.partner && decide (m.ctx = c)).length +
        (posts.filter fun x => decide (x = c)).length)) ∧
    Keeps [.package, .reductions, .contexts, .agenda, .arbiter, .barriers] s t)

/-- R93, R272, R276, R277, R280, R282, R285, R296, R309, R320: the steps of the privileged writes and of the writes of a hart's
own registers. The model's readings: the status of a load that fails, also for a context that does not exist (log 19), a bias index from
2^31 on without effect and a stall.evict write that keeps its count (log 18), a root written to a live context (log 37), and a second
flip to the same bias without effect (log 38). -/
def Obligations.RegisterSteps : Prop :=
  ∀ (s : State) (i v : Word), Canonical s →
  let c := i.setWidth 12
  let grant : BitVec 13 := if v.getLsbD 12 then v.setWidth 13 else 0
  (i.toNat < 4096 → let root := v &&& 0x000FFFFFFFFFF001#64
    ∃ t : State, exec (.ctxRoot i v) s = .next t ∧ Keeps [.contexts, .caches] s t ∧ (∀ k, k ≠ c → t.ctx k = s.ctx k) ∧
      (∀ k ∈ t.pkg.tlb, k ∈ s.pkg.tlb ∧ ((s.ctx c).live = true → k.ctx ≠ c)) ∧
      ((s.ctx c).live = true → t.ctx c = { s.ctx c with root := root }) ∧
      ((s.ctx c).live = false → t.ctx c = if root.getLsbD 0 then { Ctx.none with live := true, root := root } else s.ctx c)) ∧
  (i.toNat < 4096 → (s.ctx c).live = true → ∃ t : State, exec (.ctxEnd i) s = .next t ∧ t.ctx c = Ctx.none ∧
    (∀ p ∈ t.barriers, p.1.ctx ≠ c) ∧ (∀ h ∈ t.saved, h.ctx ≠ c) ∧ (∀ w ∈ t.windows, w.ctx ≠ c) ∧
    (∀ b ∈ t.loom.bundles, b.ctx ≠ c) ∧ (∀ x ∈ t.pkg.tileCache, x.tile.ctx ≠ c) ∧ ∀ x ∈ t.pkg.tlb, x.ctx ≠ c) ∧
  ((s.ctx c).live = false → exec (.ctxEnd i) s = .next s) ∧
  (∀ bs u, i.toNat < 16 → s.bytesFor v.toNat 64 = .ok (bs, u) →
    (tenantValid bs = false → exec (.tenantDesc i v) s = u.takeTrap 6 2 0 0 none) ∧
    (tenantValid bs = true → ∃ t x, exec (.tenantDesc i v) s = .next t ∧ t.tenant i.toNat = x ∧ x.loaded = true ∧
      x.quads = BitVec.ofNat 144 (ofBytes (bs.take 18)) ∧ x.ways.toNat = dword bs 0x18 % 2 ^ 16 ∧
      x.fmask = BitVec.ofNat 64 (dword bs 0x20) ∧ x.kquota = BitVec.ofNat 64 (dword bs 0x28) ∧
      x.iquota = BitVec.ofNat 64 (dword bs 0x30) ∧ x.key = BitVec.ofNat 64 (dword bs 0x38) ∧
      x.dec = (u.tenant i.toNat).dec ∧ t.pkg.attPkg = attExtend u.pkg.attPkg bs ∧ Keeps [.tenants, .package] u t)) ∧
  (i.toNat < 32 → ∃ t : State, exec (.shuttleGrant i v) s = .next t ∧
    t.channel i.toNat = ⟨if v.getLsbD 12 then some (v.setWidth 12) else none, 0, [], []⟩ ∧
    (∀ k, k ≠ i.toNat → t.channel k = s.channel k) ∧ Keeps [.barriers] s t) ∧
  (i.toNat < 1024 → ∃ t : State, exec (.collGrant i v) s = .next t ∧ Sparse.get (fun _ => 0) t.pkg.coll i.toNat = grant ∧
    Keeps [.package] s t) ∧
  (i.toNat < 4096 → ∃ t : State, exec (.uecBind i v) s = .next t ∧ Sparse.get (fun _ => 0) t.pkg.uec i.toNat = grant ∧
    Keeps [.package] s t) ∧
  (i.toNat < 4096 →
    let fails := fun (r : Nat) => ∃ t : State, exec (.codeLoad i v) s = .next t ∧
      (t.ctx c).codeStatus = BitVec.ofNat 64 (r + 0xFF0000) ∧ (t.ctx c).image = (s.ctx c).image ∧
      (t.ctx c).advice = (s.ctx c).advice ∧ (t.ctx c).attCtx = (s.ctx c).attCtx ∧ Keeps deviceEffects s t
    ((s.ctx c).live = false → fails 4) ∧ (∀ r, s.readObject c v.toNat = .error r → r ≠ notYet → fails r) ∧
    (∀ es, s.readObject c v.toNat = .ok es → s.running c = true → fails 6) ∧
    (∀ es e image, s.readObject c v.toNat = .ok es → s.running c = false →
      winner (es.filter fun e => !e.advice && s.eligible c e) = some e → s.bytesIn c (v.toNat + e.off) e.size = .ok image →
      s.chooseAdvice c v.toNat es = .ok none → (s.tenant (tenantOf c)).key = 0 →
      ∃ t : State, exec (.codeLoad i v) s = .next t ∧ (∃ pages, (t.ctx c).image =
          some ⟨BitVec.ofNat 64 ((v.toNat + e.off + e.textOff) % 2 ^ 64), e.textSize, pages⟩) ∧ (t.ctx c).advice = none ∧
        (t.ctx c).codeStatus = BitVec.ofNat 64 (e.index * 256 + 0xFF0000) ∧
        (t.ctx c).attCtx = attExtend (s.ctx c).attCtx image ∧ (t.ctx c).attAdv = 0 ∧ Keeps deviceEffects s t)) ∧
  (∀ es e bs a g, i.toNat < 4096 → s.readObject c v.toNat = .ok es → s.chooseAdvice c v.toNat es = .ok (some (e, bs, a, g)) →
    ∃ t : State, exec (.advLoad i v) s = .next t ∧ (t.ctx c).advice = some a ∧ (t.ctx c).attAdv = attExtend 0 bs ∧
      (t.ctx c).image = (s.ctx c).image ∧ bits (t.ctx c).codeStatus.toNat 15 8 = bits (s.ctx c).codeStatus.toNat 15 8 ∧
      Keeps deviceEffects s t) ∧
  (∀ hd u image w, s.bytesFor v.toNat 24 = .ok (hd, u) → bits (dword hd 0) 31 0 ≤ 2 ^ 18 →
    u.bytesFor v.toNat (bits (dword hd 0) 31 0) = .ok (image, w) →
    ∃ t : State, exec (.loomReload v) s = .next t ∧ t.pkg.attPkg = attExtend w.pkg.attPkg image ∧
      t.loom.reload = some ⟨BitVec.ofNat 16 (dword hd 0 / 2 ^ 32), BitVec.ofNat 32 (dword hd 8), BitVec.ofNat 64 (dword hd 16), image⟩ ∧
      .microcodeSwitch ∈ t.agenda ∧ Keeps [.package, .loom, .agenda] w t) ∧
  (2 ^ 31 ≤ i.toNat ∨ s.finalBias i.toNat = v.getLsbD 0 → exec (.biasFlip i v) s = .next s) ∧
  (i.toNat < 2 ^ 31 → s.finalBias i.toNat ≠ v.getLsbD 0 → ∃ t : State, exec (.biasFlip i v) s = .next t ∧
    t.pkg = { s.pkg with flips := s.pkg.flips ++ [(i.toNat, v.getLsbD 0)] } ∧ .biasFlipComplete i.toNat ∈ t.agenda ∧
    Keeps [.package, .agenda] s t) ∧
  (∃ t : State, exec (.ctxLostClear v) s = .next t ∧ t.ctx s.hart.ctx = { s.ctx s.hart.ctx with lost := (s.ctx s.hart.ctx).lost &&& ~~~v } ∧
    Keeps [.contexts] s t) ∧
  (i.toNat < 16384 → let x := BitVec.ofNat 12 (i.toNat / 4)
    ∃ t : State, exec (.ctxSaveUseClear i v) s = .next t ∧
      (t.ctx x).saveUse.getD (i.toNat % 4) 0 = (s.ctx x).saveUse.getD (i.toNat % 4) 0 &&& ~~~v ∧ Keeps [.contexts] s t) ∧
  (∃ t : State, exec .stallEvictClear s = .next t ∧ t.hart.stalls = [] ∧ t.hart.stallEvict = s.hart.stallEvict ∧
    Keeps [.stalls] s t) ∧
  (∃ t : State, exec (.sysregWrite 0x7B1 i v) s = .next t ∧ (t.ctx s.hart.ctx).trcCfg = v &&& 0xFFFF3FFF#64 ∧ Keeps [.contexts] s t) ∧
  (i.toNat < 4096 → ∃ t : State, exec (.sysregWrite 0x7AA i v) s = .next t ∧ (t.ctx c).save = v &&& 0x1FFFFFFFFF800000#64 ∧
    Keeps [.contexts] s t)

/-! Reset, the step, the encodings, and the canonical form. -/

/-- R4, R36, R84, R93, R94, R115, R271, R272, R282: at reset no context, no tenant and no job exists and no hart holds a
task; the Looms run the boot microcode; no channel has a grant. A task is made with every register of R36 at its Reset value but s1 and
s2, which hold 0 until TASK_START writes the argument block and the task index into them (ObservableEvents states that). The reset
values of registers that the spec gives none for, and the serial number and health of the part, are the model's (DESIGN CHOICE and
PRESUMED, logs 4 and 5); that every byte of memory reads 0 at reset is its choice too (DESIGN CHOICE, log 3). -/
def Obligations.ResetState : Prop :=
  let r := State.reset
  (∀ c, (r.ctx c).live = false) ∧ (∀ t, (r.tenant t).loaded = false) ∧ (∀ h ∈ r.harts, h.active = false) ∧
  r.loom.jobs = [] ∧ r.loom.bundles = [] ∧ r.agenda = [] ∧ r.loom.image = none ∧ r.pkg.loomCost = 120 ∧
  (∀ d, d < 4 → r.loom.forecast.getD d 0 = 1024) ∧ (∀ n, (r.channel n).ctx = none ∧ (r.channel n).value = 0) ∧
  r.pkg.attPkg = 0 ∧ (∀ a, r.mem.byte a = 0) ∧ Canonical r ∧
  ∀ (id : AgentId) (c : BitVec 12) (split : BitVec 2) (j : Job) (b task p fenced : Nat) (entry : BitVec 48),
    let h := newTask id c split j b task entry p fenced
    (∀ n, h.getS n = 0) ∧ (∀ n, h.getV n = 0) ∧ (∀ n, n ≠ 0 → h.getM n = 0) ∧ h.vl = 0 ∧ h.vlPad = 0 ∧ h.vt = 0 ∧ h.sw = 0 ∧
    h.vstart = 0 ∧ h.pc = entry &&& ~~~1#48 ∧ h.parity = [] ∧ (∀ i, i < 32 → h.h.getD i .full = .free) ∧ (∀ q, h.q.getD q none = none) ∧
    (∀ k, h.cnt.get k = 0) ∧ h.ebLo = 0 ∧ h.ebHi = 0 ∧ h.mark = 0 ∧ h.region = none ∧ h.reservation = none ∧ h.claims = [] ∧
    h.trap.vec = 0 ∧ h.trap.cause = 0 ∧ (∀ i, h.bp.getD i 0 = 0) ∧ h.bpDone = none ∧ h.fired = none ∧ h.stalls = [] ∧ h.sent = [] ∧
    h.gates = [] ∧ h.lineBuffer = [] ∧ h.started = false

/-- R2, R58, R70, R95, R197, R287, R301, R305, R313, R321: what a step does. A step that the outside has picked, and one that is due,
performs its row of the table. A hart that is granted issues what its bytes decode to: the granted hart stands first, its ready time
starts again, and one ac passes; the walks of the fetch come first, then a fetch that is stopped, an illegal word, a breakpoint, a lost
register that the instruction reads, in its place among the causes (R301), and then the instruction's own effect; accesses that a
fence.c has put behind the reads of a copy wait for them (R110). Beside that a step re-arms breakpoints (R305), performs device writes
that waited (R128, R285) and aborts the regions that track a line which the device has written or read (R197), nothing else. In deep
idle nothing moves. How steps alternate and what the outside may pick is the model's (DESIGN CHOICE, log 21), and so is that device
writes which wait are tried again at the end of each step (DEDUCED, log 32) and the free value of a fetch (log 54). -/
def Obligations.StepRunsDecoded : Prop :=
  ∀ s : State,
  let issues := fun (u t : State) =>
    let v := u.beginFetch
    (∀ e, v.fetch v.hart = .error e → step t = settled (v.fetchStop e)) ∧
    ∀ w, v.fetch v.hart = .ok w →
      let n := v.noteFetch
      let i := decode v.hart.id.control (v.featMask v.hart.ctx).toNat w.toNat
      (v.lost n = true → step t = settled (.next n)) ∧ (u.hart.region = none → v.lost n = false ∧ Keeps accessEffects u n) ∧
      (v.lost n = false →
        (∀ sub, i = .illegalInstruction sub → step t = settled (exec i n)) ∧
        ((∀ sub, i ≠ .illegalInstruction sub) →
          (n.hart.breakBefore (n.hart.activeOf i) = none →
            (n.hart.fencedOff i = true → step t = settled (n.waitFor .handle)) ∧
            (n.hart.fencedOff i = false →
              (n.hart.readsLost i = false → step t = settled (n.rearm (exec i n))) ∧
              (n.hart.readsLost i = true →
                (∀ k e, n.hart.breakFirst i = some (k, e) → step t = settled (n.breakTrap k e)) ∧
                (n.hart.breakFirst i = none → step t = settled (if n.precedesLoss i = true then n.rearm (exec i n)
                  else n.takeTrap 8 1 0 (n.hart.startOf i) none))))) ∧
          ∀ k e, n.hart.breakBefore (n.hart.activeOf i) = some (k, e) →
            step t = settled (n.breakTrap k (if (n.hart.activeOf i).isSome then min e n.hart.vl.toNat else 0))))
  let same := fun (u : State) (g : Hart) =>
    u.hart = { g with passed := 0, urgent := false } ∧ u.mem = s.mem ∧ u.lstore = s.lstore ∧
    u.slots = s.slots ∧ u.acc = s.acc ∧ u.scales = s.scales ∧ u.quads = s.quads ∧ u.ctxs = s.ctxs ∧ u.tenants = s.tenants ∧
    u.barriers = s.barriers ∧ u.shuttle = s.shuttle ∧ u.arb = { s.arb with beginQueue := u.arb.beginQueue } ∧ u.outbox = s.outbox ∧
    u.loom = s.loom ∧ u.windows = s.windows ∧ u.oruIn = s.oruIn ∧ u.xred = s.xred ∧ u.pushes = s.pushes
  let r := s.tick.refresh
  (∀ a : State, (a.pkg.late = [] → a.pkg.wrote = [] → a.pkg.readLines = [] → settled (.next a) = .next a) ∧
    (∃ b, settled (.next a) = .next b ∧ Keeps (.tenants :: .package :: deviceEffects) a b ∧
      SameRegisters { a.pkg with dec := b.pkg.dec } b.pkg ∧
      (a.pkg.late = [] → Keeps deviceEffects a b ∧ (Untraced a → b.mem = a.mem))) ∧
    ∃ b, s.rearm (.next a) = .next b ∧ Keeps [.breakpoints] a b) ∧
  (s.sched = [] → s.pkg.deepIdle = true → step s = settled (.next s)) ∧
  (s.sched = [] → s.pkg.deepIdle = false → (r.eventTurn && !r.agenda.isEmpty) = false →
    ∀ g, r.grant = some g → issues (r.prepare g) s ∧ same (r.prepare g) g) ∧
  (s.sched = [] → s.pkg.deepIdle = false → r.agenda = [] → r.grant = none → step s = settled (.next r)) ∧
  (∀ d rest i, s.sched = [] → s.pkg.deepIdle = false → r.agenda = d :: rest → r.eventTurn = true ∨ r.grant = none →
    d.instr = some i → let u : State := { r with agenda := rest, eventTurn := false }
    step s = settled (match exec i u with
      | .fault .notDue => .next u
      | x => x)) ∧
  (∀ d rest, s.sched = [] → s.pkg.deepIdle = false → r.agenda = d :: rest → r.eventTurn = true ∨ r.grant = none →
    let u : State := { r with agenda := rest, eventTurn := false }
    (d = .loomAgain → step s = settled (.next u.loomAgain)) ∧
    (∀ ep, d = .message ep → step s = settled (.next (u.deliverNext ep))) ∧
    ∀ core h, d = .advice core → firstTurn (u.core core).adviceLast (u.advisers core) = some h →
      h.adv.apc.toNat + 4 ≤ h.adv.code.length →
      let v := (u.focus h).onCore core fun c => { c with adviceLast := BitVec.ofNat 3 h.id.hart }
      ∀ w, exec (decodeAdvice (ofBytes ((h.adv.code.drop h.adv.apc.toNat).take 4))) v = .next w →
        step s = settled (.next (w.adviceAgain core))) ∧
  (∀ rest who h, s.sched = .hart who :: rest → s.find who = some h → h.retry.ready = true → s.pkg.deepIdle = false →
    let u := State.prepare { s with sched := rest } h.retry
    issues u s ∧ same u h.retry) ∧
  (∀ rest i, s.sched = .event i :: rest → isStep i = true → step s = settled (exec i { s with sched := rest })) ∧
  (∀ rest who h slot, s.sched = .softError (.register who slot) :: rest → s.find who = some h →
    s.pkg.late = [] → s.pkg.wrote = [] → s.pkg.readLines = [] →
    ∃ t, step s = .next t ∧ (t.find who).map (fun k => k.parity.elem slot) = some true ∧ t.agenda = s.agenda ∧ t.sched = rest ∧
      Keeps [.integrity, .others, .agenda] s t) ∧
  (∀ rest g, s.sched = .softError (.memory g) :: rest → s.pkg.late = [] → s.pkg.wrote = [] → s.pkg.readLines = [] →
    ∃ t, step s = .next t ∧ g ∈ t.pkg.poison ∧ t.agenda = s.agenda ∧ t.sched = rest ∧ Keeps [.poison, .agenda] s t) ∧
  ∀ rest who h bytes, s.sched = .advice who :: rest → s.find who = some h → h.adv.state = .running →
    h.adv.apc.toNat + 4 ≤ h.adv.code.length → bytes = (h.adv.code.drop h.adv.apc.toNat).take 4 →
    step s = settled (exec (decodeAdvice (ofBytes bytes)) (State.focus { s with sched := rest } h))

/-- R59 to R77, R291: some words that the spec writes out, one or more of each family, and what they stand for. -/
def Obligations.DecodeWords : Prop :=
  decode false 0 0x001CC501 = .add 7 6 5 ∧ decode false 0 0xFD840811 = .bne 0x7EC 0 8 ∧
  decode false 0 0x02C54621 = .ldd 1 1 10 6 ∧ decode false 0 0x0F9D4629 = .amoadd 15 7 10 6 ∧
  decode false 0 0x2FA0 = .cAddi 5 0x3D ∧ decode false 0 0xFF056A2D = .strip 0x3F8 1 11 10 ∧
  decode false 0 0x12112331 = .fenceC 1 1 1 2 3 ∧ decode false 0 0x02140735 = .ipost 2 1 2 7 ∧
  decode false 0 0xF404A039 = .setc 0x7A0 5 0 ∧ decode false 0 0x16128549 = .vgather 1 3 2 10 5 ∧
  decode false 0 0x00246A65 = .copyCfg 1 1 3 10 ∧ decode false 0 0x00A5456D = .treg 1 9 10 5 ∧
  decode false 0 0x28194571 = .sclaim 6 10 5 ∧ decode false 0 0x2048C475 = .oput 0 9 3 4 ∧
  decode true 0 0x001F814800040003 = .mmaO 63 1 4 128 0 16 0 ∧ decode false 0 0x0B00C4A1 = .vfadd 2 48 3 4 ∧
  decode false 0 0x080105D9 = .vfredsumO 0 4 5 ∧ decodeAdvice 0x2C00000C = .await 12

/-- R58 to R77, R291: decoding gives back every well-formed instruction from its own word, operands at every value; the
word has the size that its low bits say. A T64 word is an instruction of control cores; a 32-bit word decodes on the agents
that it may stand on, where its feature is not masked. -/
def Obligations.EncodeDecode : Prop :=
  ∀ i : Instr, i.wf = true →
  (isAdvice i = true → encode i < 2 ^ 32 ∧ decodeAdvice (encode i) = i) ∧
  (isAdvice i = false →
    encode i < (match encode i % 4 with
      | 1 => 2 ^ 32
      | 3 => 2 ^ 64
      | _ => 2 ^ 16) ∧
    ∀ control masked, (encode i % 4 = 3 → control = true) →
      (encode i % 4 = 1 → misplaced control (encode i) = none ∧ maskedOut masked (encode i) = false) →
      decode control masked (encode i) = i)

/-- Every step keeps every memory and every table in its canonical form (the model's own invariant: two states that hold the
same bytes are equal data). -/
def Obligations.StepKeepsCanonical : Prop :=
  ∀ s t : State, Canonical s → step s = .next t → Canonical t
end

