-- ==== Sys2Proof/Laws/Sparse.lean ====
section
/-! SUPPORT. Tables and memories in canonical form: reading after writing, and every operation keeps the form. -/

namespace Sys2Proof.Machine

variable {α : Type} [DecidableEq α] {dflt : Nat → α}

/-- Every key of the table is above k. -/
def Sparse.above {α : Type} (k : Nat) (l : Sparse α) : Prop := ∀ p ∈ l, k < p.1

/-- The canonical form of a listed entry and the rest. -/
theorem Sparse.wf_cons (j : Nat) (v : α) (l : Sparse α) :
    Sparse.wf dflt ((j, v) :: l) = true ↔ v ≠ dflt j ∧ Sparse.above j l ∧ Sparse.wf dflt l = true := by
  induction l generalizing j v with
  | nil => simp [Sparse.wf, Sparse.above]
  | cons p rest ih =>
    obtain ⟨k, u⟩ := p
    rw [Sparse.wf]
    constructor
    · intro h
      simp only [Bool.and_eq_true, decide_eq_true_eq] at h
      obtain ⟨⟨hv, hjk⟩, hr⟩ := h
      refine ⟨hv, ?_, hr⟩
      intro p hp
      rcases List.mem_cons.1 hp with rfl | hp
      · exact hjk
      · exact Nat.lt_trans hjk (((ih k u).1 hr).2.1 p hp)
    · rintro ⟨hv, ha, hr⟩
      simp only [Bool.and_eq_true, decide_eq_true_eq]
      exact ⟨⟨hv, ha (k, u) (by simp)⟩, hr⟩

omit [DecidableEq α] in
/-- A key below every listed one reads as the default. -/
theorem Sparse.get_of_above {k : Nat} {l : Sparse α} (h : Sparse.above k l) : Sparse.get dflt l k = dflt k := by
  induction l with
  | nil => rfl
  | cons p rest ih =>
    obtain ⟨j, v⟩ := p
    have hk : k ≠ j := Nat.ne_of_lt (h (j, v) (by simp))
    rw [Sparse.get, if_neg hk]
    exact ih fun p hp => h p (List.mem_cons_of_mem _ hp)

/-- The keys after a write are those before it and the one written. -/
theorem Sparse.mem_set {l : Sparse α} {k : Nat} {v : α} {p : Nat × α} (h : p ∈ Sparse.set dflt l k v) : p.1 = k ∨ p ∈ l := by
  induction l with
  | nil =>
    simp only [Sparse.set] at h
    split at h <;> simp_all
  | cons q rest ih =>
    obtain ⟨j, u⟩ := q
    simp only [Sparse.set] at h
    split at h
    · split at h
      · exact .inr h
      · rcases List.mem_cons.1 h with rfl | h
        · exact .inl rfl
        · exact .inr h
    · split at h
      · split at h
        · exact .inr (List.mem_cons_of_mem _ h)
        · rcases List.mem_cons.1 h with rfl | h
          · exact .inl rfl
          · exact .inr (List.mem_cons_of_mem _ h)
      · rcases List.mem_cons.1 h with rfl | h
        · exact .inr (by simp)
        · exact (ih h).imp id (List.mem_cons_of_mem _)

/-- A write keeps the canonical form. -/
theorem Sparse.wf_set {l : Sparse α} (h : Sparse.wf dflt l = true) (k : Nat) (v : α) :
    Sparse.wf dflt (Sparse.set dflt l k v) = true := by
  induction l with
  | nil =>
    simp only [Sparse.set]
    split
    · rfl
    · simpa [Sparse.wf]
  | cons q rest ih =>
    obtain ⟨j, u⟩ := q
    obtain ⟨hu, ha, hr⟩ := (Sparse.wf_cons j u rest).1 h
    simp only [Sparse.set]
    split
    · rename_i hkj
      split
      · exact h
      · rename_i hv
        refine (Sparse.wf_cons _ _ _).2 ⟨hv, ?_, h⟩
        intro p hp
        rcases List.mem_cons.1 hp with rfl | hp
        · exact hkj
        · exact Nat.lt_trans hkj (ha p hp)
    · rename_i hkj
      split
      · rename_i hkj
        subst hkj
        split
        · exact hr
        · rename_i hv
          exact (Sparse.wf_cons _ _ _).2 ⟨hv, ha, hr⟩
      · rename_i hne
        refine (Sparse.wf_cons _ _ _).2 ⟨hu, ?_, ih hr⟩
        intro p hp
        rcases Sparse.mem_set hp with hp | hp
        · omega
        · exact ha p hp

/-- The entry written is the one read. -/
theorem Sparse.get_set_self {l : Sparse α} (h : Sparse.wf dflt l = true) (k : Nat) (v : α) :
    Sparse.get dflt (Sparse.set dflt l k v) k = v := by
  induction l with
  | nil =>
    simp only [Sparse.set]
    split
    · simp_all [Sparse.get]
    · simp [Sparse.get]
  | cons q rest ih =>
    obtain ⟨j, u⟩ := q
    obtain ⟨hu, ha, hr⟩ := (Sparse.wf_cons j u rest).1 h
    simp only [Sparse.set]
    split
    · rename_i hkj
      split
      · rename_i hv
        rw [hv]
        refine Sparse.get_of_above fun p hp => ?_
        rcases List.mem_cons.1 hp with rfl | hp
        · exact hkj
        · exact Nat.lt_trans hkj (ha p hp)
      · simp [Sparse.get]
    · split
      · rename_i hkj
        subst hkj
        split
        · rename_i hv
          rw [hv]
          exact Sparse.get_of_above ha
        · simp [Sparse.get]
      · rename_i hne
        rw [Sparse.get, if_neg hne]
        exact ih hr

/-- Every other entry is unchanged. -/
theorem Sparse.get_set_other (l : Sparse α) {k n : Nat} (v : α) (h : n ≠ k) :
    Sparse.get dflt (Sparse.set dflt l k v) n = Sparse.get dflt l n := by
  induction l with
  | nil =>
    simp only [Sparse.set]
    split <;> simp [Sparse.get, h]
  | cons q rest ih =>
    obtain ⟨j, u⟩ := q
    simp only [Sparse.set]
    split
    · split <;> simp [Sparse.get, h]
    · split
      · rename_i hkj
        subst hkj
        split <;> simp [Sparse.get, h]
      · simp [Sparse.get, ih]

/-- Reading after a write. -/
theorem Sparse.get_set {l : Sparse α} (h : Sparse.wf dflt l = true) (k : Nat) (v : α) (n : Nat) :
    Sparse.get dflt (Sparse.set dflt l k v) n = if n = k then v else Sparse.get dflt l n := by
  split
  · rename_i hn
    rw [hn, Sparse.get_set_self h]
  · rename_i hn
    exact Sparse.get_set_other l v hn

/-- Leaving entries out keeps the canonical form. -/
theorem Sparse.wf_filter {l : Sparse α} (h : Sparse.wf dflt l = true) (p : Nat × α → Bool) :
    Sparse.wf dflt (l.filter p) = true := by
  induction l with
  | nil => rfl
  | cons q rest ih =>
    obtain ⟨j, u⟩ := q
    obtain ⟨hu, ha, hr⟩ := (Sparse.wf_cons j u rest).1 h
    simp only [List.filter_cons]
    split
    · exact (Sparse.wf_cons _ _ _).2 ⟨hu, fun x hx => ha x (List.mem_filter.1 hx).1, ih hr⟩
    · exact ih hr

/-- The entries of a table changed one by one, those that come to hold their default left out: the form is kept. -/
theorem Sparse.wf_map_filter {l : Sparse α} (h : Sparse.wf dflt l = true) (f : α → α) :
    Sparse.wf dflt ((l.map fun p => (p.1, f p.2)).filter fun p => decide (p.2 ≠ dflt p.1)) = true := by
  induction l with
  | nil => rfl
  | cons q rest ih =>
    obtain ⟨j, u⟩ := q
    obtain ⟨-, ha, hr⟩ := (Sparse.wf_cons j u rest).1 h
    simp only [List.map_cons, List.filter_cons]
    split
    · rename_i hd
      refine (Sparse.wf_cons _ _ _).2 ⟨of_decide_eq_true hd, fun x hx => ?_, ih hr⟩
      obtain ⟨y, hy, rfl⟩ := List.mem_map.1 (List.mem_filter.1 hx).1
      exact ha y hy
    · exact ih hr

/-- Two canonical tables that read alike are equal. -/
theorem Sparse.ext {l m : Sparse α} (hl : Sparse.wf dflt l = true) (hm : Sparse.wf dflt m = true)
    (h : ∀ k, Sparse.get dflt l k = Sparse.get dflt m k) : l = m := by
  induction l generalizing m with
  | nil =>
    cases m with
    | nil => rfl
    | cons q rest =>
      obtain ⟨j, u⟩ := q
      have := h j
      simp only [Sparse.get, if_pos] at this
      exact absurd this.symm ((Sparse.wf_cons j u rest).1 hm).1
  | cons p l' ih =>
    obtain ⟨j, u⟩ := p
    obtain ⟨hu, ha, hr⟩ := (Sparse.wf_cons j u l').1 hl
    cases m with
    | nil =>
      have := h j
      simp only [Sparse.get, if_pos] at this
      exact absurd this hu
    | cons q m' =>
      obtain ⟨k, w⟩ := q
      obtain ⟨hw, hb, hs⟩ := (Sparse.wf_cons k w m').1 hm
      rcases Nat.lt_trichotomy j k with hjk | rfl | hkj
      · have := h j
        rw [Sparse.get_of_above (l := (k, w) :: m') (by
          intro x hx
          rcases List.mem_cons.1 hx with rfl | hx
          · exact hjk
          · exact Nat.lt_trans hjk (hb x hx))] at this
        simp only [Sparse.get, if_pos] at this
        exact absurd this hu
      · have huw := h j
        simp only [Sparse.get, if_pos] at huw
        subst huw
        rw [ih hr hs fun n => ?_]
        by_cases hn : n = j
        · subst hn
          rw [Sparse.get_of_above ha, Sparse.get_of_above hb]
        · have := h n
          simpa [Sparse.get, hn] using this
      · have := h k
        rw [Sparse.get_of_above (l := (j, u) :: l') (by
          intro x hx
          rcases List.mem_cons.1 hx with rfl | hx
          · exact hkj
          · exact Nat.lt_trans hkj (ha x hx))] at this
        simp only [Sparse.get, if_pos] at this
        exact absurd this.symm hw

/-! Memory. -/

/-- A written byte keeps the form. -/
theorem Memory.wf_setByte {m : Memory} (h : m.wf = true) (a : Nat) (b : Byte) : (m.setByte a b).wf = true :=
  Sparse.wf_set h a b

/-- Written bytes keep the form. -/
theorem Memory.wf_setBytes {m : Memory} (h : m.wf = true) (l : List (Nat × Byte)) : (m.setBytes l).wf = true := by
  induction l generalizing m with
  | nil => exact h
  | cons p rest ih => exact ih (Memory.wf_setByte h p.1 p.2)

/-- A written number keeps the form. -/
theorem Memory.wf_write {m : Memory} (h : m.wf = true) (a n x : Nat) : (m.write a n x).wf = true := Memory.wf_setBytes h _

/-- Clearing keeps the form. -/
theorem Memory.wf_clear {m : Memory} (h : m.wf = true) (a n : Nat) : (m.clear a n).wf = true := Sparse.wf_filter h _

/-- Reading a byte after one is written. -/
theorem Memory.byte_setByte {m : Memory} (h : m.wf = true) (a : Nat) (b : Byte) (n : Nat) :
    (m.setByte a b).byte n = if n = a then b else m.byte n := Sparse.get_set h a b n

/-- A byte that none of the written ones is stays as it was. -/
theorem Memory.byte_setBytes_other {l : List (Nat × Byte)} (m : Memory) {a : Nat} (h : a ∉ l.map (·.1)) :
    (m.setBytes l).byte a = m.byte a := by
  induction l generalizing m with
  | nil => rfl
  | cons p rest ih =>
    obtain ⟨b, x⟩ := p
    simp only [List.map_cons, List.mem_cons, not_or] at h
    rw [Memory.setBytes, ih _ h.2]
    exact Sparse.get_set_other m x h.1

/-- A byte written, and not written again later, reads as it was written. -/
theorem Memory.byte_setBytes_mem {m : Memory} (h : m.wf = true) {before after : List (Nat × Byte)} {a : Nat} {x : Byte}
    (ha : a ∉ after.map (·.1)) : (m.setBytes (before ++ (a, x) :: after)).byte a = x := by
  induction before generalizing m with
  | nil =>
    rw [List.nil_append, Memory.setBytes, Memory.byte_setBytes_other _ ha]
    exact Sparse.get_set_self h a x
  | cons p rest ih => exact ih (Memory.wf_setByte h p.1 p.2)

/-- The addresses of consecutive bytes. -/
theorem map_fst_zipIdx (bs : List Byte) (a : Nat) :
    (bs.zipIdx.map fun p => (a + p.2, p.1)).map (·.1) = (List.range bs.length).map (a + ·) := by
  rw [List.map_map]
  change bs.zipIdx.map ((a + ·) ∘ Prod.snd) = _
  rw [← List.map_map, List.zipIdx_map_snd, List.range_eq_range']

/-- Reading a byte after consecutive ones are written. -/
theorem Memory.byte_setBytes_run {m : Memory} (h : m.wf = true) (a : Nat) (bs : List Byte) (n : Nat) :
    (m.setBytes (bs.zipIdx.map fun p => (a + p.2, p.1))).byte n =
      if a ≤ n ∧ n < a + bs.length then bs.getD (n - a) 0 else m.byte n := by
  split
  · rename_i hn
    obtain ⟨hle, hlt⟩ := hn
    have hi : n - a < bs.length := by omega
    have hsplit : bs.zipIdx = (bs.take (n - a)).zipIdx ++ (bs[n - a], n - a) :: (bs.drop (n - a + 1)).zipIdx (n - a + 1) := by
      conv_lhs => rw [← List.take_append_drop (n - a) bs, List.zipIdx_append]
      rw [List.drop_eq_getElem_cons hi, List.zipIdx_cons]
      simp [List.length_take, Nat.min_eq_left (Nat.le_of_lt hi)]
    rw [hsplit, List.map_append, List.map_cons]
    have hx : a + (n - a) = n := by omega
    simp only [hx]
    rw [Memory.byte_setBytes_mem h, List.getD_eq_getElem _ _ hi]
    intro hm
    rw [List.mem_map] at hm
    obtain ⟨p, hp, hpn⟩ := hm
    obtain ⟨q, hq, rfl⟩ := List.mem_map.1 hp
    have := List.le_snd_of_mem_zipIdx hq
    simp only at hpn
    omega
  · rename_i hn
    refine Memory.byte_setBytes_other _ ?_
    rw [map_fst_zipIdx]
    simp only [List.mem_map, List.mem_range, not_exists, not_and]
    intro x hx he
    omega

/-- The bytes of a number are as many as asked for. -/
theorem length_toBytes (n x : Nat) : (toBytes n x).length = n := by simp [toBytes]

/-- Reading a byte after a number is written (R30). -/
theorem Memory.byte_write {m : Memory} (h : m.wf = true) (a n x b : Nat) :
    (m.write a n x).byte b = if a ≤ b ∧ b < a + n then BitVec.ofNat 8 (x / 2 ^ (8 * (b - a))) else m.byte b := by
  rw [Memory.write, Memory.byte_setBytes_run h, length_toBytes]
  split
  · rename_i hb
    have : b - a < (toBytes n x).length := by rw [length_toBytes]; omega
    rw [List.getD_eq_getElem _ _ this]
    simp [toBytes, Nat.shiftRight_eq_div_pow]
  · rfl

/-- Reading a byte after a range is cleared. -/
theorem Memory.byte_clear (m : Memory) (a n b : Nat) : (m.clear a n).byte b = if a ≤ b ∧ b < a + n then 0 else m.byte b := by
  induction m with
  | nil =>
    change (0 : Byte) = _
    split <;> rfl
  | cons p rest ih =>
    obtain ⟨j, u⟩ := p
    simp only [Memory.clear, Memory.byte, List.filter_cons] at ih ⊢
    split
    · rename_i hj
      simp only [Bool.or_eq_true, decide_eq_true_eq] at hj
      simp only [Sparse.get]
      split
      · rename_i hb
        rw [if_neg (by omega)]
      · exact ih
    · rename_i hj
      simp only [Bool.or_eq_true, decide_eq_true_eq, not_or, not_lt, not_le] at hj
      rw [ih, Sparse.get]
      by_cases hb : b = j
      · rw [if_pos (by omega), if_pos (by omega)]
      · simp only [if_neg hb]

end Sys2Proof.Machine
end

