-- ==== Sys2Proof/Laws/State.lean ====
section
/-! SUPPORT. One lemma for each field and each named update of the state and of a hart: what the update leaves alone and
what it sets. -/

namespace Sys2Proof.Machine

/-! on -/

@[simp] theorem State.on_hart (s : State) (f : Hart → Hart) : (s.on f).hart = f s.hart := rfl
@[simp] theorem State.on_parked (s : State) (f : Hart → Hart) : (s.on f).parked = s.parked := rfl
@[simp] theorem State.on_saved (s : State) (f : Hart → Hart) : (s.on f).saved = s.saved := rfl
@[simp] theorem State.on_sched (s : State) (f : Hart → Hart) : (s.on f).sched = s.sched := rfl
@[simp] theorem State.on_agenda (s : State) (f : Hart → Hart) : (s.on f).agenda = s.agenda := rfl
@[simp] theorem State.on_eventTurn (s : State) (f : Hart → Hart) : (s.on f).eventTurn = s.eventTurn := rfl
@[simp] theorem State.on_free (s : State) (f : Hart → Hart) : (s.on f).free = s.free := rfl
@[simp] theorem State.on_outbox (s : State) (f : Hart → Hart) : (s.on f).outbox = s.outbox := rfl
@[simp] theorem State.on_mem (s : State) (f : Hart → Hart) : (s.on f).mem = s.mem := rfl
@[simp] theorem State.on_lstore (s : State) (f : Hart → Hart) : (s.on f).lstore = s.lstore := rfl
@[simp] theorem State.on_slots (s : State) (f : Hart → Hart) : (s.on f).slots = s.slots := rfl
@[simp] theorem State.on_acc (s : State) (f : Hart → Hart) : (s.on f).acc = s.acc := rfl
@[simp] theorem State.on_scales (s : State) (f : Hart → Hart) : (s.on f).scales = s.scales := rfl
@[simp] theorem State.on_quads (s : State) (f : Hart → Hart) : (s.on f).quads = s.quads := rfl
@[simp] theorem State.on_cores (s : State) (f : Hart → Hart) : (s.on f).cores = s.cores := rfl
@[simp] theorem State.on_barriers (s : State) (f : Hart → Hart) : (s.on f).barriers = s.barriers := rfl
@[simp] theorem State.on_shuttle (s : State) (f : Hart → Hart) : (s.on f).shuttle = s.shuttle := rfl
@[simp] theorem State.on_ctxs (s : State) (f : Hart → Hart) : (s.on f).ctxs = s.ctxs := rfl
@[simp] theorem State.on_tenants (s : State) (f : Hart → Hart) : (s.on f).tenants = s.tenants := rfl
@[simp] theorem State.on_pkg (s : State) (f : Hart → Hart) : (s.on f).pkg = s.pkg := rfl
@[simp] theorem State.on_arb (s : State) (f : Hart → Hart) : (s.on f).arb = s.arb := rfl
@[simp] theorem State.on_oruIn (s : State) (f : Hart → Hart) : (s.on f).oruIn = s.oruIn := rfl
@[simp] theorem State.on_windows (s : State) (f : Hart → Hart) : (s.on f).windows = s.windows := rfl
@[simp] theorem State.on_xred (s : State) (f : Hart → Hart) : (s.on f).xred = s.xred := rfl
@[simp] theorem State.on_pushes (s : State) (f : Hart → Hart) : (s.on f).pushes = s.pushes := rfl
@[simp] theorem State.on_loom (s : State) (f : Hart → Hart) : (s.on f).loom = s.loom := rfl

/-! update -/

@[simp] theorem State.update_hart (s : State) (id : AgentId) (f : Hart → Hart) : (s.update id f).hart = (if s.hart.id = id then f s.hart else s.hart) := rfl
@[simp] theorem State.update_parked (s : State) (id : AgentId) (f : Hart → Hart) : (s.update id f).parked = (s.parked.map fun h => if h.id = id then f h else h) := rfl
@[simp] theorem State.update_saved (s : State) (id : AgentId) (f : Hart → Hart) : (s.update id f).saved = s.saved := rfl
@[simp] theorem State.update_sched (s : State) (id : AgentId) (f : Hart → Hart) : (s.update id f).sched = s.sched := rfl
@[simp] theorem State.update_agenda (s : State) (id : AgentId) (f : Hart → Hart) : (s.update id f).agenda = s.agenda := rfl
@[simp] theorem State.update_eventTurn (s : State) (id : AgentId) (f : Hart → Hart) : (s.update id f).eventTurn = s.eventTurn := rfl
@[simp] theorem State.update_free (s : State) (id : AgentId) (f : Hart → Hart) : (s.update id f).free = s.free := rfl
@[simp] theorem State.update_outbox (s : State) (id : AgentId) (f : Hart → Hart) : (s.update id f).outbox = s.outbox := rfl
@[simp] theorem State.update_mem (s : State) (id : AgentId) (f : Hart → Hart) : (s.update id f).mem = s.mem := rfl
@[simp] theorem State.update_lstore (s : State) (id : AgentId) (f : Hart → Hart) : (s.update id f).lstore = s.lstore := rfl
@[simp] theorem State.update_slots (s : State) (id : AgentId) (f : Hart → Hart) : (s.update id f).slots = s.slots := rfl
@[simp] theorem State.update_acc (s : State) (id : AgentId) (f : Hart → Hart) : (s.update id f).acc = s.acc := rfl
@[simp] theorem State.update_scales (s : State) (id : AgentId) (f : Hart → Hart) : (s.update id f).scales = s.scales := rfl
@[simp] theorem State.update_quads (s : State) (id : AgentId) (f : Hart → Hart) : (s.update id f).quads = s.quads := rfl
@[simp] theorem State.update_cores (s : State) (id : AgentId) (f : Hart → Hart) : (s.update id f).cores = s.cores := rfl
@[simp] theorem State.update_barriers (s : State) (id : AgentId) (f : Hart → Hart) : (s.update id f).barriers = s.barriers := rfl
@[simp] theorem State.update_shuttle (s : State) (id : AgentId) (f : Hart → Hart) : (s.update id f).shuttle = s.shuttle := rfl
@[simp] theorem State.update_ctxs (s : State) (id : AgentId) (f : Hart → Hart) : (s.update id f).ctxs = s.ctxs := rfl
@[simp] theorem State.update_tenants (s : State) (id : AgentId) (f : Hart → Hart) : (s.update id f).tenants = s.tenants := rfl
@[simp] theorem State.update_pkg (s : State) (id : AgentId) (f : Hart → Hart) : (s.update id f).pkg = s.pkg := rfl
@[simp] theorem State.update_arb (s : State) (id : AgentId) (f : Hart → Hart) : (s.update id f).arb = s.arb := rfl
@[simp] theorem State.update_oruIn (s : State) (id : AgentId) (f : Hart → Hart) : (s.update id f).oruIn = s.oruIn := rfl
@[simp] theorem State.update_windows (s : State) (id : AgentId) (f : Hart → Hart) : (s.update id f).windows = s.windows := rfl
@[simp] theorem State.update_xred (s : State) (id : AgentId) (f : Hart → Hart) : (s.update id f).xred = s.xred := rfl
@[simp] theorem State.update_pushes (s : State) (id : AgentId) (f : Hart → Hart) : (s.update id f).pushes = s.pushes := rfl
@[simp] theorem State.update_loom (s : State) (id : AgentId) (f : Hart → Hart) : (s.update id f).loom = s.loom := rfl

/-! updateAll -/

@[simp] theorem State.updateAll_hart (s : State) (f : Hart → Hart) : (s.updateAll f).hart = f s.hart := rfl
@[simp] theorem State.updateAll_parked (s : State) (f : Hart → Hart) : (s.updateAll f).parked = s.parked.map f := rfl
@[simp] theorem State.updateAll_saved (s : State) (f : Hart → Hart) : (s.updateAll f).saved = s.saved := rfl
@[simp] theorem State.updateAll_sched (s : State) (f : Hart → Hart) : (s.updateAll f).sched = s.sched := rfl
@[simp] theorem State.updateAll_agenda (s : State) (f : Hart → Hart) : (s.updateAll f).agenda = s.agenda := rfl
@[simp] theorem State.updateAll_eventTurn (s : State) (f : Hart → Hart) : (s.updateAll f).eventTurn = s.eventTurn := rfl
@[simp] theorem State.updateAll_free (s : State) (f : Hart → Hart) : (s.updateAll f).free = s.free := rfl
@[simp] theorem State.updateAll_outbox (s : State) (f : Hart → Hart) : (s.updateAll f).outbox = s.outbox := rfl
@[simp] theorem State.updateAll_mem (s : State) (f : Hart → Hart) : (s.updateAll f).mem = s.mem := rfl
@[simp] theorem State.updateAll_lstore (s : State) (f : Hart → Hart) : (s.updateAll f).lstore = s.lstore := rfl
@[simp] theorem State.updateAll_slots (s : State) (f : Hart → Hart) : (s.updateAll f).slots = s.slots := rfl
@[simp] theorem State.updateAll_acc (s : State) (f : Hart → Hart) : (s.updateAll f).acc = s.acc := rfl
@[simp] theorem State.updateAll_scales (s : State) (f : Hart → Hart) : (s.updateAll f).scales = s.scales := rfl
@[simp] theorem State.updateAll_quads (s : State) (f : Hart → Hart) : (s.updateAll f).quads = s.quads := rfl
@[simp] theorem State.updateAll_cores (s : State) (f : Hart → Hart) : (s.updateAll f).cores = s.cores := rfl
@[simp] theorem State.updateAll_barriers (s : State) (f : Hart → Hart) : (s.updateAll f).barriers = s.barriers := rfl
@[simp] theorem State.updateAll_shuttle (s : State) (f : Hart → Hart) : (s.updateAll f).shuttle = s.shuttle := rfl
@[simp] theorem State.updateAll_ctxs (s : State) (f : Hart → Hart) : (s.updateAll f).ctxs = s.ctxs := rfl
@[simp] theorem State.updateAll_tenants (s : State) (f : Hart → Hart) : (s.updateAll f).tenants = s.tenants := rfl
@[simp] theorem State.updateAll_pkg (s : State) (f : Hart → Hart) : (s.updateAll f).pkg = s.pkg := rfl
@[simp] theorem State.updateAll_arb (s : State) (f : Hart → Hart) : (s.updateAll f).arb = s.arb := rfl
@[simp] theorem State.updateAll_oruIn (s : State) (f : Hart → Hart) : (s.updateAll f).oruIn = s.oruIn := rfl
@[simp] theorem State.updateAll_windows (s : State) (f : Hart → Hart) : (s.updateAll f).windows = s.windows := rfl
@[simp] theorem State.updateAll_xred (s : State) (f : Hart → Hart) : (s.updateAll f).xred = s.xred := rfl
@[simp] theorem State.updateAll_pushes (s : State) (f : Hart → Hart) : (s.updateAll f).pushes = s.pushes := rfl
@[simp] theorem State.updateAll_loom (s : State) (f : Hart → Hart) : (s.updateAll f).loom = s.loom := rfl

/-! ws -/

@[simp] theorem State.ws_hart (s : State) (r : BitVec 5) (x : Word) : (s.ws r x).hart = s.hart.setS r x := rfl
@[simp] theorem State.ws_parked (s : State) (r : BitVec 5) (x : Word) : (s.ws r x).parked = s.parked := rfl
@[simp] theorem State.ws_saved (s : State) (r : BitVec 5) (x : Word) : (s.ws r x).saved = s.saved := rfl
@[simp] theorem State.ws_sched (s : State) (r : BitVec 5) (x : Word) : (s.ws r x).sched = s.sched := rfl
@[simp] theorem State.ws_agenda (s : State) (r : BitVec 5) (x : Word) : (s.ws r x).agenda = s.agenda := rfl
@[simp] theorem State.ws_eventTurn (s : State) (r : BitVec 5) (x : Word) : (s.ws r x).eventTurn = s.eventTurn := rfl
@[simp] theorem State.ws_free (s : State) (r : BitVec 5) (x : Word) : (s.ws r x).free = s.free := rfl
@[simp] theorem State.ws_outbox (s : State) (r : BitVec 5) (x : Word) : (s.ws r x).outbox = s.outbox := rfl
@[simp] theorem State.ws_mem (s : State) (r : BitVec 5) (x : Word) : (s.ws r x).mem = s.mem := rfl
@[simp] theorem State.ws_lstore (s : State) (r : BitVec 5) (x : Word) : (s.ws r x).lstore = s.lstore := rfl
@[simp] theorem State.ws_slots (s : State) (r : BitVec 5) (x : Word) : (s.ws r x).slots = s.slots := rfl
@[simp] theorem State.ws_acc (s : State) (r : BitVec 5) (x : Word) : (s.ws r x).acc = s.acc := rfl
@[simp] theorem State.ws_scales (s : State) (r : BitVec 5) (x : Word) : (s.ws r x).scales = s.scales := rfl
@[simp] theorem State.ws_quads (s : State) (r : BitVec 5) (x : Word) : (s.ws r x).quads = s.quads := rfl
@[simp] theorem State.ws_cores (s : State) (r : BitVec 5) (x : Word) : (s.ws r x).cores = s.cores := rfl
@[simp] theorem State.ws_barriers (s : State) (r : BitVec 5) (x : Word) : (s.ws r x).barriers = s.barriers := rfl
@[simp] theorem State.ws_shuttle (s : State) (r : BitVec 5) (x : Word) : (s.ws r x).shuttle = s.shuttle := rfl
@[simp] theorem State.ws_ctxs (s : State) (r : BitVec 5) (x : Word) : (s.ws r x).ctxs = s.ctxs := rfl
@[simp] theorem State.ws_tenants (s : State) (r : BitVec 5) (x : Word) : (s.ws r x).tenants = s.tenants := rfl
@[simp] theorem State.ws_pkg (s : State) (r : BitVec 5) (x : Word) : (s.ws r x).pkg = s.pkg := rfl
@[simp] theorem State.ws_arb (s : State) (r : BitVec 5) (x : Word) : (s.ws r x).arb = s.arb := rfl
@[simp] theorem State.ws_oruIn (s : State) (r : BitVec 5) (x : Word) : (s.ws r x).oruIn = s.oruIn := rfl
@[simp] theorem State.ws_windows (s : State) (r : BitVec 5) (x : Word) : (s.ws r x).windows = s.windows := rfl
@[simp] theorem State.ws_xred (s : State) (r : BitVec 5) (x : Word) : (s.ws r x).xred = s.xred := rfl
@[simp] theorem State.ws_pushes (s : State) (r : BitVec 5) (x : Word) : (s.ws r x).pushes = s.pushes := rfl
@[simp] theorem State.ws_loom (s : State) (r : BitVec 5) (x : Word) : (s.ws r x).loom = s.loom := rfl

/-! skip -/

@[simp] theorem State.skip_parked (s : State) (n : Nat) : (s.skip n).parked = s.parked := rfl
@[simp] theorem State.skip_saved (s : State) (n : Nat) : (s.skip n).saved = s.saved := rfl
@[simp] theorem State.skip_sched (s : State) (n : Nat) : (s.skip n).sched = s.sched := rfl
@[simp] theorem State.skip_agenda (s : State) (n : Nat) : (s.skip n).agenda = s.agenda := rfl
@[simp] theorem State.skip_eventTurn (s : State) (n : Nat) : (s.skip n).eventTurn = s.eventTurn := rfl
@[simp] theorem State.skip_free (s : State) (n : Nat) : (s.skip n).free = s.free := rfl
@[simp] theorem State.skip_outbox (s : State) (n : Nat) : (s.skip n).outbox = s.outbox := rfl
@[simp] theorem State.skip_mem (s : State) (n : Nat) : (s.skip n).mem = s.mem := rfl
@[simp] theorem State.skip_lstore (s : State) (n : Nat) : (s.skip n).lstore = s.lstore := rfl
@[simp] theorem State.skip_slots (s : State) (n : Nat) : (s.skip n).slots = s.slots := rfl
@[simp] theorem State.skip_acc (s : State) (n : Nat) : (s.skip n).acc = s.acc := rfl
@[simp] theorem State.skip_scales (s : State) (n : Nat) : (s.skip n).scales = s.scales := rfl
@[simp] theorem State.skip_quads (s : State) (n : Nat) : (s.skip n).quads = s.quads := rfl
@[simp] theorem State.skip_cores (s : State) (n : Nat) : (s.skip n).cores = s.cores := rfl
@[simp] theorem State.skip_barriers (s : State) (n : Nat) : (s.skip n).barriers = s.barriers := rfl
@[simp] theorem State.skip_shuttle (s : State) (n : Nat) : (s.skip n).shuttle = s.shuttle := rfl
@[simp] theorem State.skip_ctxs (s : State) (n : Nat) : (s.skip n).ctxs = s.ctxs := rfl
@[simp] theorem State.skip_tenants (s : State) (n : Nat) : (s.skip n).tenants = s.tenants := rfl
@[simp] theorem State.skip_pkg (s : State) (n : Nat) : (s.skip n).pkg = s.pkg := rfl
@[simp] theorem State.skip_arb (s : State) (n : Nat) : (s.skip n).arb = s.arb := rfl
@[simp] theorem State.skip_oruIn (s : State) (n : Nat) : (s.skip n).oruIn = s.oruIn := rfl
@[simp] theorem State.skip_windows (s : State) (n : Nat) : (s.skip n).windows = s.windows := rfl
@[simp] theorem State.skip_xred (s : State) (n : Nat) : (s.skip n).xred = s.xred := rfl
@[simp] theorem State.skip_pushes (s : State) (n : Nat) : (s.skip n).pushes = s.pushes := rfl
@[simp] theorem State.skip_loom (s : State) (n : Nat) : (s.skip n).loom = s.loom := rfl

/-! jump -/

@[simp] theorem State.jump_parked (s : State) (a : BitVec 48) : (s.jump a).parked = s.parked := rfl
@[simp] theorem State.jump_saved (s : State) (a : BitVec 48) : (s.jump a).saved = s.saved := rfl
@[simp] theorem State.jump_sched (s : State) (a : BitVec 48) : (s.jump a).sched = s.sched := rfl
@[simp] theorem State.jump_agenda (s : State) (a : BitVec 48) : (s.jump a).agenda = s.agenda := rfl
@[simp] theorem State.jump_eventTurn (s : State) (a : BitVec 48) : (s.jump a).eventTurn = s.eventTurn := rfl
@[simp] theorem State.jump_free (s : State) (a : BitVec 48) : (s.jump a).free = s.free := rfl
@[simp] theorem State.jump_outbox (s : State) (a : BitVec 48) : (s.jump a).outbox = s.outbox := rfl
@[simp] theorem State.jump_mem (s : State) (a : BitVec 48) : (s.jump a).mem = s.mem := rfl
@[simp] theorem State.jump_lstore (s : State) (a : BitVec 48) : (s.jump a).lstore = s.lstore := rfl
@[simp] theorem State.jump_slots (s : State) (a : BitVec 48) : (s.jump a).slots = s.slots := rfl
@[simp] theorem State.jump_acc (s : State) (a : BitVec 48) : (s.jump a).acc = s.acc := rfl
@[simp] theorem State.jump_scales (s : State) (a : BitVec 48) : (s.jump a).scales = s.scales := rfl
@[simp] theorem State.jump_quads (s : State) (a : BitVec 48) : (s.jump a).quads = s.quads := rfl
@[simp] theorem State.jump_cores (s : State) (a : BitVec 48) : (s.jump a).cores = s.cores := rfl
@[simp] theorem State.jump_barriers (s : State) (a : BitVec 48) : (s.jump a).barriers = s.barriers := rfl
@[simp] theorem State.jump_shuttle (s : State) (a : BitVec 48) : (s.jump a).shuttle = s.shuttle := rfl
@[simp] theorem State.jump_ctxs (s : State) (a : BitVec 48) : (s.jump a).ctxs = s.ctxs := rfl
@[simp] theorem State.jump_tenants (s : State) (a : BitVec 48) : (s.jump a).tenants = s.tenants := rfl
@[simp] theorem State.jump_pkg (s : State) (a : BitVec 48) : (s.jump a).pkg = s.pkg := rfl
@[simp] theorem State.jump_arb (s : State) (a : BitVec 48) : (s.jump a).arb = s.arb := rfl
@[simp] theorem State.jump_oruIn (s : State) (a : BitVec 48) : (s.jump a).oruIn = s.oruIn := rfl
@[simp] theorem State.jump_windows (s : State) (a : BitVec 48) : (s.jump a).windows = s.windows := rfl
@[simp] theorem State.jump_xred (s : State) (a : BitVec 48) : (s.jump a).xred = s.xred := rfl
@[simp] theorem State.jump_pushes (s : State) (a : BitVec 48) : (s.jump a).pushes = s.pushes := rfl
@[simp] theorem State.jump_loom (s : State) (a : BitVec 48) : (s.jump a).loom = s.loom := rfl

/-! due -/

@[simp] theorem State.due_hart (s : State) (d : Due) : (s.due d).hart = s.hart := rfl
@[simp] theorem State.due_parked (s : State) (d : Due) : (s.due d).parked = s.parked := rfl
@[simp] theorem State.due_saved (s : State) (d : Due) : (s.due d).saved = s.saved := rfl
@[simp] theorem State.due_sched (s : State) (d : Due) : (s.due d).sched = s.sched := rfl
@[simp] theorem State.due_agenda (s : State) (d : Due) : (s.due d).agenda = s.agenda ++ [d] := rfl
@[simp] theorem State.due_eventTurn (s : State) (d : Due) : (s.due d).eventTurn = s.eventTurn := rfl
@[simp] theorem State.due_free (s : State) (d : Due) : (s.due d).free = s.free := rfl
@[simp] theorem State.due_outbox (s : State) (d : Due) : (s.due d).outbox = s.outbox := rfl
@[simp] theorem State.due_mem (s : State) (d : Due) : (s.due d).mem = s.mem := rfl
@[simp] theorem State.due_lstore (s : State) (d : Due) : (s.due d).lstore = s.lstore := rfl
@[simp] theorem State.due_slots (s : State) (d : Due) : (s.due d).slots = s.slots := rfl
@[simp] theorem State.due_acc (s : State) (d : Due) : (s.due d).acc = s.acc := rfl
@[simp] theorem State.due_scales (s : State) (d : Due) : (s.due d).scales = s.scales := rfl
@[simp] theorem State.due_quads (s : State) (d : Due) : (s.due d).quads = s.quads := rfl
@[simp] theorem State.due_cores (s : State) (d : Due) : (s.due d).cores = s.cores := rfl
@[simp] theorem State.due_barriers (s : State) (d : Due) : (s.due d).barriers = s.barriers := rfl
@[simp] theorem State.due_shuttle (s : State) (d : Due) : (s.due d).shuttle = s.shuttle := rfl
@[simp] theorem State.due_ctxs (s : State) (d : Due) : (s.due d).ctxs = s.ctxs := rfl
@[simp] theorem State.due_tenants (s : State) (d : Due) : (s.due d).tenants = s.tenants := rfl
@[simp] theorem State.due_pkg (s : State) (d : Due) : (s.due d).pkg = s.pkg := rfl
@[simp] theorem State.due_arb (s : State) (d : Due) : (s.due d).arb = s.arb := rfl
@[simp] theorem State.due_oruIn (s : State) (d : Due) : (s.due d).oruIn = s.oruIn := rfl
@[simp] theorem State.due_windows (s : State) (d : Due) : (s.due d).windows = s.windows := rfl
@[simp] theorem State.due_xred (s : State) (d : Due) : (s.due d).xred = s.xred := rfl
@[simp] theorem State.due_pushes (s : State) (d : Due) : (s.due d).pushes = s.pushes := rfl
@[simp] theorem State.due_loom (s : State) (d : Due) : (s.due d).loom = s.loom := rfl

/-! fresh -/

@[simp] theorem State.fresh_hart (s : State) : (s.fresh).hart = s.hart := rfl
@[simp] theorem State.fresh_parked (s : State) : (s.fresh).parked = s.parked := rfl
@[simp] theorem State.fresh_saved (s : State) : (s.fresh).saved = s.saved := rfl
@[simp] theorem State.fresh_sched (s : State) : (s.fresh).sched = s.sched := rfl
@[simp] theorem State.fresh_agenda (s : State) : (s.fresh).agenda = s.agenda := rfl
@[simp] theorem State.fresh_eventTurn (s : State) : (s.fresh).eventTurn = s.eventTurn := rfl
@[simp] theorem State.fresh_free (s : State) : (s.fresh).free = s.free + 1 := rfl
@[simp] theorem State.fresh_outbox (s : State) : (s.fresh).outbox = s.outbox := rfl
@[simp] theorem State.fresh_mem (s : State) : (s.fresh).mem = s.mem := rfl
@[simp] theorem State.fresh_lstore (s : State) : (s.fresh).lstore = s.lstore := rfl
@[simp] theorem State.fresh_slots (s : State) : (s.fresh).slots = s.slots := rfl
@[simp] theorem State.fresh_acc (s : State) : (s.fresh).acc = s.acc := rfl
@[simp] theorem State.fresh_scales (s : State) : (s.fresh).scales = s.scales := rfl
@[simp] theorem State.fresh_quads (s : State) : (s.fresh).quads = s.quads := rfl
@[simp] theorem State.fresh_cores (s : State) : (s.fresh).cores = s.cores := rfl
@[simp] theorem State.fresh_barriers (s : State) : (s.fresh).barriers = s.barriers := rfl
@[simp] theorem State.fresh_shuttle (s : State) : (s.fresh).shuttle = s.shuttle := rfl
@[simp] theorem State.fresh_ctxs (s : State) : (s.fresh).ctxs = s.ctxs := rfl
@[simp] theorem State.fresh_tenants (s : State) : (s.fresh).tenants = s.tenants := rfl
@[simp] theorem State.fresh_pkg (s : State) : (s.fresh).pkg = s.pkg := rfl
@[simp] theorem State.fresh_arb (s : State) : (s.fresh).arb = s.arb := rfl
@[simp] theorem State.fresh_oruIn (s : State) : (s.fresh).oruIn = s.oruIn := rfl
@[simp] theorem State.fresh_windows (s : State) : (s.fresh).windows = s.windows := rfl
@[simp] theorem State.fresh_xred (s : State) : (s.fresh).xred = s.xred := rfl
@[simp] theorem State.fresh_pushes (s : State) : (s.fresh).pushes = s.pushes := rfl
@[simp] theorem State.fresh_loom (s : State) : (s.fresh).loom = s.loom := rfl

/-! onCtx -/

@[simp] theorem State.onCtx_hart (s : State) (c : BitVec 12) (f : Ctx → Ctx) : (s.onCtx c f).hart = s.hart := rfl
@[simp] theorem State.onCtx_parked (s : State) (c : BitVec 12) (f : Ctx → Ctx) : (s.onCtx c f).parked = s.parked := rfl
@[simp] theorem State.onCtx_saved (s : State) (c : BitVec 12) (f : Ctx → Ctx) : (s.onCtx c f).saved = s.saved := rfl
@[simp] theorem State.onCtx_sched (s : State) (c : BitVec 12) (f : Ctx → Ctx) : (s.onCtx c f).sched = s.sched := rfl
@[simp] theorem State.onCtx_agenda (s : State) (c : BitVec 12) (f : Ctx → Ctx) : (s.onCtx c f).agenda = s.agenda := rfl
@[simp] theorem State.onCtx_eventTurn (s : State) (c : BitVec 12) (f : Ctx → Ctx) : (s.onCtx c f).eventTurn = s.eventTurn := rfl
@[simp] theorem State.onCtx_free (s : State) (c : BitVec 12) (f : Ctx → Ctx) : (s.onCtx c f).free = s.free := rfl
@[simp] theorem State.onCtx_outbox (s : State) (c : BitVec 12) (f : Ctx → Ctx) : (s.onCtx c f).outbox = s.outbox := rfl
@[simp] theorem State.onCtx_mem (s : State) (c : BitVec 12) (f : Ctx → Ctx) : (s.onCtx c f).mem = s.mem := rfl
@[simp] theorem State.onCtx_lstore (s : State) (c : BitVec 12) (f : Ctx → Ctx) : (s.onCtx c f).lstore = s.lstore := rfl
@[simp] theorem State.onCtx_slots (s : State) (c : BitVec 12) (f : Ctx → Ctx) : (s.onCtx c f).slots = s.slots := rfl
@[simp] theorem State.onCtx_acc (s : State) (c : BitVec 12) (f : Ctx → Ctx) : (s.onCtx c f).acc = s.acc := rfl
@[simp] theorem State.onCtx_scales (s : State) (c : BitVec 12) (f : Ctx → Ctx) : (s.onCtx c f).scales = s.scales := rfl
@[simp] theorem State.onCtx_quads (s : State) (c : BitVec 12) (f : Ctx → Ctx) : (s.onCtx c f).quads = s.quads := rfl
@[simp] theorem State.onCtx_cores (s : State) (c : BitVec 12) (f : Ctx → Ctx) : (s.onCtx c f).cores = s.cores := rfl
@[simp] theorem State.onCtx_barriers (s : State) (c : BitVec 12) (f : Ctx → Ctx) : (s.onCtx c f).barriers = s.barriers := rfl
@[simp] theorem State.onCtx_shuttle (s : State) (c : BitVec 12) (f : Ctx → Ctx) : (s.onCtx c f).shuttle = s.shuttle := rfl
@[simp] theorem State.onCtx_tenants (s : State) (c : BitVec 12) (f : Ctx → Ctx) : (s.onCtx c f).tenants = s.tenants := rfl
@[simp] theorem State.onCtx_pkg (s : State) (c : BitVec 12) (f : Ctx → Ctx) : (s.onCtx c f).pkg = s.pkg := rfl
@[simp] theorem State.onCtx_arb (s : State) (c : BitVec 12) (f : Ctx → Ctx) : (s.onCtx c f).arb = s.arb := rfl
@[simp] theorem State.onCtx_oruIn (s : State) (c : BitVec 12) (f : Ctx → Ctx) : (s.onCtx c f).oruIn = s.oruIn := rfl
@[simp] theorem State.onCtx_windows (s : State) (c : BitVec 12) (f : Ctx → Ctx) : (s.onCtx c f).windows = s.windows := rfl
@[simp] theorem State.onCtx_xred (s : State) (c : BitVec 12) (f : Ctx → Ctx) : (s.onCtx c f).xred = s.xred := rfl
@[simp] theorem State.onCtx_pushes (s : State) (c : BitVec 12) (f : Ctx → Ctx) : (s.onCtx c f).pushes = s.pushes := rfl
@[simp] theorem State.onCtx_loom (s : State) (c : BitVec 12) (f : Ctx → Ctx) : (s.onCtx c f).loom = s.loom := rfl

/-! count -/

@[simp] theorem State.count_hart (s : State) (c : BitVec 12) (num idx n : Nat) : (s.count c num idx n).hart = s.hart := rfl
@[simp] theorem State.count_parked (s : State) (c : BitVec 12) (num idx n : Nat) : (s.count c num idx n).parked = s.parked := rfl
@[simp] theorem State.count_saved (s : State) (c : BitVec 12) (num idx n : Nat) : (s.count c num idx n).saved = s.saved := rfl
@[simp] theorem State.count_sched (s : State) (c : BitVec 12) (num idx n : Nat) : (s.count c num idx n).sched = s.sched := rfl
@[simp] theorem State.count_agenda (s : State) (c : BitVec 12) (num idx n : Nat) : (s.count c num idx n).agenda = s.agenda := rfl
@[simp] theorem State.count_eventTurn (s : State) (c : BitVec 12) (num idx n : Nat) : (s.count c num idx n).eventTurn = s.eventTurn := rfl
@[simp] theorem State.count_free (s : State) (c : BitVec 12) (num idx n : Nat) : (s.count c num idx n).free = s.free := rfl
@[simp] theorem State.count_outbox (s : State) (c : BitVec 12) (num idx n : Nat) : (s.count c num idx n).outbox = s.outbox := rfl
@[simp] theorem State.count_mem (s : State) (c : BitVec 12) (num idx n : Nat) : (s.count c num idx n).mem = s.mem := rfl
@[simp] theorem State.count_lstore (s : State) (c : BitVec 12) (num idx n : Nat) : (s.count c num idx n).lstore = s.lstore := rfl
@[simp] theorem State.count_slots (s : State) (c : BitVec 12) (num idx n : Nat) : (s.count c num idx n).slots = s.slots := rfl
@[simp] theorem State.count_acc (s : State) (c : BitVec 12) (num idx n : Nat) : (s.count c num idx n).acc = s.acc := rfl
@[simp] theorem State.count_scales (s : State) (c : BitVec 12) (num idx n : Nat) : (s.count c num idx n).scales = s.scales := rfl
@[simp] theorem State.count_quads (s : State) (c : BitVec 12) (num idx n : Nat) : (s.count c num idx n).quads = s.quads := rfl
@[simp] theorem State.count_cores (s : State) (c : BitVec 12) (num idx n : Nat) : (s.count c num idx n).cores = s.cores := rfl
@[simp] theorem State.count_barriers (s : State) (c : BitVec 12) (num idx n : Nat) : (s.count c num idx n).barriers = s.barriers := rfl
@[simp] theorem State.count_shuttle (s : State) (c : BitVec 12) (num idx n : Nat) : (s.count c num idx n).shuttle = s.shuttle := rfl
@[simp] theorem State.count_tenants (s : State) (c : BitVec 12) (num idx n : Nat) : (s.count c num idx n).tenants = s.tenants := rfl
@[simp] theorem State.count_pkg (s : State) (c : BitVec 12) (num idx n : Nat) : (s.count c num idx n).pkg = s.pkg := rfl
@[simp] theorem State.count_arb (s : State) (c : BitVec 12) (num idx n : Nat) : (s.count c num idx n).arb = s.arb := rfl
@[simp] theorem State.count_oruIn (s : State) (c : BitVec 12) (num idx n : Nat) : (s.count c num idx n).oruIn = s.oruIn := rfl
@[simp] theorem State.count_windows (s : State) (c : BitVec 12) (num idx n : Nat) : (s.count c num idx n).windows = s.windows := rfl
@[simp] theorem State.count_xred (s : State) (c : BitVec 12) (num idx n : Nat) : (s.count c num idx n).xred = s.xred := rfl
@[simp] theorem State.count_pushes (s : State) (c : BitVec 12) (num idx n : Nat) : (s.count c num idx n).pushes = s.pushes := rfl
@[simp] theorem State.count_loom (s : State) (c : BitVec 12) (num idx n : Nat) : (s.count c num idx n).loom = s.loom := rfl

/-! onTenant -/

@[simp] theorem State.onTenant_hart (s : State) (c : Nat) (f : Tenant → Tenant) : (s.onTenant c f).hart = s.hart := rfl
@[simp] theorem State.onTenant_parked (s : State) (c : Nat) (f : Tenant → Tenant) : (s.onTenant c f).parked = s.parked := rfl
@[simp] theorem State.onTenant_saved (s : State) (c : Nat) (f : Tenant → Tenant) : (s.onTenant c f).saved = s.saved := rfl
@[simp] theorem State.onTenant_sched (s : State) (c : Nat) (f : Tenant → Tenant) : (s.onTenant c f).sched = s.sched := rfl
@[simp] theorem State.onTenant_agenda (s : State) (c : Nat) (f : Tenant → Tenant) : (s.onTenant c f).agenda = s.agenda := rfl
@[simp] theorem State.onTenant_eventTurn (s : State) (c : Nat) (f : Tenant → Tenant) : (s.onTenant c f).eventTurn = s.eventTurn := rfl
@[simp] theorem State.onTenant_free (s : State) (c : Nat) (f : Tenant → Tenant) : (s.onTenant c f).free = s.free := rfl
@[simp] theorem State.onTenant_outbox (s : State) (c : Nat) (f : Tenant → Tenant) : (s.onTenant c f).outbox = s.outbox := rfl
@[simp] theorem State.onTenant_mem (s : State) (c : Nat) (f : Tenant → Tenant) : (s.onTenant c f).mem = s.mem := rfl
@[simp] theorem State.onTenant_lstore (s : State) (c : Nat) (f : Tenant → Tenant) : (s.onTenant c f).lstore = s.lstore := rfl
@[simp] theorem State.onTenant_slots (s : State) (c : Nat) (f : Tenant → Tenant) : (s.onTenant c f).slots = s.slots := rfl
@[simp] theorem State.onTenant_acc (s : State) (c : Nat) (f : Tenant → Tenant) : (s.onTenant c f).acc = s.acc := rfl
@[simp] theorem State.onTenant_scales (s : State) (c : Nat) (f : Tenant → Tenant) : (s.onTenant c f).scales = s.scales := rfl
@[simp] theorem State.onTenant_quads (s : State) (c : Nat) (f : Tenant → Tenant) : (s.onTenant c f).quads = s.quads := rfl
@[simp] theorem State.onTenant_cores (s : State) (c : Nat) (f : Tenant → Tenant) : (s.onTenant c f).cores = s.cores := rfl
@[simp] theorem State.onTenant_barriers (s : State) (c : Nat) (f : Tenant → Tenant) : (s.onTenant c f).barriers = s.barriers := rfl
@[simp] theorem State.onTenant_shuttle (s : State) (c : Nat) (f : Tenant → Tenant) : (s.onTenant c f).shuttle = s.shuttle := rfl
@[simp] theorem State.onTenant_ctxs (s : State) (c : Nat) (f : Tenant → Tenant) : (s.onTenant c f).ctxs = s.ctxs := rfl
@[simp] theorem State.onTenant_pkg (s : State) (c : Nat) (f : Tenant → Tenant) : (s.onTenant c f).pkg = s.pkg := rfl
@[simp] theorem State.onTenant_arb (s : State) (c : Nat) (f : Tenant → Tenant) : (s.onTenant c f).arb = s.arb := rfl
@[simp] theorem State.onTenant_oruIn (s : State) (c : Nat) (f : Tenant → Tenant) : (s.onTenant c f).oruIn = s.oruIn := rfl
@[simp] theorem State.onTenant_windows (s : State) (c : Nat) (f : Tenant → Tenant) : (s.onTenant c f).windows = s.windows := rfl
@[simp] theorem State.onTenant_xred (s : State) (c : Nat) (f : Tenant → Tenant) : (s.onTenant c f).xred = s.xred := rfl
@[simp] theorem State.onTenant_pushes (s : State) (c : Nat) (f : Tenant → Tenant) : (s.onTenant c f).pushes = s.pushes := rfl
@[simp] theorem State.onTenant_loom (s : State) (c : Nat) (f : Tenant → Tenant) : (s.onTenant c f).loom = s.loom := rfl

/-! onQuad -/

@[simp] theorem State.onQuad_hart (s : State) (q : Nat) (f : Quad → Quad) : (s.onQuad q f).hart = s.hart := rfl
@[simp] theorem State.onQuad_parked (s : State) (q : Nat) (f : Quad → Quad) : (s.onQuad q f).parked = s.parked := rfl
@[simp] theorem State.onQuad_saved (s : State) (q : Nat) (f : Quad → Quad) : (s.onQuad q f).saved = s.saved := rfl
@[simp] theorem State.onQuad_sched (s : State) (q : Nat) (f : Quad → Quad) : (s.onQuad q f).sched = s.sched := rfl
@[simp] theorem State.onQuad_agenda (s : State) (q : Nat) (f : Quad → Quad) : (s.onQuad q f).agenda = s.agenda := rfl
@[simp] theorem State.onQuad_eventTurn (s : State) (q : Nat) (f : Quad → Quad) : (s.onQuad q f).eventTurn = s.eventTurn := rfl
@[simp] theorem State.onQuad_free (s : State) (q : Nat) (f : Quad → Quad) : (s.onQuad q f).free = s.free := rfl
@[simp] theorem State.onQuad_outbox (s : State) (q : Nat) (f : Quad → Quad) : (s.onQuad q f).outbox = s.outbox := rfl
@[simp] theorem State.onQuad_mem (s : State) (q : Nat) (f : Quad → Quad) : (s.onQuad q f).mem = s.mem := rfl
@[simp] theorem State.onQuad_lstore (s : State) (q : Nat) (f : Quad → Quad) : (s.onQuad q f).lstore = s.lstore := rfl
@[simp] theorem State.onQuad_slots (s : State) (q : Nat) (f : Quad → Quad) : (s.onQuad q f).slots = s.slots := rfl
@[simp] theorem State.onQuad_acc (s : State) (q : Nat) (f : Quad → Quad) : (s.onQuad q f).acc = s.acc := rfl
@[simp] theorem State.onQuad_scales (s : State) (q : Nat) (f : Quad → Quad) : (s.onQuad q f).scales = s.scales := rfl
@[simp] theorem State.onQuad_cores (s : State) (q : Nat) (f : Quad → Quad) : (s.onQuad q f).cores = s.cores := rfl
@[simp] theorem State.onQuad_barriers (s : State) (q : Nat) (f : Quad → Quad) : (s.onQuad q f).barriers = s.barriers := rfl
@[simp] theorem State.onQuad_shuttle (s : State) (q : Nat) (f : Quad → Quad) : (s.onQuad q f).shuttle = s.shuttle := rfl
@[simp] theorem State.onQuad_ctxs (s : State) (q : Nat) (f : Quad → Quad) : (s.onQuad q f).ctxs = s.ctxs := rfl
@[simp] theorem State.onQuad_tenants (s : State) (q : Nat) (f : Quad → Quad) : (s.onQuad q f).tenants = s.tenants := rfl
@[simp] theorem State.onQuad_pkg (s : State) (q : Nat) (f : Quad → Quad) : (s.onQuad q f).pkg = s.pkg := rfl
@[simp] theorem State.onQuad_arb (s : State) (q : Nat) (f : Quad → Quad) : (s.onQuad q f).arb = s.arb := rfl
@[simp] theorem State.onQuad_oruIn (s : State) (q : Nat) (f : Quad → Quad) : (s.onQuad q f).oruIn = s.oruIn := rfl
@[simp] theorem State.onQuad_windows (s : State) (q : Nat) (f : Quad → Quad) : (s.onQuad q f).windows = s.windows := rfl
@[simp] theorem State.onQuad_xred (s : State) (q : Nat) (f : Quad → Quad) : (s.onQuad q f).xred = s.xred := rfl
@[simp] theorem State.onQuad_pushes (s : State) (q : Nat) (f : Quad → Quad) : (s.onQuad q f).pushes = s.pushes := rfl
@[simp] theorem State.onQuad_loom (s : State) (q : Nat) (f : Quad → Quad) : (s.onQuad q f).loom = s.loom := rfl

/-! onCore -/

@[simp] theorem State.onCore_hart (s : State) (c : Nat) (f : Core → Core) : (s.onCore c f).hart = s.hart := rfl
@[simp] theorem State.onCore_parked (s : State) (c : Nat) (f : Core → Core) : (s.onCore c f).parked = s.parked := rfl
@[simp] theorem State.onCore_saved (s : State) (c : Nat) (f : Core → Core) : (s.onCore c f).saved = s.saved := rfl
@[simp] theorem State.onCore_sched (s : State) (c : Nat) (f : Core → Core) : (s.onCore c f).sched = s.sched := rfl
@[simp] theorem State.onCore_agenda (s : State) (c : Nat) (f : Core → Core) : (s.onCore c f).agenda = s.agenda := rfl
@[simp] theorem State.onCore_eventTurn (s : State) (c : Nat) (f : Core → Core) : (s.onCore c f).eventTurn = s.eventTurn := rfl
@[simp] theorem State.onCore_free (s : State) (c : Nat) (f : Core → Core) : (s.onCore c f).free = s.free := rfl
@[simp] theorem State.onCore_outbox (s : State) (c : Nat) (f : Core → Core) : (s.onCore c f).outbox = s.outbox := rfl
@[simp] theorem State.onCore_mem (s : State) (c : Nat) (f : Core → Core) : (s.onCore c f).mem = s.mem := rfl
@[simp] theorem State.onCore_lstore (s : State) (c : Nat) (f : Core → Core) : (s.onCore c f).lstore = s.lstore := rfl
@[simp] theorem State.onCore_slots (s : State) (c : Nat) (f : Core → Core) : (s.onCore c f).slots = s.slots := rfl
@[simp] theorem State.onCore_acc (s : State) (c : Nat) (f : Core → Core) : (s.onCore c f).acc = s.acc := rfl
@[simp] theorem State.onCore_scales (s : State) (c : Nat) (f : Core → Core) : (s.onCore c f).scales = s.scales := rfl
@[simp] theorem State.onCore_quads (s : State) (c : Nat) (f : Core → Core) : (s.onCore c f).quads = s.quads := rfl
@[simp] theorem State.onCore_barriers (s : State) (c : Nat) (f : Core → Core) : (s.onCore c f).barriers = s.barriers := rfl
@[simp] theorem State.onCore_shuttle (s : State) (c : Nat) (f : Core → Core) : (s.onCore c f).shuttle = s.shuttle := rfl
@[simp] theorem State.onCore_ctxs (s : State) (c : Nat) (f : Core → Core) : (s.onCore c f).ctxs = s.ctxs := rfl
@[simp] theorem State.onCore_tenants (s : State) (c : Nat) (f : Core → Core) : (s.onCore c f).tenants = s.tenants := rfl
@[simp] theorem State.onCore_pkg (s : State) (c : Nat) (f : Core → Core) : (s.onCore c f).pkg = s.pkg := rfl
@[simp] theorem State.onCore_arb (s : State) (c : Nat) (f : Core → Core) : (s.onCore c f).arb = s.arb := rfl
@[simp] theorem State.onCore_oruIn (s : State) (c : Nat) (f : Core → Core) : (s.onCore c f).oruIn = s.oruIn := rfl
@[simp] theorem State.onCore_windows (s : State) (c : Nat) (f : Core → Core) : (s.onCore c f).windows = s.windows := rfl
@[simp] theorem State.onCore_xred (s : State) (c : Nat) (f : Core → Core) : (s.onCore c f).xred = s.xred := rfl
@[simp] theorem State.onCore_pushes (s : State) (c : Nat) (f : Core → Core) : (s.onCore c f).pushes = s.pushes := rfl
@[simp] theorem State.onCore_loom (s : State) (c : Nat) (f : Core → Core) : (s.onCore c f).loom = s.loom := rfl

/-! onPkg -/

@[simp] theorem State.onPkg_hart (s : State) (f : Pkg → Pkg) : (s.onPkg f).hart = s.hart := rfl
@[simp] theorem State.onPkg_parked (s : State) (f : Pkg → Pkg) : (s.onPkg f).parked = s.parked := rfl
@[simp] theorem State.onPkg_saved (s : State) (f : Pkg → Pkg) : (s.onPkg f).saved = s.saved := rfl
@[simp] theorem State.onPkg_sched (s : State) (f : Pkg → Pkg) : (s.onPkg f).sched = s.sched := rfl
@[simp] theorem State.onPkg_agenda (s : State) (f : Pkg → Pkg) : (s.onPkg f).agenda = s.agenda := rfl
@[simp] theorem State.onPkg_eventTurn (s : State) (f : Pkg → Pkg) : (s.onPkg f).eventTurn = s.eventTurn := rfl
@[simp] theorem State.onPkg_free (s : State) (f : Pkg → Pkg) : (s.onPkg f).free = s.free := rfl
@[simp] theorem State.onPkg_outbox (s : State) (f : Pkg → Pkg) : (s.onPkg f).outbox = s.outbox := rfl
@[simp] theorem State.onPkg_mem (s : State) (f : Pkg → Pkg) : (s.onPkg f).mem = s.mem := rfl
@[simp] theorem State.onPkg_lstore (s : State) (f : Pkg → Pkg) : (s.onPkg f).lstore = s.lstore := rfl
@[simp] theorem State.onPkg_slots (s : State) (f : Pkg → Pkg) : (s.onPkg f).slots = s.slots := rfl
@[simp] theorem State.onPkg_acc (s : State) (f : Pkg → Pkg) : (s.onPkg f).acc = s.acc := rfl
@[simp] theorem State.onPkg_scales (s : State) (f : Pkg → Pkg) : (s.onPkg f).scales = s.scales := rfl
@[simp] theorem State.onPkg_quads (s : State) (f : Pkg → Pkg) : (s.onPkg f).quads = s.quads := rfl
@[simp] theorem State.onPkg_cores (s : State) (f : Pkg → Pkg) : (s.onPkg f).cores = s.cores := rfl
@[simp] theorem State.onPkg_barriers (s : State) (f : Pkg → Pkg) : (s.onPkg f).barriers = s.barriers := rfl
@[simp] theorem State.onPkg_shuttle (s : State) (f : Pkg → Pkg) : (s.onPkg f).shuttle = s.shuttle := rfl
@[simp] theorem State.onPkg_ctxs (s : State) (f : Pkg → Pkg) : (s.onPkg f).ctxs = s.ctxs := rfl
@[simp] theorem State.onPkg_tenants (s : State) (f : Pkg → Pkg) : (s.onPkg f).tenants = s.tenants := rfl
@[simp] theorem State.onPkg_pkg (s : State) (f : Pkg → Pkg) : (s.onPkg f).pkg = f s.pkg := rfl
@[simp] theorem State.onPkg_arb (s : State) (f : Pkg → Pkg) : (s.onPkg f).arb = s.arb := rfl
@[simp] theorem State.onPkg_oruIn (s : State) (f : Pkg → Pkg) : (s.onPkg f).oruIn = s.oruIn := rfl
@[simp] theorem State.onPkg_windows (s : State) (f : Pkg → Pkg) : (s.onPkg f).windows = s.windows := rfl
@[simp] theorem State.onPkg_xred (s : State) (f : Pkg → Pkg) : (s.onPkg f).xred = s.xred := rfl
@[simp] theorem State.onPkg_pushes (s : State) (f : Pkg → Pkg) : (s.onPkg f).pushes = s.pushes := rfl
@[simp] theorem State.onPkg_loom (s : State) (f : Pkg → Pkg) : (s.onPkg f).loom = s.loom := rfl

/-! raise -/

@[simp] theorem State.raise_parked (s : State) (k : OpClass) : (s.raise k).parked = s.parked := rfl
@[simp] theorem State.raise_saved (s : State) (k : OpClass) : (s.raise k).saved = s.saved := rfl
@[simp] theorem State.raise_sched (s : State) (k : OpClass) : (s.raise k).sched = s.sched := rfl
@[simp] theorem State.raise_agenda (s : State) (k : OpClass) : (s.raise k).agenda = s.agenda := rfl
@[simp] theorem State.raise_eventTurn (s : State) (k : OpClass) : (s.raise k).eventTurn = s.eventTurn := rfl
@[simp] theorem State.raise_free (s : State) (k : OpClass) : (s.raise k).free = s.free := rfl
@[simp] theorem State.raise_outbox (s : State) (k : OpClass) : (s.raise k).outbox = s.outbox := rfl
@[simp] theorem State.raise_mem (s : State) (k : OpClass) : (s.raise k).mem = s.mem := rfl
@[simp] theorem State.raise_lstore (s : State) (k : OpClass) : (s.raise k).lstore = s.lstore := rfl
@[simp] theorem State.raise_slots (s : State) (k : OpClass) : (s.raise k).slots = s.slots := rfl
@[simp] theorem State.raise_acc (s : State) (k : OpClass) : (s.raise k).acc = s.acc := rfl
@[simp] theorem State.raise_scales (s : State) (k : OpClass) : (s.raise k).scales = s.scales := rfl
@[simp] theorem State.raise_quads (s : State) (k : OpClass) : (s.raise k).quads = s.quads := rfl
@[simp] theorem State.raise_cores (s : State) (k : OpClass) : (s.raise k).cores = s.cores := rfl
@[simp] theorem State.raise_barriers (s : State) (k : OpClass) : (s.raise k).barriers = s.barriers := rfl
@[simp] theorem State.raise_shuttle (s : State) (k : OpClass) : (s.raise k).shuttle = s.shuttle := rfl
@[simp] theorem State.raise_ctxs (s : State) (k : OpClass) : (s.raise k).ctxs = s.ctxs := rfl
@[simp] theorem State.raise_tenants (s : State) (k : OpClass) : (s.raise k).tenants = s.tenants := rfl
@[simp] theorem State.raise_pkg (s : State) (k : OpClass) : (s.raise k).pkg = s.pkg := rfl
@[simp] theorem State.raise_arb (s : State) (k : OpClass) : (s.raise k).arb = s.arb := rfl
@[simp] theorem State.raise_oruIn (s : State) (k : OpClass) : (s.raise k).oruIn = s.oruIn := rfl
@[simp] theorem State.raise_windows (s : State) (k : OpClass) : (s.raise k).windows = s.windows := rfl
@[simp] theorem State.raise_xred (s : State) (k : OpClass) : (s.raise k).xred = s.xred := rfl
@[simp] theorem State.raise_pushes (s : State) (k : OpClass) : (s.raise k).pushes = s.pushes := rfl
@[simp] theorem State.raise_loom (s : State) (k : OpClass) : (s.raise k).loom = s.loom := rfl

/-! lower -/

@[simp] theorem State.lower_saved (s : State) (id : AgentId) (k : OpClass) : (s.lower id k).saved = s.saved := rfl
@[simp] theorem State.lower_sched (s : State) (id : AgentId) (k : OpClass) : (s.lower id k).sched = s.sched := rfl
@[simp] theorem State.lower_agenda (s : State) (id : AgentId) (k : OpClass) : (s.lower id k).agenda = s.agenda := rfl
@[simp] theorem State.lower_eventTurn (s : State) (id : AgentId) (k : OpClass) : (s.lower id k).eventTurn = s.eventTurn := rfl
@[simp] theorem State.lower_free (s : State) (id : AgentId) (k : OpClass) : (s.lower id k).free = s.free := rfl
@[simp] theorem State.lower_outbox (s : State) (id : AgentId) (k : OpClass) : (s.lower id k).outbox = s.outbox := rfl
@[simp] theorem State.lower_mem (s : State) (id : AgentId) (k : OpClass) : (s.lower id k).mem = s.mem := rfl
@[simp] theorem State.lower_lstore (s : State) (id : AgentId) (k : OpClass) : (s.lower id k).lstore = s.lstore := rfl
@[simp] theorem State.lower_slots (s : State) (id : AgentId) (k : OpClass) : (s.lower id k).slots = s.slots := rfl
@[simp] theorem State.lower_acc (s : State) (id : AgentId) (k : OpClass) : (s.lower id k).acc = s.acc := rfl
@[simp] theorem State.lower_scales (s : State) (id : AgentId) (k : OpClass) : (s.lower id k).scales = s.scales := rfl
@[simp] theorem State.lower_quads (s : State) (id : AgentId) (k : OpClass) : (s.lower id k).quads = s.quads := rfl
@[simp] theorem State.lower_cores (s : State) (id : AgentId) (k : OpClass) : (s.lower id k).cores = s.cores := rfl
@[simp] theorem State.lower_barriers (s : State) (id : AgentId) (k : OpClass) : (s.lower id k).barriers = s.barriers := rfl
@[simp] theorem State.lower_shuttle (s : State) (id : AgentId) (k : OpClass) : (s.lower id k).shuttle = s.shuttle := rfl
@[simp] theorem State.lower_ctxs (s : State) (id : AgentId) (k : OpClass) : (s.lower id k).ctxs = s.ctxs := rfl
@[simp] theorem State.lower_tenants (s : State) (id : AgentId) (k : OpClass) : (s.lower id k).tenants = s.tenants := rfl
@[simp] theorem State.lower_pkg (s : State) (id : AgentId) (k : OpClass) : (s.lower id k).pkg = s.pkg := rfl
@[simp] theorem State.lower_arb (s : State) (id : AgentId) (k : OpClass) : (s.lower id k).arb = s.arb := rfl
@[simp] theorem State.lower_oruIn (s : State) (id : AgentId) (k : OpClass) : (s.lower id k).oruIn = s.oruIn := rfl
@[simp] theorem State.lower_windows (s : State) (id : AgentId) (k : OpClass) : (s.lower id k).windows = s.windows := rfl
@[simp] theorem State.lower_xred (s : State) (id : AgentId) (k : OpClass) : (s.lower id k).xred = s.xred := rfl
@[simp] theorem State.lower_pushes (s : State) (id : AgentId) (k : OpClass) : (s.lower id k).pushes = s.pushes := rfl
@[simp] theorem State.lower_loom (s : State) (id : AgentId) (k : OpClass) : (s.lower id k).loom = s.loom := rfl

/-! issueOp -/

@[simp] theorem State.issueOp_parked (s : State) (k : OpClass) : (s.issueOp k).parked = s.parked := rfl
@[simp] theorem State.issueOp_saved (s : State) (k : OpClass) : (s.issueOp k).saved = s.saved := rfl
@[simp] theorem State.issueOp_sched (s : State) (k : OpClass) : (s.issueOp k).sched = s.sched := rfl
@[simp] theorem State.issueOp_agenda (s : State) (k : OpClass) : (s.issueOp k).agenda = s.agenda ++ [.operationComplete s.hart.id k] := rfl
@[simp] theorem State.issueOp_eventTurn (s : State) (k : OpClass) : (s.issueOp k).eventTurn = s.eventTurn := rfl
@[simp] theorem State.issueOp_free (s : State) (k : OpClass) : (s.issueOp k).free = s.free := rfl
@[simp] theorem State.issueOp_outbox (s : State) (k : OpClass) : (s.issueOp k).outbox = s.outbox := rfl
@[simp] theorem State.issueOp_mem (s : State) (k : OpClass) : (s.issueOp k).mem = s.mem := rfl
@[simp] theorem State.issueOp_lstore (s : State) (k : OpClass) : (s.issueOp k).lstore = s.lstore := rfl
@[simp] theorem State.issueOp_slots (s : State) (k : OpClass) : (s.issueOp k).slots = s.slots := rfl
@[simp] theorem State.issueOp_acc (s : State) (k : OpClass) : (s.issueOp k).acc = s.acc := rfl
@[simp] theorem State.issueOp_scales (s : State) (k : OpClass) : (s.issueOp k).scales = s.scales := rfl
@[simp] theorem State.issueOp_quads (s : State) (k : OpClass) : (s.issueOp k).quads = s.quads := rfl
@[simp] theorem State.issueOp_cores (s : State) (k : OpClass) : (s.issueOp k).cores = s.cores := rfl
@[simp] theorem State.issueOp_barriers (s : State) (k : OpClass) : (s.issueOp k).barriers = s.barriers := rfl
@[simp] theorem State.issueOp_shuttle (s : State) (k : OpClass) : (s.issueOp k).shuttle = s.shuttle := rfl
@[simp] theorem State.issueOp_ctxs (s : State) (k : OpClass) : (s.issueOp k).ctxs = s.ctxs := rfl
@[simp] theorem State.issueOp_tenants (s : State) (k : OpClass) : (s.issueOp k).tenants = s.tenants := rfl
@[simp] theorem State.issueOp_pkg (s : State) (k : OpClass) : (s.issueOp k).pkg = s.pkg := rfl
@[simp] theorem State.issueOp_arb (s : State) (k : OpClass) : (s.issueOp k).arb = s.arb := rfl
@[simp] theorem State.issueOp_oruIn (s : State) (k : OpClass) : (s.issueOp k).oruIn = s.oruIn := rfl
@[simp] theorem State.issueOp_windows (s : State) (k : OpClass) : (s.issueOp k).windows = s.windows := rfl
@[simp] theorem State.issueOp_xred (s : State) (k : OpClass) : (s.issueOp k).xred = s.xred := rfl
@[simp] theorem State.issueOp_pushes (s : State) (k : OpClass) : (s.issueOp k).pushes = s.pushes := rfl
@[simp] theorem State.issueOp_loom (s : State) (k : OpClass) : (s.issueOp k).loom = s.loom := rfl

/-! skip: fields of the hart -/

@[simp] theorem State.skip_hart_id (s : State) (n : Nat) : (s.skip n).hart.id = s.hart.id := rfl
@[simp] theorem State.skip_hart_active (s : State) (n : Nat) : (s.skip n).hart.active = s.hart.active := rfl
@[simp] theorem State.skip_hart_started (s : State) (n : Nat) : (s.skip n).hart.started = s.hart.started := rfl
@[simp] theorem State.skip_hart_ending (s : State) (n : Nat) : (s.skip n).hart.ending = s.hart.ending := rfl
@[simp] theorem State.skip_hart_failCode (s : State) (n : Nat) : (s.skip n).hart.failCode = s.hart.failCode := rfl
@[simp] theorem State.skip_hart_ctx (s : State) (n : Nat) : (s.skip n).hart.ctx = s.hart.ctx := rfl
@[simp] theorem State.skip_hart_split (s : State) (n : Nat) : (s.skip n).hart.split = s.hart.split := rfl
@[simp] theorem State.skip_hart_setvlDone (s : State) (n : Nat) : (s.skip n).hart.setvlDone = s.hart.setvlDone := rfl
@[simp] theorem State.skip_hart_s (s : State) (n : Nat) : (s.skip n).hart.s = s.hart.s := rfl
@[simp] theorem State.skip_hart_v (s : State) (n : Nat) : (s.skip n).hart.v = s.hart.v := rfl
@[simp] theorem State.skip_hart_m (s : State) (n : Nat) : (s.skip n).hart.m = s.hart.m := rfl
@[simp] theorem State.skip_hart_vl (s : State) (n : Nat) : (s.skip n).hart.vl = s.hart.vl := rfl
@[simp] theorem State.skip_hart_vlPad (s : State) (n : Nat) : (s.skip n).hart.vlPad = s.hart.vlPad := rfl
@[simp] theorem State.skip_hart_vt (s : State) (n : Nat) : (s.skip n).hart.vt = s.hart.vt := rfl
@[simp] theorem State.skip_hart_sw (s : State) (n : Nat) : (s.skip n).hart.sw = s.hart.sw := rfl
@[simp] theorem State.skip_hart_vstart (s : State) (n : Nat) : (s.skip n).hart.vstart = s.hart.vstart := rfl
@[simp] theorem State.skip_hart_pc (s : State) (n : Nat) : (s.skip n).hart.pc = s.hart.pc + BitVec.ofNat 48 n := rfl
@[simp] theorem State.skip_hart_h (s : State) (n : Nat) : (s.skip n).hart.h = s.hart.h := rfl
@[simp] theorem State.skip_hart_copy (s : State) (n : Nat) : (s.skip n).hart.copy = s.hart.copy := rfl
@[simp] theorem State.skip_hart_q (s : State) (n : Nat) : (s.skip n).hart.q = s.hart.q := rfl
@[simp] theorem State.skip_hart_cnt (s : State) (n : Nat) : (s.skip n).hart.cnt = s.hart.cnt := rfl
@[simp] theorem State.skip_hart_ebLo (s : State) (n : Nat) : (s.skip n).hart.ebLo = s.hart.ebLo := rfl
@[simp] theorem State.skip_hart_ebHi (s : State) (n : Nat) : (s.skip n).hart.ebHi = s.hart.ebHi := rfl
@[simp] theorem State.skip_hart_mark (s : State) (n : Nat) : (s.skip n).hart.mark = s.hart.mark := rfl
@[simp] theorem State.skip_hart_trap (s : State) (n : Nat) : (s.skip n).hart.trap = s.hart.trap := rfl
@[simp] theorem State.skip_hart_bp (s : State) (n : Nat) : (s.skip n).hart.bp = s.hart.bp := rfl
@[simp] theorem State.skip_hart_bpDone (s : State) (n : Nat) : (s.skip n).hart.bpDone = s.hart.bpDone := rfl
@[simp] theorem State.skip_hart_fired (s : State) (n : Nat) : (s.skip n).hart.fired = s.hart.fired := rfl
@[simp] theorem State.skip_hart_reservation (s : State) (n : Nat) : (s.skip n).hart.reservation = s.hart.reservation := rfl
@[simp] theorem State.skip_hart_region (s : State) (n : Nat) : (s.skip n).hart.region = s.hart.region := rfl
@[simp] theorem State.skip_hart_aborts (s : State) (n : Nat) : (s.skip n).hart.aborts = s.hart.aborts := rfl
@[simp] theorem State.skip_hart_empty (s : State) (n : Nat) : (s.skip n).hart.empty = s.hart.empty := rfl
@[simp] theorem State.skip_hart_barWait (s : State) (n : Nat) : (s.skip n).hart.barWait = s.hart.barWait := rfl
@[simp] theorem State.skip_hart_xredCall (s : State) (n : Nat) : (s.skip n).hart.xredCall = s.hart.xredCall := rfl
@[simp] theorem State.skip_hart_pushing (s : State) (n : Nat) : (s.skip n).hart.pushing = s.hart.pushing := rfl
@[simp] theorem State.skip_hart_claims (s : State) (n : Nat) : (s.skip n).hart.claims = s.hart.claims := rfl
@[simp] theorem State.skip_hart_stalls (s : State) (n : Nat) : (s.skip n).hart.stalls = s.hart.stalls := rfl
@[simp] theorem State.skip_hart_stallEvict (s : State) (n : Nat) : (s.skip n).hart.stallEvict = s.hart.stallEvict := rfl
@[simp] theorem State.skip_hart_prio (s : State) (n : Nat) : (s.skip n).hart.prio = s.hart.prio := rfl
@[simp] theorem State.skip_hart_urgent (s : State) (n : Nat) : (s.skip n).hart.urgent = s.hart.urgent := rfl
@[simp] theorem State.skip_hart_passed (s : State) (n : Nat) : (s.skip n).hart.passed = s.hart.passed := rfl
@[simp] theorem State.skip_hart_wait (s : State) (n : Nat) : (s.skip n).hart.wait = s.hart.wait := rfl
@[simp] theorem State.skip_hart_yielded (s : State) (n : Nat) : (s.skip n).hart.yielded = s.hart.yielded := rfl
@[simp] theorem State.skip_hart_accStores (s : State) (n : Nat) : (s.skip n).hart.accStores = s.hart.accStores := rfl
@[simp] theorem State.skip_hart_parity (s : State) (n : Nat) : (s.skip n).hart.parity = s.hart.parity := rfl
@[simp] theorem State.skip_hart_pooled (s : State) (n : Nat) : (s.skip n).hart.pooled = s.hart.pooled := rfl
@[simp] theorem State.skip_hart_fenced (s : State) (n : Nat) : (s.skip n).hart.fenced = s.hart.fenced := rfl
@[simp] theorem State.skip_hart_sent (s : State) (n : Nat) : (s.skip n).hart.sent = s.hart.sent := rfl
@[simp] theorem State.skip_hart_gates (s : State) (n : Nat) : (s.skip n).hart.gates = s.hart.gates := rfl
@[simp] theorem State.skip_hart_lineBuffer (s : State) (n : Nat) : (s.skip n).hart.lineBuffer = s.hart.lineBuffer := rfl
@[simp] theorem State.skip_hart_flipping (s : State) (n : Nat) : (s.skip n).hart.flipping = s.hart.flipping := rfl
@[simp] theorem State.skip_hart_lost (s : State) (n : Nat) : (s.skip n).hart.lost = s.hart.lost := rfl
@[simp] theorem State.skip_hart_qcb (s : State) (n : Nat) : (s.skip n).hart.qcb = s.hart.qcb := rfl
@[simp] theorem State.skip_hart_job (s : State) (n : Nat) : (s.skip n).hart.job = s.hart.job := rfl
@[simp] theorem State.skip_hart_bundle (s : State) (n : Nat) : (s.skip n).hart.bundle = s.hart.bundle := rfl
@[simp] theorem State.skip_hart_task (s : State) (n : Nat) : (s.skip n).hart.task = s.hart.task := rfl
@[simp] theorem State.skip_hart_args (s : State) (n : Nat) : (s.skip n).hart.args = s.hart.args := rfl
@[simp] theorem State.skip_hart_entry (s : State) (n : Nat) : (s.skip n).hart.entry = s.hart.entry := rfl
@[simp] theorem State.skip_hart_adv (s : State) (n : Nat) : (s.skip n).hart.adv = s.hart.adv := rfl

/-! jump: fields of the hart -/

@[simp] theorem State.jump_hart_id (s : State) (a : BitVec 48) : (s.jump a).hart.id = s.hart.id := rfl
@[simp] theorem State.jump_hart_active (s : State) (a : BitVec 48) : (s.jump a).hart.active = s.hart.active := rfl
@[simp] theorem State.jump_hart_started (s : State) (a : BitVec 48) : (s.jump a).hart.started = s.hart.started := rfl
@[simp] theorem State.jump_hart_ending (s : State) (a : BitVec 48) : (s.jump a).hart.ending = s.hart.ending := rfl
@[simp] theorem State.jump_hart_failCode (s : State) (a : BitVec 48) : (s.jump a).hart.failCode = s.hart.failCode := rfl
@[simp] theorem State.jump_hart_ctx (s : State) (a : BitVec 48) : (s.jump a).hart.ctx = s.hart.ctx := rfl
@[simp] theorem State.jump_hart_split (s : State) (a : BitVec 48) : (s.jump a).hart.split = s.hart.split := rfl
@[simp] theorem State.jump_hart_setvlDone (s : State) (a : BitVec 48) : (s.jump a).hart.setvlDone = s.hart.setvlDone := rfl
@[simp] theorem State.jump_hart_s (s : State) (a : BitVec 48) : (s.jump a).hart.s = s.hart.s := rfl
@[simp] theorem State.jump_hart_v (s : State) (a : BitVec 48) : (s.jump a).hart.v = s.hart.v := rfl
@[simp] theorem State.jump_hart_m (s : State) (a : BitVec 48) : (s.jump a).hart.m = s.hart.m := rfl
@[simp] theorem State.jump_hart_vl (s : State) (a : BitVec 48) : (s.jump a).hart.vl = s.hart.vl := rfl
@[simp] theorem State.jump_hart_vlPad (s : State) (a : BitVec 48) : (s.jump a).hart.vlPad = s.hart.vlPad := rfl
@[simp] theorem State.jump_hart_vt (s : State) (a : BitVec 48) : (s.jump a).hart.vt = s.hart.vt := rfl
@[simp] theorem State.jump_hart_sw (s : State) (a : BitVec 48) : (s.jump a).hart.sw = s.hart.sw := rfl
@[simp] theorem State.jump_hart_vstart (s : State) (a : BitVec 48) : (s.jump a).hart.vstart = s.hart.vstart := rfl
@[simp] theorem State.jump_hart_pc (s : State) (a : BitVec 48) : (s.jump a).hart.pc = a := rfl
@[simp] theorem State.jump_hart_h (s : State) (a : BitVec 48) : (s.jump a).hart.h = s.hart.h := rfl
@[simp] theorem State.jump_hart_copy (s : State) (a : BitVec 48) : (s.jump a).hart.copy = s.hart.copy := rfl
@[simp] theorem State.jump_hart_q (s : State) (a : BitVec 48) : (s.jump a).hart.q = s.hart.q := rfl
@[simp] theorem State.jump_hart_cnt (s : State) (a : BitVec 48) : (s.jump a).hart.cnt = s.hart.cnt := rfl
@[simp] theorem State.jump_hart_ebLo (s : State) (a : BitVec 48) : (s.jump a).hart.ebLo = s.hart.ebLo := rfl
@[simp] theorem State.jump_hart_ebHi (s : State) (a : BitVec 48) : (s.jump a).hart.ebHi = s.hart.ebHi := rfl
@[simp] theorem State.jump_hart_mark (s : State) (a : BitVec 48) : (s.jump a).hart.mark = s.hart.mark := rfl
@[simp] theorem State.jump_hart_trap (s : State) (a : BitVec 48) : (s.jump a).hart.trap = s.hart.trap := rfl
@[simp] theorem State.jump_hart_bp (s : State) (a : BitVec 48) : (s.jump a).hart.bp = s.hart.bp := rfl
@[simp] theorem State.jump_hart_bpDone (s : State) (a : BitVec 48) : (s.jump a).hart.bpDone = s.hart.bpDone := rfl
@[simp] theorem State.jump_hart_fired (s : State) (a : BitVec 48) : (s.jump a).hart.fired = s.hart.fired := rfl
@[simp] theorem State.jump_hart_reservation (s : State) (a : BitVec 48) : (s.jump a).hart.reservation = s.hart.reservation := rfl
@[simp] theorem State.jump_hart_region (s : State) (a : BitVec 48) : (s.jump a).hart.region = s.hart.region := rfl
@[simp] theorem State.jump_hart_aborts (s : State) (a : BitVec 48) : (s.jump a).hart.aborts = s.hart.aborts := rfl
@[simp] theorem State.jump_hart_empty (s : State) (a : BitVec 48) : (s.jump a).hart.empty = s.hart.empty := rfl
@[simp] theorem State.jump_hart_barWait (s : State) (a : BitVec 48) : (s.jump a).hart.barWait = s.hart.barWait := rfl
@[simp] theorem State.jump_hart_xredCall (s : State) (a : BitVec 48) : (s.jump a).hart.xredCall = s.hart.xredCall := rfl
@[simp] theorem State.jump_hart_pushing (s : State) (a : BitVec 48) : (s.jump a).hart.pushing = s.hart.pushing := rfl
@[simp] theorem State.jump_hart_claims (s : State) (a : BitVec 48) : (s.jump a).hart.claims = s.hart.claims := rfl
@[simp] theorem State.jump_hart_stalls (s : State) (a : BitVec 48) : (s.jump a).hart.stalls = s.hart.stalls := rfl
@[simp] theorem State.jump_hart_stallEvict (s : State) (a : BitVec 48) : (s.jump a).hart.stallEvict = s.hart.stallEvict := rfl
@[simp] theorem State.jump_hart_prio (s : State) (a : BitVec 48) : (s.jump a).hart.prio = s.hart.prio := rfl
@[simp] theorem State.jump_hart_urgent (s : State) (a : BitVec 48) : (s.jump a).hart.urgent = s.hart.urgent := rfl
@[simp] theorem State.jump_hart_passed (s : State) (a : BitVec 48) : (s.jump a).hart.passed = s.hart.passed := rfl
@[simp] theorem State.jump_hart_wait (s : State) (a : BitVec 48) : (s.jump a).hart.wait = s.hart.wait := rfl
@[simp] theorem State.jump_hart_yielded (s : State) (a : BitVec 48) : (s.jump a).hart.yielded = s.hart.yielded := rfl
@[simp] theorem State.jump_hart_accStores (s : State) (a : BitVec 48) : (s.jump a).hart.accStores = s.hart.accStores := rfl
@[simp] theorem State.jump_hart_parity (s : State) (a : BitVec 48) : (s.jump a).hart.parity = s.hart.parity := rfl
@[simp] theorem State.jump_hart_pooled (s : State) (a : BitVec 48) : (s.jump a).hart.pooled = s.hart.pooled := rfl
@[simp] theorem State.jump_hart_fenced (s : State) (a : BitVec 48) : (s.jump a).hart.fenced = s.hart.fenced := rfl
@[simp] theorem State.jump_hart_sent (s : State) (a : BitVec 48) : (s.jump a).hart.sent = s.hart.sent := rfl
@[simp] theorem State.jump_hart_gates (s : State) (a : BitVec 48) : (s.jump a).hart.gates = s.hart.gates := rfl
@[simp] theorem State.jump_hart_lineBuffer (s : State) (a : BitVec 48) : (s.jump a).hart.lineBuffer = s.hart.lineBuffer := rfl
@[simp] theorem State.jump_hart_flipping (s : State) (a : BitVec 48) : (s.jump a).hart.flipping = s.hart.flipping := rfl
@[simp] theorem State.jump_hart_lost (s : State) (a : BitVec 48) : (s.jump a).hart.lost = s.hart.lost := rfl
@[simp] theorem State.jump_hart_qcb (s : State) (a : BitVec 48) : (s.jump a).hart.qcb = s.hart.qcb := rfl
@[simp] theorem State.jump_hart_job (s : State) (a : BitVec 48) : (s.jump a).hart.job = s.hart.job := rfl
@[simp] theorem State.jump_hart_bundle (s : State) (a : BitVec 48) : (s.jump a).hart.bundle = s.hart.bundle := rfl
@[simp] theorem State.jump_hart_task (s : State) (a : BitVec 48) : (s.jump a).hart.task = s.hart.task := rfl
@[simp] theorem State.jump_hart_args (s : State) (a : BitVec 48) : (s.jump a).hart.args = s.hart.args := rfl
@[simp] theorem State.jump_hart_entry (s : State) (a : BitVec 48) : (s.jump a).hart.entry = s.hart.entry := rfl
@[simp] theorem State.jump_hart_adv (s : State) (a : BitVec 48) : (s.jump a).hart.adv = s.hart.adv := rfl

/-! raise: fields of the hart -/

@[simp] theorem State.raise_hart_id (s : State) (k : OpClass) : (s.raise k).hart.id = s.hart.id := rfl
@[simp] theorem State.raise_hart_active (s : State) (k : OpClass) : (s.raise k).hart.active = s.hart.active := rfl
@[simp] theorem State.raise_hart_started (s : State) (k : OpClass) : (s.raise k).hart.started = s.hart.started := rfl
@[simp] theorem State.raise_hart_ending (s : State) (k : OpClass) : (s.raise k).hart.ending = s.hart.ending := rfl
@[simp] theorem State.raise_hart_failCode (s : State) (k : OpClass) : (s.raise k).hart.failCode = s.hart.failCode := rfl
@[simp] theorem State.raise_hart_ctx (s : State) (k : OpClass) : (s.raise k).hart.ctx = s.hart.ctx := rfl
@[simp] theorem State.raise_hart_split (s : State) (k : OpClass) : (s.raise k).hart.split = s.hart.split := rfl
@[simp] theorem State.raise_hart_setvlDone (s : State) (k : OpClass) : (s.raise k).hart.setvlDone = s.hart.setvlDone := rfl
@[simp] theorem State.raise_hart_s (s : State) (k : OpClass) : (s.raise k).hart.s = s.hart.s := rfl
@[simp] theorem State.raise_hart_v (s : State) (k : OpClass) : (s.raise k).hart.v = s.hart.v := rfl
@[simp] theorem State.raise_hart_m (s : State) (k : OpClass) : (s.raise k).hart.m = s.hart.m := rfl
@[simp] theorem State.raise_hart_vl (s : State) (k : OpClass) : (s.raise k).hart.vl = s.hart.vl := rfl
@[simp] theorem State.raise_hart_vlPad (s : State) (k : OpClass) : (s.raise k).hart.vlPad = s.hart.vlPad := rfl
@[simp] theorem State.raise_hart_vt (s : State) (k : OpClass) : (s.raise k).hart.vt = s.hart.vt := rfl
@[simp] theorem State.raise_hart_sw (s : State) (k : OpClass) : (s.raise k).hart.sw = s.hart.sw := rfl
@[simp] theorem State.raise_hart_vstart (s : State) (k : OpClass) : (s.raise k).hart.vstart = s.hart.vstart := rfl
@[simp] theorem State.raise_hart_pc (s : State) (k : OpClass) : (s.raise k).hart.pc = s.hart.pc := rfl
@[simp] theorem State.raise_hart_h (s : State) (k : OpClass) : (s.raise k).hart.h = s.hart.h := rfl
@[simp] theorem State.raise_hart_copy (s : State) (k : OpClass) : (s.raise k).hart.copy = s.hart.copy := rfl
@[simp] theorem State.raise_hart_q (s : State) (k : OpClass) : (s.raise k).hart.q = s.hart.q := rfl
@[simp] theorem State.raise_hart_cnt (s : State) (k : OpClass) : (s.raise k).hart.cnt = s.hart.cnt.add k 1 := rfl
@[simp] theorem State.raise_hart_ebLo (s : State) (k : OpClass) : (s.raise k).hart.ebLo = s.hart.ebLo := rfl
@[simp] theorem State.raise_hart_ebHi (s : State) (k : OpClass) : (s.raise k).hart.ebHi = s.hart.ebHi := rfl
@[simp] theorem State.raise_hart_mark (s : State) (k : OpClass) : (s.raise k).hart.mark = s.hart.mark := rfl
@[simp] theorem State.raise_hart_trap (s : State) (k : OpClass) : (s.raise k).hart.trap = s.hart.trap := rfl
@[simp] theorem State.raise_hart_bp (s : State) (k : OpClass) : (s.raise k).hart.bp = s.hart.bp := rfl
@[simp] theorem State.raise_hart_bpDone (s : State) (k : OpClass) : (s.raise k).hart.bpDone = s.hart.bpDone := rfl
@[simp] theorem State.raise_hart_fired (s : State) (k : OpClass) : (s.raise k).hart.fired = s.hart.fired := rfl
@[simp] theorem State.raise_hart_reservation (s : State) (k : OpClass) : (s.raise k).hart.reservation = s.hart.reservation := rfl
@[simp] theorem State.raise_hart_region (s : State) (k : OpClass) : (s.raise k).hart.region = s.hart.region := rfl
@[simp] theorem State.raise_hart_aborts (s : State) (k : OpClass) : (s.raise k).hart.aborts = s.hart.aborts := rfl
@[simp] theorem State.raise_hart_empty (s : State) (k : OpClass) : (s.raise k).hart.empty = s.hart.empty := rfl
@[simp] theorem State.raise_hart_barWait (s : State) (k : OpClass) : (s.raise k).hart.barWait = s.hart.barWait := rfl
@[simp] theorem State.raise_hart_xredCall (s : State) (k : OpClass) : (s.raise k).hart.xredCall = s.hart.xredCall := rfl
@[simp] theorem State.raise_hart_pushing (s : State) (k : OpClass) : (s.raise k).hart.pushing = s.hart.pushing := rfl
@[simp] theorem State.raise_hart_claims (s : State) (k : OpClass) : (s.raise k).hart.claims = s.hart.claims := rfl
@[simp] theorem State.raise_hart_stalls (s : State) (k : OpClass) : (s.raise k).hart.stalls = s.hart.stalls := rfl
@[simp] theorem State.raise_hart_stallEvict (s : State) (k : OpClass) : (s.raise k).hart.stallEvict = s.hart.stallEvict := rfl
@[simp] theorem State.raise_hart_prio (s : State) (k : OpClass) : (s.raise k).hart.prio = s.hart.prio := rfl
@[simp] theorem State.raise_hart_urgent (s : State) (k : OpClass) : (s.raise k).hart.urgent = s.hart.urgent := rfl
@[simp] theorem State.raise_hart_passed (s : State) (k : OpClass) : (s.raise k).hart.passed = s.hart.passed := rfl
@[simp] theorem State.raise_hart_wait (s : State) (k : OpClass) : (s.raise k).hart.wait = s.hart.wait := rfl
@[simp] theorem State.raise_hart_yielded (s : State) (k : OpClass) : (s.raise k).hart.yielded = s.hart.yielded := rfl
@[simp] theorem State.raise_hart_accStores (s : State) (k : OpClass) : (s.raise k).hart.accStores = s.hart.accStores := rfl
@[simp] theorem State.raise_hart_parity (s : State) (k : OpClass) : (s.raise k).hart.parity = s.hart.parity := rfl
@[simp] theorem State.raise_hart_pooled (s : State) (k : OpClass) : (s.raise k).hart.pooled = s.hart.pooled := rfl
@[simp] theorem State.raise_hart_fenced (s : State) (k : OpClass) : (s.raise k).hart.fenced = s.hart.fenced := rfl
@[simp] theorem State.raise_hart_sent (s : State) (k : OpClass) : (s.raise k).hart.sent = s.hart.sent := rfl
@[simp] theorem State.raise_hart_gates (s : State) (k : OpClass) : (s.raise k).hart.gates = s.hart.gates := rfl
@[simp] theorem State.raise_hart_lineBuffer (s : State) (k : OpClass) : (s.raise k).hart.lineBuffer = s.hart.lineBuffer := rfl
@[simp] theorem State.raise_hart_flipping (s : State) (k : OpClass) : (s.raise k).hart.flipping = s.hart.flipping := rfl
@[simp] theorem State.raise_hart_lost (s : State) (k : OpClass) : (s.raise k).hart.lost = s.hart.lost := rfl
@[simp] theorem State.raise_hart_qcb (s : State) (k : OpClass) : (s.raise k).hart.qcb = s.hart.qcb := rfl
@[simp] theorem State.raise_hart_job (s : State) (k : OpClass) : (s.raise k).hart.job = s.hart.job := rfl
@[simp] theorem State.raise_hart_bundle (s : State) (k : OpClass) : (s.raise k).hart.bundle = s.hart.bundle := rfl
@[simp] theorem State.raise_hart_task (s : State) (k : OpClass) : (s.raise k).hart.task = s.hart.task := rfl
@[simp] theorem State.raise_hart_args (s : State) (k : OpClass) : (s.raise k).hart.args = s.hart.args := rfl
@[simp] theorem State.raise_hart_entry (s : State) (k : OpClass) : (s.raise k).hart.entry = s.hart.entry := rfl
@[simp] theorem State.raise_hart_adv (s : State) (k : OpClass) : (s.raise k).hart.adv = s.hart.adv := rfl

/-! issueOp: fields of the hart -/

@[simp] theorem State.issueOp_hart_id (s : State) (k : OpClass) : (s.issueOp k).hart.id = s.hart.id := rfl
@[simp] theorem State.issueOp_hart_active (s : State) (k : OpClass) : (s.issueOp k).hart.active = s.hart.active := rfl
@[simp] theorem State.issueOp_hart_started (s : State) (k : OpClass) : (s.issueOp k).hart.started = s.hart.started := rfl
@[simp] theorem State.issueOp_hart_ending (s : State) (k : OpClass) : (s.issueOp k).hart.ending = s.hart.ending := rfl
@[simp] theorem State.issueOp_hart_failCode (s : State) (k : OpClass) : (s.issueOp k).hart.failCode = s.hart.failCode := rfl
@[simp] theorem State.issueOp_hart_ctx (s : State) (k : OpClass) : (s.issueOp k).hart.ctx = s.hart.ctx := rfl
@[simp] theorem State.issueOp_hart_split (s : State) (k : OpClass) : (s.issueOp k).hart.split = s.hart.split := rfl
@[simp] theorem State.issueOp_hart_setvlDone (s : State) (k : OpClass) : (s.issueOp k).hart.setvlDone = s.hart.setvlDone := rfl
@[simp] theorem State.issueOp_hart_s (s : State) (k : OpClass) : (s.issueOp k).hart.s = s.hart.s := rfl
@[simp] theorem State.issueOp_hart_v (s : State) (k : OpClass) : (s.issueOp k).hart.v = s.hart.v := rfl
@[simp] theorem State.issueOp_hart_m (s : State) (k : OpClass) : (s.issueOp k).hart.m = s.hart.m := rfl
@[simp] theorem State.issueOp_hart_vl (s : State) (k : OpClass) : (s.issueOp k).hart.vl = s.hart.vl := rfl
@[simp] theorem State.issueOp_hart_vlPad (s : State) (k : OpClass) : (s.issueOp k).hart.vlPad = s.hart.vlPad := rfl
@[simp] theorem State.issueOp_hart_vt (s : State) (k : OpClass) : (s.issueOp k).hart.vt = s.hart.vt := rfl
@[simp] theorem State.issueOp_hart_sw (s : State) (k : OpClass) : (s.issueOp k).hart.sw = s.hart.sw := rfl
@[simp] theorem State.issueOp_hart_vstart (s : State) (k : OpClass) : (s.issueOp k).hart.vstart = s.hart.vstart := rfl
@[simp] theorem State.issueOp_hart_pc (s : State) (k : OpClass) : (s.issueOp k).hart.pc = s.hart.pc := rfl
@[simp] theorem State.issueOp_hart_h (s : State) (k : OpClass) : (s.issueOp k).hart.h = s.hart.h := rfl
@[simp] theorem State.issueOp_hart_copy (s : State) (k : OpClass) : (s.issueOp k).hart.copy = s.hart.copy := rfl
@[simp] theorem State.issueOp_hart_q (s : State) (k : OpClass) : (s.issueOp k).hart.q = s.hart.q := rfl
@[simp] theorem State.issueOp_hart_cnt (s : State) (k : OpClass) : (s.issueOp k).hart.cnt = s.hart.cnt.add k 1 := rfl
@[simp] theorem State.issueOp_hart_ebLo (s : State) (k : OpClass) : (s.issueOp k).hart.ebLo = s.hart.ebLo := rfl
@[simp] theorem State.issueOp_hart_ebHi (s : State) (k : OpClass) : (s.issueOp k).hart.ebHi = s.hart.ebHi := rfl
@[simp] theorem State.issueOp_hart_mark (s : State) (k : OpClass) : (s.issueOp k).hart.mark = s.hart.mark := rfl
@[simp] theorem State.issueOp_hart_trap (s : State) (k : OpClass) : (s.issueOp k).hart.trap = s.hart.trap := rfl
@[simp] theorem State.issueOp_hart_bp (s : State) (k : OpClass) : (s.issueOp k).hart.bp = s.hart.bp := rfl
@[simp] theorem State.issueOp_hart_bpDone (s : State) (k : OpClass) : (s.issueOp k).hart.bpDone = s.hart.bpDone := rfl
@[simp] theorem State.issueOp_hart_fired (s : State) (k : OpClass) : (s.issueOp k).hart.fired = s.hart.fired := rfl
@[simp] theorem State.issueOp_hart_reservation (s : State) (k : OpClass) : (s.issueOp k).hart.reservation = s.hart.reservation := rfl
@[simp] theorem State.issueOp_hart_region (s : State) (k : OpClass) : (s.issueOp k).hart.region = s.hart.region := rfl
@[simp] theorem State.issueOp_hart_aborts (s : State) (k : OpClass) : (s.issueOp k).hart.aborts = s.hart.aborts := rfl
@[simp] theorem State.issueOp_hart_empty (s : State) (k : OpClass) : (s.issueOp k).hart.empty = s.hart.empty := rfl
@[simp] theorem State.issueOp_hart_barWait (s : State) (k : OpClass) : (s.issueOp k).hart.barWait = s.hart.barWait := rfl
@[simp] theorem State.issueOp_hart_xredCall (s : State) (k : OpClass) : (s.issueOp k).hart.xredCall = s.hart.xredCall := rfl
@[simp] theorem State.issueOp_hart_pushing (s : State) (k : OpClass) : (s.issueOp k).hart.pushing = s.hart.pushing := rfl
@[simp] theorem State.issueOp_hart_claims (s : State) (k : OpClass) : (s.issueOp k).hart.claims = s.hart.claims := rfl
@[simp] theorem State.issueOp_hart_stalls (s : State) (k : OpClass) : (s.issueOp k).hart.stalls = s.hart.stalls := rfl
@[simp] theorem State.issueOp_hart_stallEvict (s : State) (k : OpClass) : (s.issueOp k).hart.stallEvict = s.hart.stallEvict := rfl
@[simp] theorem State.issueOp_hart_prio (s : State) (k : OpClass) : (s.issueOp k).hart.prio = s.hart.prio := rfl
@[simp] theorem State.issueOp_hart_urgent (s : State) (k : OpClass) : (s.issueOp k).hart.urgent = s.hart.urgent := rfl
@[simp] theorem State.issueOp_hart_passed (s : State) (k : OpClass) : (s.issueOp k).hart.passed = s.hart.passed := rfl
@[simp] theorem State.issueOp_hart_wait (s : State) (k : OpClass) : (s.issueOp k).hart.wait = s.hart.wait := rfl
@[simp] theorem State.issueOp_hart_yielded (s : State) (k : OpClass) : (s.issueOp k).hart.yielded = s.hart.yielded := rfl
@[simp] theorem State.issueOp_hart_accStores (s : State) (k : OpClass) : (s.issueOp k).hart.accStores = s.hart.accStores := rfl
@[simp] theorem State.issueOp_hart_parity (s : State) (k : OpClass) : (s.issueOp k).hart.parity = s.hart.parity := rfl
@[simp] theorem State.issueOp_hart_pooled (s : State) (k : OpClass) : (s.issueOp k).hart.pooled = s.hart.pooled := rfl
@[simp] theorem State.issueOp_hart_fenced (s : State) (k : OpClass) : (s.issueOp k).hart.fenced = s.hart.fenced := rfl
@[simp] theorem State.issueOp_hart_sent (s : State) (k : OpClass) : (s.issueOp k).hart.sent = s.hart.sent := rfl
@[simp] theorem State.issueOp_hart_gates (s : State) (k : OpClass) : (s.issueOp k).hart.gates = s.hart.gates := rfl
@[simp] theorem State.issueOp_hart_lineBuffer (s : State) (k : OpClass) : (s.issueOp k).hart.lineBuffer = s.hart.lineBuffer := rfl
@[simp] theorem State.issueOp_hart_flipping (s : State) (k : OpClass) : (s.issueOp k).hart.flipping = s.hart.flipping := rfl
@[simp] theorem State.issueOp_hart_lost (s : State) (k : OpClass) : (s.issueOp k).hart.lost = s.hart.lost := rfl
@[simp] theorem State.issueOp_hart_qcb (s : State) (k : OpClass) : (s.issueOp k).hart.qcb = s.hart.qcb := rfl
@[simp] theorem State.issueOp_hart_job (s : State) (k : OpClass) : (s.issueOp k).hart.job = s.hart.job := rfl
@[simp] theorem State.issueOp_hart_bundle (s : State) (k : OpClass) : (s.issueOp k).hart.bundle = s.hart.bundle := rfl
@[simp] theorem State.issueOp_hart_task (s : State) (k : OpClass) : (s.issueOp k).hart.task = s.hart.task := rfl
@[simp] theorem State.issueOp_hart_args (s : State) (k : OpClass) : (s.issueOp k).hart.args = s.hart.args := rfl
@[simp] theorem State.issueOp_hart_entry (s : State) (k : OpClass) : (s.issueOp k).hart.entry = s.hart.entry := rfl
@[simp] theorem State.issueOp_hart_adv (s : State) (k : OpClass) : (s.issueOp k).hart.adv = s.hart.adv := rfl

/-! setS: fields of the hart -/

@[simp] theorem Hart.setS_id (h : Hart) (r : BitVec 5) (x : Word) : (h.setS r x).id = h.id := by unfold Hart.setS; split <;> rfl
@[simp] theorem Hart.setS_active (h : Hart) (r : BitVec 5) (x : Word) : (h.setS r x).active = h.active := by unfold Hart.setS; split <;> rfl
@[simp] theorem Hart.setS_started (h : Hart) (r : BitVec 5) (x : Word) : (h.setS r x).started = h.started := by unfold Hart.setS; split <;> rfl
@[simp] theorem Hart.setS_ending (h : Hart) (r : BitVec 5) (x : Word) : (h.setS r x).ending = h.ending := by unfold Hart.setS; split <;> rfl
@[simp] theorem Hart.setS_failCode (h : Hart) (r : BitVec 5) (x : Word) : (h.setS r x).failCode = h.failCode := by unfold Hart.setS; split <;> rfl
@[simp] theorem Hart.setS_ctx (h : Hart) (r : BitVec 5) (x : Word) : (h.setS r x).ctx = h.ctx := by unfold Hart.setS; split <;> rfl
@[simp] theorem Hart.setS_split (h : Hart) (r : BitVec 5) (x : Word) : (h.setS r x).split = h.split := by unfold Hart.setS; split <;> rfl
@[simp] theorem Hart.setS_setvlDone (h : Hart) (r : BitVec 5) (x : Word) : (h.setS r x).setvlDone = h.setvlDone := by unfold Hart.setS; split <;> rfl
@[simp] theorem Hart.setS_v (h : Hart) (r : BitVec 5) (x : Word) : (h.setS r x).v = h.v := by unfold Hart.setS; split <;> rfl
@[simp] theorem Hart.setS_m (h : Hart) (r : BitVec 5) (x : Word) : (h.setS r x).m = h.m := by unfold Hart.setS; split <;> rfl
@[simp] theorem Hart.setS_vl (h : Hart) (r : BitVec 5) (x : Word) : (h.setS r x).vl = h.vl := by unfold Hart.setS; split <;> rfl
@[simp] theorem Hart.setS_vlPad (h : Hart) (r : BitVec 5) (x : Word) : (h.setS r x).vlPad = h.vlPad := by unfold Hart.setS; split <;> rfl
@[simp] theorem Hart.setS_vt (h : Hart) (r : BitVec 5) (x : Word) : (h.setS r x).vt = h.vt := by unfold Hart.setS; split <;> rfl
@[simp] theorem Hart.setS_sw (h : Hart) (r : BitVec 5) (x : Word) : (h.setS r x).sw = h.sw := by unfold Hart.setS; split <;> rfl
@[simp] theorem Hart.setS_vstart (h : Hart) (r : BitVec 5) (x : Word) : (h.setS r x).vstart = h.vstart := by unfold Hart.setS; split <;> rfl
@[simp] theorem Hart.setS_pc (h : Hart) (r : BitVec 5) (x : Word) : (h.setS r x).pc = h.pc := by unfold Hart.setS; split <;> rfl
@[simp] theorem Hart.setS_h (h : Hart) (r : BitVec 5) (x : Word) : (h.setS r x).h = h.h := by unfold Hart.setS; split <;> rfl
@[simp] theorem Hart.setS_copy (h : Hart) (r : BitVec 5) (x : Word) : (h.setS r x).copy = h.copy := by unfold Hart.setS; split <;> rfl
@[simp] theorem Hart.setS_q (h : Hart) (r : BitVec 5) (x : Word) : (h.setS r x).q = h.q := by unfold Hart.setS; split <;> rfl
@[simp] theorem Hart.setS_cnt (h : Hart) (r : BitVec 5) (x : Word) : (h.setS r x).cnt = h.cnt := by unfold Hart.setS; split <;> rfl
@[simp] theorem Hart.setS_ebLo (h : Hart) (r : BitVec 5) (x : Word) : (h.setS r x).ebLo = h.ebLo := by unfold Hart.setS; split <;> rfl
@[simp] theorem Hart.setS_ebHi (h : Hart) (r : BitVec 5) (x : Word) : (h.setS r x).ebHi = h.ebHi := by unfold Hart.setS; split <;> rfl
@[simp] theorem Hart.setS_mark (h : Hart) (r : BitVec 5) (x : Word) : (h.setS r x).mark = h.mark := by unfold Hart.setS; split <;> rfl
@[simp] theorem Hart.setS_trap (h : Hart) (r : BitVec 5) (x : Word) : (h.setS r x).trap = h.trap := by unfold Hart.setS; split <;> rfl
@[simp] theorem Hart.setS_bp (h : Hart) (r : BitVec 5) (x : Word) : (h.setS r x).bp = h.bp := by unfold Hart.setS; split <;> rfl
@[simp] theorem Hart.setS_bpDone (h : Hart) (r : BitVec 5) (x : Word) : (h.setS r x).bpDone = h.bpDone := by unfold Hart.setS; split <;> rfl
@[simp] theorem Hart.setS_fired (h : Hart) (r : BitVec 5) (x : Word) : (h.setS r x).fired = h.fired := by unfold Hart.setS; split <;> rfl
@[simp] theorem Hart.setS_reservation (h : Hart) (r : BitVec 5) (x : Word) : (h.setS r x).reservation = h.reservation := by unfold Hart.setS; split <;> rfl
@[simp] theorem Hart.setS_region (h : Hart) (r : BitVec 5) (x : Word) : (h.setS r x).region = h.region := by unfold Hart.setS; split <;> rfl
@[simp] theorem Hart.setS_aborts (h : Hart) (r : BitVec 5) (x : Word) : (h.setS r x).aborts = h.aborts := by unfold Hart.setS; split <;> rfl
@[simp] theorem Hart.setS_empty (h : Hart) (r : BitVec 5) (x : Word) : (h.setS r x).empty = h.empty := by unfold Hart.setS; split <;> rfl
@[simp] theorem Hart.setS_barWait (h : Hart) (r : BitVec 5) (x : Word) : (h.setS r x).barWait = h.barWait := by unfold Hart.setS; split <;> rfl
@[simp] theorem Hart.setS_xredCall (h : Hart) (r : BitVec 5) (x : Word) : (h.setS r x).xredCall = h.xredCall := by unfold Hart.setS; split <;> rfl
@[simp] theorem Hart.setS_pushing (h : Hart) (r : BitVec 5) (x : Word) : (h.setS r x).pushing = h.pushing := by unfold Hart.setS; split <;> rfl
@[simp] theorem Hart.setS_claims (h : Hart) (r : BitVec 5) (x : Word) : (h.setS r x).claims = h.claims := by unfold Hart.setS; split <;> rfl
@[simp] theorem Hart.setS_stalls (h : Hart) (r : BitVec 5) (x : Word) : (h.setS r x).stalls = h.stalls := by unfold Hart.setS; split <;> rfl
@[simp] theorem Hart.setS_stallEvict (h : Hart) (r : BitVec 5) (x : Word) : (h.setS r x).stallEvict = h.stallEvict := by unfold Hart.setS; split <;> rfl
@[simp] theorem Hart.setS_prio (h : Hart) (r : BitVec 5) (x : Word) : (h.setS r x).prio = h.prio := by unfold Hart.setS; split <;> rfl
@[simp] theorem Hart.setS_urgent (h : Hart) (r : BitVec 5) (x : Word) : (h.setS r x).urgent = h.urgent := by unfold Hart.setS; split <;> rfl
@[simp] theorem Hart.setS_passed (h : Hart) (r : BitVec 5) (x : Word) : (h.setS r x).passed = h.passed := by unfold Hart.setS; split <;> rfl
@[simp] theorem Hart.setS_wait (h : Hart) (r : BitVec 5) (x : Word) : (h.setS r x).wait = h.wait := by unfold Hart.setS; split <;> rfl
@[simp] theorem Hart.setS_yielded (h : Hart) (r : BitVec 5) (x : Word) : (h.setS r x).yielded = h.yielded := by unfold Hart.setS; split <;> rfl
@[simp] theorem Hart.setS_accStores (h : Hart) (r : BitVec 5) (x : Word) : (h.setS r x).accStores = h.accStores := by unfold Hart.setS; split <;> rfl
@[simp] theorem Hart.setS_pooled (h : Hart) (r : BitVec 5) (x : Word) : (h.setS r x).pooled = h.pooled := by unfold Hart.setS; split <;> rfl
@[simp] theorem Hart.setS_fenced (h : Hart) (r : BitVec 5) (x : Word) : (h.setS r x).fenced = h.fenced := by unfold Hart.setS; split <;> rfl
@[simp] theorem Hart.setS_sent (h : Hart) (r : BitVec 5) (x : Word) : (h.setS r x).sent = h.sent := by unfold Hart.setS; split <;> rfl
@[simp] theorem Hart.setS_gates (h : Hart) (r : BitVec 5) (x : Word) : (h.setS r x).gates = h.gates := by unfold Hart.setS; split <;> rfl
@[simp] theorem Hart.setS_lineBuffer (h : Hart) (r : BitVec 5) (x : Word) : (h.setS r x).lineBuffer = h.lineBuffer := by unfold Hart.setS; split <;> rfl
@[simp] theorem Hart.setS_flipping (h : Hart) (r : BitVec 5) (x : Word) : (h.setS r x).flipping = h.flipping := by unfold Hart.setS; split <;> rfl
@[simp] theorem Hart.setS_lost (h : Hart) (r : BitVec 5) (x : Word) : (h.setS r x).lost = h.lost := by unfold Hart.setS; split <;> rfl
@[simp] theorem Hart.setS_qcb (h : Hart) (r : BitVec 5) (x : Word) : (h.setS r x).qcb = h.qcb := by unfold Hart.setS; split <;> rfl
@[simp] theorem Hart.setS_job (h : Hart) (r : BitVec 5) (x : Word) : (h.setS r x).job = h.job := by unfold Hart.setS; split <;> rfl
@[simp] theorem Hart.setS_bundle (h : Hart) (r : BitVec 5) (x : Word) : (h.setS r x).bundle = h.bundle := by unfold Hart.setS; split <;> rfl
@[simp] theorem Hart.setS_task (h : Hart) (r : BitVec 5) (x : Word) : (h.setS r x).task = h.task := by unfold Hart.setS; split <;> rfl
@[simp] theorem Hart.setS_args (h : Hart) (r : BitVec 5) (x : Word) : (h.setS r x).args = h.args := by unfold Hart.setS; split <;> rfl
@[simp] theorem Hart.setS_entry (h : Hart) (r : BitVec 5) (x : Word) : (h.setS r x).entry = h.entry := by unfold Hart.setS; split <;> rfl
@[simp] theorem Hart.setS_adv (h : Hart) (r : BitVec 5) (x : Word) : (h.setS r x).adv = h.adv := by unfold Hart.setS; split <;> rfl

/-! setV: fields of the hart -/

@[simp] theorem Hart.setV_id (h : Hart) (n x : Nat) : (h.setV n x).id = h.id := rfl
@[simp] theorem Hart.setV_active (h : Hart) (n x : Nat) : (h.setV n x).active = h.active := rfl
@[simp] theorem Hart.setV_started (h : Hart) (n x : Nat) : (h.setV n x).started = h.started := rfl
@[simp] theorem Hart.setV_ending (h : Hart) (n x : Nat) : (h.setV n x).ending = h.ending := rfl
@[simp] theorem Hart.setV_failCode (h : Hart) (n x : Nat) : (h.setV n x).failCode = h.failCode := rfl
@[simp] theorem Hart.setV_ctx (h : Hart) (n x : Nat) : (h.setV n x).ctx = h.ctx := rfl
@[simp] theorem Hart.setV_split (h : Hart) (n x : Nat) : (h.setV n x).split = h.split := rfl
@[simp] theorem Hart.setV_setvlDone (h : Hart) (n x : Nat) : (h.setV n x).setvlDone = h.setvlDone := rfl
@[simp] theorem Hart.setV_s (h : Hart) (n x : Nat) : (h.setV n x).s = h.s := rfl
@[simp] theorem Hart.setV_v (h : Hart) (n x : Nat) : (h.setV n x).v = h.v.setIfInBounds n (BitVec.ofNat 8192 x) := rfl
@[simp] theorem Hart.setV_m (h : Hart) (n x : Nat) : (h.setV n x).m = h.m := rfl
@[simp] theorem Hart.setV_vl (h : Hart) (n x : Nat) : (h.setV n x).vl = h.vl := rfl
@[simp] theorem Hart.setV_vlPad (h : Hart) (n x : Nat) : (h.setV n x).vlPad = h.vlPad := rfl
@[simp] theorem Hart.setV_vt (h : Hart) (n x : Nat) : (h.setV n x).vt = h.vt := rfl
@[simp] theorem Hart.setV_sw (h : Hart) (n x : Nat) : (h.setV n x).sw = h.sw := rfl
@[simp] theorem Hart.setV_vstart (h : Hart) (n x : Nat) : (h.setV n x).vstart = h.vstart := rfl
@[simp] theorem Hart.setV_pc (h : Hart) (n x : Nat) : (h.setV n x).pc = h.pc := rfl
@[simp] theorem Hart.setV_h (h : Hart) (n x : Nat) : (h.setV n x).h = h.h := rfl
@[simp] theorem Hart.setV_copy (h : Hart) (n x : Nat) : (h.setV n x).copy = h.copy := rfl
@[simp] theorem Hart.setV_q (h : Hart) (n x : Nat) : (h.setV n x).q = h.q := rfl
@[simp] theorem Hart.setV_cnt (h : Hart) (n x : Nat) : (h.setV n x).cnt = h.cnt := rfl
@[simp] theorem Hart.setV_ebLo (h : Hart) (n x : Nat) : (h.setV n x).ebLo = h.ebLo := rfl
@[simp] theorem Hart.setV_ebHi (h : Hart) (n x : Nat) : (h.setV n x).ebHi = h.ebHi := rfl
@[simp] theorem Hart.setV_mark (h : Hart) (n x : Nat) : (h.setV n x).mark = h.mark := rfl
@[simp] theorem Hart.setV_trap (h : Hart) (n x : Nat) : (h.setV n x).trap = h.trap := rfl
@[simp] theorem Hart.setV_bp (h : Hart) (n x : Nat) : (h.setV n x).bp = h.bp := rfl
@[simp] theorem Hart.setV_bpDone (h : Hart) (n x : Nat) : (h.setV n x).bpDone = h.bpDone := rfl
@[simp] theorem Hart.setV_fired (h : Hart) (n x : Nat) : (h.setV n x).fired = h.fired := rfl
@[simp] theorem Hart.setV_reservation (h : Hart) (n x : Nat) : (h.setV n x).reservation = h.reservation := rfl
@[simp] theorem Hart.setV_region (h : Hart) (n x : Nat) : (h.setV n x).region = h.region := rfl
@[simp] theorem Hart.setV_aborts (h : Hart) (n x : Nat) : (h.setV n x).aborts = h.aborts := rfl
@[simp] theorem Hart.setV_empty (h : Hart) (n x : Nat) : (h.setV n x).empty = h.empty := rfl
@[simp] theorem Hart.setV_barWait (h : Hart) (n x : Nat) : (h.setV n x).barWait = h.barWait := rfl
@[simp] theorem Hart.setV_xredCall (h : Hart) (n x : Nat) : (h.setV n x).xredCall = h.xredCall := rfl
@[simp] theorem Hart.setV_pushing (h : Hart) (n x : Nat) : (h.setV n x).pushing = h.pushing := rfl
@[simp] theorem Hart.setV_claims (h : Hart) (n x : Nat) : (h.setV n x).claims = h.claims := rfl
@[simp] theorem Hart.setV_stalls (h : Hart) (n x : Nat) : (h.setV n x).stalls = h.stalls := rfl
@[simp] theorem Hart.setV_stallEvict (h : Hart) (n x : Nat) : (h.setV n x).stallEvict = h.stallEvict := rfl
@[simp] theorem Hart.setV_prio (h : Hart) (n x : Nat) : (h.setV n x).prio = h.prio := rfl
@[simp] theorem Hart.setV_urgent (h : Hart) (n x : Nat) : (h.setV n x).urgent = h.urgent := rfl
@[simp] theorem Hart.setV_passed (h : Hart) (n x : Nat) : (h.setV n x).passed = h.passed := rfl
@[simp] theorem Hart.setV_wait (h : Hart) (n x : Nat) : (h.setV n x).wait = h.wait := rfl
@[simp] theorem Hart.setV_yielded (h : Hart) (n x : Nat) : (h.setV n x).yielded = h.yielded := rfl
@[simp] theorem Hart.setV_accStores (h : Hart) (n x : Nat) : (h.setV n x).accStores = h.accStores := rfl
@[simp] theorem Hart.setV_parity (h : Hart) (n x : Nat) : (h.setV n x).parity = h.parity := rfl
@[simp] theorem Hart.setV_pooled (h : Hart) (n x : Nat) : (h.setV n x).pooled = h.pooled := rfl
@[simp] theorem Hart.setV_fenced (h : Hart) (n x : Nat) : (h.setV n x).fenced = h.fenced := rfl
@[simp] theorem Hart.setV_sent (h : Hart) (n x : Nat) : (h.setV n x).sent = h.sent := rfl
@[simp] theorem Hart.setV_gates (h : Hart) (n x : Nat) : (h.setV n x).gates = h.gates := rfl
@[simp] theorem Hart.setV_lineBuffer (h : Hart) (n x : Nat) : (h.setV n x).lineBuffer = h.lineBuffer := rfl
@[simp] theorem Hart.setV_flipping (h : Hart) (n x : Nat) : (h.setV n x).flipping = h.flipping := rfl
@[simp] theorem Hart.setV_lost (h : Hart) (n x : Nat) : (h.setV n x).lost = h.lost := rfl
@[simp] theorem Hart.setV_qcb (h : Hart) (n x : Nat) : (h.setV n x).qcb = h.qcb := rfl
@[simp] theorem Hart.setV_job (h : Hart) (n x : Nat) : (h.setV n x).job = h.job := rfl
@[simp] theorem Hart.setV_bundle (h : Hart) (n x : Nat) : (h.setV n x).bundle = h.bundle := rfl
@[simp] theorem Hart.setV_task (h : Hart) (n x : Nat) : (h.setV n x).task = h.task := rfl
@[simp] theorem Hart.setV_args (h : Hart) (n x : Nat) : (h.setV n x).args = h.args := rfl
@[simp] theorem Hart.setV_entry (h : Hart) (n x : Nat) : (h.setV n x).entry = h.entry := rfl
@[simp] theorem Hart.setV_adv (h : Hart) (n x : Nat) : (h.setV n x).adv = h.adv := rfl

/-! setM: fields of the hart -/

@[simp] theorem Hart.setM_id (h : Hart) (n x : Nat) : (h.setM n x).id = h.id := by unfold Hart.setM; split <;> rfl
@[simp] theorem Hart.setM_active (h : Hart) (n x : Nat) : (h.setM n x).active = h.active := by unfold Hart.setM; split <;> rfl
@[simp] theorem Hart.setM_started (h : Hart) (n x : Nat) : (h.setM n x).started = h.started := by unfold Hart.setM; split <;> rfl
@[simp] theorem Hart.setM_ending (h : Hart) (n x : Nat) : (h.setM n x).ending = h.ending := by unfold Hart.setM; split <;> rfl
@[simp] theorem Hart.setM_failCode (h : Hart) (n x : Nat) : (h.setM n x).failCode = h.failCode := by unfold Hart.setM; split <;> rfl
@[simp] theorem Hart.setM_ctx (h : Hart) (n x : Nat) : (h.setM n x).ctx = h.ctx := by unfold Hart.setM; split <;> rfl
@[simp] theorem Hart.setM_split (h : Hart) (n x : Nat) : (h.setM n x).split = h.split := by unfold Hart.setM; split <;> rfl
@[simp] theorem Hart.setM_setvlDone (h : Hart) (n x : Nat) : (h.setM n x).setvlDone = h.setvlDone := by unfold Hart.setM; split <;> rfl
@[simp] theorem Hart.setM_s (h : Hart) (n x : Nat) : (h.setM n x).s = h.s := by unfold Hart.setM; split <;> rfl
@[simp] theorem Hart.setM_v (h : Hart) (n x : Nat) : (h.setM n x).v = h.v := by unfold Hart.setM; split <;> rfl
@[simp] theorem Hart.setM_vl (h : Hart) (n x : Nat) : (h.setM n x).vl = h.vl := by unfold Hart.setM; split <;> rfl
@[simp] theorem Hart.setM_vlPad (h : Hart) (n x : Nat) : (h.setM n x).vlPad = h.vlPad := by unfold Hart.setM; split <;> rfl
@[simp] theorem Hart.setM_vt (h : Hart) (n x : Nat) : (h.setM n x).vt = h.vt := by unfold Hart.setM; split <;> rfl
@[simp] theorem Hart.setM_sw (h : Hart) (n x : Nat) : (h.setM n x).sw = h.sw := by unfold Hart.setM; split <;> rfl
@[simp] theorem Hart.setM_vstart (h : Hart) (n x : Nat) : (h.setM n x).vstart = h.vstart := by unfold Hart.setM; split <;> rfl
@[simp] theorem Hart.setM_pc (h : Hart) (n x : Nat) : (h.setM n x).pc = h.pc := by unfold Hart.setM; split <;> rfl
@[simp] theorem Hart.setM_h (h : Hart) (n x : Nat) : (h.setM n x).h = h.h := by unfold Hart.setM; split <;> rfl
@[simp] theorem Hart.setM_copy (h : Hart) (n x : Nat) : (h.setM n x).copy = h.copy := by unfold Hart.setM; split <;> rfl
@[simp] theorem Hart.setM_q (h : Hart) (n x : Nat) : (h.setM n x).q = h.q := by unfold Hart.setM; split <;> rfl
@[simp] theorem Hart.setM_cnt (h : Hart) (n x : Nat) : (h.setM n x).cnt = h.cnt := by unfold Hart.setM; split <;> rfl
@[simp] theorem Hart.setM_ebLo (h : Hart) (n x : Nat) : (h.setM n x).ebLo = h.ebLo := by unfold Hart.setM; split <;> rfl
@[simp] theorem Hart.setM_ebHi (h : Hart) (n x : Nat) : (h.setM n x).ebHi = h.ebHi := by unfold Hart.setM; split <;> rfl
@[simp] theorem Hart.setM_mark (h : Hart) (n x : Nat) : (h.setM n x).mark = h.mark := by unfold Hart.setM; split <;> rfl
@[simp] theorem Hart.setM_trap (h : Hart) (n x : Nat) : (h.setM n x).trap = h.trap := by unfold Hart.setM; split <;> rfl
@[simp] theorem Hart.setM_bp (h : Hart) (n x : Nat) : (h.setM n x).bp = h.bp := by unfold Hart.setM; split <;> rfl
@[simp] theorem Hart.setM_bpDone (h : Hart) (n x : Nat) : (h.setM n x).bpDone = h.bpDone := by unfold Hart.setM; split <;> rfl
@[simp] theorem Hart.setM_fired (h : Hart) (n x : Nat) : (h.setM n x).fired = h.fired := by unfold Hart.setM; split <;> rfl
@[simp] theorem Hart.setM_reservation (h : Hart) (n x : Nat) : (h.setM n x).reservation = h.reservation := by unfold Hart.setM; split <;> rfl
@[simp] theorem Hart.setM_region (h : Hart) (n x : Nat) : (h.setM n x).region = h.region := by unfold Hart.setM; split <;> rfl
@[simp] theorem Hart.setM_aborts (h : Hart) (n x : Nat) : (h.setM n x).aborts = h.aborts := by unfold Hart.setM; split <;> rfl
@[simp] theorem Hart.setM_empty (h : Hart) (n x : Nat) : (h.setM n x).empty = h.empty := by unfold Hart.setM; split <;> rfl
@[simp] theorem Hart.setM_barWait (h : Hart) (n x : Nat) : (h.setM n x).barWait = h.barWait := by unfold Hart.setM; split <;> rfl
@[simp] theorem Hart.setM_xredCall (h : Hart) (n x : Nat) : (h.setM n x).xredCall = h.xredCall := by unfold Hart.setM; split <;> rfl
@[simp] theorem Hart.setM_pushing (h : Hart) (n x : Nat) : (h.setM n x).pushing = h.pushing := by unfold Hart.setM; split <;> rfl
@[simp] theorem Hart.setM_claims (h : Hart) (n x : Nat) : (h.setM n x).claims = h.claims := by unfold Hart.setM; split <;> rfl
@[simp] theorem Hart.setM_stalls (h : Hart) (n x : Nat) : (h.setM n x).stalls = h.stalls := by unfold Hart.setM; split <;> rfl
@[simp] theorem Hart.setM_stallEvict (h : Hart) (n x : Nat) : (h.setM n x).stallEvict = h.stallEvict := by unfold Hart.setM; split <;> rfl
@[simp] theorem Hart.setM_prio (h : Hart) (n x : Nat) : (h.setM n x).prio = h.prio := by unfold Hart.setM; split <;> rfl
@[simp] theorem Hart.setM_urgent (h : Hart) (n x : Nat) : (h.setM n x).urgent = h.urgent := by unfold Hart.setM; split <;> rfl
@[simp] theorem Hart.setM_passed (h : Hart) (n x : Nat) : (h.setM n x).passed = h.passed := by unfold Hart.setM; split <;> rfl
@[simp] theorem Hart.setM_wait (h : Hart) (n x : Nat) : (h.setM n x).wait = h.wait := by unfold Hart.setM; split <;> rfl
@[simp] theorem Hart.setM_yielded (h : Hart) (n x : Nat) : (h.setM n x).yielded = h.yielded := by unfold Hart.setM; split <;> rfl
@[simp] theorem Hart.setM_accStores (h : Hart) (n x : Nat) : (h.setM n x).accStores = h.accStores := by unfold Hart.setM; split <;> rfl
@[simp] theorem Hart.setM_parity (h : Hart) (n x : Nat) : (h.setM n x).parity = h.parity := by unfold Hart.setM; split <;> rfl
@[simp] theorem Hart.setM_pooled (h : Hart) (n x : Nat) : (h.setM n x).pooled = h.pooled := by unfold Hart.setM; split <;> rfl
@[simp] theorem Hart.setM_fenced (h : Hart) (n x : Nat) : (h.setM n x).fenced = h.fenced := by unfold Hart.setM; split <;> rfl
@[simp] theorem Hart.setM_sent (h : Hart) (n x : Nat) : (h.setM n x).sent = h.sent := by unfold Hart.setM; split <;> rfl
@[simp] theorem Hart.setM_gates (h : Hart) (n x : Nat) : (h.setM n x).gates = h.gates := by unfold Hart.setM; split <;> rfl
@[simp] theorem Hart.setM_lineBuffer (h : Hart) (n x : Nat) : (h.setM n x).lineBuffer = h.lineBuffer := by unfold Hart.setM; split <;> rfl
@[simp] theorem Hart.setM_flipping (h : Hart) (n x : Nat) : (h.setM n x).flipping = h.flipping := by unfold Hart.setM; split <;> rfl
@[simp] theorem Hart.setM_lost (h : Hart) (n x : Nat) : (h.setM n x).lost = h.lost := by unfold Hart.setM; split <;> rfl
@[simp] theorem Hart.setM_qcb (h : Hart) (n x : Nat) : (h.setM n x).qcb = h.qcb := by unfold Hart.setM; split <;> rfl
@[simp] theorem Hart.setM_job (h : Hart) (n x : Nat) : (h.setM n x).job = h.job := by unfold Hart.setM; split <;> rfl
@[simp] theorem Hart.setM_bundle (h : Hart) (n x : Nat) : (h.setM n x).bundle = h.bundle := by unfold Hart.setM; split <;> rfl
@[simp] theorem Hart.setM_task (h : Hart) (n x : Nat) : (h.setM n x).task = h.task := by unfold Hart.setM; split <;> rfl
@[simp] theorem Hart.setM_args (h : Hart) (n x : Nat) : (h.setM n x).args = h.args := by unfold Hart.setM; split <;> rfl
@[simp] theorem Hart.setM_entry (h : Hart) (n x : Nat) : (h.setM n x).entry = h.entry := by unfold Hart.setM; split <;> rfl
@[simp] theorem Hart.setM_adv (h : Hart) (n x : Nat) : (h.setM n x).adv = h.adv := by unfold Hart.setM; split <;> rfl

/-! unbindHandle: fields of the hart -/

@[simp] theorem Hart.unbindHandle_id (h : Hart) (i : Nat) : (h.unbindHandle i).id = h.id := rfl
@[simp] theorem Hart.unbindHandle_active (h : Hart) (i : Nat) : (h.unbindHandle i).active = h.active := rfl
@[simp] theorem Hart.unbindHandle_started (h : Hart) (i : Nat) : (h.unbindHandle i).started = h.started := rfl
@[simp] theorem Hart.unbindHandle_ending (h : Hart) (i : Nat) : (h.unbindHandle i).ending = h.ending := rfl
@[simp] theorem Hart.unbindHandle_failCode (h : Hart) (i : Nat) : (h.unbindHandle i).failCode = h.failCode := rfl
@[simp] theorem Hart.unbindHandle_ctx (h : Hart) (i : Nat) : (h.unbindHandle i).ctx = h.ctx := rfl
@[simp] theorem Hart.unbindHandle_split (h : Hart) (i : Nat) : (h.unbindHandle i).split = h.split := rfl
@[simp] theorem Hart.unbindHandle_setvlDone (h : Hart) (i : Nat) : (h.unbindHandle i).setvlDone = h.setvlDone := rfl
@[simp] theorem Hart.unbindHandle_s (h : Hart) (i : Nat) : (h.unbindHandle i).s = h.s := rfl
@[simp] theorem Hart.unbindHandle_v (h : Hart) (i : Nat) : (h.unbindHandle i).v = h.v := rfl
@[simp] theorem Hart.unbindHandle_m (h : Hart) (i : Nat) : (h.unbindHandle i).m = h.m := rfl
@[simp] theorem Hart.unbindHandle_vl (h : Hart) (i : Nat) : (h.unbindHandle i).vl = h.vl := rfl
@[simp] theorem Hart.unbindHandle_vlPad (h : Hart) (i : Nat) : (h.unbindHandle i).vlPad = h.vlPad := rfl
@[simp] theorem Hart.unbindHandle_vt (h : Hart) (i : Nat) : (h.unbindHandle i).vt = h.vt := rfl
@[simp] theorem Hart.unbindHandle_sw (h : Hart) (i : Nat) : (h.unbindHandle i).sw = h.sw := rfl
@[simp] theorem Hart.unbindHandle_vstart (h : Hart) (i : Nat) : (h.unbindHandle i).vstart = h.vstart := rfl
@[simp] theorem Hart.unbindHandle_pc (h : Hart) (i : Nat) : (h.unbindHandle i).pc = h.pc := rfl
@[simp] theorem Hart.unbindHandle_h (h : Hart) (i : Nat) : (h.unbindHandle i).h = h.h := rfl
@[simp] theorem Hart.unbindHandle_copy (h : Hart) (i : Nat) : (h.unbindHandle i).copy = h.copy := rfl
@[simp] theorem Hart.unbindHandle_cnt (h : Hart) (i : Nat) : (h.unbindHandle i).cnt = h.cnt := rfl
@[simp] theorem Hart.unbindHandle_ebLo (h : Hart) (i : Nat) : (h.unbindHandle i).ebLo = h.ebLo := rfl
@[simp] theorem Hart.unbindHandle_ebHi (h : Hart) (i : Nat) : (h.unbindHandle i).ebHi = h.ebHi := rfl
@[simp] theorem Hart.unbindHandle_mark (h : Hart) (i : Nat) : (h.unbindHandle i).mark = h.mark := rfl
@[simp] theorem Hart.unbindHandle_trap (h : Hart) (i : Nat) : (h.unbindHandle i).trap = h.trap := rfl
@[simp] theorem Hart.unbindHandle_bp (h : Hart) (i : Nat) : (h.unbindHandle i).bp = h.bp := rfl
@[simp] theorem Hart.unbindHandle_bpDone (h : Hart) (i : Nat) : (h.unbindHandle i).bpDone = h.bpDone := rfl
@[simp] theorem Hart.unbindHandle_fired (h : Hart) (i : Nat) : (h.unbindHandle i).fired = h.fired := rfl
@[simp] theorem Hart.unbindHandle_reservation (h : Hart) (i : Nat) : (h.unbindHandle i).reservation = h.reservation := rfl
@[simp] theorem Hart.unbindHandle_region (h : Hart) (i : Nat) : (h.unbindHandle i).region = h.region := rfl
@[simp] theorem Hart.unbindHandle_aborts (h : Hart) (i : Nat) : (h.unbindHandle i).aborts = h.aborts := rfl
@[simp] theorem Hart.unbindHandle_empty (h : Hart) (i : Nat) : (h.unbindHandle i).empty = h.empty := rfl
@[simp] theorem Hart.unbindHandle_barWait (h : Hart) (i : Nat) : (h.unbindHandle i).barWait = h.barWait := rfl
@[simp] theorem Hart.unbindHandle_xredCall (h : Hart) (i : Nat) : (h.unbindHandle i).xredCall = h.xredCall := rfl
@[simp] theorem Hart.unbindHandle_pushing (h : Hart) (i : Nat) : (h.unbindHandle i).pushing = h.pushing := rfl
@[simp] theorem Hart.unbindHandle_claims (h : Hart) (i : Nat) : (h.unbindHandle i).claims = h.claims := rfl
@[simp] theorem Hart.unbindHandle_stalls (h : Hart) (i : Nat) : (h.unbindHandle i).stalls = h.stalls := rfl
@[simp] theorem Hart.unbindHandle_stallEvict (h : Hart) (i : Nat) : (h.unbindHandle i).stallEvict = h.stallEvict := rfl
@[simp] theorem Hart.unbindHandle_prio (h : Hart) (i : Nat) : (h.unbindHandle i).prio = h.prio := rfl
@[simp] theorem Hart.unbindHandle_urgent (h : Hart) (i : Nat) : (h.unbindHandle i).urgent = h.urgent := rfl
@[simp] theorem Hart.unbindHandle_passed (h : Hart) (i : Nat) : (h.unbindHandle i).passed = h.passed := rfl
@[simp] theorem Hart.unbindHandle_wait (h : Hart) (i : Nat) : (h.unbindHandle i).wait = h.wait := rfl
@[simp] theorem Hart.unbindHandle_yielded (h : Hart) (i : Nat) : (h.unbindHandle i).yielded = h.yielded := rfl
@[simp] theorem Hart.unbindHandle_accStores (h : Hart) (i : Nat) : (h.unbindHandle i).accStores = h.accStores := rfl
@[simp] theorem Hart.unbindHandle_parity (h : Hart) (i : Nat) : (h.unbindHandle i).parity = h.parity := rfl
@[simp] theorem Hart.unbindHandle_pooled (h : Hart) (i : Nat) : (h.unbindHandle i).pooled = h.pooled := rfl
@[simp] theorem Hart.unbindHandle_fenced (h : Hart) (i : Nat) : (h.unbindHandle i).fenced = h.fenced := rfl
@[simp] theorem Hart.unbindHandle_sent (h : Hart) (i : Nat) : (h.unbindHandle i).sent = h.sent := rfl
@[simp] theorem Hart.unbindHandle_gates (h : Hart) (i : Nat) : (h.unbindHandle i).gates = h.gates := rfl
@[simp] theorem Hart.unbindHandle_lineBuffer (h : Hart) (i : Nat) : (h.unbindHandle i).lineBuffer = h.lineBuffer := rfl
@[simp] theorem Hart.unbindHandle_flipping (h : Hart) (i : Nat) : (h.unbindHandle i).flipping = h.flipping := rfl
@[simp] theorem Hart.unbindHandle_lost (h : Hart) (i : Nat) : (h.unbindHandle i).lost = h.lost := rfl
@[simp] theorem Hart.unbindHandle_qcb (h : Hart) (i : Nat) : (h.unbindHandle i).qcb = h.qcb := rfl
@[simp] theorem Hart.unbindHandle_job (h : Hart) (i : Nat) : (h.unbindHandle i).job = h.job := rfl
@[simp] theorem Hart.unbindHandle_bundle (h : Hart) (i : Nat) : (h.unbindHandle i).bundle = h.bundle := rfl
@[simp] theorem Hart.unbindHandle_task (h : Hart) (i : Nat) : (h.unbindHandle i).task = h.task := rfl
@[simp] theorem Hart.unbindHandle_args (h : Hart) (i : Nat) : (h.unbindHandle i).args = h.args := rfl
@[simp] theorem Hart.unbindHandle_entry (h : Hart) (i : Nat) : (h.unbindHandle i).entry = h.entry := rfl
@[simp] theorem Hart.unbindHandle_adv (h : Hart) (i : Nat) : (h.unbindHandle i).adv = h.adv := rfl

/-! freeHandle: fields of the hart -/

@[simp] theorem Hart.freeHandle_id (h : Hart) (i : Nat) : (h.freeHandle i).id = h.id := rfl
@[simp] theorem Hart.freeHandle_active (h : Hart) (i : Nat) : (h.freeHandle i).active = h.active := rfl
@[simp] theorem Hart.freeHandle_started (h : Hart) (i : Nat) : (h.freeHandle i).started = h.started := rfl
@[simp] theorem Hart.freeHandle_ending (h : Hart) (i : Nat) : (h.freeHandle i).ending = h.ending := rfl
@[simp] theorem Hart.freeHandle_failCode (h : Hart) (i : Nat) : (h.freeHandle i).failCode = h.failCode := rfl
@[simp] theorem Hart.freeHandle_ctx (h : Hart) (i : Nat) : (h.freeHandle i).ctx = h.ctx := rfl
@[simp] theorem Hart.freeHandle_split (h : Hart) (i : Nat) : (h.freeHandle i).split = h.split := rfl
@[simp] theorem Hart.freeHandle_setvlDone (h : Hart) (i : Nat) : (h.freeHandle i).setvlDone = h.setvlDone := rfl
@[simp] theorem Hart.freeHandle_s (h : Hart) (i : Nat) : (h.freeHandle i).s = h.s := rfl
@[simp] theorem Hart.freeHandle_v (h : Hart) (i : Nat) : (h.freeHandle i).v = h.v := rfl
@[simp] theorem Hart.freeHandle_m (h : Hart) (i : Nat) : (h.freeHandle i).m = h.m := rfl
@[simp] theorem Hart.freeHandle_vl (h : Hart) (i : Nat) : (h.freeHandle i).vl = h.vl := rfl
@[simp] theorem Hart.freeHandle_vlPad (h : Hart) (i : Nat) : (h.freeHandle i).vlPad = h.vlPad := rfl
@[simp] theorem Hart.freeHandle_vt (h : Hart) (i : Nat) : (h.freeHandle i).vt = h.vt := rfl
@[simp] theorem Hart.freeHandle_sw (h : Hart) (i : Nat) : (h.freeHandle i).sw = h.sw := rfl
@[simp] theorem Hart.freeHandle_vstart (h : Hart) (i : Nat) : (h.freeHandle i).vstart = h.vstart := rfl
@[simp] theorem Hart.freeHandle_pc (h : Hart) (i : Nat) : (h.freeHandle i).pc = h.pc := rfl
@[simp] theorem Hart.freeHandle_h (h : Hart) (i : Nat) : (h.freeHandle i).h = h.h.setIfInBounds i .free := rfl
@[simp] theorem Hart.freeHandle_copy (h : Hart) (i : Nat) : (h.freeHandle i).copy = h.copy.setIfInBounds i none := rfl
@[simp] theorem Hart.freeHandle_q (h : Hart) (i : Nat) : (h.freeHandle i).q = h.q := rfl
@[simp] theorem Hart.freeHandle_cnt (h : Hart) (i : Nat) : (h.freeHandle i).cnt = h.cnt.add .cp (-1) := rfl
@[simp] theorem Hart.freeHandle_ebLo (h : Hart) (i : Nat) : (h.freeHandle i).ebLo = h.ebLo := rfl
@[simp] theorem Hart.freeHandle_ebHi (h : Hart) (i : Nat) : (h.freeHandle i).ebHi = h.ebHi := rfl
@[simp] theorem Hart.freeHandle_mark (h : Hart) (i : Nat) : (h.freeHandle i).mark = h.mark := rfl
@[simp] theorem Hart.freeHandle_trap (h : Hart) (i : Nat) : (h.freeHandle i).trap = h.trap := rfl
@[simp] theorem Hart.freeHandle_bp (h : Hart) (i : Nat) : (h.freeHandle i).bp = h.bp := rfl
@[simp] theorem Hart.freeHandle_bpDone (h : Hart) (i : Nat) : (h.freeHandle i).bpDone = h.bpDone := rfl
@[simp] theorem Hart.freeHandle_fired (h : Hart) (i : Nat) : (h.freeHandle i).fired = h.fired := rfl
@[simp] theorem Hart.freeHandle_reservation (h : Hart) (i : Nat) : (h.freeHandle i).reservation = h.reservation := rfl
@[simp] theorem Hart.freeHandle_region (h : Hart) (i : Nat) : (h.freeHandle i).region = h.region := rfl
@[simp] theorem Hart.freeHandle_aborts (h : Hart) (i : Nat) : (h.freeHandle i).aborts = h.aborts := rfl
@[simp] theorem Hart.freeHandle_empty (h : Hart) (i : Nat) : (h.freeHandle i).empty = h.empty := rfl
@[simp] theorem Hart.freeHandle_barWait (h : Hart) (i : Nat) : (h.freeHandle i).barWait = h.barWait := rfl
@[simp] theorem Hart.freeHandle_xredCall (h : Hart) (i : Nat) : (h.freeHandle i).xredCall = h.xredCall := rfl
@[simp] theorem Hart.freeHandle_pushing (h : Hart) (i : Nat) : (h.freeHandle i).pushing = h.pushing := rfl
@[simp] theorem Hart.freeHandle_claims (h : Hart) (i : Nat) : (h.freeHandle i).claims = h.claims := rfl
@[simp] theorem Hart.freeHandle_stalls (h : Hart) (i : Nat) : (h.freeHandle i).stalls = h.stalls := rfl
@[simp] theorem Hart.freeHandle_stallEvict (h : Hart) (i : Nat) : (h.freeHandle i).stallEvict = h.stallEvict := rfl
@[simp] theorem Hart.freeHandle_prio (h : Hart) (i : Nat) : (h.freeHandle i).prio = h.prio := rfl
@[simp] theorem Hart.freeHandle_urgent (h : Hart) (i : Nat) : (h.freeHandle i).urgent = h.urgent := rfl
@[simp] theorem Hart.freeHandle_passed (h : Hart) (i : Nat) : (h.freeHandle i).passed = h.passed := rfl
@[simp] theorem Hart.freeHandle_wait (h : Hart) (i : Nat) : (h.freeHandle i).wait = h.wait := rfl
@[simp] theorem Hart.freeHandle_yielded (h : Hart) (i : Nat) : (h.freeHandle i).yielded = h.yielded := rfl
@[simp] theorem Hart.freeHandle_accStores (h : Hart) (i : Nat) : (h.freeHandle i).accStores = h.accStores := rfl
@[simp] theorem Hart.freeHandle_parity (h : Hart) (i : Nat) : (h.freeHandle i).parity = h.parity := rfl
@[simp] theorem Hart.freeHandle_pooled (h : Hart) (i : Nat) : (h.freeHandle i).pooled = h.pooled := rfl
@[simp] theorem Hart.freeHandle_fenced (h : Hart) (i : Nat) : (h.freeHandle i).fenced = h.fenced := rfl
@[simp] theorem Hart.freeHandle_sent (h : Hart) (i : Nat) : (h.freeHandle i).sent = h.sent := rfl
@[simp] theorem Hart.freeHandle_gates (h : Hart) (i : Nat) : (h.freeHandle i).gates = h.gates := rfl
@[simp] theorem Hart.freeHandle_lineBuffer (h : Hart) (i : Nat) : (h.freeHandle i).lineBuffer = h.lineBuffer := rfl
@[simp] theorem Hart.freeHandle_flipping (h : Hart) (i : Nat) : (h.freeHandle i).flipping = h.flipping := rfl
@[simp] theorem Hart.freeHandle_lost (h : Hart) (i : Nat) : (h.freeHandle i).lost = h.lost := rfl
@[simp] theorem Hart.freeHandle_qcb (h : Hart) (i : Nat) : (h.freeHandle i).qcb = h.qcb := rfl
@[simp] theorem Hart.freeHandle_job (h : Hart) (i : Nat) : (h.freeHandle i).job = h.job := rfl
@[simp] theorem Hart.freeHandle_bundle (h : Hart) (i : Nat) : (h.freeHandle i).bundle = h.bundle := rfl
@[simp] theorem Hart.freeHandle_task (h : Hart) (i : Nat) : (h.freeHandle i).task = h.task := rfl
@[simp] theorem Hart.freeHandle_args (h : Hart) (i : Nat) : (h.freeHandle i).args = h.args := rfl
@[simp] theorem Hart.freeHandle_entry (h : Hart) (i : Nat) : (h.freeHandle i).entry = h.entry := rfl
@[simp] theorem Hart.freeHandle_adv (h : Hart) (i : Nat) : (h.freeHandle i).adv = h.adv := rfl

/-! Scalar registers. -/

@[simp] theorem Hart.getS_zero (h : Hart) : h.getS 0#5 = 0 := rfl

theorem Hart.getS_setS (h : Hart) (r q : BitVec 5) (x : Word) :
    (h.setS r x).getS q = if q = 0 then 0 else if q = r then x else h.getS q := by
  unfold Hart.getS Hart.setS
  by_cases hq : q = 0 <;> simp only [hq, if_true, if_false]
  by_cases hr : r = 0
  · have : q ≠ r := fun e => hq (e.trans hr)
    simp only [hr, if_true]
    rw [if_neg (by rw [← hr]; exact this)]
  · simp only [hr, if_false]
    split
    · subst_vars; exact Vector.getElem_set_self ..
    · rename_i hne
      exact Vector.getElem_set_ne _ _ (fun e => hne (BitVec.eq_of_toNat_eq e.symm))

theorem State.rs_ws (s : State) (r q : BitVec 5) (x : Word) :
    (s.ws r x).rs q = if q = 0 then 0 else if q = r then x else s.rs q := Hart.getS_setS ..

@[simp] theorem State.rs_zero (s : State) : s.rs 0#5 = 0 := rfl

@[simp] theorem State.rs_skip (s : State) (n : Nat) (r : BitVec 5) : (s.skip n).rs r = s.rs r := rfl

@[simp] theorem State.rs_jump (s : State) (a : BitVec 48) (r : BitVec 5) : (s.jump a).rs r = s.rs r := rfl

@[simp] theorem State.rs_due (s : State) (d : Due) (r : BitVec 5) : (s.due d).rs r = s.rs r := rfl

@[simp] theorem State.rs_issueOp (s : State) (k : OpClass) (r : BitVec 5) : (s.issueOp k).rs r = s.rs r := rfl

end Sys2Proof.Machine
end

