-- ==== Sys2Proof/Laws/Traffic.lean ====
section
/-! SUPPORT. What traffic to memory can do: one lemma for each shared operation from a single line at the caches up to a whole
access, a device write, a trace record and the end of a region. None of them touches the parts of `State.still`, each keeps the
canonical form of the memories and tables that it writes, and outside regions the hart that moves loses its reservation at most
(R142, R197, R317). -/

namespace Sys2Proof.Machine

theorem sameRegisters_trans {p q r : Pkg} (h : Safety.SameRegisters p q) (k : Safety.SameRegisters q r) :
    Safety.SameRegisters p r := by
  unfold Safety.SameRegisters at *
  rw [k, h]

/-- Two harts agree but for the reservation. -/
def Hart.SameBut (h k : Hart) : Prop := ∃ r, k = { h with reservation := r }

theorem Hart.SameBut.refl (h : Hart) : h.SameBut h := ⟨h.reservation, rfl⟩

theorem Hart.SameBut.trans {h k l : Hart} : h.SameBut k → k.SameBut l → h.SameBut l := by
  rintro ⟨_, rfl⟩ ⟨r, rfl⟩
  exact ⟨r, rfl⟩

theorem Hart.SameBut.region {h k : Hart} (e : h.SameBut k) : k.region = h.region := by
  obtain ⟨_, rfl⟩ := e
  rfl

/-- The parts of the machine that traffic to memory never touches. -/
def State.still (s : State) :=
  (s.saved, s.sched, s.eventTurn, s.outbox, s.slots, s.acc, s.scales, s.quads, s.cores, s.barriers, s.shuttle, s.tenants,
    s.oruIn, s.windows, s.xred, s.pushes, s.loom)

/-- What traffic to memory can do from s to t. -/
structure State.Traffic (s t : State) : Prop where
  still : t.still = s.still
  pkg : Safety.SameRegisters s.pkg t.pkg
  mem : s.mem.wf = true → t.mem.wf = true
  lstore : s.lstore.wf = true → t.lstore.wf = true
  ctxs : Sparse.wf (fun _ => Ctx.none) s.ctxs = true → Sparse.wf (fun _ => Ctx.none) t.ctxs = true
  hart : s.hart.region = none → s.hart.SameBut t.hart

namespace State.Traffic

theorem refl (s : State) : s.Traffic s := ⟨rfl, rfl, id, id, id, fun _ => .refl _⟩

theorem trans {s t u : State} (h : s.Traffic t) (k : t.Traffic u) : s.Traffic u :=
  ⟨k.still.trans h.still, sameRegisters_trans h.pkg k.pkg, fun x => k.mem (h.mem x), fun x => k.lstore (h.lstore x), fun x => k.ctxs (h.ctxs x),
    fun x => (h.hart x).trans (k.hart ((h.hart x).region.trans x))⟩

/-- A change of none of the parts that matter. -/
theorem of_eq {s t : State} (h : t.still = s.still) (hp : Safety.SameRegisters s.pkg t.pkg) (hm : t.mem = s.mem) (hl : t.lstore = s.lstore) (hc : t.ctxs = s.ctxs)
    (hh : t.hart = s.hart) : s.Traffic t :=
  ⟨h, hp, fun x => hm ▸ x, fun x => hl ▸ x, fun x => hc ▸ x, fun _ => hh ▸ .refl _⟩

theorem ite {s t u : State} {p : Prop} [Decidable p] (ht : s.Traffic t) (hu : s.Traffic u) : s.Traffic (if p then t else u) := by
  split
  · exact ht
  · exact hu

theorem foldl {α : Type} {f : State → α → State} (hf : ∀ (t : State) (a : α), t.Traffic (f t a)) (l : List α) (s : State) :
    s.Traffic (l.foldl f s) := by
  induction l generalizing s with
  | nil => exact refl s
  | cons a l ih => exact (hf s a).trans (ih _)

/-- A change of what the caches hold, or of what is poisoned. -/
theorem onPkg (s : State) (f : Pkg → Pkg) (hf : Safety.SameRegisters s.pkg (f s.pkg)) : s.Traffic (s.onPkg f) :=
  of_eq rfl hf rfl rfl rfl rfl

theorem onCtx (s : State) (c : BitVec 12) (f : Ctx → Ctx) : s.Traffic (s.onCtx c f) :=
  ⟨rfl, rfl, id, id, fun h => Sparse.wf_set h _ _, fun _ => .refl _⟩

theorem count (s : State) (c : BitVec 12) (n i k : Nat) : s.Traffic (s.count c n i k) := onCtx s c _

theorem fresh (s : State) : s.Traffic s.fresh := of_eq rfl rfl rfl rfl rfl rfl

/-- A change of some hart's fields, of no hart with that name outside regions. -/
theorem update (s : State) (id : AgentId) (f : Hart → Hart) (h : s.hart.id = id → s.hart.region ≠ none) :
    s.Traffic (s.update id f) :=
  ⟨rfl, rfl, fun x => x, fun x => x, fun x => x, fun hn => by
    have : s.hart.id ≠ id := fun e => h e hn
    simp [this, Hart.SameBut.refl]⟩

end State.Traffic

open State (Traffic)

/-! Caches and directories. -/

theorem State.dropTileLine_traffic (s : State) (l : TileLine) : s.Traffic (s.dropTileLine l) := by
  have h := Traffic.onPkg s (fun p => { p with tileCache := p.tileCache.filter fun k => decide (k.line ≠ l.line) }) rfl
  unfold State.dropTileLine
  exact .ite (h.trans (.onCtx _ _ _)) h

theorem State.tileRoom_traffic (s : State) (d : Nat) : s.Traffic (s.tileRoom d) := by
  unfold State.tileRoom
  refine .ite (.refl _) ?_
  dsimp only
  split
  · exact (Traffic.fresh s).trans (State.dropTileLine_traffic _ _)
  · exact .refl _

theorem State.fileLine_traffic (s : State) (t : Tile) (l : Nat) (a : Bool) : s.Traffic (s.fileLine t l a) := by
  unfold State.fileLine
  refine .ite (.ite (.count _ _ _ _ _) (.refl _)) ?_
  exact ((State.tileRoom_traffic s _).trans (.onPkg _ _ (by rfl))).trans (.count _ _ _ _ _)

theorem State.writeBack_traffic (s : State) (l : Nat) (t : Option Tile) : s.Traffic (s.writeBack l t) := by
  unfold State.writeBack
  dsimp only
  refine .ite (.onPkg _ _ (by rfl)) ?_
  split
  · exact .ite ((State.tileRoom_traffic s _).trans (.onPkg _ _ (by rfl))) (.refl _)
  · exact .refl _

theorem State.setDir_traffic (s : State) (d : DirLine) : s.Traffic (s.setDir d) := .onPkg _ _ (by rfl)

theorem State.useSlices_traffic (s : State) (c : Option (BitVec 12)) (ks : List Nat) : s.Traffic (s.useSlices c ks) := by
  refine .foldl (fun t k => ?_) ks s
  extract_lets t1 t2
  have h1 : t.Traffic t1 := .onPkg _ _ (by rfl)
  have h2 : t.Traffic t2 := h1.trans (.onPkg _ _ (by rfl))
  refine .ite h1 ?_
  split
  · exact h2.trans (.count _ _ _ _ _)
  · exact h2

theorem State.leaveL2_traffic (s : State) (die : Nat) (d : DirLine) : s.Traffic (s.leaveL2 die d) := by
  unfold State.leaveL2
  exact .ite ((State.setDir_traffic _ _).trans (State.writeBack_traffic _ _ _)) (State.setDir_traffic _ _)

theorem State.l2Room_traffic (s : State) (d l : Nat) : s.Traffic (s.l2Room d l) := by
  unfold State.l2Room
  dsimp only
  refine .ite (.refl _) ?_
  split
  · exact (Traffic.fresh s).trans (State.leaveL2_traffic _ _ _)
  · exact .ite (.refl _) (State.leaveL2_traffic _ _ _)

theorem State.atSlices_traffic (s : State) (a : Accessor) (va : Nat) (d : DirLine) (m : Met) : s.Traffic (s.atSlices a va d m) := by
  unfold State.atSlices
  dsimp only
  have h (x : Option Tile) (ks : List Nat) : s.Traffic ((s.useSlices a.ctx ks).setDir { d with tile := x }) :=
    .trans (State.useSlices_traffic _ _ _) (State.setDir_traffic _ _)
  have h2 (x : Option Tile) (ks : List Nat) : s.Traffic (if m.miss then
      ((s.useSlices a.ctx ks).setDir { d with tile := x }).l2Room a.die d.line
      else (s.useSlices a.ctx ks).setDir { d with tile := x }) :=
    .ite (.trans (h x ks) (State.l2Room_traffic _ _ _)) (h x ks)
  split
  · exact .ite (.trans (h2 _ _) (State.fileLine_traffic _ _ _ _)) (h2 _ _)
  · exact h2 _ _

theorem State.fillL1_traffic (s : State) (c l : Nat) (r : Option (AgentId × Nat)) : s.Traffic (s.fillL1 c l r) := by
  unfold State.fillL1
  dsimp only
  refine .ite (State.setDir_traffic _ _) ?_
  split
  · exact ((Traffic.fresh s).trans (State.setDir_traffic _ _)).trans (State.setDir_traffic _ _)
  · exact .refl _

theorem State.readLine_traffic (s : State) (a : Accessor) (va l m : Nat) (r : Option (AgentId × Nat)) :
    s.Traffic (s.readLine a va l m r).1 := by
  unfold State.readLine
  dsimp only
  split
  · exact .refl _
  · split
    · exact State.setDir_traffic _ _
    · dsimp only
      split
      · exact (State.atSlices_traffic _ _ _ _ _).trans (.ite (State.fillL1_traffic _ _ _ _) (.refl _))
      · exact State.atSlices_traffic _ _ _ _ _

theorem State.writeLine_traffic (s : State) (a : Accessor) (va l m : Nat) (k : Option Nat) : s.Traffic (s.writeLine a va l m k).1 := by
  unfold State.writeLine
  split
  · exact .refl _
  · exact State.atSlices_traffic _ _ _ _ _

theorem State.deviceLine_traffic (s : State) (l : Nat) (w : Bool) : s.Traffic (s.deviceLine l w) := by
  unfold State.deviceLine
  exact .ite (State.writeLine_traffic _ _ _ _ _ _) (State.readLine_traffic _ _ _ _ _ _)

/-! Writes of the device, and trace records. -/

theorem State.clearReservations_traffic (s : State) (b : Nat) : s.Traffic (s.clearReservations b) := by
  unfold State.clearReservations
  split
  · refine ⟨rfl, rfl, id, id, id, fun _ => ?_⟩
    simp only [State.updateAll_hart]
    split
    · exact ⟨none, rfl⟩
    · exact .refl _
  · exact .refl _

theorem State.noteCode_traffic (s : State) (bs : List (Nat × Byte)) : s.Traffic (s.noteCode bs) := by
  unfold State.noteCode
  exact .ite (.refl _) (.onPkg _ _ (by rfl))

theorem State.noteCode_mem (s : State) (bs : List (Nat × Byte)) : (s.noteCode bs).mem = s.mem := by
  unfold State.noteCode
  dsimp only
  split <;> rfl

theorem State.setMem_traffic (s : State) (bs : List (Nat × Byte)) : s.Traffic (s.setMem bs) :=
  (State.noteCode_traffic s bs).trans ⟨rfl, rfl, fun h => Memory.wf_setBytes h _, id, id, fun _ => .refl _⟩

/-- The bytes of a write. -/
theorem State.setMem_mem (s : State) (bs : List (Nat × Byte)) : (s.setMem bs).mem = s.mem.setBytes bs := by
  show (s.noteCode bs).mem.setBytes bs = _
  rw [State.noteCode_mem]

theorem State.writeNow_traffic (s : State) (pa : Nat) (bs : List Byte) : s.Traffic (s.writeNow pa bs) := by
  unfold State.writeNow
  extract_lets s1 s2 s3
  have h : s.Traffic s2 :=
    .trans (.trans (State.clearReservations_traffic _ _) (State.setMem_traffic _ _)) (State.deviceLine_traffic _ _ _)
  have h3 : s.Traffic s3 := .ite (h.trans (.onPkg _ _ (by rfl))) h
  exact .ite (h3.trans (.onPkg _ _ (by rfl))) h3

theorem State.addLate_traffic (s : State) (l : Late) : s.Traffic (s.addLate l) := .onPkg _ _ (by rfl)

/-- A write of the device, performed or left waiting. -/
theorem State.writeOrWait_traffic (s : State) (pa : Nat) (bs : List Byte) (bad : Bool) : s.Traffic (s.writeOrWait pa bs bad) := by
  unfold State.writeOrWait
  have h := State.writeNow_traffic s pa bs
  exact .ite (State.addLate_traffic _ _) (.ite (h.trans (.onPkg _ _ (by rfl))) h)

theorem State.deviceWrite_traffic (s : State) (pa : Nat) (bs : List Byte) : s.Traffic (s.deviceWrite pa bs) :=
  State.writeOrWait_traffic _ _ _ _

theorem State.deviceRead_traffic (s : State) (l : Nat) : s.Traffic (s.deviceRead l) := by
  unfold State.deviceRead
  have h := State.deviceLine_traffic s l false
  exact .ite (h.trans (.onPkg _ _ (by rfl))) h

theorem State.deviceReads_traffic (s : State) (ls : List Nat) : s.Traffic (s.deviceReads ls) :=
  .foldl State.deviceRead_traffic _ s

theorem State.noteWalk_traffic (s : State) (c : BitVec 12) (va : Nat) : s.Traffic (s.noteWalk c va) := State.deviceReads_traffic _ _

/-- A record that the context permits is written, or waits. -/
theorem State.writeIn_some {s t : State} {c : BitVec 12} {va : Nat} {bs : List Byte} {l : Late} (h : s.writeIn c va bs l = some t) :
    s.Traffic t := by
  unfold State.writeIn at h
  split at h
  · split at h
    · cases h
      exact (State.noteWalk_traffic _ _ _).trans (State.deviceWrite_traffic _ _ _)
    · cases h
  · cases h
    exact State.addLate_traffic _ _
  · cases h

theorem State.heal_traffic (s : State) (m l : List Nat) : s.Traffic (s.heal m l) := by
  unfold State.heal
  exact .ite (.refl _) (.onPkg _ _ (by rfl))

theorem State.poisonGranules_traffic (s : State) (l : List Nat) : s.Traffic (s.poisonGranules l) := by
  unfold State.poisonGranules
  exact .ite (.refl _) (.onPkg _ _ (by rfl))

theorem State.poisonWritten_traffic (s : State) (l : List Nat) : s.Traffic (s.poisonWritten l) := by
  unfold State.poisonWritten
  exact .ite (.refl _) (.onPkg _ _ (by rfl))

theorem State.putRecord_traffic (s : State) (c : BitVec 12) (bs : List Byte) : s.Traffic (s.putRecord c bs).1 := by
  unfold State.putRecord
  extract_lets x size
  split
  · exact .refl _
  · split
    · dsimp only
      exact .onCtx _ _ _
    · split
      · dsimp only
        exact (State.noteWalk_traffic _ _ _).trans (.onCtx _ _ _)
      · rename_i u hu
        dsimp only
        exact (State.writeIn_some hu).trans (.onCtx _ _ _)

theorem State.trace_traffic (s : State) (h : Hart) (k loc d0 d1 : Nat) : s.Traffic (s.trace h k loc d0 d1) := by
  unfold State.trace
  dsimp only
  split
  · exact .refl _
  · split
    · split
      · exact ((State.putRecord_traffic _ _ _).trans (.onCtx _ _ _)).trans (State.putRecord_traffic _ _ _)
      · exact State.putRecord_traffic _ _ _
    · split
      · exact State.putRecord_traffic _ _ _
      · exact .refl _

theorem State.slog_traffic (s : State) (h : Hart) (e va ev sl : Nat) : s.Traffic (s.slog h e va ev sl) := by
  unfold State.slog
  exact .ite (State.trace_traffic _ _ _ _ _ _) (.refl _)

/-! Regions. -/

/-- The hart that is found by the name of the one that moves is that one. -/
theorem State.find_hart (s : State) : s.find s.hart.id = some s.hart := by simp [State.find, State.harts]

/-- A hart found with a region is not the one that moves, if that has none. -/
theorem State.region_of_find {s : State} {id : AgentId} {h : Hart} (hf : s.find id = some h) (hr : h.region ≠ none) :
    s.hart.id = id → s.hart.region ≠ none := by
  rintro rfl
  rw [State.find_hart] at hf
  cases hf
  exact hr

/-- A region's record changed, where there is one. -/
theorem State.Traffic.mapRegion (s : State) (id : AgentId) (f : Region → Region) :
    s.Traffic (s.update id fun h => { h with region := h.region.map f }) :=
  ⟨rfl, rfl, fun x => x, fun x => x, fun x => x, fun hn => by
    simp only [State.update_hart]
    split
    · rw [hn]; exact ⟨s.hart.reservation, by cases h : s.hart; simp_all⟩
    · exact .refl _⟩

theorem State.forgetRegion_traffic (s : State) (id : AgentId) : s.Traffic (s.forgetRegion id) := by
  refine ⟨rfl, rfl, fun x => x, fun x => x, fun x => x, fun hn => ?_⟩
  simp [State.forgetRegion, State.repostMessages, hn, Hart.SameBut.refl]

theorem State.abortRegion_traffic (s : State) (id : AgentId) (code : Nat) : s.Traffic (s.abortRegion id code) := by
  unfold State.abortRegion
  split
  · exact .refl _
  · rename_i k hk
    split
    · exact .refl _
    · rename_i r hr
      extract_lets n status s1 s2
      have h1 : s.Traffic s1 := .update _ _ _ (State.region_of_find hk (by simp [hr]))
      have h2 : s.Traffic s2 := (h1.trans (State.forgetRegion_traffic _ _)).trans (.count _ _ _ _ _)
      exact h2.trans (State.trace_traffic _ _ _ _ _ _)

theorem State.outside_traffic (s : State) (l : Nat) (w : Bool) : s.Traffic (s.outside l w) :=
  .foldl (fun _ _ => State.abortRegion_traffic _ _ _) _ s

theorem State.narrow_traffic (s : State) (id : AgentId) (lo hi : Int) (p : Option (AgentId × Bool)) :
    s.Traffic (s.narrow id lo hi p) := by
  unfold State.narrow
  split
  · exact .refl _
  · rename_i k hk
    split
    · exact .refl _
    · rename_i r hr
      refine .ite (.refl _) ?_
      extract_lets lo hi s1
      have h1 : s.Traffic s1 := .update _ _ _ (State.region_of_find hk (by simp [hr]))
      exact .ite (h1.trans (State.abortRegion_traffic _ _ _)) h1

theorem State.sendNarrowing_traffic (s : State) (n : Narrowing) : s.Traffic (s.sendNarrowing n) :=
  (Traffic.mapRegion s n.target _).trans (.of_eq rfl rfl rfl rfl rfl rfl)

theorem State.orderRegions_traffic (s : State) (me o : AgentId) (b : Bool) : s.Traffic (s.orderRegions me o b) := by
  unfold State.orderRegions
  split
  · extract_lets pinned s1
    have h1 : s.Traffic s1 := .ite (.refl _) (.ite (State.sendNarrowing_traffic _ _) (State.sendNarrowing_traffic _ _))
    exact .ite (h1.trans (State.narrow_traffic _ _ _ _ _)) (h1.trans (State.narrow_traffic _ _ _ _ _))
  · exact .refl _

theorem State.meet_traffic (s : State) (me o : AgentId) (u : LineUse) : s.Traffic (s.meet me o u) := by
  unfold State.meet
  split
  · split
    · split
      · exact .refl _
      · refine .ite (.refl _) (.ite (.ite ?_ ?_) (.ite ?_ ?_))
        · exact State.abortRegion_traffic _ _ _
        · exact State.abortRegion_traffic _ _ _
        · exact State.abortRegion_traffic _ _ _
        · extract_lets s1
          have h1 : s.Traffic s1 := .ite (State.orderRegions_traffic _ _ _ _) (.refl _)
          exact .ite (h1.trans (State.orderRegions_traffic _ _ _ _)) h1
    · exact .refl _
  · exact .refl _

theorem State.pinOthers_traffic (s : State) (id : AgentId) (x : Nat) : s.Traffic (s.pinOthers id x) :=
  .foldl (fun _ _ => State.narrow_traffic _ _ _ _ _) _ s

theorem State.overflow_traffic (s : State) (id : AgentId) : s.Traffic (s.overflow id) := by
  unfold State.overflow
  split
  · exact .refl _
  · rename_i k hk
    split
    · exact .refl _
    · rename_i r hr
      extract_lets spilled x s1
      have h1 : s.Traffic s1 := .update _ _ _ (State.region_of_find hk (by simp [hr]))
      exact .ite (.refl _) (.ite (.ite (State.abortRegion_traffic _ _ _) (.refl _)) (.ite (State.abortRegion_traffic _ _ _)
        ((h1.trans (.count _ _ _ _ _)).trans (State.pinOthers_traffic _ _ _))))

theorem State.spill_traffic (s : State) (c l : Nat) : s.Traffic (s.spill c l) :=
  .foldl (fun _ _ => (Traffic.mapRegion _ _ _).trans (State.overflow_traffic _ _)) _ s

theorem State.applyStamps_traffic (s : State) (id : AgentId) (l : Nat) (w : Bool) : s.Traffic (s.applyStamps id l w) := by
  unfold State.applyStamps
  exact State.narrow_traffic _ _ _ _ _

theorem State.meetAll_traffic (s : State) (id : AgentId) (u : LineUse) : s.Traffic (s.meetAll id u) :=
  .foldl (fun _ _ => .ite (State.meet_traffic _ _ _ _) (.refl _)) _ s

theorem State.touchAll_traffic (s : State) (id : AgentId) (us : List LineUse) : s.Traffic (s.touchAll id us) :=
  ((Traffic.foldl (fun _ _ => State.applyStamps_traffic _ _ _ _) us s).trans
    (.foldl (fun _ _ => State.meetAll_traffic _ _ _) us _)).trans
    (.foldl (fun _ _ => .ite ((Traffic.mapRegion _ _ _).trans (State.overflow_traffic _ _)) (.refl _)) us _)

theorem State.settleWrites_traffic (n : Nat) (s : State) : s.Traffic (State.settleWrites n s) := by
  induction n generalizing s with
  | zero => exact .onPkg _ _ (by rfl)
  | succ n ih =>
    unfold State.settleWrites
    refine .ite (.refl _) (Traffic.trans ?_ (ih _))
    exact ((Traffic.onPkg s (fun p => { p with wrote := [], readLines := [] }) rfl).trans
      (.foldl (fun _ _ => State.outside_traffic _ _ _) _ _)).trans (.foldl (fun _ _ => State.outside_traffic _ _ _) _ _)

/-- The end of a step. -/
theorem State.settle_traffic (s : State) : s.Traffic s.settle := by
  unfold State.settle
  exact .ite (.refl _) (State.settleWrites_traffic _ _)

/-! Accesses. -/

theorem State.logMet_traffic (s t : State) (h : Hart) (e va l : Nat) (m : Met) : t.Traffic (s.logMet t h e va l m) := by
  unfold State.logMet
  extract_lets s1 s2 s3
  have h1 : t.Traffic s1 := .ite (State.slog_traffic _ _ _ _ _ _) (.refl _)
  have h2 : t.Traffic s2 := .ite h1 (h1.trans (State.slog_traffic _ _ _ _ _ _))
  have h3 : t.Traffic s3 := .ite ((h2.trans (.count _ _ _ _ _)).trans (State.slog_traffic _ _ _ _ _ _)) h2
  exact h3.trans (.foldl (fun _ _ => State.slog_traffic _ _ _ _ _ _) _ _)

theorem State.readAt_traffic (s : State) (e va l m : Nat) : s.Traffic (s.readAt e va l m) :=
  (State.readLine_traffic s _ va l m _).trans (State.logMet_traffic _ _ _ _ _ _ _)

theorem State.writeFor_traffic (s : State) (h : Hart) (e va l m : Nat) (c : Option Nat) : s.Traffic (s.writeFor h e va l m c) :=
  (State.writeLine_traffic s _ va l m _).trans (State.logMet_traffic _ _ _ _ _ _ _)

theorem State.writeAt_traffic (s : State) (e va l m : Nat) (c : Option Claim) : s.Traffic (s.writeAt e va l m c) :=
  State.writeFor_traffic _ _ _ _ _ _ _

theorem State.meetRegions_traffic (s : State) (w r : Bool) (ps : List (Nat × Nat × Nat)) : s.Traffic (s.meetRegions w r ps) := by
  unfold State.meetRegions
  exact .ite (State.touchAll_traffic _ _ _) (.foldl (fun _ _ => State.outside_traffic _ _ _) _ _)

theorem State.noteEntries_traffic (s : State) (e : Nat) (as : List Nat) : s.Traffic (s.noteEntries e as) := by
  refine .foldl (fun t a => ?_) as s
  refine .ite (.refl _) ?_
  dsimp only
  exact .ite (State.meetRegions_traffic _ _ _ _) ((State.meetRegions_traffic t _ _ _).trans (State.readAt_traffic _ _ _ _ _))

theorem State.keepTranslation_traffic (s : State) (h : Hart) (va : Nat) : s.Traffic (s.keepTranslation h va) := by
  unfold State.keepTranslation
  split
  · exact .ite (.onPkg _ _ rfl) (.refl _)
  · exact .refl _

theorem State.walkOnce_traffic (s : State) (e va : Nat) : s.Traffic (s.walkOnce e va) := by
  unfold State.walkOnce
  have h := State.noteEntries_traffic s e (s.walkReads s.hart va)
  exact .ite h (h.trans (State.keepTranslation_traffic _ _ _))

/-- What walks do: entry reads, and translations that they leave. -/
theorem State.walkAll_traffic (s : State) (e : Nat) (vas : List Nat) : s.Traffic (s.walkAll e vas) :=
  .foldl (fun _ _ => .ite (.refl _) (State.walkOnce_traffic _ _ _)) _ _

theorem State.noteWalks_traffic (s : State) (vas : List Nat) : s.Traffic (s.noteWalks vas) := State.walkAll_traffic _ _ _

theorem State.logNarrows_traffic (s t : State) (e : Nat) (w r : Bool) (ps : List (Nat × Nat × Nat)) :
    t.Traffic (s.logNarrows t e w r ps) := by
  unfold State.logNarrows
  exact .ite (.refl _) (.foldl (fun _ _ => .ite (State.slog_traffic _ _ _ _ _ _) (.refl _)) _ _)

/-- What an access does beside reading and writing its bytes. -/
theorem State.noteAccess_traffic (s : State) (e : Nat) (w r : Bool) (c : Option Claim) (ps : List Piece) :
    s.Traffic (s.noteAccess e w r c ps) := by
  unfold State.noteAccess
  extract_lets parts s1 s2
  have h1 : s.Traffic s1 := State.walkAll_traffic _ _ _
  have h2 : s.Traffic s2 := (h1.trans (State.meetRegions_traffic _ _ _ _)).trans (State.logNarrows_traffic _ _ _ _ _ _)
  refine .ite h1 (.ite h2 (h2.trans (.foldl (fun _ _ => ?_) _ _)))
  exact .ite (State.writeAt_traffic _ _ _ _ _ _) (State.readAt_traffic _ _ _ _ _)

theorem State.noteReads_traffic (s : State) (e : Nat) (ps : List Piece) : s.Traffic (s.noteReads e ps) :=
  State.noteAccess_traffic _ _ _ _ _ _

theorem State.putPiece_traffic (s : State) (c : Option Claim) (x : Nat) (p : Piece) : s.Traffic (s.putPiece c x p) := by
  unfold State.putPiece
  dsimp only
  split
  · refine Traffic.trans ?_ (State.clearReservations_traffic _ _)
    exact ⟨rfl, rfl, id, fun h => Memory.wf_write h _ _ _, id, fun _ => .refl _⟩
  · split
    · rename_i hr
      exact ⟨rfl, rfl, id, id, id, fun hn => by simp [hn] at hr⟩
    · exact (State.setMem_traffic _ _).trans (State.clearReservations_traffic _ _)

/-- A store performed. -/
theorem State.poke_traffic (s : State) (e : Nat) (r : Bool) (c : Option Claim) (x : Nat) (ps : List Piece) :
    s.Traffic (s.poke e r c x ps) := by
  unfold State.poke
  have h := State.noteAccess_traffic s e true r c ps
  exact .ite h (h.trans (.foldl (fun _ _ => State.putPiece_traffic _ _ _ _) _ _))

theorem State.healPieces_traffic (s : State) (ps : List Piece) : s.Traffic (s.healPieces ps) := by
  unfold State.healPieces
  exact .ite (.refl _) (State.heal_traffic _ _ _)

theorem State.logPoison_traffic (s : State) (e a : Nat) : s.Traffic (s.logPoison e a) := by
  unfold State.logPoison
  split
  · exact .refl _
  · split
    · exact State.slog_traffic _ _ _ _ _ _
    · exact .refl _

/-! Engines. -/

theorem State.engineWrite_traffic (s : State) (a : Nat → Accessor) (bs : List (Nat × Byte)) : s.Traffic (s.engineWrite a bs) := by
  unfold State.engineWrite
  extract_lets lines s1 whole s2
  have h1 : s.Traffic s1 := .foldl (fun _ _ => ((State.outside_traffic _ _ _).trans (State.writeLine_traffic _ _ _ _ _ _)).trans
    (State.clearReservations_traffic _ _)) _ _
  have h2 : s.Traffic s2 := h1.trans (State.setMem_traffic _ _)
  exact .ite (h2.trans (.onPkg _ _ (by rfl))) h2

theorem State.takeLine_traffic (s : State) (a : Accessor) (va l : Nat) : s.Traffic (s.takeLine a va l) :=
  (State.outside_traffic s l true).trans (State.writeLine_traffic _ _ _ _ _ _)

theorem State.engineRead_traffic (s : State) (a : Accessor) (va l m : Nat) : s.Traffic (s.engineRead a va l m) :=
  (State.outside_traffic s l false).trans (State.readLine_traffic _ _ _ _ _ _)

/-! Saved records. -/

theorem State.deviceRun_traffic (n : Nat) (s : State) (a : Nat) (bs : List Byte) : s.Traffic (State.deviceRun n s a bs) := by
  induction n generalizing s a bs with
  | zero => exact .refl _
  | succ n ih =>
    cases bs with
    | nil => exact .refl _
    | cons b bs => exact (State.deviceWrite_traffic _ _ _).trans (ih _ _ _)

theorem State.saveParts_traffic (s : State) (l : List (Nat × List Byte)) : s.Traffic (s.saveParts l) :=
  .foldl (fun _ _ => State.deviceRun_traffic _ _ _ _) _ s

theorem State.saveHart_traffic (s : State) (base : Nat) (h : Hart) (dump discard : Bool) :
    s.Traffic (s.saveHart base h dump discard) := by
  unfold State.saveHart
  have h1 := State.saveParts_traffic s (recordParts base h dump discard)
  exact .ite h1 ((h1.trans (State.poisonWritten_traffic _ _)).trans (.onCtx _ _ _))

theorem State.dump_traffic (s : State) (h : Hart) : s.Traffic (s.dump h) := by
  unfold State.dump
  split
  · exact .refl _
  · exact (State.saveHart_traffic _ _ _ _ _).trans (.onCtx _ _ _)

end Sys2Proof.Machine
end

