-- ==== Sys2Proof/Laws/Canonical.lean ====
section
/-! SUPPORT. Every shared operation keeps the canonical form of the memories and tables. -/

namespace Sys2Proof.Safety

open Sys2Proof.Machine

/-- Two states whose memories and tables agree are canonical together. -/
theorem Canonical.congr {s t : State} (h : Canonical s) (hm : t.mem = s.mem) (hl : t.lstore = s.lstore)
    (hs : t.slots = s.slots) (ha : t.acc = s.acc) (hc : t.scales = s.scales) (hq : t.quads = s.quads)
    (hk : t.cores = s.cores) (hh : t.shuttle = s.shuttle) (hx : t.ctxs = s.ctxs) (ht : t.tenants = s.tenants)
    (hp : t.pkg.tables = s.pkg.tables ∧ t.pkg.uec = s.pkg.uec ∧ t.pkg.coll = s.pkg.coll) : Canonical t := by
  unfold Canonical at *
  rw [hm, hl, hs, ha, hc, hq, hk, hh, hx, ht, hp.1, hp.2.1, hp.2.2]
  exact h

/-! Updates that touch no table. -/

@[simp] theorem canonical_on (s : State) (f : Hart → Hart) : Canonical (s.on f) ↔ Canonical s := Iff.rfl
@[simp] theorem canonical_update (s : State) (id : AgentId) (f : Hart → Hart) : Canonical (s.update id f) ↔ Canonical s := Iff.rfl
@[simp] theorem canonical_updateAll (s : State) (f : Hart → Hart) : Canonical (s.updateAll f) ↔ Canonical s := Iff.rfl
@[simp] theorem canonical_ws (s : State) (d : BitVec 5) (x : Word) : Canonical (s.ws d x) ↔ Canonical s := Iff.rfl
@[simp] theorem canonical_skip (s : State) (n : Nat) : Canonical (s.skip n) ↔ Canonical s := Iff.rfl
@[simp] theorem canonical_jump (s : State) (a : BitVec 48) : Canonical (s.jump a) ↔ Canonical s := Iff.rfl
@[simp] theorem canonical_due (s : State) (d : Due) : Canonical (s.due d) ↔ Canonical s := Iff.rfl
@[simp] theorem canonical_fresh (s : State) : Canonical s.fresh ↔ Canonical s := Iff.rfl
@[simp] theorem canonical_raise (s : State) (k : OpClass) : Canonical (s.raise k) ↔ Canonical s := Iff.rfl
@[simp] theorem canonical_lower (s : State) (id : AgentId) (k : OpClass) : Canonical (s.lower id k) ↔ Canonical s := Iff.rfl
@[simp] theorem canonical_issueOp (s : State) (k : OpClass) : Canonical (s.issueOp k) ↔ Canonical s := Iff.rfl
@[simp] theorem canonical_finish (s : State) (c : Byte) : Canonical (s.finish c) ↔ Canonical s := Iff.rfl
@[simp] theorem canonical_repostMessages (s : State) : Canonical s.repostMessages ↔ Canonical s := Iff.rfl
@[simp] theorem canonical_leaveQueue (s : State) (id : AgentId) : Canonical (s.leaveQueue id) ↔ Canonical s := Iff.rfl
@[simp] theorem canonical_forgetRegion (s : State) (id : AgentId) : Canonical (s.forgetRegion id) ↔ Canonical s := Iff.rfl
@[simp] theorem canonical_sendNarrowing (s : State) (n : Narrowing) : Canonical (s.sendNarrowing n) ↔ Canonical s := Iff.rfl

theorem canonical_issueStore {s : State} (h : Canonical s) : Canonical s.issueStore := by
  unfold State.issueStore
  split <;> exact h

/-- A fold of operations that keep the form keeps it. -/
theorem canonical_foldl {α : Type} (f : State → α → State) (hf : ∀ t a, Canonical t → Canonical (f t a)) (l : List α) {s : State}
    (h : Canonical s) : Canonical (l.foldl f s) := by
  induction l generalizing s with
  | nil => exact h
  | cons a l ih => exact ih (hf s a h)

/-- Both branches of a choice keep the form. -/
theorem canonical_ite {p : Prop} [Decidable p] {t u : State} (ht : Canonical t) (hu : Canonical u) :
    Canonical (if p then t else u) := by
  split
  · exact ht
  · exact hu

/-! Tables. -/

theorem canonical_onCtx {s : State} (h : Canonical s) (c : BitVec 12) (f : Ctx → Ctx) : Canonical (s.onCtx c f) := by
  obtain ⟨a, b, d, e, g, i, j, k, l, m⟩ := h
  exact ⟨a, b, d, e, g, i, j, k, Sparse.wf_set l _ _, m⟩

theorem canonical_count {s : State} (h : Canonical s) (c : BitVec 12) (n i k : Nat) : Canonical (s.count c n i k) :=
  canonical_onCtx h c _

theorem canonical_onTenant {s : State} (h : Canonical s) (n : Nat) (f : Tenant → Tenant) : Canonical (s.onTenant n f) := by
  obtain ⟨a, b, d, e, g, i, j, k, l, m, p⟩ := h
  exact ⟨a, b, d, e, g, i, j, k, l, Sparse.wf_set m _ _, p⟩

theorem canonical_onQuad {s : State} (h : Canonical s) (q : Nat) (f : Quad → Quad) : Canonical (s.onQuad q f) := by
  obtain ⟨a, b, d, e, g, i, j⟩ := h
  exact ⟨a, b, d, e, g, Sparse.wf_set i _ _, j⟩

theorem canonical_onCore {s : State} (h : Canonical s) (c : Nat) (f : Core → Core) : Canonical (s.onCore c f) := by
  obtain ⟨a, b, d, e, g, i, j, k⟩ := h
  exact ⟨a, b, d, e, g, i, Sparse.wf_set j _ _, k⟩

theorem canonical_onChannel {s : State} (h : Canonical s) (n : Nat) (f : Channel → Channel) : Canonical (s.onChannel n f) := by
  obtain ⟨a, b, d, e, g, i, j, k, l⟩ := h
  exact ⟨a, b, d, e, g, i, j, Sparse.wf_set k _ _, l⟩

/-- A change of the package's registers that leaves its tables alone. -/
theorem canonical_onPkg {s : State} (h : Canonical s) (f : Pkg → Pkg)
    (hf : (f s.pkg).tables = s.pkg.tables ∧ (f s.pkg).uec = s.pkg.uec ∧ (f s.pkg).coll = s.pkg.coll) : Canonical (s.onPkg f) :=
  h.congr rfl rfl rfl rfl rfl rfl rfl rfl rfl rfl hf

theorem canonical_setTable {s : State} (h : Canonical s) (n i : Nat) (x : Word) : Canonical (s.setTable n i x) := by
  obtain ⟨a, b, d, e, g, i', j, k, l, m, p, q⟩ := h
  exact ⟨a, b, d, e, g, i', j, k, l, m, Sparse.wf_set p _ _, q⟩

theorem canonical_grantGroup {s : State} (h : Canonical s) (i v : Word) : Canonical (s.grantGroup i v) := by
  unfold State.grantGroup
  split
  · exact h
  · obtain ⟨a, b, d, e, g, i', j, k, l, m, p, q, r⟩ := h
    exact ⟨a, b, d, e, g, i', j, k, l, m, p, q, Sparse.wf_set r _ _⟩

theorem canonical_bindEndpoint {s : State} (h : Canonical s) (i v : Word) : Canonical (s.bindEndpoint i v) := by
  unfold State.bindEndpoint
  split
  · exact h
  · obtain ⟨a, b, d, e, g, i', j, k, l, m, p, q, r⟩ := h
    exact ⟨a, b, d, e, g, i', j, k, l, m, p, Sparse.wf_set q _ _, r⟩

/-- A change of physical memory that keeps its form. -/
theorem canonical_mem {s : State} (h : Canonical s) {m : Memory} (hm : m.wf = true) : Canonical { s with mem := m } :=
  ⟨hm, h.2⟩

/-- A number written to physical memory. -/
theorem canonical_write {s : State} (h : Canonical s) (a n x : Nat) : Canonical { s with mem := s.mem.write a n x } :=
  canonical_mem h (Memory.wf_write h.1 _ _ _)

/-- A change of the local stores that keeps their form. -/
theorem canonical_lstore {s : State} (h : Canonical s) {m : Memory} (hm : m.wf = true) : Canonical { s with lstore := m } :=
  ⟨h.1, hm, h.2.2⟩

/-- A change of the operand slots that keeps their form. -/
theorem canonical_slots {s : State} (h : Canonical s) {m : Memory} (hm : m.wf = true) : Canonical { s with slots := m } :=
  ⟨h.1, h.2.1, hm, h.2.2.2⟩

/-- A change of the accumulators that keeps their form. -/
theorem canonical_acc {s : State} (h : Canonical s) {m : Memory} (hm : m.wf = true) : Canonical { s with acc := m } :=
  ⟨h.1, h.2.1, h.2.2.1, hm, h.2.2.2.2⟩

/-! Traffic to memory. -/

/-- Traffic to memory keeps the form. -/
theorem canonical_traffic {s t : State} (k : s.Traffic t) (h : Canonical s) : Canonical t := by
  obtain ⟨a, b, d, e, g, i, j, l, m, n, p⟩ := h
  have hs := k.still
  simp only [State.still, Prod.mk.injEq] at hs
  obtain ⟨-, -, -, -, h1, h2, h3, h4, h5, -, h6, h7, -⟩ := hs
  refine ⟨k.mem a, k.lstore b, h1 ▸ d, h2 ▸ e, h3 ▸ g, h4 ▸ i, h5 ▸ j, h6 ▸ l, k.ctxs m, h7 ▸ n, ?_⟩
  rw [k.pkg]
  exact p

theorem canonical_abortRegion {s : State} (h : Canonical s) (id : AgentId) (code : Nat) : Canonical (s.abortRegion id code) :=
  canonical_traffic (State.abortRegion_traffic s id code) h

theorem canonical_trace {s : State} (h : Canonical s) (k : Hart) (n loc d0 d1 : Nat) : Canonical (s.trace k n loc d0 d1) :=
  canonical_traffic (State.trace_traffic s k n loc d0 d1) h

theorem canonical_noteAccess {s : State} (h : Canonical s) (e : Nat) (w r : Bool) (c : Option Claim) (ps : List Piece) :
    Canonical (s.noteAccess e w r c ps) := canonical_traffic (State.noteAccess_traffic s e w r c ps) h

theorem canonical_noteReads {s : State} (h : Canonical s) (e : Nat) (ps : List Piece) : Canonical (s.noteReads e ps) :=
  canonical_noteAccess h _ _ _ _ _

theorem canonical_poke {s : State} (h : Canonical s) (e : Nat) (r : Bool) (c : Option Claim) (x : Nat) (ps : List Piece) :
    Canonical (s.poke e r c x ps) := canonical_traffic (State.poke_traffic s e r c x ps) h

theorem canonical_deviceWrite {s : State} (h : Canonical s) (pa : Nat) (bs : List Byte) : Canonical (s.deviceWrite pa bs) :=
  canonical_traffic (State.deviceWrite_traffic s pa bs) h

theorem canonical_engineWrite {s : State} (h : Canonical s) (a : Nat → Accessor) (bs : List (Nat × Byte)) :
    Canonical (s.engineWrite a bs) := canonical_traffic (State.engineWrite_traffic s a bs) h

theorem canonical_dropCode {s : State} (h : Canonical s) (q line : Nat) : Canonical (s.dropCode q line) :=
  canonical_onPkg ((canonical_updateAll s _).2 h) _ ⟨rfl, rfl, rfl⟩

theorem canonical_quadCodeRoom {s : State} (h : Canonical s) (q : Nat) : Canonical (s.quadCodeRoom q) := by
  unfold State.quadCodeRoom
  dsimp only
  refine canonical_ite h ?_
  split
  · exact canonical_dropCode ((canonical_fresh s).2 h) _ _
  · exact h

theorem canonical_coreCodeRoom {s : State} (h : Canonical s) (c : Nat) : Canonical (s.coreCodeRoom c) := by
  unfold State.coreCodeRoom
  dsimp only
  refine canonical_ite h ?_
  split
  · exact canonical_onPkg ((canonical_fresh s).2 h) _ ⟨rfl, rfl, rfl⟩
  · exact h

/-- Code lines that come into a quad's cache keep the form. -/
theorem canonical_fillCode {s : State} (h : Canonical s) (va line : Nat) : Canonical (s.fillCode va line) := by
  unfold State.fillCode
  refine canonical_ite h (canonical_onPkg (canonical_quadCodeRoom (canonical_foldl _ (fun t _ ht => ?_) _ h) _) _ ⟨rfl, rfl, rfl⟩)
  exact canonical_traffic ((State.readLine_traffic t _ _ _ _ _).trans (State.logMet_traffic _ _ _ _ _ _ _)) ht

/-- A fetch through the instruction caches keeps the form. -/
theorem canonical_fetchLine {s : State} (h : Canonical s) (va line : Nat) : Canonical (s.fetchLine va line) := by
  unfold State.fetchLine
  have hu := canonical_fillCode h va line
  refine canonical_ite h ((canonical_on _ _).2 (canonical_ite h (canonical_ite hu ?_)))
  exact canonical_onPkg (canonical_coreCodeRoom hu _) _ ⟨rfl, rfl, rfl⟩

theorem canonical_settle {s : State} (h : Canonical s) : Canonical s.settle := canonical_traffic (State.settle_traffic s) h

/-! Handles and traps. -/

theorem canonical_scrambleSlot {s : State} (h : Canonical s) (q n : Nat) : Canonical (s.scrambleSlot q n) :=
  canonical_slots h (Memory.wf_setBytes h.2.2.1 _)

theorem canonical_releaseHandle {s : State} (h : Canonical s) (id : AgentId) (i : Nat) : Canonical (s.releaseHandle id i) := by
  unfold State.releaseHandle
  split
  · exact h
  · split
    · exact h
    · dsimp only
      split
      · exact canonical_scrambleSlot (s := { (s.update id _) with agenda := _ }) h _ _
      · exact h

theorem canonical_releaseHandles {s : State} (h : Canonical s) (id : AgentId) : Canonical (s.releaseHandles id) :=
  canonical_foldl _ (fun _ _ ht => canonical_releaseHandle ht _ _) _ h

theorem canonical_dump {s : State} (h : Canonical s) (k : Hart) : Canonical (s.dump k) :=
  canonical_traffic (State.dump_traffic s k) h

theorem canonical_unhandled {s : State} (h : Canonical s) : Canonical s.unhandled :=
  (canonical_finish _ _).2 (canonical_dump (canonical_releaseHandles h _) _)

/-- Taking a trap always answers a next state, and keeps the form. -/
theorem canonical_takeTrap {s t : State} (h : Canonical s) (code sub n e : Nat) (a : Option Nat)
    (ht : s.takeTrap code sub n e a = .next t) : Canonical t := by
  unfold State.takeTrap at ht
  extract_lets h0 word fpc s1 s2 back e1 cause a1 s3 s4 at ht
  have h1 : Canonical s1 := canonical_ite (canonical_count h _ _ _ _) h
  have h2 : Canonical s2 := canonical_abortRegion ((canonical_leaveQueue _ _).2 h1) _ _
  have h3 : Canonical s3 := (canonical_on _ _).2 h2
  have h4 : Canonical s4 := canonical_trace h3 _ _ _ _ _
  split at ht <;> cases ht
  · exact canonical_unhandled h4
  · exact h4

/-- A stop keeps the form. -/
theorem canonical_stopAt {s t : State} (h : Canonical s) (e : Nat) (p : Stop) (ht : s.stopAt e p = .next t) : Canonical t := by
  cases p with
  | wait r =>
    cases ht
    exact h
  | trap code sub a =>
    unfold State.stopAt at ht
    dsimp -zeta only at ht
    extract_lets u at ht
    have hu : Canonical u := canonical_ite h (canonical_traffic (State.walkAll_traffic _ _ _) h)
    split at ht
    · exact Host.Outcome.next.inj ht ▸ hu
    · exact canonical_takeTrap (canonical_ite (canonical_traffic (State.logPoison_traffic _ _ _) hu) hu) _ _ _ _ _ ht

/-- A wait keeps the form. -/
theorem canonical_waitFor {s t : State} (h : Canonical s) (r : Wait) (ht : s.waitFor r = .next t) : Canonical t := by
  cases ht
  exact h

/-- A form that a region forbids keeps the form. -/
theorem canonical_outsideRegion {s t : State} (h : Canonical s) {k : Res} (hk : k = .next t → Canonical t)
    (ht : s.outsideRegion k = .next t) : Canonical t := by
  unfold State.outsideRegion at ht
  split at ht
  · cases ht
    exact canonical_abortRegion h _ _
  · exact hk ht

end Sys2Proof.Safety
end

