-- ==== Sys2Proof/Laws/Words.lean ====
section
/-! SUPPORT. Reading fields back from packed words, and the steps of the decoder. A proof that decoding gives an instruction
back from its word w goes: the word by cases of the encoder (rfl), its major and minor by `bits_eq` and omega, each field by
`bv_eq` and omega, then one of the lemmas `decode_of_found…`. -/

namespace Sys2Proof

open Sys2Proof.Machine

/-- A bit field by division. -/
theorem bits_eq (w hi lo : Nat) : bits w hi lo = w / 2 ^ lo % 2 ^ (hi + 1 - lo) := by
  simp [bits, Nat.shiftRight_eq_div_pow]

/-- A field that is read is the one that stands there. -/
theorem bv_eq {n : Nat} (w lo : Nat) (v : BitVec n) (h : w / 2 ^ lo % 2 ^ n = v.toNat) : bv w lo n = v := by
  unfold bv
  apply BitVec.eq_of_toNat_eq
  simpa using h

/-- A 32-bit word of an assigned minor, on an agent it may stand on and with its feature. -/
theorem decode_of_found32 {control : Bool} {masked w : Nat} {i : Instr} (h4 : w % 4 = 1) (hlt : w < 2 ^ 32)
    (hr : reservedMajor (bits w 7 2) = false) (hm : misplaced control w = none) (hk : maskedOut masked w = false)
    (hf : found32 w = some (true, i)) (hi : i.wf = true) : decode control masked w = i := by
  have h32 : w % 2 ^ 32 = w := Nat.mod_eq_of_lt hlt
  unfold decode
  rw [h4, h32]
  unfold decode32
  rw [hr, hm, hf]
  simp [hk, hi]

/-- A T64 word on a control core. -/
theorem decode_of_found64 {masked w : Nat} {i : Instr} (h4 : w % 4 = 3) (hlt : w < 2 ^ 64)
    (hf : found64 w = some (true, i)) (hi : i.wf = true) : decode true masked w = i := by
  have h64 : w % 2 ^ 64 = w := Nat.mod_eq_of_lt hlt
  unfold decode
  rw [h4, h64]
  unfold decode64
  rw [hf]
  simp [hi]

/-- A compressed halfword. -/
theorem decode_of_found16 {control : Bool} {masked w : Nat} {i : Instr} (h2 : w % 2 = 0) (hlt : w < 2 ^ 16) (h0 : w ≠ 0)
    (hf : found16 w = (true, i)) (hi : i.wf = true) : decode control masked w = i := by
  have h16 : w % 2 ^ 16 = w := Nat.mod_eq_of_lt hlt
  have h : decode control masked w = decode16 (w % 2 ^ 16) := by
    unfold decode
    split
    · omega
    · omega
    · rfl
  rw [h, h16]
  unfold decode16
  simp [h0, hf, hi]

/-- An advice word. -/
theorem decodeAdvice_of_found {w : Nat} {i : Instr} (hf : foundAdvice w = some (true, i)) (hi : i.wf = true) :
    decodeAdvice w = i := by
  unfold decodeAdvice
  rw [hf]
  simp [hi]

/-- The sizes of packed words: each field lies below its bound. -/
theorem field_lt {n : Nat} (v : BitVec n) (l : Nat) : v.toNat * 2 ^ l < 2 ^ (n + l) := by
  rw [Nat.pow_add]
  exact Nat.mul_lt_mul_of_pos_right v.isLt (Nat.two_pow_pos l)

end Sys2Proof
end

