-- ==== Sys2Proof/Tests/Slice0.lean ====
section
/-! SUPPORT. Tests: words that the spec writes out, well-formedness, and, for each statement, states and operands that meet its
hypotheses. -/

namespace Sys2Proof.Tests

open Sys2Proof.Machine Sys2Proof.Safety

-- one theorem at a time: evaluations side by side would each hold a thread
set_option Elab.async false

/-- Translation of the first GiB to itself, readable, writable and executable. -/
def pages : Memory := (Memory.write [] 0x3000 8 0x4001).write 0x4000 8 0x1F

/-- A live context with that translation. -/
def mapped : Ctx := { Ctx.none with live := true, root := 0x3001, image := some ⟨0x2000, 0x1000, []⟩ }

/-- A vector hart with a task: s10 = 0x10000, s11 = 8, vl = 4, format i32, a trap handler at 0x8000. -/
def runner (c : BitVec 12) : Hart := { Hart.idle ⟨0, 0, 0, false⟩ with
  active := true, started := true, ctx := c, pc := 0x2000, vt := 8, vl := 4
  s := ((Vector.replicate 32 0).set 10 0x10000).set 11 8
  trap := { TrapRegs.zero with vec := 0x8000 } }

/-- A machine with one hart in front and two contexts: 1, privileged, and 0x101 of tenant 1. -/
def withHart (h : Hart) : State :=
  { State.reset with hart := h, mem := pages, ctxs := [(1, mapped), (0x101, mapped)] }

/-- A vector hart of a privileged context, outside regions. -/
def ready : State := withHart (runner 1)

/-- The same of another tenant's context. -/
def user : State := withHart (runner 0x101)

/-- A control core. -/
def control : State := withHart { runner 1 with id := ⟨0, 0, 0, true⟩ }

/-- A checkpoint of zeros. -/
def blank : Checkpoint := ⟨Vector.replicate 32 0, Vector.replicate 48 0, Vector.replicate 12 0, 0, 0, 0, 0, 0,
  [], Vector.replicate 48 0⟩

/-- A hart in an elastic region. -/
def inside : State := withHart { runner 1 with
  region := some ⟨false, false, false, 0x2000, 5, [], [], blank, [], 0, none, none, [], []⟩, ebHi := 0xFFFFFFFFFF }

theorem canonical_withHart (h : Hart) : Canonical (withHart h) := by
  unfold Canonical
  exact ⟨(by decide +kernel : pages.wf = true), rfl, rfl, rfl, rfl, rfl, rfl, rfl,
    (by decide +kernel : Sparse.wf (fun _ => Ctx.none) [(1, mapped), (0x101, mapped)] = true), rfl, rfl, rfl, rfl⟩

/-- `withHart` over another memory. -/
theorem canonical_mem (h : Hart) (m : Memory) (hm : m.wf = true) : Canonical { withHart h with mem := m } :=
  ⟨hm, (canonical_withHart h).2⟩

/-- `withHart` over other package registers. -/
theorem canonical_pkg (h : Hart) (p : Pkg) (t : Sparse.wf partTable p.tables = true) (u : Sparse.wf (fun _ => 0) p.uec = true)
    (c : Sparse.wf (fun _ => 0) p.coll = true) : Canonical { withHart h with pkg := p } :=
  let k := canonical_withHart h
  ⟨k.1, k.2.1, k.2.2.1, k.2.2.2.1, k.2.2.2.2.1, k.2.2.2.2.2.1, k.2.2.2.2.2.2.1, k.2.2.2.2.2.2.2.1, k.2.2.2.2.2.2.2.2.1,
    k.2.2.2.2.2.2.2.2.2.1, t, u, c⟩

/-- No context traces. -/
theorem untraced_withHart (h : Hart) : Untraced (withHart h) := by
  intro c
  simp only [withHart, State.ctx, Sparse.get]
  repeat (first | split | rfl)

/-- The answer is a next state with a property. -/
def after (r : Res) (p : State → Bool) : Bool := match r with
  | .next t => p t
  | _ => false

/-! Words of the spec, decoded. -/

/-- Words written out in the spec (03_encoding.md, 05_progress_instructions.md R101, 11_prog_elastic.md, 20_prog_newline.md). -/
theorem test_decode_scalar :
    decode false 0 0x1CC501 = .add 7 6 5 ∧
    decode false 0 0xFD840811 = .bne 0x7EC 0 8 ∧
    decode false 0 0x5840511 = .bne 44 0 5 ∧
    decode false 0 0x10C0E11 = .bge 8 0 14 := by
  decide +kernel

/-- Words written out in the spec (07_memory_instructions.md R140, 11_prog_elastic.md, 07_memory_instructions.md R141). -/
theorem test_decode_scalarMemory :
    decode false 0 0x2C54621 = .ldd 1 1 10 6 ∧
    decode false 0 0xC21125 = .std 0 0 16 17 ∧
    decode false 0 0xF9D4629 = .amoadd 15 7 10 6 := by
  decide +kernel

/-- Words written out in the spec (05_progress_instructions.md R108). -/
theorem test_decode_compressed :
    decode false 0 0x2FA0 = .cAddi 5 0x3D := by
  decide +kernel

/-- Words written out in the spec (03_encoding.md R74). -/
theorem test_decode_hint :
    decode false 0 0xFD = .hint 0 := by
  decide +kernel

/-- Words written out in the spec (03_encoding.md, 15_prog_gemm.md, 20_prog_newline.md). -/
theorem test_decode_vectorLength :
    decode false 0 0xFF056A2D = .strip 0x3F8 1 11 10 ∧
    decode false 0 0x114B2D = .setvl 0 0 0 4 10 11 ∧
    decode false 0 0x198F2D = .setvl 0 0 0 6 12 15 := by
  decide +kernel

/-- Words written out in the spec (05_progress_instructions.md R109, 05_progress_instructions.md R110, 05_progress_instructions.md R112, 05_progress_instructions.md R115, 18_prog_advice.md R116). -/
theorem test_decode_progress :
    decode false 0 0xF20031 = .waitc 15 2 0 0 ∧
    decode false 0 0x12112331 = .fenceC 1 1 1 2 3 ∧
    decode false 0 0x26180531 = .bar 3 3 5 ∧
    decode false 0 0x2140735 = .ipost 2 1 2 7 ∧
    decode false 0 0x20000335 = .mark 3 := by
  decide +kernel

/-- Words written out in the spec (16_isolation.md R276, 16_isolation.md R278, 19_recovery.md R302). -/
theorem test_decode_system :
    decode false 0 0xE080C539 = .getc 0x704 6 5 ∧
    decode false 0 0xF004C739 = .setc 0x780 6 7 ∧
    decode false 0 0xA80039 = .trap 5 ∧
    decode false 0 0xC0039 = .eret ∧
    decode false 0 0x10C539 = .tlbinv 6 5 ∧
    decode false 0 0x14A039 = .tlbsync 5 ∧
    decode false 0 0x818C539 = .ilock 64 6 5 ∧
    decode false 0 0x1C0039 = .fenceI ∧
    decode false 0 0xF404A039 = .setc 0x7A0 5 0 := by
  decide +kernel

/-- Words written out in the spec (07_memory_instructions.md R143, 10_prog_scatter.md, 15_prog_gemm.md, 20_prog_newline.md, 07_memory_instructions.md R147). -/
theorem test_decode_vectorMemory :
    decode false 0 0x16128549 = .vgather 1 3 2 10 5 ∧
    decode false 0 0x2C341 = .vld 0 0 11 3 ∧
    decode false 0 0x38251 = .vst 0 0 14 2 ∧
    decode false 0 0x2814D = .vldff 0 0 10 1 ∧
    decode false 0 0x8025035D = .damoAdd 0 4 20 3 := by
  decide +kernel

/-- Words written out in the spec (07_memory_instructions.md R153, 07_memory_instructions.md R157, 07_memory_instructions.md R160). -/
theorem test_decode_copies :
    decode false 0 0x246A65 = .copyCfg 1 1 3 10 ∧
    decode false 0 0x8106065 = .hwaitVis 4 3 ∧
    decode false 0 0x22910869 = .xredO 1 9 4 8 := by
  decide +kernel

/-- Words written out in the spec (08_hierarchy_tiles.md R168, 08_hierarchy_tiles.md R170, 08_hierarchy_tiles.md R172). -/
theorem test_decode_tiles :
    decode false 0 0xA5456D = .treg 1 9 10 5 ∧
    decode false 0 0x1820E06D = .tfetch 8 7 ∧
    decode false 0 0x20A0E66D = .thalo 1 8 7 6 := by
  decide +kernel

/-- Words written out in the spec (09_coherence_elastic.md R186, 09_coherence_elastic.md R187, 09_coherence_elastic.md R198). -/
theorem test_decode_elastic :
    decode false 0 0x28194571 = .sclaim 6 10 5 ∧
    decode false 0 0x3000A071 = .srel 5 ∧
    decode false 0 0x1800571 = .xbeginE 3 5 ∧
    decode false 0 0x10000671 = .xend 6 ∧
    decode false 0 0x1800E071 = .xabort 7 ∧
    decode false 0 0x21292871 = .xbnd 10 9 8 := by
  decide +kernel

/-- Words written out in the spec (14_matrix.md R253, 14_matrix.md R264, 14_matrix.md R266, 14_matrix.md R267, 14_matrix.md R262). -/
theorem test_decode_matrix :
    decode false 0 0xC075 = .oclaim 3 ∧
    decode true 0 0x1000C075 = .orel 3 ∧
    decode false 0 0x2048C475 = .oput 0 9 3 4 ∧
    decode false 0 0x30500675 = .accget 0 10 6 ∧
    decode false 0 0x51A00075 = .accstore 1 20 ∧
    decode true 0 0x61514075 = .scldA 1 10 5 0 ∧
    decode true 0 0x70594075 = .scldW 0 11 5 := by
  decide +kernel

/-- Words written out in the spec (14_matrix.md R257, 15_prog_gemm.md). -/
theorem test_decode_tile :
    decode true 0 0x1F814800040003 = .mmaO 63 1 4 128 0 16 0 ∧
    decode true 0 0x2024000040003 = .mmaO 4 2 4 0 0 16 0 ∧
    decode true 0 0xE0001C80300017 = .accrdS 7 1 200 3 ∧
    decode true 0 0x2801000000023 = .tscl 5 0 0 ∧
    decode true 0 0x4000000013 = .accz 4 0 0 := by
  decide +kernel

/-- Words written out in the spec (03_encoding.md, 13_vector_arith.md R232, 20_prog_newline.md, 13_vector_arith.md R240, 13_vector_arith.md R242, 13_vector_arith.md R243, 13_vector_arith.md R245, 13_vector_arith.md R247, 13_vector_arith.md R249, 13_vector_arith.md R236). -/
theorem test_decode_vectorArithmetic :
    decode false 0 0xB00C4A1 = .vfadd 2 48 3 4 ∧
    decode false 0 0x304299 = .vseq 0 3 1 2 ∧
    decode false 0 0x80D041C5 = .vseqs 0 13 1 1 ∧
    decode false 0 0x110042D1 = .vcvt 1 0 1 2 ∧
    decode false 0 0x200086D1 = .vquant 0 2 6 ∧
    decode false 0 0x210188D1 = .vdequant 0 6 8 ∧
    decode false 0 0x80105D9 = .vfredsumO 0 4 5 ∧
    decode false 0 0x32CADD = .vsegsum 0 3 11 10 ∧
    decode false 0 0x31C9E5 = .vslideup 0 3 7 9 ∧
    decode false 0 0x10084ED = .mfirst 0 2 4 ∧
    decode false 0 0x45108F1 = .vfmadd 1 5 4 8 := by
  decide +kernel

/-- Advice words written out in 17_advice.md. -/
theorem test_decode_advice :
    decodeAdvice 0x04C00001 = .ali 3 1 ∧
    decodeAdvice 0x14CC0026 = .asll 3 3 38 ∧
    decodeAdvice 0x2C00000C = .await 12 ∧
    decodeAdvice 0x440C0004 = .apfL2 3 4 ∧
    decodeAdvice 0x400C0004 = .apfL1 3 4 ∧
    decodeAdvice 0x34000000 = .aend ∧
    decodeAdvice 0x110C0100 = .aaddi 4 3 256 ∧
    decodeAdvice 0x54000009 = .aprio 9 ∧
    decodeAdvice 0x00000000 = .anop := by
  decide +kernel

/-- The words of R70 that 03_encoding.md writes out. -/
theorem test_decode_illegal :
    decode false 0 0x3D = .illegalInstruction 0 ∧
    decode false 0 0x3 = .illegalInstruction 3 ∧
    decode true 0 0xFF = .illegalInstruction 0 ∧
    decode false 0 0x0 = .illegalInstruction 5 ∧
    decode false 0 0x3300C4A1 = .illegalInstruction 2 := by
  decide +kernel

/-! The words of the spec, encoded. -/

theorem test_encode_1 :
    ([(.add 7 6 5, 0x1CC501),
      (.bne 0x7EC 0 8, 0xFD840811),
      (.bne 44 0 5, 0x5840511),
      (.bge 8 0 14, 0x10C0E11),
      (.ldd 1 1 10 6, 0x2C54621),
      (.std 0 0 16 17, 0xC21125),
      (.amoadd 15 7 10 6, 0xF9D4629),
      (.cAddi 5 0x3D, 0x2FA0),
      (.hint 0, 0xFD),
      (.strip 0x3F8 1 11 10, 0xFF056A2D)] : List (Instr × Nat)).all (fun p => decide (encode p.1 = p.2)) = true := by
  decide +kernel

theorem test_encode_2 :
    ([(.setvl 0 0 0 4 10 11, 0x114B2D),
      (.setvl 0 0 0 6 12 15, 0x198F2D),
      (.waitc 15 2 0 0, 0xF20031),
      (.fenceC 1 1 1 2 3, 0x12112331),
      (.bar 3 3 5, 0x26180531),
      (.ipost 2 1 2 7, 0x2140735),
      (.mark 3, 0x20000335),
      (.getc 0x704 6 5, 0xE080C539),
      (.setc 0x780 6 7, 0xF004C739),
      (.trap 5, 0xA80039)] : List (Instr × Nat)).all (fun p => decide (encode p.1 = p.2)) = true := by
  decide +kernel

theorem test_encode_3 :
    ([(.eret, 0xC0039),
      (.tlbinv 6 5, 0x10C539),
      (.tlbsync 5, 0x14A039),
      (.ilock 64 6 5, 0x818C539),
      (.fenceI, 0x1C0039),
      (.setc 0x7A0 5 0, 0xF404A039),
      (.vgather 1 3 2 10 5, 0x16128549),
      (.vld 0 0 11 3, 0x2C341),
      (.vst 0 0 14 2, 0x38251),
      (.vldff 0 0 10 1, 0x2814D)] : List (Instr × Nat)).all (fun p => decide (encode p.1 = p.2)) = true := by
  decide +kernel

theorem test_encode_4 :
    ([(.damoAdd 0 4 20 3, 0x8025035D),
      (.copyCfg 1 1 3 10, 0x246A65),
      (.hwaitVis 4 3, 0x8106065),
      (.xredO 1 9 4 8, 0x22910869),
      (.treg 1 9 10 5, 0xA5456D),
      (.tfetch 8 7, 0x1820E06D),
      (.thalo 1 8 7 6, 0x20A0E66D),
      (.sclaim 6 10 5, 0x28194571),
      (.srel 5, 0x3000A071),
      (.xbeginE 3 5, 0x1800571)] : List (Instr × Nat)).all (fun p => decide (encode p.1 = p.2)) = true := by
  decide +kernel

theorem test_encode_5 :
    ([(.xend 6, 0x10000671),
      (.xabort 7, 0x1800E071),
      (.xbnd 10 9 8, 0x21292871),
      (.oclaim 3, 0xC075),
      (.orel 3, 0x1000C075),
      (.oput 0 9 3 4, 0x2048C475),
      (.accget 0 10 6, 0x30500675),
      (.accstore 1 20, 0x51A00075),
      (.scldA 1 10 5 0, 0x61514075),
      (.scldW 0 11 5, 0x70594075)] : List (Instr × Nat)).all (fun p => decide (encode p.1 = p.2)) = true := by
  decide +kernel

theorem test_encode_6 :
    ([(.mmaO 63 1 4 128 0 16 0, 0x1F814800040003),
      (.mmaO 4 2 4 0 0 16 0, 0x2024000040003),
      (.accrdS 7 1 200 3, 0xE0001C80300017),
      (.tscl 5 0 0, 0x2801000000023),
      (.accz 4 0 0, 0x4000000013),
      (.vfadd 2 48 3 4, 0xB00C4A1),
      (.vseq 0 3 1 2, 0x304299),
      (.vseqs 0 13 1 1, 0x80D041C5),
      (.vcvt 1 0 1 2, 0x110042D1),
      (.vquant 0 2 6, 0x200086D1)] : List (Instr × Nat)).all (fun p => decide (encode p.1 = p.2)) = true := by
  decide +kernel

theorem test_encode_7 :
    ([(.vdequant 0 6 8, 0x210188D1),
      (.vfredsumO 0 4 5, 0x80105D9),
      (.vsegsum 0 3 11 10, 0x32CADD),
      (.vslideup 0 3 7 9, 0x31C9E5),
      (.mfirst 0 2 4, 0x10084ED),
      (.vfmadd 1 5 4 8, 0x45108F1)] : List (Instr × Nat)).all (fun p => decide (encode p.1 = p.2)) = true := by
  decide +kernel

theorem test_encode_advice :
    ([(.ali 3 1, 0x4C00001),
      (.asll 3 3 38, 0x14CC0026),
      (.await 12, 0x2C00000C),
      (.apfL2 3 4, 0x440C0004),
      (.apfL1 3 4, 0x400C0004),
      (.aend, 0x34000000),
      (.aaddi 4 3 256, 0x110C0100),
      (.aprio 9, 0x54000009),
      (.anop, 0x0)] : List (Instr × Nat)).all (fun p => decide (encode p.1 = p.2)) = true := by
  decide +kernel

/-! Well-formedness: each check refuses a term, and admits its neighbour. -/

theorem test_wf_operands :
    ([Instr.vld 0 0 10 56, .vgather 0 0 56 10 5, .vst 0 0 10 63, .vadd 12 1 2 3, .vadd 0 56 2 3, .vseq 0 1 2 12, .vredsumO 0 4 48,
      .vsegsum 0 12 1 2, .mand 12 1 2, .mfirst 0 2 32, .lsldq 0 0 10 47, .vquant 0 1 47, .vdequant 0 47 1,
      .damoAdd 0 1 31 3] : List Instr).all (fun i => !i.wf) = true ∧
    ([Instr.vld 0 0 10 55, .vgather 0 0 55 10 5, .vst 0 0 10 55, .vadd 11 1 2 3, .vadd 0 55 2 3, .vseq 0 1 2 11, .vredsumO 0 4 47,
      .vsegsum 0 11 1 2, .mand 11 1 2, .mfirst 0 2 31, .lsldq 0 0 10 46, .vquant 0 1 46, .vdequant 0 46 1,
      .damoAdd 0 1 30 3] : List Instr).all (·.wf) = true := by
  decide +kernel

theorem test_wf_fields :
    ([Instr.setvl 0 3 0 0 1 2, .setvl 0 0 0 10 1 2, .strip 0 1 31 1, .strip 0 1 5 6, .fenceC 6 0 0 0 0, .bar 1 48 5, .bar 0 0 5,
      .hwaitVis 0 3, .vpush 0 5 0 1, .vpush 0 5 8 41, .xbeginE 5 1, .getc 0x70C 0 5, .getc 0x780 0 5, .setc 0x710 5 0,
      .vcvt 10 0 1 2] : List Instr).all (fun i => !i.wf) = true ∧
    ([Instr.setvl 0 2 0 0 1 2, .setvl 0 0 0 9 1 2, .strip 0 1 30 1, .strip 0 1 5 7, .fenceC 5 0 0 0 0, .bar 1 47 5, .bar 5 3 5,
      .hwaitVis 1 3, .vpush 0 5 1 47, .vpush 0 5 8 40, .xbeginE 4 1, .getc 0x70B 0 5, .getc 0x7A3 0 5, .setc 0x780 5 0,
      .vcvt 9 0 1 2] : List Instr).all (·.wf) = true := by
  decide +kernel

theorem test_wf_engine_and_rest :
    ([Instr.accstore 0 31, .mmaO 63 0 1 0 0 0 0, .mmaO 63 17 1 0 0 0 0, .mmaO 63 2 1 0 0 31 0, .mmaO 5 1 1 0 0 0 0, .mmaO 63 1 7 0 0 0 0,
      .accz 1 0 193, .accz 0 1 0, .accrdS 5 2 0 0, .tscl 32 0 0, .cAddi 0 0, .asll 1 2 64, .adelay 0, .apfL1 1 65, .aprio 16,
      .aorder 4, .illegalInstruction 0, .powerOn] : List Instr).all (fun i => !i.wf) = true ∧
    ([Instr.accstore 0 30, .mmaO 63 16 1 0 0 0 0, .mmaO 63 2 1 0 0 30 0, .mmaO 31 1 4 0 0 0 0, .accz 1 0 192, .accz 0 2 0,
      .accrdS 5 1 0 0, .tscl 31 0 0, .cAddi 0 1, .asll 1 2 63, .adelay 1, .apfL1 1 64, .aprio 15, .aprio 31,
      .aorder 3] : List Instr).all (·.wf) = true := by
  decide +kernel

/-! Results that the spec works out, or that its rules give by hand. -/

/-- A hart with scalar registers 1 to 3. -/
def scalars (a b c : Word) : State :=
  withHart { runner 1 with s := (((Vector.replicate 32 0).set 1 a).set 2 b).set 3 c }

/-- Scalar register n afterwards. -/
def gives (i : Instr) (s : State) (n : BitVec 5) (x : Word) : Bool := after (exec i s) fun t => decide (t.rs n = x)

/-- R98: division by zero, and the most negative number by -1; R97: high products. -/
theorem test_divide : gives (.div 2 1 4) (scalars 5 0 0) 4 (-1) = true ∧ gives (.rem 2 1 4) (scalars 5 0 0) 4 5 = true ∧
    gives (.div 2 1 4) (scalars 0x8000000000000000 (-1) 0) 4 0x8000000000000000 = true ∧
    gives (.rem 2 1 4) (scalars 0x8000000000000000 (-1) 0) 4 0 = true ∧
    gives (.mulh 2 1 4) (scalars (-1) 2 0) 4 (-1) = true ∧ gives (.mulhu 2 1 4) (scalars (-1) 2 0) 4 1 = true := by
  decide +kernel

/-- R99: the constant 0x1_2345_6789 in its pieces, and a sign-extended word. -/
theorem test_shori : gives (.shori 0x789 1 1) (scalars (0x48D * 2 ^ 11 + 0x0AC) 0 0) 1 0x123456789 = true ∧
    gives (.addw 2 1 4) (scalars 0x7FFFFFFF 1 0) 4 0xFFFFFFFF80000000 = true ∧
    gives (.add 1 1 0) (scalars 5 0 0) 0 0 = true := by
  decide +kernel

/-- R97: bit extraction and deposit, by hand. -/
theorem test_bits : gives (.bext 2 1 4) (scalars 0xABCD 0x0FF0 0) 4 0xBC = true ∧
    gives (.bdep 2 1 4) (scalars 0xBC 0x0FF0 0) 4 0x0BC0 = true ∧ gives (.clz 1 4) (scalars 0 0 0) 4 64 = true ∧
    gives (.rev8 1 4) (scalars 0x0102030405060708 0 0) 4 0x0807060504030201 = true := by
  decide +kernel

/-- R101: `bne s8, s0, target` with the target 20 halfwords back. -/
theorem test_branch : after (exec (.bne 0x7EC 0 8) (withHart { runner 1 with s := (Vector.replicate 32 0).set 8 1 }))
    (fun t => decide (t.hart.pc = 0x2000 - 40)) = true := by
  decide +kernel

/-- R140, R141: a store is little-endian; amoadd returns the old value. -/
theorem test_store : after (exec (.stw 0 0 10 11) ready) (fun t => decide (t.mem.read 0x10000 4 = 8 ∧ t.mem.byte 0x10000 = 8)) = true ∧
    after (exec (.amoadd 0 11 10 5) { ready with mem := pages.write 0x10000 8 5 })
      (fun t => decide (t.rs 5 = 5 ∧ t.mem.read 0x10000 8 = 13)) = true := by
  decide +kernel

/-- A hart with vector registers 1 to 3, of given formats. -/
def vectors (vt : BitVec 11) (a b c : VReg) : State :=
  withHart { runner 1 with vt := vt, v := (((Vector.replicate 48 0).set 1 a).set 2 b).set 3 c }

/-- Vector register n afterwards. -/
def givesV (i : Instr) (s : State) (n : Nat) (x : VReg) : Bool := after (exec i s) fun t => decide (t.hart.getV n = x)

/-- R233: an i8 vsadd of 100 and 50 gives 127; a vsra on i16 of 0x8000 by 0x0013 gives 0xF000. -/
theorem test_saturate : givesV (.vsadd 0 2 1 3) (vectors 6 100 50 0) 3 127 = true ∧
    givesV (.vsra 0 2 1 3) (vectors 7 0x8000 0x13 0) 3 0xF000 = true := by
  decide +kernel

/-- R236: vfmadd with a = b = 2^12 + 1 and d = -(2^24 + 2^13) in f32 gives 1.0. -/
theorem test_fused : after (exec (.vfmadd 0 2 1 3) (vectors 1 0x45800800 0x45800800 0xCB801000))
    (fun t => decide (elem (t.hart.getV 3) 32 0 = 0x3F800000)) = true := by
  decide +kernel

/-- The conversions of 12_numbers.md: 240.0, 250.0, 464.0 and infinity to e4m3. -/
theorem test_convert : givesV (.vcvt 1 0 1 3) (vectors 4 (0x43700000 + 0x437A0000 * 2 ^ 32 + 0x43E80000 * 2 ^ 64 + 0x7F800000 * 2 ^ 96) 0 0)
    3 (0x77 + 0x78 * 2 ^ 8 + 0x7E * 2 ^ 16 + 0x7E * 2 ^ 24) = true := by
  decide +kernel

/-- R249: mfirst with vl = 64, vl.pad = 14 and m2 set only at position 55 gives 2^64 - 1. -/
theorem test_mfirst : gives (.mfirst 0 2 4) (withHart { runner 1 with vl := 64, vlPad := 14, m := (Vector.replicate 12 0).set 2 (2 ^ 55) })
    4 (-1) = true := by
  decide +kernel

/-- R246: vslideup by s >= g writes no element; vslidedown then writes zeros. -/
theorem test_slide : givesV (.vslideup 0 11 2 3) (vectors 8 0 0x55 0x77) 3 0x77 = true ∧
    givesV (.vslidedown 0 11 2 3) (vectors 8 0 0x55 0x77) 3 0 = true := by
  decide +kernel

/-- R106: a request of 300 at i32 under a block of 128 grants 256. -/
theorem test_setvl : after (exec (.setvl 0 0 3 8 1 2) (scalars 300 0 0))
    (fun t => decide (t.hart.vl = 256 ∧ t.hart.vlPad = 0 ∧ t.rs 2 = 256)) = true := by
  decide +kernel

/-- R303: a trap saves the pc and its cause, and goes on at the handler. -/
theorem test_trap : after (exec (.trap 5) ready) (fun t => decide (t.hart.pc = 0x8000 ∧ t.hart.trap.pc = 0x2000 ∧
    t.hart.trap.cause = 0x100050009)) = true := by
  decide +kernel

/-- A placed word is the next one to run. -/
theorem test_step : after (step (State.reset.withFetchWord 32 0x1CC501)) (fun _ => true) = true := by
  decide +kernel

/-! Witnesses: states and operands that meet the hypotheses of each statement. -/

/-- The one piece of an access at physical address va of `pages`, or of local store 0. -/
def piece (va n : Nat) : List Piece := [⟨va, .mem va, n, 0⟩]
def localPiece (off n : Nat) : List Piece := [⟨windowBase + off, .store off, n, 0⟩]

/-- `ready` under another vt. -/
def formatted (vt : BitVec 11) : State := withHart { runner 1 with vt := vt }

/-- `ready` with s12 = 0x10000 and s13 a descriptor; s14 = the base of the local-store window, s15 = 16. -/
def based (d : Word) : State := withHart { runner 1 with
  s := ((((Vector.replicate 32 0).set 12 0x10000).set 13 d).set 14 (BitVec.ofNat 64 windowBase)).set 15 16 }

theorem witness_BranchesAndJumps :
    ((ready.rs 10 + (0x7FF : BitVec 11).signExtend 64).toNat / 2 * 2 ≠ 0 ∧ (ready.rs 10).toNat / 2 * 2 ≠ 0) ∧
    ((ready.rs 0 + (1 : BitVec 11).signExtend 64).toNat / 2 * 2 = 0 ∧ (ready.rs 0).toNat / 2 * 2 = 0 ∧
      ready.hart.region = none) ∧
    ((inside.rs 0).toNat / 2 * 2 = 0 ∧ inside.hart.region ≠ none) := by
  decide +kernel

theorem witness_ScalarLoads : Canonical ready ∧ ready.hart.region = none ∧ ready.full .ld = false ∧
    ready.pieces ready.hart true .load (BitVec.ofInt 64 ((ready.rs 10).toInt + (0 : BitVec 7).toInt * 8)).toNat 8 =
      .ok (piece 0x10000 8) ∧
    ready.pieces ready.hart true .load (BitVec.ofInt 64 ((ready.rs 10).toInt + (0x7F : BitVec 7).toInt * 1)).toNat 1 =
      .ok (piece 0xFFFF 1) ∧
    ready.pieces ready.hart true .load (ready.rs (BitVec.ofNat 5 (8 + (2 : BitVec 3).toNat)) + BitVec.ofNat 64 (8 * 7)).toNat 8 =
      .ok (piece 0x10038 8) :=
  ⟨canonical_withHart _, by decide +kernel⟩

theorem witness_ScalarStores : Canonical ready ∧ ready.hart.region = none ∧ ready.full .st = false ∧
    ready.pieces ready.hart true .store (BitVec.ofInt 64 ((ready.rs 10).toInt + (0x3F : BitVec 7).toInt * 4)).toNat 4 =
      .ok (piece 0x100FC 4) ∧
    ready.pieces ready.hart true .store (ready.rs (BitVec.ofNat 5 (8 + (2 : BitVec 3).toNat)) + BitVec.ofNat 64 (8 * 0)).toNat 8 =
      .ok (piece 0x10000 8) :=
  ⟨canonical_withHart _, by decide +kernel⟩

theorem witness_ScalarAtomics : Canonical ready ∧ ready.hart.region = none ∧ ready.full .st = false ∧
    (ready.rs 10).toNat % 8 = 0 ∧ ready.pieces ready.hart true .update (ready.rs 10).toNat 8 = .ok (piece 0x10000 8) ∧
    ready.pieces ready.hart true .update (ready.rs 10).toNat 4 = .ok (piece 0x10000 4) ∧
    ready.peek (piece 0x10000 8) = (ready.rs 0).toNat % 256 ^ 8 ∧ ready.peek (piece 0x10000 8) ≠ (ready.rs 11).toNat % 256 ^ 8 :=
  ⟨canonical_withHart _, by decide +kernel⟩

theorem witness_Reservations : Canonical ready ∧ ready.hart.region = none ∧ ready.full .st = false ∧
    (ready.rs 10).toNat % 8 = 0 ∧
    ready.pieces ready.hart true .load (ready.rs 10).toNat 8 = .ok (⟨0x10000, .mem 0x10000, 8, 0⟩ :: []) ∧
    (∀ q ∈ ready.pkg.holds, q.1 = (Place.mem 0x10000).block → q.2 = ready.hart.id) ∧
    ready.pieces ready.hart true .store (ready.rs 10).toNat 4 = .ok (⟨0x10000, .mem 0x10000, 4, 0⟩ :: []) ∧
    ready.hart.reservation ≠ some (Place.mem 0x10000).block ∧
    (withHart { runner 1 with reservation := some (Place.mem 0x10000).block }).hart.reservation =
      some (Place.mem 0x10000).block :=
  ⟨canonical_withHart _, by decide +kernel⟩

/-- s10 = 0x40000000 is the first address that is not mapped, s11 = 0x40000001 is misaligned. -/
def unmapped : State := withHart { runner 1 with
  s := ((Vector.replicate 32 0).set 10 0x40000000).set 11 0x40000001 }

theorem witness_AccessTraps :
    (unmapped.hart.region = none ∧ (unmapped.rs 11).toNat % 4 ≠ 0) ∧
    unmapped.pieces unmapped.hart true .load (BitVec.ofInt 64 ((unmapped.rs 10).toInt + (0 : BitVec 7).toInt * 8)).toNat 8 =
      .error (.trap 5 0 0x40000000) ∧
    unmapped.pieces unmapped.hart true .store (BitVec.ofInt 64 ((unmapped.rs 10).toInt + (0 : BitVec 7).toInt * 1)).toNat 1 =
      .error (.trap 5 0 0x40000000) ∧
    (unmapped.hart.activeFrom (unmapped.hart.getM 0) = 0 :: [1, 2, 3] ∧ unitAddress unmapped 11 0 % unmapped.hart.fmt.esz ≠ 0 ∧
      unmapped.hart.breakInside (unmapped.hart.activeCount (unmapped.hart.getM 0)) = none ∧ isStream 0 = false ∧
      unmapped.full .st = false ∧ unmapped.hold [⟨0, unmapped.hart.sew⟩] none = none) := by
  decide +kernel

theorem witness_TrapEntry : Canonical ready ∧ ready.hart.region = none ∧ ready.hart.trap.vec ≠ 0 ∧
    ready.hart.trap.cause.toNat.testBit 32 = false ∧ 255 < 2 ^ 8 ∧ 2047 < 2 ^ 11 :=
  ⟨canonical_withHart _, by decide +kernel⟩

/-- A hart that serves a trap, with no handler of its own. -/
def serving : State := withHart { runner 1 with trap := { TrapRegs.zero with cause := 0x100000000 } }

theorem witness_OtherTraps :
    (serving.hart.region = none ∧ serving.hart.trap.vec = 0) ∧ serving.hart.trap.cause.toNat.testBit 32 = true ∧
    inside.hart.region = some ⟨false, false, false, 0x2000, 5, [], [], blank, [], 0, none, none, [], []⟩ ∧ inside.hart.trap.vec ≠ 0 ∧
    inside.hart.trap.cause.toNat.testBit 32 = false ∧ (4 : BitVec 5) ≠ 5 ∧ (5 : BitVec 5) ≠ 0 := by
  decide +kernel

theorem witness_TrapInstructions :
    ready.hart.region = none ∧ ready.hart.trap.cause.toNat.testBit 32 = false ∧ inside.hart.region ≠ none ∧
    serving.hart.region = none ∧ serving.hart.trap.cause.toNat.testBit 32 = true := by
  decide +kernel

/-- Shuttle channel 0 granted to context 1, its value 8 seen at every position asked of. -/
def shuttled : State := { ready with shuttle := [(0, ⟨some 1, 8, [(ringPosition ready.hart.id, 8)], []⟩)] }

theorem witness_WaitsAndFences :
    (ready.hart.region = none ∧ ready.hart.lost = [] ∧ ready.hart.cnt.ld ≤ (0 : BitVec 4).setWidth 6 ∧
      ready.hart.cnt.st ≤ (0 : BitVec 4).setWidth 6 ∧ ready.hart.cnt.cp ≤ (0 : BitVec 4).setWidth 6 ∧
      ready.hart.cnt.tl ≤ (0 : BitVec 4).setWidth 6) ∧
    (ready.tilesPending = false ∧ ready.accessesPending (classRange 0 15) = false ∧
      ready.accessesPending (bits (ready.rs 10).toNat 15 0) = false) ∧
    (shuttled.hart.region = none ∧ (shuttled.channel (8 * die shuttled.hart.id + 0)).ctx = some shuttled.hart.ctx ∧
      (shuttled.rs 11).toNat ≤
        (Sparse.get (fun _ => 0) (shuttled.channel (8 * die shuttled.hart.id + 0)).seen (ringPosition shuttled.hart.id)).toNat) ∧
    ready.transfersPending = false ∧
    privileged ready.hart.ctx = true ∧ ready.olderPending ((ready.rs 11).setWidth 12) = false := by
  decide +kernel

/-- A hart that waits for phase 0 of a barrier that has been released. -/
def released : State :=
  let k := ready.barrierKey 1 3
  { withHart { runner 1 with barWait := some (k, 0) } with barriers := [(k, ⟨1, 0, 0, 1⟩)] }

theorem witness_Barriers :
    (ready.hart.region = none ∧ ready.foreignBarrier 1 (47 : BitVec 6).toNat = false ∧ ready.tilesPending = false ∧
      ready.accessesPending 0xFFFF = false ∧ ready.hart.barWait = none ∧
      (ready.barrier (ready.barrierKey 1 47)).isReleased
        (BitVec.ofNat 32 (ready.barrier (ready.barrierKey 1 47)).phase).toNat = false) ∧
    ((ready.barrier (ready.barrierKey 1 47)).arrived = 0 ∧ max ((ready.rs 11).toNat % 2 ^ 32) 1 > 0 + 1 ∧
      max ((ready.rs 0).toNat % 2 ^ 32) 1 = 0 + 1) ∧
    (released.hart.region = none ∧ released.hart.barWait = some (ready.barrierKey 1 3, 0) ∧
      (released.barrier (ready.barrierKey 1 3)).isReleased 0 = true ∧ released.foreignBarrier 1 (3 : BitVec 6).toNat = false ∧
      (released.barrier (released.barrierKey 1 3)).isReleased (released.rs 0).toNat = true) := by
  decide +kernel

theorem witness_PostMarkYield : Canonical ready ∧ ready.hart.region = none ∧
    (shuttled.hart.region = none ∧ (shuttled.channel (8 * die shuttled.hart.id + (0 : BitVec 3).toNat)).ctx = some shuttled.hart.ctx ∧
      shuttled.tilesPending = false ∧ shuttled.accessesPending (classRange (0 : BitVec 4).toNat (15 : BitVec 4).toNat) = false) :=
  ⟨canonical_withHart _, by decide +kernel⟩

theorem canonical_shuttled : Canonical shuttled :=
  let h := canonical_withHart (runner 1)
  ⟨h.1, h.2.1, h.2.2.1, h.2.2.2.1, h.2.2.2.2.1, h.2.2.2.2.2.1, h.2.2.2.2.2.2.1, (by decide +kernel), h.2.2.2.2.2.2.2.2⟩

theorem witness_RegisterReads : ready.hart.region = none ∧
    (privilegedRegister (0x780 : BitVec 11).toNat = true ∧ privileged ready.hart.ctx = true) ∧
    (user.hart.region = none ∧ privilegedRegister (0x700 : BitVec 11).toNat = false) := by
  decide +kernel

theorem witness_RegisterWrites : Canonical ready ∧ ready.hart.region = none ∧ ready.transfersPending = false :=
  ⟨canonical_withHart _, by decide +kernel⟩

theorem witness_PrivilegedRegisters : user.hart.region = none ∧ privileged user.hart.ctx = false ∧
    (0x7AA : BitVec 11).toNat ∈ [0x738, 0x780, 0x781, 0x782, 0x783, 0x784, 0x785, 0x786, 0x788, 0x7AA] ∧
    (0x738 : BitVec 11).toNat ∈ [0x738, 0x780, 0x781, 0x782, 0x783, 0x784, 0x785, 0x786, 0x788] := by
  decide +kernel

/-- A machine with empty tables, whose hart's buffer holds a translation for its own context and one for another. -/
def cached : State :=
  { withHart { runner 1 with s := ((Vector.replicate 32 0).set 10 0x10000).set 12 1 } with
    mem := []
    pkg := { Pkg.reset with tlb := [⟨(runner 1).id, 1, 0x10, 0x20, 7⟩, ⟨(runner 1).id, 2, 0x10, 0x20, 7⟩] } }

theorem test_translation_held : cached.walkFor cached.hart 0x10008 = .page 0x20008 7 ∧
    cached.walkReads cached.hart 0x10008 = [] ∧ cached.walkFor cached.hart 0x11008 = .fault := by
  decide +kernel

theorem test_tlbinv_removes : (match exec (.tlbinv 10 12) cached with
    | .next t => t.pkg.tlb.map (·.ctx)
    | _ => []) = [2] := by
  decide +kernel

theorem witness_TranslationAndLocks : Canonical ready ∧ Canonical user ∧
    (ready.hart.region = none ∧ privileged ready.hart.ctx = true ∧ ready.transfersPending = false) ∧
    (user.hart.region = none ∧ privileged user.hart.ctx = false) ∧
    -- no walk for a line that ilock names waits: two lines that translate, and one that does not
    ((∀ l ∈ lockLines (ready.rs 10) 2, ready.walkFor ready.hart (128 * l) ≠ .wait) ∧
      ready.walkFor ready.hart (128 * (0x40000000 / 128)) ≠ .wait) :=
  ⟨canonical_withHart _, canonical_withHart _, by decide +kernel⟩

theorem witness_SetvlGrants :
    Fmt.ofCode (8 : BitVec 4).toNat = some .i32 ∧ Fmt.ofCode (0 : BitVec 4).toNat = some .f64 ∧
    (ready.core (globalCore ready.hart.id)).pending = none ∧
    [0, 32, 64, 128].getD (3 : BitVec 2).toNat 0 ≤ 4 * (32 / 2 ^ (0 : BitVec 2).toNat) * (64 / Fmt.i32.sew) := by
  decide +kernel

/-- A core of two harts that takes a split into four: the other hart has executed its first setvl, or has not. -/
def resplit (done : Bool) : State := { withHart (runner 1) with
  parked := [{ runner 1 with id := ⟨0, 0, 1, false⟩, setvlDone := done }]
  cores := [(0, { Core.idle with split := 1, pending := some 2 })] }

theorem witness_SetvlGrants_pending : ∀ done, let s := resplit done
    (s.core (globalCore s.hart.id)).pending = some 2 ∧
    ((∀ k ∈ s.harts, k.id.control = false ∧ globalCore k.id = globalCore s.hart.id → k.active = true → k.id ≠ s.hart.id →
      k.setvlDone = false) ↔ done = false) ∧
    [0, 32, 64, 128].getD (1 : BitVec 2).toNat 0 ≤ 4 * (32 / 2 ^ (2 : BitVec 2).toNat) * (64 / Fmt.i32.sew) := by
  decide +kernel

/-- One of eight harts: 4 lanes, so that a block of 128 is longer than its MVL at 64 bits. -/
def narrowHart : State := withHart { runner 1 with split := 3 }

theorem witness_SetvlGrants_trap : (narrowHart.core (globalCore narrowHart.hart.id)).pending = none ∧
    4 * (32 / 2 ^ narrowHart.hart.split.toNat) * (64 / Fmt.f64.sew) < [0, 32, 64, 128].getD (2 : BitVec 2).toNat 0 := by
  decide +kernel

theorem witness_TypeAndStrip :
    ((28 : BitVec 5).toNat + (3 : BitVec 2).toNat < 32 ∧
      ¬ ((28 : BitVec 5) ≤ 27 ∧ (27 : BitVec 5).toNat ≤ (28 : BitVec 5).toNat + (3 : BitVec 2).toNat)) ∧
    ((10 : BitVec 5).toNat + (0 : BitVec 2).toNat < 32 ∧
      ¬ ((10 : BitVec 5) ≤ 11 ∧ (11 : BitVec 5).toNat ≤ (10 : BitVec 5).toNat + (0 : BitVec 2).toNat)) := by
  decide +kernel

/-- What an elementwise form asks, under an integer format, and under a floating one. -/
theorem witness_VectorResults :
    (accepts false ready.hart = true ∧ ready.hold [⟨3, ready.hart.sew⟩, ⟨47, ready.hart.sew⟩] (some ⟨47, ready.hart.sew⟩) = none ∧
      isStream 47 = false ∧ ready.hart.cutInside true [⟨3, ready.hart.sew⟩, ⟨47, ready.hart.sew⟩] (ready.hart.getM 11) = none) ∧
    (accepts true (formatted 1).hart = true ∧
      (formatted 1).hold [⟨3, (formatted 1).hart.sew⟩] (some ⟨0, (formatted 1).hart.sew⟩) = none ∧
      (formatted 1).hart.cutInside true [⟨3, (formatted 1).hart.sew⟩] ((formatted 1).hart.getM 0) = none) := by
  decide +kernel

theorem witness_VectorOtherResults :
    ((true || accepts true ready.hart) = true ∧ ready.hold [⟨3, ready.hart.sew⟩] (some ⟨47, ready.hart.sew⟩) = none ∧
      ready.hold [] (some ⟨47, ready.hart.sew⟩) = none ∧ isStream 47 = false ∧
      ready.hart.cutInside true [⟨3, ready.hart.sew⟩] (ready.hart.getM 0) = none ∧
      ready.hart.cutInside true [⟨3, ready.hart.sew⟩, ⟨4, ready.hart.sew⟩, ⟨47, ready.hart.sew⟩] (ready.hart.getM 0) = none ∧
      ready.hart.cutInside true [⟨3, ready.hart.sew⟩, ⟨4, ready.hart.sew⟩] (ready.hart.getM 0) = none ∧
      ready.hold [⟨3, ready.hart.sew⟩, ⟨4, ready.hart.sew⟩] (some ⟨47, ready.hart.sew⟩) = none) ∧
    (accepts true (formatted 0).hart = true ∧ (formatted 0).hold [] (some ⟨0, (formatted 0).hart.sew⟩) = none ∧
      (formatted 0).hart.cutInside true [] ((formatted 0).hart.getM 11) = none) := by
  decide +kernel

theorem witness_MaskResults :
    (accepts false ready.hart = true ∧ ready.hold [⟨3, ready.hart.sew⟩, ⟨47, ready.hart.sew⟩] none = none ∧
      (11 : BitVec 6).toNat < 12 ∧
      ready.hart.cutInside true [⟨3, ready.hart.sew⟩, ⟨47, ready.hart.sew⟩] (ready.hart.getM 0) = none ∧
      ready.hart.cutInside true [] (ready.hart.getM 0) = none) ∧
    (accepts true (formatted 1).hart = true ∧ (formatted 1).hold [⟨3, (formatted 1).hart.sew⟩] none = none ∧
      (0 : BitVec 6).toNat < 12 ∧
      (formatted 1).hart.cutInside true [⟨3, (formatted 1).hart.sew⟩] ((formatted 1).hart.getM 0) = none) := by
  decide +kernel

theorem witness_ReductionResults :
    (accepts false ready.hart = true ∧ ready.hold [⟨4, ready.hart.sew⟩] (some ⟨47, ready.hart.sew⟩) = none ∧
      (47 : BitVec 6).toNat < 48 ∧ ready.hart.anyBad [⟨4, ready.hart.sew⟩] = none ∧ RegSlot.v 47 0 ∉ ready.hart.parity ∧
      ready.hart.vl ≠ 0) ∧
    (accepts true (formatted 1).hart = true ∧ (formatted 1).hold [⟨4, (formatted 1).hart.sew⟩] (some ⟨4, (formatted 1).hart.sew⟩) = none) := by
  decide +kernel

theorem witness_ScanResults :
    (accepts false ready.hart = true ∧ ready.hold [⟨4, ready.hart.sew⟩] (some ⟨47, ready.hart.sew⟩) = none ∧
      (47 : BitVec 6).toNat < 48 ∧ ready.hart.anyBad [⟨4, ready.hart.sew⟩] = none) ∧
    (accepts true (formatted 1).hart = true ∧ (formatted 1).hart.anyBad [⟨4, (formatted 1).hart.sew⟩] = none ∧
      (formatted 1).hold [⟨4, (formatted 1).hart.sew⟩] (some ⟨4, (formatted 1).hart.sew⟩) = none) := by
  decide +kernel

theorem witness_PermuteResults :
    (ready.hold [⟨4, ready.hart.sew⟩, ⟨5, ready.hart.sew⟩] (some ⟨47, ready.hart.sew⟩) = none ∧
      ready.hold [⟨4, ready.hart.sew⟩] (some ⟨0, ready.hart.sew⟩) = none ∧ ready.hold [] (some ⟨0, ready.hart.sew⟩) = none ∧
      (47 : BitVec 6).toNat < 48 ∧ ready.hart.anyBad [⟨4, ready.hart.sew⟩, ⟨5, ready.hart.sew⟩] = none ∧
      ready.hart.anyBad [⟨4, ready.hart.sew⟩] = none ∧ ready.hart.anyBad [] = none ∧ accepts false ready.hart = true) ∧
    ((formatted 1).hart.anyBad [⟨4, (formatted 1).hart.sew⟩] = none ∧ (!true || accepts true (formatted 1).hart) = true ∧
      (formatted 1).hold [⟨4, (formatted 1).hart.sew⟩] (some ⟨4, (formatted 1).hart.sew⟩) = none) := by
  decide +kernel

theorem witness_ConvertResults :
    (Fmt.ofCode (1 : BitVec 4).toNat = some .f32 ∧ decide (ready.hart.vl.toNat ≤ ready.hart.mvl Fmt.f32.sew) = true ∧
      ready.hold [⟨4, Fmt.f32.sew⟩] (some ⟨5, ready.hart.sew⟩) = none ∧
      ready.hart.cutInside true [⟨4, Fmt.f32.sew⟩] (ready.hart.getM 0) = none) ∧
    (let s := withHart { runner 1 with vt := 0x14, vl := 32 };
      s.quantFmt = true ∧ s.hold [⟨4, 8⟩, ⟨4 + 1, 32⟩] (some ⟨6, 32⟩) = none ∧
      s.hold [⟨4, 32⟩] (some ⟨46, 8⟩) = none ∧ (46 : BitVec 6).toNat < 47 ∧ s.hart.isEmpty (46 + 1) = false ∧
      s.hart.vl.toNat % s.hart.blk = 0 ∧ s.hart.cutInside true [⟨4, 8⟩] (s.hart.getM 0) = none ∧
      s.hart.cutInside true [⟨4, 32⟩] (s.hart.getM 0) = none ∧
      ∀ e ∈ s.hart.activeFrom (s.hart.getM 0), s.hart.badIn ⟨4 + 1, 32⟩ 0 (e / s.hart.blk) = none) := by
  decide +kernel

/-- A copy from stream q0 to memory, of 6 elements of i32, with 4 pushed. -/
def outward : Copy := ⟨1, 8, 0, 4, 0, 0x20000, 6, 0, 15, 0, [(0x20, 0x20)], [0x800], 0, 4, 0, 0, [1, 2, 3, 4], [], [], 0, 0⟩

/-- A hart that holds it under handle 3. -/
def streaming : State := withHart { runner 1 with
  q := (Vector.replicate 8 none).set 0 (some 3), copy := (Vector.replicate 32 none).set 3 (some outward)
  h := (Vector.replicate 32 .free).set 3 .filling, cnt := ⟨0, 0, 1, 0⟩ }

theorem witness_StreamDestinations :
    accepts false streaming.hart = true ∧
    streaming.hold [⟨3, streaming.hart.sew⟩, ⟨4, streaming.hart.sew⟩] (some ⟨48, streaming.hart.sew⟩) = none ∧
    isStream 48 = true ∧ streaming.hart.bound 48 = some 3 ∧ streaming.hart.copyOf 3 = some outward ∧
    streaming.hart.firstBad [⟨3, streaming.hart.sew⟩, ⟨4, streaming.hart.sew⟩] (streaming.hart.getM 0) = none := by
  decide +kernel

theorem witness_StreamDestinations_loads : Canonical streaming ∧ streaming.hart.region = none ∧ streaming.full .ld = false ∧
    streaming.hold [] (some ⟨48, streaming.hart.sew⟩) = none ∧ streaming.hart.firstBad [] (streaming.hart.getM 0) = none ∧
    streaming.hart.bound 48 = some 3 ∧ streaming.hart.copyOf 3 = some outward ∧ streaming.gatherDead = false ∧
    ∀ e ∈ streaming.hart.activeFrom (streaming.hart.getM 0),
      streaming.checkElement false .load (unitAddress streaming 10 e) streaming.hart.fmt.esz = .ok (piece (0x10000 + 4 * e) 4) :=
  ⟨canonical_withHart _, by decide +kernel⟩

/-- Four elements of i32 are pushed behind the four that stand there, as far as the copy has room. -/
theorem test_stream_load_pushes : after (exec (.vld 0 0 10 48) streaming) fun t =>
    decide ((t.hart.copyOf 3).map (fun c => (c.pos, c.data)) = some (6, [1, 2, 3, 4, 0, 0])) := by
  decide +kernel

/-- A copy of memory to stream q0 that has 8 elements of f32 ready, of 64. -/
def arriving : Copy := ⟨0, 1, 0, 0, 0x20000, 0, 64, 4, 2, 0, [(0x20, 0x20)], [], 32, 24, 0, 0, List.replicate 8 0x3F800000, [], [], 0, 7⟩

/-- A vquant of a stream that has stopped at element 24 of the first block of 32 goes on there. -/
theorem witness_ConvertResults_stream : let s := withHart { runner 1 with
      vt := 0x14, vl := 32, vstart := 24, q := (Vector.replicate 8 none).set 0 (some 3)
      copy := (Vector.replicate 32 none).set 3 (some arriving), h := (Vector.replicate 32 .free).set 3 .full }
    s.quantFmt = true ∧ s.hold [⟨48, 32⟩] (some ⟨6, 8⟩) = none ∧ s.hart.isEmpty (6 + 1) = false ∧ s.hart.vl.toNat % s.hart.blk = 0 ∧
    s.hart.cutInside true [⟨48, 32⟩] (s.hart.getM 0) = none ∧
    (isStream 48 && decide (s.hart.blk * (s.hart.vstart.toNat / s.hart.blk) < s.hart.vstart.toNat)) = true ∧
    RegSlot.v (6 + 1) (s.hart.vstart.toNat / s.hart.blk / 2) ∉ s.hart.parity := by
  decide +kernel

/-- A fence.c of class 2 before it holds back what follows until the copy has read the rest of its source. -/
theorem test_fence_gates : let s := withHart { runner 1 with
      copy := (Vector.replicate 32 none).set 3 (some arriving), h := (Vector.replicate 32 .free).set 3 .full }
    s.hart.region = none ∧ s.tilesPending = false ∧ s.accessesPending (classRange 2 2) = false ∧
    after (exec (.fenceC 0 2 2 5 5) s) (fun t => decide (t.hart.gates = [(7, BitVec.ofNat 16 (2 ^ 5 + 2 ^ 15))]) &&
      t.hart.fencedOff (.ldd 0 5 10 6) && !t.hart.fencedOff (.ldd 0 4 10 6)) = true := by
  decide +kernel

theorem witness_FormatTraps : accepts true ready.hart = false ∧ accepts false (formatted 1).hart = false ∧
    ¬ (ready.hart.fmt ∈ [Fmt.e4m3, .e5m2] ∧ ready.hart.blk ≠ 0 ∧ ready.hart.vl.toNat ≤ ready.hart.mvl 32) ∧
    ¬ ((formatted 4).hart.fmt ∈ [Fmt.e4m3, .e5m2] ∧ (formatted 4).hart.blk ≠ 0 ∧ (formatted 4).hart.vl.toNat ≤ (formatted 4).hart.mvl 32) ∧
    Fmt.ofCode (0 : BitVec 4).toNat = some .f64 ∧ { runner 1 with vl := 129 }.mvl Fmt.f64.sew < { runner 1 with vl := 129 }.vl.toNat := by
  decide +kernel

/-- s10 = 0x3FFFFFF8: elements 0 and 1 of a unit-stride access are the last that are mapped. -/
def atEdge : State := withHart { runner 1 with s := (Vector.replicate 32 0).set 10 0x3FFFFFF8 }

theorem witness_VectorLoads : Canonical ready ∧
    (ready.hart.region = none ∧ ready.full .ld = false ∧ ready.hold [] (some ⟨47, ready.hart.sew⟩) = none ∧
      ready.hold [⟨4, ready.hart.sew⟩] (some ⟨0, ready.hart.sew⟩) = none ∧ isStream 47 = false ∧
      ready.hart.cutInside true [] (ready.hart.getM 0) = none ∧
      ready.hart.cutInside true [⟨4, ready.hart.sew⟩] (ready.hart.getM 0) = none ∧ ready.gatherDead = false) ∧
    (∀ e ∈ ready.hart.activeFrom (ready.hart.getM 0), ready.checkElement false .load (unitAddress ready 10 e) ready.hart.fmt.esz =
      .ok (piece (0x10000 + 4 * e) 4)) ∧
    (∀ e ∈ ready.hart.activeFrom (ready.hart.getM 0), ready.checkElement false .load (strideAddress ready 10 11 e) ready.hart.fmt.esz =
      .ok (piece (0x10000 + 8 * e) 4)) ∧
    (∀ e ∈ ready.hart.activeFrom (ready.hart.getM 0),
      ready.checkElement false .load (indexAddress ready 10 [⟨4, ready.hart.sew⟩] 0 e) ready.hart.fmt.esz = .ok (piece 0x10000 4)) ∧
    (∀ e ∈ (based 0).hart.activeFrom ((based 0).hart.getM 0),
      (based 0).checkElement true .load (unitAddress (based 0) 14 e) (based 0).hart.fmt.esz = .ok (localPiece (4 * e) 4)) :=
  ⟨canonical_withHart _, by decide +kernel⟩

/-- A machine whose gather engine, of the hart's core, is dead. -/
def deadGather : State := { ready with pkg := { Pkg.reset with dead := [.gatherEngine 0 0] } }

theorem witness_VectorLoads_dead : Canonical deadGather ∧ deadGather.gatherDead = true :=
  ⟨canonical_pkg _ _ rfl rfl rfl, by decide +kernel⟩

/-- The clause on vldff: element 2 fails, after element 0 was loaded. -/
theorem witness_VectorLoads_fault_first : Canonical atEdge ∧
    (atEdge.hart.region = none ∧ atEdge.full .ld = false ∧ atEdge.hold [] (some ⟨47, atEdge.hart.sew⟩) = none ∧
      isStream 47 = false ∧ atEdge.hart.breakInside (atEdge.hart.activeCount (atEdge.hart.getM 0)) = none) ∧
    (2 ∈ atEdge.hart.activeFrom (atEdge.hart.getM 0) ∧ 0 ∈ atEdge.hart.activeFrom (atEdge.hart.getM 0) ∧ 0 < 2) ∧
    (∀ e ∈ (atEdge.hart.activeFrom (atEdge.hart.getM 0)).filter fun e => decide (e < 2),
      atEdge.checkElement false .load (unitAddress atEdge 10 e) atEdge.hart.fmt.esz = .ok (piece (0x3FFFFFF8 + 4 * e) 4)) ∧
    atEdge.checkElement false .load (unitAddress atEdge 10 2) atEdge.hart.fmt.esz = .error (.trap 5 0 0x40000000) ∧
    atEdge.hart.blk = 0 :=
  ⟨canonical_withHart _, by decide +kernel⟩

theorem witness_VectorStores : Canonical ready ∧
    (ready.hart.region = none ∧ ready.full .st = false ∧ ready.hold [⟨3, ready.hart.sew⟩] none = none ∧
      ready.hold [⟨3, ready.hart.sew⟩, ⟨4, ready.hart.sew⟩] none = none ∧
      ready.hart.cutInside true [⟨3, ready.hart.sew⟩] (ready.hart.getM 0) = none ∧
      ready.hart.cutInside true [⟨3, ready.hart.sew⟩, ⟨4, ready.hart.sew⟩] (ready.hart.getM 0) = none ∧
      ready.gatherDead = false ∧ deadGather.gatherDead = true) ∧
    (∀ e ∈ ready.hart.activeFrom (ready.hart.getM 0), ready.checkElement false .store (unitAddress ready 10 e) ready.hart.fmt.esz =
      .ok (piece (0x10000 + 4 * e) 4)) ∧
    (∀ e ∈ ready.hart.activeFrom (ready.hart.getM 0), ready.checkElement false .store (strideAddress ready 10 0 e) ready.hart.fmt.esz =
      .ok (piece 0x10000 4)) ∧
    (∀ e ∈ (based 0).hart.activeFrom ((based 0).hart.getM 0),
      (based 0).checkElement true .store
        (indexAddress (based 0) 14 [⟨3, (based 0).hart.sew⟩, ⟨4, (based 0).hart.sew⟩] 1 e) (based 0).hart.fmt.esz = .ok (localPiece 0 4)) :=
  ⟨canonical_withHart _, by decide +kernel⟩

theorem witness_PairForms : Canonical (based 0) ∧ (based 0).hart.region = none ∧ (46 : BitVec 6).toNat < 47 ∧
    (based 0).hart.breakInside ((based 0).hart.activeCount ((based 0).hart.getM 0)) = none ∧
    ((based 0).full .ld = false ∧ (based 0).hold [] (some ⟨46, (based 0).hart.sew⟩) = none ∧
      (based 0).hold [] (some ⟨46 + 1, (based 0).hart.sew⟩) = none) ∧
    (∀ c ∈ (based 0).hart.activeChunks ((based 0).hart.getM 0),
      (based 0).checkElement true .load (strideAddress (based 0) 14 15 c) 16 = .ok (localPiece (16 * c) 16)) ∧
    ((based 0).full .st = false ∧ (based 0).hold [⟨46, (based 0).hart.sew⟩, ⟨46 + 1, (based 0).hart.sew⟩] none = none ∧
      (based 0).hart.firstBad [⟨46, (based 0).hart.sew⟩, ⟨46 + 1, (based 0).hart.sew⟩] ((based 0).hart.getM 0) = none) ∧
    (∀ c ∈ (based 0).hart.activeChunks ((based 0).hart.getM 0),
      (based 0).checkElement true .store (strideAddress (based 0) 14 15 c) 16 =
        .ok [⟨strideAddress (based 0) 14 15 c, .store (16 * c), 16, 0⟩]) :=
  ⟨canonical_withHart _, by decide +kernel⟩

theorem witness_AtomicScatters : Canonical ready ∧ ready.hart.region = none ∧
    (ready.hart.fmt = .i32 ∧ (formatted 1).hart.region = none ∧ (formatted 1).hart.fmt = .f32 ∧ (formatted 4).hart.fmt = .e4m3) ∧
    (ready.full .st = false ∧ ready.hold [⟨4, ready.hart.sew⟩, ⟨3, ready.hart.sew⟩] none = none ∧
      ready.hart.cutInside true [⟨4, ready.hart.sew⟩, ⟨3, ready.hart.sew⟩] (ready.hart.getM 0) = none) ∧
    (∀ e ∈ ready.hart.activeFrom (ready.hart.getM 0),
      ready.checkElement false .update (indexAddress ready 10 [⟨4, ready.hart.sew⟩, ⟨3, ready.hart.sew⟩] 1 e) ready.hart.fmt.esz =
        .ok (piece 0x10000 4)) :=
  ⟨canonical_withHart _, by decide +kernel⟩

/-- The only contribution of the state below, and the token that closes its window. -/
def contribution : OruMsg :=
  ⟨7, 3, [0], 1, 5, 8, 0x400, [⟨1, 0x10000, 9, 8, ⟨0, 0, 0, false⟩, 0x2000, 0, 0x10000, 0⟩], none, ⟨0, 0, 0, false⟩, 0, none, true⟩
def token : OruMsg := ⟨8, 3, [0, 1], 1, 5, 8, 0, [], some 2, ⟨0, 0, 0, false⟩, 0, none, true⟩

/-- A window of context 1 at slice 1 that one token of two has reached. -/
def half : Window := ⟨1, 1, 5, some 2, 1,
  [⟨7, 0x10000, 9, 8, ⟨0, 0, 0, false⟩, 0x2000, 0, 0x10000, 0⟩, ⟨4, 0x10000, 5, 8, ⟨0, 0, 0, false⟩, 0x2000, 0, 0x10000, 0⟩]⟩

/-- A window at slice 0 with the entries of sixteen issuers for one line, and a second contribution that waits. -/
def crowded : Window := ⟨0, 1, 5, none, 0,
  (List.range 16).map fun k => ⟨k + 2, 0x10000, 9, 8, ⟨0, 0, 0, false⟩, 0x2000, 0, 0x10000, 0⟩⟩
def waiting : OruMsg := { contribution with id := 9, op := 4, waited := some 2 }

theorem witness_OrderedScatters : Canonical ready ∧ ready.hart.region = none ∧ Canonical (based 0x20001) ∧
    bits (ready.rs (10 + 1)).toNat 31 16 ≤ bits (ready.rs (10 + 1)).toNat 15 0 ∧
    ((based 0x20001).hart.region = none ∧ (based 0x20001).hart.fmt = .i32 ∧
      bits ((based 0x20001).rs (12 + 1)).toNat 15 0 < bits ((based 0x20001).rs (12 + 1)).toNat 31 16 ∧
      (based 0x20001).full .st = false ∧
      (based 0x20001).hold [⟨4, (based 0x20001).hart.sew⟩, ⟨3, (based 0x20001).hart.sew⟩] none = none ∧
      (based 0x20001).hart.firstBad [⟨4, (based 0x20001).hart.sew⟩, ⟨3, (based 0x20001).hart.sew⟩]
        ((based 0x20001).hart.getM 0) = none) ∧
    (∀ e ∈ (based 0x20001).hart.activeFrom ((based 0x20001).hart.getM 0),
      (based 0x20001).checkElement false .contribute
        (indexAddress (based 0x20001) 12 [⟨4, (based 0x20001).hart.sew⟩, ⟨3, (based 0x20001).hart.sew⟩] 1 e)
        (based 0x20001).hart.fmt.esz = .ok [⟨0x10000, .mem 0x10000, 4, 0⟩]) ∧
    (let s := { ready with oruIn := [contribution] };
      s.oruIn.find? (fun x => decide (x.id = 7)) = some contribution ∧ contribution.token = none ∧
      s.engineOwned contribution.line = false ∧ s.flipping (64 * contribution.line) = false ∧
      contribution.overflows (s.windowOf contribution contribution.slice) = false ∧
      (s.windowOf contribution contribution.slice).bind (·.parts) = none) ∧
    (let s := { ready with oruIn := [token], windows := [half] };
      s.oruIn.find? (fun x => decide (x.id = 8)) = some token ∧ token.token.isSome = true ∧ s.tokenBehind token = [] ∧
      token.slices.Nodup ∧ 1 ∈ token.slices ∧ s.windowOf token 1 = some half ∧ half.parts = some (half.tokens + 1) ∧
      half.contribs.reverse.Perm (half.contribs.filter fun c => decide (c.addr = 0x10000)) ∧ (∀ c ∈ half.contribs, c.fmt = 8) ∧
      half.contribs.reverse.Pairwise (fun c e => c.issuer < e.issuer) ∧ s.windowOf token 0 = none) ∧
    (let s := { ready with oruIn := [token, { contribution with slices := [0] }] }; s.tokenBehind token = [0]) ∧
    (let s := { ready with oruIn := [contribution, waiting], windows := [crowded] };
      contribution.overflows (s.windowOf contribution 0) = true ∧ s.waitsBehind contribution = true ∧
      Sparse.wf (fun _ => 0) (s.ctx contribution.ctx).ctr = true) ∧
    (let s := { ready with oruIn := [contribution], windows := [crowded] };
      contribution.overflows (s.windowOf contribution 0) = true ∧ s.overflowUsed 0 < 2048 ∧ s.waitsBehind contribution = false) :=
  ⟨canonical_withHart _, rfl, canonical_withHart _, by decide +kernel⟩

/-- R148: the close adds the contributions of issuers 4 and 7 to what memory holds. -/
theorem test_close_sums : after (exec (.oruAccept 8) { ready with oruIn := [token], windows := [half] })
    (fun t => decide (t.mem.read 0x10000 4 = 14) && decide (t.windows.map (·.slice) = [0]) && t.oruIn.isEmpty) = true := by
  decide +kernel

/-- A vector access that is stopped at its third element. -/
theorem witness_AccessTraps_elements : atEdge.hart.region = none ∧ atEdge.full .ld = false ∧ atEdge.full .st = false ∧
    atEdge.hold [] (some ⟨47, atEdge.hart.sew⟩) = none ∧ atEdge.hold [⟨3, atEdge.hart.sew⟩] none = none ∧
    atEdge.hart.cutInside true [] (atEdge.hart.getM 0) = none ∧
    atEdge.hart.cutInside true [⟨3, atEdge.hart.sew⟩] (atEdge.hart.getM 0) = none ∧ 2 ∈ atEdge.hart.activeFrom (atEdge.hart.getM 0) ∧
    (∀ e ∈ (atEdge.hart.activeFrom (atEdge.hart.getM 0)).filter fun e => decide (e < 2),
      atEdge.checkElement false .store (unitAddress atEdge 10 e) atEdge.hart.fmt.esz = .ok (piece (0x3FFFFFF8 + 4 * e) 4)) ∧
    atEdge.checkElement false .store (unitAddress atEdge 10 2) atEdge.hart.fmt.esz = .error (.trap 5 0 0x40000000) ∧
    atEdge.checkElement false .load (unitAddress atEdge 10 2) atEdge.hart.fmt.esz = .error (.trap 5 0 0x40000000) := by
  decide +kernel

/-- R136: the store below the element that faults is performed, and the trap names the element. -/
theorem test_store_stops : after (exec (.vst 0 0 10 3) { atEdge with hart := atEdge.hart.setV 3 0x100000002 })
    (fun t => decide (t.mem.read 0x3FFFFFF8 8 = 0x100000002) && decide (t.hart.trap.elem = 2) &&
      decide (t.hart.trap.addr = 0x40000000) && decide (t.hart.cnt.st = 0)) = true := by
  decide +kernel
/-- Two descriptors: at 0x10000 a copy of two i32 from 0x20000 to 0x30000, at 0x10020 one of kind 7. -/
def descriptors : Memory :=
  ((((pages.write 0x10000 8 0x400000082).write 0x10008 8 0x20000).write 0x10010 8 0x30000).write 0x10018 8 0x400000002).write
    0x10020 8 7

/-- A hart that may issue them: s10 and s11 hold their addresses, s12 is misaligned. -/
def copying : State := { withHart { runner 1 with
  s := (((Vector.replicate 32 0).set 10 0x10000).set 11 0x10020).set 12 0x10010 } with mem := descriptors }

/-- The descriptor that a register names. -/
def described (s : State) (a : BitVec 5) : Nat := s.peek (piece (s.rs a).toNat 32)
def copyAt (s : State) (a : BitVec 5) : Copy :=
  let x := described s a
  Copy.ofWords (bits x 63 0) (bits x 127 64) (bits x 191 128) (bits x 255 192) 15

theorem witness_CopyIssues : Canonical copying ∧ copying.hart.region = none ∧
    (copying.rs 12).toNat % 32 ≠ 0 ∧
    ((copying.rs 10).toNat % 32 = 0 ∧ copying.pieces copying.hart false .load (copying.rs 10).toNat 32 = .ok (piece 0x10000 32) ∧
      (copyAt copying 10).valid (bits (described copying 10) 63 0) = true ∧ copying.hart.h.get (31 : BitVec 5).toFin = .free ∧
      copying.translateAll copying.hart .load (copyAt copying 10).sources = .ok [(0x20000, 0x20000), (0x20004, 0x20004)] ∧
      copying.translateAll copying.hart .store (copyAt copying 10).destinations = .ok [(0x30000, 0x30000), (0x30004, 0x30004)] ∧
      (∀ r ∈ [(0x30000, 0x30000), (0x30004, 0x30004)], copying.owned (r.2 / 64) = false ∧ copying.flipping (64 * (r.2 / 64)) = false) ∧
      (copyAt copying 10).kind = 2 ∧ copying.full .cp = false ∧ (copyAt copying 10).n ≠ 0 ∧ copying.copyEngineDead = false ∧
      { copying with pkg := { Pkg.reset with dead := [.copyEngine 0 0] } }.copyEngineDead = true) ∧
    (copying.pieces copying.hart false .load (copying.rs 11).toNat 32 = .ok (piece 0x10020 32) ∧
      (copyAt copying 11).valid (bits (described copying 11) 63 0) = false) ∧
    (streaming.pieces streaming.hart false .load (streaming.rs 0).toNat 32 = .ok (piece 0 32) ∧
      streaming.hart.h.get (3 : BitVec 5).toFin ≠ .free ∧ (copyAt streaming 0).kind = 0 ∧
      streaming.hart.q.get (0 : BitVec 3).toFin ≠ none) :=
  ⟨canonical_mem _ _ (by decide +kernel), by decide +kernel⟩

/-- A handle lost to a dead engine. -/
def bereft : State := withHart { runner 1 with lost := [3] }

theorem witness_HandleForms :
    (streaming.hart.region = none ∧ streaming.hart.streamInUse 3 = true ∧ streaming.hart.q.get (0 : BitVec 3).toFin = some 3 ∧
      streaming.hart.q.get (7 : BitVec 3).toFin = none) ∧
    (ready.hart.region = none ∧ ready.hart.streamInUse 31 = false ∧ ready.hart.lost.elem (31 : BitVec 5).toNat = false ∧
      ready.hart.h.get (31 : BitVec 5).toFin ≠ .filling ∧ ready.hart.h.get (31 : BitVec 5).toFin = .free ∧
      ready.hart.copyOf 31 = none) ∧
    (streaming.hart.lost.elem (3 : BitVec 5).toNat = false ∧ streaming.hart.h.get (3 : BitVec 5).toFin = .filling ∧
      streaming.hart.h.get (3 : BitVec 5).toFin ≠ .free ∧ streaming.hart.copyOf 3 = some outward) ∧
    (bereft.hart.region = none ∧ bereft.hart.lost.elem (3 : BitVec 5).toNat = true) ∧
    (streaming.hart.q.get (0 : BitVec 3).toFin = some 3 ∧ (3 : BitVec 5) ≠ 4) := by
  decide +kernel

/-- A copy between memories, and one of memory to a stream, with nothing read yet. -/
def through : Copy := ⟨2, 8, 0, 4, 0x20000, 0x30000, 2, 4, 15, 0, [(0x20, 0x20), (0x30, 0x30)], [0xC00], 0, 0, 0, 0, [], [], [], 0, 0⟩
def inward : Copy := ⟨0, 8, 0, 0, 0x20000, 0, 6, 4, 15, 0, [(0x20, 0x20)], [], 0, 0, 0, 0, [], [], [], 0, 0⟩

/-- A machine whose hart holds a copy under handle 31. -/
def holding (c : Copy) (state : HandleState) : State := withHart { runner 1 with
  copy := (Vector.replicate 32 none).set 31 (some c), h := (Vector.replicate 32 .free).set 31 state, cnt := ⟨0, 0, 1, 0⟩ }

theorem witness_CopySteps : (∀ c state, Canonical (holding c state)) ∧
    (let s := holding through .filling;
      s.find s.hart.id = some s.hart ∧ s.hart.copyOf 31 = some through ∧ through.kind = 2 ∧
      s.hart.h.get (31 : BitVec 5).toFin = .filling ∧
      (through.sourceLines 0 through.n.toNat).any (s.blocksRead through.order) = false) ∧
    (let s := holding inward .filling;
      s.find s.hart.id = some s.hart ∧ s.hart.copyOf 31 = some inward ∧ inward.kind = 0 ∧
      min (s.hart.mvl inward.sew) (inward.n.toNat - inward.got) = 6 ∧
      inward.data.length + 6 ≤ 4 * s.hart.mvl inward.sew ∧ (inward.sourceLines inward.got 6).any (s.blocksRead inward.order) = false ∧
      inward.got + 6 = inward.n.toNat) ∧
    (let s := holding { outward with got := 0 } .filling;
      s.find s.hart.id = some s.hart ∧ s.hart.copyOf 31 = some { outward with got := 0 } ∧ outward.kind = 1 ∧ 0 < outward.pos) ∧
    (let s := holding { through with got := 2, data := [1, 2] } .draining;
      s.find s.hart.id = some s.hart ∧ s.hart.copyOf 31 = some { through with got := 2, data := [1, 2] } ∧
      s.hart.h.get (31 : BitVec 5).toFin = .draining) ∧
    (0 ∈ [0] ∧ 0xC00 ∈ Copy.poisonLines { through with got := 2, data := [1, 2], poisoned := [0] }) :=
  ⟨fun _ _ => canonical_withHart _, by decide +kernel⟩

/-- Two harts of cores 0 and 1, group 3 granted to context 1; s11 names core 1 and register 1, s12 group 3 and one member. -/
def pair : State :=
  let h := { runner 1 with s := ((Vector.replicate 32 0).set 11 0x10001).set 12 0x10003 }
  { withHart h with parked := [{ h with id := ⟨0, 1, 0, false⟩ }], pkg := { Pkg.reset with coll := [(3, 1#1 ++ (1 : BitVec 12))] } }

/-- A push that hart 0 waits for, and a call that it alone makes. -/
def sent : Push := ⟨4, ⟨0, 0, 0, false⟩, ⟨0, 1, 0, false⟩, (0, 0, 0), 8, 4, [(47, 0x77)]⟩
def call : XredCall := ⟨5, 3, 1, true, [⟨⟨0, 0, 0, false⟩, 0, 1, 4, 8, 47, 1, [[1, 2, 3, 4]], [], 0, false⟩], none⟩
def resumed : XredCall := { call with members := call.members ++ [⟨⟨0, 2, 0, false⟩, 1, 1, 4, 8, 47, 2, [[1, 2, 3, 4]], [], 0, true⟩] }
def delivering : State := { pair with hart := { pair.hart with pushing := some 4, cnt := ⟨0, 0, 1, 0⟩ }, pushes := [sent] }
def calling : State := { pair with hart := { pair.hart with xredCall := some 5, cnt := ⟨0, 0, 1, 0⟩ }, xred := [call] }

theorem witness_Collectives :
    (pair.hart.region = none ∧ pair.hart.emptyRun (0 : BitVec 6).toNat (47 : BitVec 6).toNat = false ∧
      pair.accessesPending (2 ^ (15 : BitVec 4).toNat) = false ∧ pair.full .cp = false ∧
      pair.pkg.dead.elem .collectiveEngine = false ∧ pair.hart.pushing = none ∧
      pair.find (pushReceiver pair.hart.id (pair.rs 11).toNat) = some { pair.hart with id := ⟨0, 1, 0, false⟩ } ∧
      pair.hart.active = true ∧ pushReceiver pair.hart.id (pair.rs 11).toNat ≠ pair.hart.id ∧
      (pushReceiver pair.hart.id (pair.rs 11).toNat).hart < 2 ^ pair.hart.split.toNat ∧ bits (pair.rs 11).toNat 7 0 < 144 ∧
      bits (pair.rs 11).toNat 21 16 + (47 : BitVec 6).toNat ≤ 48 ∧ pair.hart.parity = []) ∧
    (pair.hart.xredCall = none ∧ xredTakes pair.hart.fmt = true ∧
      pair.groupGranted (bits (pair.rs 12).toNat 15 0) pair.hart.ctx = true) ∧
    (delivering.pushes.find? (fun q => decide (q.id = sent.id)) = some sent ∧ sent.data = (47, 0x77) :: [] ∧
      delivering.find sent.sender = some delivering.hart ∧ delivering.hart.pushing = some sent.id ∧
      (delivering.find sent.receiver).map (fun r => (r.active, r.qcb, r.job, r.bundle)) = some (true, sent.bundle) ∧
      sent.sender ≠ sent.receiver ∧ 47 < 48) ∧
    (calling.xred.find? (fun x => decide (x.id = call.id)) = some call ∧ call.agrees [] = true ∧ call.outcome = none ∧
      (∀ k ∈ call.members, k.away = false ∧ (calling.find k.who).bind (·.xredCall) = some call.id) ∧ (call.members.map (·.who)).Nodup ∧
      calling.find ⟨0, 0, 0, false⟩ = some calling.hart ∧ call.ordered = true ∧ (∀ k ∈ call.members, k.rnd = 0) ∧ 4 = calling.hart.g ∧ 47 + 1 ≤ 48) := by
  decide +kernel

/-- A hart whose call was lost with the engine, and a call that a pre-empted member keeps open. -/
theorem witness_Collectives_lost : (let s := { ready with hart := { ready.hart with lost := [33], xredCall := some 5 } };
      s.hart.region = none ∧ s.hart.lost.elem 33 = true) ∧
    (resumed.members.any (·.away) = true ∧ ((resumed.members.filter fun k => !k.away).map (·.who)).Nodup) ∧
    after (exec (.xredF 0 12 1 47) { ready with hart := { ready.hart with lost := [33], xredCall := some 5, cnt := ⟨0, 0, 1, 0⟩ } })
      (fun t => decide (bits t.hart.trap.cause.toNat 15 0 = 0x408) && t.hart.xredCall.isNone && decide (t.hart.cnt.cp = 0)) = true := by
  decide +kernel

/-- A hart before a QCB with control word cw at 0x10000 and a record at 0x20000; s12 is aligned for neither. -/
def launching (cw : Nat) : State := { withHart { runner 1 with
  s := (((Vector.replicate 32 0).set 10 0x10000).set 11 0x20000).set 12 0x10040 } with mem := pages.write 0x10000 8 cw }

theorem witness_LaunchAppends : Canonical (launching 0x10001) ∧ Canonical (launching 0) ∧
    (launching 0x10001).hart.region = none ∧ ((launching 0x10001).rs 12).toNat % 512 ≠ 0 ∧
    ((launching 0x10001).rs 12).toNat % 128 ≠ 0 ∧
    (launching 0x10001).tailBusy 1 (BitVec.ofNat 64 0x10000) = false ∧ (launching 0x10001).pkg.late = [] ∧
    (∀ cw ∈ [0x10001, 0], let s := launching cw;
      (s.rs 10).toNat % 512 = 0 ∧ (s.rs 11).toNat % 128 = 0 ∧
      s.place s.hart false .store (s.rs 10).toNat 256 = .ok (.mem 0x10000) ∧
      s.place s.hart false .store (s.rs 11).toNat 128 = .ok (.mem 0x20000) ∧ s.qcbBusy (BitVec.ofNat 64 0x10000) = false ∧
      s.poisoned 0x10000 = false ∧ s.poisoned 0x10040 = false ∧ s.poisoned 0x20000 = false ∧
      { s with pkg := { s.pkg with poison := [0x400] } }.poisoned 0x10000 = true ∧
      s.owned (0x20000 / 64) = false ∧ s.owned (0x20000 / 64 + 1) = false ∧ s.tilesPending = false ∧
      s.accessesPending (bits (s.rs 0).toNat 15 0) = false ∧
      (let u := s.noteWalks [0x10000, 0x20000];
        u.qword (BitVec.ofNat 64 0x10000) 0 = cw ∧ u.qword (BitVec.ofNat 64 0x10000) 8 = 0)) ∧
    (openWord 0x10001 = true ∧ tenantOf (launching 0x10001).hart.ctx = tenantOf (ctxOfWord 0x10001)) ∧ openWord 0 = false :=
  ⟨canonical_mem _ _ (by decide +kernel), canonical_mem _ _ (by decide +kernel), by decide +kernel⟩

/-- A tensor of one tile, 16 elements of i32 at 0x100000. -/
def row16 : Tensor := ⟨0x100000, 8, 0, 4, 0, 0, 1, 16⟩

/-- `based` in a context that has registered it under id 1. -/
def tensored : State := { based 0 with
  hart := { (based 0).hart with s := ((based 0).hart.s.set 16 1).set 17 0x20 }
  ctxs := [(1, { mapped with tensors := [(1, row16)] })] }

theorem canonical_tensored : Canonical tensored :=
  let h := canonical_withHart (based 0).hart
  ⟨h.1, h.2.1, h.2.2.1, h.2.2.2.1, h.2.2.2.2.1, h.2.2.2.2.2.1, h.2.2.2.2.2.2.1, h.2.2.2.2.2.2.2.1, (by decide +kernel),
    h.2.2.2.2.2.2.2.2.2⟩

theorem witness_TensorForms : Canonical tensored ∧
    (tensored.hart.region = none ∧ (tensored.rs 12).toNat % 32 = 0 ∧
      tensored.pieces tensored.hart false .load (tensored.rs 12).toNat 32 = .ok (piece 0x10000 32) ∧ tensored.full .ld = false ∧
      tensored.full .st = false) ∧
    ((tensored.ctx tensored.hart.ctx).tensor (BitVec.ofNat 6 (tensored.rs 17).toNat) = none ∧
      (tensored.ctx tensored.hart.ctx).tensor (BitVec.ofNat 6 (tensored.rs 16).toNat) = some row16 ∧
      (tensored.rs 0).toNat.testBit 48 = false ∧ Sparse.wf (fun _ => 0) (tensored.ctx tensored.hart.ctx).ctr = true) ∧
    (row16.inRange 0 0 = true ∧ row16.inRange (bits (tensored.rs 16).toNat 23 0) 0 = false ∧
      (coordTiles (tensored.rs 0).toNat) = [(0, 0)] ∧ row16.tileMaps 0 0 (tensored.translates 1) = true ∧
      tensored.atHost (0x100000 / 64) = false ∧
      tensored.pkg.tileCache.length + (row16.lineAddrs 0 0).length ≤ tileLinesPerDie ∧
      0x100000 ∈ row16.lineAddrs 0 0 ∧ tensored.walkIn 1 0x100000 = .page 0x100000 7) := ⟨canonical_tensored, by decide +kernel⟩

/-- The clause on thalo, into the whole of a window's first 64 bytes. -/
theorem witness_TensorForms_halo :
    tensored.hart.id.control = false ∧ (tensored.rs 14).toNat % 8 = 0 ∧ bits (tensored.rs 0).toNat 55 48 ≤ 64 ∧
    (row16.t0 + 2 * 0) * (row16.t1 + 2 * 0) * row16.esz = 64 ∧
    (∀ x ∈ haloCells row16 0 0 0, ∀ a ∈ x.src.toList, tensored.pieces tensored.hart false .load a row16.esz = .ok (piece a 4)) ∧
    (∀ j, j < 64 → inWindow ((tensored.rs 14).toNat + j) = true ∧
      tensored.ownPart tensored.hart ((tensored.rs 14).toNat + j - windowBase) = true) ∧
    rangesMeet row16.base.toNat row16.size windowBase (2 ^ 18) = false ∧ tensored.full .ld = false := by
  decide +kernel

/-- A region of some kind, begun at 0x2000 with sd = s5. -/
def region (strict : Bool) (asked : Option (BitVec 5)) : Region :=
  ⟨strict, false, false, 0x2000, 5, [⟨0x400, 0x10000, true, false, false⟩], [(0x10000, some 7)], blank, [], 0, asked, none, [], []⟩

/-- A machine whose hart is in it, with bounds lo and hi. -/
def within (r : Region) (lo hi : BitVec 40) : State := withHart { runner 1 with region := some r, ebLo := lo, ebHi := hi }

theorem witness_RegionForms :
    (Canonical ready ∧ Canonical inside) ∧
    (ready.hart.region = none ∧ ready.arb.renewing = false ∧ ready.accessesPending 0xFFFF = false ∧ ready.hart.aborts < 4 ∧
      ready.pinnedAt = none) ∧
    (let s := withHart { runner 1 with aborts := 4 };
      s.hart.region = none ∧ 4 ≤ s.hart.aborts ∧ s.hart.active = true ∧ s.hart.ending = false ∧ s.arb.renewing = false ∧
      s.arb.beginQueue = [] ∧ s.pinnedAt = none ∧ s.accessesPending 0xFFFF = false ∧
      { s.arb with beginQueue := [⟨0, 1, 0, false⟩] }.beginQueue.head? = some ⟨0, 1, 0, false⟩ ∧ ⟨0, 1, 0, false⟩ ≠ s.hart.id) ∧
    (let s := within (region false none) 0 8;
      s.hart.region = some (region false none) ∧ (region false none).asked = none ∧ s.accessesPending 0xFFFF = false ∧
      (region false none).strict = false ∧ (region false none).pinned = false ∧
      -- xbnd of s0 to s11, which narrows [0, 8] to itself
      (if s.hart.ebLo < (s.rs 0).setWidth 40 then (s.rs 0).setWidth 40 else s.hart.ebLo) ≤
        (if (s.rs 11).setWidth 40 < s.hart.ebHi then (s.rs 11).setWidth 40 else s.hart.ebHi)) ∧
    (region true none).strict = true ∧ 255 < 256 :=
  ⟨⟨canonical_withHart _, canonical_withHart _⟩, by decide +kernel⟩

/-- A store inside a region, which stays live. -/
theorem witness_RegionForms_store : after (exec (.std 0 0 10 11) inside) (fun t => t.hart.region.isSome) = true := by
  decide +kernel

/-- A claim of one element of 1 byte at some address. -/
def claim (base : Word) (slices : List Nat) : Claim := ⟨0, slices, base, 1, 0, 0⟩

/-- A hart with n claims; s10 = 0x10000, and s11 asks for one element of one byte there, s12 for none. The other hart claims
0x20000, to which s13 points, and holds k entries of the table of 0x10000's home slice. -/
def claiming (n k : Nat) : State :=
  let h := { runner 1 with s := (((Vector.replicate 32 0).set 10 0x10000).set 11 1).set 13 0x20000 }
  { withHart { h with claims := List.replicate n (claim 0x30000 []) } with
    parked := [{ h with id := ⟨0, 1, 0, false⟩, claims := claim 0x20000 [] :: List.replicate k (claim 0x40000 [homeSlice 0x400]) }] }

/-- The bytes of a claim, as the statement names them. -/
def claimed (q : Claim) (x : Int) : Prop :=
  ∃ i j : Nat, i < q.count.toNat ∧ j < 2 ^ q.lw.toNat ∧ x = q.base.toNat + i * q.stride.toInt + j

theorem claimed_claim (base : Word) (slices : List Nat) (x : Int) : claimed (claim base slices) x ↔ x = base.toNat := by
  constructor
  · rintro ⟨i, j, hi, hj, rfl⟩
    simp only [claim, BitVec.reduceToNat, Nat.lt_one_iff, Nat.pow_zero] at hi hj ⊢
    simp [hi, hj]
  · rintro rfl
    exact ⟨0, 0, by simp [claim], by simp [claim], by simp [claim]⟩

/-- What the descriptor in s11 asks for at the address in a register is a claim of one byte. -/
theorem asked_claim : ∀ k ∈ [0, 64], ∀ a ∈ [(10 : BitVec 5), 13], let s := claiming 7 k;
    s.hart.claims.length < 8 ∧ s.hart.region = none ∧
    (⟨0, [], s.rs a, BitVec.ofNat 24 (s.rs 11).toNat, BitVec.ofNat 24 ((s.rs 11).toNat / 2 ^ 24),
      BitVec.ofNat 2 ((s.rs 11).toNat / 2 ^ 48)⟩ : Claim) = claim (s.rs a) [] ∧
    ((claim (s.rs a) []).count ≠ 0 ∧ (s.rs a).toNat % 2 ^ (claim (s.rs a) []).lw.toNat = 0 ∧
      ((claim (s.rs a) []).count.toNat - 1) * (claim (s.rs a) []).stride.toInt.natAbs + 2 ^ (claim (s.rs a) []).lw.toNat ≤ 2 ^ 24) := by
  decide +kernel

theorem witness_Claims :
    ((claiming 8 0).hart.region = none ∧ 8 ≤ (claiming 8 0).hart.claims.length) ∧
    -- not valid: a count of 0
    BitVec.ofNat 24 ((claiming 7 0).rs 12).toNat = 0 ∧
    -- a byte of another hart's claim
    (∃ h ∈ (claiming 7 0).parked ++ (claiming 7 0).saved, h.ctx = (claiming 7 0).hart.ctx ∧ ∃ q ∈ h.claims, ∃ x,
      claimed (claim ((claiming 7 0).rs 13) []) x ∧ claimed q x) ∧
    -- no byte of one, with an empty table and with a full one
    (∀ k ∈ [0, 64], ¬ ∃ h ∈ (claiming 7 k).parked ++ (claiming 7 k).saved, h.ctx = (claiming 7 k).hart.ctx ∧ ∃ q ∈ h.claims, ∃ x,
      claimed (claim ((claiming 7 k).rs 10) []) x ∧ claimed q x) ∧
    (¬ ∃ n ∈ (claiming 7 0).claimSlices (claim 0x10000 []), 64 ≤ (claiming 7 0).claimsAt n) ∧
    ∃ n ∈ (claiming 7 64).claimSlices (claim 0x10000 []), 64 ≤ (claiming 7 64).claimsAt n := by
  have bases : ∀ k ∈ [0, 64], ∀ h ∈ (claiming 7 k).parked ++ (claiming 7 k).saved, ∀ q ∈ h.claims,
      q = claim 0x20000 [] ∨ q = claim 0x40000 [homeSlice 0x400] := by decide +kernel
  have at10 : ∀ k ∈ [0, 64], (claiming 7 k).rs 10 = 0x10000 := by decide +kernel
  refine ⟨by decide +kernel, by decide +kernel, ?_, ?_, by decide +kernel, by decide +kernel⟩
  · have e : (claiming 7 0).rs 13 = 0x20000 := by decide +kernel
    refine ⟨_, List.mem_append_left _ (List.mem_cons_self ..), rfl, _, List.mem_cons_self .., 0x20000, ?_, ?_⟩
    · rw [e, claimed_claim]; rfl
    · rw [claimed_claim]; rfl
  · rintro k hk ⟨h, hh, -, q, hq, x, hx, hy⟩
    rw [at10 k hk, claimed_claim] at hx
    rcases bases k hk h hh q hq with rfl | rfl <;> rw [claimed_claim] at hy <;> simp [hx] at hy

/-- Two harts in regions with no order between them: this one has read line 0x400, and the other has written it. -/
def conflicting : State :=
  let s := within (region false none) 3 8
  { s with parked := [{ s.hart with
      id := ⟨0, 1, 0, false⟩, region := some { region false none with lines := [⟨0x400, 0x10000, false, true, false⟩] } }] }

theorem witness_RegionSteps :
    (Canonical (within (region false (some 31)) 3 3) ∧ Canonical (within (region true (some 0)) 0 0)) ∧
    (let s := within (region false (some 31)) 3 3;
      s.find s.hart.id = some s.hart ∧ s.hart.region = some (region false (some 31)) ∧ (region false (some 31)).asked = some 31 ∧
      s.commitBlocked s.hart (region false (some 31)) (s.commitPosition s.hart (region false (some 31))) = false ∧
      Sparse.wf (fun _ => none) (region false (some 31)).buf = true ∧ s.hart.ebLo ≤ s.hart.ebHi) ∧
    (let s := within (region true (some 0)) 0 0;
      s.commitBlocked s.hart (region true (some 0)) (s.commitPosition s.hart (region true (some 0))) = false ∧
      (region true (some 0)).strict = true) ∧
    (let s := within (region false (some 31)) 4 3;
      s.commitBlocked s.hart (region false (some 31)) (s.commitPosition s.hart (region false (some 31))) = false ∧
      (region false (some 31)).strict = false ∧ s.hart.ebHi < s.hart.ebLo) ∧
    (let s := { within (region false none) 3 8 with arb := { State.reset.arb with
        narrowings := [⟨1, ⟨0, 0, 0, false⟩, 4, 4, ⟨0, 1, 0, false⟩, true⟩]
        finals := [⟨⟨0, 1, 0, false⟩, 1, ⟨0, 0, 0, false⟩, false, 3⟩] } };
      (s.arb.narrowings[0]?).map (·.target) = some s.hart.id ∧ (region false none).strict = false ∧ (region false none).pinned = false ∧
      max (4 : Int) (s.hart.ebLo.toNat : Int) ≤ min 4 (s.hart.ebHi.toNat : Int) ∧ max (4 : Int) (s.hart.ebLo.toNat : Int) ≤ 2 ^ 40 - 1 ∧
      (s.arb.finals[0]?).map (·.target) = some s.hart.id ∧
      max ((3 : Nat) + 1 : Int) s.hart.ebLo.toNat ≤ (s.hart.ebHi.toNat : Int)) ∧
    (let s := { ready with arb := { State.reset.arb with renewing := true } };
      s.arb.renewing = true ∧ s.inRegions = [] ∧ s.arb.finals = []) :=
  ⟨⟨canonical_withHart _, canonical_withHart _⟩, by decide +kernel⟩

/-- The clauses on stamps and on the meeting of two regions: the other has written the line, which this one reads, writes, or both. -/
theorem witness_RegionSteps_order : Canonical conflicting ∧ let s := conflicting
    let o := ({ region false none with lines := [⟨0x400, 0x10000, false, true, false⟩] } : Region)
    s.find s.hart.id = some s.hart ∧ (s.find ⟨0, 1, 0, false⟩).bind (·.region) = some o ∧ ⟨0, 1, 0, false⟩ ≠ s.hart.id ∧
    o.strict = false ∧ o.pinned = false ∧ o.lines.find? (fun x => decide (x.line = 0x400)) = some ⟨0x400, 0x10000, false, true, false⟩ ∧
    s.stamps 0x400 = (0, 0) ∧ s.hart.ebLo.toNat = 3 ∧ s.hart.ebHi.toNat = 8 ∧
    (s.find ⟨0, 1, 0, false⟩).map (fun k => (k.ebLo.toNat, k.ebHi.toNat)) = some (3, 8) :=
  ⟨canonical_withHart conflicting.hart, by decide +kernel⟩

/-- R192: an access that reads and writes what another region has written is ordered both ways. -/
theorem test_meet_both : (let t := conflicting.meet conflicting.hart.id ⟨0, 1, 0, false⟩ ⟨0x400, 0x10000, true, true⟩
    (t.find conflicting.hart.id).map (fun k => (k.ebLo.toNat, k.ebHi.toNat)) = some (4, 7) ∧
      t.arb.narrowings.map (fun n => (n.lo, n.hi)) = [(4, 2 ^ 40 - 1), (0, 6)]) := by
  decide +kernel

/-- The clause on a conflict that no access has ordered. -/
theorem witness_RegionSteps_conflict : Canonical conflicting ∧
    conflicting.find conflicting.hart.id = some conflicting.hart ∧ conflicting.hart.region = some (region false none) ∧
      ∃ l ∈ (region false none).lines, l.read = true ∧ ∃ k ∈ conflicting.inRegions, k.id ≠ conflicting.hart.id ∧
        ∃ o ∈ k.region.toList, (∀ p ∈ (region false none).partners, p.1 ≠ k.id) ∧ (∀ p ∈ o.partners, p.1 ≠ conflicting.hart.id) ∧
          ∃ x ∈ o.lines, x.line = l.line ∧ (false = true ∨ x.wrote = true) :=
  ⟨canonical_withHart conflicting.hart, by decide +kernel⟩

/-- Quad 0 in the hands of the bundle of the hart in front. -/
def engine (h : Hart) (q : Quad) : State := { withHart h with quads := [(0, { q with owner := some (0, 0, 0) })] }

/-- A slot of it. -/
def slotted (x : SlotState) : Quad := { Quad.idle with slots := Quad.idle.slots.set 31 x }

theorem canonical_engine (h : Hart) (q : Quad) : Canonical (engine h q) :=
  let c := canonical_withHart h
  ⟨c.1, c.2.1, c.2.2.1, c.2.2.2.1, c.2.2.2.2.1, by
    have : ({ q with owner := some (0, 0, 0) } : Quad) ≠ Quad.idle := fun e => by
      have := congrArg Quad.owner e
      cases this
    simpa [engine, Sparse.wf] using this, c.2.2.2.2.2.2⟩

/-- A vector hart and the control core of quad 0: s10 names row 255 from column 252 on, s12 = 16368, the last place of a slot
for four elements of i32, s14 an address and s15 a descriptor of accstore: rows 255 to 255, columns 255 to 255, format f32. -/
def mover (control : Bool) : Hart := { runner 1 with
  id := ⟨0, 0, 0, control⟩
  s := ((((Vector.replicate 32 0).set 10 0xFCFF).set 12 16368).set 14 0x10000).set 15 0x10000FFFF }

theorem witness_MatrixTransfers :
    (Canonical ready ∧ ready.hart.region = none ∧ ready.ownsMatrix = false) ∧
    (∀ h q, Canonical (engine h q)) ∧
    (∀ x ∈ [SlotState.free, .feeder 0 0], let s := engine (mover false) (slotted x);
      s.ownsMatrix = true ∧ s.hart.region = none ∧ s.hart.lost.elem 32 = false ∧ s.hart.id.control = false ∧
      (s.quad s.hart.id.quad).slots.getD (31 : BitVec 5).toNat .free = x ∧ (s.quad 0).releasing.elem 31 = false) ∧
    (∀ x ∈ [SlotState.full, .control], let s := engine (mover true) (slotted x);
      s.ownsMatrix = true ∧ s.hart.lost.elem 32 = false ∧ s.hart.id.control = true ∧
      (s.quad s.hart.id.quad).slots.getD (31 : BitVec 5).toNat .free = x ∧ (s.quad 0).releasing.elem 31 = false) ∧
    (let s := engine (mover false) (slotted (.feeder 0 0));
      s.full .tl = false ∧ s.sending s.hart = false ∧ s.engineDead = false ∧ s.hart.anyBad [⟨47, s.hart.sew⟩] = none ∧
      (s.quad 0).releasing.elem 31 = false ∧ s.hold [⟨47, s.hart.sew⟩] none = none ∧ (s.rs 12).toNat % s.hart.fmt.esz = 0 ∧
      (s.rs 12).toNat + s.hart.g * s.hart.fmt.esz ≤ 16384 ∧
      s.hart.cellRun (s.rs 10) = some (255, 252) ∧ s.hold [] (some ⟨47, s.hart.sew⟩) = none ∧ isStream 47 = false ∧
      ((List.range s.hart.g).any fun e => s.cellBad 0 255 (252 + e) false) = false) ∧
    (let s := { engine (mover false) (slotted (.feeder 0 0)) with pkg := { Pkg.reset with cellPoison := [65535] } };
      s.hart.cellRun (s.rs 10) = some (255, 252) ∧ ((List.range s.hart.g).any fun e => s.cellBad 0 255 (252 + e) false) = true) ∧
    (let s := engine (mover false) { slotted (.feeder 0 0) with releasing := [31] };
      s.ownsMatrix = true ∧ s.hold [⟨47, s.hart.sew⟩] none = none ∧ (s.quad 0).releasing.elem 31 = true) ∧
    (let s := engine (mover false) Quad.idle;
      let d := (s.rs (14 + 1)).toNat;
      Fmt.ofCode (bits d 35 32) = some .f32 ∧ .f32 ∈ [Fmt.f32, .i32, .f64, .bf16, .f16] ∧ bits d 39 36 = 0 ∧
      (s.rs 14).toNat % Fmt.f32.esz = 0 ∧ bits d 63 40 % Fmt.f32.esz = 0 ∧
      s.placeAll s.hart .store [((s.rs 14).toNat, 4)] = .ok [0x10000] ∧ bits d 23 16 + 1 = 1 ∧ bits d 31 24 + 1 = 1 ∧
      bits d 7 0 + 1 ≤ 256 ∧ bits d 15 8 + 1 ≤ 256) :=
  ⟨⟨canonical_withHart _, by decide +kernel⟩, canonical_engine, by decide +kernel⟩

/-- An operation that zeroes a window, one that runs in the state below and one that waits behind it. -/
def zeroing : TileOp := .accz 1 128 128
def scaling : TileOp := .tscl 3 128 128

theorem witness_TileOperations :
    (∀ h q, Canonical (engine h q)) ∧ control.ownsMatrix = false ∧
    (let s := engine (mover true) { Quad.idle with slots := Vector.replicate 32 .control };
      s.ownsMatrix = true ∧ s.full .tl = false ∧ s.engineDead = false ∧
      { s with pkg := { Pkg.reset with dead := [.matrixEngine 0] } }.engineDead = true ∧ ((s.quad 0).waiting.filter (·.isTile)).length < 8 ∧ (s.quad 0).ops = [] ∧
      (s.quad s.hart.id.quad).holdsRun (31 : BitVec 6).toNat (1 : BitVec 7).toNat = true ∧
      s.hart.region = none ∧ (s.rs 14).toNat % 64 = 0 ∧
      s.placeAll s.hart .load [((s.rs 14).toNat, 4 * (128 - (112 : BitVec 6).toNat))] =
        .ok ((List.range 5).map fun i => 0x10000 + 64 * i) ∧
      s.placeAll s.hart .load [((s.rs 14).toNat, 4)] = .ok [0x10000] ∧ s.hart.lost.elem 32 = false ∧
      ((s.quad 0).ops.any fun op => op.covers 255 255 false) = false ∧ (s.quad 0).running = none ∧
      s.cellBad 0 255 255 false = false) ∧
    (let s := { engine (mover true) Quad.idle with pkg := { Pkg.reset with cellPoison := [65535], slotPoison := [8191] } };
      s.cellBad 0 255 255 false = true ∧ s.rowBad 0 31 1 .f32 63 = true) ∧
    (let s := engine (mover true) { Quad.idle with waiting := [zeroing] };
      (s.quad 0).running = none ∧ (s.quad 0).waiting = zeroing :: []) ∧
    (let s := engine (mover true) { Quad.idle with running := some scaling, waiting := [zeroing] };
      (s.quad 0).running = some scaling ∧ (s.quad 0).waiting ≠ [] ∧ (128 : BitVec 8).toNat + 128 ≤ 256) ∧
    (let s := engine (mover false) { slotted (.feeder 0 0) with releasing := [31] };
      (s.quad 0).slot 31 = .feeder 0 0 ∧ (s.quad 0).releasing.elem 31 = true ∧ s.slotPending 0 31 0 0 = false ∧ 31 < 32) ∧
    (let s := engine (mover true) { slotted .control with releasing := [31] };
      (s.quad 0).slot 31 = .control ∧ (s.quad 0).releasing.elem 31 = true ∧
      ((s.quad 0).ops.any fun op => op.readsSlot 31) = false) :=
  ⟨canonical_engine, by decide +kernel⟩

/-- A hart whose advice context waits out a delay that has passed, with one line in flight. -/
def advised : State := withHart { runner 1 with adv := { Advice.idle with state := .delaying, inFlight := 1 } }

theorem witness_AdviceWords : Canonical advised ∧ advised.find advised.hart.id = some advised.hart ∧
    advised.hart.id.control = false ∧ advised.hart.adv.state = .delaying ∧ advised.hart.adv.delay = 0 ∧ Sparse.wf (fun _ => 0) (advised.ctx advised.hart.ctx).ctr = true :=
  ⟨canonical_withHart _, by decide +kernel⟩

/-- The cases of await and aend: an empty queue, the event waited for, and a later one. -/
theorem witness_AdviceWords_await :
    ([] : List (BitVec 12)).dropWhile (fun j => decide (j < 5)) = [] ∧
    ([4, 5, 9] : List (BitVec 12)).dropWhile (fun j => decide (j < 5)) = 5 :: [9] ∧
    ([4, 9] : List (BitVec 12)).dropWhile (fun j => decide (j < 5)) = 9 :: [] ∧ (9 : BitVec 12) ≠ 5 := by
  decide

theorem witness_AdviceActions : Canonical advised ∧ advised.find advised.hart.id = some advised.hart ∧ 1 ≠ 0 ∧
    1 ≤ advised.hart.adv.inFlight ∧ (30 : Nat) % 32 ≠ 31 ∧ advised.prefetchWaits advised.hart 0x10000 = false ∧
    -- a line that does not translate, a page whose engine-owned entry its walk waits for, and lines that find no place
    advised.prefetchWaits advised.hart 0x40000000 = false ∧ advised.prefetchable advised.hart 0x40000000 = none ∧
    (let s := { advised with hart := { advised.hart with copy := (Vector.replicate 32 none).set 3 (some { through with lines := [0x4000 / 64] }) } };
      s.prefetchWaits s.hart 0x10000 = true) ∧
    (((List.range 20).map fun k => (0x10000 + 64 * k) % 2 ^ 64).filter fun va => canonical va && !inWindow va).length = 20 ∧
    (let x := { tensored.hart.adv with x := tensored.hart.adv.x.set 1 1 };
      (tensored.ctx tensored.hart.ctx).tensor ((x.get 1).setWidth 6) = some row16 ∧ (0, 0) ∈ coordTiles (x.get 0).toNat ∧
      row16.inRange 0 0 = true ∧ row16.tileMaps 0 0 tensored.advisedMaps = true ∧
      tensored.pkg.tileCache.length + (row16.lineAddrs 0 0).length ≤ tileLinesPerDie ∧
      (∀ va ∈ row16.lineAddrs 0 0, (tensored.ctx 1).tileAt 1 va ≠ none ∧ inWindow va = false ∧
        tensored.walkFor tensored.hart va = .page va 7 ∧ tensored.owned (va / 64) = false ∧ tensored.atHost (va / 64) = false ∧
        tensored.prefetchWaits tensored.hart va = false) ∧ Perm.load.allowed 7 = true) :=
  ⟨canonical_withHart _, by decide +kernel⟩

/-- A value with a property. -/
def good {ε α : Type} (r : Except ε α) (p : α → Bool) : Bool := match r with
  | .ok x => p x
  | .error _ => false

/-- The virtual address, the physical address and the length of each part of memory that an access reaches. -/
def foundAt (r : Reach) : List (Nat × Nat × Nat) := match r with
  | .found l => l
  | _ => []

/-- Endpoint 9 bound to context 1, or not. -/
def bound : State := { ready with pkg := { Pkg.reset with uec := [(9, 1#1 ++ (1 : BitVec 12))] } }

/-- An open QCB of context 1 at 0x10000. -/
def opened : State := { bound with mem := pages.write 0x10000 8 0x10001 }

theorem witness_Messages : Canonical bound ∧ (bound.endpoint 8 = none ∧ bound.endpoint 9 = some 1) ∧
    (bound.pkg.inbox.any fun p => decide (p.1 = 9)) = false ∧
    (foundAt (bound.reach 1 .store 0x10000 1) = [(0x10000, 0x10000, 1)] ∧
      foundAt (bound.reach 1 .load 0x10000 64) = [(0x10000, 0x10000, 64)] ∧ bound.poisoned 0x10000 = false) ∧
    (4096 < (List.replicate 4097 (0 : Byte)).length ∧ 4096 < (4097 : Word).toNat) ∧
    ((0x10100 : Word).toNat % 512 ≠ 0 ∧ (0x10000 : Word).toNat % 512 = 0 ∧ (0x20000 : Word).toNat % 128 = 0 ∧
      (foundAt (opened.reach 1 .store 0x10000 256)).head? = some (0x10000, 0x10000, 64) ∧
      foundAt (opened.reach 1 .store 0x20000 128) = [(0x20000, 0x20000, 64), (0x20040, 0x20040, 64)] ∧
      (∀ g ∈ [(0x20000, 0x20000, 64), (0x20040, 0x20040, 64)], g.2.1 + g.2.2 ≤ 0x10000 ∨ 0x10000 + 8 ≤ g.2.1) ∧
      openWord (opened.qword (BitVec.ofNat 64 0x10000) 0) = true ∧
      tenantOf 1 = tenantOf (ctxOfWord (opened.qword (BitVec.ofNat 64 0x10000) 0)) ∧
      opened.qcbBad (BitVec.ofNat 64 0x10000) = false ∧ opened.tailBusy 1 (BitVec.ofNat 64 0x10000) = false ∧ opened.pkg.late = []) ∧
    (bound.pkg.dead.elem .cxlPort = false ∧ (0x1003F : BitVec 52).toNat % 64 + 1 ≤ 64 ∧ bound.owned (0x1003F / 64) = false ∧
      bound.poisoned 0x1003F = false ∧ { bound with pkg := { bound.pkg with poison := [0x400] } }.poisoned 0x1003F = true) ∧
    (let m : Message := .read 0x10000 1;
      let s := { bound with pkg := { bound.pkg with inbox := [(9, m)] } };
      s.endpoint 9 = some 1 ∧ (s.pkg.inbox.any fun p => decide (p.1 = 9)) = true ∧ (List.replicate 128 (0 : Byte)).length = 128) ∧
    ({ Pkg.reset with dead := [.cxlPort] } : Pkg).dead.elem DyingAgent.cxlPort = true :=
  ⟨canonical_pkg _ _ rfl (by decide) rfl, by decide +kernel⟩

/-- A job of one bundle whose record at 0x20000 has been read, and its bundle on core 0 of quad 5, which no hart holds. -/
def job0 : Job := ⟨0x10000, 0x10000, 0x20000, 0x20000, 1, 1, 0, 0, 0, 0, true, 0, false, [], 0, 0, 0, ⟨1, 0, true, 0⟩, 1, 0, 1, false⟩
def bundle0 : Bundle := ⟨0x10000, 1, 0, 1, 5, [0], 0, true, .running, [], [], []⟩

/-- A Loom with jobs and bundles, before an open QCB of context 1 with a decision ring of 16 records at 0x40000, and a record of
one bundle, whose descriptor is at 0x30000. -/
def looming (jobs : List Job) (bundles : List Bundle) : State := { ready with
  mem := ((((pages.write 0x10000 8 0x10001).write 0x10020 8 0x40000).write 0x10028 8 4).write 0x20018 8 0x30000).write 0x30000 8 1
  loom := { Loom.boot with jobs := jobs, bundles := bundles, held := [(0x10000, [1, 2, 3, 4])], reload := some ⟨7, 200, 24, []⟩ } }

theorem witness_LoomSteps : (∀ js bs, Canonical (looming js bs)) ∧
    (let j := { job0 with read := false, state := 0, next := 0 };
      let s := looming [j] [];
      (s.loom.jobs.find? fun j => decide (j.qcb = 0x10000) && decide (j.addr = 0x20000) && !j.read && j.open) = some j ∧
      s.loomBusy = false ∧ s.recordBusy j = false ∧ s.job 0x10000 1 = some j ∧
      (let v := { s with mem := s.mem.write (j.pa + 0x38) 8 0 };
        v.qcbMapped j = true ∧ (v.readRecord j).isSome = true ∧ v.readDeps j = some [] ∧ v.recordBad j = false ∧ s.pkg.late = []) ∧
      { s with pkg := { Pkg.reset with flips := [(0x30000 / 2 ^ 21, true)] } }.recordBusy j = true ∧ (holding through .filling).loomBusy = false ∧
      { holding { through with lines := [0x800] } .filling with loom := s.loom }.loomBusy = true) ∧
    (let s := looming [{ job0 with next := 0 }] [bundle0];
      s.bundle 0x10000 1 0 = some bundle0 ∧ s.bundleDone bundle0 = true ∧ bundle0.runs = true ∧ s.loomBusyWith [0x10000] = false) ∧
    (let s := looming [job0] [];
      s.job 0x10000 1 = some job0 ∧ s.jobDone job0 = true ∧ s.loomBusy = false) ∧
    (let s := looming [job0] [{ bundle0 with stage := .saving 3 0 }];
      s.bundle 0x10000 1 0 = some { bundle0 with stage := .saving 3 0 } ∧ s.loomBusyWith [0x10000] = false) ∧
    (let s := looming [job0] [];
      (s.loom.held.find? fun p => decide (p.1 = 0x10000)) = some (0x10000, [1, 2, 3, 4]) ∧ s.ring 0x10000 = some (0x40000, 16) ∧
      s.ringFull 0x10000 16 = false ∧ s.loom.reload = some ⟨7, 200, 24, []⟩) :=
  ⟨fun _ _ => canonical_mem _ _ (by decide +kernel :
    (((((pages.write 0x10000 8 0x10001).write 0x10020 8 0x40000).write 0x10028 8 4).write 0x20018 8 0x30000).write 0x30000 8 1).wf = true),
    by decide +kernel⟩

/-- A machine whose hart is as told. -/
theorem witness_WaitEnds : (∀ h, Canonical (withHart h)) ∧
    (let s := withHart { runner 1 with started := false, passed := 8, yielded := 1 };
      s.find ⟨0, 0, 0, false⟩ = some s.hart ∧ s.hart.active = true ∧ s.hart.started = false ∧ 8 ≤ s.hart.passed ∧ s.hart.yielded = 1) ∧
    (let s := withHart { runner 1 with ending := true, cnt := ⟨0, 1, 0, 0⟩ };
      s.hart.ending = true ∧ s.hart.draining = true ∧ s.completable s.hart .st = true ∧ OpClass.st ≠ .tl) ∧
    (let s := withHart { runner 1 with ending := true };
      s.hart.ending = true ∧ s.hart.draining = false ∧ s.slotsReleasing s.hart = false ∧ s.oruPending s.hart = false ∧
      { withHart { s.hart with sent := [3] } with oruIn := [contribution] }.oruPending { s.hart with sent := [3] } = true) ∧
    (let s := withHart { runner 1 with cnt := ⟨0, 0, 0, 1⟩, accStores := [⟨[0x400], [(0x10000, 5), (0x10000, 6)], [], 0⟩] };
      s.completable s.hart .tl = true ∧ s.hart.accStores = ⟨[0x400], [(0x10000, 5), (0x10000, 6)], [], 0⟩ :: []) ∧
    (let s := { ready with ctxs := [(1, { mapped with trcCfg := 0x10000 })] };
      s.hart.active = true ∧ bits (s.ctx s.hart.ctx).trcCfg.toNat 31 16 ≠ 0) ∧
    (let s := { ready with cores := [(0, { Core.idle with rowWaiters := [⟨0, 0, 0, false⟩] })] };
      (s.core 0).rowWaiters = ⟨0, 0, 0, false⟩ :: []) ∧
    (let s := { released with barriers := [(ready.barrierKey 1 3, ⟨1, 0, 0, 0⟩)] };
      (s.barrier (ready.barrierKey 1 3)).released ≠ (s.barrier (ready.barrierKey 1 3)).phase) ∧
    (let s := { ready with shuttle := [(31, ⟨some 1, 8, [], []⟩)] };
      3 < 4 ∧ 7 < 8 ∧ 143 < 144 ∧ Sparse.wf (fun _ => 0) (s.channel (8 * 3 + 7)).seen = true ∧
      Sparse.get (fun _ => 0) (s.channel (8 * 3 + 7)).seen 143 < (s.channel (8 * 3 + 7)).value) :=
  ⟨canonical_withHart, by decide +kernel⟩

theorem witness_WaitEnds_package :
    let s := { ready with pkg := { Pkg.reset with
      holds := [(0x400, ⟨0, 0, 0, false⟩)], misses := [(5, ⟨0, 0, 0, false⟩)], flips := [(3, true)] } };
    (∃ p ∈ s.pkg.holds, p.1 = 0x400) ∧ (s.pkg.misses.find? fun m => decide (m.1 = 5)) = some (5, ⟨0, 0, 0, false⟩) ∧
    (s.pkg.flips.find? fun f => decide (f.1 = 3)) = some (3, true) ∧
    (∀ h ∈ s.harts ++ s.saved, (∀ c ∈ h.copy.toList, (c.all fun c => c.lines.all fun l => decide (l / 2 ^ 15 ≠ 3)) = true) ∧
      ∀ p ∈ h.accStores, ∀ l ∈ p.lines, l / 2 ^ 15 ≠ 3) ∧
    (∀ w ∈ s.windows, ∀ c ∈ w.contribs, c.addr / 2 ^ 21 ≠ 3) := by
  decide +kernel

/-- The package 20,484 eighteenths of a nanosecond after reset, with the spares of some logical names in use: the lanes of core 575,
the quad positions of die 3, and the slice positions of die 0. -/
def worn : Pkg := { Pkg.reset with
  timebase := 1138
  worn := [(0, 64 * 575 + 32), (0, 64 * 575 + 33), (1, 64 * 3 + 36), (1, 64 * 3 + 37), (1, 64 * 3 + 38), (1, 64 * 3 + 39),
    (2, 128), (2, 129), (2, 130), (2, 131)] }

theorem witness_PowerAndRepair : (Canonical ready ∧ Canonical { ready with pkg := worn }) ∧
    { Pkg.reset with deepIdle := true }.deepIdle = true ∧
    (let s := { ready with loom := { Loom.boot with forecast := Vector.replicate 4 511 }, pkg := worn };
      (511 : Nat) < 512 ∧ (s.loom.forecast.getD (511 / 128) 1024).toNat < 512 ∧ s.pkg.drowsy.elem 511 = false ∧
      (∀ m ∈ s.pkg.misses, m.1 ≠ 511) ∧ s.sliceOwned 511 = false ∧
      Sparse.get (fun _ => 0) s.pkg.slicesUsed 511 + 20480 ≤ s.now) ∧
    -- a bank of a core with no task, and, under a split into two harts, one of the other hart's
    (0 < 576 ∧ 15 < 16 ∧ ready.coreTasks 575 = [] ∧
      (let s := withHart { runner 1 with split := 1 };
        ∀ h ∈ s.coreTasks 0, h.id.hart ≠ 4 / 2 ^ (3 - s.shareSplit h))) ∧
    -- spares that remain, and none
    (∀ b ∈ ready.loom.bundles, b.slot?.isSome = true) ∧
    (∀ u ∈ [RepairUnit.lane 575 31 (some 33), .quad 143 (some 39), .slice 511 (some 0x183) []], ready.repairable u = true) ∧
    (∀ u ∈ [RepairUnit.lane 575 31 none, .quad 143 none, .slice 0 none [5], .hbm 3 [5], .link 2 [5]],
      { ready with pkg := worn }.repairable u = true) ∧
    (ready.pkg.dead.elem (.matrixEngine 0) = false ∧
      ({ Pkg.reset with dead := [.matrixEngine 0] } : Pkg).dead.elem (DyingAgent.matrixEngine 0) = true) ∧
    -- a saved hart with a call open
    (let s := { ready with saved := [{ calling.hart with id := ⟨0, 1, 0, false⟩ }] };
      ∃ h ∈ s.saved, (h.pushing.isSome || h.xredCall.isSome) = true) :=
  ⟨⟨canonical_withHart _, canonical_pkg _ _ rfl rfl rfl⟩, by decide +kernel⟩

/-- No line is owned. -/
theorem owned_ready (n : Nat) : ready.owned n = false := by
  have h : ready.harts ++ ready.saved = [ready.hart] := by decide +kernel
  have c : ready.hart.copy = Vector.replicate 32 none := by decide +kernel
  have a : ready.hart.accStores = [] := by decide +kernel
  have w : ready.windows = [] := by decide +kernel
  simp [State.owned, State.engineOwned, h, c, a, w]

/-- A code object with one image of 64 bytes at 0x10000, one with an advice image of one word at 0x11000, a tenant's descriptor
at 0x12000 and an invalid one at 0x13000. -/
def objects : Memory :=
  ((((((((((pages.write 0x10000 8 0x13146584A).write 0x10050 8 0x80).write 0x10058 8 64).write 0x10060 8 (64 * 2 ^ 32)).write
    0x11000 8 0x13146584A).write 0x11040 8 1).write 0x11050 8 0x80).write 0x11058 8 0x14).write 0x11080 8 (0x10 * 2 ^ 32)).write
    0x11088 8 4).write 0x12018 8 1

/-- A privileged hart before them; context 2 is live and idle, context 3 does not exist. -/
def loading : State := { ready with mem := objects, ctxs := [(1, mapped), (2, mapped)] }

theorem witness_RegisterSteps : Canonical { ready with mem := objects } ∧
    ((15 : Word).toNat < 16 ∧ (31 : Word).toNat < 32 ∧ (1023 : Word).toNat < 1024 ∧ (4095 : Word).toNat < 4096 ∧
      (16383 : Word).toNat < 16384) ∧
    ((loading.ctx 2).live = true ∧ (loading.ctx 3).live = false ∧ loading.running 2 = false ∧ loading.running 1 = true) ∧
    (good (loading.bytesFor 0x12000 64) (fun x => tenantValid x.1) = true ∧
      good (loading.bytesFor 0x13000 64) (fun x => !tenantValid x.1) = true) ∧
    (good (loading.readObject 2 0x10000) (fun es => match winner (es.filter fun e => !e.advice && loading.eligible 2 e) with
        | some e => good (loading.bytesIn 2 (0x10000 + e.off) e.size) (fun _ => true) && good (loading.chooseAdvice 2 0x10000 es) (·.isNone)
        | none => false) = true ∧
      (loading.tenant (tenantOf 2)).key = 0) ∧
    ((match loading.readObject 2 0x12000 with
        | .error r => decide (r ≠ notYet)
        | .ok _ => false) = true ∧
      good (loading.readObject 1 0x10000) (fun _ => true) = true) ∧
    good (loading.readObject 2 0x11000) (fun es => good (loading.chooseAdvice 2 0x11000 es) (·.isSome)) = true ∧
    good (loading.bytesFor 0x12000 24) (fun x => decide (bits (dword x.1 0) 31 0 ≤ 2 ^ 18) &&
      good (x.2.bytesFor 0x12000 (bits (dword x.1 0) 31 0)) (fun _ => true)) = true ∧
    ((5 : Word).toNat < 2 ^ 31 ∧ 2 ^ 31 ≤ (0x80000000 : Word).toNat ∧ loading.finalBias 5 = (2 : Word).getLsbD 0 ∧ loading.finalBias 5 ≠ (1 : Word).getLsbD 0) :=
  ⟨canonical_mem _ _ (by decide +kernel), by decide +kernel⟩


/-- R284: a message behind one that waits stands in the order of delivery, an equal one too. -/
theorem test_inbox_order : after (exec (.uecWrite 9 0x10000 [1]) { bound with pkg := { bound.pkg with inbox := [(9, .write 0x10000 [1]), (9, .read 0x10000 1)] } })
    (fun t => decide (t.pkg.inbox = [(9, .write 0x10000 [1]), (9, .read 0x10000 1), (9, .write 0x10000 [1])]) &&
      t.agenda.elem (.message 9)) = true := by
  decide +kernel

/-- R1: a power-on keeps the tables of repairs, and the places that a repair has taken out of service. -/
theorem test_power_on_keeps_worn : after (exec .powerOn { ready with pkg := worn }) (fun t => decide (t.pkg.worn = worn.worn)) = true := by
  decide +kernel
/-- `ready` with one more move picked by the outside. -/
def picked (m : Move) : State := { ready with sched := [m] }

/-- `withHart` with a word at 0x2000, where the hart of `runner` stands: add of s5 to s6 into s7. -/
def adding (h : Hart) : State := { withHart h with mem := pages.write 0x2000 4 0x001CC501 }

/-- The state in which the hart that the step grants fetches. -/
noncomputable def issuing (s : State) : State :=
  let r := s.tick.refresh
  (r.prepare (r.grant.getD r.hart)).beginFetch

/-- The step grants a hart, and what it fetches has a property. -/
noncomputable def issues (s : State) (p : State → Instr → Bool) : Bool :=
  let v := issuing s
  s.sched.isEmpty && !s.pkg.deepIdle && !(s.tick.refresh.eventTurn && !s.tick.refresh.agenda.isEmpty) &&
    s.tick.refresh.grant.isSome && good (v.fetch v.hart) fun w =>
      p v (decode v.hart.id.control (v.featMask v.hart.ctx).toNat w.toNat)

/-- An instruction issues; one at a breakpoint; one that reads a lost register; an illegal word; and a fetch that faults. -/
theorem witness_StepRunsDecoded :
    (issues (adding (runner 1)) fun v i => !v.lost v.noteFetch && decide (i = .add 7 6 5) &&
      (v.noteFetch.hart.breakBefore (v.noteFetch.hart.activeOf i)).isNone && !v.noteFetch.hart.readsLost i) = true ∧
    (issues (adding { runner 1 with bp := (Vector.replicate 4 0).set 0 0x2001 }) fun v i =>
      !v.lost v.noteFetch && (v.noteFetch.hart.breakBefore (v.noteFetch.hart.activeOf i)).isSome) = true ∧
    (issues (adding { runner 1 with parity := [.s 6] }) fun v i => !v.lost v.noteFetch && v.noteFetch.hart.readsLost i &&
      (v.noteFetch.hart.breakBefore (v.noteFetch.hart.activeOf i)).isNone) = true ∧
    (issues ready fun v i => !v.lost v.noteFetch && match i with
      | .illegalInstruction _ => true
      | _ => false) = true ∧
    (let s := withHart { runner 1 with pc := 0x40000000 };
      s.tick.refresh.grant.isSome = true ∧ good ((issuing s).fetch (issuing s).hart) (fun _ => true) = false) := by
  decide +kernel

/-- A hart in a strict region, whose fetch meets a page-table line that an elastic region has written. -/
def meeting : State :=
  let s := adding { runner 1 with region := some (region true none) }
  { s with parked := [{ s.hart with
      id := ⟨0, 1, 0, false⟩, yielded := 9, region := some { region false none with lines := [⟨0xC0, 0x3000, false, true, false⟩] } }] }

theorem witness_StepRunsDecoded_lost : (issues meeting fun v _ => v.lost v.noteFetch) = true := by
  decide +kernel

/-- A lost register of data behind a misaligned address; a lost base; a breakpoint at the first element; and a fence's order. -/
theorem witness_StepRunsDecoded_lost_register :
    (let s := withHart { runner 1 with parity := [.s 11], s := (Vector.replicate 32 0).set 10 0x10001 };
      s.hart.readsLost (.amoadd 0 11 10 7) = true ∧ s.hart.breakFirst (.amoadd 0 11 10 7) = none ∧
        s.precedesLoss (.amoadd 0 11 10 7) = true) ∧
    (let s := withHart { runner 1 with parity := [.s 10], s := (Vector.replicate 32 0).set 10 0x10001 };
      s.hart.readsLost (.amoadd 0 11 10 7) = true ∧ s.precedesLoss (.amoadd 0 11 10 7) = false) ∧
    (let s := withHart { runner 1 with parity := [.s 10], bp := (Vector.replicate 4 0).set 2 0x2001 };
      s.hart.readsLost (.vld 0 0 10 3) = true ∧ s.hart.breakBefore (s.hart.activeOf (.vld 0 0 10 3)) = none ∧
        s.hart.breakFirst (.vld 0 0 10 3) = some (2, 0)) ∧
    (let s := withHart { runner 1 with gates := [(7, BitVec.ofNat 16 (2 ^ 5))], copy := (Vector.replicate 32 none).set 3 (some arriving) };
      s.hart.fencedOff (.ldd 0 5 10 6) = true) := by
  decide +kernel

theorem witness_StepRunsDecoded_others :
    (State.reset.sched = [] ∧ State.reset.pkg.deepIdle = false ∧ State.reset.tick.refresh.agenda = [] ∧
      State.reset.tick.refresh.grant = none) ∧
    (let s := { State.reset with agenda := [.windowTick] };
      s.tick.refresh.agenda = .windowTick :: [] ∧ s.tick.refresh.grant = none ∧ Due.windowTick.instr = some .windowTick) ∧
    (let s := { ready with agenda := [.urgent ⟨0, 0, 0, false⟩], eventTurn := true };
      s.tick.refresh.agenda = .urgent ⟨0, 0, 0, false⟩ :: [] ∧ s.tick.refresh.eventTurn = true) ∧
    (∀ d ∈ [Due.loomAgain, .message 9], { State.reset with agenda := [d] }.tick.refresh.agenda = d :: []) ∧
    (let s := { withHart { runner 1 with adv := { Advice.idle with state := .running, code := toBytes 4 0x2C00000C } } with
        agenda := [.advice 0], eventTurn := true };
      let r := s.tick.refresh
      r.agenda = .advice 0 :: [] ∧ r.eventTurn = true ∧ ((firstTurn (r.core 0).adviceLast (r.advisers 0)).map (·.id)) = some s.hart.id) ∧
    ({ ready with pkg := { Pkg.reset with deepIdle := true } }.pkg.deepIdle = true ∧ ready.pkg.wrote = [] ∧ ready.pkg.readLines = [] ∧ ready.pkg.late = []) ∧
    ((picked (.hart ⟨0, 0, 0, false⟩)).sched = .hart ⟨0, 0, 0, false⟩ :: [] ∧ ready.hart.retry.ready = true ∧
      (picked (.softError (.register ⟨0, 0, 0, false⟩ (.v 3 5)))).sched = .softError (.register ⟨0, 0, 0, false⟩ (.v 3 5)) :: [] ∧
      (picked (.softError (.memory 1))).sched = .softError (.memory 1) :: [] ∧ ready.find ⟨0, 0, 0, false⟩ = some ready.hart ∧
      (picked (.event .clockLower)).sched = .event .clockLower :: [] ∧ isStep .clockLower = true) ∧
    (let s := { withHart { runner 1 with adv := { Advice.idle with state := .running, code := toBytes 4 0x2C00000C } } with
        sched := [.advice ⟨0, 0, 0, false⟩] };
      s.find ⟨0, 0, 0, false⟩ = some s.hart ∧ s.hart.adv.state = .running ∧ s.hart.adv.apc.toNat + 4 ≤ s.hart.adv.code.length) := by
  decide +kernel

theorem witness_EncodeDecode :
    ((Instr.aadd 15 15 15).wf = true ∧ isAdvice (.aadd 15 15 15) = true) ∧
    ((Instr.add 31 31 31).wf = true ∧ isAdvice (.add 31 31 31) = false ∧ encode (.add 31 31 31) % 4 = 1 ∧
      misplaced false (encode (.add 31 31 31)) = none ∧ maskedOut 0 (encode (.add 31 31 31)) = false) ∧
    ((Instr.accz 1 128 192).wf = true ∧ encode (.accz 1 128 192) % 4 = 3) ∧
    ((Instr.cAddi 5 0x3D).wf = true ∧ encode (.cAddi 5 0x3D) % 4 = 0) := by
  decide +kernel

theorem witness_StepKeepsCanonical : Canonical ready ∧ after (step ready) (fun _ => true) = true :=
  ⟨canonical_withHart _, by decide +kernel⟩

end Sys2Proof.Tests
end

/-! What device traffic leaves alone beside `State.still`, whether or not a hart is inside a region. -/

namespace Sys2Proof.Machine

/-- A hart without what an access of the device may change: its reservation, and what an abort of its region restores or ends (R142,
R199). -/
def Hart.bare (h : Hart) : Hart :=
  { h with
    s := Vector.replicate 32 0, v := Vector.replicate 48 0, m := Vector.replicate 12 0, vl := 0, vlPad := 0, vt := 0, sw := 0, vstart := 0
    pc := 0, cnt := ⟨0, 0, 0, 0⟩, ebLo := 0, ebHi := 0, reservation := none, region := none, aborts := 0, barWait := none, wait := none
    yielded := 0, parity := [], pooled := Vector.replicate 48 0, flipping := false }

/-- What device traffic leaves alone beside `State.still`: the bare harts, the local stores, and which agents are dead. -/
def State.frame (s : State) : Hart × List Hart × Memory × List DyingAgent :=
  (s.hart.bare, s.parked.map Hart.bare, s.lstore, s.pkg.dead)

/-- What every step of a fold leaves alone, the fold does. -/
theorem foldl_keeps {α β : Type} {f : State → α → State} (g : State → β) (hf : ∀ t a, g (f t a) = g t) (l : List α) (s : State) :
    g (l.foldl f s) = g s := by
  induction l generalizing s with
  | nil => rfl
  | cons a l ih => exact (ih (f s a)).trans (hf s a)

/-- What both branches of a choice leave alone, the choice does. -/
theorem ite_keeps {β : Type} (g : State → β) {p : Prop} [Decidable p] {s t u : State} (ht : g t = g s) (hu : g u = g s) :
    g (if p then t else u) = g s := by
  split
  · exact ht
  · exact hu

/-- A hart of the later state has its bare hart in the earlier one. -/
theorem State.mem_harts_of_frame {s t : State} (f : t.frame = s.frame) {h : Hart} (hh : h ∈ t.harts) :
    ∃ k ∈ s.harts, k.bare = h.bare := by
  obtain ⟨h1, h2, -⟩ : t.hart.bare = s.hart.bare ∧ t.parked.map Hart.bare = s.parked.map Hart.bare ∧ _ := by
    simpa only [State.frame, Prod.mk.injEq] using f
  rcases List.mem_cons.1 hh with rfl | hp
  · exact ⟨s.hart, List.mem_cons_self, h1.symm⟩
  · obtain ⟨k, hk, e⟩ := List.mem_map.1 (h2 ▸ List.mem_map_of_mem hp : h.bare ∈ s.parked.map Hart.bare)
    exact ⟨k, List.mem_cons_of_mem _ hk, e⟩

/-! Changes of harts. -/

theorem State.updateAll_frame (s : State) {f : Hart → Hart} (hf : ∀ h, (f h).bare = h.bare) : (s.updateAll f).frame = s.frame := by
  simp only [State.frame, State.updateAll_hart, State.updateAll_parked, State.updateAll_lstore, State.updateAll_pkg, hf, List.map_map,
    Function.comp_def]

theorem State.update_frame (s : State) (id : AgentId) {f : Hart → Hart} (hf : ∀ h, (f h).bare = h.bare) :
    (s.update id f).frame = s.frame := by
  have hif (h : Hart) : (if h.id = id then f h else h).bare = h.bare := by split <;> simp only [hf]
  simp only [State.frame, State.update_hart, State.update_parked, State.update_lstore, State.update_pkg, hif, List.map_map,
    Function.comp_def]

/-! Changes of tables. -/

@[simp] theorem State.onCtx_frame (s : State) (c : BitVec 12) (f : Ctx → Ctx) : (s.onCtx c f).frame = s.frame := rfl
@[simp] theorem State.count_frame (s : State) (c : BitVec 12) (n i k : Nat) : (s.count c n i k).frame = s.frame := rfl

/-- A change of the package's registers that kills no agent and brings none back. -/
theorem State.onPkg_frame (s : State) {f : Pkg → Pkg} (hf : (f s.pkg).dead = s.pkg.dead) : (s.onPkg f).frame = s.frame := by
  simp only [State.frame, State.onPkg_hart, State.onPkg_parked, State.onPkg_lstore, State.onPkg_pkg, hf]

/-! Caches and directories. -/

theorem State.dropTileLine_frame (s : State) (l : TileLine) : (s.dropTileLine l).frame = s.frame := ite_keeps State.frame rfl rfl

theorem State.tileRoom_frame (s : State) (d : Nat) : (s.tileRoom d).frame = s.frame := by
  refine ite_keeps State.frame rfl ?_
  dsimp only
  split
  · exact State.dropTileLine_frame _ _
  · rfl

theorem State.fileLine_frame (s : State) (t : Tile) (l : Nat) (a : Bool) : (s.fileLine t l a).frame = s.frame := by
  unfold State.fileLine
  refine ite_keeps State.frame (ite_keeps State.frame (State.count_frame _ _ _ _ _) rfl) ?_
  dsimp only
  rw [State.count_frame, State.onPkg_frame _ (by rfl), State.tileRoom_frame]

theorem State.writeBack_frame (s : State) (l : Nat) (t : Option Tile) : (s.writeBack l t).frame = s.frame := by
  refine ite_keeps State.frame rfl ?_
  split
  · exact ite_keeps State.frame (State.tileRoom_frame s _) rfl
  · rfl

theorem State.useSlices_frame (s : State) (c : Option (BitVec 12)) (ks : List Nat) : (s.useSlices c ks).frame = s.frame := by
  refine foldl_keeps State.frame (fun t k => ?_) ks s
  dsimp only
  split
  · rfl
  · split
    · exact State.count_frame _ _ _ _ _
    · rfl

theorem State.leaveL2_frame (s : State) (die : Nat) (d : DirLine) : (s.leaveL2 die d).frame = s.frame :=
  ite_keeps State.frame (State.writeBack_frame _ _ _) rfl

theorem State.l2Room_frame (s : State) (d l : Nat) : (s.l2Room d l).frame = s.frame := by
  refine ite_keeps State.frame rfl ?_
  split
  · exact State.leaveL2_frame _ _ _
  · exact ite_keeps State.frame rfl (State.leaveL2_frame _ _ _)

theorem State.atSlices_frame (s : State) (a : Accessor) (va : Nat) (d : DirLine) (m : Met) :
    (s.atSlices a va d m).frame = s.frame := by
  unfold State.atSlices
  dsimp only
  have h1 (x : Option Tile) (ks : List Nat) : ((s.useSlices a.ctx ks).setDir { d with tile := x }).frame = s.frame :=
    State.useSlices_frame _ _ _
  have h2 (x : Option Tile) (ks : List Nat) : (if m.miss then
      ((s.useSlices a.ctx ks).setDir { d with tile := x }).l2Room a.die d.line
      else (s.useSlices a.ctx ks).setDir { d with tile := x }).frame = s.frame :=
    ite_keeps State.frame ((State.l2Room_frame _ _ _).trans (h1 x ks)) (h1 x ks)
  split
  · exact ite_keeps State.frame ((State.fileLine_frame _ _ _ _).trans (h2 _ _)) (h2 _ _)
  · exact h2 _ _

theorem State.fillL1_frame (s : State) (c l : Nat) (r : Option (AgentId × Nat)) : (s.fillL1 c l r).frame = s.frame := by
  refine ite_keeps State.frame rfl ?_
  dsimp only
  split <;> rfl

theorem State.readLine_frame (s : State) (a : Accessor) (va l m : Nat) (r : Option (AgentId × Nat)) :
    (s.readLine a va l m r).1.frame = s.frame := by
  unfold State.readLine
  dsimp only
  split
  · rfl
  · split
    · rfl
    · dsimp only
      split
      · exact ite_keeps State.frame ((State.fillL1_frame _ _ _ _).trans (State.atSlices_frame _ _ _ _ _)) (State.atSlices_frame _ _ _ _ _)
      · exact State.atSlices_frame _ _ _ _ _

theorem State.writeLine_frame (s : State) (a : Accessor) (va l m : Nat) (k : Option Nat) :
    (s.writeLine a va l m k).1.frame = s.frame := by
  unfold State.writeLine
  split
  · rfl
  · exact State.atSlices_frame _ _ _ _ _

theorem State.deviceLine_frame (s : State) (l : Nat) (w : Bool) : (s.deviceLine l w).frame = s.frame :=
  ite_keeps State.frame (State.writeLine_frame _ _ _ _ _ _) (State.readLine_frame _ _ _ _ _ _)

/-! Reads and writes of the device, and trace records. -/

theorem State.clearReservations_frame (s : State) (b : Nat) : (s.clearReservations b).frame = s.frame :=
  ite_keeps State.frame (State.updateAll_frame s fun h => by split <;> rfl) rfl

theorem State.setMem_frame (s : State) (bs : List (Nat × Byte)) : (s.setMem bs).frame = s.frame :=
  show (s.noteCode bs).frame = s.frame from ite_keeps State.frame rfl rfl

theorem State.writeNow_frame (s : State) (pa : Nat) (bs : List Byte) : (s.writeNow pa bs).frame = s.frame := by
  unfold State.writeNow
  extract_lets s1 s2 s3
  have h2 : s2.frame = s.frame :=
    ((State.deviceLine_frame _ _ _).trans (State.setMem_frame _ _)).trans (State.clearReservations_frame _ _)
  have h3 : s3.frame = s.frame := ite_keeps State.frame ((State.onPkg_frame s2 rfl).trans h2) h2
  exact ite_keeps State.frame ((State.onPkg_frame s3 rfl).trans h3) h3

theorem State.writeOrWait_frame (s : State) (pa : Nat) (bs : List Byte) (bad : Bool) :
    (s.writeOrWait pa bs bad).frame = s.frame :=
  ite_keeps State.frame rfl (ite_keeps State.frame (State.writeNow_frame s pa bs) (State.writeNow_frame s pa bs))

theorem State.deviceWrite_frame (s : State) (pa : Nat) (bs : List Byte) : (s.deviceWrite pa bs).frame = s.frame :=
  State.writeOrWait_frame _ _ _ _

theorem State.deviceRead_frame (s : State) (l : Nat) : (s.deviceRead l).frame = s.frame :=
  ite_keeps State.frame (State.deviceLine_frame s l false) (State.deviceLine_frame s l false)

theorem State.noteWalk_frame (s : State) (c : BitVec 12) (va : Nat) : (s.noteWalk c va).frame = s.frame :=
  foldl_keeps State.frame State.deviceRead_frame _ s

theorem State.writeIn_frame {s t : State} {c : BitVec 12} {va : Nat} {bs : List Byte} {l : Late} (h : s.writeIn c va bs l = some t) :
    t.frame = s.frame := by
  unfold State.writeIn at h
  split at h
  · split at h
    · cases h
      exact (State.deviceWrite_frame _ _ _).trans (State.noteWalk_frame _ _ _)
    · cases h
  · cases h
    rfl
  · cases h

theorem State.putRecord_frame (s : State) (c : BitVec 12) (bs : List Byte) : (s.putRecord c bs).1.frame = s.frame := by
  unfold State.putRecord
  extract_lets x size
  split
  · rfl
  · split
    · rfl
    · split
      · exact State.noteWalk_frame _ _ _
      · rename_i u hu
        exact (State.writeIn_frame hu :)

theorem State.trace_frame (s : State) (h : Hart) (k loc d0 d1 : Nat) : (s.trace h k loc d0 d1).frame = s.frame := by
  unfold State.trace
  dsimp only
  split
  · rfl
  · split
    · split
      · exact (State.putRecord_frame _ _ _).trans (State.putRecord_frame _ _ _)
      · exact State.putRecord_frame _ _ _
    · split
      · exact State.putRecord_frame _ _ _
      · rfl

/-! The ends of regions. -/

theorem State.forgetRegion_frame (s : State) (id : AgentId) : (s.forgetRegion id).frame = s.frame := by
  unfold State.forgetRegion
  extract_lets s1
  have h1 : s1.frame = s.frame := State.updateAll_frame s fun h => by split <;> rfl
  exact h1

theorem State.abortRegion_frame (s : State) (id : AgentId) (code : Nat) : (s.abortRegion id code).frame = s.frame := by
  unfold State.abortRegion
  split
  · rfl
  · split
    · rfl
    · extract_lets n status s1 s2
      have h1 : s1.frame = s.frame := State.update_frame s id fun h => by
        unfold Hart.setS
        split <;> rfl
      have h2 : s2.frame = s.frame := (State.forgetRegion_frame s1 id).trans h1
      exact (State.trace_frame _ _ _ _ _ _).trans h2

end Sys2Proof.Machine

/-! Which parts of the machine two states agree on: composition, and the changes that several statements speak of. -/

namespace Sys2Proof.Machine

/-- What the package holds beside its registers: what `SameRegisters` leaves open. -/
def Pkg.contents (p : Pkg) : Pkg :=
  { Pkg.reset with
    drowsy := p.drowsy, slicesUsed := p.slicesUsed, tileCache := p.tileCache, wakes := p.wakes, dir := p.dir, tlb := p.tlb
    wrote := p.wrote, readLines := p.readLines, oldCode := p.oldCode, coreCode := p.coreCode, quadCode := p.quadCode, late := p.late
    poison := p.poison, storePoison := p.storePoison, slotPoison := p.slotPoison, cellPoison := p.cellPoison }

end Sys2Proof.Machine

namespace Sys2Proof.Safety
open Sys2Proof.Machine

theorem Agree.refl (s : State) (p : Part) : Agree s s p := by
  cases p <;> simp only [Agree, and_self]
  rfl

theorem Agree.trans {s t u : State} {p : Part} (h : Agree s t p) (k : Agree t u p) : Agree s u p := by
  cases p
  case package => exact sameRegisters_trans h k
  all_goals
    simp only [Agree] at h k ⊢
    simp only [k, h, and_self]

theorem Keeps.refl (l : List Part) (s : State) : Keeps l s s := fun p _ => Agree.refl s p

theorem Keeps.trans {l : List Part} {s t u : State} (h : Keeps l s t) (k : Keeps l t u) : Keeps l s u :=
  fun p hp => (h p hp).trans (k p hp)

/-- What changes some parts at most changes more of them at most. -/
theorem Keeps.mono {l m : List Part} {s t : State} (h : Keeps l s t) (hlm : l ⊆ m) : Keeps m s t :=
  fun p hp => h p fun hl => hp (hlm hl)

/-! Registers of the package that traffic leaves alone. -/

theorem SameRegisters.tables {p q : Pkg} (h : SameRegisters p q) : q.tables = p.tables := by
  unfold SameRegisters at h
  exact (congrArg Pkg.tables h).trans rfl

theorem SameRegisters.gen {p q : Pkg} (h : SameRegisters p q) : q.gen = p.gen := by
  unfold SameRegisters at h
  exact (congrArg Pkg.gen h).trans rfl

theorem SameRegisters.dead {p q : Pkg} (h : SameRegisters p q) : q.dead = p.dead := by
  unfold SameRegisters at h
  exact (congrArg Pkg.dead h).trans rfl

/-! Changes of one part. -/

theorem keeps_onCore (s : State) (c : Nat) (f : Core → Core) : Keeps [.cores] s (s.onCore c f) := by
  intro p hp
  cases p <;> simp [Agree, SameRegisters] at hp ⊢

/-- A change of the package's registers alone. -/
theorem keeps_onPkg (s : State) (f : Pkg → Pkg) (hf : (f s.pkg).contents = s.pkg.contents) : Keeps [.package] s (s.onPkg f) := by
  intro p hp
  simp only [Pkg.contents, Pkg.mk.injEq] at hf
  cases p <;> simp [Agree, hf] at hp ⊢

/-- A change of what the caches hold alone: no register, no write of the device that waits, and no poison. -/
theorem keeps_caches (s : State) (f : Pkg → Pkg) (hf : SameRegisters s.pkg (f s.pkg)) (hl : (f s.pkg).late = s.pkg.late)
    (hp : Agree s (s.onPkg f) .poison) : Keeps [.caches] s (s.onPkg f) := by
  intro p hc
  cases p
  case poison => exact hp
  all_goals simp [Agree, hf, hl] at hc ⊢

theorem keeps_ctxs (s : State) (x : Sparse Ctx) : Keeps [.contexts] s { s with ctxs := x } := by
  intro p hp
  cases p <;> simp [Agree, SameRegisters] at hp ⊢

/-- Traffic of the device, and the aborts that it causes (R197). -/
theorem keeps_deviceEffects {s t : State} (k : s.Traffic t) (f : t.frame = s.frame) : Keeps deviceEffects s t := by
  obtain ⟨hbare, -, hl, -⟩ : t.hart.bare = s.hart.bare ∧ _ ∧ t.lstore = s.lstore ∧ _ := by
    simpa only [State.frame, Prod.mk.injEq] using f
  have hstill := k.still
  simp only [State.still, Prod.mk.injEq] at hstill
  simp only [Hart.bare, Hart.mk.injEq] at hbare
  intro p hp
  cases p
  case package => exact k.pkg
  all_goals simp [deviceEffects, accessEffects, traceEffects] at hp
  all_goals simp [Agree, hbare, hstill, hl]

end Sys2Proof.Safety

/-! Reset, and the start of a task (R4, R36). -/

namespace Sys2Proof.Machine

/-- An entry of a vector that holds one value throughout, with that value for entries beyond it. -/
theorem getD_replicate {α : Type} (n i : Nat) (x : α) : (Vector.replicate n x).getD i x = x := by
  by_cases h : i < n <;> simp [Vector.getD, h]

theorem Hart.idle_getS (id : AgentId) (n : BitVec 5) : (Hart.idle id).getS n = 0 := by
  simp [Hart.getS, Hart.idle, Vector.get]

theorem Hart.idle_getV (id : AgentId) (n : Nat) : (Hart.idle id).getV n = 0 := by
  simp only [Hart.getV, Hart.idle, getD_replicate, BitVec.ofNat_eq_ofNat, BitVec.toNat_zero]

/-- Mask registers at Reset; m0 reads all true whatever it holds. -/
theorem Hart.getM_of_reset {h : Hart} (hm : h.m = Vector.replicate 12 0) {n : Nat} (hn : n ≠ 0) : h.getM n = 0 := by
  simp only [Hart.getM, if_neg hn, hm, getD_replicate, BitVec.ofNat_eq_ofNat, BitVec.toNat_zero]

theorem Hart.idle_handle (id : AgentId) {i : Nat} (h : i < 32) : (Hart.idle id).h.getD i .full = .free := by
  simp [Hart.idle, Vector.getD, h]

theorem Hart.idle_counter (id : AgentId) (k : OpClass) : (Hart.idle id).cnt.get k = 0 := by
  cases k <;> rfl

theorem Loom.boot_forecast {d : Nat} (h : d < 4) : Loom.boot.forecast.getD d 0 = 1024 := by
  simp [Loom.boot, Vector.getD, h]

end Sys2Proof.Machine

namespace Sys2Proof.Safety
open Sys2Proof.Machine

theorem canonical_reset : Canonical State.reset :=
  ⟨rfl, rfl, rfl, rfl, rfl, rfl, rfl, rfl, rfl, rfl, rfl, rfl, rfl⟩

/-- Settles O56: the reset state is a literal, and a new task holds the registers of a hart with no task but for those that name the
task and its entry. -/
theorem resetState : Obligations.ResetState := by
  refine ⟨fun _ => rfl, fun _ => rfl, ?_, rfl, rfl, rfl, rfl, rfl, fun _ => Loom.boot_forecast, fun _ => ⟨rfl, rfl⟩, rfl, fun _ => rfl,
    canonical_reset, ?_⟩
  · intro h hh
    obtain rfl : h = Hart.idle ⟨0, 0, 0, false⟩ := List.mem_singleton.1 hh
    rfl
  · intro id c split j b task p fenced entry
    exact ⟨Hart.idle_getS id, Hart.idle_getV id, fun _ => Hart.getM_of_reset rfl, rfl, rfl, rfl, rfl, rfl, rfl, rfl,
      fun _ => Hart.idle_handle id, fun q => getD_replicate 8 q none, Hart.idle_counter id, rfl, rfl, rfl, rfl, rfl, rfl, rfl, rfl,
      fun i => getD_replicate 4 i 0, rfl, rfl, rfl, rfl, rfl, rfl, rfl⟩

end Sys2Proof.Safety

namespace Sys2Proof.Safety
open Sys2Proof Sys2Proof.Machine

/-! The refutation of O57. A table may list a key twice where it is not canonical, and the entry that is read then hides another one.
An entry that comes to hold its default leaves the table and uncovers it. -/

/-- A context whose one counter, that of aborts with code 2 (R199), wraps at its next abort: it then holds what a context that does not
exist holds. -/
def wrappingCtx : Ctx := { Ctx.none with ctr := [(1024 * 0x751 + 2, 2 ^ 64 - 1)] }

/-- A context that records aborts in a trace ring of 16 entries at 0x10000, behind tables at 0x3000 and 0x4000. -/
def tracingCtx : Ctx := { Ctx.none with live := true, root := 0x3001, trcBase := 0x10000, trcCfg := 0x204, trcResync := false }

/-- An elastic region that has read line 0x800. -/
def readingRegion : Region where
  strict := false
  pinned := false
  package := false
  begin := 0x2000
  sd := 5
  lines := [⟨0x800, 0x20000, true, false, false⟩]
  buf := []
  ckpt := ⟨Vector.replicate 32 0, Vector.replicate 48 0, Vector.replicate 12 0, 0, 0, 0, 0, 0, [], Vector.replicate 48 0⟩
  partners := []
  stores := 0
  asked := none
  gen := none
  outdone := []
  covered := []

/-- Context 5 listed twice, the tracing one hidden behind the other; a device write has reached the line that the region of the hart
tracks; the tables map the first GiB to itself. -/
def hiddenTracer : State := { State.reset with
  hart := { Hart.idle ⟨0, 0, 0, false⟩ with ctx := 5, region := some readingRegion }
  mem := [(0x3000, 0x01), (0x3001, 0x40), (0x4000, 0x1F)]
  ctxs := [(5, wrappingCtx), (5, tracingCtx)]
  pkg := { Pkg.reset with wrote := [0x800] } }

theorem untraced_hiddenTracer : Untraced hiddenTracer := by
  intro c
  by_cases h : c.toNat = 5 <;> simp [State.ctx, hiddenTracer, Sparse.get, h, wrappingCtx, Ctx.none]

/-- The region aborts, its count uncovers the tracing context, and the abort's record goes to that ring: its first byte holds kind 5. -/
theorem hiddenTracer_records : hiddenTracer.settleLate.settle.mem.byte 0x10000 = 5 := by
  decide +kernel

/-- Refutes O57: the end of a step, as the statement has it for every state, writes no memory where no context traces and no device write
waits. It does in `hiddenTracer`, whose table of contexts is not canonical: the statement lacks that premise. -/
theorem not_stepRunsDecoded : ¬ Obligations.StepRunsDecoded := by
  intro h
  obtain ⟨hsettled, -⟩ := h State.reset
  obtain ⟨-, ⟨b, hb, -, -, hlate⟩, -⟩ := hsettled hiddenTracer
  obtain rfl : hiddenTracer.settleLate.settle = b := Host.Outcome.next.inj hb
  have hmem : hiddenTracer.settleLate.settle.mem = hiddenTracer.mem := (hlate rfl).2 untraced_hiddenTracer
  have hbyte := hiddenTracer_records
  rw [hmem] at hbyte
  exact absurd hbyte (by decide)

end Sys2Proof.Safety

/-! Power, clocks and field repair (R2, R55, R167, R312 to R315). -/

namespace Sys2Proof.Machine

/-- Reading a table whose entries are changed one by one, those that come to hold their default left out. -/
theorem Sparse.get_map_filter {α : Type} [DecidableEq α] {dflt : Nat → α} {l : Sparse α} (h : Sparse.wf dflt l = true) {f : α → α}
    (hf : ∀ k, f (dflt k) = dflt k) (k : Nat) :
    Sparse.get dflt ((l.map fun p => (p.1, f p.2)).filter fun p => decide (p.2 ≠ dflt p.1)) k = f (Sparse.get dflt l k) := by
  induction l with
  | nil => exact (hf k).symm
  | cons p rest ih =>
    obtain ⟨j, u⟩ := p
    obtain ⟨-, ha, hr⟩ := (Sparse.wf_cons j u rest).1 h
    rw [List.map_cons, List.filter_cons]
    by_cases hk : k = j
    · subst hk
      have hrest : f (Sparse.get dflt rest k) = dflt k := by rw [Sparse.get_of_above ha, hf]
      split <;> rename_i hu
      · simp only [Sparse.get, if_pos]
      · rw [ih hr, hrest, Sparse.get, if_pos rfl]
        have hu : f u = dflt k := by simpa using hu
        exact hu.symm
    · split <;> simp only [Sparse.get, if_neg hk, ih hr]

/-! Repair tables. -/

theorem State.table_setTable {s : State} (h : Sparse.wf partTable s.pkg.tables = true) (n i : Nat) (x : Word) (m j : Nat) :
    (s.setTable n i x).table m j = if 1024 * m + j = 1024 * n + i then x else s.table m j :=
  Sparse.get_set h _ _ _

/-! Which bundles keep a repair waiting. -/

/-- Where every bundle that a unit serves waits in a save slot, nothing is pre-empted for its repair. -/
theorem State.vacate_of_saved {s : State} {u : RepairUnit}
    (h : ∀ b ∈ s.loom.bundles, unitServes u b = false ∨ b.slot?.isSome) : s.vacate u = some s := by
  have hnone : (s.loom.bundles.filter fun b => unitServes u b && b.slot?.isNone) = [] := by
    refine List.filter_eq_nil_iff.2 fun b hb hk => ?_
    obtain ⟨hserves, hslot⟩ := Bool.and_eq_true_iff.1 hk
    rcases h b hb with hb | hb
    · exact absurd (hb.symm.trans hserves) Bool.false_ne_true
    · exact absurd hb (by simpa using hslot)
  unfold State.vacate
  rw [hnone]
  rfl

theorem execFieldRepair_of_saved {s : State} {u : RepairUnit} (hr : s.repairable u = true)
    (h : ∀ b ∈ s.loom.bundles, unitServes u b = false ∨ b.slot?.isSome) : execFieldRepair u s = .next (s.repair u) := by
  unfold execFieldRepair
  rw [hr, State.vacate_of_saved h]
  exact ite_self _

theorem execFieldRepair_in_service {s : State} {u : RepairUnit} (hr : s.repairable u = true) (h : staysInService u = true) :
    execFieldRepair u s = .next (s.repair u) := by
  unfold execFieldRepair
  rw [hr, h]
  rfl

/-! The slice that a repair replaces. -/

theorem State.flushSlice_traffic (s : State) (k : Nat) : s.Traffic (s.flushSlice k) :=
  .foldl (fun _ _ => State.leaveL2_traffic _ _ _) _ s

theorem State.flushSlice_frame (s : State) (k : Nat) : (s.flushSlice k).frame = s.frame :=
  foldl_keeps State.frame (fun _ _ => State.leaveL2_frame _ _ _) _ s

theorem State.loseTracking_traffic (s : State) (k : Nat) : s.Traffic (s.loseTracking k) :=
  .foldl (fun _ _ => State.abortRegion_traffic _ _ _) _ s

theorem State.loseTracking_frame (s : State) (k : Nat) : (s.loseTracking k).frame = s.frame :=
  foldl_keeps State.frame (fun _ _ => State.abortRegion_frame _ _ _) _ s

end Sys2Proof.Machine

namespace Sys2Proof.Safety
open Sys2Proof.Machine

theorem keeps_repaired (s : State) (x : BitVec 2) : Keeps [.package] s (s.repaired x) := keeps_onPkg s _ rfl

theorem keeps_setTable (s : State) (n i : Nat) (x : Word) : Keeps [.package] s (s.setTable n i x) := keeps_onPkg s _ rfl

theorem mended_health (s : State) : s.mended.pkg.health ≠ 0 := by
  show (if s.pkg.health = 0 then 1 else s.pkg.health) ≠ 0
  split
  · decide
  · assumption

/-- The place that a unit leaves is noted, and nothing else changes. -/
theorem wear_spec (s : State) (u : RepairUnit) :
    Keeps [.package] s (s.wear u) ∧ (s.wear u).pkg.tables = s.pkg.tables ∧ (s.wear u).pkg.gen = s.pkg.gen := by
  unfold State.wear
  split
  · exact ⟨keeps_onPkg s _ rfl, rfl, rfl⟩
  · exact ⟨Keeps.refl _ s, rfl, rfl⟩

/-- A repair has left x in entry i of a table and every other entry as it was, under the next generation (R50, R314, R315). -/
def Entered (s t : State) (num i : Nat) (x : Word) : Prop :=
  t.table num i = x ∧ (∀ n j, j < 1024 → i < 1024 → (n ≠ num ∨ j ≠ i) → t.table n j = s.table n j) ∧ t.pkg.gen = s.pkg.gen + 1 ∧
    Keeps (.package :: deviceEffects) s t

/-- A repair enters x from a state u in which the unit has left its work and its place. -/
theorem entered_of {s u : State} (hs : Canonical s) (hk : Keeps (.package :: deviceEffects) s u)
    (ht : u.pkg.tables = s.pkg.tables) (hg : u.pkg.gen = s.pkg.gen) (num i : Nat) (x : Word) (health : BitVec 2) :
    Entered s ((u.setTable num i x).repaired health) num i x := by
  obtain ⟨-, -, -, -, -, -, -, -, -, -, hwf, -⟩ := hs
  have hread (n j : Nat) : ((u.setTable num i x).repaired health).table n j = if 1024 * n + j = 1024 * num + i then x else s.table n j :=
    (State.table_setTable (ht ▸ hwf) num i x n j).trans (by rw [State.table, ht]; rfl)
  refine ⟨(hread num i).trans (if_pos rfl), fun n j hj hi hne => (hread n j).trans (if_neg (by omega)), congrArg (· + 1) hg, ?_⟩
  exact hk.trans (((keeps_setTable u num i x).trans (keeps_repaired _ health)).mono (by simp))

theorem entered_now {s : State} (hs : Canonical s) (u : RepairUnit) (num i : Nat) (x : Word) (health : BitVec 2) :
    Entered s (((s.wear u).setTable num i x).repaired health) num i x := by
  obtain ⟨hk, ht, hg⟩ := wear_spec s u
  exact entered_of hs (hk.mono (by simp)) ht hg num i x health

/-- A slice is flushed and its lines are tracked no more before its name moves (R197, R314). -/
theorem entered_flushed {s : State} (hs : Canonical s) (k : Nat) (u : RepairUnit) (num i : Nat) (x : Word) (health : BitVec 2) :
    Entered s (((((s.flushSlice k).loseTracking k).wear u).setTable num i x).repaired health) num i x := by
  have htraffic := (State.flushSlice_traffic s k).trans (State.loseTracking_traffic _ k)
  have hframe := (State.loseTracking_frame (s.flushSlice k) k).trans (State.flushSlice_frame s k)
  obtain ⟨hk, ht, hg⟩ := wear_spec ((s.flushSlice k).loseTracking k) u
  have hkeeps := ((keeps_deviceEffects htraffic hframe).mono (List.subset_cons_self .package _)).trans (hk.mono (by simp))
  exact entered_of hs hkeeps (ht.trans htraffic.pkg.tables) (hg.trans htraffic.pkg.gen) num i x health

/-- Granules become poisoned: those, and what is poisoned alone changes. -/
theorem service_spec (s : State) (gs : List Nat) :
    (∀ g ∈ gs, g ∈ (s.service gs).pkg.poison) ∧ (s.service gs).pkg.health = 3 ∧ (s.service gs).pkg.gen = s.pkg.gen ∧
      Keeps [.package, .poison] s (s.service gs) := by
  cases gs with
  | nil => exact ⟨nofun, rfl, rfl, (keeps_onPkg s _ rfl).mono (by simp)⟩
  | cons g gs =>
    refine ⟨fun x hx => ?_, rfl, rfl, ?_⟩
    · exact List.mem_eraseDups.2 (List.mem_append_right _ hx)
    · intro p hp
      cases p <;> simp [Agree, State.service, State.poisonGranules] at hp ⊢

/-- Failing granules of a unit that stays in service, of whichever class (R315). -/
theorem repair_in_service (s : State) {u : RepairUnit} {k part : Nat} {gs : List Nat}
    (hu : u ∈ RepairUnit.slice k none gs :: (if gs = [] then [] else [.hbm part gs, .link part gs])) :
    staysInService u = true ∧ s.repair u = s.service gs := by
  cases gs with
  | nil =>
    obtain rfl : u = _ := by simpa using hu
    exact ⟨rfl, rfl⟩
  | cons g gs =>
    obtain rfl | rfl | rfl : u = _ ∨ u = _ ∨ u = _ := by simpa using hu
    all_goals exact ⟨rfl, rfl⟩

/-! Power and clocks. -/

/-- DEEP_IDLE_ENTRY (R2, R318): every trace ring starts again. -/
theorem execDeepIdleEntry_spec {s : State} (hctxs : Sparse.wf (fun _ => Ctx.none) s.ctxs = true) :
    ∃ t : State, execDeepIdleEntry s = .next t ∧ t.pkg = { s.pkg with deepIdle := true } ∧ (∀ c, (t.ctx c).trcResync = true) ∧
      (∀ c, (t.ctx c).root = (s.ctx c).root ∧ (t.ctx c).image = (s.ctx c).image) ∧ Keeps [.package, .contexts] s t := by
  have hctx (c : BitVec 12) := Sparse.get_map_filter hctxs (f := fun x => { x with trcResync := true }) (fun _ => rfl) c.toNat
  refine ⟨_, rfl, rfl, fun c => congrArg Ctx.trcResync (hctx c), fun c =>
    ⟨(congrArg Ctx.root (hctx c)).trans rfl, (congrArg Ctx.image (hctx c)).trans rfl⟩, ?_⟩
  exact ((keeps_onPkg s _ rfl).mono (by simp)).trans ((keeps_ctxs _ _).mono (by simp))

/-- The banks of a slice fall asleep when nothing of R167 speaks against it. -/
theorem execL2DrowsyEntry_spec {s : State} {slice : Nat} (hslice : slice < 512)
    (hforecast : (s.loom.forecast.getD (slice / 128) 1024).toNat < 512) (hdrowsy : s.pkg.drowsy.elem slice = false)
    (hmiss : ∀ m ∈ s.pkg.misses, m.1 ≠ slice) (howned : s.sliceOwned slice = false)
    (hused : Sparse.get (fun _ => 0) s.pkg.slicesUsed slice + 20480 ≤ s.now) :
    ∃ t : State, execL2DrowsyEntry slice s = .next t ∧ t.pkg.drowsy = slice :: s.pkg.drowsy ∧ Keeps [.caches] s t := by
  have hf : ¬ 512#16 ≤ s.loom.forecast.getD (slice / 128) 1024 := by
    rw [BitVec.le_def]
    exact Nat.not_le.2 hforecast
  refine ⟨_, if_neg ?_, rfl, keeps_caches s (fun p => { p with drowsy := slice :: p.drowsy }) rfl rfl ⟨rfl, rfl, rfl, rfl⟩⟩
  rintro (h | h | h | h | h | h)
  · omega
  · exact hf h
  · omega
  · exact absurd (howned.symm.trans h) Bool.false_ne_true
  · obtain ⟨m, hm, he⟩ := List.any_eq_true.1 h
    exact hmiss m hm (of_decide_eq_true he)
  · exact absurd (hdrowsy.symm.trans h) Bool.false_ne_true

/-- A bank that holds no live register goes to retention (R55). -/
theorem execRegisterBankRetention_spec {s : State} (hcores : Sparse.wf (fun _ => Core.idle) s.cores = true) {core bank : Nat}
    (hcore : core < 576) (hbank : bank < 16)
    (hlive : bank < 8 → ∀ h ∈ s.coreTasks core, h.id.hart ≠ bank / 2 ^ (3 - s.shareSplit h)) :
    ∃ t : State, execRegisterBankRetention core bank s = .next t ∧ bank ∈ (t.core core).retained ∧ Keeps [.cores] s t := by
  refine ⟨_, if_neg ?_, ?_, keeps_onCore s core fun c =>
    { c with retained := if c.retained.elem bank then c.retained else bank :: c.retained }⟩
  · rintro (h | h | ⟨h8, h⟩)
    · omega
    · omega
    · obtain ⟨k, hk, he⟩ := List.any_eq_true.1 h
      exact hlive h8 k hk (of_decide_eq_true he).symm
  · rw [State.core, State.onCore, Sparse.get_set_self hcores]
    dsimp only
    split
    · rename_i h
      exact List.mem_of_elem_eq_true h
    · exact List.mem_cons_self

end Sys2Proof.Safety

/-! The death of an agent (R188, R189, R316). -/

namespace Sys2Proof.Machine

/-! Records of the Loom leave the bare harts alone, and which agents are dead. -/

theorem State.setQword_frame (s : State) (q : Word) (off x : Nat) : (s.setQword q off x).frame = s.frame :=
  State.deviceWrite_frame _ _ _

theorem State.setStatus_frame (s : State) (pa state code : Nat) : (s.setStatus pa state code).frame = s.frame :=
  State.deviceWrite_frame _ _ _

@[simp] theorem State.decision_counter_frame (s : State) (tenant i : Nat) : (s.decide_ tenant i).frame = s.frame := rfl

theorem State.overrun_frame (s : State) (q : Word) : (s.overrun q).frame = s.frame :=
  (State.decision_counter_frame _ _ _).trans (State.setQword_frame _ _ _ _)

theorem State.writeRecord_frame (s : State) (q : Word) (c : BitVec 12) (va : Nat) (bs : List Byte) :
    (s.writeRecord q c va bs).frame = s.frame := by
  unfold State.writeRecord
  dsimp only
  refine ite_keeps State.frame (State.onPkg_frame _ rfl) ((State.setQword_frame _ _ _ _).trans ?_)
  split
  · rename_i t ht
    exact State.writeIn_frame ht
  · exact (State.overrun_frame _ _).trans (State.noteWalk_frame _ _ _)

theorem State.storeRecord_frame (s : State) (q : Word) (base size : Nat) (ws : List Word) :
    (s.storeRecord q base size ws).frame = s.frame := by
  unfold State.storeRecord
  extract_lets va t
  have ht : t.frame = s.frame := ite_keeps State.frame (State.overrun_frame s q) rfl
  exact (State.writeRecord_frame _ _ _ _ _).trans ht

theorem State.putDecision_frame (s : State) (q : Word) (ws : List Word) : (s.putDecision q ws).frame = s.frame := by
  unfold State.putDecision
  split
  · rfl
  · exact ite_keeps State.frame (ite_keeps State.frame rfl (State.overrun_frame s q)) (State.storeRecord_frame s q _ _ ws)

theorem State.decisionAlone_frame (s : State) (q : Word) (kind : Nat) (job : Word) (bidx eprio hint : Nat) :
    (s.decisionAlone q kind job bidx eprio hint).frame = s.frame :=
  State.putDecision_frame s.fresh _ _

theorem State.failJob_frame (n : Nat) (j : Job) (code : Byte) (s : State) : (State.failJob n j code s).frame = s.frame := by
  induction n generalizing j code s with
  | zero =>
    exact (State.decisionAlone_frame _ _ _ _ _ _ _).trans ((State.setQword_frame _ _ _ _).trans (State.setStatus_frame _ _ _ _))
  | succ n ih =>
    refine (foldl_keeps State.frame (fun t k => ih k 2 t) _ _).trans ?_
    exact (State.decisionAlone_frame _ _ _ _ _ _ _).trans ((State.setQword_frame _ _ _ _).trans (State.setStatus_frame _ _ _ _))

theorem State.fail_frame (s : State) (qcb id : Word) (code : Byte) : (s.fail qcb id code).frame = s.frame := by
  unfold State.fail
  split
  · rfl
  · exact ite_keeps State.frame (State.failJob_frame _ _ _ s) rfl

/-! What traps leave alone beside the harts. -/

/-- Saved harts, the calls and pushes under way, and which agents are dead. -/
def State.transfers (s : State) : List Hart × List XredCall × List Push × List DyingAgent := (s.saved, s.xred, s.pushes, s.pkg.dead)

theorem State.Traffic.transfers {s t : State} (k : s.Traffic t) : t.transfers = s.transfers := by
  have h := k.still
  simp only [State.still, Prod.mk.injEq] at h
  simp only [State.transfers, h, k.pkg.dead]

theorem State.releaseHandle_transfers (s : State) (id : AgentId) (i : Nat) : (s.releaseHandle id i).transfers = s.transfers := by
  unfold State.releaseHandle
  split
  · rfl
  · split
    · rfl
    · exact ite_keeps State.transfers rfl rfl

theorem State.releaseHandles_transfers (s : State) (id : AgentId) : (s.releaseHandles id).transfers = s.transfers :=
  foldl_keeps State.transfers (fun t => t.releaseHandle_transfers id) _ s

theorem State.unhandled_transfers (s : State) : s.unhandled.transfers = s.transfers :=
  (State.dump_traffic _ _).transfers.trans (State.releaseHandles_transfers s _)

theorem State.takeTrap_transfers {s t : State} {code sub n e : Nat} {a : Option Nat} (h : s.takeTrap code sub n e a = .next t) :
    t.transfers = s.transfers := by
  unfold State.takeTrap at h
  extract_lets h0 word fpc s1 s2 back e1 cause a1 s3 s4 at h
  have h1 : s1.transfers = s.transfers := ite_keeps State.transfers rfl rfl
  have h2 : s2.transfers = s.transfers := (State.abortRegion_traffic _ _ _).transfers.trans h1
  have h4 : s4.transfers = s.transfers := (State.trace_traffic _ _ _ _ _ _).transfers.trans h2
  split at h <;> cases h
  · exact (State.unhandled_transfers s4).trans h4
  · exact h4

theorem State.bringForward_transfers (s : State) (id : AgentId) : (s.bringForward id).transfers = s.transfers := by
  refine ite_keeps State.transfers rfl ?_
  split <;> rfl

theorem State.trapHart_transfers (s : State) (id : AgentId) (code sub : Nat) : (s.trapHart id code sub).transfers = s.transfers := by
  unfold State.trapHart
  dsimp only
  split
  · rename_i t ht
    exact (State.bringForward_transfers t _).trans ((State.takeTrap_transfers ht).trans (State.bringForward_transfers s id))
  · rfl

theorem State.loseCopies_transfers (s : State) (h : Hart) : (s.loseCopies h).transfers = s.transfers := by
  refine foldl_keeps State.transfers (fun t i => ?_) _ s
  split
  · rfl
  · exact State.releaseHandle_transfers t h.id i

/-! The harts of a dead core. -/

theorem State.orphanSlots_transfers (s : State) (h : Hart) : (s.orphanSlots h).transfers = s.transfers := by
  refine ite_keeps State.transfers rfl (foldl_keeps State.transfers (fun t i => ?_) _ s)
  rfl

theorem State.freeSlots_transfers (s : State) (h : Hart) : (s.freeSlots h).transfers = s.transfers :=
  ite_keeps State.transfers rfl rfl

theorem State.settleCore_frame (s : State) (gc : Nat) : (s.settleCore gc).frame = s.frame := ite_keeps State.frame rfl rfl

theorem State.removeHarts_pkg (s : State) (p : Hart → Bool) : (s.removeHarts p).pkg = s.pkg := by
  unfold State.removeHarts
  dsimp only
  split
  · split <;> rfl
  · rfl

/-- The harts that stay are those that p does not name; where none stays, an idle one stands first. -/
theorem State.mem_removeHarts {s : State} {p : Hart → Bool} {h : Hart} (hh : h ∈ (s.removeHarts p).harts) :
    p h = false ∨ h = Hart.idle ⟨0, 0, 0, false⟩ := by
  have hrest (k : Hart) (hk : k ∈ s.parked.filter fun h => !p h) : p k = false := by
    simpa using (List.mem_filter.1 hk).2
  unfold State.removeHarts at hh
  dsimp only at hh
  split at hh
  · split at hh
    · rename_i k more hkm
      exact .inl (hrest h (hkm ▸ hh))
    · exact .inr (List.mem_singleton.1 hh)
  · rename_i hp
    rcases List.mem_cons.1 hh with rfl | hk
    · exact .inl (Bool.eq_false_iff.2 hp)
    · exact .inl (hrest h hk)

/-- The harts that a predicate of their bare state names are stopped and leave, and no other agent dies with them. -/
theorem State.killHarts_spec (s : State) {p : Hart → Bool} (hp : ∀ h, p h.bare = p h) :
    (s.killHarts p).pkg.dead = s.pkg.dead ∧ ∀ h ∈ (s.killHarts p).harts, h.active = true → p h = false := by
  unfold State.killHarts
  extract_lets gone s1 s2 s3 s4 s5
  have h1 : s1.transfers = s.transfers := foldl_keeps State.transfers (fun t h => by
    have ht : ((t.abortRegion h.id 8).releaseHandles h.id).transfers = t.transfers :=
      (State.releaseHandles_transfers _ _).trans (State.abortRegion_traffic _ _ _).transfers
    exact ite_keeps State.transfers ((State.orphanSlots_transfers _ _).trans ht) ((State.freeSlots_transfers _ _).trans ht)) _ s
  have hdead : s3.pkg.dead = s.pkg.dead :=
    (congrArg Pkg.dead (State.removeHarts_pkg _ _)).trans (congrArg (·.2.2.2) h1)
  have h4 : s4.frame = s3.frame := foldl_keeps State.frame (f := fun t (h : Hart) => t.settleCore (globalCore h.id))
    (fun t h => t.settleCore_frame _) _ s3
  have h5 : s5.frame = s3.frame := (foldl_keeps State.frame
    (f := fun t (h : Hart) => t.fail h.qcb h.job 6) (fun t _ => t.fail_frame _ _ _) _ s4).trans h4
  have h6 (l : List (Word × Word × Nat)) : (l.foldl (fun s k => match s.bundle k.1 k.2.1 k.2.2 with
      | some b => if s.bundleDone b then s.due (.bundleEnded k.1 k.2.1 k.2.2) else s
      | none => s) s5).frame = s3.frame := by
    refine (foldl_keeps State.frame (fun t k => ?_) l s5).trans h5
    split
    · exact ite_keeps State.frame rfl rfl
    · rfl
  refine ⟨(congrArg (·.2.2.2) (h6 _)).trans hdead, fun h hh ha => ?_⟩
  obtain ⟨k, hk, e⟩ := State.mem_harts_of_frame (h6 _) hh
  rcases State.mem_removeHarts hk with hgone | rfl
  · have hpk : p k = p h := by rw [← hp k, e, hp h]
    have hak : k.active = true := (congrArg Hart.active e).trans ha
    rw [hak, hpk] at hgone
    exact hgone
  · exact absurd ((congrArg Hart.active e).trans ha) Bool.false_ne_true

/-! The engines that die. -/

/-- No operation of a lost matrix engine runs or waits (R316). -/
theorem State.loseMatrix_spec {s : State} (h : Sparse.wf (fun _ => Quad.idle) s.quads = true) (q : Nat) :
    ((s.loseMatrix q).quad q).running = none ∧ ((s.loseMatrix q).quad q).waiting = [] := by
  have hq : (s.loseMatrix q).quad q = { s.quad q with running := none, waiting := [], progress := [] } := Sparse.get_set_self h _ _
  rw [hq]
  exact ⟨rfl, rfl⟩

/-- A saved hart whose push or call is lost (R316). -/
theorem Hart.loseTransfer_spec {h : Hart} (ht : h.pushing.isSome ∨ h.xredCall.isSome) :
    h.loseTransfer.id = h.id ∧ h.loseTransfer.pushing = none ∧ h.loseTransfer.xredCall = none ∧ h.loseTransfer.lost.elem 33 = true := by
  have hor : (h.pushing.isSome || h.xredCall.isSome) = true := by simpa using ht
  unfold Hart.loseTransfer
  rw [if_pos hor]
  refine ⟨rfl, rfl, rfl, ?_⟩
  simp [Hart.lose, List.mem_eraseDups]

/-- The traps of the harts that waited leave the lost transfers as they are. -/
theorem State.loseCollectives_transfers (s : State) :
    s.loseCollectives.transfers = (s.saved.map Hart.loseTransfer, [], [], s.pkg.dead) := by
  unfold State.loseCollectives
  extract_lets hs s1 s2
  exact foldl_keeps State.transfers (f := fun t (h : Hart) => (t.update h.id Hart.transferGone).trapHart h.id 8 4)
    (fun t h => (t.update h.id Hart.transferGone).trapHart_transfers h.id 8 4) hs s2

theorem State.dropCopies_frame (s : State) (core : Nat) : (s.dropCopies core).frame = s.frame :=
  foldl_keeps State.frame (f := fun t (d : DirLine) => t.evictL1 core d.line) (fun _ _ => rfl) _ s

/-- No running hart of a core stands once the core has died. -/
theorem State.vectorCore_dies (s : State) (mine : AgentId → Bool) (core : Nat) :
    let t := ((s.dropUnaccepted mine).killHarts fun h => mine h.id).dropCopies core
    t.pkg.dead = s.pkg.dead ∧ ∀ h ∈ t.harts, h.active = true → mine h.id = false := by
  intro t
  obtain ⟨hdead, hnone⟩ := State.killHarts_spec (s.dropUnaccepted mine) (p := fun h => mine h.id) fun _ => rfl
  have hf := State.dropCopies_frame ((s.dropUnaccepted mine).killHarts fun h => mine h.id) core
  refine ⟨(congrArg (·.2.2.2) hf).trans hdead, fun h hh ha => ?_⟩
  obtain ⟨k, hk, e⟩ := State.mem_harts_of_frame hf hh
  have hid : k.id = h.id := (congrArg Hart.id e).trans rfl
  exact hid ▸ hnone k hk ((congrArg Hart.active e).trans ha)

/-! Readmission. -/

/-- Counting in some contexts changes the contexts alone. -/
theorem State.foldl_count_eq (l : List (BitVec 12)) (s : State) (n i k : Nat) :
    l.foldl (fun s c => s.count c n i k) s = { s with ctxs := (l.foldl (fun s c => s.count c n i k) s).ctxs } := by
  induction l generalizing s with
  | nil => rfl
  | cons c l ih => exact ih (s.count c n i k)

/-- Counting in some contexts raises the counter of each by the number of times that the list names it. -/
theorem State.counter_foldl_count {c : BitVec 12} (n i : Nat) (l : List (BitVec 12)) {s : State}
    (hs : Sparse.wf (fun _ => Ctx.none) s.ctxs = true) (hc : Sparse.wf (fun _ => 0) (s.ctx c).ctr = true) :
    (l.foldl (fun s c => s.count c n i 1) s).counter c n i = s.counter c n i + BitVec.ofNat 64 (l.count c) := by
  induction l generalizing s with
  | nil => simp
  | cons d l ih =>
    have hctx : (s.count d n i 1).ctx c = if c = d then
        { s.ctx c with ctr := Sparse.set (fun _ => 0) (s.ctx c).ctr (1024 * n + i) (s.counter c n i + 1) } else s.ctx c := by
      refine (Sparse.get_set hs _ _ _).trans ?_
      by_cases h : c = d
      · subst h
        rw [if_pos rfl, if_pos rfl]
        rfl
      · rw [if_neg h, if_neg fun e => h (BitVec.eq_of_toNat_eq e)]
        rfl
    have hwf : Sparse.wf (fun _ => 0) ((s.count d n i 1).ctx c).ctr = true := by
      rw [hctx]
      split
      · exact Sparse.wf_set hc _ _
      · exact hc
    have hcounter : (s.count d n i 1).counter c n i = s.counter c n i + if c = d then 1 else 0 := by
      unfold State.counter
      rw [hctx]
      split
      · exact Sparse.get_set_self hc _ _
      · exact (BitVec.add_zero _).symm
    rw [List.foldl_cons, ih (Sparse.wf_set hs _ _) hwf, hcounter, List.count_cons, BitVec.add_assoc]
    by_cases h : c = d
    · subst h
      rw [if_pos rfl, beq_self_eq_true, if_pos rfl, Nat.add_comm, BitVec.ofNat_add]
      rfl
    · rw [if_neg h, if_neg (by simpa using Ne.symm h)]
      exact congrArg (s.counter c n i + ·) (BitVec.zero_add _)

/-- The posts of an old incarnation leave a channel. -/
theorem State.channel_without {s : State} (h : Sparse.wf (fun _ => Channel.idle) s.shuttle = true) (old : AgentId → Bool) (n : Nat) :
    Sparse.get (fun _ => Channel.idle)
      ((s.shuttle.map fun p => (p.1, p.2.without old)).filter fun p => decide (p.2 ≠ Channel.idle)) n = (s.channel n).without old :=
  Sparse.get_map_filter h (f := fun x => x.without old) (fun _ => rfl) n

/-- The contexts of the messages of an agent's old incarnation, once for each message (R188). -/
def State.staleCtxs (s : State) (old : AgentId → Bool) : List (BitVec 12) :=
  (s.oruIn.filter fun m => old m.sender).map (·.ctx) ++ (s.arb.narrowings.filter fun m => old m.partner).map (·.ctx) ++
    s.shuttle.flatMap fun p => (p.2.stale old).filterMap fun _ => p.2.ctx

/-- What is left once the messages of an old incarnation are dropped (R188). -/
theorem State.dropStale_eq (s : State) (a : DyingAgent) : ∃ agenda ctxs, s.dropStale a = { s with
    oruIn := s.oruIn.filter fun m => !decide (coreAgent m.sender = a)
    arb := { s.arb with narrowings := s.arb.narrowings.filter fun m => !decide (coreAgent m.partner = a) }
    shuttle := (s.shuttle.map fun p => (p.1, p.2.without fun id => decide (coreAgent id = a))).filter fun p =>
      decide (p.2 ≠ Channel.idle)
    agenda := agenda
    ctxs := ctxs } :=
  ⟨_, _, State.foldl_count_eq _ _ _ _ _⟩

/-- The messages dropped are counted in their contexts (R188). -/
theorem State.dropStale_counter {s : State} (hs : Sparse.wf (fun _ => Ctx.none) s.ctxs = true) (a : DyingAgent) {c : BitVec 12}
    (hc : Sparse.wf (fun _ => 0) (s.ctx c).ctr = true) : (s.dropStale a).counter c 0x757 0 =
      s.counter c 0x757 0 + BitVec.ofNat 64 ((s.staleCtxs fun id => decide (coreAgent id = a)).count c) :=
  State.counter_foldl_count 0x757 0 (s.staleCtxs fun id => decide (coreAgent id = a)) hs hc

theorem count_map_filter {α β : Type} [DecidableEq β] (l : List α) (p : α → Bool) (f : α → β) (b : β) :
    ((l.filter p).map f).count b = (l.filter fun a => p a && decide (f a = b)).length := by
  rw [List.count, List.countP_map, List.countP_filter, List.countP_eq_length_filter]
  simp only [Function.comp_def, Bool.and_comm, beq_eq_decide]

theorem count_eq_length_filter {β : Type} [DecidableEq β] (l : List β) (b : β) :
    l.count b = (l.filter fun x => decide (x = b)).length := by
  rw [List.count, List.countP_eq_length_filter]
  simp only [beq_eq_decide]

/-- How often a context is among those of the stale messages. -/
theorem State.count_staleCtxs (s : State) (old : AgentId → Bool) (c : BitVec 12) : (s.staleCtxs old).count c =
    (s.oruIn.filter fun m => old m.sender && decide (m.ctx = c)).length +
      (s.arb.narrowings.filter fun m => old m.partner && decide (m.ctx = c)).length +
      ((s.shuttle.flatMap fun p => (p.2.stale old).filterMap fun _ => p.2.ctx).filter fun x => decide (x = c)).length := by
  rw [State.staleCtxs, List.count_append, List.count_append, count_map_filter, count_map_filter, count_eq_length_filter]

end Sys2Proof.Machine

namespace Sys2Proof.Safety
open Sys2Proof Sys2Proof.Machine

/-- AGENT_FATAL_ERROR (R316): the agent is dead, and what died with it is gone. -/
theorem execAgentFatalError_spec {s : State} (hquads : Sparse.wf (fun _ => Quad.idle) s.quads = true) {dead : DyingAgent}
    (hd : s.pkg.dead.elem dead = false) :
    ∃ t : State, execAgentFatalError dead s = .next t ∧ t.pkg.dead.elem dead = true ∧
      (∀ q c, dead = .vectorCore q c → ∀ h ∈ t.harts, h.active = true → ¬ (h.id.control = false ∧ h.id.quad = q ∧ h.id.core = c)) ∧
      (∀ q, dead = .matrixEngine q → (t.quad q).running = none ∧ (t.quad q).waiting = [] ∧ t.acc = s.acc ∧ t.slots = s.slots ∧
        t.mem = s.mem) ∧
      (dead = .cxlPort → t.pkg.hostBias = [] ∧ (∀ r ∈ s.pkg.hostBias, r ∈ t.pkg.lostHost) ∧ Keeps [.package] s t) ∧
      (dead = .collectiveEngine → t.pushes = [] ∧ t.xred = [] ∧ ∀ h ∈ s.saved, h.pushing.isSome ∨ h.xredCall.isSome →
        ∃ k ∈ t.saved, k.id = h.id ∧ k.pushing = none ∧ k.xredCall = none ∧ k.lost.elem 33 = true) ∧
      (∀ q c, dead = .gatherEngine q c → Keeps [.package] s t) ∧ (∀ n, dead = .loom n → Keeps [.package] s t) := by
  have hne : s.pkg.dead.elem dead ≠ true := Bool.eq_false_iff.1 hd
  have hburied {t : State} (h : t.pkg.dead = dead :: s.pkg.dead) : t.pkg.dead.elem dead = true := by
    rw [h]
    exact List.elem_cons_self
  have hbury : Keeps [.package] s (s.onPkg fun p => { p with dead := dead :: p.dead }) := keeps_onPkg s _ rfl
  cases dead with
  | vectorCore q c =>
    obtain ⟨hdead, hnone⟩ := State.vectorCore_dies (s.onPkg fun p => { p with dead := .vectorCore q c :: p.dead })
      (fun id => !id.control && decide (id.quad = q) && decide (id.core = c)) (4 * q + c)
    refine ⟨_, if_neg hne, hburied hdead, ?_, nofun, nofun, nofun, nofun, nofun⟩
    rintro q c ⟨⟩ h hh ha ⟨hcontrol, hquad, hcore⟩
    simpa [hcontrol, hquad, hcore] using hnone h hh ha
  | controlCore q =>
    have hdead := (State.killHarts_spec (s.onPkg fun p => { p with dead := .controlCore q :: p.dead })
      (p := fun h => h.id.control && decide (h.id.quad = q)) fun _ => rfl).1
    exact ⟨_, if_neg hne, hburied hdead, nofun, nofun, nofun, nofun, nofun, nofun⟩
  | copyEngine q c =>
    have htransfers (l : List Hart) (u : State) := foldl_keeps State.transfers State.loseCopies_transfers l u
    exact ⟨_, if_neg hne, hburied (congrArg (·.2.2.2) (htransfers _ _)), nofun, nofun, nofun, nofun, nofun, nofun⟩
  | gatherEngine q c => exact ⟨_, if_neg hne, hburied rfl, nofun, nofun, nofun, nofun, fun _ _ _ => hbury, nofun⟩
  | matrixEngine q =>
    refine ⟨_, if_neg hne, hburied rfl, nofun, ?_, nofun, nofun, nofun, nofun⟩
    rintro q ⟨⟩
    obtain ⟨hrunning, hwaiting⟩ := State.loseMatrix_spec (s := s.onPkg fun p => { p with dead := .matrixEngine q :: p.dead }) hquads q
    exact ⟨hrunning, hwaiting, rfl, rfl, rfl⟩
  | collectiveEngine =>
    have htransfers := State.loseCollectives_transfers (s.onPkg fun p => { p with dead := .collectiveEngine :: p.dead })
    simp only [State.transfers, Prod.mk.injEq] at htransfers
    obtain ⟨hsaved, hxred, hpushes, hdead⟩ := htransfers
    refine ⟨_, if_neg hne, hburied hdead, nofun, nofun, nofun, fun _ => ⟨hpushes, hxred, fun h hh ht => ?_⟩, nofun, nofun⟩
    exact ⟨h.loseTransfer, hsaved ▸ List.mem_map_of_mem hh, Hart.loseTransfer_spec ht⟩
  | loom n => exact ⟨_, if_neg hne, hburied rfl, nofun, nofun, nofun, nofun, nofun, fun _ _ => hbury⟩
  | cxlPort =>
    refine ⟨_, if_neg hne, hburied rfl, nofun, nofun, fun _ => ⟨rfl, fun r hr => ?_, ?_⟩, nofun, nofun, nofun⟩
    · exact List.mem_eraseDups.2 (List.mem_append_left _ hr)
    · exact hbury.trans (keeps_onPkg _ _ rfl)

/-- READMISSION (R188, R316): the agent is back under its next incarnation, and the messages of the old one are dropped and counted. -/
theorem execReadmission_spec {s : State} (hctxs : Sparse.wf (fun _ => Ctx.none) s.ctxs = true)
    (hshuttle : Sparse.wf (fun _ => Channel.idle) s.shuttle = true) {dead : DyingAgent} (hd : s.pkg.dead.elem dead = true) :
    let old := fun (id : AgentId) => decide (coreAgent id = dead)
    ∃ t : State, execReadmission dead s = .next t ∧ t.pkg.dead.elem dead = false ∧
      t.pkg.incarnation dead = s.pkg.incarnation dead + 1 ∧ (dead = .cxlPort → t.pkg.lostHost = []) ∧
      t.oruIn = s.oruIn.filter (fun m => !old m.sender) ∧ t.arb.narrowings = s.arb.narrowings.filter (fun m => !old m.partner) ∧
      t.arb.finals = s.arb.finals ∧ (∀ n, t.channel n = (s.channel n).without old) ∧
      (∀ c, Sparse.wf (fun _ => 0) (s.ctx c).ctr = true →
        t.counter c 0x757 0 = s.counter c 0x757 0 + BitVec.ofNat 64 ((s.staleCtxs old).count c)) ∧
      Keeps [.package, .reductions, .contexts, .agenda, .arbiter, .barriers] s t := by
  intro old
  let u : State := s.onPkg fun p => { p with
    dead := p.dead.filter fun a => decide (a ≠ dead)
    lostHost := if dead = .cxlPort then [] else p.lostHost
    incarnations := (dead, p.incarnation dead + 1) :: p.incarnations.filter fun q => decide (q.1 ≠ dead) }
  obtain ⟨agenda, ctxs, ht⟩ := State.dropStale_eq u dead
  refine ⟨u.dropStale dead, if_pos hd, ?_, ?_, ?_, ?_, ?_, ?_, ?_, ?_, ?_⟩
  · rw [ht]
    simp [u]
  · rw [ht]
    simp [u, Pkg.incarnation]
  · rw [ht]
    exact fun h => if_pos h
  · rw [ht]
    rfl
  · rw [ht]
    rfl
  · rw [ht]
    rfl
  · intro n
    rw [ht]
    exact State.channel_without hshuttle old n
  · intro c hc
    exact State.dropStale_counter (s := u) hctxs dead hc
  · rw [ht]
    intro p hp
    cases p <;> simp [Agree, u] at hp ⊢

/-- Settles O54: each step is one change of the package's registers, or a repair, a death or a return whose shared operations are
device traffic (R197, R314), the stop of harts (R316), and counts (R188). -/
theorem powerAndRepair : Obligations.PowerAndRepair := by
  intro s slice core bank link k l p p9 gs dead hs
  obtain ⟨-, -, -, -, -, hquads, hcores, hshuttle, hctxs, -⟩ := id hs
  refine ⟨⟨_, rfl, rfl, rfl, rfl, rfl, rfl, rfl, rfl, rfl, rfl, rfl, rfl, rfl, rfl, rfl, rfl⟩, ?_, ?_, ⟨_, rfl, rfl, keeps_onPkg s _ rfl⟩,
    ?_, ?_, rfl, ?_, ?_, ?_, rfl, ?_, ?_⟩
  · exact execDeepIdleEntry_spec hctxs
  · intro hd
    exact ⟨_, if_pos hd, rfl, keeps_onPkg s _ rfl⟩
  · exact execL2DrowsyEntry_spec
  · exact execRegisterBankRetention_spec hcores
  · intro hsaved
    refine ⟨_, execFieldRepair_of_saved (u := .link link []) rfl fun b hb => .inr (hsaved b hb), rfl, ?_, keeps_repaired s _⟩
    exact mended_health s
  · intro u hr hsaved spared
    have hexec := execFieldRepair_of_saved hr hsaved
    refine ⟨?_, ?_, ?_, ?_, ?_⟩ <;> rintro rfl
    · exact ⟨_, hexec, entered_now hs _ _ _ _ _⟩
    · exact ⟨_, hexec, entered_now hs _ _ _ _ _⟩
    · exact ⟨_, hexec, entered_flushed hs _ _ _ _ _ _⟩
    · exact ⟨_, hexec, entered_of hs (Keeps.refl _ s) rfl rfl _ _ _ _⟩
    · exact ⟨_, hexec, entered_of hs (Keeps.refl _ s) rfl rfl _ _ _ _⟩
  · intro u hu hr
    obtain ⟨hservice, hrepair⟩ := repair_in_service s hu
    exact ⟨_, (execFieldRepair_in_service hr hservice).trans (by rw [hrepair]), service_spec s gs⟩
  · exact execAgentFatalError_spec hquads
  · intro hd old posts
    obtain ⟨t, ht, hdead, hinc, hport, horu, hnarrow, hfinals, hchannel, hcount, hkeeps⟩ := execReadmission_spec hctxs hshuttle hd
    refine ⟨t, ht, hdead, hinc, hport, horu, hnarrow, hfinals, hchannel, fun c hc => ?_, hkeeps⟩
    exact (hcount c hc).trans (congrArg (s.counter c 0x757 0 + BitVec.ofNat 64 ·) (State.count_staleCtxs s old c))

end Sys2Proof.Safety

/-! What an instruction that writes one scalar register and goes on leaves behind (R36, R313), and what the system registers read as. -/

namespace Sys2Proof.Machine

/-- The parity errors left are those of the slots that were not written (R313). -/
theorem Hart.mem_stillBad (h : Hart) (p : RegSlot → Bool) (r : RegSlot) : r ∈ h.stillBad p ↔ r ∈ h.parity ∧ p r = false := by
  unfold Hart.stillBad
  split
  next hempty => simp [List.isEmpty_iff.1 hempty]
  next => simp

/-- A write of a scalar register mends the parity error of that register alone (R313). -/
theorem Hart.mem_setS_parity (h : Hart) (d : BitVec 5) (x : Word) (r : RegSlot) :
    r ∈ (h.setS d x).parity ↔ r ∈ h.parity ∧ (d = 0 ∨ r ≠ .s d.toNat) := by
  unfold Hart.setS
  split
  next hd => simp [hd]
  next hd => simp only [Hart.mem_stillBad, decide_eq_false_iff_not, hd, false_or, ne_eq]

theorem State.outsideRegion_of_none {s : State} (h : s.hart.region = none) (k : Res) : s.outsideRegion k = k := by
  simp [State.outsideRegion, h]

/-! The registers that an index selects: the value in range, and zero beyond it. -/

/-- cap.quadmap: the physical position of a quad (R50). -/
theorem State.readReg_quadmap (s : State) (i : Nat) :
    s.readReg 0x701 i = if i < 144 then (s.table 0x701 i).toNat else 0 := rfl

/-- ic.lock.lines: the lines that the context has locked in a quad (R178). -/
theorem State.readReg_lockLines (s : State) (i : Nat) :
    s.readReg 0x745 i = if i < 144 then (s.ctx s.hart.ctx).locksIn i else 0 := rfl

/-- l2.wake: the drowsy wakes of a slice (R178). -/
theorem State.readReg_wakes (s : State) (i : Nat) :
    s.readReg 0x747 i = if i < 512 then (s.counter s.hart.ctx 0x747 i).toNat else 0 := rfl

/-- The breakpoints (R305). -/
theorem State.readReg_breakpoint (s : State) (i : Nat) :
    s.readReg 0x7A9 i = if i < 4 then (s.hart.bp.getD i 0).toNat else 0 := rfl

/-- stall.prod: the producer address of a stall entry (R320). -/
theorem State.readReg_producer (s : State) (i : Nat) :
    s.readReg 0x7B8 i = if i < 64 then (s.hart.stall i).prod.toNat else 0 := rfl

end Sys2Proof.Machine

namespace Sys2Proof.Safety
open Sys2Proof Sys2Proof.Machine

theorem wrote_ws (s : State) (d : BitVec 5) (x : Word) : Wrote s (s.ws d x) d x := by
  refine ⟨?_, fun r hr => ?_, Hart.mem_setS_parity s.hart d x⟩
  · by_cases hd : d = 0 <;> simp [State.rs_ws, hd]
  · by_cases h0 : r = 0
    · simp [h0]
    · rw [State.rs_ws, if_neg h0, if_neg hr]

theorem keeps_ws (s : State) (d : BitVec 5) (x : Word) : Keeps [.scalars, .integrity] s (s.ws d x) := by
  intro p hp
  cases p <;> simp [Agree, SameRegisters] at hp ⊢

theorem keeps_skip (s : State) (n : Nat) : Keeps [.pc] s (s.skip n) := by
  intro p hp
  cases p <;> simp [Agree, SameRegisters] at hp ⊢

/-- An instruction gives a value when its answer is the write of the register and the step to the next instruction. -/
theorem gives_of_exec {i : Instr} {s : State} {n : Nat} {d : BitVec 5} {x : Word} (h : exec i s = .next ((s.ws d x).skip n)) :
    Gives i s n d x := by
  have hkeeps : Keeps [.scalars, .pc, .integrity] s ((s.ws d x).skip n) :=
    ((keeps_ws s d x).mono (by decide)).trans ((keeps_skip _ n).mono (by decide))
  exact ⟨_, h, wrote_ws s d x, by simp, hkeeps⟩

/-- getc outside regions, of a register that the context may read (R276). -/
theorem gives_getc {s : State} {num : BitVec 11} (a d : BitVec 5) (hr : s.hart.region = none)
    (hp : privilegedRegister num.toNat = true → privileged s.hart.ctx = true) :
    Gives (.getc num a d) s 4 d (BitVec.ofNat 64 (s.readReg num.toNat (s.rs a).toNat)) := by
  apply gives_of_exec
  have hallowed : ¬ (privilegedRegister num.toNat && !privileged s.hart.ctx) = true := by
    simpa using hp
  calc exec (.getc num a d) s = execGetc num a d s := rfl
    _ = s.give d (BitVec.ofNat 64 (s.readReg num.toNat (s.rs a).toNat)) :=
      (State.outsideRegion_of_none hr _).trans (if_neg hallowed)

/-- Settles O18: getc writes what `State.readReg` says, and that is the register itself, cut off where an index runs out of range. -/
theorem registerReads : Obligations.RegisterReads := by
  intro s num a d i hr hp
  refine ⟨gives_getc a d hr hp, rfl, rfl, rfl, rfl, rfl, rfl, rfl, rfl, rfl, rfl, rfl, rfl, rfl, rfl, rfl, rfl,
    fun h => ?_, fun h => ?_, fun h => ?_, fun h => ⟨?_, ?_⟩, fun h => ?_⟩
  · rw [State.readReg_breakpoint, if_pos h]
  · rw [State.readReg_breakpoint, if_neg (Nat.not_lt.2 h)]
  · rw [State.readReg_wakes, if_neg (Nat.not_lt.2 h)]
  · rw [State.readReg_quadmap, if_neg (Nat.not_lt.2 h)]
  · rw [State.readReg_lockLines, if_neg (Nat.not_lt.2 h)]
  · rw [State.readReg_producer, if_neg (Nat.not_lt.2 h)]

end Sys2Proof.Safety

/-! A word is known by its fields: what the decoder reads of a packed word, where no field stands and where one does. -/

namespace Sys2Proof
open Sys2Proof.Machine Sys2Proof.Safety

/-- Where the fields of a word stand, from the lowest field up: the lowest bit and the width of each. -/
abbrev Layout := List (Nat × Nat)

/-- The n bits from bit lo up belong to no field. -/
def Layout.free (L : Layout) (lo n : Nat) : Bool :=
  L.all fun p => decide (lo + n ≤ p.1) || decide (p.1 + p.2 ≤ lo)

/-- The fields stand apart from each other, on zeros of the fixed bits. -/
def Layout.fits (base : Nat) : Layout → Bool
  | [] => true
  | (lo, n) :: L => decide ((base >>> lo) % 2 ^ n = 0) && Layout.free L lo n && Layout.fits base L

/-- Every field, and the fixed bits with them, ends below bit k. -/
def Layout.within (L : Layout) (base k : Nat) : Bool := L.all (fun p => decide (p.1 + p.2 ≤ k)) && decide (base < 2 ^ k)

/-- The values of the fields of a word. -/
inductive Fields : Layout → Type
  | nil : Fields []
  | cons {lo n : Nat} {L : Layout} (v : BitVec n) (vs : Fields L) : Fields ((lo, n) :: L)

/-- The word of some fields over its fixed bits, as `pack1` to `pack7` have it for one to seven. -/
def Fields.word (base : Nat) : {L : Layout} → Fields L → Nat
  | _, .nil => base
  | _, .cons (lo := lo) v vs => vs.word base + v.toNat * 2 ^ lo

/-- The word holds these values in its fields. -/
def Fields.In (w : Nat) : {L : Layout} → Fields L → Prop
  | _, .nil => True
  | _, .cons (lo := lo) (n := n) v vs => bv w lo n = v ∧ vs.In w

/-- Above a field that stands on zeros, the word is as without it. -/
theorem div_add_field {x l n v k : Nat} (hx : x / 2 ^ l % 2 ^ n = 0) (hv : v < 2 ^ n) (hk : l + n ≤ k) :
    (x + v * 2 ^ l) / 2 ^ k = x / 2 ^ k := by
  obtain ⟨c, rfl⟩ := Nat.exists_eq_add_of_le hk
  obtain ⟨q, hq⟩ := Nat.dvd_of_mod_eq_zero hx
  have hfield : (2 ^ n * q + v) / 2 ^ n = 2 ^ n * q / 2 ^ n := by
    rw [Nat.mul_add_div (Nat.two_pow_pos n), Nat.div_eq_of_lt hv, Nat.add_zero, Nat.mul_div_cancel_left _ (Nat.two_pow_pos n)]
  simp only [Nat.pow_add, ← Nat.div_div_eq_div_mul, Nat.add_mul_div_right _ _ (Nat.two_pow_pos l), hq, hfield]

/-- A field that stands on zeros is read back. -/
theorem read_add_field_self {x l n v : Nat} (hx : x / 2 ^ l % 2 ^ n = 0) (hv : v < 2 ^ n) :
    (x + v * 2 ^ l) / 2 ^ l % 2 ^ n = v := by
  rw [Nat.add_mul_div_right _ _ (Nat.two_pow_pos l), Nat.add_mod, hx, Nat.zero_add, Nat.mod_mod, Nat.mod_eq_of_lt hv]

/-- Beside a field that stands on zeros, the word is as without it. -/
theorem read_add_field {x l n v lo m : Nat} (hx : x / 2 ^ l % 2 ^ n = 0) (hv : v < 2 ^ n) (h : lo + m ≤ l ∨ l + n ≤ lo) :
    (x + v * 2 ^ l) / 2 ^ lo % 2 ^ m = x / 2 ^ lo % 2 ^ m := by
  rcases h with h | h
  · obtain ⟨c, rfl⟩ := Nat.exists_eq_add_of_le h
    have hfield : v * 2 ^ (lo + m + c) = v * 2 ^ c * 2 ^ m * 2 ^ lo := by ring
    rw [hfield, Nat.add_mul_div_right _ _ (Nat.two_pow_pos lo), Nat.add_mul_mod_self_right]
  · rw [div_add_field hx hv h]

theorem Layout.fits_cons {base lo n : Nat} {L : Layout} :
    Layout.fits base ((lo, n) :: L) = true ↔ base / 2 ^ lo % 2 ^ n = 0 ∧ L.free lo n = true ∧ L.fits base = true := by
  simp [Layout.fits, Nat.shiftRight_eq_div_pow, and_assoc]

theorem Layout.free_cons {lo n k m : Nat} {L : Layout} :
    Layout.free ((lo, n) :: L) k m = true ↔ (k + m ≤ lo ∨ lo + n ≤ k) ∧ L.free k m = true := by
  simp [Layout.free]

/-- Where no field stands, a word has its fixed bits. -/
theorem Fields.read_word {base : Nat} {L : Layout} (vs : Fields L) (hl : L.fits base = true) {lo n : Nat} (hf : L.free lo n = true) :
    vs.word base / 2 ^ lo % 2 ^ n = base / 2 ^ lo % 2 ^ n := by
  induction vs generalizing lo n with
  | nil => rfl
  | cons v vs ih =>
    obtain ⟨hz, hv, hl⟩ := Layout.fits_cons.1 hl
    obtain ⟨ha, hf⟩ := Layout.free_cons.1 hf
    rw [Fields.word, read_add_field ((ih hl hv).trans hz) v.isLt ha, ih hl hf]

/-- Beside a field, the word has what it has without that field. -/
theorem Fields.in_add_field {x lo n v : Nat} (hx : x / 2 ^ lo % 2 ^ n = 0) (hv : v < 2 ^ n) {L : Layout} (vs : Fields L)
    (hf : L.free lo n = true) (h : vs.In x) : vs.In (x + v * 2 ^ lo) := by
  induction vs with
  | nil => trivial
  | cons u us ih =>
    obtain ⟨hu, hus⟩ := h
    obtain ⟨ha, hf⟩ := Layout.free_cons.1 hf
    refine ⟨bv_eq _ _ _ ?_, ih hf hus⟩
    rw [read_add_field hx hv ha.symm, ← hu]
    simp [bv]

/-- Where a field stands, a word has its value. -/
theorem Fields.in_word {base : Nat} {L : Layout} (vs : Fields L) (hl : L.fits base = true) : vs.In (vs.word base) := by
  induction vs with
  | nil => trivial
  | cons v vs ih =>
    obtain ⟨hz, hv, hl⟩ := Layout.fits_cons.1 hl
    have hx := (vs.read_word hl hv).trans hz
    exact ⟨bv_eq _ _ _ (read_add_field_self hx v.isLt), vs.in_add_field hx v.isLt hv (ih hl)⟩

/-- A word has no bit above its fields and fixed bits. -/
theorem Fields.word_lt {base : Nat} {L : Layout} (vs : Fields L) (hl : L.fits base = true) {k : Nat} (hk : L.within base k = true) :
    vs.word base < 2 ^ k := by
  induction vs with
  | nil => simpa [Layout.within, Fields.word] using hk
  | cons v vs ih =>
    obtain ⟨hz, hv, hl⟩ := Layout.fits_cons.1 hl
    simp only [Layout.within, List.all_cons, Bool.and_eq_true, decide_eq_true_eq] at hk ih
    obtain ⟨⟨hp, hk⟩, hbase⟩ := hk
    have hx := Nat.div_eq_of_lt (ih hl ⟨hk, hbase⟩)
    rw [← div_add_field ((vs.read_word hl hv).trans hz) v.isLt hp] at hx
    exact Nat.lt_of_div_eq_zero (Nat.two_pow_pos k) hx

/-- What the bits of a word are, where no field stands: those of base. -/
def fixedBits (w base : Nat) (L : Layout) (hi lo : Nat) : Nat :=
  if L.free lo (hi + 1 - lo) then bits base hi lo else bits w hi lo

/-- The word is some values in the fields of the layout, over the fixed bits of base. -/
structure Shape (w base : Nat) (L : Layout) : Prop where
  bits_eq : bits w = fixedBits w base L
  lt : ∀ {k}, L.within base k = true → w < 2 ^ k

theorem Shape.bits_of_free {w base : Nat} {L : Layout} (s : Shape w base L) {hi lo : Nat} (hf : L.free lo (hi + 1 - lo) = true) :
    bits w hi lo = bits base hi lo := by
  rw [s.bits_eq, fixedBits, if_pos hf]

theorem Shape.mod_of_free {w base : Nat} {L : Layout} (s : Shape w base L) {n : Nat} (hn : 0 < n) (hf : L.free 0 n = true) :
    w % 2 ^ n = base % 2 ^ n := by
  have h := s.bits_of_free (hi := n - 1) (lo := 0) (by rwa [Nat.sub_add_cancel hn])
  simpa [Machine.bits, Nat.sub_add_cancel hn] using h

theorem Fields.shape {base : Nat} {L : Layout} (vs : Fields L) (hl : L.fits base = true) : Shape (vs.word base) base L where
  bits_eq := by
    funext hi lo
    rw [fixedBits]
    split
    next hf => rw [Sys2Proof.bits_eq, Sys2Proof.bits_eq, vs.read_word hl hf]
    next => rfl
  lt := vs.word_lt hl

end Sys2Proof

/-! Every instruction from its own word: the decoder's tables undo the encoder's (R58 to R77, R291). -/

namespace Sys2Proof
open Sys2Proof.Machine Sys2Proof.Safety

/-- The word has the size of its kind of instruction, and the table of that kind finds the instruction there, with its must-be-zero
bits at zero. -/
inductive Encoded (i : Instr) (w : Nat) : Prop
  | advice (ha : isAdvice i = true) (hlt : w < 2 ^ 32) (hf : foundAdvice w = some (true, i))
  | word32 (ha : isAdvice i = false) (h4 : w % 4 = 1) (hlt : w < 2 ^ 32) (hr : reservedMajor (bits w 7 2) = false)
      (hf : found32 w = some (true, i))
  | word64 (ha : isAdvice i = false) (h4 : w % 4 = 3) (hlt : w < 2 ^ 64) (hf : found64 w = some (true, i))
  | word16 (ha : isAdvice i = false) (h2 : w % 2 = 0) (hlt : w < 2 ^ 16) (hf : found16 w = (true, i))

/-- The word fits in k bits, and its low n bits, which belong to no field, are r. -/
def Layout.sized (L : Layout) (base k n r : Nat) : Bool := L.within base k && L.free 0 n && decide (base % 2 ^ n = r)

/-- The fixed bits are those of a 32-bit word of an assigned major. -/
def Layout.fixes32 (L : Layout) (base : Nat) : Bool := L.sized base 32 2 1 && L.free 2 6 && !reservedMajor (bits base 7 2)

section
variable {i : Instr} {w base : Nat} {L : Layout}

theorem Shape.sized (s : Shape w base L) {k n r : Nat} (hn : 0 < n) (hc : L.sized base k n r = true) : w < 2 ^ k ∧ w % 2 ^ n = r := by
  simp only [Layout.sized, Bool.and_eq_true, decide_eq_true_eq] at hc
  obtain ⟨⟨hk, hf⟩, hr⟩ := hc
  exact ⟨s.lt hk, (s.mod_of_free hn hf).trans hr⟩

theorem Shape.advice (s : Shape w base L) (ha : isAdvice i = true) (hc : L.within base 32 = true)
    (hf : foundAdvice w = some (true, i)) : Encoded i w :=
  .advice ha (s.lt hc) hf

theorem Shape.word32 (s : Shape w base L) (ha : isAdvice i = false) (hc : L.fixes32 base = true)
    (hf : found32 w = some (true, i)) : Encoded i w := by
  simp only [Layout.fixes32, Bool.and_eq_true, Bool.not_eq_true'] at hc
  obtain ⟨⟨hsize, hmajor⟩, hr⟩ := hc
  obtain ⟨hlt, h4⟩ := s.sized (by decide) hsize
  exact .word32 ha h4 hlt (by rwa [s.bits_of_free hmajor]) hf

theorem Shape.word64 (s : Shape w base L) (ha : isAdvice i = false) (hc : L.sized base 64 2 3 = true)
    (hf : found64 w = some (true, i)) : Encoded i w :=
  have ⟨hlt, h4⟩ := s.sized (by decide) hc
  .word64 ha h4 hlt hf

theorem Shape.word16 (s : Shape w base L) (ha : isAdvice i = false) (hc : L.sized base 16 1 0 = true)
    (hf : found16 w = (true, i)) : Encoded i w :=
  have ⟨hlt, h2⟩ := s.sized (by decide) hc
  .word16 ha h2 hlt hf

end

/-! A word of the encoder holds an instruction when every word of its shape does, with the fields read where they stand. -/

theorem Fields.encoded {i : Instr} {base : Nat} {L : Layout} (vs : Fields L) (hl : L.fits base = true)
    (h : ∀ w, Shape w base L → vs.In w → Encoded i w) : Encoded i (vs.word base) :=
  h _ (vs.shape hl) (vs.in_word hl)

section
variable {base n1 l1 n2 l2 n3 l3 n4 l4 n5 l5 n6 l6 n7 l7 : Nat} {v1 : BitVec n1} {v2 : BitVec n2} {v3 : BitVec n3} {v4 : BitVec n4}
  {v5 : BitVec n5} {v6 : BitVec n6} {v7 : BitVec n7}

theorem encoded_pack1 {f : BitVec n1 → Instr}
    (hl : Layout.fits base [(l1, n1)] = true)
    (h : ∀ w, Shape w base [(l1, n1)] → Encoded (f (bv w l1 n1)) w) :
    Encoded (f v1) (pack1 base l1 v1) :=
  Fields.encoded (.cons v1 .nil) hl
    fun w s => by rintro ⟨rfl, -⟩; exact h w s

theorem encoded_pack2 {f : BitVec n2 → BitVec n1 → Instr}
    (hl : Layout.fits base [(l1, n1), (l2, n2)] = true)
    (h : ∀ w, Shape w base [(l1, n1), (l2, n2)] → Encoded (f (bv w l2 n2) (bv w l1 n1)) w) :
    Encoded (f v2 v1) (pack2 base l2 v2 l1 v1) :=
  Fields.encoded (.cons v1 <| .cons v2 .nil) hl
    fun w s => by rintro ⟨rfl, rfl, -⟩; exact h w s

theorem encoded_pack3 {f : BitVec n3 → BitVec n2 → BitVec n1 → Instr}
    (hl : Layout.fits base [(l1, n1), (l2, n2), (l3, n3)] = true)
    (h : ∀ w, Shape w base [(l1, n1), (l2, n2), (l3, n3)] → Encoded (f (bv w l3 n3) (bv w l2 n2) (bv w l1 n1)) w) :
    Encoded (f v3 v2 v1) (pack3 base l3 v3 l2 v2 l1 v1) :=
  Fields.encoded (.cons v1 <| .cons v2 <| .cons v3 .nil) hl
    fun w s => by rintro ⟨rfl, rfl, rfl, -⟩; exact h w s

theorem encoded_pack4 {f : BitVec n4 → BitVec n3 → BitVec n2 → BitVec n1 → Instr}
    (hl : Layout.fits base [(l1, n1), (l2, n2), (l3, n3), (l4, n4)] = true)
    (h : ∀ w, Shape w base [(l1, n1), (l2, n2), (l3, n3), (l4, n4)] →
      Encoded (f (bv w l4 n4) (bv w l3 n3) (bv w l2 n2) (bv w l1 n1)) w) :
    Encoded (f v4 v3 v2 v1) (pack4 base l4 v4 l3 v3 l2 v2 l1 v1) :=
  Fields.encoded (.cons v1 <| .cons v2 <| .cons v3 <| .cons v4 .nil) hl
    fun w s => by rintro ⟨rfl, rfl, rfl, rfl, -⟩; exact h w s

theorem encoded_pack5 {f : BitVec n5 → BitVec n4 → BitVec n3 → BitVec n2 → BitVec n1 → Instr}
    (hl : Layout.fits base [(l1, n1), (l2, n2), (l3, n3), (l4, n4), (l5, n5)] = true)
    (h : ∀ w, Shape w base [(l1, n1), (l2, n2), (l3, n3), (l4, n4), (l5, n5)] →
      Encoded (f (bv w l5 n5) (bv w l4 n4) (bv w l3 n3) (bv w l2 n2) (bv w l1 n1)) w) :
    Encoded (f v5 v4 v3 v2 v1) (pack5 base l5 v5 l4 v4 l3 v3 l2 v2 l1 v1) :=
  Fields.encoded (.cons v1 <| .cons v2 <| .cons v3 <| .cons v4 <| .cons v5 .nil) hl
    fun w s => by rintro ⟨rfl, rfl, rfl, rfl, rfl, -⟩; exact h w s

theorem encoded_pack6 {f : BitVec n6 → BitVec n5 → BitVec n4 → BitVec n3 → BitVec n2 → BitVec n1 → Instr}
    (hl : Layout.fits base [(l1, n1), (l2, n2), (l3, n3), (l4, n4), (l5, n5), (l6, n6)] = true)
    (h : ∀ w, Shape w base [(l1, n1), (l2, n2), (l3, n3), (l4, n4), (l5, n5), (l6, n6)] →
      Encoded (f (bv w l6 n6) (bv w l5 n5) (bv w l4 n4) (bv w l3 n3) (bv w l2 n2) (bv w l1 n1)) w) :
    Encoded (f v6 v5 v4 v3 v2 v1) (pack6 base l6 v6 l5 v5 l4 v4 l3 v3 l2 v2 l1 v1) :=
  Fields.encoded (.cons v1 <| .cons v2 <| .cons v3 <| .cons v4 <| .cons v5 <| .cons v6 .nil) hl
    fun w s => by rintro ⟨rfl, rfl, rfl, rfl, rfl, rfl, -⟩; exact h w s

theorem encoded_pack7 {f : BitVec n7 → BitVec n6 → BitVec n5 → BitVec n4 → BitVec n3 → BitVec n2 → BitVec n1 → Instr}
    (hl : Layout.fits base [(l1, n1), (l2, n2), (l3, n3), (l4, n4), (l5, n5), (l6, n6), (l7, n7)] = true)
    (h : ∀ w, Shape w base [(l1, n1), (l2, n2), (l3, n3), (l4, n4), (l5, n5), (l6, n6), (l7, n7)] →
      Encoded (f (bv w l7 n7) (bv w l6 n6) (bv w l5 n5) (bv w l4 n4) (bv w l3 n3) (bv w l2 n2) (bv w l1 n1)) w) :
    Encoded (f v7 v6 v5 v4 v3 v2 v1) (pack7 base l7 v7 l6 v6 l5 v5 l4 v4 l3 v3 l2 v2 l1 v1) :=
  Fields.encoded (.cons v1 <| .cons v2 <| .cons v3 <| .cons v4 <| .cons v5 <| .cons v6 <| .cons v7 .nil) hl
    fun w s => by rintro ⟨rfl, rfl, rfl, rfl, rfl, rfl, rfl, -⟩; exact h w s

end

/-- Major 0x34 with bits 31 to 28 at 1: vcvt, whatever its format, which stands in bits 27 to 24. -/
theorem found32_vcvt {w : Nat} (hmajor : bits w 7 2 = 0x34) (hminor : bits w 31 28 = 1) :
    found32 w = some (true, .vcvt (bv w 24 4) (bv w 20 4) (bv w 14 6) (bv w 8 6)) := by
  have hn : bits w 31 24 / 16 = 1 := by
    rw [bits_eq] at hminor ⊢
    omega
  rw [found32, hmajor]
  show major34 w = _
  unfold major34
  generalize bits w 31 24 = n at hn ⊢
  split <;> simp_all

/-- The tables of the decoder find every instruction with an encoding in its own word, by the majors of the encoder: the fixed
bits lead to its row, and each field is read where it stands. The rows that are left have no encoding and are not well formed. -/
theorem encoded_encode (i : Instr) (hi : i.wf = true) : Encoded i (encode i) := by
  cases i with
  | add | sub | and | or | xor | sll | srl | sra | addw | subw | sllw | srlw | sraw | min | max | minu | maxu | andn | orn =>
    exact encoded_pack3 rfl fun w s => s.word32 rfl rfl (by rw [found32, major00, s.bits_eq]; rfl)
  | addi | andi | ori | xori | slli | srli | srai | shori | addiw =>
    exact encoded_pack3 rfl fun w s => s.word32 rfl rfl (by rw [found32, major01, s.bits_eq]; rfl)
  | mul | mulh | mulhu | mulhsu | div | divu | rem | remu | mulw | divw | remw =>
    exact encoded_pack3 rfl fun w s => s.word32 rfl rfl (by rw [found32, major02, s.bits_eq]; rfl)
  | aupc =>
    exact encoded_pack2 rfl fun w s => s.word32 rfl rfl (by rw [found32, major03, s.bits_eq]; rfl)
  | beq | bne | blt | bge | bltu | bgeu =>
    exact encoded_pack3 rfl fun w s => s.word32 rfl rfl (by rw [found32, major04, s.bits_eq]; rfl)
  | jal =>
    exact encoded_pack2 rfl fun w s => s.word32 rfl rfl (by rw [found32, major05, s.bits_eq]; rfl)
  | jalr =>
    exact encoded_pack3 rfl fun w s => s.word32 rfl rfl (by rw [found32, major06, s.bits_eq]; rfl)
  | ret =>
    exact encoded_pack1 rfl fun w s => s.word32 rfl rfl (by rw [found32, major06, s.bits_eq]; rfl)
  | seq | sne | slt | sltu | bext | bdep | rotl | rotr =>
    exact encoded_pack3 rfl fun w s => s.word32 rfl rfl (by rw [found32, major07, s.bits_eq]; rfl)
  | clz | ctz | cpop | rev8 =>
    exact encoded_pack2 rfl fun w s => s.word32 rfl rfl (by rw [found32, major07, s.bits_eq]; rfl)
  | ldb | ldh | ldw | ldd | ldbu | ldhu | ldwu =>
    exact encoded_pack4 rfl fun w s => s.word32 rfl rfl (by rw [found32, major08, s.bits_eq]; rfl)
  | stb | sth | stw | std =>
    exact encoded_pack4 rfl fun w s => s.word32 rfl rfl (by rw [found32, major09, s.bits_eq]; rfl)
  | amoswap | amoadd | amoand | amoor | amoxor | amomin | amomax | amominu | amomaxu | amocas | sc | amoswapW | amoaddW | amoandW
  | amoorW | amoxorW | amominW | amomaxW | amominuW | amomaxuW | amocasW | scW =>
    exact encoded_pack4 rfl fun w s => s.word32 rfl rfl (by rw [found32, major0A, s.bits_eq]; rfl)
  | lr | lrW =>
    exact encoded_pack3 rfl fun w s => s.word32 rfl rfl (by rw [found32, major0A, s.bits_eq]; rfl)
  | setvl =>
    exact encoded_pack6 rfl fun w s => s.word32 rfl rfl (by rw [found32, major0B, s.bits_eq]; rfl)
  | setsw | setrm =>
    exact encoded_pack2 rfl fun w s => s.word32 rfl rfl (by rw [found32, major0B, s.bits_eq]; rfl)
  | getvt | getsw =>
    exact encoded_pack1 rfl fun w s => s.word32 rfl rfl (by rw [found32, major0B, s.bits_eq]; rfl)
  | strip =>
    exact encoded_pack4 rfl fun w s => s.word32 rfl rfl (by rw [found32, major0B, s.bits_eq]; rfl)
  | waitc | arrive =>
    exact encoded_pack4 rfl fun w s => s.word32 rfl rfl (by rw [found32, major0C, s.bits_eq]; rfl)
  | fenceC =>
    exact encoded_pack5 rfl fun w s => s.word32 rfl rfl (by rw [found32, major0C, s.bits_eq]; rfl)
  | fenceCReg =>
    exact encoded_pack2 rfl fun w s => s.word32 rfl rfl (by rw [found32, major0C, s.bits_eq]; rfl)
  | bar | barW =>
    exact encoded_pack3 rfl fun w s => s.word32 rfl rfl (by rw [found32, major0C, s.bits_eq]; rfl)
  | ipost | iwait | launch =>
    exact encoded_pack4 rfl fun w s => s.word32 rfl rfl (by rw [found32, major0D, s.bits_eq]; rfl)
  | mark | yield =>
    exact encoded_pack1 rfl fun w s => s.word32 rfl rfl (by rw [found32, major0D, s.bits_eq]; rfl)
  | getc | setc | ilock | iunlock =>
    exact encoded_pack3 rfl fun w s => s.word32 rfl rfl (by rw [found32, major0E, s.bits_eq]; rfl)
  | trap | tlbsync =>
    exact encoded_pack1 rfl fun w s => s.word32 rfl rfl (by rw [found32, major0E, s.bits_eq]; rfl)
  | eret | fenceI =>
    exact .word32 rfl rfl (by decide) rfl rfl
  | tlbinv =>
    exact encoded_pack2 rfl fun w s => s.word32 rfl rfl (by rw [found32, major0E, s.bits_eq]; rfl)
  | vld =>
    exact encoded_pack4 rfl fun w s => s.word32 rfl rfl (by rw [found32, major10, s.bits_eq]; rfl)
  | vlds =>
    exact encoded_pack5 rfl fun w s => s.word32 rfl rfl (by rw [found32, major11, s.bits_eq]; rfl)
  | vgather =>
    exact encoded_pack5 rfl fun w s => s.word32 rfl rfl (by rw [found32, major12, s.bits_eq]; rfl)
  | vldff =>
    exact encoded_pack4 rfl fun w s => s.word32 rfl rfl (by rw [found32, major13, s.bits_eq]; rfl)
  | vst =>
    exact encoded_pack4 rfl fun w s => s.word32 rfl rfl (by rw [found32, major14, s.bits_eq]; rfl)
  | vsts =>
    exact encoded_pack5 rfl fun w s => s.word32 rfl rfl (by rw [found32, major15, s.bits_eq]; rfl)
  | vscatter =>
    exact encoded_pack5 rfl fun w s => s.word32 rfl rfl (by rw [found32, major16, s.bits_eq]; rfl)
  | vamoAdd | vamoMin | vamoMax | vamoAnd | vamoOr | vamoXor | vamoSwap | damoAdd =>
    exact encoded_pack4 rfl fun w s => s.word32 rfl rfl (by rw [found32, major17, s.bits_eq]; rfl)
  | lsld | lsst =>
    exact encoded_pack3 rfl fun w s => s.word32 rfl rfl (by rw [found32, major18, s.bits_eq]; rfl)
  | lslds | lsgather | lsldq | lssts | lsscatter | lsstq =>
    exact encoded_pack4 rfl fun w s => s.word32 rfl rfl (by rw [found32, major18, s.bits_eq]; rfl)
  | copyCfg =>
    exact encoded_pack4 rfl fun w s => s.word32 rfl rfl (by rw [found32, major19, s.bits_eq]; rfl)
  | qbind | hwaitVis | hstate =>
    exact encoded_pack2 rfl fun w s => s.word32 rfl rfl (by rw [found32, major19, s.bits_eq]; rfl)
  | qunbind | hwaitSrc | hrel =>
    exact encoded_pack1 rfl fun w s => s.word32 rfl rfl (by rw [found32, major19, s.bits_eq]; rfl)
  | vpush | xredO | xredF =>
    exact encoded_pack4 rfl fun w s => s.word32 rfl rfl (by rw [found32, major1A, s.bits_eq]; rfl)
  | treg | thalo =>
    exact encoded_pack4 rfl fun w s => s.word32 rfl rfl (by rw [found32, major1B, s.bits_eq]; rfl)
  | tunreg | tfetch | tinv =>
    exact encoded_pack2 rfl fun w s => s.word32 rfl rfl (by rw [found32, major1B, s.bits_eq]; rfl)
  | tlook | tkeep =>
    exact encoded_pack3 rfl fun w s => s.word32 rfl rfl (by rw [found32, major1B, s.bits_eq]; rfl)
  | xbeginE | xbeginS =>
    exact encoded_pack2 rfl fun w s => s.word32 rfl rfl (by rw [found32, major1C, s.bits_eq]; rfl)
  | xend | xabort | xbndLo | xbndHi | srel =>
    exact encoded_pack1 rfl fun w s => s.word32 rfl rfl (by rw [found32, major1C, s.bits_eq]; rfl)
  | xbnd | sclaim =>
    exact encoded_pack3 rfl fun w s => s.word32 rfl rfl (by rw [found32, major1C, s.bits_eq]; rfl)
  | oclaim | orel =>
    exact encoded_pack1 rfl fun w s => s.word32 rfl rfl (by rw [found32, major1D, s.bits_eq]; rfl)
  | oput | scldA =>
    exact encoded_pack4 rfl fun w s => s.word32 rfl rfl (by rw [found32, major1D, s.bits_eq]; rfl)
  | accget | accput | scldW =>
    exact encoded_pack3 rfl fun w s => s.word32 rfl rfl (by rw [found32, major1D, s.bits_eq]; rfl)
  | accstore =>
    exact encoded_pack2 rfl fun w s => s.word32 rfl rfl (by rw [found32, major1D, s.bits_eq]; rfl)
  | mmaO | mmaF =>
    exact encoded_pack7 rfl fun w s => s.word64 rfl rfl (by rw [found64, s.bits_eq]; rfl)
  | accz | tscl =>
    exact encoded_pack3 rfl fun w s => s.word64 rfl rfl (by rw [found64, s.bits_eq]; rfl)
  | accrdS | accrdP =>
    exact encoded_pack4 rfl fun w s => s.word64 rfl rfl (by rw [found64, s.bits_eq]; rfl)
  | vadd | vsub | vrsub | vmul =>
    exact encoded_pack4 rfl fun w s => s.word32 rfl rfl (by rw [found32, major20, s.bits_eq]; rfl)
  | vmulh | vmulhu | vdiv | vdivu =>
    exact encoded_pack4 rfl fun w s => s.word32 rfl rfl (by rw [found32, major21, s.bits_eq]; rfl)
  | vrem | vremu | vand | vor =>
    exact encoded_pack4 rfl fun w s => s.word32 rfl rfl (by rw [found32, major22, s.bits_eq]; rfl)
  | vxor | vsll | vsrl | vsra =>
    exact encoded_pack4 rfl fun w s => s.word32 rfl rfl (by rw [found32, major23, s.bits_eq]; rfl)
  | vmin | vmax | vminu | vmaxu =>
    exact encoded_pack4 rfl fun w s => s.word32 rfl rfl (by rw [found32, major24, s.bits_eq]; rfl)
  | vsadd | vsaddu | vssub | vssubu =>
    exact encoded_pack4 rfl fun w s => s.word32 rfl rfl (by rw [found32, major25, s.bits_eq]; rfl)
  | vseq | vsne | vslt | vsltu =>
    exact encoded_pack4 rfl fun w s => s.word32 rfl rfl (by rw [found32, major26, s.bits_eq]; rfl)
  | vsle | vsleu | vmerge | vavg =>
    exact encoded_pack4 rfl fun w s => s.word32 rfl rfl (by rw [found32, major27, s.bits_eq]; rfl)
  | vfadd | vfsub | vfmul | vfdiv =>
    exact encoded_pack4 rfl fun w s => s.word32 rfl rfl (by rw [found32, major28, s.bits_eq]; rfl)
  | vfmin | vfmax | vfsgnj | vfsgnjn =>
    exact encoded_pack4 rfl fun w s => s.word32 rfl rfl (by rw [found32, major29, s.bits_eq]; rfl)
  | vfsgnjx | vfeq | vfne | vflt =>
    exact encoded_pack4 rfl fun w s => s.word32 rfl rfl (by rw [found32, major2A, s.bits_eq]; rfl)
  | vfle | vfmerge =>
    exact encoded_pack4 rfl fun w s => s.word32 rfl rfl (by rw [found32, major2B, s.bits_eq]; rfl)
  | vadds | vsubs | vrsubs | vmuls | vands | vors | vxors | vslls =>
    exact encoded_pack4 rfl fun w s => s.word32 rfl rfl (by rw [found32, major30, s.bits_eq]; rfl)
  | vsrls | vsras | vmins | vmaxs | vseqs | vslts | vsgts =>
    exact encoded_pack4 rfl fun w s => s.word32 rfl rfl (by rw [found32, major31, s.bits_eq]; rfl)
  | vmvs =>
    exact encoded_pack3 rfl fun w s => s.word32 rfl rfl (by rw [found32, major31, s.bits_eq]; rfl)
  | vfadds | vfsubs | vfrsubs | vfmuls | vfdivs | vfrdivs | vfmins | vfmaxs =>
    exact encoded_pack4 rfl fun w s => s.word32 rfl rfl (by rw [found32, major32, s.bits_eq]; rfl)
  | vfeqs | vflts | vfgts =>
    exact encoded_pack4 rfl fun w s => s.word32 rfl rfl (by rw [found32, major33, s.bits_eq]; rfl)
  | vfmvs =>
    exact encoded_pack3 rfl fun w s => s.word32 rfl rfl (by rw [found32, major33, s.bits_eq]; rfl)
  | vmv | vnot | vabs | vneg | vfabs | vfneg | vfsqrt | vfrecip | vfrsqrt | vfclass | vquant | vdequant =>
    exact encoded_pack3 rfl fun w s => s.word32 rfl rfl (by rw [found32, major34, s.bits_eq]; rfl)
  | vcvt =>
    exact encoded_pack4 rfl fun w s => s.word32 rfl rfl (found32_vcvt (s.bits_of_free rfl) (s.bits_of_free rfl))
  | vredsumO | vredsumT | vredmin | vredmax | vredand | vredor | vredxor | vfredsumO | vfredsumT | vfredmin | vfredmax | vscanO
  | vscanT | vfscanO | vfscanT =>
    exact encoded_pack3 rfl fun w s => s.word32 rfl rfl (by rw [found32, major36, s.bits_eq]; rfl)
  | vsegsum | vfsegsum | vsegscan | vfsegscan =>
    exact encoded_pack4 rfl fun w s => s.word32 rfl rfl (by rw [found32, major37, s.bits_eq]; rfl)
  | vrgather | vzip | vunzip =>
    exact encoded_pack4 rfl fun w s => s.word32 rfl rfl (by rw [found32, major38, s.bits_eq]; rfl)
  | vcompress =>
    exact encoded_pack3 rfl fun w s => s.word32 rfl rfl (by rw [found32, major38, s.bits_eq]; rfl)
  | vslideup | vslidedown | vslide1up | vslide1down | vfslide1up | vfslide1down =>
    exact encoded_pack4 rfl fun w s => s.word32 rfl rfl (by rw [found32, major39, s.bits_eq]; rfl)
  | viota | vid =>
    exact encoded_pack3 rfl fun w s => s.word32 rfl rfl (by rw [found32, major39, s.bits_eq]; rfl)
  | mand | mor | mxor | mandn =>
    exact encoded_pack3 rfl fun w s => s.word32 rfl rfl (by rw [found32, major3A, s.bits_eq]; rfl)
  | mnot | mfirst | mpopc | msbf | msif | msof =>
    exact encoded_pack3 rfl fun w s => s.word32 rfl rfl (by rw [found32, major3B, s.bits_eq]; rfl)
  | vfmadd | vfmsub | vfnmadd | vfnmsub =>
    exact encoded_pack4 rfl fun w s => s.word32 rfl rfl (by rw [found32, major3C, s.bits_eq]; rfl)
  | vmacc | vnmsac | vmadd | vnmsub =>
    exact encoded_pack4 rfl fun w s => s.word32 rfl rfl (by rw [found32, major3D, s.bits_eq]; rfl)
  | hint =>
    exact encoded_pack1 rfl fun w s => s.word32 rfl rfl (by rw [found32, major3F, s.bits_eq]; rfl)
  | cAddi | cAdd | cSub | cAnd | cOr | cXor | cSlli | cSrli | cSrai | cBeq | cBne | cJalr =>
    exact encoded_pack2 rfl fun w s => s.word16 rfl rfl (by rw [found16, s.bits_eq]; rfl)
  | cLdd | cStd =>
    exact encoded_pack3 rfl fun w s => s.word16 rfl rfl (by rw [found16, s.bits_eq]; rfl)
  | cJal | cMark =>
    exact encoded_pack1 rfl fun w s => s.word16 rfl rfl (by rw [found16, s.bits_eq]; rfl)
  | anop | aend =>
    exact .advice rfl (by decide) rfl
  | ali | apfL1 | apfL2 | apfTc | atfetch =>
    exact encoded_pack2 rfl fun w s => s.advice rfl rfl (by rw [foundAdvice, s.bits_eq]; rfl)
  | ashor | aadd | aaddi | asll | abeq | abne | akeep =>
    exact encoded_pack3 rfl fun w s => s.advice rfl rfl (by rw [foundAdvice, s.bits_eq]; rfl)
  | amark | ajmp | await | adelay | aprio | aorder | aplace =>
    exact encoded_pack1 rfl fun w s => s.advice rfl rfl (by rw [foundAdvice, s.bits_eq]; rfl)
  | _ => exact absurd hi Bool.false_ne_true

/-- The halfword 0 is c.addi s0, 0, which no well-formed instruction is (R59). -/
theorem ne_zero_of_found16 {i : Instr} {w : Nat} (hf : found16 w = (true, i)) (hi : i.wf = true) : w ≠ 0 := by
  rintro rfl
  obtain ⟨-, rfl⟩ := Prod.mk.inj hf
  exact absurd hi (by decide +kernel)

/-- Settles O59: the tables find every instruction in its own word (`encoded_encode`), and the checks of the decoder before and after
them let it through. -/
theorem encodeDecode : Obligations.EncodeDecode := by
  intro i hi
  cases encoded_encode i hi with
  | advice ha hlt hf => exact ⟨fun _ => ⟨hlt, decodeAdvice_of_found hf hi⟩, fun h => by simp [ha] at h⟩
  | word32 ha h4 hlt hr hf =>
    refine ⟨fun h => by simp [ha] at h, fun _ => ⟨by simpa [h4] using hlt, fun control masked _ hplace => ?_⟩⟩
    obtain ⟨hm, hk⟩ := hplace h4
    exact decode_of_found32 h4 hlt hr hm hk hf hi
  | word64 ha h4 hlt hf =>
    refine ⟨fun h => by simp [ha] at h, fun _ => ⟨by simpa [h4] using hlt, fun control masked hcontrol _ => ?_⟩⟩
    rw [hcontrol h4]
    exact decode_of_found64 h4 hlt hf hi
  | word16 ha h2 hlt hf =>
    refine ⟨fun h => by simp [ha] at h, fun _ => ⟨?_, fun control masked _ _ =>
      decode_of_found16 h2 hlt (ne_zero_of_found16 hf hi) hf hi⟩⟩
    split
    · omega
    · omega
    · exact hlt

/-- Settles O58: the kernel evaluates the decoder at each word. -/
theorem decodeWords : Obligations.DecodeWords := by
  unfold Obligations.DecodeWords
  decide +kernel

end Sys2Proof

/-! Illegal words, trap and eret (R70, R278, R303). -/

namespace Sys2Proof.Safety
open Sys2Proof Sys2Proof.Machine

/-- A form that a region forbids aborts it and does nothing else (R199). -/
theorem outsideRegion_of_region {s : State} (h : s.hart.region ≠ none) (k : Res) :
    s.outsideRegion k = .next (s.abortRegion s.hart.id 4) :=
  if_pos (Option.isSome_iff_ne_none.2 h)

/-- The address an agent resumes at: the low 48 bits with bit 0 dropped (log 40). -/
theorem setWidth_and_not_one (a : Word) : a.setWidth 48 &&& ~~~1#48 = BitVec.ofNat 48 (a.toNat / 2 * 2) := by
  apply BitVec.eq_of_getLsbD_eq
  intro i hi
  simp only [BitVec.getLsbD_and, BitVec.getLsbD_setWidth, BitVec.getLsbD_not, BitVec.getLsbD_ofNat, hi]
  cases i with
  | zero => simp
  | succ j =>
    have hhalf : a.toNat / 2 * 2 / 2 = a.toNat / 2 := Nat.mul_div_cancel _ (by decide)
    simp [BitVec.getLsbD, Nat.testBit_succ, hhalf]

/-- Dropping bit 32 of trap.cause leaves no trap being served (R302). -/
theorem testBit_clear_serving (x : Word) : (x &&& ~~~(1#64 <<< 32)).toNat.testBit 32 = false := by
  rw [BitVec.toNat_and, Nat.testBit_and]
  exact Bool.and_eq_false_imp.2 fun _ => by decide

/-- The return of eret, while a trap is being served (R303). -/
theorem returnFromTrap_serving {s : State} (h : s.hart.trap.cause.toNat.testBit 32 = true) :
    ∃ done, s.returnFromTrap = .next (s.on fun g => { g with
      pc := s.hart.trap.pc.setWidth 48 &&& ~~~1#48
      vstart := s.hart.trap.elem.setWidth 11
      trap := { s.hart.trap with cause := s.hart.trap.cause &&& ~~~(1#64 <<< 32) }
      bpDone := done }) := by
  unfold State.returnFromTrap
  simp only [h]
  exact ⟨_, rfl⟩

/-- Settles O14: each form is its trap or its return, and a region forbids trap n. -/
theorem trapInstructions : Obligations.TrapInstructions := by
  intro s sub n
  refine ⟨rfl, fun hr => State.outsideRegion_of_none hr _, fun hr => outsideRegion_of_region hr _, fun hr hc => ?_, fun hr hc => ?_⟩
  · calc exec .eret s = s.returnFromTrap := State.outsideRegion_of_none hr _
      _ = s.takeTrap 6 2 0 0 none := if_pos (by rw [hc]; rfl)
  · obtain ⟨done, hret⟩ := returnFromTrap_serving hc
    refine ⟨_, (State.outsideRegion_of_none hr _).trans hret, setWidth_and_not_one _,
      (BitVec.ofNat_toNat 11 s.hart.trap.elem).symm, testBit_clear_serving _, fun p hp => ?_⟩
    cases p <;> simp [Agree, SameRegisters] at hp ⊢

end Sys2Proof.Safety

/-! Privileged registers (R93, R276, R277, R309). -/

namespace Sys2Proof
open Sys2Proof.Machine Sys2Proof.Safety

/-- A 32-bit word of an assigned minor whose must-be-zero bits or field values the checks refuse: subcode 2 (R70). -/
theorem decode_of_found32_reserved {control : Bool} {masked w : Nat} {z : Bool} {i : Instr} (h4 : w % 4 = 1) (hlt : w < 2 ^ 32)
    (hr : reservedMajor (bits w 7 2) = false) (hm : misplaced control w = none) (hk : maskedOut masked w = false)
    (hf : found32 w = some (z, i)) (hi : i.wf = false) : decode control masked w = .illegalInstruction 2 := by
  have h32 : w % 2 ^ 32 = w := Nat.mod_eq_of_lt hlt
  unfold decode
  rw [h4, h32]
  unfold decode32
  rw [hr, hm, hf]
  simp [hk, hi]

/-- A getc of a register that cannot be read is a reserved field value (R70, R276): its major, 0x0E, stands on every agent and is no
optional feature's. -/
theorem decode_encode_getc_unreadable {num : BitVec 11} (h : registerReads num.toNat = false) (a d : BitVec 5) (control : Bool)
    (masked : Nat) : decode control masked (encode (.getc num a d)) = .illegalInstruction 2 := by
  let fields : Fields [(8, 5), (13, 5), (21, 11)] := .cons d <| .cons a <| .cons num .nil
  have s : Shape (encode (.getc num a d)) 0x39 [(8, 5), (13, 5), (21, 11)] := fields.shape rfl
  have hmajor : bits (encode (.getc num a d)) 7 2 = 0x0E := s.bits_of_free rfl
  obtain ⟨hlt, h4⟩ := s.sized (k := 32) (n := 2) (r := 1) (by decide) rfl
  have hfound : found32 (encode (.getc num a d)) = some (true, .getc num a d) := by
    obtain ⟨hd, ha, hnum, -⟩ : fields.In (encode (.getc num a d)) := fields.in_word rfl
    have hrow : found32 (encode (.getc num a d)) = some (true, .getc (bv (encode (.getc num a d)) 21 11)
        (bv (encode (.getc num a d)) 13 5) (bv (encode (.getc num a d)) 8 5)) := by
      rw [found32, major0E, s.bits_eq]
      rfl
    rw [hrow, hd, ha, hnum]
  refine decode_of_found32_reserved h4 hlt (by rw [hmajor]; rfl) ?_ ?_ hfound h
  · rw [misplaced, hmajor]
    cases control <;> rfl
  · rw [maskedOut, featureOf, hmajor]
    rfl

end Sys2Proof

namespace Sys2Proof.Safety
open Sys2Proof Sys2Proof.Machine

/-- Settles O20: outside regions both forms check the hart's context first, and the registers that are left have no getc (R276). -/
theorem privilegedRegisters : Obligations.PrivilegedRegisters := by
  intro s num a j d hr hc
  refine ⟨fun hnum => ?_, ?_, fun hnum => ?_⟩
  · have hreg : privilegedRegister num.toNat = true := by
      revert hnum
      generalize num.toNat = n
      revert n
      decide
    have hdenied : s.writeDenied num.toNat (s.rs j) = true := by
      simp [State.writeDenied, hc, hreg]
    exact (State.outsideRegion_of_none hr _).trans (if_pos hdenied)
  · exact (State.outsideRegion_of_none hr _).trans (if_pos (by rw [hc]; rfl))
  · have hread : Sys2Proof.registerReads num.toNat = false := by
      revert hnum
      generalize num.toNat = n
      revert n
      decide
    exact ⟨hread, fun control => decode_encode_getc_unreadable hread a d control 0⟩

end Sys2Proof.Safety

/-! Granting the vector length (R35, R88, R106). -/

namespace Sys2Proof.Machine

/-! Packed numbers (R34). -/

theorem pack_lt (w n : Nat) (f : Nat → Nat) : pack w n f < 2 ^ (w * n) := by
  induction n with
  | zero => exact Nat.one_pos
  | succ n ih =>
    have hf : f n % 2 ^ w < 2 ^ w := Nat.mod_lt _ (Nat.two_pow_pos w)
    calc pack w n f + (f n % 2 ^ w) <<< (w * n) = pack w n f + f n % 2 ^ w * 2 ^ (w * n) := by rw [Nat.shiftLeft_eq]
      _ < 2 ^ (w * n) + f n % 2 ^ w * 2 ^ (w * n) := Nat.add_lt_add_right ih _
      _ = (f n % 2 ^ w + 1) * 2 ^ (w * n) := by ring
      _ ≤ 2 ^ w * 2 ^ (w * n) := Nat.mul_le_mul_right _ hf
      _ = 2 ^ (w * (n + 1)) := by rw [Nat.mul_succ, Nat.pow_add, Nat.mul_comm]

theorem elem_pack (w : Nat) {n e : Nat} (f : Nat → Nat) (h : e < n) : elem (pack w n f) w e = f e % 2 ^ w := by
  induction n with
  | zero => exact absurd h (Nat.not_lt_zero e)
  | succ n ih =>
    rw [elem, pack, Nat.shiftLeft_eq, Nat.shiftRight_eq_div_pow]
    rcases Nat.lt_succ_iff_lt_or_eq.1 h with h | rfl
    · have hlow : w * e + w ≤ w * n := Nat.mul_le_mul_left w h
      rw [← ih h, elem, Nat.shiftRight_eq_div_pow]
      obtain ⟨c, hc⟩ := Nat.exists_eq_add_of_le hlow
      have hterm : f n % 2 ^ w * 2 ^ (w * n) = f n % 2 ^ w * 2 ^ c * 2 ^ w * 2 ^ (w * e) := by
        rw [hc]
        ring
      rw [hterm, Nat.add_mul_div_right _ _ (Nat.two_pow_pos _), Nat.add_mul_mod_self_right]
    · rw [Nat.add_mul_div_right _ _ (Nat.two_pow_pos _), Nat.div_eq_of_lt (pack_lt w e f), Nat.zero_add, Nat.mod_mod]

/-! Rows that return to the row pool (R35). -/

theorem getD_ofFn {α : Type} {n : Nat} (f : Fin n → α) (i : Nat) (x : α) :
    (Vector.ofFn f).getD i x = if h : i < n then f ⟨i, h⟩ else x := by
  by_cases h : i < n <;> simp [Vector.getD, h]

theorem Hart.lanes_le (h : Hart) : h.lanes ≤ 32 := Nat.div_le_self _ _

/-- What returned rows change: vector registers, the row pool and the number of the next free value. -/
theorem State.returnRows_eq (s : State) :
    ∃ v pooled free, s.returnRows = { s with hart := { s.hart with v := v, pooled := pooled }, free := free } := by
  unfold State.returnRows
  dsimp only
  split
  · exact ⟨s.hart.v, s.hart.pooled, s.free, rfl⟩
  · exact ⟨_, _, _, rfl⟩

/-- Register n after its rows have returned: each 64-bit slot is as it was, or it reads as zero and its row holds no element below vl. -/
theorem State.elem_returnRows (s : State) (n : Nat) {k : Nat} (hk : k < 4 * s.hart.lanes) :
    elem (s.returnRows.hart.getV n) 64 k = elem (s.hart.getV n) 64 k ∨
      elem (s.returnRows.hart.getV n) 64 k = 0 ∧ s.hart.vl.toNat ≤ k / s.hart.lanes * (s.hart.lanes * (64 / s.hart.sew)) := by
  unfold State.returnRows
  extract_lets h gone
  split
  · exact .inl rfl
  · simp only [Hart.getV, State.on_hart, getD_ofFn]
    split
    next hn =>
      have hsize : 64 * (4 * h.lanes) ≤ 8192 := by
        have := h.lanes_le
        omega
      rw [BitVec.toNat_ofNat, Nat.mod_eq_of_lt ((pack_lt _ _ _).trans_le (Nat.pow_le_pow_right (by decide) hsize)), elem_pack 64 _ hk]
      split
      next hgone =>
        right
        simp only [gone, Hart.unreached, Bool.and_eq_true, decide_eq_true_eq] at hgone
        exact ⟨rfl, hgone.1.1⟩
      next => exact .inl (Nat.mod_eq_of_lt (Nat.mod_lt _ (Nat.two_pow_pos 64)))
    next hn =>
      left
      have hbeyond : s.hart.v.getD n 0 = 0 := by simp [Vector.getD, hn]
      rw [hbeyond]

/-- No row returns under another tail policy than tail-dead. -/
theorem State.returnRows_of_kept {s : State} (h : s.hart.tailPolicy ≠ 1) : s.returnRows = s := by
  unfold State.returnRows
  simp only [h, ne_eq, not_false_eq_true, decide_true, Bool.true_or, if_true]

/-! The grant (R106). -/

/-- Every grant fits in vl and vl.pad. -/
theorem grant_bounds {n B mvl : Nat} (_hB : B ≤ mvl) (hmvl : mvl ≤ 1024) (hB128 : B ≤ 128) :
    (grant n B mvl).1 < 2 ^ 11 ∧ (grant n B mvl).2 < 2 ^ 7 := by
  unfold grant
  split
  · omega
  · split
    · decide
    · split
      · omega
      · have := Nat.min_le_right (n - n % B) mvl
        omega

/-- The block lengths by their code (R37). -/
theorem blockLength_eq (b : BitVec 2) : blockLength b = [0, 32, 64, 128].getD b.toNat 0 := by
  revert b
  decide

/-- No split and format has more than 1,024 elements (R33). -/
theorem mvl_le (split : BitVec 2) (fmt : Fmt) : 4 * (32 / 2 ^ split.toNat) * (64 / fmt.sew) ≤ 1024 := by
  have hlanes : 32 / 2 ^ split.toNat ≤ 32 := Nat.div_le_self _ _
  have hper : 64 / fmt.sew ≤ 8 := by cases fmt <;> decide
  calc 4 * (32 / 2 ^ split.toNat) * (64 / fmt.sew) ≤ 4 * 32 * 8 := Nat.mul_le_mul (Nat.mul_le_mul_left 4 hlanes) hper
    _ = 1024 := rfl

/-- vt with a new type under an old rounding mode (R37, R106). -/
def typeWord (r : Nat) (p : BitVec 1) (t b : BitVec 2) (f : BitVec 4) : BitVec 11 :=
  BitVec.ofNat 11 (r * 512 + p.toNat * 256 + t.toNat * 64 + b.toNat * 16 + f.toNat)

theorem typeWord_fields {r : Nat} (hr : r < 4) (p : BitVec 1) (t b : BitVec 2) (f : BitVec 4) :
    let w := (typeWord r p t b f).toNat
    bits w 3 0 = f.toNat ∧ bits w 5 4 = b.toNat ∧ bits w 7 6 = t.toNat ∧ bits w 8 8 = p.toNat ∧ bits w 10 9 = r := by
  have hp := p.isLt
  have ht := t.isLt
  have hb := b.isLt
  have hf := f.isLt
  have hw : (typeWord r p t b f).toNat = r * 512 + p.toNat * 256 + t.toNat * 64 + b.toNat * 16 + f.toNat := by
    rw [typeWord, BitVec.toNat_ofNat, Nat.mod_eq_of_lt (by omega)]
  simp only [hw, bits_eq]
  omega

/-- The hart after a grant (R106), before the rows that vl does not reach return. -/
def Hart.granted (g : Nat × Nat) (p : BitVec 1) (t b : BitVec 2) (f : BitVec 4) (h : Hart) : Hart :=
  { h.setVl g with setvlDone := true, vt := typeWord (bits h.vt.toNat 10 9) p t b f }

/-! A pending split (R88). -/

/-- The split of a core given to a hart that is in it. -/
def Hart.splitIn (c : Nat) (n : BitVec 2) (h : Hart) : Hart :=
  if !h.id.control && decide (globalCore h.id = c) then { h with split := n } else h

theorem Hart.splitIn_eq (c : Nat) (n : BitVec 2) (h : Hart) : ∃ m, h.splitIn c n = { h with split := m } := by
  unfold Hart.splitIn
  split
  · exact ⟨n, rfl⟩
  · exact ⟨h.split, rfl⟩

theorem Hart.splitIn_id (c : Nat) (n : BitVec 2) (h : Hart) : (h.splitIn c n).id = h.id := by
  obtain ⟨m, hm⟩ := h.splitIn_eq c n
  rw [hm]

theorem Hart.splitIn_split {c : Nat} {h : Hart} (n : BitVec 2) (hcontrol : h.id.control = false) (hcore : globalCore h.id = c) :
    (h.splitIn c n).split = n := by
  simp [Hart.splitIn, hcontrol, hcore]

theorem Hart.splitIn_other {c : Nat} {h : Hart} (n : BitVec 2) (ho : ¬ (h.id.control = false ∧ globalCore h.id = c)) :
    h.splitIn c n = h := by
  simp [Hart.splitIn, ho]

theorem State.applySplit_eq (s : State) (c : Nat) (n : BitVec 2) :
    s.applySplit c n = (s.onCore c fun _ => { s.core c with split := n, pending := none }).updateAll (Hart.splitIn c n) := rfl

/-- Every vector hart of the core has the split. -/
theorem State.applySplit_harts {s : State} {c : Nat} {n : BitVec 2} {k : Hart} (hk : k ∈ (s.applySplit c n).harts)
    (hcontrol : k.id.control = false) (hcore : globalCore k.id = c) : k.split = n := by
  obtain ⟨h, -, rfl⟩ : ∃ h ∈ s.harts, h.splitIn c n = k := List.mem_map.1 hk
  rw [Hart.splitIn_id] at hcontrol hcore
  exact Hart.splitIn_split n hcontrol hcore

/-- The harts of other cores stand as they did. -/
theorem State.applySplit_parked {s : State} {c : Nat} (n : BitVec 2) {i : Nat} {k : Hart} (hk : s.parked[i]? = some k)
    (ho : ¬ (k.id.control = false ∧ globalCore k.id = c)) : (s.applySplit c n).parked[i]? = some k := by
  rw [State.applySplit_eq, State.updateAll_parked, List.getElem?_map, State.onCore_parked, hk, Option.map_some, Hart.splitIn_other n ho]

/-- The state with a split that is pending at the hart's core applied (R88). -/
def State.withSplit (s : State) : State :=
  let c := globalCore s.hart.id
  if (s.core c).pending.isSome then s.applySplit c ((s.core c).pending.getD s.hart.split) else s

theorem State.withSplit_of_none {s : State} (h : (s.core (globalCore s.hart.id)).pending = none) : s.withSplit = s :=
  if_neg (by simp [h])

theorem State.withSplit_of_pending {s : State} (h : (s.core (globalCore s.hart.id)).pending ≠ none) :
    s.withSplit = s.applySplit (globalCore s.hart.id) ((s.core (globalCore s.hart.id)).pending.getD s.hart.split) :=
  if_pos (Option.isSome_iff_ne_none.2 h)

/-- What setvl answers when its block fits and no split waits for another hart (R88, R106). -/
theorem execSetvl_of_grant {s : State} {p : BitVec 1} {t b : BitVec 2} {f : BitVec 4} {a d : BitVec 5} :
    let c := globalCore s.hart.id
    let split := (s.core c).pending.getD s.hart.split
    let mvl := 4 * (32 / 2 ^ split.toNat) * (64 / ((Fmt.ofCode f.toNat).getD .f64).sew)
    let g := grant (s.withSplit.rs a).toNat (blockLength b) mvl
    blockLength b ≤ mvl → ((s.core c).pending.isSome && (s.coMates s.hart).any (·.setvlDone)) = false →
    execSetvl p t b f a d s = (s.withSplit.on (Hart.granted g p t b f)).returnRows.give d (BitVec.ofNat 64 (g.1 - g.2)) := by
  intro c split mvl g hB hready
  exact (if_neg (Nat.not_lt.2 hB)).trans (if_neg (Bool.eq_false_iff.1 hready))

/-- The other harts of the core that hold a task stand at a SETVL boundary (R88). -/
theorem State.coMates_ready (s : State) : (s.coMates s.hart).any (·.setvlDone) = false ↔
    ∀ k ∈ s.harts, (k.id.control = false ∧ globalCore k.id = globalCore s.hart.id) → k.active = true → k.id ≠ s.hart.id →
      k.setvlDone = false := by
  simp only [State.coMates, List.any_eq_false, List.mem_filter, Bool.and_eq_true, Bool.not_eq_true', decide_eq_true_eq, Bool.not_eq_true]
  constructor
  · rintro h k hk ⟨hcontrol, hcore⟩ hactive hid
    exact h k ⟨hk, ⟨⟨⟨hactive, hcontrol⟩, hid⟩, hcore⟩⟩
  · rintro h k ⟨hk, ⟨⟨⟨hactive, hcontrol⟩, hid⟩, hcore⟩⟩
    exact h k hk ⟨hcontrol, hcore⟩ hactive hid

end Sys2Proof.Machine

namespace Sys2Proof.Safety
open Sys2Proof Sys2Proof.Machine

theorem rowsReturned_returnRows (s : State) : RowsReturned s s.returnRows := by
  obtain ⟨v, pooled, free, heq⟩ := s.returnRows_eq
  refine ⟨fun h => ?_, fun n k hk => ?_⟩
  · rw [State.returnRows_of_kept (s := s) (by rwa [heq] at h)]
    exact ⟨rfl, rfl, rfl⟩
  · have helem := s.elem_returnRows n (k := k) (by rwa [heq] at hk)
    rw [heq] at helem ⊢
    exact helem

/-- What a grant leaves of a state in which no split is pending any more (R106). -/
theorem granted_spec (v : State) {g : Nat × Nat} (hvl : g.1 < 2 ^ 11) (hpad : g.2 < 2 ^ 7) (p : BitVec 1) (t b : BitVec 2)
    (f : BitVec 4) (d : BitVec 5) (x : Word) :
    ∃ u : State, (v.on (Hart.granted g p t b f)).returnRows.give d x = .next u ∧ u.hart.vl.toNat = g.1 ∧ u.hart.vlPad.toNat = g.2 ∧ u.hart.vt = typeWord (bits v.hart.vt.toNat 10 9) p t b f ∧
      Wrote v u d x ∧ u.hart.pc = v.hart.pc + 4 ∧ u.hart.setvlDone = true ∧ u.hart.split = v.hart.split ∧ u.hart.id = v.hart.id ∧
      RowsReturned v u ∧ Keeps [.scalars, .integrity, .length, .vt, .split, .pc, .vectors, .rows, .free] v u := by
  obtain ⟨w, pooled, free, heq⟩ := (v.on (Hart.granted g p t b f)).returnRows_eq
  have hrows := rowsReturned_returnRows (v.on (Hart.granted g p t b f))
  have hwrote := wrote_ws (v.on (Hart.granted g p t b f)).returnRows d x
  rw [heq] at hrows hwrote ⊢
  refine ⟨_, rfl, ?_, ?_, ?_, hwrote, ?_, ?_, ?_, ?_, ?_, ?_⟩
  · simpa [Hart.granted, Hart.setVl] using hvl
  · simpa [Hart.granted, Hart.setVl] using hpad
  · simp [Hart.granted, Hart.setVl]
  · simp [Hart.granted, Hart.setVl]
  · simp [Hart.granted, Hart.setVl]
  · simp [Hart.granted, Hart.setVl]
  · simp [Hart.granted, Hart.setVl]
  · simpa [RowsReturned, Hart.tailPolicy, Hart.lanes, Hart.getV, Hart.sew, Hart.fmt, Hart.fmtCode, Hart.granted, Hart.setVl] using hrows
  · intro q hq
    cases q <;> simp [Agree, SameRegisters, Hart.granted, Hart.setVl] at hq ⊢

/-- What applying the pending split of the hart's core changes (R88). -/
theorem withSplit_spec {s : State} (hcores : Sparse.wf (fun _ => Core.idle) s.cores = true) :
    let core := globalCore s.hart.id
    let pending := (s.core core).pending
    let split := pending.getD s.hart.split
    let inCore := fun (k : Hart) => k.id.control = false ∧ globalCore k.id = core
    let v := s.withSplit
    Keeps [.split, .cores, .others] s v ∧ (pending = none → v = s) ∧
      (pending ≠ none → v.core core = { s.core core with split := split, pending := none } ∧ (∀ k, k ≠ core → v.core k = s.core k) ∧
        (∀ k ∈ v.harts, inCore k → k.split = split) ∧
        ∀ (i : Nat) (k : Hart), s.parked[i]? = some k → ¬ inCore k → v.parked[i]? = some k) := by
  intro core pending split inCore v
  by_cases hp : pending = none
  · have hv : v = s := State.withSplit_of_none hp
    exact ⟨hv.symm ▸ Keeps.refl _ s, fun _ => hv, fun h => absurd hp h⟩
  · have hv : v = s.applySplit core split := State.withSplit_of_pending hp
    rw [hv]
    refine ⟨?_, fun h => absurd h hp, fun _ => ⟨Sparse.get_set_self hcores _ _, fun k hk => Sparse.get_set_other _ _ hk,
      fun k hk hin => State.applySplit_harts hk hin.1 hin.2, fun i k hk ho => State.applySplit_parked split hk ho⟩⟩
    obtain ⟨m, hm⟩ := s.hart.splitIn_eq core split
    rw [State.applySplit_eq]
    intro p hp
    cases p <;> simp [Agree, SameRegisters, hm] at hp ⊢

/-- A write of a scalar register seen from an earlier state with the same scalar registers. -/
theorem Wrote.of_agree {s v u : State} {d : BitVec 5} {x : Word} (h : Wrote v u d x) (hs : Agree s v .scalars)
    (hp : Agree s v .integrity) : Wrote s u d x := by
  simp only [Agree] at hs hp
  simpa only [Wrote, State.rs, Hart.getS, hs, hp] using h

/-- Rows returned, seen from an earlier state with the same vector registers. -/
theorem RowsReturned.of_agree {s v u : State} (h : RowsReturned v u) (hv : Agree s v .vectors) (hr : Agree s v .rows)
    (hf : Agree s v .free) : RowsReturned s u := by
  simp only [Agree] at hv hr hf
  simpa only [RowsReturned, Hart.getV, hv, hr, hf] using h

/-- Settles O22: without a pending split the grant stands on the state itself, with one that every other hart of the core admits on
the state with that split applied (`granted_spec`). -/
theorem setvlGrants : Obligations.SetvlGrants := by
  intro s p t b f a d fmt hfmt hs n core pending split inCore ready mvl B vl pad
  obtain ⟨-, -, -, -, -, -, hcores, -⟩ := hs
  have hB : blockLength b = B := blockLength_eq b
  have hsew : ((Fmt.ofCode f.toNat).getD .f64).sew = fmt.sew := by rw [hfmt, Option.getD_some]
  have hB128 : B ≤ 128 := by
    rw [← hB]
    revert b
    decide
  have hgrant : grant n B mvl = (vl, pad) := by
    simp only [grant, vl, pad]
    split_ifs <;> simp_all
  refine ⟨fun hlt => ?_, fun hle hp hr => ?_, fun hle hor => ?_⟩
  · exact if_pos (by rw [hB, hsew]; exact hlt)
  · have hfits : ¬ blockLength b > 4 * (32 / 2 ^ split.toNat) * (64 / ((Fmt.ofCode f.toNat).getD .f64).sew) := by
      rw [hB, hsew]
      exact Nat.not_lt.2 hle
    have hwaits : (pending.isSome && (s.coMates s.hart).any (·.setvlDone)) = true := by
      rw [Option.isSome_iff_ne_none.2 hp, Bool.true_and]
      exact Bool.eq_true_of_not_eq_false fun h => hr (s.coMates_ready.1 h)
    refine ⟨_, (if_neg hfits).trans (if_pos hwaits), rfl, fun q hq => ?_⟩
    cases q <;> simp [Agree, SameRegisters] at hq ⊢
  · have hfits : blockLength b ≤ 4 * (32 / 2 ^ split.toNat) * (64 / ((Fmt.ofCode f.toNat).getD .f64).sew) := by rwa [hB, hsew]
    have hready : (pending.isSome && (s.coMates s.hart).any (·.setvlDone)) = false := by
      rcases hor with hp | hr
      · rw [hp]
        rfl
      · rw [s.coMates_ready.2 hr, Bool.and_false]
    obtain ⟨hsplit, hnone, hsome⟩ := withSplit_spec hcores
    have hrs : s.withSplit.rs a = s.rs a := congrArg (fun x : Vector Word 32 => if a = 0 then 0 else x.get a.toFin) (hsplit .scalars (by decide))
    have hexec := execSetvl_of_grant (p := p) (t := t) (a := a) (d := d) hfits hready
    rw [hB, hsew, hrs, hgrant] at hexec
    obtain ⟨hvl, hpad⟩ := grant_bounds (n := n) hle (mvl_le split fmt) hB128
    rw [hgrant] at hvl hpad
    obtain ⟨u, hu, hvl, hpad, hvt, hwrote, hpc, hdone, hsame, hid, hrows, hkeeps⟩ :=
      granted_spec s.withSplit hvl hpad p t b f d (BitVec.ofNat 64 (vl - pad))
    have hcores : u.cores = s.withSplit.cores := hkeeps .cores (by decide)
    have hparked : u.parked = s.withSplit.parked := hkeeps .others (by decide)
    have hround : bits s.hart.vt.toNat 10 9 < 4 := by
      rw [bits_eq]
      exact Nat.mod_lt _ (by decide)
    obtain ⟨hf, hb, ht, hp, hr⟩ := typeWord_fields hround p t b f
    rw [show s.withSplit.hart.vt = s.hart.vt from hsplit .vt (by decide)] at hvt
    rw [← hvt] at hf hb ht hp hr
    refine ⟨u, hexec.trans hu, hvl, hpad, hf, hb, ht, hp, hr,
      hwrote.of_agree (hsplit .scalars (by decide)) (hsplit .integrity (by decide)),
      hpc.trans (congrArg (· + 4) (hsplit .pc (by decide))), hdone, fun h => ?_, fun h => ?_,
      hrows.of_agree (hsplit .vectors (by decide)) (hsplit .rows (by decide)) (hsplit .free (by decide)),
      (hsplit.mono (by decide)).trans (hkeeps.mono (by decide))⟩
    · rw [hnone h] at hsame hcores hparked
      exact ⟨hsame, hcores, hparked⟩
    · obtain ⟨hcore, hother, hharts, hstay⟩ := hsome h
      rw [State.core, hcores, hparked]
      refine ⟨hcore, fun k hk => ?_, fun k hk hin => ?_, hstay⟩
      · rw [State.core, hcores]
        exact hother k hk
      · rcases List.mem_cons.1 hk with rfl | hk
        · exact hsame.trans (hharts _ List.mem_cons_self ⟨hid ▸ hin.1, hid ▸ hin.2⟩)
        · exact hharts k (List.mem_cons_of_mem _ (hparked ▸ hk)) hin

end Sys2Proof.Safety

/-! The refutation of O42. An append writes the next word of the record that was last at the place that the Loom's view keeps of it, and
waits for the owner of that place's line alone. Where the place lies astride two lines, the other one may be owned, and a trace record of
the step that waits for that owner comes after the append there. -/

namespace Sys2Proof.Safety
open Sys2Proof Sys2Proof.Machine

/-- A region that has written the line of the first entry of the tables at 0x3000: a walk there aborts it (R197, R321). -/
def entryWriter : Region := { readingRegion with lines := [⟨0xC0, 0x3000, false, true, false⟩] }

/-- A hart stands at launch for the QCB at 0x20000, whose last record the view has at 0xFFFC, four bytes before line 0x400. Another hart
has an accumulator store for that line under way, and its region, which the walks of the launch abort, traces into it. -/
def straddledAppend : State := { State.reset with
  hart := ((Hart.idle ⟨0, 0, 0, false⟩).setS 1 0x20000).setS 2 0x40000
  parked := [{ Hart.idle ⟨0, 0, 1, false⟩ with ctx := 5, region := some entryWriter, accStores := [⟨[0x400], [], [], 0⟩] }]
  mem := [(0x3000, 0x01), (0x3001, 0x40), (0x4000, 0x1F), (0x20000, 0x01), (0x2000A, 0x03)]
  ctxs := [(0, { Ctx.none with live := true, root := 0x3001 }), (5, tracingCtx)]
  loom := { State.reset.loom with views := [⟨0x20000, 0, 0, 0, 15, 0x30000, 0xFFFC⟩] } }

theorem canonical_straddledAppend : Canonical straddledAppend := by
  unfold Canonical
  decide +kernel

/-- What a byte of memory is for the device once a step has gone on. -/
def deviceByteAfter (r : Res) (a : Nat) : Option Byte :=
  match r with
  | .next t => some (t.deviceMem.byte a)
  | _ => none

/-- The trace record of the abort, which waits, covers the upper bytes of the next word: its kind is 5. -/
theorem straddledAppend_records : deviceByteAfter (exec (.launch 0 2 1 3) straddledAppend) 0x10000 = some 5 := by
  show deviceByteAfter (execLaunch 0 2 1 3 straddledAppend) 0x10000 = some 5
  decide +kernel

/-- What a write in the middle of some others leaves, where no later one covers it. -/
theorem AfterWrites.byte_of_middle {m m' : Memory} {first middle last : List (Nat × Nat)} (h : AfterWrites m m' (first ++ middle ++ last))
    {p : Nat × Nat} (hp : middle = [p]) {j : Nat} (hj : j < 8) (ho : ∀ r ∈ last, ¬ (r.1 ≤ p.1 + j ∧ p.1 + j < r.1 + 8)) :
    m'.byte (p.1 + j) = BitVec.ofNat 8 (p.2 / 2 ^ (8 * j)) := by
  obtain ⟨-, hwritten⟩ := h
  exact hwritten first p last (by rw [hp, List.append_assoc, List.singleton_append]) j hj ho

/-- Refutes O42: in `straddledAppend` launch completes, and byte 4 of the next word that it wrote, at 0x10000, holds the kind of the
trace record and not the record's address. The statement lacks a premise that the last record's place lies in one line. -/
theorem not_launchAppends : ¬ Obligations.LaunchAppends := by
  intro h
  obtain ⟨-, -, hgo⟩ := h straddledAppend 0 2 1 3 0x20000 0x40000 canonical_straddledAppend rfl
  obtain ⟨-, -, -, hgo⟩ := hgo (by decide +kernel) (by decide +kernel) (by decide +kernel) (by decide +kernel) (by decide +kernel)
    (by decide +kernel) (by decide +kernel) (by decide +kernel)
  obtain ⟨t, ht, -, -, hmine, -⟩ := hgo (by decide +kernel) (by decide +kernel) (by decide +kernel) (by decide +kernel)
    (by decide +kernel) rfl
  obtain ⟨-, hwrites, -⟩ := hmine (by decide +kernel)
  have hbyte := AfterWrites.byte_of_middle hwrites (p := (0xFFFC, 0x40000)) (by decide +kernel) (j := 4) (by decide) (by decide +kernel)
  have hrecords := straddledAppend_records
  rw [ht] at hrecords
  exact absurd (hbyte.symm.trans (Option.some.inj hrecords)) (by decide)

end Sys2Proof.Safety


/-! What the caches, the device's own accesses and the aborts that they cause leave alone beside `State.still`: of each context the
program that it runs, and memory where no context records a trace (R164 to R183, R197, R280, R317). -/

namespace Sys2Proof.Machine

open Safety (Untraced)

/-- What a load sets of a context, its root and whether it exists: no access changes it. -/
def Ctx.program (x : Ctx) : Bool × Word × Option Image × Option AdviceImage × Word × BitVec 512 × BitVec 512 :=
  (x.live, x.root, x.image, x.advice, x.codeStatus, x.attCtx, x.attAdv)

/-- From s to t the table of contexts stays canonical, and f of each context stays what it is. -/
def State.SameCtxs {β : Type} (f : Ctx → β) (s t : State) : Prop :=
  Sparse.wf (fun _ => Ctx.none) s.ctxs = true → Sparse.wf (fun _ => Ctx.none) t.ctxs = true ∧ ∀ c, f (t.ctx c) = f (s.ctx c)

theorem State.SameCtxs.of_eq {β : Type} {f : Ctx → β} {s t : State} (h : t.ctxs = s.ctxs) : s.SameCtxs f t := fun hs =>
  ⟨h ▸ hs, fun c => by rw [State.ctx, h]; rfl⟩

theorem State.SameCtxs.trans {β : Type} {f : Ctx → β} {s t u : State} (h : s.SameCtxs f t) (k : t.SameCtxs f u) : s.SameCtxs f u :=
  fun hs => ⟨(k (h hs).1).1, fun c => ((k (h hs).1).2 c).trans ((h hs).2 c)⟩

/-- The context that is changed, and every other one. -/
theorem State.ctx_onCtx {s : State} (h : Sparse.wf (fun _ => Ctx.none) s.ctxs = true) (c : BitVec 12) (f : Ctx → Ctx) (k : BitVec 12) :
    (s.onCtx c f).ctx k = if k = c then f (s.ctx c) else s.ctx k := by
  refine (Sparse.get_set h c.toNat (f (s.ctx c)) k.toNat).trans ?_
  by_cases hk : k = c
  · rw [if_pos hk, if_pos (congrArg BitVec.toNat hk)]
  · rw [if_neg hk, if_neg fun e => hk (BitVec.eq_of_toNat_eq e), State.ctx]

/-- A change of a context that leaves f of it alone. -/
theorem State.SameCtxs.onCtx {β : Type} {f : Ctx → β} (s : State) (c : BitVec 12) {g : Ctx → Ctx} (hg : ∀ x, f (g x) = f x) :
    s.SameCtxs f (s.onCtx c g) := fun hs => ⟨Sparse.wf_set hs _ _, fun k => by
  rw [State.ctx_onCtx hs]
  split
  next e => rw [e, hg]
  next => rfl⟩

/-! Caches and directories. -/

/-- The package without what the caches hold and the lines that this step's device accesses have reached. -/
def Pkg.uncached (p : Pkg) : Pkg :=
  { p with drowsy := [], slicesUsed := [], tileCache := [], wakes := [], dir := [], wrote := [], readLines := [] }

/-- The machine without its contexts and its package, and whatever the next free value is. -/
def State.uncached (s : State) : State := { s with ctxs := [], free := 0, pkg := Pkg.reset }

/-- What the caches change from s to t at most: what they hold, counters, free values, and which tiles a context keeps. -/
structure State.Cached (s t : State) : Prop where
  state : t.uncached = s.uncached
  pkg : t.pkg.uncached = s.pkg.uncached
  ctxs : s.SameCtxs (fun x => (x.program, x.trcBase)) t

namespace State.Cached

theorem refl (s : State) : s.Cached s := ⟨rfl, rfl, .of_eq rfl⟩

theorem trans {s t u : State} (h : s.Cached t) (k : t.Cached u) : s.Cached u :=
  ⟨k.state.trans h.state, k.pkg.trans h.pkg, h.ctxs.trans k.ctxs⟩

theorem ite {s t u : State} {p : Prop} [Decidable p] (ht : s.Cached t) (hu : s.Cached u) : s.Cached (if p then t else u) := by
  split
  · exact ht
  · exact hu

theorem foldl {α : Type} {f : State → α → State} (hf : ∀ (t : State) (a : α), t.Cached (f t a)) (l : List α) (s : State) :
    s.Cached (l.foldl f s) := by
  induction l generalizing s with
  | nil => exact refl s
  | cons a l ih => exact (hf s a).trans (ih _)

theorem onPkg (s : State) (f : Pkg → Pkg) (hf : (f s.pkg).uncached = s.pkg.uncached) : s.Cached (s.onPkg f) := ⟨rfl, hf, .of_eq rfl⟩

theorem onCtx (s : State) (c : BitVec 12) {f : Ctx → Ctx} (hf : ∀ x, ((f x).program, (f x).trcBase) = (x.program, x.trcBase)) :
    s.Cached (s.onCtx c f) := ⟨rfl, rfl, .onCtx s c hf⟩

theorem count (s : State) (c : BitVec 12) (n i k : Nat) : s.Cached (s.count c n i k) := onCtx s c fun _ => rfl

theorem fresh (s : State) : s.Cached s.fresh := ⟨rfl, rfl, .of_eq rfl⟩

end State.Cached

open State (Cached)

theorem State.dropTileLine_cached (s : State) (l : TileLine) : s.Cached (s.dropTileLine l) := by
  have h := Cached.onPkg s (fun p => { p with tileCache := p.tileCache.filter fun k => decide (k.line ≠ l.line) }) rfl
  unfold State.dropTileLine
  exact .ite (h.trans (.onCtx _ _ fun _ => rfl)) h

theorem State.tileRoom_cached (s : State) (d : Nat) : s.Cached (s.tileRoom d) := by
  unfold State.tileRoom
  refine .ite (.refl _) ?_
  dsimp only
  split
  · exact (Cached.fresh s).trans (State.dropTileLine_cached _ _)
  · exact .refl _

theorem State.fileLine_cached (s : State) (t : Tile) (l : Nat) (a : Bool) : s.Cached (s.fileLine t l a) := by
  unfold State.fileLine
  refine .ite (.ite (.count _ _ _ _ _) (.refl _)) ?_
  exact ((State.tileRoom_cached s _).trans (.onPkg _ _ rfl)).trans (.count _ _ _ _ _)

theorem State.writeBack_cached (s : State) (l : Nat) (t : Option Tile) : s.Cached (s.writeBack l t) := by
  unfold State.writeBack
  dsimp only
  refine .ite (.onPkg _ _ rfl) ?_
  split
  · exact .ite ((State.tileRoom_cached s _).trans (.onPkg _ _ rfl)) (.refl _)
  · exact .refl _

theorem State.setDir_cached (s : State) (d : DirLine) : s.Cached (s.setDir d) := .onPkg _ _ rfl

theorem State.useSlices_cached (s : State) (c : Option (BitVec 12)) (ks : List Nat) : s.Cached (s.useSlices c ks) := by
  refine .foldl (fun t k => ?_) ks s
  extract_lets t1 t2
  have h1 : t.Cached t1 := .onPkg _ _ rfl
  have h2 : t.Cached t2 := h1.trans (.onPkg _ _ rfl)
  refine .ite h1 ?_
  split
  · exact h2.trans (.count _ _ _ _ _)
  · exact h2

theorem State.leaveL2_cached (s : State) (die : Nat) (d : DirLine) : s.Cached (s.leaveL2 die d) := by
  unfold State.leaveL2
  exact .ite ((State.setDir_cached _ _).trans (State.writeBack_cached _ _ _)) (State.setDir_cached _ _)

theorem State.l2Room_cached (s : State) (d l : Nat) : s.Cached (s.l2Room d l) := by
  unfold State.l2Room
  dsimp only
  refine .ite (.refl _) ?_
  split
  · exact (Cached.fresh s).trans (State.leaveL2_cached _ _ _)
  · exact .ite (.refl _) (State.leaveL2_cached _ _ _)

theorem State.atSlices_cached (s : State) (a : Accessor) (va : Nat) (d : DirLine) (m : Met) : s.Cached (s.atSlices a va d m) := by
  unfold State.atSlices
  dsimp only
  have h1 (x : Option Tile) (ks : List Nat) : s.Cached ((s.useSlices a.ctx ks).setDir { d with tile := x }) :=
    (State.useSlices_cached _ _ _).trans (State.setDir_cached _ _)
  have h2 (x : Option Tile) (ks : List Nat) : s.Cached (if m.miss then
      ((s.useSlices a.ctx ks).setDir { d with tile := x }).l2Room a.die d.line
      else (s.useSlices a.ctx ks).setDir { d with tile := x }) :=
    .ite ((h1 x ks).trans (State.l2Room_cached _ _ _)) (h1 x ks)
  split
  · exact .ite ((h2 _ _).trans (State.fileLine_cached _ _ _ _)) (h2 _ _)
  · exact h2 _ _

theorem State.fillL1_cached (s : State) (c l : Nat) (r : Option (AgentId × Nat)) : s.Cached (s.fillL1 c l r) := by
  unfold State.fillL1
  dsimp only
  refine .ite (State.setDir_cached _ _) ?_
  split
  · exact ((Cached.fresh s).trans (State.setDir_cached _ _)).trans (State.setDir_cached _ _)
  · exact .refl _

theorem State.readLine_cached (s : State) (a : Accessor) (va l m : Nat) (r : Option (AgentId × Nat)) :
    s.Cached (s.readLine a va l m r).1 := by
  unfold State.readLine
  dsimp only
  split
  · exact .refl _
  · split
    · exact State.setDir_cached _ _
    · dsimp only
      split
      · exact (State.atSlices_cached _ _ _ _ _).trans (.ite (State.fillL1_cached _ _ _ _) (.refl _))
      · exact State.atSlices_cached _ _ _ _ _

theorem State.writeLine_cached (s : State) (a : Accessor) (va l m : Nat) (k : Option Nat) : s.Cached (s.writeLine a va l m k).1 := by
  unfold State.writeLine
  split
  · exact .refl _
  · exact State.atSlices_cached _ _ _ _ _

theorem State.deviceLine_cached (s : State) (l : Nat) (w : Bool) : s.Cached (s.deviceLine l w) := by
  unfold State.deviceLine
  exact .ite (State.writeLine_cached _ _ _ _ _ _) (State.readLine_cached _ _ _ _ _ _)

theorem State.deviceRead_cached (s : State) (l : Nat) : s.Cached (s.deviceRead l) := by
  unfold State.deviceRead
  have h := State.deviceLine_cached s l false
  exact .ite (h.trans (.onPkg _ _ rfl)) h

theorem State.noteWalk_cached (s : State) (c : BitVec 12) (va : Nat) : s.Cached (s.noteWalk c va) :=
  .foldl State.deviceRead_cached _ s

theorem State.noteRange_cached (s : State) (c : BitVec 12) (va n : Nat) : s.Cached (s.noteRange c va n) :=
  .foldl (fun _ _ => State.noteWalk_cached _ _ _) _ s

/-! Device writes and trace records. -/

/-- Every hart but for its reservation, what is due, and the arbiter: no write of the device touches them. -/
def State.steady (s : State) : List Hart × List Due × Arbiter :=
  (s.harts.map fun h => { h with reservation := none }, s.agenda, s.arb)

/-- What a write of the device leaves alone beside `State.still`. -/
structure State.Recorded (s t : State) : Prop where
  steady : t.steady = s.steady
  ctxs : s.SameCtxs Ctx.program t

theorem State.Cached.recorded {s t : State} (h : s.Cached t) : s.Recorded t where
  steady := by
    have hh : t.hart = s.hart := show t.uncached.hart = s.uncached.hart from congrArg State.hart h.state
    have hp : t.parked = s.parked := show t.uncached.parked = s.uncached.parked from congrArg State.parked h.state
    have hg : t.agenda = s.agenda := show t.uncached.agenda = s.uncached.agenda from congrArg State.agenda h.state
    have ha : t.arb = s.arb := show t.uncached.arb = s.uncached.arb from congrArg State.arb h.state
    simp only [State.steady, State.harts, hh, hp, hg, ha]
  ctxs := fun hs => ⟨(h.ctxs hs).1, fun c => congrArg Prod.fst ((h.ctxs hs).2 c)⟩

namespace State.Recorded

theorem refl (s : State) : s.Recorded s := ⟨rfl, .of_eq rfl⟩

theorem trans {s t u : State} (h : s.Recorded t) (k : t.Recorded u) : s.Recorded u := ⟨k.steady.trans h.steady, h.ctxs.trans k.ctxs⟩

theorem ite {s t u : State} {p : Prop} [Decidable p] (ht : s.Recorded t) (hu : s.Recorded u) : s.Recorded (if p then t else u) := by
  split
  · exact ht
  · exact hu

theorem onPkg (s : State) (f : Pkg → Pkg) : s.Recorded (s.onPkg f) := ⟨rfl, .of_eq rfl⟩

theorem onCtx (s : State) (c : BitVec 12) {f : Ctx → Ctx} (hf : ∀ x, (f x).program = x.program) : s.Recorded (s.onCtx c f) :=
  ⟨rfl, .onCtx s c hf⟩

end State.Recorded

open State (Recorded)

theorem State.clearReservations_recorded (s : State) (b : Nat) : s.Recorded (s.clearReservations b) := by
  unfold State.clearReservations
  refine .ite ⟨?_, .of_eq rfl⟩ (.refl s)
  have hf (h : Hart) : { (if h.reservation = some b then { h with reservation := none } else h) with reservation := none } =
      { h with reservation := none } := by split <;> rfl
  simp only [State.steady, State.harts, State.updateAll_hart, State.updateAll_parked, State.updateAll_agenda, State.updateAll_arb,
    List.map_cons, List.map_map, Function.comp_def, hf]

theorem State.setMem_recorded (s : State) (bs : List (Nat × Byte)) : s.Recorded (s.setMem bs) :=
  have h : s.Recorded (s.noteCode bs) := by
    unfold State.noteCode
    exact .ite (.refl _) (.onPkg _ _)
  h.trans ⟨rfl, .of_eq rfl⟩

theorem State.writeNow_recorded (s : State) (pa : Nat) (bs : List Byte) : s.Recorded (s.writeNow pa bs) := by
  unfold State.writeNow
  extract_lets s1 s2 s3
  have h2 : s.Recorded s2 := ((State.clearReservations_recorded _ _).trans (State.setMem_recorded _ _)).trans
    (State.deviceLine_cached _ _ _).recorded
  have h3 : s.Recorded s3 := .ite (h2.trans (.onPkg _ _)) h2
  exact .ite (h3.trans (.onPkg _ _)) h3

theorem State.deviceWrite_recorded (s : State) (pa : Nat) (bs : List Byte) : s.Recorded (s.deviceWrite pa bs) := by
  unfold State.deviceWrite State.writeOrWait
  have h := State.writeNow_recorded s pa bs
  exact .ite (.onPkg _ _) (.ite (h.trans (.onPkg _ _)) h)

theorem State.writeIn_recorded {s t : State} {c : BitVec 12} {va : Nat} {bs : List Byte} {l : Late} (h : s.writeIn c va bs l = some t) :
    s.Recorded t := by
  unfold State.writeIn at h
  split at h
  · split at h
    · cases h
      exact (State.noteWalk_cached _ _ _).recorded.trans (State.deviceWrite_recorded _ _ _)
    · cases h
  · cases h
    exact .onPkg _ _
  · cases h

theorem State.putRecord_recorded (s : State) (c : BitVec 12) (bs : List Byte) : s.Recorded (s.putRecord c bs).1 := by
  unfold State.putRecord
  extract_lets x size
  split
  · exact .refl _
  · split
    · dsimp only
      exact .onCtx _ _ fun _ => rfl
    · split
      · dsimp only
        exact (State.noteWalk_cached _ _ _).recorded.trans (.onCtx _ _ fun _ => rfl)
      · rename_i u hu
        dsimp only
        exact (State.writeIn_recorded hu).trans (.onCtx _ _ fun _ => rfl)

theorem State.trace_recorded (s : State) (h : Hart) (k loc d0 d1 : Nat) : s.Recorded (s.trace h k loc d0 d1) := by
  unfold State.trace
  dsimp only
  split
  · exact .refl _
  · split
    · split
      · exact ((State.putRecord_recorded _ _ _).trans (.onCtx _ _ (f := fun x => { x with trcResync := false }) fun _ => rfl)).trans
          (State.putRecord_recorded _ _ _)
      · exact State.putRecord_recorded _ _ _
    · split
      · exact State.putRecord_recorded _ _ _
      · exact .refl _

/-- Where the hart's context records no trace, no record is written (R317). -/
theorem State.trace_of_untraced {s : State} (hs : Untraced s) (h : Hart) (k loc d0 d1 : Nat) : s.trace h k loc d0 d1 = s := by
  unfold State.trace
  simp only [hs h.ctx, decide_true, Bool.true_or, if_true]

/-! Aborts of regions. -/

/-- The bare harts, and how many transfers of each are outstanding: no access of the device or of an engine touches them. -/
def State.outline (s : State) : List (Hart × BitVec 6) := s.harts.map fun h => (h.bare, h.cnt.tl)

theorem State.outline_of_steady {s t : State} (h : t.steady = s.steady) : t.outline = s.outline := by
  have hh : t.harts.map (fun h => { h with reservation := none }) = s.harts.map (fun h => { h with reservation := none }) :=
    congrArg Prod.fst h
  have h2 := congrArg (List.map fun h : Hart => (h.bare, h.cnt.tl)) hh
  rw [List.map_map, List.map_map] at h2
  exact h2

/-- A change of harts that leaves the bare ones and their transfers alone. -/
theorem State.updateAll_outline (s : State) {f : Hart → Hart} (hf : ∀ h, ((f h).bare, (f h).cnt.tl) = (h.bare, h.cnt.tl)) :
    (s.updateAll f).outline = s.outline := by
  simp only [State.outline, State.harts, State.updateAll_hart, State.updateAll_parked, List.map_cons, List.map_map, Function.comp_def, hf]

theorem State.update_outline (s : State) (id : AgentId) {f : Hart → Hart}
    (hf : ∀ h, ((f h).bare, (f h).cnt.tl) = (h.bare, h.cnt.tl)) : (s.update id f).outline = s.outline := by
  have hif (h : Hart) : ((if h.id = id then f h else h).bare, (if h.id = id then f h else h).cnt.tl) = (h.bare, h.cnt.tl) := by
    split
    · exact hf h
    · rfl
  simp only [State.outline, State.harts, State.update_hart, State.update_parked, List.map_cons, List.map_map, Function.comp_def, hif]

/-- What accesses of the device and of engines leave alone from s to t, and the aborts that they cause: memory itself where nothing
traces. -/
structure State.Quiet (s t : State) : Prop where
  traffic : s.Traffic t
  frame : t.frame = s.frame
  outline : t.outline = s.outline
  ctxs : s.SameCtxs Ctx.program t
  memory : Sparse.wf (fun _ => Ctx.none) s.ctxs = true → Untraced s → Untraced t ∧ t.mem = s.mem ∧ t.pkg.late = s.pkg.late

theorem sameRegisters_of_uncached {p q : Pkg} (h : q.uncached = p.uncached) : Safety.SameRegisters p q := by
  cases p
  cases q
  simp only [Pkg.uncached, Pkg.mk.injEq] at h
  simp only [Safety.SameRegisters, h]

theorem State.Cached.quiet {s t : State} (h : s.Cached t) : s.Quiet t where
  traffic := by
    have e : t.uncached = s.uncached := h.state
    simp only [State.uncached, State.mk.injEq] at e
    refine ⟨?_, ?_, fun hs => ?_, fun hs => ?_, fun hs => (h.ctxs hs).1, fun _ => ?_⟩
    · simp only [State.still, e]
    · exact sameRegisters_of_uncached h.pkg
    · simpa only [e] using hs
    · simpa only [e] using hs
    · simpa only [e] using Hart.SameBut.refl s.hart
  frame := by
    have e : t.uncached = s.uncached := h.state
    have hd : t.pkg.dead = s.pkg.dead := show t.pkg.uncached.dead = s.pkg.uncached.dead from congrArg Pkg.dead h.pkg
    simp only [State.uncached, State.mk.injEq] at e
    simp only [State.frame, e, hd]
  outline := State.outline_of_steady h.recorded.steady
  ctxs := h.recorded.ctxs
  memory := fun hs hu => ⟨fun c => (congrArg Prod.snd ((h.ctxs hs).2 c)).trans (hu c),
    show t.uncached.mem = s.uncached.mem from congrArg State.mem h.state,
    show t.pkg.uncached.late = s.pkg.uncached.late from congrArg Pkg.late h.pkg⟩

namespace State.Quiet

theorem refl (s : State) : s.Quiet s := (Cached.refl s).quiet

theorem trans {s t u : State} (h : s.Quiet t) (k : t.Quiet u) : s.Quiet u where
  traffic := h.traffic.trans k.traffic
  frame := k.frame.trans h.frame
  outline := k.outline.trans h.outline
  ctxs := h.ctxs.trans k.ctxs
  memory hs hu :=
    have ⟨hut, hm, hl⟩ := h.memory hs hu
    have ⟨huu, km, kl⟩ := k.memory (h.ctxs hs).1 hut
    ⟨huu, km.trans hm, kl.trans hl⟩

theorem ite {s t u : State} {p : Prop} [Decidable p] (ht : s.Quiet t) (hu : s.Quiet u) : s.Quiet (if p then t else u) := by
  split
  · exact ht
  · exact hu

theorem foldl {α : Type} {f : State → α → State} (hf : ∀ (t : State) (a : α), t.Quiet (f t a)) (l : List α) (s : State) :
    s.Quiet (l.foldl f s) := by
  induction l generalizing s with
  | nil => exact refl s
  | cons a l ih => exact (hf s a).trans (ih _)

end State.Quiet

open State (Quiet)

theorem State.trace_quiet (s : State) (h : Hart) (k loc d0 d1 : Nat) : s.Quiet (s.trace h k loc d0 d1) where
  traffic := State.trace_traffic _ _ _ _ _ _
  frame := State.trace_frame _ _ _ _ _ _
  outline := State.outline_of_steady (State.trace_recorded _ _ _ _ _ _).steady
  ctxs := (State.trace_recorded _ _ _ _ _ _).ctxs
  memory _ hu := by
    rw [State.trace_of_untraced hu]
    exact ⟨hu, rfl, rfl⟩

theorem State.clearReservations_quiet (s : State) (b : Nat) : s.Quiet (s.clearReservations b) where
  traffic := State.clearReservations_traffic s b
  frame := State.clearReservations_frame s b
  outline := State.outline_of_steady (State.clearReservations_recorded s b).steady
  ctxs := (State.clearReservations_recorded s b).ctxs
  memory _ hu := by
    unfold State.clearReservations
    split
    · exact ⟨hu, rfl, rfl⟩
    · exact ⟨hu, rfl, rfl⟩

theorem State.forgetRegion_outline (s : State) (id : AgentId) : (s.forgetRegion id).outline = s.outline := by
  unfold State.forgetRegion
  extract_lets s1
  have h1 : s1.outline = s.outline := State.updateAll_outline s fun h => by split <;> rfl
  exact h1

/-- An abort does nothing, or it ends a region and then records itself (R199, R317). -/
theorem State.abortRegion_cases (s : State) (id : AgentId) (code : Nat) :
    s.abortRegion id code = s ∨ ∃ (t : State) (h : Hart) (loc d : Nat), s.abortRegion id code = t.trace h 5 loc d 0 ∧
      t.outline = s.outline ∧ s.SameCtxs (fun x => (x.program, x.trcBase)) t ∧ t.mem = s.mem ∧ t.pkg = s.pkg := by
  unfold State.abortRegion
  split
  · exact .inl rfl
  · split
    · exact .inl rfl
    · extract_lets n status s1 s2
      have h1 : s1.outline = s.outline := State.update_outline s id fun h => by
        unfold Hart.setS
        split <;> rfl
      exact .inr ⟨s2, _, _, _, rfl, (State.forgetRegion_outline s1 id).trans h1, 
        (State.SameCtxs.of_eq (t := s1.forgetRegion id) rfl).trans (Cached.count _ _ _ _ _).ctxs, rfl, rfl⟩

theorem State.abortRegion_quiet (s : State) (id : AgentId) (code : Nat) : s.Quiet (s.abortRegion id code) := by
  rcases State.abortRegion_cases s id code with e | ⟨t, h, loc, d, e, ho, hc, hm, hp⟩
  · rw [e]
    exact .refl s
  · have k := State.trace_quiet t h 5 loc d 0
    rw [← e] at k
    exact {
      traffic := State.abortRegion_traffic s id code
      frame := State.abortRegion_frame s id code
      outline := k.outline.trans ho
      ctxs := State.SameCtxs.trans (fun hs => ⟨(hc hs).1, fun c => congrArg Prod.fst ((hc hs).2 c)⟩) k.ctxs
      memory := fun hs hu =>
        have ⟨hun, hmem, hlate⟩ := k.memory (hc hs).1 fun c => (congrArg Prod.snd ((hc hs).2 c)).trans (hu c)
        ⟨hun, hmem.trans hm, hlate.trans (congrArg Pkg.late hp)⟩ }

theorem State.outside_quiet (s : State) (l : Nat) (w : Bool) : s.Quiet (s.outside l w) :=
  .foldl (fun _ _ => State.abortRegion_quiet _ _ _) _ s

theorem State.engineRead_quiet (s : State) (a : Accessor) (va l m : Nat) : s.Quiet (s.engineRead a va l m) :=
  (State.outside_quiet s l false).trans (State.readLine_cached _ _ _ _ _ _).quiet

end Sys2Proof.Machine


/-! The steps of the privileged writes (R93, R272, R276, R277, R280, R282, R285, R296, R309, R320). -/

namespace Sys2Proof.Machine

theorem State.tenant_onTenant_self {s : State} (h : Sparse.wf (fun _ => Tenant.none) s.tenants = true) (n : Nat) (f : Tenant → Tenant) :
    (s.onTenant n f).tenant n = f (s.tenant n) := Sparse.get_set_self h _ _

theorem State.channel_onChannel {s : State} (h : Sparse.wf (fun _ => Channel.idle) s.shuttle = true) (n : Nat) (f : Channel → Channel)
    (k : Nat) : (s.onChannel n f).channel k = if k = n then f (s.channel n) else s.channel k := Sparse.get_set h _ _ _

/-- What a run of reads gives is a state that traffic alone has left. -/
theorem State.bytesFor_traffic {s t : State} {va n : Nat} {bs : List Byte} (h : s.bytesFor va n = .ok (bs, t)) : s.Traffic t := by
  unfold State.bytesFor at h
  have hacc : ∀ l u, (Except.ok ([], s) : Except Stop (List Byte × State)) = .ok (l, u) → s.Traffic u := by
    intro l u e
    cases e
    exact .refl s
  generalize (Except.ok ([], s) : Except Stop (List Byte × State)) = acc at h hacc
  generalize granules va n = gs at h
  induction gs generalizing acc with
  | nil => exact hacc _ _ h
  | cons g gs ih =>
    refine ih _ (fun l u hu => ?_) h
    dsimp only at hu
    split at hu
    · cases hu
    next l' t' =>
      split at hu
      · cases hu
      next x w hread =>
        cases hu
        refine (hacc l' t' rfl).trans ?_
        unfold State.readChecked at hread
        split at hread
        · cases hread
        · cases hread
          exact State.noteReads_traffic _ _ _

end Sys2Proof.Machine

namespace Sys2Proof.Safety
open Sys2Proof.Machine

theorem keeps_onTenant (s : State) (n : Nat) (f : Tenant → Tenant) : Keeps [.tenants] s (s.onTenant n f) := by
  intro p hp
  cases p <;> simp [Agree, SameRegisters] at hp ⊢

theorem keeps_onChannel (s : State) (n : Nat) (f : Channel → Channel) : Keeps [.barriers] s (s.onChannel n f) := by
  intro p hp
  cases p <;> simp [Agree, SameRegisters, State.onChannel] at hp ⊢

theorem keeps_onCtx (s : State) (c : BitVec 12) (f : Ctx → Ctx) : Keeps [.contexts] s (s.onCtx c f) := keeps_ctxs s _

theorem keeps_loom (s : State) (x : Loom) : Keeps [.loom] s { s with loom := x } := by
  intro p hp
  cases p <;> simp [Agree, SameRegisters] at hp ⊢

theorem keeps_due (s : State) (d : Due) : Keeps [.agenda] s (s.due d) := by
  intro p hp
  cases p <;> simp [Agree, SameRegisters, State.due] at hp ⊢

theorem ctxRoot_spec {s : State} (hs : Canonical s) {i : Word} (v : Word) (hi : i.toNat < 4096) :
    let c := i.setWidth 12
    let root := v &&& 0x000FFFFFFFFFF001#64
    ∃ t : State, exec (.ctxRoot i v) s = .next t ∧ Keeps [.contexts, .caches] s t ∧ (∀ k, k ≠ c → t.ctx k = s.ctx k) ∧
      (∀ k ∈ t.pkg.tlb, k ∈ s.pkg.tlb ∧ ((s.ctx c).live = true → k.ctx ≠ c)) ∧
      ((s.ctx c).live = true → t.ctx c = { s.ctx c with root := root }) ∧
      ((s.ctx c).live = false → t.ctx c = if root.getLsbD 0 then { Ctx.none with live := true, root := root } else s.ctx c) := by
  intro c root
  have hexec : exec (.ctxRoot i v) s = .next (s.setRoot i v) := rfl
  rw [hexec, State.setRoot, if_neg (by omega)]
  extract_lets t root'
  have hw : Sparse.wf (fun _ => Ctx.none) t.ctxs = true := hs.2.2.2.2.2.2.2.2.1
  have hk : Keeps [.contexts, .caches] s t := by
    refine Keeps.mono (l := [.caches]) ?_ (by simp)
    have h1 : Keeps [.caches] s (s.dropTranslations c fun _ => true) := keeps_caches s _ (by rfl) rfl ⟨rfl, rfl, rfl, rfl⟩
    exact h1.trans (keeps_caches _ _ (by rfl) rfl ⟨rfl, rfl, rfl, rfl⟩)
  have htlb : ∀ k ∈ t.pkg.tlb, k ∈ s.pkg.tlb ∧ k.ctx ≠ c := by
    intro k hk
    obtain ⟨hm, hc⟩ := List.mem_filter.1 (show k ∈ s.pkg.tlb.filter _ from hk)
    exact ⟨hm, by simpa using hc⟩
  have hon (f : Ctx → Ctx) : Keeps [.contexts, .caches] s (t.onCtx c f) := hk.trans ((keeps_onCtx t c f).mono (by simp))
  split
  next hl =>
    refine ⟨_, rfl, hon _, fun k hk => ?_, fun k hk => ⟨(htlb k hk).1, fun _ => (htlb k hk).2⟩, fun _ => ?_, fun h => ?_⟩
    · rw [State.ctx_onCtx hw, if_neg hk]; rfl
    · rw [State.ctx_onCtx hw, if_pos rfl]; rfl
    · exact absurd (h.symm.trans hl) Bool.false_ne_true
  next hl =>
    split
    next hr =>
      refine ⟨_, rfl, hon _, fun k hk => ?_, fun k hk => ⟨(htlb k hk).1, fun _ => (htlb k hk).2⟩, fun h => absurd h hl, fun _ => ?_⟩
      · rw [State.ctx_onCtx hw, if_neg hk]; rfl
      · rw [State.ctx_onCtx hw, if_pos rfl]
    next hr =>
      exact ⟨s, rfl, .refl _ s, fun _ _ => rfl, fun k hk => ⟨hk, fun h => absurd h hl⟩, fun h => absurd h hl, fun _ => rfl⟩

theorem shuttleGrant_spec {s : State} (hs : Canonical s) {i : Word} (v : Word) (hi : i.toNat < 32) :
    ∃ t : State, exec (.shuttleGrant i v) s = .next t ∧
      t.channel i.toNat = ⟨if v.getLsbD 12 then some (v.setWidth 12) else none, 0, [], []⟩ ∧
      (∀ k, k ≠ i.toNat → t.channel k = s.channel k) ∧ Keeps [.barriers] s t := by
  obtain ⟨-, -, -, -, -, -, -, hch, -⟩ := hs
  have hexec : exec (.shuttleGrant i v) s = .next (s.grantShuttle i v) := rfl
  rw [hexec, State.grantShuttle, if_neg (by omega)]
  refine ⟨_, rfl, ?_, fun k hk => ?_, keeps_onChannel _ _ _⟩
  · rw [State.channel_onChannel hch, if_pos rfl]
  · rw [State.channel_onChannel hch, if_neg hk]

theorem collGrant_spec {s : State} (hs : Canonical s) {i : Word} (v : Word) (hi : i.toNat < 1024) :
    ∃ t : State, exec (.collGrant i v) s = .next t ∧ Sparse.get (fun _ => 0) t.pkg.coll i.toNat = grantWord v ∧
      Keeps [.package] s t := by
  obtain ⟨-, -, -, -, -, -, -, -, -, -, -, -, hcoll⟩ := hs
  have hexec : exec (.collGrant i v) s = .next (s.grantGroup i v) := rfl
  rw [hexec, State.grantGroup, if_neg (by omega)]
  exact ⟨_, rfl, Sparse.get_set_self hcoll _ _, keeps_onPkg _ _ rfl⟩

theorem uecBind_spec {s : State} (hs : Canonical s) {i : Word} (v : Word) (hi : i.toNat < 4096) :
    ∃ t : State, exec (.uecBind i v) s = .next t ∧ Sparse.get (fun _ => 0) t.pkg.uec i.toNat = grantWord v ∧
      Keeps [.package] s t := by
  obtain ⟨-, -, -, -, -, -, -, -, -, -, -, huec, -⟩ := hs
  have hexec : exec (.uecBind i v) s = .next (s.bindEndpoint i v) := rfl
  rw [hexec, State.bindEndpoint, if_neg (by omega)]
  exact ⟨_, rfl, Sparse.get_set_self huec _ _, keeps_onPkg _ _ rfl⟩

/-- A valid descriptor as the tenant's registers hold it (R272). -/
theorem setTenant_spec {u : State} (hu : Sparse.wf (fun _ => Tenant.none) u.tenants = true) (n : Nat) (bs : List Byte) :
    ∃ x, (u.setTenant n bs).tenant n = x ∧ x.loaded = true ∧
      x.quads = BitVec.ofNat 144 (ofBytes (bs.take 18)) ∧ x.ways.toNat = dword bs 0x18 % 2 ^ 16 ∧
      x.fmask = BitVec.ofNat 64 (dword bs 0x20) ∧ x.kquota = BitVec.ofNat 64 (dword bs 0x28) ∧
      x.iquota = BitVec.ofNat 64 (dword bs 0x30) ∧ x.key = BitVec.ofNat 64 (dword bs 0x38) ∧
      x.dec = (u.tenant n).dec ∧ (u.setTenant n bs).pkg.attPkg = attExtend u.pkg.attPkg bs ∧
      Keeps [.tenants, .package] u (u.setTenant n bs) := by
  have hx := State.tenant_onTenant_self hu n
  refine ⟨_, (hx fun x => { x with
    loaded := true
    quads := BitVec.ofNat 144 (ofBytes (bs.take 18))
    ways := (BitVec.ofNat 64 (dword bs 0x18)).setWidth 16
    pod := BitVec.ofNat 16 ((BitVec.ofNat 64 (dword bs 0x18)).toNat / 2 ^ 16)
    fmask := BitVec.ofNat 64 (dword bs 0x20)
    kquota := BitVec.ofNat 64 (dword bs 0x28)
    iquota := BitVec.ofNat 64 (dword bs 0x30)
    key := BitVec.ofNat 64 (dword bs 0x38) }), rfl, rfl, ?_, rfl, rfl, rfl, rfl, rfl, rfl, ?_⟩
  · simp only [BitVec.toNat_setWidth, BitVec.toNat_ofNat]
    omega
  · exact ((keeps_onTenant u n _).mono (by simp)).trans ((keeps_onPkg _ _ rfl).mono (by simp))

theorem tenantDesc_spec {s u : State} (hs : Canonical s) {i v : Word} {bs : List Byte} (hi : i.toNat < 16)
    (hb : s.bytesFor v.toNat 64 = .ok (bs, u)) :
    (tenantValid bs = false → exec (.tenantDesc i v) s = u.takeTrap 6 2 0 0 none) ∧
    (tenantValid bs = true → ∃ t x, exec (.tenantDesc i v) s = .next t ∧ t.tenant i.toNat = x ∧ x.loaded = true ∧
      x.quads = BitVec.ofNat 144 (ofBytes (bs.take 18)) ∧ x.ways.toNat = dword bs 0x18 % 2 ^ 16 ∧
      x.fmask = BitVec.ofNat 64 (dword bs 0x20) ∧ x.kquota = BitVec.ofNat 64 (dword bs 0x28) ∧
      x.iquota = BitVec.ofNat 64 (dword bs 0x30) ∧ x.key = BitVec.ofNat 64 (dword bs 0x38) ∧
      x.dec = (u.tenant i.toNat).dec ∧ t.pkg.attPkg = attExtend u.pkg.attPkg bs ∧ Keeps [.tenants, .package] u t) := by
  have hexec : exec (.tenantDesc i v) s = if tenantValid bs then .next (u.setTenant i.toNat bs) else u.denied := by
    show s.loadTenant i v .next = _
    unfold State.loadTenant
    rw [if_neg (by omega), hb]
  have hu : Sparse.wf (fun _ => Tenant.none) u.tenants = true := by
    obtain ⟨-, -, -, -, -, -, -, -, -, ht, -⟩ := canonical_traffic (State.bytesFor_traffic hb) hs
    exact ht
  refine ⟨fun h => ?_, fun h => ?_⟩
  · rw [hexec, h]; rfl
  · obtain ⟨x, hx⟩ := setTenant_spec hu i.toNat bs
    exact ⟨_, x, by rw [hexec, if_pos h], hx⟩

theorem loomReload_spec {s u w : State} {v : Word} {hd image : List Byte} (hh : s.bytesFor v.toNat 24 = .ok (hd, u))
    (hsize : bits (dword hd 0) 31 0 ≤ 2 ^ 18) (hi : u.bytesFor v.toNat (bits (dword hd 0) 31 0) = .ok (image, w)) :
    ∃ t : State, exec (.loomReload v) s = .next t ∧ t.pkg.attPkg = attExtend w.pkg.attPkg image ∧
      t.loom.reload = some ⟨BitVec.ofNat 16 (dword hd 0 / 2 ^ 32), BitVec.ofNat 32 (dword hd 8), BitVec.ofNat 64 (dword hd 16), image⟩ ∧
      .microcodeSwitch ∈ t.agenda ∧ Keeps [.package, .loom, .agenda] w t := by
  have hexec : exec (.loomReload v) s = s.reloadLoom v .next := rfl
  rw [hexec]
  unfold State.reloadLoom
  rw [hh]
  dsimp only
  rw [if_neg (by omega), hi]
  dsimp only
  have hk (x : Loom) : Keeps [.package, .loom, .agenda] w
      { w.onPkg fun p => { p with attPkg := attExtend p.attPkg image } with loom := x } :=
    ((keeps_onPkg w _ rfl).mono (by simp)).trans ((keeps_loom _ x).mono (by simp))
  split
  next hm => exact ⟨_, rfl, rfl, rfl, List.mem_of_elem_eq_true hm, hk _⟩
  next => exact ⟨_, rfl, rfl, rfl, List.mem_append_right _ List.mem_cons_self, (hk _).trans ((keeps_due _ _).mono (by simp))⟩

theorem biasFlip_spec (s : State) (i v : Word) :
    (2 ^ 31 ≤ i.toNat ∨ s.finalBias i.toNat = v.getLsbD 0 → exec (.biasFlip i v) s = .next s) ∧
    (i.toNat < 2 ^ 31 → s.finalBias i.toNat ≠ v.getLsbD 0 → ∃ t : State, exec (.biasFlip i v) s = .next t ∧
      t.pkg = { s.pkg with flips := s.pkg.flips ++ [(i.toNat, v.getLsbD 0)] } ∧ .biasFlipComplete i.toNat ∈ t.agenda ∧
      Keeps [.package, .agenda] s t) := by
  have hexec : exec (.biasFlip i v) s = .next (s.startFlip i v) := rfl
  have hcond : (biasRegions ≤ i.toNat || s.finalBias i.toNat = v.getLsbD 0 : Bool) = true ↔
      2 ^ 31 ≤ i.toNat ∨ s.finalBias i.toNat = v.getLsbD 0 := by
    rw [Bool.or_eq_true, decide_eq_true_eq, decide_eq_true_eq]
    rfl
  rw [hexec]
  unfold State.startFlip
  refine ⟨fun h => ?_, fun hi hf => ⟨_, by rw [if_neg]; intro h; exact (hcond.1 h).elim (by omega) hf, rfl, ?_, ?_⟩⟩
  · dsimp only
    rw [if_pos (hcond.2 h)]
  · exact List.mem_append_right _ List.mem_cons_self
  · exact ((keeps_onPkg s _ rfl).mono (by simp)).trans ((keeps_due _ _).mono (by simp))

theorem ctxLostClear_spec {s : State} (hs : Canonical s) (v : Word) :
    ∃ t : State, exec (.ctxLostClear v) s = .next t ∧
      t.ctx s.hart.ctx = { s.ctx s.hart.ctx with lost := (s.ctx s.hart.ctx).lost &&& ~~~v } ∧ Keeps [.contexts] s t := by
  obtain ⟨-, -, -, -, -, -, -, -, hx, -⟩ := hs
  exact ⟨_, rfl, (State.ctx_onCtx hx _ _ _).trans (if_pos rfl), keeps_onCtx _ _ _⟩

theorem ctxSaveUseClear_spec {s : State} (hs : Canonical s) {i : Word} (v : Word) (hi : i.toNat < 16384) :
    let x := BitVec.ofNat 12 (i.toNat / 4)
    ∃ t : State, exec (.ctxSaveUseClear i v) s = .next t ∧
      (t.ctx x).saveUse.getD (i.toNat % 4) 0 = (s.ctx x).saveUse.getD (i.toNat % 4) 0 &&& ~~~v ∧ Keeps [.contexts] s t := by
  intro x
  obtain ⟨-, -, -, -, -, -, -, -, hx, -⟩ := hs
  have hexec : exec (.ctxSaveUseClear i v) s = .next (s.clearSaveUse i v) := rfl
  rw [hexec, State.clearSaveUse, if_neg (by omega)]
  refine ⟨_, rfl, ?_, keeps_onCtx _ _ _⟩
  rw [State.ctx_onCtx hx, if_pos rfl]
  have h4 : i.toNat % 4 < 4 := Nat.mod_lt _ (by omega)
  simp [x, Vector.getD, h4]

theorem stallEvictClear_spec (s : State) :
    ∃ t : State, exec .stallEvictClear s = .next t ∧ t.hart.stalls = [] ∧ t.hart.stallEvict = s.hart.stallEvict ∧
      Keeps [.stalls] s t := by
  refine ⟨_, rfl, rfl, rfl, ?_⟩
  intro p hp
  cases p <;> simp [Agree, SameRegisters, State.clearStalls] at hp ⊢

theorem sysregWrite_trace_spec {s : State} (hs : Canonical s) (i v : Word) :
    ∃ t : State, exec (.sysregWrite 0x7B1 i v) s = .next t ∧ (t.ctx s.hart.ctx).trcCfg = v &&& 0xFFFF3FFF#64 ∧
      Keeps [.contexts] s t := by
  obtain ⟨-, -, -, -, -, -, -, -, hx, -⟩ := hs
  exact ⟨_, rfl, congrArg Ctx.trcCfg ((State.ctx_onCtx hx _ _ _).trans (if_pos rfl)), keeps_onCtx _ _ _⟩

theorem sysregWrite_save_spec {s : State} (hs : Canonical s) {i : Word} (v : Word) (hi : i.toNat < 4096) :
    ∃ t : State, exec (.sysregWrite 0x7AA i v) s = .next t ∧ (t.ctx (i.setWidth 12)).save = v &&& 0x1FFFFFFFFF800000#64 ∧
      Keeps [.contexts] s t := by
  obtain ⟨-, -, -, -, -, -, -, -, hx, -⟩ := hs
  have hexec : exec (.sysregWrite 0x7AA i v) s = .next (if 4096 ≤ i.toNat then s else
    s.onCtx (i.setWidth 12) fun x => { x with save := v &&& 0x1FFFFFFFFF800000#64 }) := rfl
  rw [hexec, if_neg (by omega)]
  exact ⟨_, rfl, congrArg Ctx.save ((State.ctx_onCtx hx _ _ _).trans (if_pos rfl)), keeps_onCtx _ _ _⟩

end Sys2Proof.Safety


/-! Loads of code and of advice (R280, R282, R288, R296). -/

namespace Sys2Proof.Machine
open State (Quiet)

theorem State.noteBytes_quiet (s : State) (c : BitVec 12) (va n : Nat) : s.Quiet (s.noteBytes c va n) := by
  unfold State.noteBytes
  refine (State.noteRange_cached s c va n).quiet.trans (.foldl (fun t g => ?_) _ _)
  split
  · exact State.engineRead_quiet _ _ _ _ _
  · exact .refl _

theorem State.noteObject_quiet (s : State) (c : BitVec 12) (va : Nat) (kinds : List Bool) : s.Quiet (s.noteObject c va kinds) := by
  have h := State.noteBytes_quiet s c va 64
  unfold State.noteObject
  dsimp only
  split
  · exact h
  · refine (h.trans (State.noteBytes_quiet _ _ _ _)).trans (.foldl (fun t k => ?_) _ _)
    split
    · exact State.noteBytes_quiet _ _ _ _
    · exact .refl _

theorem State.noteSignature_quiet (s : State) (c : BitVec 12) (va : Nat) : s.Quiet (s.noteSignature c va) := by
  unfold State.noteSignature
  dsimp only
  split
  · exact .refl s
  · split
    · exact .refl s
    · exact .ite (.refl s) ((State.noteBytes_quiet s _ _ _).trans (State.noteBytes_quiet _ _ _ _))

/-- What a load does to its context once its reads are noted: the context is f of one that runs the program of before. -/
theorem State.Quiet.onCtx {s t : State} (hs : Safety.Canonical s) (h : s.Quiet t) (c : BitVec 12) (f : Ctx → Ctx) :
    ∃ x, ((t.onCtx c f).ctx c) = f x ∧ x.program = (s.ctx c).program ∧ Safety.Keeps Safety.deviceEffects s (t.onCtx c f) := by
  obtain ⟨-, -, -, -, -, -, -, -, hx, -⟩ := hs
  obtain ⟨ht, hp⟩ := h.ctxs hx
  refine ⟨t.ctx c, (State.ctx_onCtx ht c f c).trans (if_pos rfl), hp c, ?_⟩
  exact (Safety.keeps_deviceEffects h.traffic h.frame).trans
    ((Safety.keeps_onCtx t c f).mono (by simp [Safety.deviceEffects, Safety.accessEffects, Safety.traceEffects]))

/-! The result of a load. -/

theorem State.readObject_of_not_live {s : State} {c : BitVec 12} (h : (s.ctx c).live = false) (va : Nat) :
    s.readObject c va = .error 4 := by
  unfold State.readObject
  rw [h]
  rfl

theorem State.codeResult_of_unread {s : State} {c : BitVec 12} {va r : Nat} (h : s.readObject c va = .error r) :
    s.codeResult c va = .error r := by
  unfold State.codeResult
  rw [h]

theorem State.codeResult_of_running {s : State} {c : BitVec 12} {va : Nat} {es : List ObjectEntry} (h : s.readObject c va = .ok es)
    (hr : s.running c = true) : s.codeResult c va = .error 6 := by
  unfold State.codeResult
  rw [h]
  dsimp only
  rw [if_pos hr]

theorem State.signed_of_no_key {s : State} {c : BitVec 12} (h : (s.tenant (tenantOf c)).key = 0) (va : Nat) (e : ObjectEntry)
    (image : List Byte) : s.signed c va e image = .ok () := by
  unfold State.signed
  rw [h]
  rfl

theorem State.codeResult_of_chosen {s : State} {c : BitVec 12} {va : Nat} {es : List ObjectEntry} {e : ObjectEntry} {image : List Byte}
    (h : s.readObject c va = .ok es) (hr : s.running c = false)
    (hw : winner (es.filter fun e => !e.advice && s.eligible c e) = some e) (hi : s.bytesIn c (va + e.off) e.size = .ok image)
    (ha : s.chooseAdvice c va es = .ok none) (hk : (s.tenant (tenantOf c)).key = 0) :
    s.codeResult c va = .ok (e, image, none) := by
  unfold State.codeResult
  rw [h]
  dsimp only
  rw [if_neg (by rw [hr]; exact Bool.false_ne_true), hw]
  dsimp only
  rw [hi, ha]
  dsimp only
  rw [State.signed_of_no_key hk]

end Sys2Proof.Machine

namespace Sys2Proof.Safety
open Sys2Proof.Machine

theorem codeLoad_fails {s : State} (hs : Canonical s) {i v : Word} (hi : i.toNat < 4096) {r : Nat}
    (h : s.codeResult (i.setWidth 12) v.toNat = .error r) (hr : r ≠ notYet) :
    let c := i.setWidth 12
    ∃ t : State, exec (.codeLoad i v) s = .next t ∧
      (t.ctx c).codeStatus = BitVec.ofNat 64 (r + 0xFF0000) ∧ (t.ctx c).image = (s.ctx c).image ∧
      (t.ctx c).advice = (s.ctx c).advice ∧ (t.ctx c).attCtx = (s.ctx c).attCtx ∧ Keeps deviceEffects s t := by
  intro c
  have hq := (State.noteObject_quiet s c v.toNat [false, true]).trans (State.noteSignature_quiet _ c v.toNat)
  have hexec : exec (.codeLoad i v) s = .next (((s.noteObject c v.toNat [false, true]).noteSignature c v.toNat).onCtx c
      fun x => { x with codeStatus := failedStatus r }) := by
    show execCodeLoad i v s = _
    unfold execCodeLoad State.loadCode
    dsimp only
    rw [if_neg (by omega), h]
    dsimp only
    rw [if_neg hr]
  obtain ⟨x, hx, hp, hkeeps⟩ := hq.onCtx hs c fun x => { x with codeStatus := failedStatus r }
  simp only [Ctx.program, Prod.mk.injEq] at hp
  obtain ⟨-, -, himage, hadvice, -, hatt, -⟩ := hp
  exact ⟨_, hexec, by rw [hx]; rfl, by rw [hx]; exact himage, by rw [hx]; exact hadvice, by rw [hx]; exact hatt, hkeeps⟩

theorem codeLoad_of_chosen {s : State} (hs : Canonical s) {i v : Word} (hi : i.toNat < 4096) {e : ObjectEntry} {image : List Byte}
    (h : s.codeResult (i.setWidth 12) v.toNat = .ok (e, image, none)) :
    let c := i.setWidth 12
    ∃ t : State, exec (.codeLoad i v) s = .next t ∧ (∃ pages, (t.ctx c).image =
        some ⟨BitVec.ofNat 64 ((v.toNat + e.off + e.textOff) % 2 ^ 64), e.textSize, pages⟩) ∧ (t.ctx c).advice = none ∧
      (t.ctx c).codeStatus = BitVec.ofNat 64 (e.index * 256 + 0xFF0000) ∧
      (t.ctx c).attCtx = attExtend (s.ctx c).attCtx image ∧ (t.ctx c).attAdv = 0 ∧ Keeps deviceEffects s t := by
  intro c
  let lo := (v.toNat + e.off + e.textOff) % 2 ^ 64
  let f := fun (x : Ctx) => { x with
    image := some ⟨BitVec.ofNat 64 lo, e.textSize, s.textPages c lo e.textSize⟩
    advice := none
    attCtx := attExtend x.attCtx image
    attAdv := 0
    codeStatus := BitVec.ofNat 64 (e.index * 256 + 0xFF0000) }
  have hq := ((State.noteObject_quiet s c v.toNat [false, true]).trans (State.noteSignature_quiet _ c v.toNat)).trans
    (State.noteRange_cached _ c lo e.textSize).quiet
  have hexec : exec (.codeLoad i v) s = .next
      ((((s.noteObject c v.toNat [false, true]).noteSignature c v.toNat).noteRange c lo e.textSize).onCtx c f) := by
    show execCodeLoad i v s = _
    unfold execCodeLoad State.loadCode
    dsimp only
    rw [if_neg (by omega), h]
    rfl
  obtain ⟨x, hx, hp, hkeeps⟩ := hq.onCtx hs c f
  simp only [Ctx.program, Prod.mk.injEq] at hp
  obtain ⟨-, -, -, -, -, hatt, -⟩ := hp
  refine ⟨_, hexec, ⟨s.textPages c lo e.textSize, by rw [hx]⟩, by rw [hx], by rw [hx], ?_, by rw [hx], hkeeps⟩
  rw [hx, ← hatt]

/-- Only bits 7 to 0 and 23 to 16 of the status change, and bit 24. -/
theorem bits_adviceStatus (x : Word) (n g : Nat) (hg : g = 0 ∨ g = 2 ^ 24) :
    bits ((x &&& 0xFF00#64) ||| BitVec.ofNat 64 (n * 2 ^ 16 + g)).toNat 15 8 = bits x.toNat 15 8 := by
  have hfield : (0xFF00 : Nat) = 2 ^ 8 * (2 ^ 8 - 1) := rfl
  obtain ⟨m, hm⟩ : ∃ m, n * 2 ^ 16 + g = 2 ^ 16 * m := by
    rcases hg with rfl | rfl
    · exact ⟨n, by omega⟩
    · exact ⟨n + 2 ^ 8, by omega⟩
  apply Nat.eq_of_testBit_eq
  intro k
  simp only [bits, Nat.testBit_mod_two_pow, Nat.testBit_shiftRight, BitVec.toNat_or, BitVec.toNat_and, BitVec.toNat_ofNat, hm,
    Nat.testBit_or, Nat.testBit_and, Nat.testBit_two_pow_mul]
  by_cases hk : k < 8
  · have h16 : ¬ 16 ≤ 8 + k := by omega
    have hmask : Nat.testBit 0xFF00 (8 + k) = true := by
      rw [hfield, Nat.testBit_two_pow_mul, Nat.testBit_two_pow_sub_one]
      simp [hk]
    simp [hk, h16, hmask, show 8 + k < 64 by omega]
  · simp [hk]

theorem advLoad_spec {s : State} (hs : Canonical s) {i v : Word} {es : List ObjectEntry} {e : ObjectEntry} {bs : List Byte}
    {a : AdviceImage} {g : Nat} (hi : i.toNat < 4096) (h : s.readObject (i.setWidth 12) v.toNat = .ok es)
    (hc : s.chooseAdvice (i.setWidth 12) v.toNat es = .ok (some (e, bs, a, g))) :
    let c := i.setWidth 12
    ∃ t : State, exec (.advLoad i v) s = .next t ∧ (t.ctx c).advice = some a ∧ (t.ctx c).attAdv = attExtend 0 bs ∧
      (t.ctx c).image = (s.ctx c).image ∧ bits (t.ctx c).codeStatus.toNat 15 8 = bits (s.ctx c).codeStatus.toNat 15 8 ∧
      Keeps deviceEffects s t := by
  intro c
  let f := fun (x : Ctx) => { x with
    advice := some a
    attAdv := attExtend 0 bs
    codeStatus := (x.codeStatus &&& 0xFF00#64) ||| BitVec.ofNat 64 (e.index * 2 ^ 16 + s.genBit g) }
  have hexec : exec (.advLoad i v) s = .next ((s.noteObject c v.toNat [true]).onCtx c f) := by
    show execAdvLoad i v s = _
    unfold execAdvLoad State.loadAdvice
    dsimp only
    rw [if_neg (by omega), h]
    dsimp only
    rw [hc]
  have hgen : s.genBit g = 0 ∨ s.genBit g = 2 ^ 24 := by
    unfold State.genBit
    split
    · exact .inr rfl
    · exact .inl rfl
  obtain ⟨x, hx, hp, hkeeps⟩ := (State.noteObject_quiet s c v.toNat [true]).onCtx hs c f
  simp only [Ctx.program, Prod.mk.injEq] at hp
  obtain ⟨-, -, himage, -, hstatus, -⟩ := hp
  refine ⟨_, hexec, by rw [hx], by rw [hx], by rw [hx]; exact himage, ?_, hkeeps⟩
  rw [hx, ← hstatus]
  exact bits_adviceStatus _ _ _ hgen

end Sys2Proof.Safety


/-! The end of a context (R129, R271, R277). -/

namespace Sys2Proof.Machine

/-! The table of contexts stays canonical, and the Looms run what they ran, through everything that the end of a context runs. -/

/-- From s to t the table of contexts stays canonical, and the Looms run the same microcode. -/
structure State.Tidy (s t : State) : Prop where
  ctxs : Sparse.wf (fun _ => Ctx.none) s.ctxs = true → Sparse.wf (fun _ => Ctx.none) t.ctxs = true
  image : t.loom.image = s.loom.image

namespace State.Tidy

theorem of_eq {s t : State} (h : t.ctxs = s.ctxs) (k : t.loom.image = s.loom.image) : s.Tidy t := ⟨fun hs => h ▸ hs, k⟩

theorem refl (s : State) : s.Tidy s := ⟨id, rfl⟩

theorem trans {s t u : State} (h : s.Tidy t) (k : t.Tidy u) : s.Tidy u := ⟨fun hs => k.ctxs (h.ctxs hs), k.image.trans h.image⟩

theorem ite {s t u : State} {p : Prop} [Decidable p] (ht : s.Tidy t) (hu : s.Tidy u) : s.Tidy (if p then t else u) := by
  split
  · exact ht
  · exact hu

theorem foldl {α : Type} {f : State → α → State} (hf : ∀ (t : State) (a : α), t.Tidy (f t a)) (l : List α) (s : State) :
    s.Tidy (l.foldl f s) := by
  induction l generalizing s with
  | nil => exact refl s
  | cons a l ih => exact (hf s a).trans (ih _)

theorem onCtx (s : State) (c : BitVec 12) (f : Ctx → Ctx) : s.Tidy (s.onCtx c f) := ⟨fun h => Sparse.wf_set h _ _, rfl⟩

end State.Tidy

open State (Tidy)

theorem State.Traffic.loom {s t : State} (h : s.Traffic t) : t.loom = s.loom := by
  have hs := h.still
  simp only [State.still, Prod.mk.injEq] at hs
  simp only [hs]

theorem State.Traffic.tidy {s t : State} (h : s.Traffic t) : s.Tidy t := ⟨h.ctxs, congrArg Loom.image h.loom⟩

/-! Prefetches carried out. -/

theorem State.prefetchLine_tidy (s : State) (a : Accessor) (va l : Nat) : s.Tidy (s.prefetchLine a va l) := by
  unfold State.prefetchLine
  exact .ite (.refl s) (State.readLine_traffic _ _ _ _ _ _).tidy

theorem State.fillLevel_tidy (s : State) (h : Hart) (level : PrefetchLevel) (va l : Nat) : s.Tidy (s.fillLevel h level va l) := by
  unfold State.fillLevel
  split
  · exact .ite (.refl s) (State.fileLine_traffic _ _ _ _).tidy
  · exact State.prefetchLine_tidy _ _ _ _
  · exact State.prefetchLine_tidy _ _ _ _

theorem State.landLine_tidy (s : State) (who : AgentId) (level : PrefetchLevel) (va : Nat) : s.Tidy (s.landLine who level va) := by
  unfold State.landLine
  split
  · exact .refl s
  next h _ =>
    have hin : s.Tidy (s.prefetchInto h level va) := by
      unfold State.prefetchInto
      split
      · exact (State.keepTranslation_traffic _ _ _).tidy.trans (State.fillLevel_tidy _ _ _ _ _)
      · exact .onCtx _ _ _
    exact .ite (.of_eq rfl rfl) (hin.trans (.of_eq rfl rfl))

theorem execAdvicePrefetchWalk_tidy {s t : State} {who : AgentId} {level : PrefetchLevel} {a : Word} {n : Nat}
    (h : execAdvicePrefetchWalk who level a n s = .next t) : s.Tidy t := by
  unfold execAdvicePrefetchWalk at h
  split at h
  · cases h
  · split at h
    · cases h
    · cases h
      exact .foldl (fun _ _ => State.landLine_tidy _ _ _ _) _ _

theorem State.flushPrefetches_tidy (s : State) (ids : List AgentId) : s.Tidy (s.flushPrefetches ids) := by
  refine .foldl (fun t d => ?_) _ s
  split
  · refine .ite ?_ (.refl t)
    split
    next u hu => exact execAdvicePrefetchWalk_tidy hu
    · exact .refl t
  · exact .refl t

/-! Tile operations, and saved state. -/

theorem State.carryPoison_tidy (s : State) (quad : Nat) (f : Fmt) (a b kc row col : Nat) :
    s.Tidy (s.carryPoison quad f a b kc row col) := by
  unfold State.carryPoison
  exact .ite (.refl s) (.ite (.refl s) (.of_eq rfl rfl))

theorem State.healCells_tidy (s : State) (quad row col H w : Nat) : s.Tidy (s.healCells quad row col H w) := by
  unfold State.healCells
  exact .ite (.refl s) (.of_eq rfl rfl)

theorem State.writeWindow_tidy (s : State) (quad row col H W : Nat) (wide : Bool) (new : Nat → Nat → Nat) :
    s.Tidy (s.writeWindow quad row col H W wide new) := .of_eq rfl rfl

theorem State.fresh_tidy (s : State) : s.Tidy s.fresh := .of_eq rfl rfl

theorem State.runTileOp_tidy (s : State) (quad : Nat) (op : TileOp) : s.Tidy (s.runTileOp quad op) := by
  cases op <;> rw [State.runTileOp]
  case mma =>
    refine Tidy.trans ?_ (State.carryPoison_tidy _ _ _ _ _ _ _ _)
    exact State.Tidy.trans (State.writeWindow_tidy _ _ _ _ _ _ _ _) (State.fresh_tidy _)
  case accz => exact (State.writeWindow_tidy _ _ _ _ _ _ _ _).trans (State.healCells_tidy _ _ _ _ _ _)
  case tscl => exact State.writeWindow_tidy _ _ _ _ _ _ _ _
  case scaleA => exact .of_eq rfl rfl
  case scaleW => exact .of_eq rfl rfl

theorem State.finishRunning_tidy (s : State) (quad : Nat) : s.Tidy (s.finishRunning quad) := by
  unfold State.finishRunning
  split
  · exact .refl s
  · exact (State.runTileOp_tidy s _ _).trans (.of_eq rfl rfl)

theorem State.saveMatrix_tidy (s : State) (c : BitVec 12) (quad base : Nat) (cores : List Nat) (n : Nat) (ops : List TileOp) :
    s.Tidy (s.saveMatrix c quad base cores n ops) := by
  have h := (State.saveParts_traffic s (s.matrixParts quad base cores n ops)).tidy
  unfold State.saveMatrix
  exact .ite h ((h.trans (State.poisonWritten_traffic _ _).tidy).trans (.onCtx _ _ _))

/-! Bundles that stop. -/

theorem State.removeHarts_tidy (s : State) (p : Hart → Bool) : s.Tidy (s.removeHarts p) := by
  unfold State.removeHarts
  dsimp only
  refine .ite ?_ (.of_eq rfl rfl)
  split
  · exact .of_eq rfl rfl
  · exact .of_eq rfl rfl

theorem State.dropTransfers_tidy (s : State) (away : Bool) (hs : List Hart) : s.Tidy (s.dropTransfers away hs) := .of_eq rfl rfl

theorem State.dropDue_tidy (s : State) (ids : List AgentId) : s.Tidy (s.dropDue ids) := .of_eq rfl rfl

theorem State.awayMembers_tidy (s : State) (hs : List Hart) : s.Tidy (s.awayMembers hs) := .of_eq rfl rfl

theorem State.dropLocks_tidy (s : State) (c : BitVec 12) : s.Tidy (s.dropLocks c) := by
  unfold State.dropLocks
  exact .ite (.refl s) (.onCtx _ _ _)

theorem State.preempt_tidy (s : State) (b : Bundle) (slot : Nat) (reason : BitVec 8) : s.Tidy (s.preempt b slot reason) := by
  unfold State.preempt
  extract_lets c ids s1 s2 s3 hs s4 q barriers s5 s6 s7 s8 s9
  have h1 : s.Tidy s1 := .foldl (fun _ _ => (State.abortRegion_traffic _ _ _).tidy) _ _
  have h2 : s.Tidy s2 := .ite (h1.trans (State.finishRunning_tidy _ _)) h1
  have h3 : s.Tidy s3 := (h2.trans (State.flushPrefetches_tidy _ _)).trans (.of_eq rfl rfl)
  have h4 : s.Tidy s4 := h3.trans (.foldl (fun _ _ => (State.trace_traffic _ _ _ _ _ _).tidy) _ _)
  have h5 : s.Tidy s5 := h4.trans (.of_eq rfl rfl)
  have h6 : s.Tidy s6 := h5.trans (.foldl (fun _ _ => (State.saveHart_traffic _ _ _ _ _).tidy) _ _)
  have h7 : s.Tidy s7 := .ite ((h6.trans (State.saveMatrix_tidy _ _ _ _ _ _ _)).trans (.of_eq rfl rfl)) h6
  have h8 : s.Tidy s8 := ((h7.trans (State.awayMembers_tidy _ _)).trans (State.removeHarts_tidy _ _)).trans (State.dropDue_tidy _ _)
  have h9 : s.Tidy s9 := h8.trans (.of_eq rfl rfl)
  exact ((h9.trans (.onCtx _ _ _)).trans (State.dropLocks_tidy _ _)).trans (.of_eq rfl rfl)

/-! What records of the Loom, and failures of jobs, leave alone beside the canonical table. -/

/-- Barriers, saved harts, windows and bundles. -/
def State.holdings (s : State) : List (BarrierKey × Barrier) × List Hart × List Window × List Bundle :=
  (s.barriers, s.saved, s.windows, s.loom.bundles)

/-- What the Loom writes about a job or a QCB from s to t. -/
structure State.Reported (s t : State) : Prop where
  tidy : s.Tidy t
  holdings : t.holdings = s.holdings

namespace State.Reported

theorem refl (s : State) : s.Reported s := ⟨.refl s, rfl⟩

theorem trans {s t u : State} (h : s.Reported t) (k : t.Reported u) : s.Reported u := ⟨h.tidy.trans k.tidy, k.holdings.trans h.holdings⟩

theorem of_eq {s t : State} (h : t.ctxs = s.ctxs) (hi : t.loom.image = s.loom.image) (k : t.holdings = s.holdings) : s.Reported t :=
  ⟨.of_eq h hi, k⟩

theorem ite {s t u : State} {p : Prop} [Decidable p] (ht : s.Reported t) (hu : s.Reported u) : s.Reported (if p then t else u) := by
  split
  · exact ht
  · exact hu

theorem foldl {α : Type} {f : State → α → State} (hf : ∀ (t : State) (a : α), t.Reported (f t a)) (l : List α) (s : State) :
    s.Reported (l.foldl f s) := by
  induction l generalizing s with
  | nil => exact refl s
  | cons a l ih => exact (hf s a).trans (ih _)

end State.Reported

open State (Reported)

theorem State.Traffic.reported {s t : State} (h : s.Traffic t) : s.Reported t := ⟨h.tidy, by
  have hs := h.still
  simp only [State.still, Prod.mk.injEq] at hs
  simp only [State.holdings, hs]⟩

theorem State.setQword_reported (s : State) (q : Word) (off x : Nat) : s.Reported (s.setQword q off x) :=
  (State.deviceWrite_traffic _ _ _).reported

theorem State.setStatus_reported (s : State) (pa state code : Nat) : s.Reported (s.setStatus pa state code) :=
  (State.deviceWrite_traffic _ _ _).reported

theorem State.overrun_reported (s : State) (q : Word) : s.Reported (s.overrun q) :=
  (State.setQword_reported s q _ _).trans (.of_eq rfl rfl rfl)

theorem State.writeRecord_reported (s : State) (q : Word) (c : BitVec 12) (va : Nat) (bs : List Byte) :
    s.Reported (s.writeRecord q c va bs) := by
  unfold State.writeRecord
  dsimp only
  refine .ite (.of_eq rfl rfl rfl) (Reported.trans ?_ (State.setQword_reported _ _ _ _))
  split
  next t ht => exact (State.writeIn_some ht).reported
  · exact (State.noteWalk_traffic _ _ _).reported.trans (State.overrun_reported _ _)

theorem State.storeRecord_reported (s : State) (q : Word) (base size : Nat) (ws : List Word) :
    s.Reported (s.storeRecord q base size ws) := by
  unfold State.storeRecord
  extract_lets va t
  have ht : s.Reported t := .ite (State.overrun_reported s q) (.refl s)
  exact ht.trans (State.writeRecord_reported _ _ _ _ _)

theorem State.putDecision_reported (s : State) (q : Word) (ws : List Word) : s.Reported (s.putDecision q ws) := by
  unfold State.putDecision
  split
  · exact .refl s
  · exact .ite (.ite (.of_eq rfl rfl rfl) (State.overrun_reported s q)) (State.storeRecord_reported s q _ _ ws)

theorem State.decision_reported (s : State) (q : Word) (kind : Nat) (job : Word) (bidx eprio : Nat) (p : PlaceInfo) (r : BitVec 8) :
    s.Reported (s.decision q kind job bidx eprio p r) :=
  have h : s.Reported s.fresh := .of_eq rfl rfl rfl
  h.trans (State.putDecision_reported _ _ _)

theorem State.failJob_reported (n : Nat) (j : Job) (code : Byte) (s : State) : s.Reported (State.failJob n j code s) := by
  have h (j : Job) (code : Byte) (s : State) : s.Reported (State.failJob 0 j code s) := by
    unfold State.failJob State.setHead State.decisionAlone
    exact ((Reported.of_eq rfl rfl rfl : s.Reported (s.onJob j.qcb j.id fun k => { k with state := 3, code := code })).trans
      ((State.setStatus_reported _ _ _ _).trans (State.setQword_reported _ _ _ _))).trans (State.decision_reported _ _ _ _ _ _ _ _)
  induction n generalizing j code s with
  | zero => exact h j code s
  | succ n ih => exact (h j code s).trans (.foldl (fun t k => ih k 2 t) _ _)

theorem State.dropEnded_reported (s : State) : s.Reported s.dropEnded := .of_eq rfl rfl rfl

theorem State.fail_reported (s : State) (qcb id : Word) (code : Byte) : s.Reported (s.fail qcb id code) := by
  unfold State.fail
  split
  · exact .refl s
  · exact .ite ((State.failJob_reported _ _ code s).trans (.of_eq rfl rfl rfl)) (.refl s)

theorem State.settleCore_reported (s : State) (gc : Nat) : s.Reported (s.settleCore gc) := by
  unfold State.settleCore
  exact .ite (.of_eq rfl rfl rfl) (.refl s)

theorem State.bumpQ_reported (s : State) (q : Word) (i : Nat) : s.Reported (s.bumpQ q i) := State.setQword_reported _ _ _ _

theorem State.onBundle_tidy (s : State) (b : Bundle) (f : Bundle → Bundle) : s.Tidy (s.onBundle b f) := .of_eq rfl rfl

theorem State.decide_reported (s : State) (tenant i : Nat) : s.Reported (s.decide_ tenant i) := .of_eq rfl rfl rfl

theorem State.preemptContext_tidy (s : State) (c : BitVec 12) : s.Tidy (s.preemptContext c) := by
  refine .foldl (fun t b => ?_) _ s
  dsimp only
  split
  · refine Tidy.trans ?_ (State.decide_reported _ _ _).tidy
    refine Tidy.trans ?_ (State.bumpQ_reported _ _ _).tidy
    refine Tidy.trans ?_ (State.decision_reported _ _ _ _ _ _ _ _).tidy
    exact (State.preempt_tidy t b _ 0).trans (State.onBundle_tidy _ _ _)
  · have h1 (ids : List AgentId) : t.Tidy (ids.foldl (fun s id => s.abortRegion id 6) t) :=
      .foldl (fun _ _ => (State.abortRegion_traffic _ _ _).tidy) _ _
    have h2 (ids : List AgentId) (hs : List Hart) :
        t.Tidy (((((ids.foldl (fun s id => s.abortRegion id 6) t).dropTransfers false hs).flushPrefetches ids).removeHarts b.has).dropDue ids) :=
      (((h1 ids).trans (State.dropTransfers_tidy _ _ _)).trans (State.flushPrefetches_tidy _ _)).trans
        ((State.removeHarts_tidy _ _).trans (State.dropDue_tidy _ _))
    exact .ite ((h2 _ _).trans (.of_eq rfl rfl)) (h2 _ _)

end Sys2Proof.Machine

namespace Sys2Proof.Safety
open Sys2Proof.Machine

theorem ctxEnd_spec {s : State} (hs : Canonical s) {i : Word} (hi : i.toNat < 4096) (hl : (s.ctx (i.setWidth 12)).live = true) :
    let c := i.setWidth 12
    ∃ t : State, exec (.ctxEnd i) s = .next t ∧ t.ctx c = Ctx.none ∧
      (∀ p ∈ t.barriers, p.1.ctx ≠ c) ∧ (∀ h ∈ t.saved, h.ctx ≠ c) ∧ (∀ w ∈ t.windows, w.ctx ≠ c) ∧
      (∀ b ∈ t.loom.bundles, b.ctx ≠ c) ∧ (∀ x ∈ t.pkg.tileCache, x.tile.ctx ≠ c) ∧ ∀ x ∈ t.pkg.tlb, x.ctx ≠ c := by
  intro c
  obtain ⟨-, -, -, -, -, -, -, -, hx, -⟩ := hs
  have hexec : exec (.ctxEnd i) s = .next (s.endCtx i) := rfl
  rw [hexec]
  unfold State.endCtx
  have hgo : ¬ (4096 ≤ i.toNat ∨ (!(s.ctx (i.setWidth 12)).live) = true) := by
    rintro (h | h)
    · omega
    · rw [hl] at h
      exact absurd h Bool.false_ne_true
  rw [if_neg hgo]
  extract_lets s1 gone s2 bundles loom s3 s4 js s5
  have h13 : s1.Tidy s3 := .of_eq rfl rfl
  have h34 : s3.Reported s4 := .foldl (fun _ b => .foldl (fun _ k => State.settleCore_reported _ _) _ _) _ _
  have h45 : s4.Reported s5 := .foldl (fun _ _ => State.fail_reported _ _ _ _) _ _
  have hend : s3.Reported s5.dropEnded := (h34.trans h45).trans (State.dropEnded_reported s5)
  have htidy : s.Tidy s5.dropEnded := ((State.preemptContext_tidy s c).trans h13).trans hend.tidy
  obtain ⟨hb, hsv, hw, hbs⟩ : s5.dropEnded.barriers = s3.barriers ∧ s5.dropEnded.saved = s3.saved ∧
      s5.dropEnded.windows = s3.windows ∧ s5.dropEnded.loom.bundles = s3.loom.bundles := by
    simpa only [State.holdings, Prod.mk.injEq] using hend.holdings
  have hfilter {α : Type} {l : List α} {p : α → BitVec 12} {x : α} (h : x ∈ l.filter fun y => decide (p y ≠ c)) : p x ≠ c :=
    of_decide_eq_true (List.mem_filter.1 h).2
  generalize s5.dropEnded = u at hb hsv hw hbs htidy
  refine ⟨_, rfl, ?_, fun p hp => ?_, fun h hh => ?_, fun w hw' => ?_, fun b hb' => ?_, fun x hx => ?_, fun x hx => ?_⟩
  · refine (State.ctx_onCtx ?_ _ _ _).trans (if_pos rfl)
    exact htidy.ctxs hx
  · exact hfilter (p := fun p : BarrierKey × Barrier => p.1.ctx) (hb ▸ show p ∈ u.barriers from hp)
  · exact hfilter (p := Hart.ctx) (hsv ▸ show h ∈ u.saved from hh)
  · exact hfilter (p := Window.ctx) (hw ▸ show w ∈ u.windows from hw')
  · exact hfilter (p := Bundle.ctx) (hbs ▸ show b ∈ u.loom.bundles from hb')
  · exact hfilter (p := fun x : TileLine => x.tile.ctx) hx
  · exact hfilter (p := Translation.ctx) hx

theorem ctxEnd_of_not_live {s : State} {i : Word} (hl : (s.ctx (i.setWidth 12)).live = false) : exec (.ctxEnd i) s = .next s := by
  have hexec : exec (.ctxEnd i) s = .next (s.endCtx i) := rfl
  rw [hexec]
  unfold State.endCtx
  rw [if_pos (.inr (by rw [hl]; rfl))]

end Sys2Proof.Safety


namespace Sys2Proof.Safety
open Sys2Proof.Machine

/-- Settles O55: each write is one change of a table, and what a load of code or advice reads of its object leaves the program of every
context alone. -/
theorem registerSteps : Obligations.RegisterSteps := by
  intro s i v hs c grant
  refine ⟨ctxRoot_spec hs v, ctxEnd_spec hs, ctxEnd_of_not_live, fun _ _ hi hb => tenantDesc_spec hs hi hb, shuttleGrant_spec hs v,
    collGrant_spec hs v, uecBind_spec hs v, fun hi => ?_, fun _ _ _ _ _ hi hr hc => advLoad_spec hs hi hr hc,
    fun _ _ _ _ hh hsize hi => loomReload_spec hh hsize hi, (biasFlip_spec s i v).1, (biasFlip_spec s i v).2, ctxLostClear_spec hs v,
    ctxSaveUseClear_spec hs v, stallEvictClear_spec s, sysregWrite_trace_spec hs i v, sysregWrite_save_spec hs v⟩
  refine ⟨fun hl => ?_, fun r hr hne => codeLoad_fails hs hi (State.codeResult_of_unread hr) hne, fun es hr hrun => ?_,
    fun es e image hr hrun hw hb ha hk => codeLoad_of_chosen hs hi (State.codeResult_of_chosen hr hrun hw hb ha hk)⟩
  · exact codeLoad_fails hs hi (State.codeResult_of_unread (State.readObject_of_not_live hl _)) (by decide)
  · exact codeLoad_fails hs hi (State.codeResult_of_running hr hrun) (by decide)

end Sys2Proof.Safety


/-! The starts and ends of tasks, and the steps that end a wait or complete an operation (R82, R95, R96, R104, R112, R115, R118, R135,
R142, R166, R267, R285, R317). -/

namespace Sys2Proof.Machine
open State (Quiet)

/-! Harts found by name. -/

/-- A hart that is changed under its name is found changed. -/
theorem State.find_update (s : State) (id : AgentId) {f : Hart → Hart} (hf : ∀ h, (f h).id = h.id) :
    (s.update id f).find id = (s.find id).map f := by
  have hharts : (s.update id f).harts = s.harts.map fun h => if h.id = id then f h else h := rfl
  have hid : ((fun h : Hart => decide (h.id = id)) ∘ fun h => if h.id = id then f h else h) = fun h => decide (h.id = id) := by
    funext h
    rw [Function.comp_apply]
    split
    next => rw [hf]
    next => rfl
  rw [State.find, State.find, hharts, List.find?_map, hid]
  cases hs : s.harts.find? fun h => decide (h.id = id) with
  | none => rfl
  | some h =>
    have hh : h.id = id := by simpa using List.find?_some hs
    simp [hh]

/-- What the outline says of a hart that is found. -/
theorem State.find_of_outline {s t : State} (e : t.outline = s.outline) (id : AgentId) :
    (t.find id).map (fun h => (h.bare, h.cnt.tl)) = (s.find id).map fun h => (h.bare, h.cnt.tl) := by
  have h (u : State) : (u.find id).map (fun h => (h.bare, h.cnt.tl)) = u.outline.find? fun p => decide (p.1.id = id) := by
    rw [State.outline, List.find?_map]
    rfl
  rw [h, h, e]

theorem State.dropDue_harts (s : State) (ids : List AgentId) : (s.dropDue ids).harts = s.harts := rfl

/-! Accumulator stores performed. -/

theorem State.engineWrite_outline (s : State) (a : Nat → Accessor) (bs : List (Nat × Byte)) :
    (s.engineWrite a bs).outline = s.outline := by
  unfold State.engineWrite
  extract_lets lines s1 whole s2
  have h1 : s.Quiet s1 := .foldl (fun t l => ((State.outside_quiet t l true).trans (State.writeLine_cached _ _ _ _ _ _).quiet).trans
    (State.clearReservations_quiet _ _)) _ _
  have h2 : s2.outline = s.outline := (State.outline_of_steady (State.setMem_recorded s1 bs).steady).trans h1.outline
  exact ite_keeps State.outline h2 h2

/-- Where nothing traces, an engine writes its bytes and no others. -/
theorem State.engineWrite_mem {s : State} (hx : Sparse.wf (fun _ => Ctx.none) s.ctxs = true) (hu : Safety.Untraced s)
    (a : Nat → Accessor) (bs : List (Nat × Byte)) : (s.engineWrite a bs).mem = s.mem.setBytes bs := by
  unfold State.engineWrite
  extract_lets lines s1 whole s2
  have h1 : s.Quiet s1 := .foldl (fun t l => ((State.outside_quiet t l true).trans (State.writeLine_cached _ _ _ _ _ _).quiet).trans
    (State.clearReservations_quiet _ _)) _ _
  have h2 : s2.mem = s.mem.setBytes bs := by rw [← (h1.memory hx hu).2.1]; exact State.setMem_mem s1 bs
  have hif {p : Prop} [Decidable p] {t u : State} (ht : t.mem = s.mem.setBytes bs) (hu : u.mem = s.mem.setBytes bs) :
      (if p then t else u).mem = s.mem.setBytes bs := by split <;> assumption
  exact hif h2 h2

theorem State.poisonGranules_outline (s : State) (l : List Nat) : (s.poisonGranules l).outline = s.outline :=
  ite_keeps State.outline rfl rfl

theorem State.poisonGranules_mem (s : State) (l : List Nat) : (s.poisonGranules l).mem = s.mem := ite_keeps State.mem rfl rfl

theorem State.mem_poisonGranules (s : State) {l : List Nat} {g : Nat} (h : g ∈ l) : g ∈ (s.poisonGranules l).pkg.poison := by
  have hl : l.isEmpty = false := by
    cases l
    · cases h
    · rfl
  unfold State.poisonGranules
  rw [hl]
  exact List.mem_eraseDups.2 (List.mem_append_right _ h)

/-! Tasks that start. -/

/-- A hart as its task starts (R82, R286). -/
def Hart.begun (a : Advice) (h : Hart) : Hart :=
  { (h.setS 1 h.args).setS 2 (h.task.setWidth 64) with started := true, pc := h.entry &&& ~~~1#48, adv := a }

theorem Hart.begun_getS (a : Advice) (h : Hart) (r : BitVec 5) :
    (Hart.begun a h).getS r = ((h.setS 1 h.args).setS 2 (h.task.setWidth 64)).getS r := rfl

theorem Hart.begun_id (a : Advice) (h : Hart) : (Hart.begun a h).id = h.id := by
  unfold Hart.begun Hart.setS
  simp

/-! Barriers. -/

theorem State.barrier_setBarrier (s : State) (k : BarrierKey) (b : Barrier) (q : BarrierKey) :
    (s.setBarrier k b).barrier q = if q = k then b else s.barrier q := by
  have hrest : ((s.barriers.filter fun p => decide (p.1 ≠ k)).find? fun p => decide (p.1 = q)) =
      if q = k then none else s.barriers.find? fun p => decide (p.1 = q) := by
    rw [List.find?_filter]
    split
    next e =>
      rw [List.find?_eq_none]
      simp [e]
    next e =>
      congr 1
      funext p
      by_cases hp : p.1 = q <;> simp [hp, e]
  unfold State.setBarrier State.barrier
  dsimp only
  by_cases hb : b = Barrier.fresh
  · rw [if_pos hb, hrest]
    split
    · exact hb.symm
    · rfl
  · rw [if_neg hb, List.find?_cons]
    by_cases hq : q = k
    · simp [hq]
    · rw [hrest]
      simp [hq, Ne.symm hq]

theorem State.core_onCore {s : State} (h : Sparse.wf (fun _ => Core.idle) s.cores = true) (c : Nat) (f : Core → Core) :
    (s.onCore c f).core c = f (s.core c) := Sparse.get_set_self h _ _

end Sys2Proof.Machine

namespace Sys2Proof.Safety
open Sys2Proof.Machine

/-- A trace record (R317, R318), whatever hart it is of. -/
theorem keeps_trace (s : State) (h : Hart) (k loc d0 d1 : Nat) : Keeps traceEffects s (s.trace h k loc d0 d1) := by
  have ht := State.trace_traffic s h k loc d0 d1
  have hst := ht.still
  have hsteady := (State.trace_recorded s h k loc d0 d1).steady
  have hframe := State.trace_frame s h k loc d0 d1
  generalize s.trace h k loc d0 d1 = t at *
  simp only [State.still, Prod.mk.injEq] at hst
  simp only [State.steady, State.harts, List.map_cons, Prod.mk.injEq, List.cons.injEq, Hart.mk.injEq] at hsteady
  simp only [State.frame, Prod.mk.injEq] at hframe
  intro p hp
  cases p
  case package => exact ht.pkg
  all_goals simp [traceEffects] at hp
  all_goals simp [Agree, hst, hsteady, hframe]

/-- A change of the harts of one name: what it leaves alone of one hart, it leaves alone. -/
theorem keeps_update {l : List Part} (s : State) (id : AgentId) {f : Hart → Hart} (hf : Keeps l s (s.on f)) :
    Keeps (.others :: l) s (s.update id f) := by
  intro p hp
  rw [List.mem_cons, not_or] at hp
  have h := hf p hp.2
  by_cases hid : s.hart.id = id
  · refine h.trans ?_
    cases p
    case others => exact absurd rfl hp.1
    all_goals simp [Agree, SameRegisters, hid]
  · cases p
    case others => exact absurd rfl hp.1
    all_goals simp [Agree, SameRegisters, hid]

theorem keeps_begun (s : State) (a : Advice) :
    Keeps [.scalars, .integrity, .pc, .task, .advice] s (s.on (Hart.begun a)) := by
  intro p hp
  cases p <;> simp [Agree, SameRegisters, Hart.begun, Hart.setS] at hp ⊢

theorem keeps_adviceAgain (s : State) (core : Nat) : Keeps [.agenda] s (s.adviceAgain core) := by
  unfold State.adviceAgain
  split
  · exact .refl _ s
  · exact keeps_due s _

theorem adviceAgain_find (s : State) (core : Nat) (who : AgentId) : (s.adviceAgain core).find who = s.find who := by
  unfold State.adviceAgain
  split <;> rfl

theorem taskStart_spec (s : State) {who : AgentId} {h : Hart} (hf : s.find who = some h) (ha : h.active = true) (hn : h.started = false) :
    ∃ t : State, exec (.taskStart who) s = .next t ∧
      (t.find who).map (fun k => (k.started, k.pc, k.getS 1, k.getS 2)) = some (true, h.entry &&& ~~~1#48, h.args, h.task.setWidth 64) ∧
      Keeps [.scalars, .integrity, .pc, .task, .advice, .others, .agenda] s t := by
  let a := Advice.fresh (s.ctx h.ctx).advice who.control
  let t := s.update who (Hart.begun a)
  have hexec : exec (.taskStart who) s = .next (if a.state = .running then t.adviceAgain (globalCore who) else t) := by
    show execTaskStart who s = _
    unfold execTaskStart
    rw [hf]
    dsimp only
    rw [ha, hn]
    rfl
  have hfind : (t.find who).map (fun k => (k.started, k.pc, k.getS 1, k.getS 2)) =
      some (true, h.entry &&& ~~~1#48, h.args, h.task.setWidth 64) := by
    rw [State.find_update s who (Hart.begun_id a), hf, Option.map_some, Option.map_some, Hart.begun_getS, Hart.begun_getS,
      Hart.getS_setS, Hart.getS_setS, Hart.getS_setS]
    rfl
  have hkeeps : Keeps [.scalars, .integrity, .pc, .task, .advice, .others, .agenda] s t :=
    (keeps_update s who (keeps_begun s a)).mono (by simp)
  rw [hexec]
  split
  · exact ⟨_, rfl, by rw [adviceAgain_find]; exact hfind, hkeeps.trans ((keeps_adviceAgain t _).mono (by simp))⟩
  · exact ⟨t, rfl, hfind, hkeeps⟩

/-- No active hart of that name is left behind a task's end. -/
theorem taskEnd_spec (s : State) {who : AgentId} {h : Hart} (hf : s.find who = some h) (he : h.ending = true) (hd : h.draining = false)
    (ho : s.oruPending h = false) (hr : s.slotsReleasing h = false) :
    ∃ t : State, exec (.taskEnd who) s = .next t ∧ ∀ k ∈ t.harts, k.active = true → k.id ≠ who := by
  have hexec : exec (.taskEnd who) s = execTaskEnd who s := rfl
  rw [hexec]
  unfold execTaskEnd
  rw [hf]
  dsimp -zeta only
  rw [he, hd, ho, hr]
  rw [if_neg (by decide), if_neg (by decide)]
  extract_lets t0 t1 t2 t3
  have h2 : t2.frame = t1.frame := ite_keeps State.frame rfl (State.settleCore_frame _ _)
  have h3 : t3.frame = t1.frame := (ite_keeps State.frame rfl (State.fail_frame _ _ _ _)).trans h2
  have hgone : ∀ u : State, u.frame = t1.frame → ∀ k ∈ u.harts, k.active = true → k.id ≠ who := by
    intro u hu k hk hactive
    obtain ⟨k', hk', hbare⟩ := State.mem_harts_of_frame hu hk
    have hid : k'.id = k.id := show k'.bare.id = k.bare.id from congrArg Hart.id hbare
    have hact : k'.active = k.active := show k'.bare.active = k.bare.active from congrArg Hart.active hbare
    have hharts : t1.harts = (t0.removeHarts fun k => decide (k.id = who)).harts := State.dropDue_harts _ _
    rw [hharts] at hk'
    rcases State.mem_removeHarts hk' with hne | hidle
    · exact hid ▸ of_decide_eq_false hne
    · rw [hidle] at hact
      exact absurd (hact.trans hactive) Bool.false_ne_true
  refine ⟨_, rfl, hgone _ ?_⟩
  split
  · exact ite_keeps State.frame h3 h3
  · exact h3

theorem urgent_spec (s : State) {who : AgentId} {h : Hart} (hf : s.find who = some h) (ha : h.active = true) (hp : 8 ≤ h.passed) :
    ∃ t : State, exec (.urgent who) s = .next t ∧ (t.find who).map (·.urgent) = some true ∧ Keeps [.scheduling, .others] s t := by
  have hexec : exec (.urgent who) s = .next (s.update who fun h => { h with urgent := true }) := by
    show execUrgent who s = _
    unfold execUrgent
    rw [hf]
    dsimp only
    rw [ha, decide_eq_true hp]
    rfl
  refine ⟨_, hexec, ?_, (keeps_update (l := [.scheduling]) s who ?_).mono (by simp)⟩
  · rw [State.find_update s who, hf]
    · rfl
    · exact fun _ => rfl
  · intro p hp
    cases p <;> simp [Agree, SameRegisters] at hp ⊢

theorem yieldExpiry_spec (s : State) {who : AgentId} {h : Hart} (hf : s.find who = some h) (hy : h.yielded = 1) :
    ∃ t : State, exec (.yieldExpiry who) s = .next t ∧ (t.find who).map (·.yielded) = some 0 ∧ Keeps [.waits, .others] s t := by
  have hexec : exec (.yieldExpiry who) s = .next (s.update who fun h => { h with yielded := 0 }) := by
    show execYieldExpiry who s = _
    unfold execYieldExpiry
    rw [hf]
    exact if_pos hy
  refine ⟨_, hexec, ?_, (keeps_update (l := [.waits]) s who ?_).mono (by simp)⟩
  · rw [State.find_update s who, hf]
    · rfl
    · exact fun _ => rfl
  · intro p hp
    cases p <;> simp [Agree, SameRegisters] at hp ⊢

theorem exec_operationComplete {s : State} {who : AgentId} {h : Hart} (hf : s.find who = some h) {cls : OpClass}
    (hc : s.completable h cls = true) :
    exec (.operationComplete who cls) s = .next ((if cls = .tl then s.finishAccStore who else s).lower who cls) := by
  show execOperationComplete who cls s = _
  unfold execOperationComplete
  rw [hf]
  exact if_pos hc

theorem operationComplete_spec (s : State) {who : AgentId} {h : Hart} (hf : s.find who = some h) {cls : OpClass}
    (hc : s.completable h cls = true) (hn : cls ≠ .tl ∨ h.accStores = []) :
    ∃ t : State, exec (.operationComplete who cls) s = .next t ∧ (t.find who).map (·.cnt) = some (h.cnt.add cls (-1)) ∧
      Keeps [.counters, .others] s t := by
  have hfinish : (if cls = .tl then s.finishAccStore who else s) = s := by
    split
    next htl =>
      unfold State.finishAccStore
      rw [hf]
      dsimp only
      rw [hn.resolve_left (not_not_intro htl)]
      rfl
    next => rfl
  rw [exec_operationComplete hf hc, hfinish]
  refine ⟨_, rfl, ?_, (keeps_update (l := [.counters]) s who ?_).mono (by simp)⟩
  · rw [State.lower, State.find_update s who, hf]
    · rfl
    · exact fun _ => rfl
  · intro p hp
    cases p <;> simp [Agree, SameRegisters] at hp ⊢

theorem operationComplete_store_spec {s : State} (hs : Canonical s) {who : AgentId} {h : Hart} (hf : s.find who = some h)
    {x : AccStore} {rest : List AccStore} (hc : s.completable h .tl = true) (hx : h.accStores = x :: rest) :
    ∃ t : State, exec (.operationComplete who .tl) s = .next t ∧ (t.find who).map (·.accStores) = some rest ∧
      (t.find who).map (·.cnt.tl) = some (h.cnt.tl - 1) ∧ (∀ g ∈ x.bad, g ∈ t.pkg.poison) ∧ (Untraced s →
        (∀ a, a ∉ x.bytes.map (·.1) → t.mem.byte a = s.mem.byte a) ∧
        ∀ before p after, x.bytes = before ++ p :: after → p.1 ∉ after.map (·.1) → t.mem.byte p.1 = p.2) := by
  obtain ⟨hmem, -, -, -, -, -, -, -, hctxs, -⟩ := hs
  let u := (s.engineWrite (fun _ => h.engine) x.bytes).poisonGranules x.bad
  have hfinish : s.finishAccStore who = u.update who fun h => { h with accStores := h.accStores.drop 1 } := by
    unfold State.finishAccStore
    rw [hf]
    dsimp only
    rw [hx]
    rfl
  have hu : u.outline = s.outline := (State.poisonGranules_outline _ _).trans (State.engineWrite_outline _ _ _)
  obtain ⟨k, hk, hbare, htl⟩ : ∃ k, u.find who = some k ∧ k.bare = h.bare ∧ k.cnt.tl = h.cnt.tl := by
    have e := State.find_of_outline hu who
    rw [hf, Option.map_some, Option.map_eq_some_iff] at e
    obtain ⟨k, hk, e⟩ := e
    exact ⟨k, hk, congrArg Prod.fst e, congrArg Prod.snd e⟩
  have hacc : k.accStores = h.accStores := show k.bare.accStores = h.bare.accStores from congrArg Hart.accStores hbare
  rw [exec_operationComplete hf hc, if_pos rfl, hfinish]
  have hfind : ((u.update who fun h => { h with accStores := h.accStores.drop 1 }).lower who .tl).find who =
      some { k with accStores := k.accStores.drop 1, cnt := k.cnt.add .tl (-1) } := by
    rw [State.lower, State.find_update _ who, State.find_update _ who, hk]
    · rfl
    · exact fun _ => rfl
    · exact fun _ => rfl
  refine ⟨_, rfl, ?_, ?_, fun g hg => State.mem_poisonGranules _ hg, fun hun => ?_⟩
  · rw [hfind, Option.map_some, hacc, hx]
    rfl
  · rw [hfind, Option.map_some, ← htl]
    exact congrArg some (sub_eq_add_neg _ _).symm
  · have hm : u.mem = s.mem.setBytes x.bytes := (State.poisonGranules_mem _ _).trans (State.engineWrite_mem hctxs hun _ _)
    refine ⟨fun a ha => ?_, fun before p after e hp => ?_⟩
    · exact (congrArg (Memory.byte · a) hm).trans (Memory.byte_setBytes_other _ ha)
    · refine (congrArg (Memory.byte · p.1) hm).trans ?_
      rw [e]
      exact Memory.byte_setBytes_mem hmem hp

theorem traceSample_spec (s : State) {who : AgentId} {h : Hart} (hf : s.find who = some h) (ha : h.active = true)
    (hb : bits (s.ctx h.ctx).trcCfg.toNat 31 16 ≠ 0) :
    ∃ t : State, exec (.traceSample who) s = .next t ∧ (Untraced s → t.mem = s.mem) ∧ Keeps traceEffects s t := by
  have hexec : exec (.traceSample who) s = execTraceSample who s := rfl
  rw [hexec]
  unfold execTraceSample
  rw [hf]
  dsimp only
  rw [if_neg (by rw [ha, decide_eq_false hb]; decide)]
  refine ⟨_, rfl, fun hu => ?_, ?_⟩
  · rw [State.trace_of_untraced hu]
    split
    · rfl
    · rw [State.trace_of_untraced hu]
  · split
    · exact keeps_trace s h _ _ _ _
    · exact (keeps_trace s h _ _ _ _).trans (keeps_trace _ h _ _ _ _)

/-! Steps that are no hart's. -/

theorem rowGrant_spec {s : State} (hs : Canonical s) {core : Nat} {id : AgentId} {rest : List AgentId}
    (hw : (s.core core).rowWaiters = id :: rest) :
    ∃ t : State, exec (.rowGrant core) s = .next t ∧ (t.core core).rowWaiters = rest ∧
      (∀ h, s.find id = some h → h.wait = some .rowPool → (t.find id).map (·.wait) = some none) ∧
      Keeps [.cores, .waits, .others] s t := by
  obtain ⟨-, -, -, -, -, -, hcores, -⟩ := hs
  let u := s.onCore core fun c => { c with rowWaiters := rest }
  have hexec : exec (.rowGrant core) s =
      .next (u.update id fun h => { h with wait := if h.wait = some .rowPool then none else h.wait }) := by
    show execRowGrant core s = _
    unfold execRowGrant
    rw [hw]
  refine ⟨_, hexec, ?_, fun h hf hwait => ?_, ((keeps_onCore s core _).mono (by simp)).trans
    ((keeps_update (l := [.waits]) u id ?_).mono (by simp))⟩
  · exact congrArg Core.rowWaiters (State.core_onCore hcores core fun c => { c with rowWaiters := rest })
  · rw [State.find_update _ id, show u.find id = some h from hf, Option.map_some, Option.map_some, if_pos hwait]
    exact fun _ => rfl
  · intro p hp
    cases p <;> simp [Agree, SameRegisters] at hp ⊢

theorem keeps_setBarrier (s : State) (k : BarrierKey) (b : Barrier) : Keeps [.barriers] s (s.setBarrier k b) := by
  intro p hp
  cases p <;> simp [Agree, SameRegisters, State.setBarrier] at hp ⊢

theorem barrierRelease_spec (s : State) {key : BarrierKey} (h : (s.barrier key).released ≠ (s.barrier key).phase) :
    ∃ t : State, exec (.barrierRelease key) s = .next t ∧
      t.barrier key = { s.barrier key with released := (s.barrier key).released + 1 } ∧
      (∀ k, k ≠ key → t.barrier k = s.barrier k) ∧ Keeps [.barriers] s t := by
  have hexec : exec (.barrierRelease key) s = .next (s.setBarrier key { s.barrier key with released := (s.barrier key).released + 1 }) :=
    if_neg h
  refine ⟨_, hexec, ?_, fun k hk => ?_, keeps_setBarrier s key _⟩
  · rw [State.barrier_setBarrier, if_pos rfl]
  · rw [State.barrier_setBarrier, if_neg hk]

theorem shuttlePostObserved_spec {s : State} (hs : Canonical s) {die ch pos : Nat} (hd : die < 4) (hch : ch < 8) (hp : pos < 144)
    (hw : Sparse.wf (fun _ => 0) (s.channel (8 * die + ch)).seen = true)
    (hv : Sparse.get (fun _ => 0) (s.channel (8 * die + ch)).seen pos < (s.channel (8 * die + ch)).value) :
    let n := 8 * die + ch
    let seen := fun (t : State) (p : Nat) => Sparse.get (fun _ => 0) (t.channel n).seen p
    ∃ t : State, exec (.shuttlePostObserved die ch pos) s = .next t ∧ seen t pos = (s.channel n).value ∧
      (∀ p, p ≠ pos → seen t p = seen s p) ∧ (t.channel n).value = (s.channel n).value ∧ Keeps [.barriers] s t := by
  intro n seen
  obtain ⟨-, -, -, -, -, -, -, hsh, -⟩ := hs
  let f := fun (c : Channel) => { c with seen := Sparse.set (fun _ => 0) c.seen pos c.value }
  have hexec : exec (.shuttlePostObserved die ch pos) s = .next (s.onChannel n f) := by
    refine if_neg ?_
    rintro (h | h | h | h)
    · omega
    · omega
    · omega
    · exact absurd h (BitVec.not_le.2 hv)
  have hn : (s.onChannel n f).channel n = f (s.channel n) := (State.channel_onChannel hsh n f n).trans (if_pos rfl)
  refine ⟨_, hexec, ?_, fun p hne => ?_, ?_, keeps_onChannel s n f⟩
  · exact (congrArg (fun c => Sparse.get (fun _ => 0) (Channel.seen c) pos) hn).trans (Sparse.get_set_self hw _ _)
  · exact (congrArg (fun c => Sparse.get (fun _ => 0) (Channel.seen c) p) hn).trans (Sparse.get_set_other _ _ hne)
  · show ((s.onChannel n f).channel n).value = (f (s.channel n)).value
    rw [hn]

theorem reservationHoldExpiry_spec (s : State) {block : Nat} {p : Nat × AgentId} (hp : p ∈ s.pkg.holds) (hb : p.1 = block) :
    ∃ t : State, exec (.reservationHoldExpiry block) s = .next t ∧ (∀ q ∈ t.pkg.holds, q.1 ≠ block) ∧ Keeps [.package] s t := by
  refine ⟨_, if_pos (List.any_eq_true.2 ⟨p, hp, decide_eq_true hb⟩), fun q hq => ?_, keeps_onPkg s _ rfl⟩
  exact of_decide_eq_true (List.mem_filter.1 hq).2

theorem missEntryGrant_spec (s : State) {slice : Nat} {m : Nat × AgentId}
    (hm : (s.pkg.misses.find? fun m => decide (m.1 = slice)) = some m) :
    ∃ t : State, exec (.missEntryGrant slice) s = .next t ∧ t.pkg.misses = s.pkg.misses.erase m ∧ Keeps [.package] s t := by
  have hexec : exec (.missEntryGrant slice) s = execMissEntryGrant slice s := rfl
  rw [hexec]
  unfold execMissEntryGrant
  rw [hm]
  exact ⟨_, rfl, rfl, keeps_onPkg s _ rfl⟩

/-- What the end of a flip waits for is not there. -/
theorem not_held_of_lines {hs : List Hart} {region : Nat}
    (h : ∀ h ∈ hs, (∀ c, some c ∈ h.copy.toList → ∀ l ∈ c.lines, l / 2 ^ 15 ≠ region) ∧
      ∀ p ∈ h.accStores, ∀ l ∈ p.lines, l / 2 ^ 15 ≠ region) :
    (hs.any fun h => (h.copy.toList.any fun c => match c with
        | some c => c.lines.any fun l => decide (l / 2 ^ 15 = region)
        | none => false) || h.accStores.any fun p => p.lines.any fun l => decide (l / 2 ^ 15 = region)) = false := by
  rw [List.any_eq_false]
  intro k hk
  obtain ⟨hcopies, hstores⟩ := h k hk
  rw [Bool.not_eq_true, Bool.or_eq_false_iff]
  constructor
  · rw [List.any_eq_false]
    intro c hc
    cases c with
    | none => exact Bool.false_ne_true
    | some c => simpa using hcopies c hc
  · simpa using hstores

theorem biasFlipComplete_spec (s : State) {region : Nat} {host : Bool}
    (hf : (s.pkg.flips.find? fun f => decide (f.1 = region)) = some (region, host))
    (hh : ∀ h ∈ s.harts ++ s.saved, (∀ c, some c ∈ h.copy.toList → ∀ l ∈ c.lines, l / 2 ^ 15 ≠ region) ∧
      ∀ p ∈ h.accStores, ∀ l ∈ p.lines, l / 2 ^ 15 ≠ region)
    (hw : ∀ w ∈ s.windows, ∀ c ∈ w.contribs, c.addr / 2 ^ 21 ≠ region) :
    ∃ t : State, exec (.biasFlipComplete region) s = .next t ∧ t.pkg.flips = s.pkg.flips.erase (region, host) ∧
      (region ∈ t.pkg.hostBias ↔ host = true ∧ s.pkg.dead.elem .cxlPort = false) ∧
      (host = true → s.pkg.dead.elem .cxlPort = true → region ∈ t.pkg.lostHost) ∧
      (∀ r, r ≠ region → (r ∈ t.pkg.hostBias ↔ r ∈ s.pkg.hostBias)) ∧
      (∀ l ∈ t.pkg.tileCache, l.line / 2 ^ 15 ≠ region) ∧ (∀ d ∈ t.pkg.dir, d.line / 2 ^ 15 ≠ region) ∧
      Keeps [.package, .caches, .contexts] s t := by
  have hopen : (s.windows.any fun w => w.contribs.any fun c => decide (c.addr / 2 ^ 21 = region)) = false := by
    simpa using hw
  have hexec : exec (.biasFlipComplete region) s = execBiasFlipComplete region s := rfl
  rw [hexec]
  unfold execBiasFlipComplete
  rw [hf]
  dsimp only
  rw [if_neg (by rw [hopen, Bool.or_false]; exact Bool.eq_false_iff.1 (not_held_of_lines hh))]
  have hflush : Keeps [.package, .caches, .contexts] s (s.flushLines fun l => decide (l / 2 ^ 15 = region)) :=
    (keeps_caches s _ (by rfl) rfl ⟨rfl, rfl, rfl, rfl⟩).mono (by simp)
  refine ⟨_, rfl, rfl, ?_, fun hhost hdead => ?_, fun r hr => ?_, fun l hl => ?_, fun d hd => ?_,
    hflush.trans ((keeps_onPkg _ _ rfl).mono (by simp))⟩
  · show region ∈ (if _ then _ else _) ↔ _
    cases host <;> cases hdead : s.pkg.dead.elem .cxlPort <;> simp
  · show region ∈ (if _ then _ else _)
    rw [hhost, hdead]
    exact List.mem_cons_self
  · show r ∈ (if _ then region :: s.pkg.hostBias.filter _ else s.pkg.hostBias.filter _) ↔ _
    split
    · rw [List.mem_cons, List.mem_filter]
      simp [hr]
    · rw [List.mem_filter]
      simp [hr]
  · simpa using (List.mem_filter.1 (show l ∈ s.pkg.tileCache.filter _ from hl)).2
  · simpa using (List.mem_filter.1 (show d ∈ s.pkg.dir.filter _ from hd)).2

/-- Settles O53: each step changes what it says of one hart, core, barrier, channel or queue; a task's end leaves no active hart of its
name, and an accumulator store writes its bytes beside aborts that write none where nothing traces. -/
theorem waitEnds : Obligations.WaitEnds := by
  constructor
  · intro s who h cls hs hf
    refine ⟨taskStart_spec s hf, fun he hd => ?_, taskEnd_spec s hf, urgent_spec s hf, yieldExpiry_spec s hf,
      operationComplete_spec s hf, fun x rest hc hx => operationComplete_store_spec hs hf hc hx, traceSample_spec s hf⟩
    have hexec : exec (.taskEnd who) s = execTaskEnd who s := rfl
    rw [hexec]
    unfold execTaskEnd
    rw [hf]
    dsimp -zeta only
    rw [he, if_neg (by decide), if_pos (by simpa [or_assoc] using hd)]
  · intro s core slice die ch pos block region key hs
    exact ⟨fun id rest => rowGrant_spec hs, barrierRelease_spec s, shuttlePostObserved_spec hs,
      fun p hp => reservationHoldExpiry_spec s hp, fun m => missEntryGrant_spec s, fun host => biasFlipComplete_spec s⟩

end Sys2Proof.Safety


/-! What the Loom writes at its policy point reaches no byte of a status word but its lowest two (R78 to R90): the key to the refutation
of O52. The status word in question lies above every address that a translation or a QCB gives. -/

namespace Sys2Proof.Machine

/-- The place of a record whose status word lies in the region of bias behind the record's own (R80, R285). -/
def farRecord : Nat := 2 ^ 70 - 0x30

/-- Byte 3 of that status word: neither the state of a job nor its code. -/
def farByte : Nat := 2 ^ 70 + 11

/-- The byte reads 0, and every job of the Loom has its record at that place. -/
structure State.Faded (s : State) : Prop where
  wf : s.mem.wf = true
  byte : s.mem.byte farByte = 0
  jobs : ∀ j ∈ s.loom.jobs, j.pa = farRecord

/-- From s to t the byte stays 0, and the Looms run the same microcode. -/
def State.Blank (s t : State) : Prop := s.Faded → t.Faded ∧ t.loom.image = s.loom.image

namespace State.Blank

theorem of_eq {s t : State} (hm : t.mem = s.mem) (hj : t.loom.jobs = s.loom.jobs) (hi : t.loom.image = s.loom.image) : s.Blank t :=
  fun h => ⟨⟨hm ▸ h.wf, hm ▸ h.byte, hj ▸ h.jobs⟩, hi⟩

theorem refl (s : State) : s.Blank s := .of_eq rfl rfl rfl

theorem trans {s t u : State} (h : s.Blank t) (k : t.Blank u) : s.Blank u := fun hs =>
  have ⟨ht, hi⟩ := h hs
  have ⟨hu, ki⟩ := k ht
  ⟨hu, ki.trans hi⟩

theorem ite {s t u : State} {p : Prop} [Decidable p] (ht : s.Blank t) (hu : s.Blank u) : s.Blank (if p then t else u) := by
  split
  · exact ht
  · exact hu

theorem foldl {α : Type} {f : State → α → State} (hf : ∀ (t : State) (a : α), t.Blank (f t a)) (l : List α) (s : State) :
    s.Blank (l.foldl f s) := by
  induction l generalizing s with
  | nil => exact refl s
  | cons a l ih => exact (hf s a).trans (ih _)

/-- Traffic that leaves the byte 0. -/
theorem of_traffic {s t : State} (k : s.Traffic t) (h : s.mem.wf = true → s.mem.byte farByte = 0 → t.mem.byte farByte = 0) :
    s.Blank t := fun hs =>
  ⟨⟨k.mem hs.wf, h hs.wf hs.byte, k.loom ▸ hs.jobs⟩, congrArg Loom.image k.loom⟩

end State.Blank

open State (Blank)

theorem State.Cached.blank {s t : State} (h : s.Cached t) : s.Blank t := by
  have hm : t.mem = s.mem := show t.uncached.mem = s.uncached.mem from congrArg State.mem h.state
  exact .of_traffic h.quiet.traffic fun _ hb => hm ▸ hb

/-! Writes of the device. -/

/-- The bytes of a device write. -/
theorem State.writeNow_mem (s : State) (pa : Nat) (bs : List Byte) :
    (s.writeNow pa bs).mem = s.mem.setBytes (bs.zipIdx.map fun p => (pa + p.2, p.1)) := by
  unfold State.writeNow
  extract_lets s1 s2 s3
  have h1 : s1.mem = s.mem := ite_keeps State.mem rfl rfl
  have h2 : s2.mem = s.mem.setBytes (bs.zipIdx.map fun p => (pa + p.2, p.1)) := by
    have hc := State.deviceLine_cached (s1.setMem (bs.zipIdx.map fun p => (pa + p.2, p.1))) (pa / 64) true
    exact (show s2.uncached.mem = _ from congrArg State.mem hc.state).trans ((State.setMem_mem _ _).trans (by rw [h1]))
  have h3 : s3.mem = s.mem.setBytes (bs.zipIdx.map fun p => (pa + p.2, p.1)) := by
    rw [← h2]
    exact ite_keeps State.mem rfl rfl
  rw [← h3]
  exact ite_keeps State.mem rfl rfl

/-- A byte after a device write: as before, or written. -/
theorem State.deviceWrite_byte {s : State} (h : s.mem.wf = true) (pa : Nat) (bs : List Byte) (a : Nat) :
    (s.deviceWrite pa bs).mem.byte a = s.mem.byte a ∨
      (pa ≤ a ∧ a < pa + bs.length ∧ (s.deviceWrite pa bs).mem.byte a = bs.getD (a - pa) 0) := by
  have hnow : (s.writeNow pa bs).mem.byte a = s.mem.byte a ∨
      (pa ≤ a ∧ a < pa + bs.length ∧ (s.writeNow pa bs).mem.byte a = bs.getD (a - pa) 0) := by
    rw [State.writeNow_mem, Memory.byte_setBytes_run h]
    split
    next hr => exact .inr ⟨hr.1, hr.2, rfl⟩
    next => exact .inl rfl
  unfold State.deviceWrite State.writeOrWait
  split
  · exact .inl rfl
  · exact hnow

/-- A device write below the byte leaves it. -/
theorem State.deviceWrite_farByte {s : State} (hw : s.mem.wf = true) {pa : Nat} {bs : List Byte} (h : pa + bs.length ≤ 2 ^ 70) :
    (s.deviceWrite pa bs).mem.byte farByte = s.mem.byte farByte := by
  rcases State.deviceWrite_byte hw pa bs farByte with e | ⟨-, hlt, -⟩
  · exact e
  · unfold farByte at hlt
    omega

theorem State.deviceWrite_blank_of_low (s : State) {pa : Nat} {bs : List Byte} (h : pa + bs.length ≤ 2 ^ 70) :
    s.Blank (s.deviceWrite pa bs) :=
  .of_traffic (State.deviceWrite_traffic s pa bs) fun hw hb => (State.deviceWrite_farByte hw h).trans hb

/-- A device write of zeros, wherever it goes. -/
theorem State.deviceWrite_blank_of_zero (s : State) (pa : Nat) {bs : List Byte} (h : ∀ i, bs.getD i 0 = 0) :
    s.Blank (s.deviceWrite pa bs) :=
  .of_traffic (State.deviceWrite_traffic s pa bs) fun hw hb => by
    rcases State.deviceWrite_byte hw pa bs farByte with e | ⟨-, -, e⟩
    · exact e.trans hb
    · exact e.trans (h _)

/-- A word of a QCB. -/
theorem State.setQword_blank (s : State) (q : Word) {off : Nat} (x : Nat) (h : off ≤ 2 ^ 64) : s.Blank (s.setQword q off x) := by
  refine State.deviceWrite_blank_of_low s ?_
  rw [length_toBytes]
  have := q.isLt
  omega

/-- The status word itself: its state and its code lie in its lowest two bytes (R80). -/
theorem State.setStatus_blank (s : State) {pa : Nat} (hpa : pa = farRecord) {state code : Nat} (h : state + code * 256 < 2 ^ 24) :
    s.Blank (s.setStatus pa state code) := by
  subst hpa
  refine .of_traffic (State.deviceWrite_traffic s _ _) fun hw hb => ?_
  rcases State.deviceWrite_byte hw (farRecord + 0x38) (toBytes 8 (state + code * 256)) farByte with e | ⟨-, -, e⟩
  · exact e.trans hb
  · refine e.trans ?_
    have hi : farByte - (farRecord + 0x38) = 3 := by decide
    rw [hi]
    have hz : (state + code * 256) / 2 ^ (8 * 3) = 0 := Nat.div_eq_of_lt h
    show BitVec.ofNat 8 ((state + code * 256) >>> (8 * 3)) = 0
    rw [Nat.shiftRight_eq_div_pow, hz]
    rfl

/-! Translations give low addresses. -/

theorem leaf_lt {level e pa rwx : Nat} (h : readEntry level e = .leaf pa rwx) : pa < 2 ^ 52 := by
  unfold readEntry at h
  extract_lets pa' at h
  have hpa : pa' < 2 ^ 52 := by
    have hb : bits e 51 12 < 2 ^ 40 := Nat.mod_lt _ (by positivity)
    show bits e 51 12 <<< 12 < 2 ^ 52
    rw [Nat.shiftLeft_eq]
    omega
  split at h
  · cases h
  · split at h
    · split at h
      · cases h
      · injection h with e
        exact e ▸ hpa
    · split at h <;> cases h

/-- What may stop a walk gives no page. -/
def noPage (stops : Nat → Option Walk) : Prop := ∀ a w, stops a = some w → ∀ pa rwx, w ≠ .page pa rwx

theorem walkLeaf_lt {rd : Nat → Nat} {stops : Nat → Option Walk} (hs : noPage stops) {va a pa rwx : Nat}
    (h : walkLeaf rd stops va a = .page pa rwx) : pa < 2 ^ 53 := by
  have hlow (n : Nat) (hn : n ≤ 16) : va % 2 ^ n < 2 ^ 16 :=
    lt_of_lt_of_le (Nat.mod_lt _ (by positivity)) (Nat.pow_le_pow_right (by omega) hn)
  have h12 := hlow 12 (by omega)
  have h16 := hlow 16 (by omega)
  unfold walkLeaf at h
  split at h
  next w hw => exact absurd h (hs _ _ hw _ _)
  next =>
    split at h
    next pa' rwx' he =>
      have hpa := leaf_lt he
      split at h
      · cases h
        omega
      · split at h
        next w _ hw => exact absurd h (hs _ _ hw _ _)
        next w _ hw => exact absurd h (hs _ _ hw _ _)
        next =>
          split at h
          · cases h
            omega
          · split at h
            · cases h
            · cases h
              omega
    next => cases h

theorem walkFrom_lt {rd : Nat → Nat} {stops : Nat → Option Walk} (hs : noPage stops) {va pa rwx : Nat} {level table : Nat}
    (hl : level ≤ 3) (h : walkFrom rd stops va level table = .page pa rwx) : pa < 2 ^ 53 := by
  induction level generalizing table with
  | zero => exact walkLeaf_lt hs h
  | succ level ih =>
    unfold walkFrom at h
    dsimp only at h
    split at h
    next w hw => exact absurd h (hs _ _ hw _ _)
    next =>
      split at h
      · cases h
      next pa' rwx' he =>
        have hpa := leaf_lt he
        have hva : va % 2 ^ (12 + 9 * (level + 1)) < 2 ^ 39 :=
          lt_of_lt_of_le (Nat.mod_lt _ (by positivity)) (Nat.pow_le_pow_right (by omega) (by omega))
        cases h
        omega
      next => exact ih (by omega) h

theorem State.walkIn_lt {s : State} {c : BitVec 12} {va pa rwx : Nat} (h : s.walkIn c va = .page pa rwx) : pa < 2 ^ 53 := by
  unfold State.walkIn State.walkWith at h
  extract_lets root stops at h
  split at h
  · cases h
  · refine walkFrom_lt (fun a w hw => ?_) le_rfl h
    have hw : (if s.owned (a / 64) || s.flipping a then some Walk.wait else if s.poisoned a then some .poison else none) = some w := hw
    split at hw
    · cases hw
      exact fun _ _ e => by cases e
    · split at hw
      · cases hw
        exact fun _ _ e => by cases e
      · cases hw

theorem State.writeIn_blank {s t : State} {c : BitVec 12} {va : Nat} {bs : List Byte} {l : Late} (hb : bs.length ≤ 2 ^ 64)
    (h : s.writeIn c va bs l = some t) : s.Blank t := by
  unfold State.writeIn at h
  split at h
  next pa rwx hw =>
    have hpa := State.walkIn_lt hw
    split at h
    · cases h
      exact (State.noteWalk_cached _ _ _).blank.trans (State.deviceWrite_blank_of_low _ (by omega))
    · cases h
  · cases h
    exact .of_eq rfl rfl rfl
  · cases h

/-! Trace records, aborts, and reads of the Loom. -/

theorem State.onCtx_blank (s : State) (c : BitVec 12) (f : Ctx → Ctx) : s.Blank (s.onCtx c f) := .of_eq rfl rfl rfl

theorem State.putRecord_blank (s : State) (c : BitVec 12) {bs : List Byte} (hb : bs.length ≤ 2 ^ 64) : s.Blank (s.putRecord c bs).1 := by
  unfold State.putRecord
  extract_lets x size
  split
  · exact .refl _
  · split
    · exact .of_eq rfl rfl rfl
    · split
      · exact (State.noteWalk_cached _ _ _).blank.trans (.of_eq rfl rfl rfl)
      next u hu => exact (State.writeIn_blank hb hu).trans (.of_eq rfl rfl rfl)

theorem length_traceBytes (kind hart delta loc d0 d1 : Nat) : (traceBytes kind hart delta loc d0 d1).length ≤ 2 ^ 64 := by
  simp [traceBytes, length_toBytes]

theorem State.trace_blank (s : State) (h : Hart) (k loc d0 d1 : Nat) : s.Blank (s.trace h k loc d0 d1) := by
  have hput (t : State) (kind delta loc d0 d1 : Nat) : t.Blank (t.putRecord h.ctx (traceBytes kind h.idWord delta loc d0 d1)).1 :=
    State.putRecord_blank t _ (length_traceBytes _ _ _ _ _ _)
  unfold State.trace
  dsimp only
  split
  · exact .refl _
  · split
    · split
      · exact ((hput s _ _ _ _ _).trans (State.onCtx_blank _ _ _)).trans (hput _ _ _ _ _ _)
      · exact hput _ _ _ _ _ _
    · split
      · exact hput _ _ _ _ _ _
      · exact .refl _

theorem State.abortRegion_blank (s : State) (id : AgentId) (code : Nat) : s.Blank (s.abortRegion id code) := by
  unfold State.abortRegion
  split
  · exact .refl s
  · split
    · exact .refl s
    · extract_lets n status s1 s2
      have h2 : s.Blank s2 := .of_eq rfl rfl rfl
      exact h2.trans (State.trace_blank _ _ _ _ _ _)

theorem State.loomRead_blank (s : State) (l : Nat) : s.Blank (s.loomRead l) :=
  Blank.trans (.foldl (fun _ _ => State.abortRegion_blank _ _ _) _ s) (State.deviceLine_cached _ _ _).blank

/-! Records of the Loom, and failures of jobs. -/

theorem State.bumpQ_blank (s : State) (q : Word) {i : Nat} (h : i < 8) : s.Blank (s.bumpQ q i) :=
  State.setQword_blank s q _ (by omega)

theorem State.decide_blank (s : State) (tenant i : Nat) : s.Blank (s.decide_ tenant i) := .of_eq rfl rfl rfl

theorem State.overrun_blank (s : State) (q : Word) : s.Blank (s.overrun q) :=
  (State.bumpQ_blank s q (by omega)).trans (State.decide_blank _ _ _)

theorem State.writeRecord_blank (s : State) (q : Word) (c : BitVec 12) (va : Nat) {bs : List Byte} (hb : bs.length ≤ 2 ^ 64) :
    s.Blank (s.writeRecord q c va bs) := by
  unfold State.writeRecord
  dsimp only
  refine .ite (.of_eq rfl rfl rfl) (Blank.trans ?_ (State.setQword_blank _ _ _ (by norm_num)))
  split
  next t ht => exact State.writeIn_blank hb ht
  · exact (State.noteWalk_cached _ _ _).blank.trans (State.overrun_blank _ _)

theorem length_words (ws : List Word) : (ws.flatMap fun w => toBytes 8 w.toNat).length = 8 * ws.length := by
  simp [List.length_flatMap, length_toBytes, Nat.mul_comm]

theorem State.putDecision_blank (s : State) (q : Word) {ws : List Word} (h : ws.length ≤ 4) : s.Blank (s.putDecision q ws) := by
  unfold State.putDecision State.storeRecord
  split
  · exact .refl s
  · refine .ite (.ite (.of_eq rfl rfl rfl) (State.overrun_blank s q)) ?_
    dsimp only
    exact Blank.trans (.ite (State.overrun_blank s q) (.refl s)) (State.writeRecord_blank _ _ _ _ (by rw [length_words]; omega))

theorem State.fresh_blank (s : State) : s.Blank s.fresh := .of_eq rfl rfl rfl

theorem State.decisionAlone_blank (s : State) (q : Word) (kind : Nat) (job : Word) (bidx eprio hint : Nat) :
    s.Blank (s.decisionAlone q kind job bidx eprio hint) :=
  (State.fresh_blank s).trans (State.putDecision_blank _ _ (by simp))

/-- A change of jobs that moves no record. -/
theorem State.onJob_blank (s : State) (q id : Word) {f : Job → Job} (hf : ∀ j, (f j).pa = j.pa) :
    s.Blank (s.onJob q id f) := fun hs => by
  refine ⟨⟨hs.wf, hs.byte, fun j hj => ?_⟩, rfl⟩
  obtain ⟨k, hk, rfl⟩ := List.mem_map.1 hj
  split
  · exact (hf k).trans (hs.jobs k hk)
  · exact hs.jobs k hk

theorem State.dropEnded_blank (s : State) : s.Blank s.dropEnded := fun hs =>
  ⟨⟨hs.wf, hs.byte, fun j hj => hs.jobs j (List.mem_filter.1 hj).1⟩, rfl⟩

theorem State.setHead_blank (s : State) (q : Word) : s.Blank (s.setHead q) := State.setQword_blank _ _ _ (by norm_num)

/-- A job fails, and then those that depend on it (R81). -/
theorem State.failJob_succ (n : Nat) (j : Job) (code : Byte) (s : State) :
    State.failJob (n + 1) j code s =
      ((State.failJob 0 j code s).loom.jobs.filter fun k => k.open && k.deps.any fun d => decide (d.2 = j.pa)).foldl
        (fun s k => State.failJob n k 2 s) (State.failJob 0 j code s) := by
  rw [State.failJob, State.failJob]

theorem State.failOne_blank {j : Job} (hj : j.pa = farRecord) (code : Byte) (s : State) : s.Blank (State.failJob 0 j code s) := by
  have hcode : 3 + code.toNat * 256 < 2 ^ 24 := by
    have := code.isLt
    omega
  rw [State.failJob]
  refine Blank.trans (Blank.trans (Blank.trans ?_ (State.setStatus_blank _ hj hcode)) (State.setHead_blank _ _))
    (State.decisionAlone_blank _ _ _ _ _ _ _)
  exact State.onJob_blank s _ _ fun _ => rfl

theorem State.failJob_blank (n : Nat) {j : Job} (hj : j.pa = farRecord) (code : Byte) (s : State) : s.Blank (State.failJob n j code s) := by
  induction n generalizing j code s with
  | zero => exact State.failOne_blank hj code s
  | succ n ih =>
    have hrest (l : List Job) (hl : ∀ k ∈ l, k.pa = farRecord) (t : State) :
        t.Blank (l.foldl (fun s k => State.failJob n k 2 s) t) := by
      induction l generalizing t with
      | nil => exact .refl t
      | cons k l ihl => exact (ih (hl k List.mem_cons_self) 2 t).trans (ihl (fun m hm => hl m (List.mem_cons_of_mem _ hm)) _)
    intro hs
    obtain ⟨hown, himage⟩ := State.failOne_blank hj code s hs
    rw [State.failJob_succ]
    obtain ⟨hdep, himage'⟩ := hrest _ (fun k hk => hown.jobs k (List.mem_filter.1 hk).1) _ hown
    exact ⟨hdep, himage'.trans himage⟩

theorem State.fail_blank (s : State) (q id : Word) (code : Byte) : s.Blank (s.fail q id code) := by
  unfold State.fail
  split
  · exact .refl s
  next j hj =>
    refine .ite (fun hs => ?_) (.refl s)
    have hpa : j.pa = farRecord := hs.jobs j (List.mem_of_find?_eq_some hj)
    exact (State.failJob_blank _ hpa code s).trans (State.dropEnded_blank _) hs

/-! What the Loom reads and checks at an event. -/

theorem State.due_blank (s : State) (d : Due) : s.Blank (s.due d) := .of_eq rfl rfl rfl

theorem State.setView_blank (s : State) (v : QcbView) : s.Blank (s.setView v) := .of_eq rfl rfl rfl

theorem State.readView_blank (s : State) (q : Word) : s.Blank (s.readView q) := by
  unfold State.readView
  extract_lets s1 cw lo hi v s2
  have h1 : s.Blank s1 := .foldl (fun _ _ => State.loomRead_blank _ _) _ _
  have h2 : s.Blank s2 := .ite h1 (h1.trans (State.setView_blank _ _))
  split
  · exact .ite (h2.trans (State.due_blank _ _)) h2
  · exact h2

theorem toBytes_zero_getD (n i : Nat) : (toBytes n 0).getD i 0 = 0 := by
  by_cases h : i < n <;> simp [toBytes, h]

theorem State.checkLinks_blank (s : State) (q : Word) : s.Blank (s.checkLinks q) := by
  unfold State.checkLinks
  extract_lets v js elsewhere compare s1 next head tail known foreign s2 s3 s4
  have h1 : s.Blank s1 := .ite (State.loomRead_blank _ _) (.refl s)
  have h2 : s.Blank s2 := h1.trans (.foldl (fun t _ => ((State.bumpQ_blank t q (by omega)).trans (State.decide_blank _ _ _)).trans
    (State.decisionAlone_blank _ _ _ _ _ _ _)) _ _)
  have h3 : s.Blank s3 := .ite h2 (h2.trans (State.setQword_blank _ _ _ (by norm_num)))
  have h4 : s.Blank s4 := .ite h3 (h3.trans (State.setQword_blank _ _ _ (by norm_num)))
  exact .ite h4 (h4.trans (State.deviceWrite_blank_of_zero _ _ (toBytes_zero_getD 8)))

theorem State.noteMapped_blank (s : State) (j : Job) : s.Blank (s.noteMapped j) := by
  unfold State.noteMapped
  dsimp only
  have h := (State.noteWalk_cached s (s.qctx j.qcb) j.qva.toNat).blank
  split
  · exact h
  · exact h.trans (.foldl (fun _ _ => (State.noteWalk_cached _ _ _).blank) _ _)

theorem State.checkJobs_blank (s : State) : s.Blank s.checkJobs := by
  refine .foldl (fun t k => ?_) _ s
  split
  · exact .refl t
  next j hj =>
    refine .ite (.refl t) ?_
    extract_lets u
    have hu : t.Blank u := by
      refine (State.noteMapped_blank t j).trans (.foldl (fun s d => ?_) _ _)
      dsimp only
      have h := (State.noteWalk_cached s (s.qctx j.qcb) ((d.1.toNat + 0x38) % 2 ^ 64)).blank
      split
      · exact h.trans (State.loomRead_blank _ _)
      · exact h
    split
    · exact hu.trans (State.fail_blank _ _ _ _)
    · exact hu.trans (State.onJob_blank _ _ _ fun _ => rfl)

theorem State.refreshPriorities_blank (s : State) : s.Blank s.refreshPriorities := .of_eq rfl rfl rfl

/-! The bytes that the Loom overwrites after an event (R78). -/

theorem State.snapshot_traffic (s : State) (q : Word) : s.Traffic (s.snapshot q) :=
  ((State.Traffic.fresh s).trans (State.deviceWrite_traffic _ _ _)).trans (State.deviceWrite_traffic _ _ _)

theorem State.snapshot_farByte {s : State} (h : s.mem.wf = true) (q : Word) : (s.snapshot q).mem.byte farByte = s.mem.byte farByte := by
  have hq := q.isLt
  unfold State.snapshot
  dsimp only
  refine (State.deviceWrite_farByte ((State.deviceWrite_traffic s.fresh _ _).mem h) ?_).trans
    (State.deviceWrite_farByte (s := s.fresh) h ?_)
  · simp
    omega
  · simp
    omega

theorem State.snapshot_blank (s : State) (q : Word) : s.Blank (s.snapshot q) :=
  .of_traffic (State.snapshot_traffic s q) fun hw hb => (State.snapshot_farByte hw q).trans hb

end Sys2Proof.Machine


/-! The policy point leaves the Looms their microcode (R86, R87, R91, R93): one lemma for each operation of a placement, a resumption
and a pre-emption. -/

namespace Sys2Proof.Machine
open State (Tidy Blank)

theorem State.onPkg_tidy (s : State) (f : Pkg → Pkg) : s.Tidy (s.onPkg f) := .of_eq rfl rfl

theorem State.onQuad_tidy (s : State) (q : Nat) (f : Quad → Quad) : s.Tidy (s.onQuad q f) := .of_eq rfl rfl

theorem State.onCore_tidy (s : State) (c : Nat) (f : Core → Core) : s.Tidy (s.onCore c f) := .of_eq rfl rfl

/-! Harts put at their places. -/

theorem State.putHart_tidy (s : State) (h : Hart) : s.Tidy (s.putHart h) := by
  unfold State.putHart
  exact .ite (.of_eq rfl rfl) (.of_eq rfl rfl)

theorem State.zeroPart_tidy (s : State) (id : AgentId) (split : Nat) : s.Tidy (s.zeroPart id split) := by
  unfold State.zeroPart
  extract_lets w gc base s1
  have h1 : s.Tidy s1 := .ite (.refl s) (.of_eq rfl rfl)
  exact h1.trans (.of_eq rfl rfl)

theorem State.splitFor_tidy (s : State) (gc : Nat) (n : BitVec 2) : s.Tidy (s.splitFor gc n) := by
  unfold State.splitFor
  exact .ite (.of_eq rfl rfl) (.refl s)

theorem State.wakeBanks_tidy (s : State) (gc : Nat) : s.Tidy (s.wakeBanks gc) := by
  unfold State.wakeBanks
  exact .ite (.refl s) (.of_eq rfl rfl)

theorem State.resetMatrix_tidy (s : State) (quad : Nat) (owner : Word × Word × Nat) : s.Tidy (s.resetMatrix quad owner) := by
  unfold State.resetMatrix
  extract_lets s1 s2
  have h1 : s.Tidy s1 := .ite (.refl s) (.of_eq rfl rfl)
  exact h1.trans (.of_eq rfl rfl)

theorem State.due_tidy (s : State) (d : Due) : s.Tidy (s.due d) := .of_eq rfl rfl

theorem State.onJob_tidy (s : State) (q id : Word) (f : Job → Job) : s.Tidy (s.onJob q id f) := .of_eq rfl rfl

theorem State.placeBundle_tidy (s : State) (j : Job) (hint quad : Nat) (cores : List Nat) (reason : BitVec 8) :
    s.Tidy (s.placeBundle j hint quad cores reason) := by
  unfold State.placeBundle
  extract_lets b d h c t eprio s1 s2 s3 s4 s5 bundle loom s6 s7 s8 id s9
  have h1 : s.Tidy s1 := .ite (.refl s) (State.decide_reported _ _ _).tidy
  have h2 : s.Tidy s2 := h1.trans (State.decision_reported _ _ _ _ _ _ _ _).tidy
  have h3 : s.Tidy s3 := (h2.trans (State.bumpQ_reported _ _ _).tidy).trans (State.decide_reported _ _ _).tidy
  have h4 : s.Tidy s4 := .ite (h3.trans (State.setStatus_reported _ _ _ _).tidy) h3
  have h5 : s.Tidy s5 := h4.trans (State.onJob_tidy _ _ _ _)
  have h6 : s.Tidy s6 := h5.trans (.of_eq rfl rfl)
  have h7 : s.Tidy s7 := h6.trans (.foldl (fun _ _ => (State.splitFor_tidy _ _ _).trans (State.wakeBanks_tidy _ _)) _ _)
  have h8 : s.Tidy s8 := h7.trans (.foldl (fun _ _ =>
    ((State.zeroPart_tidy _ _ _).trans (State.putHart_tidy _ _)).trans (State.due_tidy _ _)) _ _)
  exact .ite (((h8.trans (State.resetMatrix_tidy _ _ _)).trans (State.putHart_tidy _ _)).trans (State.due_tidy _ _)) h8

/-! Resumption. -/

theorem State.releaseHandle_tidy (s : State) (id : AgentId) (i : Nat) : s.Tidy (s.releaseHandle id i) := by
  unfold State.releaseHandle
  split
  · exact .refl s
  · split
    · exact .refl s
    · exact .ite (.of_eq rfl rfl) (.of_eq rfl rfl)

theorem State.loseCopies_tidy (s : State) (h : Hart) : s.Tidy (s.loseCopies h) := by
  refine .foldl (fun t i => ?_) _ s
  split
  · exact .refl t
  · exact (State.releaseHandle_tidy t h.id i).trans (.of_eq rfl rfl)

theorem State.rearmCopies_tidy (s : State) (h : Hart) : s.Tidy (s.rearmCopies h) := by
  refine .foldl (fun t i => ?_) _ s
  split
  · split
    · exact State.due_tidy _ _
    · exact .refl t
  · exact .refl t

theorem State.rejoin_tidy (s : State) (h : Hart) : s.Tidy (s.rejoin h) := by
  unfold State.rejoin
  split
  · exact .refl s
  · exact .ite (State.due_tidy _ _) (.refl s)

theorem State.adviceAgain_tidy (s : State) (core : Nat) : s.Tidy (s.adviceAgain core) := by
  unfold State.adviceAgain
  exact .ite (.refl s) (State.due_tidy _ _)

theorem State.renameHart_tidy (s : State) (h : Hart) (new : AgentId) : s.Tidy (s.renameHart h new) := .of_eq rfl rfl

theorem State.resumeHart_tidy (s : State) (b : Bundle) (slot quad : Nat) (cores : List Nat) (lost : Bool) (h : Hart) :
    s.Tidy (s.resumeHart b slot quad cores lost h) := by
  unfold State.resumeHart
  extract_lets base id discard s1 s2 lost' k1 k2 k3 s3 s4 s5 s6 s7 s8 s9 s10 s11 s12
  have t1 : s.Tidy s1 := (State.deviceReads_traffic _ _).tidy
  have t2 : s.Tidy s2 := t1.trans (State.renameHart_tidy _ _ _)
  have t3 : s.Tidy s3 := .ite ((t2.trans (.onCtx _ _ _)).trans (.onCtx _ _ _)) t2
  have t4 : s.Tidy s4 := .ite t3 (t3.trans (State.zeroPart_tidy _ _ _))
  have t5 : s.Tidy s5 := t4.trans (State.putHart_tidy _ _)
  have t6 : s.Tidy s6 := .ite (t5.trans (.onCtx _ _ _)) t5
  have t7 : s.Tidy s7 := .ite t6 (t6.trans (.onCtx _ _ _))
  have t8 : s.Tidy s8 := t7.trans (State.rejoin_tidy _ _)
  have t9 : s.Tidy s9 := .ite (t8.trans (State.loseCopies_tidy _ _)) (t8.trans (State.rearmCopies_tidy _ _))
  have t10 : s.Tidy s10 := t9.trans (.foldl (fun _ _ => State.due_tidy _ _) _ _)
  have t11 : s.Tidy s11 := .ite (t10.trans (State.due_tidy _ _)) (.ite (t10.trans (State.due_tidy _ _)) t10)
  have t12 : s.Tidy s12 := .ite t11 (t11.trans (State.adviceAgain_tidy _ _))
  exact (t12.trans (.onCtx _ _ _)).trans (State.trace_traffic _ _ _ _ _ _).tidy

theorem State.setBarrier_tidy (s : State) (k : BarrierKey) (b : Barrier) : s.Tidy (s.setBarrier k b) := .of_eq rfl rfl

theorem State.restoreBarriers_tidy (s : State) (b : Bundle) (quad : Nat) (cores : List Nat) : s.Tidy (s.restoreBarriers b quad cores) :=
  .foldl (fun _ _ => (State.setBarrier_tidy _ _ _).trans (.foldl (fun _ _ => State.due_tidy _ _) _ _)) _ s

theorem State.operands_tidy (s : State) (slots acc : Memory) (scales : Sparse (BitVec 32)) :
    s.Tidy { s with slots := slots, acc := acc, scales := scales } := .of_eq rfl rfl

theorem loadMatrix_tidy (s : State) (quad base : Nat) (cores : List Nat) (n : Nat) (ops : List TileOp) :
    s.Tidy (loadMatrix s quad base cores n ops) := by
  unfold loadMatrix
  extract_lets a s1 m s2
  have h1 : s.Tidy s1 := .foldl (fun _ _ => (State.deviceRead_traffic _ _).tidy) _ _
  exact (h1.trans (State.operands_tidy _ _ _ _)).trans (State.onQuad_tidy _ _ _)

theorem State.loadPoison_tidy (s : State) (c : BitVec 12) (quad base : Nat) : s.Tidy (s.loadPoison c quad base) := by
  unfold State.loadPoison
  exact .ite (.refl s) ((State.onPkg_tidy s _).trans (.onCtx _ _ _))

theorem State.dropSaved_tidy (s : State) (l : List Hart) : s.Tidy { s with saved := l } := .of_eq rfl rfl

theorem State.resume_tidy (s : State) (j : Job) (b : Bundle) (slot quad : Nat) (cores : List Nat) (reason : BitVec 8) :
    s.Tidy (s.resume j b slot quad cores reason) := by
  unfold State.resume
  extract_lets c t s1 lost s2 s3 r1 r2 r3 r4 s4 hs s5 s6 s7
  have h1 : s.Tidy s1 := (State.decision_reported _ _ _ _ _ _ _ _).tidy
  have h2 : s.Tidy s2 := (h1.trans (State.bumpQ_reported _ _ _).tidy).trans (State.decide_reported _ _ _).tidy
  have h3 : s.Tidy s3 := h2.trans (.foldl (fun _ _ => State.onCore_tidy _ _ _) _ _)
  have g2 : s.Tidy r2 := (h3.trans (State.resetMatrix_tidy _ _ _)).trans
    ((loadMatrix_tidy _ _ _ _ _ _).trans (State.loadPoison_tidy _ _ _ _))
  have g3 : s.Tidy r3 := g2.trans (State.onQuad_tidy _ _ _)
  have g4 : s.Tidy r4 := g3.trans (.foldl (fun s i => by
    split
    · exact State.due_tidy _ _
    · exact State.due_tidy _ _) _ _)
  have h4 : s.Tidy s4 := .ite (.ite g4 (g4.trans (State.due_tidy _ _))) h3
  have h5 : s.Tidy s5 := h4.trans (State.dropSaved_tidy _ _)
  have h6 : s.Tidy s6 := (h5.trans (.foldl (fun _ _ => State.resumeHart_tidy _ _ _ _ _ _ _) _ _)).trans (State.restoreBarriers_tidy _ _ _ _)
  exact (h6.trans (State.onBundle_tidy _ _ _)).trans (.onCtx _ _ _)

/-! The policy point. -/

theorem State.attempt_tidy {s t : State} {w : Job × Option Bundle} (h : s.attempt w = some t) : s.Tidy t := by
  unfold State.attempt at h
  split at h
  · cases h
  · split at h
    · split at h
      · cases h
        exact State.placeBundle_tidy _ _ _ _ _ _
      · cases h
    · split at h
      · cases h
      · obtain ⟨p, -, rfl⟩ := Option.map_eq_some_iff.1 h
        exact State.resume_tidy _ _ _ _ _ _ _

theorem State.grantWants_tidy (n : Nat) (s : State) : s.Tidy (State.grantWants n s) := by
  induction n generalizing s with
  | zero => exact .refl s
  | succ n ih =>
    unfold State.grantWants
    split
    next t ht =>
      obtain ⟨w, -, hw⟩ := List.exists_of_findSome?_eq_some ht
      exact (State.attempt_tidy hw).trans (ih t)
    next => exact .refl s

theorem State.deferRest_tidy (s : State) : s.Tidy s.deferRest :=
  .foldl (fun t _ => (((State.bumpQ_reported t _ _).trans (State.decide_reported _ _ _)).trans
    (State.decision_reported _ _ _ _ _ _ _ _)).tidy.trans (State.onJob_tidy _ _ _ _)) _ s

theorem State.preemptOne_tidy (s : State) : s.Tidy s.preemptOne := by
  unfold State.preemptOne
  refine .ite (.refl s) ?_
  split
  · exact .refl s
  · split
    · exact State.preempt_tidy _ _ _ _
    · exact State.due_tidy _ _

theorem State.policy_tidy (s : State) : s.Tidy s.policy := by
  unfold State.policy
  exact .ite (.refl s) (((State.grantWants_tidy _ s).trans (State.deferRest_tidy _)).trans (State.preemptOne_tidy _))

/-- Where an image decides, the policy of the boot microcode does nothing (R92, R93). -/
theorem State.policy_of_image {s : State} (h : s.loom.image.isSome = true) : s.policy = s := if_pos h

/-- What the Loom has read and checked at an event before it decides. -/
def State.beforePolicy (s : State) (about : List Word) : State :=
  ((s.qcbs ++ about).eraseDups.foldl (fun s q => (s.readView q).checkLinks q) s).checkJobs.refreshPriorities

theorem State.loomTurnFor_eq (s : State) (about : List Word) : s.loomTurnFor about =
    (s.qcbs ++ about).eraseDups.foldl (fun s q => s.snapshot q) (s.beforePolicy about).policy.refreshPriorities := rfl

theorem State.snapshots_traffic (s : State) (qs : List Word) : s.Traffic (qs.foldl (fun s q => s.snapshot q) s) :=
  .foldl State.snapshot_traffic qs s

theorem State.beforePolicy_blank (s : State) (about : List Word) : s.Blank (s.beforePolicy about) :=
  ((Blank.foldl (fun _ _ => (State.readView_blank _ _).trans (State.checkLinks_blank _ _)) _ s).trans (State.checkJobs_blank _)).trans
    (State.refreshPriorities_blank _)

/-- The handling of an event by an image, which decides by commands of its own (R92). -/
theorem State.loomTurnFor_of_image {s : State} {about : List Word} (h : (s.beforePolicy about).loom.image.isSome = true) :
    s.loomTurnFor about =
      (s.qcbs ++ about).eraseDups.foldl (fun s q => s.snapshot q) (s.beforePolicy about).refreshPriorities := by
  rw [State.loomTurnFor_eq, State.policy_of_image h]

/-- The handling of an event leaves the Looms the microcode that they had when it decided. -/
theorem State.loomTurnFor_image (s : State) (about : List Word) :
    (s.loomTurnFor about).loom.image = (s.beforePolicy about).loom.image := by
  rw [State.loomTurnFor_eq, (State.snapshots_traffic _ _).loom]
  exact (State.policy_tidy _).image

/-- Where an image runs after an event, the byte stays 0. -/
theorem State.loomTurnFor_faded {s : State} (hs : s.Faded) {about : List Word} (hi : (s.loomTurnFor about).loom.image.isSome = true) :
    (s.loomTurnFor about).Faded := by
  rw [State.loomTurnFor_image] at hi
  rw [State.loomTurnFor_of_image hi]
  exact (((State.beforePolicy_blank s about).trans (State.refreshPriorities_blank _)).trans (.foldl State.snapshot_blank _ _) hs).1

end Sys2Proof.Machine


/-! The refutation of O52. An append event waits for the flip of the region in which a record begins, and its status word may lie in the
next one. -/

namespace Sys2Proof.Safety
open Sys2Proof Sys2Proof.Machine Sys2Proof.Tests

/-- A job whose record begins 48 bytes below a region of bias. -/
def farJob : Job := { job0 with pa := farRecord, read := false, state := 0, next := 0 }

/-- The append event of that job is due under an image; the region behind its record, which holds its status word, is being flipped,
and byte 3 of that word is not 0. -/
def farAppend : State := { ready with
  mem := (((pages.write 0x10000 8 0x10001).write 0x30000 8 1).write (farRecord + 0x18) 8 0x30000).setByte farByte 7
  loom := { Loom.boot with jobs := [farJob], image := some ⟨1, 0, 0, []⟩ }
  pkg := { Pkg.reset with flips := [(2 ^ 49, true)] } }

theorem canonical_farAppend : Canonical farAppend := by
  unfold Canonical
  decide +kernel

/-- The state in which the event leaves the Loom its policy point: the write of the status word waits. -/
def farTaken : State := (farAppend.readView 0x10000).takeRecord farJob

theorem exec_farAppend : exec (.loomAppendEvent 0x10000 0x20000) farAppend = .next (farTaken.loomTurnFor [0x10000]) := by
  have hfind : (farAppend.loom.jobs.find? fun j => decide (j.qcb = 0x10000) && decide (j.addr = 0x20000) && !j.read && j.open) =
      some farJob := by decide +kernel
  have hbusy : (farAppend.loomBusy || farAppend.recordBusy farJob) = false := by decide +kernel
  show execLoomAppendEvent 0x10000 0x20000 farAppend = _
  unfold execLoomAppendEvent
  rw [hfind]
  dsimp only
  rw [hbusy]
  rfl

/-- What the Loom has read and checked before it decides: the byte is still there, under the image. -/
theorem farTaken_beforePolicy : (farTaken.beforePolicy [0x10000]).loom.image.isSome = true ∧
    (farTaken.beforePolicy [0x10000]).mem.wf = true ∧ (farTaken.beforePolicy [0x10000]).mem.byte farByte = 7 := by
  decide +kernel

theorem snapshots_farByte {s : State} (h : s.mem.wf = true) (qs : List Word) :
    (qs.foldl (fun s q => s.snapshot q) s).mem.byte farByte = s.mem.byte farByte := by
  induction qs generalizing s with
  | nil => rfl
  | cons q qs ih => exact (ih ((State.snapshot_traffic s q).mem h)).trans (State.snapshot_farByte h q)

theorem refreshPriorities_mem (s : State) : s.refreshPriorities.mem = s.mem := rfl

theorem farTaken_turn : (farTaken.loomTurnFor [0x10000]).loom.image.isSome = true ∧
    (farTaken.loomTurnFor [0x10000]).mem.byte farByte = 7 := by
  obtain ⟨himage, hwf, hbyte⟩ := farTaken_beforePolicy
  constructor
  · rw [State.loomTurnFor_image]
    exact himage
  · rw [State.loomTurnFor_of_image himage, snapshots_farByte, refreshPriorities_mem]
    · exact hbyte
    · rw [refreshPriorities_mem]
      exact hwf

/-- The job with the fields of its record. -/
def farJobRead : Job := { farJob with read := true, preempt := false, desc := ⟨1, 0, false, 0⟩ }

/-- The state whose memory holds the status word that the statement names. -/
def farPending : State := { farAppend with mem := farAppend.mem.write (farJob.pa + 0x38) 8 0 }

theorem farPending_faded {u : State} (hm : u.mem = farPending.mem) (hj : ∀ j ∈ u.loom.jobs, j.pa = farRecord) : u.Faded where
  wf := by
    rw [hm]
    decide +kernel
  byte := by
    rw [hm]
    decide +kernel
  jobs := hj

/-- Refutes O52: at the append event of `farAppend` the write of the status word waits for the flip, and its byte 3 stays 7. A state
whose memory holds the status word that the statement names reads 0 there, and so it does after the Loom's policy point under an image.
The statement lacks a premise that the record lies in one region. -/
theorem not_loomSteps : ¬ Obligations.LoomSteps := by
  intro h
  obtain ⟨happend, -⟩ := h farAppend 0x10000 1 0x20000 0 0 0 canonical_farAppend
  obtain ⟨-, hgo⟩ := happend farJob (by decide +kernel)
  obtain ⟨u, hu, hleft⟩ := hgo (by decide +kernel) (by decide +kernel)
  obtain ⟨hmem, hjobs⟩ := hleft farJobRead [] (untraced_withHart (runner 1)) rfl (by decide +kernel) (by decide +kernel)
    (by decide +kernel) (by decide +kernel)
  have hfaded : u.Faded := farPending_faded hmem fun j hj => by
    rw [hjobs] at hj
    obtain ⟨x, hx, rfl⟩ := List.mem_map.1 hj
    split
    · rfl
    · rw [List.mem_singleton.1 hx]
      rfl
  have hturn : u.loomTurnFor [0x10000] = farTaken.loomTurnFor [0x10000] :=
    Host.Outcome.next.inj (hu.symm.trans exec_farAppend)
  obtain ⟨himage, hbyte⟩ := farTaken_turn
  rw [← hturn] at himage hbyte
  exact absurd ((State.loomTurnFor_faded hfaded himage).byte.symm.trans hbyte) (by decide)

end Sys2Proof.Safety

/-! The results of scalar forms (R97 to R100, R105): the machine's words as the numbers that they stand for. -/

namespace Sys2Proof.Machine

theorem bits_zero_eq_mod (x k : Nat) : bits x k 0 = x % 2 ^ (k + 1) := rfl

/-- A signed number as the signed value of its bit vector (R215). -/
theorem toSigned_eq_toInt (n x : Nat) : toSigned n x = (BitVec.ofNat n x).toInt := by
  unfold toSigned BitVec.toInt
  rw [BitVec.toNat_ofNat]
  cases n with
  | zero => simp [Nat.mod_one]
  | succ n =>
    rw [Nat.add_sub_cancel, Nat.pow_succ]
    split_ifs <;> omega

theorem toSigned_toNat (n : Nat) {w : Nat} (x : BitVec w) : toSigned n x.toNat = (x.setWidth n).toInt := by
  rw [toSigned_eq_toInt, BitVec.ofNat_toNat]

/-- A form on the low 32 bits, of a word known modulo 2^32. -/
theorem word32_eq {x : Word} {n : Nat} (h : x = BitVec.ofNat 64 n) : word32 x = BitVec.ofInt 64 (toSigned 32 n) := by
  rw [h, word32, BitVec.setWidth_ofNat_of_le (by decide), toSigned_eq_toInt]
  rfl

theorem ofBool_decide (p : Prop) [Decidable p] : ofBool (decide p) = if p then 1 else 0 := by
  by_cases h : p <;> simp [ofBool, h]

section Words
variable {w : Nat} (x y : BitVec w) (k : Nat)

theorem add_eq_ofInt : x + y = BitVec.ofInt w (x.toInt + y.toInt) := by
  rw [BitVec.ofInt_add, BitVec.ofInt_toInt, BitVec.ofInt_toInt]

theorem sub_eq_ofInt : x - y = BitVec.ofInt w (x.toInt - y.toInt) := by
  rw [Int.sub_eq_add_neg, BitVec.ofInt_add, BitVec.ofInt_neg, BitVec.ofInt_toInt, BitVec.ofInt_toInt, BitVec.sub_eq_add_neg]

theorem mul_eq_ofInt : x * y = BitVec.ofInt w (x.toInt * y.toInt) := by
  rw [BitVec.ofInt_mul, BitVec.ofInt_toInt, BitVec.ofInt_toInt]

theorem add_eq_ofNat : x + y = BitVec.ofNat w (x.toNat + y.toNat) := by
  rw [BitVec.ofNat_add, BitVec.ofNat_toNat, BitVec.ofNat_toNat, BitVec.setWidth_eq, BitVec.setWidth_eq]

theorem mul_eq_ofNat : x * y = BitVec.ofNat w (x.toNat * y.toNat) := by
  rw [BitVec.ofNat_mul, BitVec.ofNat_toNat, BitVec.ofNat_toNat, BitVec.setWidth_eq, BitVec.setWidth_eq]

theorem sub_eq_ofNat : x - y = BitVec.ofNat w (x.toNat + 2 ^ w - y.toNat) := by
  apply BitVec.eq_of_toNat_eq
  have hy := y.isLt
  rw [BitVec.toNat_sub, BitVec.toNat_ofNat, Nat.add_comm, Nat.add_sub_assoc (Nat.le_of_lt hy)]

theorem shiftLeft_eq_ofNat : x <<< k = BitVec.ofNat w (x.toNat * 2 ^ k) := by
  apply BitVec.eq_of_toNat_eq
  rw [BitVec.toNat_shiftLeft, BitVec.toNat_ofNat, Nat.shiftLeft_eq]

theorem ushiftRight_eq_ofNat : x >>> k = BitVec.ofNat w (x.toNat / 2 ^ k) := by
  apply BitVec.eq_of_toNat_eq
  rw [BitVec.toNat_ushiftRight, BitVec.toNat_ofNat, Nat.shiftRight_eq_div_pow,
    Nat.mod_eq_of_lt ((Nat.div_le_self _ _).trans_lt x.isLt)]

theorem sshiftRight_eq_ofInt : x.sshiftRight k = BitVec.ofInt w (x.toInt / (2 ^ k : Nat)) := by
  rw [BitVec.sshiftRight_eq, Int.shiftRight_eq_div_pow]

/-- The bits shifted out at one end and those shifted in at the other stand apart. -/
theorem shiftLeft_and_ushiftRight (hk : k ≤ w) : x <<< k &&& x >>> (w - k) = 0#w := by
  apply BitVec.eq_of_getLsbD_eq
  intro i hi
  rw [BitVec.getLsbD_and, BitVec.getLsbD_shiftLeft, BitVec.getLsbD_ushiftRight, BitVec.getLsbD_zero]
  by_cases h : i < k
  · simp [h]
  · rw [BitVec.getLsbD_of_ge x (w - k + i) (by omega), Bool.and_false]

theorem rotateLeft_eq_ofNat (hk : k < w) :
    x.rotateLeft k = BitVec.ofNat w (x.toNat * 2 ^ k + x.toNat / 2 ^ (w - k)) := by
  rw [BitVec.rotateLeft_def, Nat.mod_eq_of_lt hk, ← BitVec.add_eq_or_of_and_eq_zero _ _ (shiftLeft_and_ushiftRight x k hk.le),
    shiftLeft_eq_ofNat, ushiftRight_eq_ofNat, BitVec.ofNat_add]

/-- A rotation to the right is one to the left by the rest of the width. -/
theorem rotateRight_eq_ofNat (hk : k < w) :
    x.rotateRight k = BitVec.ofNat w (x.toNat / 2 ^ k + x.toNat * 2 ^ (w - k)) := by
  have hapart : x <<< (w - k) &&& x >>> k = 0#w := by
    have h := shiftLeft_and_ushiftRight x (w - k) (Nat.sub_le w k)
    rwa [Nat.sub_sub_self hk.le] at h
  rw [BitVec.rotateRight_def, Nat.mod_eq_of_lt hk, BitVec.or_comm, ← BitVec.add_eq_or_of_and_eq_zero _ _ hapart,
    shiftLeft_eq_ofNat, ushiftRight_eq_ofNat, ← BitVec.ofNat_add, Nat.add_comm]

theorem slt_eq_decide : x.slt y = decide (x.toInt < y.toInt) := by
  rw [Bool.eq_iff_iff, BitVec.slt_iff_toInt_lt, decide_eq_true_eq]

theorem ofBool_slt : ofBool (x.slt y) = if x.toInt < y.toInt then 1 else 0 := by
  rw [slt_eq_decide, ofBool_decide]

theorem ite_slt_eq_min : (if x.slt y then x else y) = BitVec.ofInt w (min x.toInt y.toInt) := by
  rw [slt_eq_decide]
  by_cases h : x.toInt < y.toInt
  · rw [if_pos (decide_eq_true h), min_eq_left h.le, BitVec.ofInt_toInt]
  · rw [if_neg (by simpa using h), min_eq_right (not_lt.1 h), BitVec.ofInt_toInt]

theorem ite_slt_eq_max : (if x.slt y then y else x) = BitVec.ofInt w (max x.toInt y.toInt) := by
  rw [slt_eq_decide]
  by_cases h : x.toInt < y.toInt
  · rw [if_pos (decide_eq_true h), max_eq_right h.le, BitVec.ofInt_toInt]
  · rw [if_neg (by simpa using h), max_eq_left (not_lt.1 h), BitVec.ofInt_toInt]

theorem ite_lt_eq_min : (if x < y then x else y) = BitVec.ofNat w (min x.toNat y.toNat) := by
  by_cases h : x.toNat < y.toNat
  · rw [if_pos (BitVec.lt_def.2 h), min_eq_left h.le, BitVec.ofNat_toNat, BitVec.setWidth_eq]
  · rw [if_neg (mt BitVec.lt_def.1 h), min_eq_right (not_lt.1 h), BitVec.ofNat_toNat, BitVec.setWidth_eq]

theorem ite_lt_eq_max : (if x < y then y else x) = BitVec.ofNat w (max x.toNat y.toNat) := by
  by_cases h : x.toNat < y.toNat
  · rw [if_pos (BitVec.lt_def.2 h), max_eq_right h.le, BitVec.ofNat_toNat, BitVec.setWidth_eq]
  · rw [if_neg (mt BitVec.lt_def.1 h), max_eq_left (not_lt.1 h), BitVec.ofNat_toNat, BitVec.setWidth_eq]

end Words

/-! Forms on the low 32 bits. -/

theorem srlw_eq (x : Word) (k : Nat) :
    (x.setWidth 32 >>> k).signExtend 64 = BitVec.ofInt 64 (toSigned 32 (bits x.toNat 31 0 / 2 ^ k)) := by
  rw [ushiftRight_eq_ofNat, toSigned_eq_toInt, BitVec.toNat_setWidth]
  rfl

theorem sraw_eq (x : Word) (k : Nat) :
    ((x.setWidth 32).sshiftRight k).signExtend 64 = BitVec.ofInt 64 (toSigned 32 x.toNat / (2 ^ k : Nat)) := by
  rw [BitVec.signExtend, BitVec.toInt_sshiftRight, toSigned_toNat, Int.shiftRight_eq_div_pow]

/-! Quotients and remainders with the results of R98. -/

theorem divide_eq {w : Nat} (x y : BitVec w) : divide x y = if y = 0 then -1 else BitVec.ofInt w (x.toInt.tdiv y.toInt) := by
  have hquot : x.sdiv y = BitVec.ofInt w (x.toInt.tdiv y.toInt) := by
    rw [← BitVec.toInt_inj, BitVec.toInt_sdiv, BitVec.toInt_ofInt]
  rw [divide, hquot]

theorem remainder_eq {w : Nat} (x y : BitVec w) : remainder x y = if y = 0 then x else BitVec.ofInt w (x.toInt.tmod y.toInt) := by
  rw [remainder, ← BitVec.toInt_srem, BitVec.ofInt_toInt]

theorem udiv_eq_ofNat {w : Nat} (x y : BitVec w) : x / y = BitVec.ofNat w (x.toNat / y.toNat) := by
  apply BitVec.eq_of_toNat_eq
  rw [BitVec.toNat_udiv, BitVec.toNat_ofNat, Nat.mod_eq_of_lt ((Nat.div_le_self _ _).trans_lt x.isLt)]

theorem umod_eq_ofNat {w : Nat} (x y : BitVec w) : x % y = BitVec.ofNat w (x.toNat % y.toNat) := by
  apply BitVec.eq_of_toNat_eq
  rw [BitVec.toNat_umod, BitVec.toNat_ofNat, Nat.mod_eq_of_lt ((Nat.mod_le _ _).trans_lt x.isLt)]

theorem ofNat_ofSigned (n : Nat) (z : Int) : BitVec.ofNat n (ofSigned n z) = BitVec.ofInt n z := by
  apply BitVec.eq_of_toNat_eq
  rw [BitVec.toNat_ofNat, BitVec.toNat_ofInt, ofSigned, ← BitVec.toNat_ofInt, Nat.mod_eq_of_lt (BitVec.isLt _)]

/-- The low bits of a word are zero when their signed value is. -/
theorem setWidth_eq_zero_iff (n : Nat) {w : Nat} (x : BitVec w) : x.setWidth n = 0 ↔ toSigned n x.toNat = 0 := by
  rw [toSigned_toNat, ← BitVec.toInt_inj, BitVec.ofNat_eq_ofNat, BitVec.toInt_zero]

theorem divw_eq (x y : Word) : (divide (x.setWidth 32) (y.setWidth 32)).signExtend 64 =
    if toSigned 32 y.toNat = 0 then -1
    else BitVec.ofInt 64 (toSigned 32 (ofSigned 32 ((toSigned 32 x.toNat).tdiv (toSigned 32 y.toNat)))) := by
  rw [divide_eq]
  by_cases hy : toSigned 32 y.toNat = 0
  · rw [if_pos ((setWidth_eq_zero_iff 32 y).2 hy), if_pos hy]
    rfl
  · rw [if_neg (mt (setWidth_eq_zero_iff 32 y).1 hy), if_neg hy, toSigned_eq_toInt 32 (ofSigned _ _), ofNat_ofSigned, toSigned_toNat,
      toSigned_toNat]
    rfl

theorem remw_eq (x y : Word) : (remainder (x.setWidth 32) (y.setWidth 32)).signExtend 64 =
    if toSigned 32 y.toNat = 0 then BitVec.ofInt 64 (toSigned 32 x.toNat)
    else BitVec.ofInt 64 ((toSigned 32 x.toNat).tmod (toSigned 32 y.toNat)) := by
  rw [remainder]
  by_cases hy : toSigned 32 y.toNat = 0
  · rw [if_pos ((setWidth_eq_zero_iff 32 y).2 hy), if_pos hy, toSigned_toNat]
    rfl
  · rw [if_neg (mt (setWidth_eq_zero_iff 32 y).1 hy), if_neg hy, toSigned_toNat, toSigned_toNat, ← BitVec.toInt_srem]
    rfl

end Sys2Proof.Machine

namespace Sys2Proof.Safety
open Sys2Proof Sys2Proof.Machine

/-- An instruction gives a value, written as another term, when its answer is the write of the register and the step to the next one. -/
theorem gives_of_eq {i : Instr} {s : State} {n : Nat} {d : BitVec 5} {x y : Word} (h : exec i s = .next ((s.ws d x).skip n))
    (hxy : x = y) : Gives i s n d y :=
  hxy ▸ gives_of_exec h

/-- Settles O1: every form gives its bit vector, and each of these is the number that the statement names. -/
theorem scalarResults : Obligations.ScalarResults := by
  intro s b a d x y k kw
  have hk : k < 64 := Nat.mod_lt _ (by decide)
  refine ⟨gives_of_eq rfl (add_eq_ofInt x y), gives_of_eq rfl (sub_eq_ofInt x y), gives_of_exec rfl, gives_of_exec rfl, gives_of_exec rfl,
    gives_of_exec rfl, gives_of_exec rfl, gives_of_eq rfl (shiftLeft_eq_ofNat x k), gives_of_eq rfl (ushiftRight_eq_ofNat x k),
    gives_of_eq rfl (sshiftRight_eq_ofInt x k), gives_of_eq rfl (rotateLeft_eq_ofNat x k hk),
    gives_of_eq rfl (rotateRight_eq_ofNat x k hk), gives_of_eq rfl (ite_slt_eq_min x y), gives_of_eq rfl (ite_slt_eq_max x y),
    gives_of_eq rfl (ite_lt_eq_min x y), gives_of_eq rfl (ite_lt_eq_max x y), gives_of_eq rfl (ofBool_decide _),
    gives_of_eq rfl ((ofBool_decide _).trans (ite_not _ _ _)), gives_of_eq rfl (ofBool_slt x y), gives_of_eq rfl (ofBool_decide _),
    gives_of_eq rfl (word32_eq (add_eq_ofNat x y)), gives_of_eq rfl (word32_eq (sub_eq_ofNat x y)),
    gives_of_eq rfl (word32_eq (shiftLeft_eq_ofNat x kw)), gives_of_eq rfl (srlw_eq x kw), gives_of_eq rfl (sraw_eq x kw),
    gives_of_eq rfl (word32_eq (mul_eq_ofNat x y))⟩

/-- Settles O2: the model's products and quotients are those numbers, and the 32-bit ones are taken of the sign-extended low halves. -/
theorem multiplyDivideResults : Obligations.MultiplyDivideResults := by
  intro s b a d x y xw yw
  exact ⟨gives_of_eq rfl (mul_eq_ofInt x y), gives_of_exec rfl, gives_of_exec rfl, gives_of_exec rfl, gives_of_eq rfl (divide_eq x y),
    gives_of_eq rfl (congrArg (ite (y = 0) (-1)) (udiv_eq_ofNat x y)), gives_of_eq rfl (remainder_eq x y),
    gives_of_eq rfl (congrArg (ite (y = 0) x) (umod_eq_ofNat x y)), gives_of_eq rfl (divw_eq x y), gives_of_eq rfl (remw_eq x y)⟩

end Sys2Proof.Safety

/-! Counting and moving bits (R97). -/

namespace Sys2Proof.Machine

theorem popCount_le (n x : Nat) : popCount n x ≤ n :=
  (List.countP_le_length).trans_eq List.length_range

/-- The set bits counted from the lowest one up. -/
theorem popCount_succ (n x : Nat) : popCount (n + 1) x = (x.testBit 0).toNat + popCount n (x / 2) := by
  unfold popCount
  rw [List.range_succ_eq_map, List.countP_cons, List.countP_map, Nat.add_comm]
  congr 1
  · cases x.testBit 0 <;> rfl
  · simp only [Function.comp_def, Nat.succ_eq_add_one, Nat.testBit_succ]

/-! Leading zeros. -/

theorem lt_two_pow_bitLength (x : Nat) : x < 2 ^ bitLength x := by
  unfold bitLength
  split
  next h => simp [h]
  next => exact Nat.lt_log2_self

theorem bitLength_le {x n : Nat} (h : x < 2 ^ n) : bitLength x ≤ n := by
  unfold bitLength
  split
  next => exact Nat.zero_le n
  next hx => exact (Nat.log2_lt hx).2 h

theorem two_pow_le_of_bitLength {x n : Nat} (h : bitLength x = n + 1) : 2 ^ n ≤ x := by
  unfold bitLength at h
  split at h
  next => omega
  next hx =>
    obtain rfl : x.log2 = n := Nat.succ.inj h
    exact Nat.log2_self_le hx

/-! Trailing zeros. -/

theorem trailingZeros_succ (x n : Nat) :
    trailingZeros x (n + 1) = if x.testBit 0 then 0 else trailingZeros (x / 2) n + 1 := by
  rw [trailingZeros, Nat.testBit_zero, Nat.add_comm 1]
  simp only [decide_eq_true_eq]

theorem trailingZeros_le (x n : Nat) : trailingZeros x n ≤ n := by
  induction n generalizing x with
  | zero => exact Nat.le_refl 0
  | succ n ih =>
    rw [trailingZeros_succ]
    split
    · exact Nat.zero_le _
    · exact Nat.succ_le_succ (ih _)

theorem testBit_of_lt_trailingZeros {x n i : Nat} (h : i < trailingZeros x n) : x.testBit i = false := by
  induction n generalizing x i with
  | zero => exact absurd h (Nat.not_lt_zero i)
  | succ n ih =>
    rw [trailingZeros_succ] at h
    split at h
    next => exact absurd h (Nat.not_lt_zero i)
    next hx =>
      cases i with
      | zero => simpa using hx
      | succ i => rw [Nat.testBit_succ, ih (Nat.lt_of_succ_lt_succ h)]

theorem testBit_trailingZeros {x n : Nat} (h : trailingZeros x n < n) : x.testBit (trailingZeros x n) = true := by
  induction n generalizing x with
  | zero => exact absurd h (Nat.not_lt_zero _)
  | succ n ih =>
    rw [trailingZeros_succ] at h ⊢
    split at h
    next hx => rw [if_pos hx, hx]
    next hx => rw [if_neg hx, Nat.testBit_succ, ih (Nat.lt_of_succ_lt_succ h)]

/-! Bytes in reverse order. -/

/-- Byte i of the number that some bytes make, lowest first (R30). -/
theorem ofBytes_div_mod (l : List Byte) (i : Nat) : ofBytes l / 2 ^ (8 * i) % 2 ^ 8 = (l.getD i 0).toNat := by
  induction l generalizing i with
  | nil => simp [ofBytes]
  | cons b l ih =>
    have hb := b.isLt
    cases i with
    | zero =>
      rw [ofBytes, List.getD_cons_zero]
      omega
    | succ i =>
      have hrest : (b.toNat + 256 * ofBytes l) / 2 ^ 8 = ofBytes l := by omega
      rw [ofBytes, List.getD_cons_succ, ← ih i, Nat.mul_succ, Nat.add_comm (8 * i), Nat.pow_add, ← Nat.div_div_eq_div_mul, hrest]

theorem ofBytes_lt (l : List Byte) : ofBytes l < 2 ^ (8 * l.length) := by
  induction l with
  | nil => exact Nat.one_pos
  | cons b l ih =>
    have hb := b.isLt
    rw [ofBytes, List.length_cons, Nat.mul_succ, Nat.pow_add]
    omega

/-- Byte i of a word with its bytes reversed is byte 7 - i of the word. -/
theorem bits_reverseBytes (x : Word) {i : Nat} (h : i < 8) :
    bits (reverseBytes x).toNat (8 * i + 7) (8 * i) = bits x.toNat (63 - 8 * i) (56 - 8 * i) := by
  have hlt : ofBytes (toBytes 8 x.toNat).reverse < 2 ^ 64 := by
    simpa [length_toBytes] using ofBytes_lt (toBytes 8 x.toNat).reverse
  have hbyte : (toBytes 8 x.toNat).reverse.getD i 0 = BitVec.ofNat 8 (x.toNat >>> (8 * (7 - i))) := by
    have hi : i < (toBytes 8 x.toNat).reverse.length := by simpa [length_toBytes] using h
    rw [List.getD_eq_getElem _ _ hi, List.getElem_reverse]
    simp [toBytes]
  have hwidth : 8 * i + 7 + 1 - 8 * i = 8 ∧ 63 - 8 * i + 1 - (56 - 8 * i) = 8 ∧ 56 - 8 * i = 8 * (7 - i) := by omega
  obtain ⟨hlow, hhigh, hplace⟩ := hwidth
  rw [reverseBytes, BitVec.toNat_ofNat, Nat.mod_eq_of_lt hlt, bits_eq, hlow, ofBytes_div_mod, hbyte, BitVec.toNat_ofNat, bits, hhigh,
    hplace]

/-! Extracting bits: each one kept stands above those kept before it. -/

theorem extractBits_shift (a b n i k : Nat) : extractBits a b n (i + 1) k = extractBits (a / 2) (b / 2) n i k := by
  induction n generalizing i k with
  | zero => rfl
  | succ n ih => simp only [extractBits, Nat.testBit_succ, ih]

theorem extractBits_place (a b n i k : Nat) : extractBits a b n i (k + 1) = 2 * extractBits a b n i k := by
  induction n generalizing i k with
  | zero => rfl
  | succ n ih =>
    simp only [extractBits, ih]
    split_ifs <;> ring

theorem extractBits_succ (a b n : Nat) : extractBits a b (n + 1) 0 0 =
    if b.testBit 0 then (a.testBit 0).toNat + 2 * extractBits (a / 2) (b / 2) n 0 0 else extractBits (a / 2) (b / 2) n 0 0 := by
  rw [extractBits, extractBits_place, extractBits_shift]
  cases a.testBit 0 <;> rfl

/-- The bits of a number given by its lowest one and the rest. -/
theorem testBit_toNat_add (p : Bool) (m : Nat) :
    (p.toNat + 2 * m).testBit 0 = p ∧ ∀ i, (p.toNat + 2 * m).testBit (i + 1) = m.testBit i := by
  have hp : p.toNat < 2 := Bool.toNat_lt p
  have hrest : (p.toNat + 2 * m) / 2 = m := by omega
  refine ⟨?_, fun i => by rw [Nat.testBit_succ, hrest]⟩
  cases p <;> simp [Nat.testBit_zero]

theorem testBit_extractBits {a b n i : Nat} (hi : i < n) (hb : b.testBit i = true) :
    (extractBits a b n 0 0).testBit (popCount i b) = a.testBit i := by
  induction n generalizing a b i with
  | zero => exact absurd hi (Nat.not_lt_zero i)
  | succ n ih =>
    obtain ⟨hlow, hrest⟩ := testBit_toNat_add (a.testBit 0) (extractBits (a / 2) (b / 2) n 0 0)
    rw [extractBits_succ]
    cases i with
    | zero =>
      rw [if_pos hb]
      exact hlow
    | succ i =>
      rw [Nat.testBit_succ] at hb ⊢
      rw [popCount_succ, ← ih (Nat.lt_of_succ_lt_succ hi) hb]
      split
      next h0 => rw [h0, Bool.toNat_true, Nat.add_comm 1, hrest]
      next h0 => rw [Bool.eq_false_of_not_eq_true h0, Bool.toNat_false, Nat.zero_add]

theorem testBit_extractBits_above {a b n j : Nat} (hj : popCount n b ≤ j) : (extractBits a b n 0 0).testBit j = false := by
  induction n generalizing a b j with
  | zero => exact Nat.zero_testBit j
  | succ n ih =>
    rw [popCount_succ] at hj
    rw [extractBits_succ]
    split
    next h0 =>
      rw [h0, Bool.toNat_true] at hj
      obtain ⟨j, rfl⟩ := Nat.exists_eq_add_of_le' ((Nat.le_add_right 1 _).trans hj)
      rw [(testBit_toNat_add _ _).2, ih (by omega)]
    next => exact ih ((Nat.le_add_left _ _).trans hj)

/-! Depositing bits: place i takes the next low bit. -/

theorem depositBits_shift (a b n i k : Nat) : depositBits a b n (i + 1) k = 2 * depositBits a (b / 2) n i k := by
  induction n generalizing i k with
  | zero => rfl
  | succ n ih =>
    simp only [depositBits, Nat.testBit_succ, ih]
    split_ifs <;> ring

theorem depositBits_next (a b n i k : Nat) : depositBits a b n i (k + 1) = depositBits (a / 2) b n i k := by
  induction n generalizing i k with
  | zero => rfl
  | succ n ih => simp only [depositBits, Nat.testBit_succ, ih]

theorem depositBits_succ (a b n : Nat) : depositBits a b (n + 1) 0 0 =
    (b.testBit 0 && a.testBit 0).toNat + 2 * depositBits (if b.testBit 0 then a / 2 else a) (b / 2) n 0 0 := by
  rw [depositBits, depositBits_shift, depositBits_shift, depositBits_next]
  cases b.testBit 0 <;> cases a.testBit 0 <;> simp

theorem testBit_depositBits {a b n i : Nat} (hi : i < n) :
    (depositBits a b n 0 0).testBit i = (b.testBit i && a.testBit (popCount i b)) := by
  induction n generalizing a b i with
  | zero => exact absurd hi (Nat.not_lt_zero i)
  | succ n ih =>
    obtain ⟨hlow, hrest⟩ :=
      testBit_toNat_add (b.testBit 0 && a.testBit 0) (depositBits (if b.testBit 0 then a / 2 else a) (b / 2) n 0 0)
    rw [depositBits_succ]
    cases i with
    | zero => exact hlow
    | succ i =>
      rw [hrest, ih (Nat.lt_of_succ_lt_succ hi), Nat.testBit_succ b, popCount_succ]
      congr 1
      cases b.testBit 0 with
      | true => rw [if_pos rfl, Bool.toNat_true, Nat.add_comm 1, Nat.testBit_succ]
      | false => rw [if_neg Bool.false_ne_true, Bool.toNat_false, Nat.zero_add]

end Sys2Proof.Machine

namespace Sys2Proof.Safety
open Sys2Proof Sys2Proof.Machine

/-- Settles O3: each form gives the count, or the word, whose bits the lemmas above describe. -/
theorem bitCountResults : Obligations.BitCountResults := by
  intro s b a d x y
  have hx : x < 2 ^ 64 := (s.rs a).isLt
  have hlen : bitLength x ≤ 64 := bitLength_le hx
  refine ⟨⟨64 - bitLength x, Nat.sub_le _ _, ?_, fun h => ?_, gives_of_exec rfl⟩,
    ⟨trailingZeros x 64, trailingZeros_le x 64, fun i => testBit_of_lt_trailingZeros, testBit_trailingZeros, gives_of_exec rfl⟩,
    gives_of_eq rfl (congrArg _ List.countP_eq_length_filter),
    ⟨_, gives_of_exec rfl, fun i => bits_reverseBytes (s.rs a)⟩,
    ⟨_, gives_of_exec rfl, fun i hi hy => ?_, fun j hj => ?_⟩, ⟨_, gives_of_exec rfl, fun i hi => ?_⟩⟩
  · rw [Nat.sub_sub_self hlen]
    exact lt_two_pow_bitLength x
  · exact two_pow_le_of_bitLength (by omega)
  · rw [BitVec.toNat_ofNat, Nat.testBit_mod_two_pow, testBit_extractBits hi hy, decide_eq_true ((popCount_le i y).trans_lt hi),
      Bool.true_and]
  · rw [BitVec.toNat_ofNat, Nat.testBit_mod_two_pow, testBit_extractBits_above hj, Bool.and_false]
  · rw [BitVec.toNat_ofNat, Nat.testBit_mod_two_pow, testBit_depositBits hi, decide_eq_true hi, Bool.true_and]

end Sys2Proof.Safety

/-! Forms with an immediate (R99, R100), branches and jumps (R101 to R104), and their compressed forms (R105). -/

namespace Sys2Proof.Machine

theorem add_signExtend {w : Nat} (x : Word) (i : BitVec w) : x + i.signExtend 64 = BitVec.ofInt 64 (x.toInt + i.toInt) := by
  rw [BitVec.ofInt_add, BitVec.ofInt_toInt]
  rfl

/-- A signed offset scaled by a power of two. -/
theorem signExtend_shiftLeft {w : Nat} (n k : Nat) (o : BitVec w) : o.signExtend n <<< k = BitVec.ofInt n (2 ^ k * o.toInt) := by
  have hpow : BitVec.twoPow n k = BitVec.ofInt n (2 ^ k) := by
    apply BitVec.eq_of_toNat_eq
    rw [BitVec.toNat_twoPow, ← Nat.cast_ofNat (R := Int), ← Nat.cast_pow, BitVec.ofInt_natCast, BitVec.toNat_ofNat]
  rw [BitVec.shiftLeft_eq_mul_twoPow, BitVec.ofInt_mul, BitVec.mul_comm, hpow]
  rfl

theorem setWidth_eq_ofInt {w n : Nat} (x : BitVec w) : x.setWidth n = BitVec.ofInt n x.toNat := by
  rw [BitVec.ofInt_natCast, BitVec.ofNat_toNat]

/-- shori (R99): the immediate takes the places that the shift has freed. -/
theorem shiftLeft_or_setWidth (x : Word) (i : BitVec 11) : x <<< 11 ||| i.setWidth 64 = BitVec.ofNat 64 (x.toNat * 2 ^ 11 + i.toNat) := by
  have hapart : x <<< 11 &&& i.setWidth 64 = 0#64 := by
    apply BitVec.eq_of_getLsbD_eq
    intro j hj
    rw [BitVec.getLsbD_and, BitVec.getLsbD_shiftLeft, BitVec.getLsbD_setWidth, BitVec.getLsbD_zero]
    by_cases h : j < 11
    · simp [h]
    · rw [BitVec.getLsbD_of_ge i j (not_lt.1 h), Bool.and_false, Bool.and_false]
  rw [← BitVec.add_eq_or_of_and_eq_zero _ _ hapart, shiftLeft_eq_ofNat, BitVec.ofNat_add, BitVec.ofNat_toNat]

/-- The target of an indirect jump: bit 0 is dropped (R103). -/
theorem and_not_one_eq (x : Word) : x &&& ~~~1#64 = BitVec.ofNat 64 (x.toNat / 2 * 2) := by
  rw [← BitVec.setWidth_eq (x &&& ~~~1#64)]
  apply BitVec.eq_of_getLsbD_eq
  intro i hi
  simp only [BitVec.getLsbD_and, BitVec.getLsbD_setWidth, BitVec.getLsbD_not, BitVec.getLsbD_ofNat, hi]
  cases i with
  | zero => simp
  | succ j => simp [BitVec.getLsbD, Nat.testBit_succ]

theorem and_not_one_eq_zero_iff (x : Word) : x &&& ~~~1#64 = 0 ↔ x.toNat / 2 * 2 = 0 := by
  have hlt : x.toNat / 2 * 2 < 2 ^ 64 := by
    have := x.isLt
    omega
  rw [and_not_one_eq, ← BitVec.toNat_inj, BitVec.toNat_ofNat, Nat.mod_eq_of_lt hlt]
  rfl

/-- The short registers (R59). -/
theorem shortReg_eq (r : BitVec 3) : shortReg r = BitVec.ofNat 5 (8 + r.toNat) := by
  revert r
  decide

theorem State.hop_eq {w : Nat} (s : State) (o : BitVec w) : s.hop o = s.jump (s.hart.pc + BitVec.ofInt 48 (2 * o.toInt)) := by
  rw [State.hop, signExtend_shiftLeft]
  rfl

end Sys2Proof.Machine

namespace Sys2Proof.Safety
open Sys2Proof Sys2Proof.Machine

/-- Settles O4: the immediate enters as the number that it is. -/
theorem immediateResults : Obligations.ImmediateResults := by
  intro s i n u a d x
  refine ⟨gives_of_eq rfl (add_signExtend x i), gives_of_exec rfl, gives_of_exec rfl, gives_of_exec rfl,
    gives_of_eq rfl (shiftLeft_eq_ofNat x n.toNat), gives_of_eq rfl (ushiftRight_eq_ofNat x n.toNat),
    gives_of_eq rfl (sshiftRight_eq_ofInt x n.toNat), gives_of_eq rfl (shiftLeft_or_setWidth x i),
    gives_of_eq rfl (word32_eq (add_eq_ofNat x (i.signExtend 64))), gives_of_eq rfl ?_⟩
  rw [setWidth_eq_ofInt, signExtend_shiftLeft, ← BitVec.ofInt_add, Int.mul_comm]

theorem keeps_jump (s : State) (a : BitVec 48) : Keeps [.pc] s (s.jump a) := by
  intro p hp
  cases p <;> simp [Agree, SameRegisters] at hp ⊢

/-- A branch goes to its target, or on to the next instruction (R101). -/
theorem goes_branch {i : Instr} {s : State} {n w : Nat} {o : BitVec w} {taken : Bool} (h : exec i s = s.branch n taken o) :
    Goes i s (if taken then s.hart.pc + BitVec.ofInt 48 (2 * o.toInt) else s.hart.pc + BitVec.ofNat 48 n) := by
  refine ⟨_, h, ?_, ?_⟩
  · cases taken
    · simp
    · simp [State.hop_eq]
  · cases taken
    · exact keeps_skip s n
    · exact keeps_jump s _

/-- A branch under a condition. -/
theorem goes_branch_if {i : Instr} {s : State} {n w : Nat} {o : BitVec w} {taken : Bool} {p : Prop} [Decidable p]
    (h : exec i s = s.branch n taken o) (hp : taken = decide p) :
    Goes i s (if p then s.hart.pc + BitVec.ofInt 48 (2 * o.toInt) else s.hart.pc + BitVec.ofNat 48 n) := by
  simpa only [hp, decide_eq_true_eq] using goes_branch h

/-- A branch unless a condition holds. -/
theorem goes_branch_unless {i : Instr} {s : State} {n w : Nat} {o : BitVec w} {taken : Bool} {p : Prop} [Decidable p]
    (h : exec i s = s.branch n taken o) (hp : taken = !decide p) :
    Goes i s (if p then s.hart.pc + BitVec.ofNat 48 n else s.hart.pc + BitVec.ofInt 48 (2 * o.toInt)) := by
  simpa only [ite_not] using goes_branch_if (p := ¬ p) h (by rw [hp, decide_not])

/-- A register write and a new pc. -/
theorem wrote_jump (s : State) (d : BitVec 5) (x : Word) (a : BitVec 48) :
    Wrote s ((s.ws d x).jump a) d x ∧ ((s.ws d x).jump a).hart.pc = a ∧ Keeps [.scalars, .integrity, .pc] s ((s.ws d x).jump a) :=
  ⟨wrote_ws s d x, rfl, ((keeps_ws s d x).mono (by decide)).trans ((keeps_jump _ a).mono (by decide))⟩

/-- A jump and link (R102). -/
theorem link_spec {i : Instr} {s : State} {n w : Nat} {d : BitVec 5} {o : BitVec w} (h : exec i s = s.link n d o) :
    ∃ t : State, exec i s = .next t ∧ Wrote s t d (s.hart.pc.setWidth 64 + BitVec.ofNat 64 n) ∧
      t.hart.pc = s.hart.pc + BitVec.ofInt 48 (2 * o.toInt) ∧ Keeps [.scalars, .integrity, .pc] s t := by
  have hpc (x : Word) : (s.ws d x).hart.pc = s.hart.pc := by simp
  rw [State.link, State.hop_eq, hpc] at h
  exact ⟨_, h, wrote_jump s d _ _⟩

/-- The register write and the new pc of an indirect jump (R103). -/
def linked (s : State) (n : Nat) (d : BitVec 5) (x : Word) : State :=
  (s.ws d (s.hart.pc.setWidth 64 + BitVec.ofNat 64 n)).jump (BitVec.ofNat 48 (x.toNat / 2 * 2))

/-- An indirect jump that has a target, or that ends the program outside regions (R103, R104). -/
theorem jumpLink_of_allowed {s : State} {n : Nat} {d : BitVec 5} {x : Word} (h : x.toNat / 2 * 2 = 0 → s.hart.region = none) :
    s.jumpLink n d x = .next (if x.toNat / 2 * 2 = 0 then (linked s n d x).finish 0 else linked s n d x) := by
  have hallowed : ¬ ((decide (x &&& ~~~1#64 = 0) && s.hart.region.isSome) = true) := by
    rw [Bool.and_eq_true, decide_eq_true_eq, and_not_one_eq_zero_iff, Option.isSome_iff_ne_none]
    exact fun hx => hx.2 (h hx.1)
  have hpc : (x &&& ~~~1#64).setWidth 48 = BitVec.ofNat 48 (x.toNat / 2 * 2) := by
    rw [and_not_one_eq, BitVec.setWidth_ofNat_of_le (by decide)]
  unfold State.jumpLink linked
  dsimp only
  rw [if_neg hallowed, hpc]
  simp only [and_not_one_eq_zero_iff]

theorem jumpLink_forbidden {s : State} (n : Nat) (d : BitVec 5) {x : Word} (hx : x.toNat / 2 * 2 = 0) (hr : s.hart.region ≠ none) :
    s.jumpLink n d x = .next (s.abortRegion s.hart.id 4) := by
  refine if_pos ?_
  rw [Bool.and_eq_true, decide_eq_true_eq, and_not_one_eq_zero_iff]
  exact ⟨hx, Option.isSome_iff_ne_none.2 hr⟩

/-- The end of a program (R104). -/
theorem keeps_finish (s : State) (code : Byte) : Keeps [.task, .waits, .agenda] s (s.finish code) := by
  intro p hp
  cases p <;> simp [Agree, SameRegisters, State.finish] at hp ⊢

/-- An indirect jump in its three cases (R103, R104). -/
theorem jumpLink_spec {j : Instr} {s : State} {n : Nat} {link : BitVec 5} {x : Word} (h : exec j s = s.jumpLink n link x) :
    let target := x.toNat / 2 * 2
    (target ≠ 0 → ∃ t : State, exec j s = .next t ∧ Wrote s t link (s.hart.pc.setWidth 64 + BitVec.ofNat 64 n) ∧
      t.hart.pc = BitVec.ofNat 48 target ∧ Keeps [.scalars, .integrity, .pc] s t) ∧
    (target = 0 → s.hart.region = none → ∃ t : State, exec j s = .next t ∧ t.hart.ending = true ∧ t.hart.failCode = 0 ∧
      .taskEnd s.hart.id ∈ t.agenda ∧ Wrote s t link (s.hart.pc.setWidth 64 + BitVec.ofNat 64 n) ∧
      Keeps [.scalars, .integrity, .pc, .task, .waits, .agenda] s t) ∧
    (target = 0 → s.hart.region ≠ none → exec j s = .next (s.abortRegion s.hart.id 4)) := by
  intro target
  obtain ⟨hwrote, hpc, hkeeps⟩ := wrote_jump s link (s.hart.pc.setWidth 64 + BitVec.ofNat 64 n) (BitVec.ofNat 48 target)
  refine ⟨fun ht => ?_, fun ht hr => ?_, fun ht hr => h.trans (jumpLink_forbidden n link ht hr)⟩
  · rw [jumpLink_of_allowed fun h0 => absurd h0 ht, if_neg (c := x.toNat / 2 * 2 = 0) ht] at h
    exact ⟨_, h, hwrote, hpc, hkeeps⟩
  · rw [jumpLink_of_allowed fun _ => hr, if_pos (c := x.toNat / 2 * 2 = 0) ht] at h
    refine ⟨_, h, rfl, rfl, ?_, hwrote, (hkeeps.mono (by decide)).trans ((keeps_finish _ 0).mono (by decide))⟩
    exact List.mem_append_right _ (List.mem_singleton.2 (by simp [linked]))

/-- Settles O5: the branches by their conditions, the jumps by their links and targets. -/
theorem branchesAndJumps : Obligations.BranchesAndJumps := by
  intro s o i u b a d x y taken next
  refine ⟨goes_branch_if rfl rfl, goes_branch_unless rfl (decide_not (p := x = y)), goes_branch_if rfl (slt_eq_decide x y),
    goes_branch_unless rfl (congrArg Bool.not (slt_eq_decide x y)), goes_branch_if rfl rfl, goes_branch_unless rfl rfl, link_spec rfl,
    fun j n link x hj => jumpLink_spec ?_⟩
  simp only [List.mem_cons, List.not_mem_nil, or_false, Prod.mk.injEq] at hj
  obtain ⟨rfl, rfl, rfl, rfl⟩ | ⟨rfl, rfl, rfl, rfl⟩ | ⟨rfl, rfl, rfl, rfl⟩ := hj
  · rfl
  · rfl
  · rfl

/-- Settles O6: each compressed form is the result, the branch or the link of the form that it stands for, with the size 2. -/
theorem compressedResults : Obligations.CompressedResults := by
  intro s d b i r o u x y short
  have hshort : s.rs (shortReg r) = short := congrArg s.rs (shortReg_eq r)
  have hbeq := goes_branch_if (i := .cBeq r o) (p := s.rs (shortReg r) = 0) rfl rfl
  have hbne := goes_branch_unless (i := .cBne r o) (p := s.rs (shortReg r) = 0) rfl (decide_not (p := s.rs (shortReg r) = 0))
  rw [hshort] at hbeq hbne
  exact ⟨gives_of_eq rfl (add_signExtend x i), gives_of_eq rfl (add_eq_ofInt x y), gives_of_eq rfl (sub_eq_ofInt x y), gives_of_exec rfl,
    gives_of_exec rfl, gives_of_exec rfl, gives_of_eq rfl (shiftLeft_eq_ofNat x i.toNat), gives_of_eq rfl (ushiftRight_eq_ofNat x i.toNat),
    gives_of_eq rfl (sshiftRight_eq_ofInt x i.toNat), hbeq, hbne, link_spec rfl⟩

end Sys2Proof.Safety

/-! The type and strip registers, and strip (R107, R108). -/

namespace Sys2Proof.Machine

/-- The registers from p on, as many as k, but for their wrap-around at 32. -/
def InRun (p : BitVec 5) (k : Nat) (r : BitVec 5) : Prop := p.toNat ≤ r.toNat ∧ r.toNat < p.toNat + k

theorem inRun_succ_iff (p r : BitVec 5) (n : Nat) : InRun p (n + 1) r ↔ p ≤ r ∧ r.toNat ≤ p.toNat + n := by
  rw [InRun, BitVec.le_def]
  omega

/-- Register k of a run that does not wrap around. -/
theorem toNat_add_ofNat {p : BitVec 5} {k : Nat} (h : p.toNat + k < 32) : (p + BitVec.ofNat 5 k).toNat = p.toNat + k := by
  rw [BitVec.toNat_add, BitVec.toNat_ofNat, Nat.mod_eq_of_lt (by omega : k < 2 ^ 5), Nat.mod_eq_of_lt h]

theorem Hart.setS_eq (h : Hart) (r : BitVec 5) (x : Word) : ∃ y parity, h.setS r x = { h with s := y, parity := parity } := by
  unfold Hart.setS
  split
  · exact ⟨h.s, h.parity, rfl⟩
  · exact ⟨_, _, rfl⟩

/-- What advancing pointers changes of a hart: its scalar registers and their parity errors. -/
theorem Hart.advancePointers_eq (h : Hart) (g : Nat) (p : BitVec 5) (n : Nat) :
    ∃ x parity, h.advancePointers g p n = { h with s := x, parity := parity } := by
  induction n with
  | zero => exact ⟨h.s, h.parity, rfl⟩
  | succ n ih =>
    obtain ⟨x, parity, heq⟩ := ih
    obtain ⟨y, mended, hset⟩ := (h.advancePointers g p n).setS_eq (p + BitVec.ofNat 5 n)
      ((h.advancePointers g p n).getS (p + BitVec.ofNat 5 n) +
        BitVec.ofNat 64 (g * 2 ^ bits (h.advancePointers g p n).sw.toNat (4 * n + 1) (4 * n)))
    exact ⟨y, mended, hset.trans (by rw [heq])⟩

/-- The register that a pointer step of a strip adds to, by its place in the run. -/
theorem Hart.advancePointers_getS {h : Hart} (g : Nat) {p : BitVec 5} {n : Nat} (hn : p.toNat + n ≤ 32) :
    (∀ k, k < n → p.toNat + k ≠ 0 → (h.advancePointers g p n).getS (p + BitVec.ofNat 5 k) =
      h.getS (p + BitVec.ofNat 5 k) + BitVec.ofNat 64 (g * 2 ^ bits h.sw.toNat (4 * k + 1) (4 * k))) ∧
    ∀ r, ¬ InRun p n r → (h.advancePointers g p n).getS r = h.getS r := by
  induction n with
  | zero => exact ⟨fun k hk => absurd hk (Nat.not_lt_zero k), fun r _ => rfl⟩
  | succ n ih =>
    obtain ⟨hin, hout⟩ := ih (by omega)
    obtain ⟨x, parity, heq⟩ := h.advancePointers_eq g p n
    have hsw : (h.advancePointers g p n).sw = h.sw := by rw [heq]
    have hlast : (p + BitVec.ofNat 5 n).toNat = p.toNat + n := toNat_add_ofNat (by omega)
    refine ⟨fun k hk h0 => ?_, fun r hr => ?_⟩
    · have hplace : (p + BitVec.ofNat 5 k).toNat = p.toNat + k := toNat_add_ofNat (by omega)
      have hne : p + BitVec.ofNat 5 k ≠ 0 := fun e => h0 (hplace.symm.trans (congrArg BitVec.toNat e))
      rw [Hart.advancePointers, Hart.getS_setS, if_neg hne, hsw]
      rcases Nat.lt_succ_iff_lt_or_eq.1 hk with hk | rfl
      · rw [if_neg fun e => by have := congrArg BitVec.toNat e; omega, hin k hk h0]
      · rw [if_pos rfl, hout _ fun hr => by have := hr.2; omega]
    · have hne : r ≠ p + BitVec.ofNat 5 n := fun e => hr ⟨by rw [e, hlast]; omega, by rw [e, hlast]; omega⟩
      rw [Hart.advancePointers, Hart.getS_setS, if_neg hne, hout r fun hr' => hr ⟨hr'.1, Nat.lt_succ_of_lt hr'.2⟩]
      split
      next h0 => rw [h0]; rfl
      next => rfl

/-- A strip mends the parity errors of its pointers alone (R313). -/
theorem Hart.advancePointers_parity {h : Hart} (g : Nat) {p : BitVec 5} {n : Nat} (hn : p.toNat + n ≤ 32) (r : RegSlot) :
    (r ∈ (h.advancePointers g p n).parity → r ∈ h.parity) ∧
      (r ∈ h.parity → (∀ k, InRun p n k → r ≠ .s k.toNat) → r ∈ (h.advancePointers g p n).parity) := by
  induction n with
  | zero => exact ⟨fun hr => hr, fun hr _ => hr⟩
  | succ n ih =>
    obtain ⟨hsub, hkeep⟩ := ih (by omega)
    have hlast : (p + BitVec.ofNat 5 n).toNat = p.toNat + n := toNat_add_ofNat (by omega)
    rw [Hart.advancePointers, Hart.mem_setS_parity]
    refine ⟨fun hr => hsub hr.1, fun hr hne => ⟨hkeep hr fun k hk => hne k ⟨hk.1, Nat.lt_succ_of_lt hk.2⟩, .inr (hne _ ?_)⟩⟩
    rw [InRun, hlast]
    omega

/-- The fields of sw (R38): two bits at each multiple of four. -/
def swWord (x : Nat) : BitVec 16 := BitVec.ofNat 16 (bits x 1 0 + bits x 5 4 * 16 + bits x 9 8 * 256 + bits x 13 12 * 4096)

theorem swWord_fields (x : Nat) {k : Nat} (hk : k < 4) :
    bits (swWord x).toNat (4 * k + 1) (4 * k) = bits x (4 * k + 1) (4 * k) ∧ bits (swWord x).toNat (4 * k + 3) (4 * k + 2) = 0 := by
  have hfield (hi lo : Nat) (h : hi + 1 - lo = 2) : bits x hi lo < 4 := by
    rw [bits_eq, h]
    exact Nat.mod_lt _ (by decide)
  have h0 := hfield 1 0 rfl
  have h1 := hfield 5 4 rfl
  have h2 := hfield 9 8 rfl
  have h3 := hfield 13 12 rfl
  have hw : (swWord x).toNat = bits x 1 0 + bits x 5 4 * 16 + bits x 9 8 * 256 + bits x 13 12 * 4096 := by
    rw [swWord, BitVec.toNat_ofNat, Nat.mod_eq_of_lt (by omega)]
  rw [bits_eq (swWord x).toNat, bits_eq (swWord x).toNat, hw]
  obtain rfl | rfl | rfl | rfl : k = 0 ∨ k = 1 ∨ k = 2 ∨ k = 3 := by omega
  all_goals
    simp only [Nat.reduceMul, Nat.reduceAdd, Nat.reduceSub, Nat.reducePow]
    omega

/-- vt under another rounding mode (R37). -/
def roundWord (vt x : Nat) : BitVec 11 := BitVec.ofNat 11 (vt % 512 + bits x 1 0 * 512)

theorem roundWord_fields (vt x : Nat) :
    bits (roundWord vt x).toNat 10 9 = bits x 1 0 ∧ bits (roundWord vt x).toNat 8 0 = bits vt 8 0 := by
  have hround : bits x 1 0 < 4 := Nat.mod_lt _ (by decide)
  have hw : (roundWord vt x).toNat = vt % 512 + bits x 1 0 * 512 := by
    rw [roundWord, BitVec.toNat_ofNat, Nat.mod_eq_of_lt (by omega)]
  rw [bits_eq (roundWord vt x).toNat, bits_eq (roundWord vt x).toNat, bits_eq vt, hw]
  exact ⟨by omega, by omega⟩

/-- The offset of strip, whose sign bit is not in its field (R108). -/
theorem toInt_negative_append (o : BitVec 10) : (1#1 ++ o).toInt = (o.toNat : Int) - 2 ^ 10 := by
  have ho := o.isLt
  have hx : (1#1 ++ o).toNat = 2 ^ 10 + o.toNat := by
    rw [BitVec.toNat_append, Nat.shiftLeft_eq, ← Nat.shiftLeft_eq, ← Nat.shiftLeft_add_eq_or_of_lt ho]
    rfl
  rw [BitVec.toInt, hx]
  split_ifs <;> omega

/-- The state after the pointers and the count of a strip, and its grant, before rows return (R108). -/
def State.stripped (s : State) (n : BitVec 2) (p c : BitVec 5) : State :=
  let g := s.hart.g
  let rem := (s.rs c).toNat - g
  ((s.on fun h => h.advancePointers g p (n.toNat + 1)).ws c (BitVec.ofNat 64 rem)).on fun h =>
    h.setVl (Machine.grant rem h.blk (h.mvl h.sew))

/-- The last move of a strip: back to the head of its loop while a count remains (R108). -/
def State.stripEnd (s : State) (o : BitVec 10) (rem : Nat) : State :=
  if rem ≠ 0 then s.jump (s.hart.pc + (1#1 ++ o).signExtend 48 <<< 1) else s.skip 4

theorem execStrip_eq (s : State) (o : BitVec 10) (n : BitVec 2) (p c : BitVec 5) :
    execStrip o n p c s = .next ((s.stripped n p c).returnRows.stripEnd o ((s.rs c).toNat - s.hart.g)) := rfl

theorem State.stripEnd_eq (s : State) (o : BitVec 10) (rem : Nat) : s.stripEnd o rem =
    s.jump (if rem = 0 then s.hart.pc + 4 else s.hart.pc + BitVec.ofInt 48 (2 * ((o.toNat : Int) - 2 ^ 10))) := by
  rw [State.stripEnd, signExtend_shiftLeft, toInt_negative_append]
  by_cases h : rem = 0
  · rw [if_neg (not_not.2 h), if_pos h]
    rfl
  · rw [if_pos h, if_neg h]
    rfl

/-- The grant of a strip (R106, R108). -/
theorem State.stripped_length (s : State) (n : BitVec 2) (p c : BitVec 5) :
    let G := Machine.grant ((s.rs c).toNat - s.hart.g) s.hart.blk (s.hart.mvl s.hart.sew)
    (s.stripped n p c).hart.vl = BitVec.ofNat 11 G.1 ∧ (s.stripped n p c).hart.vlPad = BitVec.ofNat 7 G.2 := by
  obtain ⟨x, parity, heq⟩ := s.hart.advancePointers_eq s.hart.g p (n.toNat + 1)
  obtain ⟨y, mended, hset⟩ := (s.hart.advancePointers s.hart.g p (n.toNat + 1)).setS_eq c (BitVec.ofNat 64 ((s.rs c).toNat - s.hart.g))
  unfold State.stripped State.ws
  dsimp only [State.on]
  rw [hset, heq]
  exact ⟨rfl, rfl⟩

/-- What a strip leaves in each scalar register (R108). -/
theorem State.stripped_rs (s : State) {n : BitVec 2} {p c : BitVec 5} (hp : p.toNat + n.toNat < 32) (hc : ¬ InRun p (n.toNat + 1) c) :
    (c ≠ 0 → (s.stripped n p c).rs c = BitVec.ofNat 64 ((s.rs c).toNat - s.hart.g)) ∧
    (∀ k, k ≤ n.toNat → p.toNat + k ≠ 0 → (s.stripped n p c).rs (p + BitVec.ofNat 5 k) =
      s.rs (p + BitVec.ofNat 5 k) + BitVec.ofNat 64 (s.hart.g * 2 ^ bits s.hart.sw.toNat (4 * k + 1) (4 * k))) ∧
    ∀ r, r ≠ c → ¬ InRun p (n.toNat + 1) r → (s.stripped n p c).rs r = s.rs r := by
  obtain ⟨hin, hout⟩ := s.hart.advancePointers_getS s.hart.g (p := p) (n := n.toNat + 1) (by omega)
  have hother (r : BitVec 5) (hr : r ≠ c) : (s.stripped n p c).rs r = (s.hart.advancePointers s.hart.g p (n.toNat + 1)).getS r := by
    refine (Hart.getS_setS _ c r _).trans ?_
    rw [if_neg hr]
    split
    next h0 => rw [h0]; rfl
    next => rfl
  refine ⟨fun h0 => ?_, fun k hk h0 => ?_, fun r hr hn => (hother r hr).trans (hout r hn)⟩
  · refine (Hart.getS_setS _ c c _).trans ?_
    rw [if_neg h0, if_pos rfl]
  · have hplace : (p + BitVec.ofNat 5 k).toNat = p.toNat + k := toNat_add_ofNat (by omega)
    refine (hother _ fun e => hc ?_).trans (hin k (Nat.lt_succ_of_le hk) h0)
    rw [← e, InRun, hplace]
    omega

/-- A strip mends the parity errors of its pointers and its count alone (R313). -/
theorem State.stripped_parity (s : State) {n : BitVec 2} {p : BitVec 5} (c : BitVec 5) (hp : p.toNat + n.toNat < 32) (r : RegSlot) :
    (r ∈ (s.stripped n p c).hart.parity → r ∈ s.hart.parity) ∧
      (r ∈ s.hart.parity → (∀ k, k = c ∨ InRun p (n.toNat + 1) k → r ≠ .s k.toNat) →
        r ∈ (s.stripped n p c).hart.parity) := by
  obtain ⟨hsub, hkeep⟩ := s.hart.advancePointers_parity s.hart.g (p := p) (n := n.toNat + 1) (by omega) r
  have hmem := Hart.mem_setS_parity (s.hart.advancePointers s.hart.g p (n.toNat + 1)) c (BitVec.ofNat 64 ((s.rs c).toNat - s.hart.g)) r
  exact ⟨fun hr => hsub (hmem.1 hr).1, fun hr hne => hmem.2 ⟨hkeep hr fun k hk => hne k (.inr hk), .inr (hne c (.inl rfl))⟩⟩

end Sys2Proof.Machine

namespace Sys2Proof.Safety
open Sys2Proof Sys2Proof.Machine

/-- A change of the hart's type or strip register and the value that it hands back (R107). -/
theorem wrote_on {s : State} {f : Hart → Hart} {p : Part} {d : BitVec 5} {x : Word} (hf : Keeps [p] s (s.on f)) (hp : p ≠ .scalars)
    (hi : p ≠ .integrity) (hpc : (f s.hart).pc = s.hart.pc) :
    let t := ((s.on f).ws d x).skip 4
    Wrote s t d x ∧ t.hart.pc = s.hart.pc + 4 ∧ Keeps [.scalars, .integrity, p, .pc] s t := by
  have hs := hf .scalars (by simpa using hp.symm)
  have hq := hf .integrity (by simpa using hi.symm)
  refine ⟨(wrote_ws (s.on f) d x).of_agree hs hq, ?_, ?_⟩
  · simp [hpc]
  · exact ((hf.mono (by simp)).trans ((keeps_ws _ d x).mono (by simp))).trans ((keeps_skip _ 4).mono (by simp))

theorem keeps_returnRows (s : State) : Keeps [.vectors, .rows, .free] s s.returnRows := by
  obtain ⟨v, pooled, free, heq⟩ := s.returnRows_eq
  rw [heq]
  intro p hp
  cases p <;> simp [Agree, SameRegisters] at hp ⊢

theorem keeps_stripped (s : State) (n : BitVec 2) (p c : BitVec 5) :
    Keeps [.scalars, .integrity, .length] s (s.stripped n p c) := by
  obtain ⟨x, parity, heq⟩ := s.hart.advancePointers_eq s.hart.g p (n.toNat + 1)
  intro q hq
  cases q <;> simp [Agree, SameRegisters, State.stripped, Hart.setVl, heq] at hq ⊢

theorem rs_of_agree {s t : State} (h : Agree s t .scalars) (r : BitVec 5) : t.rs r = s.rs r :=
  congrArg (fun x : Vector Word 32 => if r = 0 then 0 else x.get r.toFin) h

theorem setsw_spec (s : State) (a d : BitVec 5) :
    let x := (s.rs a).toNat
    ∃ t : State, exec (.setsw a d) s = .next t ∧ Wrote s t d (BitVec.ofNat 64 s.hart.sw.toNat) ∧ t.hart.pc = s.hart.pc + 4 ∧
      (∀ k, k < 4 → bits t.hart.sw.toNat (4 * k + 1) (4 * k) = bits x (4 * k + 1) (4 * k) ∧
        bits t.hart.sw.toNat (4 * k + 3) (4 * k + 2) = 0) ∧ Keeps [.scalars, .integrity, .sw, .pc] s t := by
  intro x
  have hsw : Keeps [.sw] s (s.on fun h => { h with sw := swWord x }) := by
    intro p hp
    cases p <;> simp [Agree, SameRegisters] at hp ⊢
  obtain ⟨hwrote, hpc, hkeeps⟩ := wrote_on (d := d) (x := s.hart.sw.setWidth 64) hsw (by decide) (by decide) rfl
  have hnew : (((s.on fun h => { h with sw := swWord x }).ws d (s.hart.sw.setWidth 64)).skip 4).hart.sw = swWord x := by simp
  rw [BitVec.ofNat_toNat]
  exact ⟨_, rfl, hwrote, hpc, fun k hk => hnew ▸ swWord_fields x hk, hkeeps⟩

theorem setrm_spec (s : State) (a d : BitVec 5) :
    let x := (s.rs a).toNat
    ∃ t : State, exec (.setrm a d) s = .next t ∧ Wrote s t d (BitVec.ofNat 64 (bits s.hart.vt.toNat 10 9)) ∧
      t.hart.pc = s.hart.pc + 4 ∧ bits t.hart.vt.toNat 10 9 = bits x 1 0 ∧
      bits t.hart.vt.toNat 8 0 = bits s.hart.vt.toNat 8 0 ∧ Keeps [.scalars, .integrity, .vt, .pc] s t := by
  intro x
  have hvt : Keeps [.vt] s (s.on fun h => { h with vt := roundWord h.vt.toNat x }) := by
    intro p hp
    cases p <;> simp [Agree, SameRegisters] at hp ⊢
  obtain ⟨hwrote, hpc, hkeeps⟩ := wrote_on (d := d) (x := BitVec.ofNat 64 (bits s.hart.vt.toNat 10 9)) hvt (by decide) (by decide) rfl
  have hnew : (((s.on fun h => { h with vt := roundWord h.vt.toNat x }).ws d
      (BitVec.ofNat 64 (bits s.hart.vt.toNat 10 9))).skip 4).hart.vt = roundWord s.hart.vt.toNat x := by simp
  obtain ⟨hround, hrest⟩ := roundWord_fields s.hart.vt.toNat x
  exact ⟨_, rfl, hwrote, hpc, hnew ▸ hround, hnew ▸ hrest, hkeeps⟩

/-- Settles O23: the forms that hand back a value from their words; strip from its pointers, its count and its grant in turn. -/
theorem typeAndStrip : Obligations.TypeAndStrip := by
  refine ⟨fun s a d => ⟨gives_of_eq rfl (BitVec.ofNat_toNat 64 _).symm, gives_of_eq rfl (BitVec.ofNat_toNat 64 _).symm,
    setsw_spec s a d, setrm_spec s a d⟩, fun s o n p c hp hc => ?_⟩
  intro g rem G
  have hrun (r : BitVec 5) : InRun p (n.toNat + 1) r ↔ p ≤ r ∧ r.toNat ≤ p.toNat + n.toNat := inRun_succ_iff p r n.toNat
  let v := s.stripped n p c
  let u := v.returnRows
  let a := if rem = 0 then u.hart.pc + 4 else u.hart.pc + BitVec.ofInt 48 (2 * ((o.toNat : Int) - 2 ^ 10))
  have hexec : exec (.strip o n p c) s = .next (u.jump a) := congrArg _ (State.stripEnd_eq u o rem)
  have hstart : Keeps [.scalars, .integrity, .length] s v := keeps_stripped s n p c
  have hend : Keeps [.vectors, .rows, .free, .pc] v (u.jump a) :=
    ((keeps_returnRows v).mono (by decide)).trans ((keeps_jump u a).mono (by decide))
  have hpc : u.hart.pc = s.hart.pc := (hstart .pc (by decide)).trans (keeps_returnRows v .pc (by decide))
  have hlength : (u.jump a).hart.vl = v.hart.vl ∧ (u.jump a).hart.vlPad = v.hart.vlPad := hend .length (by decide)
  have hparity : (u.jump a).hart.parity = v.hart.parity := hend .integrity (by decide)
  have hrows : RowsReturned v (u.jump a) := rowsReturned_returnRows v
  have hrs := rs_of_agree (hend .scalars (by decide))
  obtain ⟨hcount, hpointers, hothers⟩ := s.stripped_rs hp (mt (hrun c).1 hc)
  obtain ⟨hvl, hpad⟩ := s.stripped_length n p c
  refine ⟨_, hexec, fun h0 => (hrs c).trans (hcount h0), fun k hk h0 => (hrs _).trans (hpointers k hk h0),
    fun r hr hn => (hrs r).trans (hothers r hr (mt (hrun r).1 hn)), hlength.1.trans hvl, hlength.2.trans hpad, hpc ▸ rfl,
    hrows.of_agree (hstart .vectors (by decide)) (hstart .rows (by decide)) (hstart .free (by decide)),
    ⟨fun r hr => ?_, fun r hr hne => ?_, fun _ hn => absurd trivial hn⟩, (hstart.mono (by decide)).trans (hend.mono (by decide))⟩
  · exact (s.stripped_parity c hp r).1 (hparity ▸ hr)
  · rw [hparity]
    refine (s.stripped_parity c hp r).2 hr fun k hk e => hne ⟨k, e, hk.imp id (hrun k).1⟩

end Sys2Proof.Safety

/-! Barriers (R111 to R114). -/

namespace Sys2Proof.Machine

/-- The count of a phase as an arrival with the count n finds it: the first one sets it (R112). -/
def Barrier.expected (b : Barrier) (n : Nat) : Nat := if b.arrived = 0 then max n 1 else b.count

/-- The barrier that an arrival leaves (R112). -/
def Barrier.joined (b : Barrier) (n : Nat) : Barrier :=
  if b.arrived + 1 ≥ b.expected n then { b with phase := b.phase + 1, count := 0, arrived := 0 }
  else { b with count := b.expected n, arrived := b.arrived + 1 }

/-- An arrival releases nothing itself. -/
theorem Barrier.joined_isReleased (b : Barrier) (n x : Nat) : (b.joined n).isReleased x = b.isReleased x := by
  unfold Barrier.joined
  split
  · rfl
  · rfl

/-- An arrival sets its barrier, and makes the release of the phase due where it is the last one (R112). -/
theorem State.arriveAt_eq (s : State) (k : BarrierKey) (n : Nat) : s.arriveAt k n =
    (let t := s.setBarrier k ((s.barrier k).joined n)
      if (s.barrier k).arrived + 1 ≥ (s.barrier k).expected n then t.due (.barrierRelease k) else t,
      BitVec.ofNat 32 (s.barrier k).phase) := by
  unfold State.arriveAt Barrier.joined
  change (if (s.barrier k).arrived + 1 ≥ (s.barrier k).expected n then _ else _) = _
  split
  · rfl
  · rfl

theorem State.arriveAt_barrier (s : State) (k : BarrierKey) (n : Nat) : (s.arriveAt k n).1.barrier k = (s.barrier k).joined n := by
  have hset : (s.setBarrier k ((s.barrier k).joined n)).barrier k = (s.barrier k).joined n := by
    rw [State.barrier_setBarrier, if_pos rfl]
  rw [State.arriveAt_eq]
  dsimp only
  split
  · exact hset
  · exact hset

theorem State.mem_arriveAt_agenda {s : State} {k : BarrierKey} {n : Nat} (h : (s.barrier k).arrived + 1 ≥ (s.barrier k).expected n) :
    Due.barrierRelease k ∈ (s.arriveAt k n).1.agenda := by
  rw [State.arriveAt_eq]
  dsimp only
  rw [if_pos h]
  exact List.mem_append_right _ (List.mem_singleton.2 rfl)

end Sys2Proof.Machine

namespace Sys2Proof.Safety
open Sys2Proof Sys2Proof.Machine

theorem keeps_arriveAt (s : State) (k : BarrierKey) (n : Nat) : Keeps [.barriers, .agenda] s (s.arriveAt k n).1 := by
  have hset : Keeps [.barriers, .agenda] s (s.setBarrier k ((s.barrier k).joined n)) := (keeps_setBarrier s k _).mono (by decide)
  rw [State.arriveAt_eq]
  dsimp only
  split
  · exact hset.trans ((keeps_due _ _).mono (by decide))
  · exact hset

/-- An arrival has been counted in t (R112). -/
def Counts (s t : State) (k : BarrierKey) (n : Nat) : Prop :=
  let b := s.barrier k
  if b.arrived + 1 ≥ b.expected n then
    t.barrier k = { b with phase := b.phase + 1, count := 0, arrived := 0 } ∧ Due.barrierRelease k ∈ t.agenda
  else t.barrier k = { b with count := b.expected n, arrived := b.arrived + 1 }

/-- A state counts an arrival that has the barriers and the agenda of the one after it. -/
theorem counts_of_eq {s t : State} {k : BarrierKey} {n : Nat} (hb : t.barriers = (s.arriveAt k n).1.barriers)
    (ha : t.agenda = (s.arriveAt k n).1.agenda) : Counts s t k n := by
  have hbarrier : t.barrier k = (s.barrier k).joined n := by
    rw [State.barrier, hb]
    exact s.arriveAt_barrier k n
  unfold Counts
  dsimp only
  rw [hbarrier, ha, Barrier.joined]
  split
  next hlast => exact ⟨rfl, State.mem_arriveAt_agenda hlast⟩
  next => rfl

/-- arrive (R113). -/
theorem arrive_spec {s : State} {sc : BitVec 3} {i : BitVec 6} (a d : BitVec 5) (hr : s.hart.region = none)
    (hforeign : s.foreignBarrier sc i.toNat = false) (htiles : s.tilesPending = false) (haccess : s.accessesPending 0xFFFF = false) :
    let k := s.barrierKey sc i.toNat
    ∃ t : State, exec (.arrive sc i a d) s = .next t ∧ Wrote s t d ((BitVec.ofNat 32 (s.barrier k).phase).setWidth 64) ∧
      t.hart.pc = s.hart.pc + 4 ∧ Counts s t k (bits (s.rs a).toNat 31 0) ∧
      Keeps [.scalars, .integrity, .pc, .barriers, .agenda] s t := by
  intro k
  let n := bits (s.rs a).toNat 31 0
  let x : Word := (s.arriveAt k n).2.setWidth 64
  let t := (s.arriveAt k n).1
  have hexec : exec (.arrive sc i a d) s = .next ((t.ws d x).skip 4) := by
    refine (State.outsideRegion_of_none hr _).trans ?_
    rw [hforeign, htiles, haccess]
    rfl
  have hx : x = (BitVec.ofNat 32 (s.barrier k).phase).setWidth 64 := by
    show (s.arriveAt k n).2.setWidth 64 = _
    rw [State.arriveAt_eq]
  have hkeeps : Keeps [.barriers, .agenda] s t := keeps_arriveAt s k n
  have hpc : t.hart.pc = s.hart.pc := hkeeps .pc (by decide)
  refine ⟨_, hexec, ?_, by simp [hpc], counts_of_eq rfl rfl, ?_⟩
  · exact hx ▸ (wrote_ws t d x).of_agree (hkeeps .scalars (by decide)) (hkeeps .integrity (by decide))
  · exact (hkeeps.mono (by decide)).trans (((keeps_ws t d x).mono (by decide)).trans ((keeps_skip _ 4).mono (by decide)))

/-- bar, at its arrival to a phase that has not been released (R113). -/
theorem bar_spec {s : State} {sc : BitVec 3} {i : BitVec 6} (a : BitVec 5) (hr : s.hart.region = none)
    (hforeign : s.foreignBarrier sc i.toNat = false) (htiles : s.tilesPending = false) (haccess : s.accessesPending 0xFFFF = false)
    (hwait : s.hart.barWait = none) :
    let k := s.barrierKey sc i.toNat
    let joined := BitVec.ofNat 32 (s.barrier k).phase
    (s.barrier k).isReleased joined.toNat = false →
    ∃ t : State, exec (.bar sc i a) s = .next t ∧ t.hart.pc = s.hart.pc ∧ t.hart.barWait = some (k, joined) ∧
      Counts s t k (bits (s.rs a).toNat 31 0) ∧ Keeps [.waits, .barriers, .agenda] s t := by
  intro k joined hrel
  let n := bits (s.rs a).toNat 31 0
  let t := (s.arriveAt k n).1
  let u := t.on fun h => { h with barWait := some (k, joined) }
  have hjoined : (s.arriveAt k n).2 = joined := by rw [State.arriveAt_eq]
  have hwaits : (u.barrier k).isReleased joined.toNat = false := by
    rw [show u.barrier k = (s.barrier k).joined n from s.arriveAt_barrier k n, Barrier.joined_isReleased, hrel]
  have hexec : exec (.bar sc i a) s = u.waitFor .barrier := by
    have harrive : exec (.bar sc i a) s =
        (t.on fun h => { h with barWait := some (k, (s.arriveAt k n).2) }).awaitPhase k (s.arriveAt k n).2.toNat := by
      show s.outsideRegion _ = _
      rw [State.outsideRegion_of_none hr, hwait, hforeign, htiles, haccess]
      rfl
    rw [harrive, hjoined]
    exact if_neg (by rw [hwaits]; exact Bool.false_ne_true)
  have hkeeps : Keeps [.barriers, .agenda] s t := keeps_arriveAt s k n
  have hpc : t.hart.pc = s.hart.pc := hkeeps .pc (by decide)
  have hu : Keeps [.waits] t (u.on fun h => { h with wait := some .barrier }) := by
    intro q hq
    cases q <;> simp [u, Agree, SameRegisters] at hq ⊢
  have hcounts := counts_of_eq (n := n) (t := u.on fun h => { h with wait := some .barrier })
    ((State.on_barriers u _).trans (State.on_barriers t _)) ((State.on_agenda u _).trans (State.on_agenda t _))
  exact ⟨_, hexec, hpc, rfl, hcounts, (hkeeps.mono (by decide)).trans (hu.mono (by decide))⟩

/-- A wait for a phase that has been released is over (R113). -/
theorem awaitPhase_released {s : State} {k : BarrierKey} {p : Nat} (h : (s.barrier k).isReleased p = true) :
    ∃ t : State, s.awaitPhase k p = .next t ∧ t.hart.pc = s.hart.pc + 4 ∧ t.hart.barWait = none ∧ Keeps [.pc, .waits] s t := by
  refine ⟨_, if_pos h, by simp, by simp, fun q hq => ?_⟩
  cases q <;> simp [Agree, SameRegisters] at hq ⊢

/-- Settles O16: an arrival is `State.arriveAt`, and what follows it is a register write or a wait for its phase. -/
theorem barriers : Obligations.Barriers := by
  intro s sc i a d hr k b count joined arrived
  have hout := State.outsideRegion_of_none hr
  refine ⟨fun hforeign htiles haccess =>
    ⟨arrive_spec a d hr hforeign htiles haccess, bar_spec a hr hforeign htiles haccess⟩,
    fun k p hwait hrel => ?_, fun hforeign hrel => ?_⟩
  · obtain ⟨t, ht, hpc, hnone, hkeeps⟩ := awaitPhase_released hrel
    refine ⟨t, (hout _).trans ?_, hpc, hnone, hkeeps⟩
    rw [hwait]
    exact ht
  · obtain ⟨t, ht, hpc, -, hkeeps⟩ := awaitPhase_released hrel
    refine ⟨t, (hout _).trans ?_, hpc, hkeeps⟩
    rw [hforeign]
    exact ht

end Sys2Proof.Safety

/-! The shuttle ring, marks and yield (R115, R116, R118). -/

namespace Sys2Proof.Safety
open Sys2Proof Sys2Proof.Machine

/-- What every step of a fold leaves alone, the fold does. -/
theorem Keeps.foldl {α : Type} {l : List Part} {f : State → α → State} (hf : ∀ t a, Keeps l t (f t a)) (as : List α) (s : State) :
    Keeps l s (as.foldl f s) := by
  induction as generalizing s with
  | nil => exact Keeps.refl l s
  | cons a as ih => exact (hf s a).trans (ih _)

/-- What both branches of a choice leave alone, the choice does. -/
theorem Keeps.ite {l : List Part} {s t u : State} {p : Prop} [Decidable p] (ht : Keeps l s t) (hu : Keeps l s u) :
    Keeps l s (if p then t else u) := by
  split
  · exact ht
  · exact hu

theorem keeps_observers (s : State) (d ch : Nat) : Keeps [.agenda] s (s.observers d ch) :=
  Keeps.foldl (fun t _ => Keeps.ite (Keeps.refl _ t) (keeps_due t _)) _ s

theorem toNat_ite_lt (x y : Word) : (if x < y then y else x).toNat = max x.toNat y.toNat := by
  have hlt : max x.toNat y.toNat < 2 ^ 64 := max_lt x.isLt y.isLt
  rw [ite_lt_eq_max, BitVec.toNat_ofNat, Nat.mod_eq_of_lt hlt]

/-- ipost, once its accesses are performed (R115). -/
theorem ipost_spec {s : State} (hs : Canonical s) {h l : BitVec 4} {ch : BitVec 3} (a : BitVec 5) (hr : s.hart.region = none) :
    let c := 8 * die s.hart.id + ch.toNat
    (s.channel c).ctx = some s.hart.ctx → s.tilesPending = false → s.accessesPending (classRange l.toNat h.toNat) = false →
    ∃ t : State, exec (.ipost h l ch a) s = .next t ∧ t.hart.pc = s.hart.pc + 4 ∧
      (t.channel c).value.toNat = max (s.channel c).value.toNat (s.rs a).toNat ∧
      (∀ c', c' ≠ c → t.channel c' = s.channel c') ∧ Keeps [.pc, .barriers, .agenda] s t := by
  intro c hctx htiles haccess
  obtain ⟨-, -, -, -, -, -, -, hsh, -⟩ := hs
  let x := s.rs a
  let f := fun (k : Channel) => { k with value := if k.value < x then x else k.value, posts := raisePost k.posts s.hart.id x }
  let u := (s.onChannel c f).observers (die s.hart.id) ch.toNat
  have hexec : exec (.ipost h l ch a) s = .next (u.skip 4) := by
    show s.outsideRegion _ = _
    rw [State.outsideRegion_of_none hr, htiles, haccess]
    exact if_neg (not_not.2 hctx)
  have hchannel (n : Nat) : (u.skip 4).channel n = if n = c then f (s.channel c) else s.channel n := by
    have hshuttle : (u.skip 4).shuttle = (s.onChannel c f).shuttle := (keeps_observers _ _ _ .barriers (by decide)).2
    rw [State.channel, hshuttle]
    exact State.channel_onChannel hsh c f n
  have hkeeps : Keeps [.barriers, .agenda] s u :=
    ((keeps_onChannel s c f).mono (by decide)).trans ((keeps_observers _ _ _).mono (by decide))
  have hpc : u.hart.pc = s.hart.pc := hkeeps .pc (by decide)
  refine ⟨_, hexec, by simp [hpc], ?_, fun c' hc => (hchannel c').trans (if_neg hc),
    (hkeeps.mono (by decide)).trans ((keeps_skip u 4).mono (by decide))⟩
  rw [hchannel, if_pos rfl]
  exact toNat_ite_lt _ _

theorem keeps_onAdv (s : State) (f : Advice → Advice) : Keeps [.advice] s (s.onAdv f) := by
  intro p hp
  cases p <;> simp [Agree, SameRegisters, State.onAdv] at hp ⊢

theorem sameCtxs_adviceTurn (s : State) : s.SameCtxs Ctx.trcBase s.adviceTurn :=
  .of_eq (show (s.adviceAgain _).ctxs = s.ctxs from ite_keeps State.ctxs rfl rfl)

/-- A mark event changes the hart's advice context, and counts where its queue overflows (R287). -/
theorem markEvent_spec (s : State) (k : BitVec 12) :
    Keeps [.advice, .agenda, .contexts] s (s.markEvent k) ∧ s.SameCtxs Ctx.trcBase (s.markEvent k) := by
  have hadv (t : State) (f : Advice → Advice) :
      Keeps [.advice, .agenda, .contexts] t (t.onAdv f) ∧ t.SameCtxs Ctx.trcBase (t.onAdv f) :=
    ⟨(keeps_onAdv t f).mono (by decide), .of_eq rfl⟩
  have hturn (t : State) (f : Advice → Advice) :
      Keeps [.advice, .agenda, .contexts] t (t.onAdv f).adviceTurn ∧ t.SameCtxs Ctx.trcBase (t.onAdv f).adviceTurn :=
    ⟨(hadv t f).1.trans ((keeps_adviceAgain _ _).mono (by decide)), (hadv t f).2.trans (sameCtxs_adviceTurn _)⟩
  unfold State.markEvent
  split
  · exact ⟨Keeps.refl _ s, .of_eq rfl⟩
  · extract_lets u
    have hu : Keeps [.advice, .agenda, .contexts] s u ∧ s.SameCtxs Ctx.trcBase u := by
      unfold u
      split
      · exact hadv s _
      · exact ⟨(hadv s _).1.trans ((keeps_onCtx _ _ _).mono (by decide)), (hadv s _).2.trans (.onCtx _ _ fun _ => rfl)⟩
    split
    · exact ⟨hu.1.trans (hturn u _).1, hu.2.trans (hturn u _).2⟩
    · split
      · exact ⟨hu.1.trans (hturn u _).1, hu.2.trans (hturn u _).2⟩
      · exact hu
    · exact hu

/-- The mark register set, with what that starts (R116). -/
theorem setMark_spec {s : State} (hctxs : Sparse.wf (fun _ => Ctx.none) s.ctxs = true) (k : BitVec 12) :
    (s.setMark k).hart.mark = 1#1 ++ k ∧ (Untraced s → (s.setMark k).mem = s.mem) ∧
      Keeps (.mark :: .advice :: .agenda :: traceEffects) s (s.setMark k) := by
  let u := s.on fun h => { h with mark := 1#1 ++ k }
  have hu : Keeps [.mark] s u := by
    intro p hp
    cases p <;> simp [u, Agree, SameRegisters] at hp ⊢
  obtain ⟨hevent, hsame⟩ := markEvent_spec u k
  have htrace := keeps_trace (u.markEvent k) u.hart 3 u.hart.pc.toNat k.toNat 0
  have hmark : (s.setMark k).hart.mark = u.hart.mark :=
    (hevent .mark (by decide)).trans (htrace .mark (by decide))
  refine ⟨hmark, fun hun => ?_, (hu.mono (by decide)).trans ((hevent.mono (by decide)).trans (htrace.mono (by decide)))⟩
  have hquiet : Untraced (u.markEvent k) := fun c => ((hsame hctxs).2 c).trans (hun c)
  have hmem : (u.markEvent k).mem = u.mem := (hevent .memory (by decide)).1
  exact (congrArg State.mem (State.trace_of_untraced hquiet _ _ _ _ _)).trans hmem

/-- The mark forms, of either size (R105, R116). -/
theorem mark_spec {i : Instr} {s : State} {n : Nat} {k : BitVec 12} (hctxs : Sparse.wf (fun _ => Ctx.none) s.ctxs = true)
    (h : exec i s = .next ((s.setMark k).skip n)) :
    ∃ t : State, exec i s = .next t ∧ t.hart.pc = s.hart.pc + BitVec.ofNat 48 n ∧ t.hart.mark = 1#1 ++ k ∧
      (Untraced s → t.mem = s.mem) ∧ Keeps (.pc :: .mark :: .advice :: .agenda :: traceEffects) s t := by
  obtain ⟨hmark, hmem, hkeeps⟩ := setMark_spec hctxs k
  have hpc : (s.setMark k).hart.pc = s.hart.pc := hkeeps .pc (by decide)
  exact ⟨_, h, congrArg (· + BitVec.ofNat 48 n) hpc, hmark, hmem,
    (hkeeps.mono (List.subset_cons_self _ _)).trans ((keeps_skip _ n).mono (by simp))⟩

theorem yield_spec {s : State} (n : BitVec 8) (hr : s.hart.region = none) :
    ∃ t : State, exec (.yield n) s = .next t ∧ t.hart.pc = s.hart.pc + 4 ∧
          t.hart.yielded.toNat = max n.toNat 1 + 1 ∧ Keeps [.pc, .waits, .scheduling] s t := by
  have hlt : max n.toNat 1 + 1 < 2 ^ 9 := by
    have := n.isLt
    omega
  let t := (s.on fun h => { h with yielded := BitVec.ofNat 9 (max n.toNat 1 + 1), urgent := false, passed := 0 }).skip 4
  have hyielded : t.hart.yielded = BitVec.ofNat 9 (max n.toNat 1 + 1) := by simp [t]
  refine ⟨t, State.outsideRegion_of_none hr _, by simp [t], ?_, fun p hp => ?_⟩
  · rw [hyielded, BitVec.toNat_ofNat, Nat.mod_eq_of_lt hlt]
  · cases p <;> simp [t, Agree, SameRegisters] at hp ⊢

/-- Settles O17: each form by the lemma of its name. -/
theorem postMarkYield : Obligations.PostMarkYield := by
  intro s h l ch a k k' n hs c
  have hcanonical := hs
  obtain ⟨-, -, -, -, -, -, -, -, hctxs, -⟩ := hs
  exact ⟨fun hr => ipost_spec hcanonical a hr, mark_spec hctxs rfl, mark_spec hctxs rfl, yield_spec n⟩

end Sys2Proof.Safety

/-! Waits, fences and hints (R109, R110, R115, R278). -/

namespace Sys2Proof.Machine

/-- A stream copy has source reads still to come, in the class set B or in class 15 (R110). -/
def Copy.readsIn (c : Copy) (B : Nat) : Prop := c.kind = 0 ∧ c.got < c.n.toNat ∧ (B.testBit c.cls.toNat = true ∨ c.cls = 15)

theorem Hart.mem_streamReads {h : Hart} {B n : Nat} :
    n ∈ h.streamReads B ↔ ∃ c, some c ∈ h.copy.toList ∧ c.readsIn B ∧ c.order = n := by
  unfold Hart.streamReads Copy.readsIn
  rw [List.mem_filterMap]
  constructor
  · rintro ⟨_ | c, hc, hn⟩
    · cases hn
    · dsimp only at hn
      split at hn
      next hr => exact ⟨c, hc, hr, Option.some.inj hn⟩
      next => cases hn
  · rintro ⟨c, hc, hr, hn⟩
    exact ⟨some c, hc, (if_pos hr).trans (congrArg some hn)⟩

/-- The gates after a fence.c: those of copies that the hart still holds, and one for each of the reads that it puts first. -/
theorem Hart.mem_gates_gate {h : Hart} {B A : Nat} {g : Nat × BitVec 16} : g ∈ (h.gate B A).gates ↔
    (g ∈ h.gates ∧ ∃ c, some c ∈ h.copy.toList ∧ c.order = g.1) ∨
      g.2 = BitVec.ofNat 16 (A ||| 2 ^ 15) ∧ ∃ c, some c ∈ h.copy.toList ∧ c.readsIn B ∧ c.order = g.1 := by
  have hheld : (h.copy.toList.any fun c => match c with
      | some c => decide (c.order = g.1)
      | none => false) = true ↔ ∃ c, some c ∈ h.copy.toList ∧ c.order = g.1 := by
    rw [List.any_eq_true]
    constructor
    · rintro ⟨_ | c, hc, he⟩
      · cases he
      · exact ⟨c, hc, of_decide_eq_true he⟩
    · rintro ⟨c, hc, he⟩
      exact ⟨some c, hc, decide_eq_true he⟩
  have hnew : (g ∈ (h.streamReads B).map fun n => (n, BitVec.ofNat 16 (A ||| 2 ^ 15))) ↔
      g.2 = BitVec.ofNat 16 (A ||| 2 ^ 15) ∧ ∃ c, some c ∈ h.copy.toList ∧ c.readsIn B ∧ c.order = g.1 := by
    rw [List.mem_map, ← Hart.mem_streamReads]
    constructor
    · rintro ⟨n, hn, rfl⟩
      exact ⟨rfl, hn⟩
    · rintro ⟨he, hn⟩
      exact ⟨g.1, hn, Prod.ext rfl he.symm⟩
  exact List.mem_append.trans (or_congr (List.mem_filter.trans (and_congr_right fun _ => hheld)) hnew)

end Sys2Proof.Machine

namespace Sys2Proof.Safety
open Sys2Proof Sys2Proof.Machine

theorem goes_of_done {i : Instr} {s : State} (h : exec i s = s.done) : Goes i s (s.hart.pc + 4) :=
  ⟨s.skip 4, h, rfl, keeps_skip s 4⟩

/-- fence.c once no access of its first set is to come but the reads of stream copies (R110). -/
theorem fence_spec {i : Instr} {s : State} {B A : Nat} (hr : s.hart.region = none) (hi : exec i s = s.fence B A)
    (htiles : s.tilesPending = false ∨ B = 0) (haccess : s.accessesPending B = false) :
    ∃ t : State, exec i s = .next t ∧ t.hart.pc = s.hart.pc + 4 ∧ t.hart.fenced = s.hart.fenced ∧
      (∀ c, some c ∈ s.hart.copy.toList →
        (c.kind = 0 → c.got < c.n.toNat → B.testBit c.cls.toNat = true ∨ c.cls = 15 →
          (c.order, BitVec.ofNat 16 (A ||| 2 ^ 15)) ∈ t.hart.gates) ∧
        ∀ g ∈ s.hart.gates, g.1 = c.order → g ∈ t.hart.gates) ∧
      (∀ g ∈ t.hart.gates, g ∈ s.hart.gates ∨ g.2 = BitVec.ofNat 16 (A ||| 2 ^ 15) ∧ ∃ c, some c ∈ s.hart.copy.toList ∧
        c.order = g.1 ∧ c.kind = 0 ∧ c.got < c.n.toNat ∧ (B.testBit c.cls.toNat = true ∨ c.cls = 15)) ∧
      Keeps [.pc, .fence] s t := by
  have htiles' : ¬ (s.tilesPending && B != 0) = true := by
    rcases htiles with h | h
    · simp [h]
    · simp [h]
  have hexec : exec i s = .next ((s.on fun h => h.gate B A).skip 4) := by
    rw [hi, State.fence, State.outsideRegion_of_none hr, if_neg htiles', haccess]
    rfl
  have hkeeps : Keeps [.pc, .fence] s ((s.on fun h => h.gate B A).skip 4) := by
    intro p hp
    cases p <;> simp [Agree, SameRegisters, Hart.gate] at hp ⊢
  refine ⟨_, hexec, rfl, rfl, fun c hc => ⟨fun hk hgot hcls => ?_, fun g hg ho => ?_⟩, fun g hg => ?_, hkeeps⟩
  · exact Hart.mem_gates_gate.2 (.inr ⟨rfl, c, hc, ⟨hk, hgot, hcls⟩, rfl⟩)
  · exact Hart.mem_gates_gate.2 (.inl ⟨hg, c, hc, ho.symm⟩)
  · rcases Hart.mem_gates_gate.1 hg with ⟨hold, -⟩ | ⟨he, c, hc, ⟨hk, hgot, hcls⟩, ho⟩
    · exact .inl hold
    · exact .inr ⟨he, c, hc, ho, hk, hgot, hcls⟩

theorem waitc_spec {s : State} {t4 c4 s4 l4 : BitVec 4} (hr : s.hart.region = none) (hlost : s.hart.lost = [])
    (hl : s.hart.cnt.ld ≤ l4.setWidth 6) (hs : s.hart.cnt.st ≤ s4.setWidth 6) (hc : s.hart.cnt.cp ≤ c4.setWidth 6)
    (ht : s.hart.cnt.tl ≤ t4.setWidth 6) : Goes (.waitc t4 c4 s4 l4) s (s.hart.pc + 4) := by
  have hle {x : BitVec 6} {y : BitVec 4} (h : x ≤ y.setWidth 6) : x.toNat ≤ y.toNat := by
    have h6 : x.toNat ≤ (y.setWidth 6).toNat := h
    rwa [BitVec.toNat_setWidth_of_le (by decide)] at h6
  refine goes_of_done ((State.outsideRegion_of_none hr _).trans ?_)
  rw [hlost, if_neg (by decide), if_pos ⟨hle hl, hle hs, hle hc, hle ht⟩]

theorem iwait_spec {s : State} (h l : BitVec 4) {ch : BitVec 3} {a : BitVec 5} (hr : s.hart.region = none) :
    let c := 8 * die s.hart.id + ch.toNat
    (s.channel c).ctx = some s.hart.ctx →
    (s.rs a).toNat ≤ (Sparse.get (fun _ => 0) (s.channel c).seen (ringPosition s.hart.id)).toNat →
    Goes (.iwait h l ch a) s (s.hart.pc + 4) := fun hctx hseen =>
  goes_of_done ((State.outsideRegion_of_none hr _).trans ((if_neg (not_not.2 hctx)).trans (if_pos hseen)))

theorem tlbsync_spec {s : State} {a : BitVec 5} (hr : s.hart.region = none) (hp : privileged s.hart.ctx = true)
    (hold : s.olderPending ((s.rs a).setWidth 12) = false) : Goes (.tlbsync a) s (s.hart.pc + 4) := by
  refine goes_of_done ((State.outsideRegion_of_none hr _).trans ?_)
  rw [hp, hold]
  rfl

end Sys2Proof.Safety

/-! What a fill of a code cache leaves alone (R180). -/

namespace Sys2Proof.Machine
open Safety (Agree Keeps SameRegisters traceEffects)

/-- Where a value other than the default is set, it is read, whatever the table. -/
theorem Sparse.get_set_of_ne {α : Type} [DecidableEq α] {dflt : Nat → α} {k : Nat} {v : α} (hv : v ≠ dflt k) (l : Sparse α) :
    Sparse.get dflt (Sparse.set dflt l k v) k = v := by
  induction l with
  | nil => simp [Sparse.set, Sparse.get, hv]
  | cons p rest ih =>
    obtain ⟨j, u⟩ := p
    unfold Sparse.set
    rw [if_neg hv, if_neg hv]
    split
    · exact if_pos rfl
    · split
      · exact if_pos rfl
      next hne => simpa [Sparse.get, hne] using ih

/-- Context c has locked lines of code and records no trace. -/
def State.LocksUntraced (c : BitVec 12) (s : State) : Prop := (s.ctx c).locks ≠ [] ∧ (s.ctx c).trcBase = 0

namespace State.LocksUntraced

variable {c : BitVec 12} {s : State}

/-- A change of a context's other fields. Context c, which has locks, stays in the table, so the table need not be canonical. -/
theorem onCtx (h : s.LocksUntraced c) (k : BitVec 12) {f : Ctx → Ctx} (hf : ∀ x, (f x).locks = x.locks ∧ (f x).trcBase = x.trcBase) :
    (s.onCtx k f).LocksUntraced c := by
  obtain ⟨hlocks, hbase⟩ := h
  by_cases hk : c = k
  · subst hk
    obtain ⟨hflocks, hfbase⟩ := hf (s.ctx c)
    have hne : f (s.ctx c) ≠ Ctx.none := fun e => hlocks (hflocks.symm.trans (congrArg Ctx.locks e))
    have hctx : (s.onCtx c f).ctx c = f (s.ctx c) := Sparse.get_set_of_ne (dflt := fun _ => Ctx.none) hne s.ctxs
    exact ⟨by rwa [hctx, hflocks], by rwa [hctx, hfbase]⟩
  · have hctx : (s.onCtx k f).ctx c = s.ctx c := Sparse.get_set_other s.ctxs _ fun e => hk (BitVec.eq_of_toNat_eq e)
    exact ⟨by rwa [hctx], by rwa [hctx]⟩

theorem onPkg (h : s.LocksUntraced c) (f : Pkg → Pkg) : (s.onPkg f).LocksUntraced c := h

theorem count (h : s.LocksUntraced c) (k : BitVec 12) (n i m : Nat) : (s.count k n i m).LocksUntraced c :=
  h.onCtx k fun _ => ⟨rfl, rfl⟩

theorem ite {p : Prop} [Decidable p] {t : State} (hs : s.LocksUntraced c) (ht : t.LocksUntraced c) :
    (if p then s else t).LocksUntraced c := by
  split
  · exact hs
  · exact ht

theorem foldl {α : Type} {f : State → α → State} (hf : ∀ t a, LocksUntraced c t → LocksUntraced c (f t a)) (l : List α)
    (h : s.LocksUntraced c) : (l.foldl f s).LocksUntraced c := by
  induction l generalizing s with
  | nil => exact h
  | cons a l ih => exact ih (hf s a h)

theorem dropTileLine (h : s.LocksUntraced c) (l : TileLine) : (s.dropTileLine l).LocksUntraced c :=
  .ite ((h.onPkg _).onCtx _ fun _ => ⟨rfl, rfl⟩) (h.onPkg _)

theorem tileRoom (h : s.LocksUntraced c) (d : Nat) : (s.tileRoom d).LocksUntraced c := by
  unfold State.tileRoom
  refine .ite h ?_
  dsimp only
  split
  · exact dropTileLine (s := s.fresh) h _
  · exact h

theorem fileLine (h : s.LocksUntraced c) (t : Tile) (l : Nat) (a : Bool) : (s.fileLine t l a).LocksUntraced c :=
  .ite (.ite (h.count _ _ _ _) h) (((h.tileRoom _).onPkg _).count _ _ _ _)

theorem writeBack (h : s.LocksUntraced c) (l : Nat) (t : Option Tile) : (s.writeBack l t).LocksUntraced c := by
  unfold State.writeBack
  refine .ite h ?_
  split
  · exact .ite (h.tileRoom _) h
  · exact h

theorem useSlices (h : s.LocksUntraced c) (k : Option (BitVec 12)) (ks : List Nat) : (s.useSlices k ks).LocksUntraced c := by
  refine foldl (fun t i ht => ?_) ks h
  extract_lets t1 t2
  have h2 : t2.LocksUntraced c := (ht.onPkg _).onPkg _
  refine .ite (ht.onPkg _) ?_
  split
  · exact h2.count _ _ _ _
  · exact h2

theorem leaveL2 (h : s.LocksUntraced c) (die : Nat) (d : DirLine) : (s.leaveL2 die d).LocksUntraced c :=
  .ite (writeBack (s := s.setDir _) h _ _) h

theorem l2Room (h : s.LocksUntraced c) (d l : Nat) : (s.l2Room d l).LocksUntraced c := by
  unfold State.l2Room
  refine .ite h ?_
  dsimp only
  split
  · exact leaveL2 (s := s.fresh) h _ _
  · exact .ite h (h.leaveL2 _ _)

theorem atSlices (h : s.LocksUntraced c) (a : Accessor) (va : Nat) (d : DirLine) (m : Met) :
    (s.atSlices a va d m).LocksUntraced c := by
  unfold State.atSlices
  extract_lets t ks s1 s2
  have h1 : s1.LocksUntraced c := h.useSlices _ _
  have h2 : s2.LocksUntraced c := .ite (h1.l2Room _ _) h1
  clear_value t
  split
  · exact .ite (h2.fileLine _ _ _) h2
  · exact h2

theorem fillL1 (h : s.LocksUntraced c) (k l : Nat) (r : Option (AgentId × Nat)) : (s.fillL1 k l r).LocksUntraced c := by
  unfold State.fillL1
  refine .ite h ?_
  dsimp only
  split
  · exact h
  · exact h

theorem readLine (h : s.LocksUntraced c) (a : Accessor) (va l m : Nat) (r : Option (AgentId × Nat)) :
    (s.readLine a va l m r).1.LocksUntraced c := by
  unfold State.readLine
  dsimp only
  split
  · exact h
  · split
    · exact h
    · have hs := h.atSlices a va ((s.dirLine l).read a.die).1 ((s.dirLine l).read a.die).2
      dsimp only
      split
      · exact .ite (hs.fillL1 _ _ _) hs
      · exact hs

/-- Where the context records no trace, no record is written (R317). -/
theorem trace_eq {h : Hart} (hs : s.LocksUntraced h.ctx) (k loc d0 d1 : Nat) : s.trace h k loc d0 d1 = s := by
  unfold State.trace
  simp only [hs.2, decide_true, Bool.true_or, if_true]

end State.LocksUntraced

/-! Trace records and the caches of cores. -/

theorem State.Cached.coreCode {s t : State} (h : s.Cached t) : t.pkg.coreCode = s.pkg.coreCode :=
  show t.pkg.uncached.coreCode = s.pkg.uncached.coreCode from congrArg Pkg.coreCode h.pkg

theorem State.writeNow_coreCode (s : State) (pa : Nat) (bs : List Byte) : (s.writeNow pa bs).pkg.coreCode = s.pkg.coreCode := by
  let g := fun (t : State) => t.pkg.coreCode
  unfold State.writeNow
  extract_lets s1 s2 s3
  have h1 : g s1 = g s := ite_keeps g rfl rfl
  have hmem (bytes : List (Nat × Byte)) : g (s1.setMem bytes) = g s1 := show g (s1.noteCode bytes) = _ from ite_keeps g rfl rfl
  have h2 : g s2 = g s := ((State.deviceLine_cached _ _ _).coreCode.trans (hmem _)).trans h1
  have h3 : g s3 = g s := ite_keeps g h2 h2
  exact ite_keeps g h3 h3

theorem State.deviceWrite_coreCode (s : State) (pa : Nat) (bs : List Byte) : (s.deviceWrite pa bs).pkg.coreCode = s.pkg.coreCode :=
  ite_keeps (fun t => t.pkg.coreCode) rfl
    (ite_keeps (fun t => t.pkg.coreCode) (State.writeNow_coreCode s pa bs) (State.writeNow_coreCode s pa bs))

theorem State.writeIn_coreCode {s t : State} {c : BitVec 12} {va : Nat} {bs : List Byte} {l : Late} (h : s.writeIn c va bs l = some t) :
    t.pkg.coreCode = s.pkg.coreCode := by
  unfold State.writeIn at h
  split at h
  · split at h
    · cases h
      exact (State.deviceWrite_coreCode _ _ _).trans (State.noteWalk_cached _ _ _).coreCode
    · cases h
  · cases h
    rfl
  · cases h

theorem State.putRecord_coreCode (s : State) (c : BitVec 12) (bs : List Byte) : (s.putRecord c bs).1.pkg.coreCode = s.pkg.coreCode := by
  unfold State.putRecord
  extract_lets x size
  split
  · rfl
  · split
    · rfl
    · split
      · exact (State.noteWalk_cached _ _ _).coreCode
      next u hu => exact (State.writeIn_coreCode hu :)

theorem State.trace_coreCode (s : State) (h : Hart) (k loc d0 d1 : Nat) : (s.trace h k loc d0 d1).pkg.coreCode = s.pkg.coreCode := by
  unfold State.trace
  dsimp only
  split
  · rfl
  · split
    · split
      · exact (State.putRecord_coreCode _ _ _).trans (State.putRecord_coreCode _ _ _)
      · exact State.putRecord_coreCode _ _ _
    · split
      · exact State.putRecord_coreCode _ _ _
      · rfl

theorem State.Recorded.lineBuffer {s t : State} (h : s.Recorded t) : t.hart.lineBuffer = s.hart.lineBuffer := by
  have hharts := congrArg Prod.fst h.steady
  have hhart := (List.cons.inj hharts).1
  exact (congrArg Hart.lineBuffer hhart :)

end Sys2Proof.Machine

namespace Sys2Proof.Safety
open Sys2Proof Sys2Proof.Machine

/-- What the device writes and reads of its own accord changes the parts that a trace record does. -/
theorem keeps_recorded {s t : State} (ht : s.Traffic t) (hr : s.Recorded t) (hframe : t.frame = s.frame) :
    Keeps traceEffects s t := by
  have hstill := ht.still
  have hsteady := hr.steady
  simp only [State.still, Prod.mk.injEq] at hstill
  simp only [State.steady, State.harts, List.map_cons, Prod.mk.injEq, List.cons.injEq, Hart.mk.injEq] at hsteady
  simp only [State.frame, Prod.mk.injEq] at hframe
  intro p hp
  cases p
  case package => exact ht.pkg
  all_goals simp [traceEffects] at hp
  all_goals simp [Agree, hstill, hsteady, hframe]

theorem keeps_dropCode (s : State) (q l : Nat) : Keeps [.others, .caches] s (s.dropCode q l) := by
  intro p hp
  unfold State.dropCode
  by_cases hq : s.hart.id.quad = q
  · cases p <;> simp [Agree, SameRegisters, hq] at hp ⊢
  · cases p <;> simp [Agree, SameRegisters, hq] at hp ⊢

theorem keeps_fresh (s : State) : Keeps [.free] s s.fresh := by
  intro p hp
  cases p <;> simp [Agree, SameRegisters, State.fresh] at hp ⊢

end Sys2Proof.Safety

namespace Sys2Proof.Machine
open Safety (Agree Keeps SameRegisters traceEffects)

/-- What the fills and evictions of the code caches do from s to t at most: no code line comes into a line buffer or an L1I, and
where context c records no trace while it has locks, they write no memory. -/
structure State.CodeMoved (c : BitVec 12) (s t : State) : Prop where
  keeps : Keeps traceEffects s t
  lineBuffer : s.hart.lineBuffer = [] → t.hart.lineBuffer = []
  coreCode : t.pkg.coreCode ⊆ s.pkg.coreCode
  untraced : s.LocksUntraced c → t.LocksUntraced c ∧ t.mem = s.mem

namespace State.CodeMoved

variable {c : BitVec 12} {s t u : State}

theorem refl (s : State) : s.CodeMoved c s := ⟨.refl _ s, id, fun _ => id, fun h => ⟨h, rfl⟩⟩

theorem trans (h : s.CodeMoved c t) (k : t.CodeMoved c u) : s.CodeMoved c u where
  keeps := h.keeps.trans k.keeps
  lineBuffer hs := k.lineBuffer (h.lineBuffer hs)
  coreCode _ he := h.coreCode (k.coreCode he)
  untraced hs :=
    have ⟨ht, hmem⟩ := h.untraced hs
    have ⟨hu, kmem⟩ := k.untraced ht
    ⟨hu, kmem.trans hmem⟩

theorem ite {p : Prop} [Decidable p] (ht : s.CodeMoved c t) (hu : s.CodeMoved c u) : s.CodeMoved c (if p then t else u) := by
  split
  · exact ht
  · exact hu

/-- The context of the hart that moves. -/
theorem ctx (h : s.CodeMoved c t) : t.hart.ctx = s.hart.ctx := by
  obtain ⟨-, -, -, -, -, hctx, -⟩ := h.keeps .task (by decide)
  exact hctx

theorem foldl {α : Type} {f : State → α → State} (hf : ∀ (t : State) (a : α), s.CodeMoved c t → t.CodeMoved c (f t a))
    (l : List α) :
    s.CodeMoved c (l.foldl f s) :=
  List.foldlRecOn l f (refl s) fun t ht a _ => ht.trans (hf t a ht)

theorem fresh (s : State) : s.CodeMoved c s.fresh :=
  ⟨(Safety.keeps_fresh s).mono (by decide), id, fun _ => id, fun h => ⟨h, rfl⟩⟩

theorem count (s : State) (k : BitVec 12) (n i m : Nat) : s.CodeMoved c (s.count k n i m) :=
  ⟨(Safety.keeps_onCtx s k _).mono (by decide), id, fun _ => id, fun h => ⟨h.count k n i m, rfl⟩⟩

theorem fileCode (s : State) (e : Nat × Nat) : s.CodeMoved c (s.onPkg fun p => { p with quadCode := p.quadCode ++ [e] }) where
  keeps := (Safety.keeps_caches s (fun p => { p with quadCode := p.quadCode ++ [e] }) rfl rfl ⟨rfl, rfl, rfl, rfl⟩).mono (by decide)
  lineBuffer := id
  coreCode _ := id
  untraced h := ⟨h, rfl⟩

theorem readLine (s : State) (a : Accessor) (va l m : Nat) (r : Option (AgentId × Nat)) :
    s.CodeMoved c (s.readLine a va l m r).1 :=
  have h := State.readLine_cached s a va l m r
  { keeps := Safety.keeps_recorded (State.readLine_traffic s a va l m r) h.recorded (State.readLine_frame s a va l m r)
    lineBuffer := fun hs => h.recorded.lineBuffer.trans hs
    coreCode := fun _ he => h.coreCode ▸ he
    untraced := fun hs => ⟨hs.readLine a va l m r, show State.mem (State.uncached _) = s.uncached.mem from congrArg State.mem h.state⟩ }

theorem slog (s : State) (h : Hart) (e va ev sl : Nat) : s.CodeMoved h.ctx (s.slog h e va ev sl) :=
  ite { keeps := Safety.keeps_trace s h _ _ _ _
        lineBuffer := fun hs => (State.trace_recorded s h _ _ _ _).lineBuffer.trans hs
        coreCode := fun _ he => State.trace_coreCode s h _ _ _ _ ▸ he
        untraced := fun hs => (hs.trace_eq _ _ _ _).symm ▸ ⟨hs, rfl⟩ } (refl s)

theorem logMet (s t : State) (h : Hart) (e va l : Nat) (m : Met) : t.CodeMoved h.ctx (s.logMet t h e va l m) := by
  unfold State.logMet
  extract_lets s1 s2 s3
  have h1 : t.CodeMoved h.ctx s1 := ite (slog _ _ _ _ _ _) (refl _)
  have h2 : t.CodeMoved h.ctx s2 := ite h1 (h1.trans (slog _ _ _ _ _ _))
  have h3 : t.CodeMoved h.ctx s3 := ite ((h2.trans (count _ _ _ _ _)).trans (slog _ _ _ _ _ _)) h2
  exact h3.trans (foldl (fun _ _ _ => slog _ _ _ _ _ _) _)

theorem dropCode (s : State) (q l : Nat) : s.CodeMoved c (s.dropCode q l) where
  keeps := (Safety.keeps_dropCode s q l).mono (by decide)
  lineBuffer hs := by
    by_cases hq : s.hart.id.quad = q
    · simp [State.dropCode, hq, hs]
    · simp [State.dropCode, hq, hs]
  coreCode := List.filter_subset_self _
  untraced h := ⟨h, rfl⟩

/-- Some code lines leave the L1Is. -/
theorem filterCoreCode (s : State) (p : Nat × Nat → Bool) :
    s.CodeMoved c (s.onPkg fun k => { k with coreCode := k.coreCode.filter p }) where
  keeps := (Safety.keeps_caches s (fun k => { k with coreCode := k.coreCode.filter p }) rfl rfl ⟨rfl, rfl, rfl, rfl⟩).mono (by decide)
  lineBuffer := id
  coreCode := List.filter_subset_self _
  untraced h := ⟨h, rfl⟩

theorem emptyLineBuffer (s : State) : s.CodeMoved c (s.on fun h => { h with lineBuffer := [] }) where
  keeps p hp := by cases p <;> simp [Agree, SameRegisters, traceEffects] at hp ⊢
  lineBuffer _ := rfl
  coreCode _ := id
  untraced h := ⟨h, rfl⟩

theorem quadCodeRoom (s : State) (q : Nat) : s.CodeMoved c (s.quadCodeRoom q) := by
  unfold State.quadCodeRoom
  refine ite (refl s) ?_
  split
  · exact (fresh s).trans (dropCode _ _ _)
  · exact refl s

theorem fillCode (s : State) (va line : Nat) : s.CodeMoved s.hart.ctx (s.fillCode va line) := by
  unfold State.fillCode
  refine ite (refl s) (((foldl (fun t k _ => ?_) _).trans (quadCodeRoom _ _)).trans (fileCode _ _))
  exact (readLine t _ _ _ _ _).trans (logMet t _ s.hart _ _ _ _)

/-- Lines that are locked come in again (R181). -/
theorem fillLocked (s : State) : s.CodeMoved s.hart.ctx s.fillLocked := by
  unfold State.fillLocked
  refine foldl (fun t l ht => ?_) _
  have hfill (va line : Nat) : t.CodeMoved s.hart.ctx (t.fillCode va line) := ht.ctx ▸ fillCode t va line
  refine ite (refl t) ?_
  split
  · exact hfill _ _
  · exact refl t

end State.CodeMoved

end Sys2Proof.Machine

namespace Sys2Proof.Machine
open Safety (Keeps Untraced traceEffects)

theorem State.dropCode_ctxs_mem (s : State) (q l : Nat) : ((s.dropCode q l).ctxs, (s.dropCode q l).mem) = (s.ctxs, s.mem) := rfl

/-- A FENCE.I empties the hart's caches of code, and then lines that are locked come in again (R181, R278). -/
theorem State.invalidateCode_eq_fillLocked (c : BitVec 12) (s : State) : ∃ u : State, s.invalidateCode = u.fillLocked ∧
    s.CodeMoved c u ∧ (u.ctxs, u.mem) = (s.ctxs, s.mem) ∧ u.hart.lineBuffer = [] ∧
      (s.hart.id.control = false → ∀ l, (globalCore s.hart.id, l) ∉ u.pkg.coreCode) := by
  unfold State.invalidateCode
  extract_lets h mine stays gone s1 s2
  have h1 : s.CodeMoved c s1 := .foldl (fun _ _ _ => .dropCode _ _ _) _
  have h2 : s1.CodeMoved c s2 := .ite (.refl _) (.filterCoreCode _ _)
  have hdrop : (s1.ctxs, s1.mem) = (s.ctxs, s.mem) :=
    foldl_keeps (fun t => (t.ctxs, t.mem)) (fun t l => State.dropCode_ctxs_mem t h.id.quad l) gone s
  have hcode : (s2.ctxs, s2.mem) = (s1.ctxs, s1.mem) := ite_keeps (fun t => (t.ctxs, t.mem)) rfl rfl
  refine ⟨_, rfl, h1.trans (h2.trans (.emptyLineBuffer _)), hcode.trans hdrop, rfl, fun hcontrol l hl => ?_⟩
  have hs2 : s2 = s1.onPkg fun p => { p with coreCode := p.coreCode.filter fun c => decide (c.1 ≠ globalCore h.id) } :=
    if_neg (by simp [h, hcontrol])
  rw [hs2] at hl
  have hne := (List.mem_filter.1 hl).2
  exact of_decide_eq_true hne rfl

/-- What the hart's caches of code hold after its FENCE.I, and what that leaves alone (R278). -/
theorem State.invalidateCode_spec (s : State) : Keeps traceEffects s s.invalidateCode ∧ s.invalidateCode.hart.lineBuffer = [] ∧
    (s.hart.id.control = false → ∀ l, (globalCore s.hart.id, l) ∉ s.invalidateCode.pkg.coreCode) ∧
    (Untraced s → s.invalidateCode.mem = s.mem) := by
  obtain ⟨u, hu, hmoved, hsame, hbuffer, hcore⟩ := s.invalidateCode_eq_fillLocked s.hart.ctx
  obtain ⟨hctxs, hmem⟩ := Prod.mk.inj hsame
  have hfill : u.CodeMoved s.hart.ctx u.fillLocked := hmoved.ctx ▸ .fillLocked u
  have hctx : u.ctx s.hart.ctx = s.ctx s.hart.ctx := by rw [State.ctx, hctxs, State.ctx]
  rw [hu]
  refine ⟨hmoved.keeps.trans hfill.keeps, hfill.lineBuffer hbuffer, fun hcontrol l hl => hcore hcontrol l (hfill.coreCode hl),
    fun hs => ?_⟩
  by_cases hlocks : (s.ctx s.hart.ctx).locks = []
  · have hnone : u.fillLocked = u := by
      rw [State.fillLocked, hmoved.ctx, hctx, hlocks]
      rfl
    rw [hnone, hmem]
  · have huntraced : u.LocksUntraced s.hart.ctx := by
      rw [State.LocksUntraced, hctx]
      exact ⟨hlocks, hs _⟩
    exact (hfill.untraced huntraced).2.trans hmem

end Sys2Proof.Machine

namespace Sys2Proof.Safety
open Sys2Proof Sys2Proof.Machine

/-- fence.i once no access and no transfer of the hart is to come (R75, R278). -/
theorem fenceI_spec {s : State} (hr : s.hart.region = none) (hp : s.transfersPending = false) :
    ∃ t : State, exec .fenceI s = .next t ∧ t.hart.pc = s.hart.pc + 4 ∧
      t.hart.fenced = s.pkg.oldCode.length ∧ t.hart.gates = s.hart.gates ∧ t.hart.lineBuffer = [] ∧
      (s.hart.id.control = false → ∀ l, (globalCore s.hart.id, l) ∉ t.pkg.coreCode) ∧ (Untraced s → t.mem = s.mem) ∧
      Keeps (.pc :: .fence :: traceEffects) s t := by
  obtain ⟨hkeeps, hbuffer, hcore, hmem⟩ := s.invalidateCode_spec
  have hexec : exec .fenceI s = .next ((s.invalidateCode.on fun h => { h with fenced := s.pkg.oldCode.length }).skip 4) := by
    refine (State.outsideRegion_of_none hr _).trans ?_
    rw [hp]
    rfl
  generalize s.invalidateCode = u at *
  have hpc : u.hart.pc = s.hart.pc := hkeeps .pc (by decide)
  obtain ⟨-, hgates⟩ := hkeeps .fence (by decide)
  have hfenced : Keeps [.pc, .fence] u ((u.on fun h => { h with fenced := s.pkg.oldCode.length }).skip 4) := by
    intro p hp
    cases p <;> simp [Agree, SameRegisters] at hp ⊢
  exact ⟨_, hexec, congrArg (· + 4) hpc, rfl, hgates, hbuffer, hcore, hmem,
    (hkeeps.mono (by decide)).trans (hfenced.mono (by decide))⟩

/-- Settles O15: each form by the lemma of its name. -/
theorem waitsAndFences : Obligations.WaitsAndFences := by
  intro s t4 c4 s4 l4 w x y z h l sc ch a n hr after fences
  exact ⟨waitc_spec hr, fence_spec hr rfl, fence_spec hr rfl, iwait_spec h l hr, fenceI_spec hr, goes_of_done rfl, tlbsync_spec hr⟩

end Sys2Proof.Safety

/-! The steps of a copy (R39, R128, R154, R155, R313): its source is read, its strips arrive, and it completes. -/

namespace Sys2Proof.Machine
open State (Quiet)

/-! The handles and copies of a hart. -/

theorem getD_setIfInBounds_self {α : Type} {n : Nat} (v : Vector α n) {i : Nat} (hi : i < n) (x y : α) :
    (v.setIfInBounds i x).getD i y = x := by
  simp [Vector.getD, hi]

theorem Hart.handle_getD (h : Hart) (i : BitVec 5) : h.h.getD i.toNat .free = h.h.get i.toFin := by
  simp [Vector.getD, Vector.get, i.isLt]

theorem Hart.handle_set (h : Hart) (i : BitVec 5) (x : HandleState) : (h.h.setIfInBounds i.toNat x).get i.toFin = x := by
  rw [← Hart.handle_getD { h with h := h.h.setIfInBounds i.toNat x }, getD_setIfInBounds_self _ i.isLt]

theorem Hart.copyOf_onCopy {h : Hart} {i : BitVec 5} {c : Copy} (hc : h.copyOf i = some c) (f : Copy → Copy) :
    (h.onCopy i f).copyOf i = some (f c) := by
  rw [Hart.onCopy, Hart.copyOf, getD_setIfInBounds_self _ i.isLt, hc, Option.map_some]

/-- A bare hart keeps its copies. -/
theorem Hart.copyOf_of_bare {h k : Hart} (e : k.bare = h.bare) (i : BitVec 5) : k.copyOf i = h.copyOf i :=
  show k.bare.copyOf i = h.bare.copyOf i from congrArg (Hart.copyOf · i) e

theorem State.Quiet.lstore {s t : State} (q : s.Quiet t) : t.lstore = s.lstore := by
  obtain ⟨-, -, hl, -⟩ : _ ∧ _ ∧ t.lstore = s.lstore ∧ _ := by simpa only [State.frame, Prod.mk.injEq] using q.frame
  exact hl

theorem State.Traffic.slots {s t : State} (k : s.Traffic t) : t.slots = s.slots := by
  have hstill := k.still
  simp only [State.still, Prod.mk.injEq] at hstill
  obtain ⟨-, -, -, -, hslots, -⟩ := hstill
  exact hslots

/-- A hart that is found before accesses of engines is found after them. -/
theorem State.find_of_quiet {s t : State} (q : s.Quiet t) {id : AgentId} {h : Hart} (hf : s.find id = some h) :
    ∃ k, t.find id = some k ∧ k.bare = h.bare := by
  have e := State.find_of_outline q.outline id
  rw [hf, Option.map_some, Option.map_eq_some_iff] at e
  obtain ⟨k, hk, e⟩ := e
  exact ⟨k, hk, congrArg Prod.fst e⟩

theorem State.find_onCopyOf {s : State} {id : AgentId} {h : Hart} (hf : s.find id = some h) (i : BitVec 5) (f : Copy → Copy) :
    (s.onCopyOf id i f).find id = some (h.onCopy i f) := by
  rw [State.onCopyOf, State.find_update s id (f := fun h => h.onCopy i f) fun _ => rfl, hf, Option.map_some]

/-- A hart whose handle has entered a state. -/
def Hart.withHandle (i : BitVec 5) (x : HandleState) (h : Hart) : Hart := { h with h := h.h.setIfInBounds i.toNat x }

theorem State.find_withHandle {s : State} {id : AgentId} {h : Hart} (hf : s.find id = some h) (i : BitVec 5) (x : HandleState) :
    (s.update id (Hart.withHandle i x)).find id = some (h.withHandle i x) := by
  rw [State.find_update s id (f := Hart.withHandle i x) fun _ => rfl, hf, Option.map_some]

/-! Elements of the source. -/

/-- The value of a source element: what memory holds at its translation (R154). -/
def State.sourceValue (s : State) (c : Copy) (e : Nat) : Nat := ofBytes (s.mem.bytes (heldBytes c.pages (c.srcAddr e) c.unit))

/-- Reading elements of a source is quiet. -/
theorem State.readElements_quiet (s : State) (a : Accessor) (c : Copy) (first k : Nat) : s.Quiet (s.readElements a c first k).1 := by
  unfold State.readElements
  extract_lets places values parts bad reads
  clear_value reads
  refine Quiet.foldl (fun t g => ?_) reads s
  exact State.engineRead_quiet _ _ _ _ _

theorem State.readElements_values (s : State) (a : Accessor) (c : Copy) (first k : Nat) :
    (s.readElements a c first k).2.1 = (List.range k).map fun j => s.sourceValue c (first + j) := by
  unfold State.readElements
  extract_lets places values parts bad reads
  exact List.map_map

/-- A copy whose whole source has been read (R154). -/
def Copy.sourced (values bad : List Nat) (c : Copy) : Copy := { c with got := c.n.toNat, data := values, poisoned := bad }

/-- A copy one strip further (R155). -/
def Copy.stripped (k : Nat) (values bad : List Nat) (c : Copy) : Copy :=
  { c with got := c.got + k, data := c.data ++ values, poisoned := c.poisoned ++ bad }

/-- The machine after elements of a copy's source have come into its buffer. -/
def State.takeSource (s : State) (who : AgentId) (i : BitVec 5) (h : Hart) (c : Copy) (first k : Nat)
    (f : List Nat → List Nat → Copy → Copy) : State :=
  let r := s.readElements h.engine c first k
  r.1.onCopyOf who i (f r.2.1 r.2.2)

theorem State.find_takeSource {s : State} {who : AgentId} {i : BitVec 5} {h : Hart} {c : Copy} (hf : s.find who = some h)
    (hc : h.copyOf i = some c) (first k : Nat) (f : List Nat → List Nat → Copy → Copy) :
    ∃ m bad, (s.takeSource who i h c first k f).find who = some m ∧
      m.copyOf i = some (f ((List.range k).map fun j => s.sourceValue c (first + j)) bad c) := by
  obtain ⟨m, hm, hbare⟩ := State.find_of_quiet (s.readElements_quiet h.engine c first k) hf
  have hcopy : m.copyOf i = some c := (Hart.copyOf_of_bare hbare i).trans hc
  refine ⟨_, (s.readElements h.engine c first k).2.2, State.find_onCopyOf hm i _, ?_⟩
  rw [Hart.copyOf_onCopy hcopy, State.readElements_values]

end Sys2Proof.Machine

namespace Sys2Proof.Safety
open Sys2Proof Sys2Proof.Machine

/-- Reading the source of a copy stores nothing. -/
theorem storedNothing_takeSource {s : State} (hx : Sparse.wf (fun _ => Ctx.none) s.ctxs = true) (who : AgentId) (i : BitVec 5)
    (h : Hart) (c : Copy) (first k : Nat) (f : List Nat → List Nat → Copy → Copy) :
    StoredNothing s (s.takeSource who i h c first k f) := by
  have q := s.readElements_quiet h.engine c first k
  exact ⟨fun hu => (q.memory hx hu).2.1, q.lstore⟩

/-- The source of a copy between memories, or to a slot, read whole (R154). -/
theorem copySourceRead_spec {s : State} (hx : Sparse.wf (fun _ => Ctx.none) s.ctxs = true) {who : AgentId} {i : BitVec 5} {h : Hart}
    {c : Copy} (hf : s.find who = some h) (hc : h.copyOf i = some c) (hk : c.kind = 2 ∨ c.kind = 3)
    (hfill : h.h.get i.toFin = .filling) (hfree : (c.sourceLines 0 c.n.toNat).any (s.blocksRead c.order) = false) :
    ∃ t k, exec (.copySourceRead who i) s = .next t ∧ (t.find who).bind (·.copyOf i) = some k ∧
      k.data = (List.range c.n.toNat).map (s.sourceValue c) ∧ k.got = c.n.toNat ∧
      (t.find who).map (·.h.get i.toFin) = some .draining ∧ .copyComplete who i ∈ t.agenda ∧
      StoredNothing s t := by
  have hstreams : ¬ c.streams = true := by
    rcases hk with hk | hk <;> simp [Copy.streams, hk]
  let u := s.takeSource who i h c 0 c.n.toNat Copy.sourced
  have hexec : exec (.copySourceRead who i) s =
      .next ((u.update who (Hart.withHandle i .draining)).due (.copyComplete who i)) := by
    show execCopySourceRead who i s = _
    unfold execCopySourceRead
    rw [hf]
    dsimp only
    rw [hc, Hart.handle_getD, hfill]
    dsimp only
    rw [if_neg hstreams, hfree]
    rfl
  obtain ⟨m, bad, hm, hcopy⟩ := State.find_takeSource hf hc 0 c.n.toNat Copy.sourced
  have hfind : ((u.update who (Hart.withHandle i .draining)).due (.copyComplete who i)).find who = some (m.withHandle i .draining) :=
    State.find_withHandle hm i .draining
  refine ⟨_, c.sourced ((List.range c.n.toNat).map (s.sourceValue c)) bad, hexec, ?_, rfl, rfl, ?_,
    List.mem_append_right _ (List.mem_singleton_self _),
    storedNothing_takeSource hx who i h c 0 c.n.toNat Copy.sourced⟩
  · rw [hfind, Option.bind_some]
    show m.copyOf i = _
    simpa only [Nat.zero_add] using hcopy
  · rw [hfind, Option.map_some]
    exact congrArg some (m.handle_set i .draining)

/-- What becomes of the machine once a strip has come in: the handle is full after the last one, and the next strip is due where the
buffer has room for it (R154, R155). -/
theorem exec_streamStripArrival {s : State} {who : AgentId} {i : BitVec 5} {h : Hart} {c : Copy} (hf : s.find who = some h)
    (hc : h.copyOf i = some c) {n : Nat} (hn : n = min (h.mvl c.sew) (c.n.toNat - c.got)) (hk : c.kind = 0) (hn0 : n ≠ 0)
    (hroom : c.data.length + n ≤ 4 * h.mvl c.sew) (hfree : (c.sourceLines c.got n).any (s.blocksRead c.order) = false) :
    let u := s.takeSource who i h c c.got n (Copy.stripped n)
    exec (.streamStripArrival who i) s = .next (
      if c.got + n = c.n.toNat then u.update who (Hart.withHandle i .full)
      else if c.data.length + n + h.mvl c.sew ≤ 4 * h.mvl c.sew then u.due (.streamStripArrival who i) else u) := by
  intro u
  have hexec : exec (.streamStripArrival who i) s =
      if c.got + n = c.n.toNat then .next (u.update who (Hart.withHandle i .full))
      else if c.data.length + n + h.mvl c.sew ≤ 4 * h.mvl c.sew then .next (u.due (.streamStripArrival who i)) else .next u := by
    subst hn
    show execStreamStripArrival who i s = _
    unfold execStreamStripArrival
    rw [hf]
    dsimp only
    rw [hc]
    dsimp only
    rw [if_neg (by rw [hk]; decide), if_neg (by simp [hk, hn0]), if_neg (Nat.not_lt.2 hroom), hfree]
    rfl
  rw [hexec]
  split_ifs <;> rfl

/-- A strip of a copy to a stream arrives (R155). -/
theorem streamStripArrival_spec {s : State} (hx : Sparse.wf (fun _ => Ctx.none) s.ctxs = true) {who : AgentId} {i : BitVec 5} {h : Hart}
    {c : Copy} (hf : s.find who = some h) (hc : h.copyOf i = some c) {n : Nat} (hn : n = min (h.mvl c.sew) (c.n.toNat - c.got))
    (hk : c.kind = 0) (hn0 : n ≠ 0) (hroom : c.data.length + n ≤ 4 * h.mvl c.sew)
    (hfree : (c.sourceLines c.got n).any (s.blocksRead c.order) = false) :
    ∃ t k, exec (.streamStripArrival who i) s = .next t ∧ (t.find who).bind (·.copyOf i) = some k ∧ k.got = c.got + n ∧
      k.data = c.data ++ (List.range n).map (fun e => s.sourceValue c (c.got + e)) ∧ StoredNothing s t ∧
      (c.got + n = c.n.toNat → (t.find who).map (·.h.get i.toFin) = some .full) := by
  have hexec := exec_streamStripArrival hf hc hn hk hn0 hroom hfree
  have hstored := storedNothing_takeSource hx who i h c c.got n (Copy.stripped n)
  obtain ⟨m, bad, hm, hcopy⟩ := State.find_takeSource hf hc c.got n (Copy.stripped n)
  refine ⟨_, c.stripped n ((List.range n).map fun e => s.sourceValue c (c.got + e)) bad, hexec, ?_, rfl, rfl, ?_, fun hlast => ?_⟩
  · split_ifs
    · rw [State.find_withHandle hm, Option.bind_some]
      exact hcopy
    · exact (congrArg (Option.bind · (Hart.copyOf · i)) hm).trans hcopy
    · exact (congrArg (Option.bind · (Hart.copyOf · i)) hm).trans hcopy
  · split_ifs <;> exact hstored
  · rw [if_pos hlast, State.find_withHandle hm, Option.map_some]
    exact congrArg some (m.handle_set i .full)

/-- The engine of a copy from a stream takes a strip out of its buffer (R39). -/
theorem streamStripTaken_spec {s : State} {who : AgentId} {i : BitVec 5} {h : Hart} {c : Copy} (hf : s.find who = some h)
    (hc : h.copyOf i = some c) (hk : c.kind = 1) (hgot : c.got < c.pos) :
    ∃ t k, exec (.streamStripArrival who i) s = .next t ∧ (t.find who).bind (·.copyOf i) = some k ∧
      k.got = min c.pos (c.got + h.mvl c.sew) ∧ t.mem = s.mem := by
  let got := min c.pos (c.got + h.mvl c.sew)
  let u := s.onCopyOf who i fun c => { c with got := got }
  have hexec : exec (.streamStripArrival who i) s = .next (if got < c.pos then u.due (.streamStripArrival who i) else u) := by
    show execStreamStripArrival who i s = _
    unfold execStreamStripArrival
    rw [hf]
    dsimp only
    rw [hc]
    dsimp only
    rw [if_pos hk, if_neg (Nat.not_le.2 hgot)]
  have hu : u.find who = some (h.onCopy i fun c => { c with got := got }) := State.find_onCopyOf hf i _
  have hfind : (if got < c.pos then u.due (.streamStripArrival who i) else u).find who = u.find who := by split_ifs <;> rfl
  refine ⟨_, { c with got := got }, hexec, ?_, rfl, ite_keeps State.mem rfl rfl⟩
  rw [hfind, hu, Option.bind_some, Hart.copyOf_onCopy hc]

end Sys2Proof.Safety

namespace Sys2Proof.Machine

/-! The completion of a copy. -/

/-- How many copies each hart has outstanding: no access of an engine touches that. -/
def State.copyCounts (s : State) : List (AgentId × BitVec 6) := s.harts.map fun h => (h.id, h.cnt.cp)

/-- What a write of the device leaves alone of each hart: everything but the reservation. -/
theorem State.map_harts_of_steady {β : Type} {s t : State} (h : t.steady = s.steady) {g : Hart → β}
    (hg : ∀ h : Hart, g { h with reservation := none } = g h) : t.harts.map g = s.harts.map g := by
  have e : t.harts.map (fun h => { h with reservation := none }) = s.harts.map (fun h => { h with reservation := none }) :=
    congrArg Prod.fst h
  have e := congrArg (List.map g) e
  simpa only [List.map_map, Function.comp_def, hg] using e

theorem State.copyCounts_of_steady {s t : State} (h : t.steady = s.steady) : t.copyCounts = s.copyCounts :=
  State.map_harts_of_steady h fun _ => rfl

/-- A change of harts that leaves their names and their counts of copies alone. -/
theorem State.updateAll_copyCounts (s : State) {f : Hart → Hart} (hf : ∀ h, ((f h).id, (f h).cnt.cp) = (h.id, h.cnt.cp)) :
    (s.updateAll f).copyCounts = s.copyCounts :=
  (List.map_map (l := s.harts)).trans (List.map_congr_left fun h _ => hf h)

theorem State.update_copyCounts (s : State) (id : AgentId) {f : Hart → Hart}
    (hf : ∀ h, ((f h).id, (f h).cnt.cp) = (h.id, h.cnt.cp)) : (s.update id f).copyCounts = s.copyCounts :=
  s.updateAll_copyCounts (f := fun h => if h.id = id then f h else h) fun h => by split <;> simp only [hf]

theorem State.forgetRegion_copyCounts (s : State) (id : AgentId) : (s.forgetRegion id).copyCounts = s.copyCounts := by
  unfold State.forgetRegion
  extract_lets s1
  have h1 : s1.copyCounts = s.copyCounts := State.updateAll_copyCounts s fun h => by split <;> rfl
  exact h1

/-- An abort takes back the stores of the region, not the hart's copies (R199). -/
theorem State.abortRegion_copyCounts (s : State) (id : AgentId) (code : Nat) : (s.abortRegion id code).copyCounts = s.copyCounts := by
  unfold State.abortRegion
  split
  · rfl
  · split
    · rfl
    · extract_lets n status s1 s2
      have h1 : s1.copyCounts = s.copyCounts := State.update_copyCounts s id fun h => by
        unfold Hart.setS
        split_ifs <;> rfl
      have h2 : s2.copyCounts = s1.copyCounts := State.forgetRegion_copyCounts s1 id
      exact (State.copyCounts_of_steady (State.trace_recorded _ _ _ _ _ _).steady).trans (h2.trans h1)

theorem State.engineWrite_copyCounts (s : State) (a : Nat → Accessor) (bs : List (Nat × Byte)) :
    (s.engineWrite a bs).copyCounts = s.copyCounts := by
  unfold State.engineWrite
  extract_lets lines s1 whole s2
  have h1 : s1.copyCounts = s.copyCounts := foldl_keeps State.copyCounts (fun t l => by
    rw [State.copyCounts_of_steady (State.clearReservations_recorded _ _).steady,
      State.copyCounts_of_steady (State.writeLine_cached _ _ _ _ _ _).recorded.steady]
    exact foldl_keeps State.copyCounts (fun _ _ => State.abortRegion_copyCounts _ _ _) _ t) _ s
  have h2 : s2.copyCounts = s.copyCounts := (State.copyCounts_of_steady (State.setMem_recorded s1 bs).steady).trans h1
  exact ite_keeps State.copyCounts h2 h2

/-- What the counts say of a hart that is found. -/
theorem State.find_of_copyCounts {s t : State} (e : t.copyCounts = s.copyCounts) {id : AgentId} {h : Hart} (hf : s.find id = some h) :
    ∃ k, t.find id = some k ∧ k.cnt.cp = h.cnt.cp := by
  have hfind (u : State) : (u.find id).map (fun h => (h.id, h.cnt.cp)) = u.copyCounts.find? fun p => decide (p.1 = id) := by
    rw [State.copyCounts, List.find?_map]
    rfl
  have hk := hfind t
  rw [e, ← hfind s, hf, Option.map_some, Option.map_eq_some_iff] at hk
  obtain ⟨k, hk, hcount⟩ := hk
  exact ⟨k, hk, congrArg Prod.snd hcount⟩

/-- The machine after a copy's destination bytes in memory are written, and its poison with them (R154, R313). -/
def State.copyWritten (s : State) (h : Hart) (c : Copy) : State :=
  (s.engineWrite (fun _ => h.engine) c.destBytes).poisonGranules c.poisonLines

theorem State.poisonGranules_copyCounts (s : State) (l : List Nat) : (s.poisonGranules l).copyCounts = s.copyCounts :=
  ite_keeps State.copyCounts rfl rfl

theorem State.copyWritten_copyCounts (s : State) (h : Hart) (c : Copy) : (s.copyWritten h c).copyCounts = s.copyCounts :=
  (State.poisonGranules_copyCounts _ _).trans (State.engineWrite_copyCounts s _ _)

/-- The bytes of a kind-3 copy with their places in operand memory (R152, R252). -/
def Copy.slotBytes (c : Copy) (quad : Nat) : List (Nat × Byte) :=
  c.data.zipIdx.flatMap fun p => (toBytes c.unit p.1).zipIdx.map fun b =>
    (quad * 2 ^ 19 + c.slot.toNat * 2 ^ 14 + p.2 * c.unit + b.2, b.1)

/-- The parts of operand memory that a kind-3 copy poisons (R313). -/
def Copy.slotParts (c : Copy) (quad : Nat) : List Nat := c.poisonParts.map fun k => quad * 2 ^ 13 + c.slot.toNat * 2 ^ 8 + k

/-- The machine after the bytes of a kind-3 copy are in its slot, and its poison with them (R154, R313). -/
def State.copySlotted (s : State) (h : Hart) (c : Copy) : State :=
  State.markSlots { s with slots := s.slots.setBytes (c.slotBytes h.id.quad) } ((c.slotBytes h.id.quad).map (·.1))
    (c.slotParts h.id.quad)

/-- Marking operand memory changes what is poisoned alone, and poisons what it is told to. -/
theorem State.markSlots_eq (s : State) (written bad : List Nat) :
    ∃ f : Pkg → Pkg, s.markSlots written bad = s.onPkg f ∧ ∀ g ∈ bad, g ∈ (f s.pkg).slotPoison := by
  unfold State.markSlots
  extract_lets gone
  split
  next h =>
    rw [Bool.and_eq_true, List.isEmpty_iff, List.isEmpty_iff] at h
    exact ⟨id, rfl, by simp [h.2]⟩
  next => exact ⟨fun p => { p with slotPoison := _ }, rfl, fun g hg => List.mem_eraseDups.2 (List.mem_append_right _ hg)⟩

/-- A byte of written memory that the list names, and names with one value alone. -/
theorem Memory.byte_setBytes_of_unique {m : Memory} (hm : m.wf = true) {l : List (Nat × Byte)} {a : Nat} {x : Byte} (h : (a, x) ∈ l)
    (hu : ∀ y, (a, y) ∈ l → y = x) : (m.setBytes l).byte a = x := by
  induction l generalizing m with
  | nil => cases h
  | cons p rest ih =>
    rw [Memory.setBytes]
    by_cases ha : a ∈ rest.map (·.1)
    · obtain ⟨⟨b, y⟩, hy, rfl⟩ := List.mem_map.1 ha
      obtain rfl : y = x := hu y (List.mem_cons_of_mem _ hy)
      exact ih (Memory.wf_setByte hm _ _) hy fun z hz => hu z (List.mem_cons_of_mem _ hz)
    · rcases List.mem_cons.1 h with rfl | h
      · rw [Memory.byte_setBytes_other _ ha, Memory.byte_setByte hm, if_pos rfl]
      · exact absurd (List.mem_map_of_mem h) ha

theorem getElem?_toBytes (n x j : Nat) : (toBytes n x)[j]? = if j < n then some (BitVec.ofNat 8 (x / 2 ^ (8 * j))) else none := by
  split
  next h => simp [toBytes, h, Nat.shiftRight_eq_div_pow]
  next h => simpa [toBytes] using h

/-- The bytes of a kind-3 copy: byte j of each element, at the element's place. -/
theorem Copy.mem_slotBytes {c : Copy} {quad a : Nat} {x : Byte} : (a, x) ∈ c.slotBytes quad ↔
    ∃ e j, e < c.data.length ∧ j < c.unit ∧ a = quad * 2 ^ 19 + c.slot.toNat * 2 ^ 14 + e * c.unit + j ∧
      x = BitVec.ofNat 8 (c.data.getD e 0 / 2 ^ (8 * j)) := by
  simp only [Copy.slotBytes, List.mem_flatMap, List.mem_map, List.mem_zipIdx_iff_getElem?, Prod.exists, Prod.mk.injEq,
    getElem?_toBytes, Option.ite_none_right_eq_some, Option.some.injEq]
  constructor
  · rintro ⟨v, e, hv, y, j, ⟨hj, rfl⟩, rfl, rfl⟩
    obtain ⟨he, rfl⟩ := List.getElem?_eq_some_iff.1 hv
    exact ⟨e, j, he, hj, rfl, by rw [List.getD_eq_getElem _ _ he]⟩
  · rintro ⟨e, j, he, hj, rfl, rfl⟩
    exact ⟨c.data[e], e, List.getElem?_eq_getElem he, _, j, ⟨hj, rfl⟩, rfl, by rw [List.getD_eq_getElem _ _ he]⟩

/-- Each byte of a kind-3 copy is in its slot (R252). -/
theorem Copy.byte_slotBytes {m : Memory} (hm : m.wf = true) (c : Copy) (quad : Nat) {e j : Nat} (he : e < c.data.length)
    (hj : j < c.unit) : (m.setBytes (c.slotBytes quad)).byte (quad * 2 ^ 19 + c.slot.toNat * 2 ^ 14 + e * c.unit + j) =
      BitVec.ofNat 8 (c.data.getD e 0 / 2 ^ (8 * j)) := by
  refine Memory.byte_setBytes_of_unique hm (Copy.mem_slotBytes.2 ⟨e, j, he, hj, rfl, rfl⟩) fun y hy => ?_
  obtain ⟨e', j', -, hj', ha, rfl⟩ := Copy.mem_slotBytes.1 hy
  have hplace : e * c.unit + j = e' * c.unit + j' := by omega
  have hrow (x y : Nat) (hy : y < c.unit) : (x * c.unit + y) / c.unit = x := by
    rw [Nat.mul_comm, Nat.mul_add_div (Nat.zero_lt_of_lt hy), Nat.div_eq_of_lt hy, Nat.add_zero]
  obtain rfl : e = e' := by rw [← hrow e j hj, hplace, hrow e' j' hj']
  obtain rfl : j = j' := Nat.add_left_cancel hplace
  rfl

end Sys2Proof.Machine

namespace Sys2Proof.Safety
open Sys2Proof Sys2Proof.Machine

/-- A copy whose writes are done leaves its handle free and lowers the count of its hart (R154). -/
theorem find_copyFreed {s u : State} (hcounts : u.copyCounts = s.copyCounts) {who : AgentId} {h : Hart} (hf : s.find who = some h)
    (i : BitVec 5) :
    let t := u.update who fun h => (h.freeHandle i.toNat).unbindHandle i.toNat
    (t.find who).map (·.copyOf i) = some none ∧ (t.find who).map (·.h.get i.toFin) = some .free ∧
      (t.find who).map (·.cnt.cp) = some (h.cnt.cp - 1) := by
  intro t
  obtain ⟨k, hk, hcp⟩ := State.find_of_copyCounts hcounts hf
  have hfind : t.find who = some ((k.freeHandle i.toNat).unbindHandle i.toNat) := by
    rw [State.find_update u who (f := fun h => (h.freeHandle i.toNat).unbindHandle i.toNat) fun _ => rfl, hk, Option.map_some]
  rw [hfind]
  exact ⟨congrArg some (getD_setIfInBounds_self k.copy i.isLt none none), congrArg some (k.handle_set i .free),
    congrArg some ((sub_eq_add_neg _ _).symm.trans (congrArg (· - 1) hcp))⟩

theorem exec_copyComplete {s : State} {who : AgentId} {i : BitVec 5} {h : Hart} {c : Copy} (hf : s.find who = some h)
    (hc : h.copyOf i = some c) (hd : h.h.get i.toFin = .draining) : exec (.copyComplete who i) s =
      .next ((if c.kind = 3 then s.copySlotted h c else s.copyWritten h c).update who
        fun h => (h.freeHandle i.toNat).unbindHandle i.toNat) := by
  show execCopyComplete who i s = _
  unfold execCopyComplete
  rw [hf]
  dsimp only
  rw [hc, Hart.handle_getD, hd]
  rfl

/-- Memory after a copy whose destination lies there has completed (R154, R313). -/
theorem copyWritten_spec {s : State} (hs : Canonical s) (h : Hart) (c : Copy) :
    (∀ g ∈ c.poisonLines, g ∈ (s.copyWritten h c).pkg.poison) ∧ (s.copyWritten h c).slots = s.slots ∧
      (Untraced s → (∀ a, a ∉ c.destBytes.map (·.1) → (s.copyWritten h c).mem.byte a = s.mem.byte a) ∧
        ∀ before p after, c.destBytes = before ++ p :: after → p.1 ∉ after.map (·.1) →
          (s.copyWritten h c).mem.byte p.1 = p.2) := by
  obtain ⟨hmem, -, -, -, -, -, -, -, hctxs, -⟩ := hs
  have htraffic : s.Traffic (s.copyWritten h c) := (State.engineWrite_traffic s _ _).trans (State.poisonGranules_traffic _ _)
  refine ⟨fun g hg => State.mem_poisonGranules _ hg, htraffic.slots, fun hu => ?_⟩
  have hm : (s.copyWritten h c).mem = s.mem.setBytes c.destBytes :=
    (State.poisonGranules_mem _ _).trans (State.engineWrite_mem hctxs hu _ _)
  rw [hm]
  refine ⟨fun a ha => Memory.byte_setBytes_other _ ha, fun before p after e hp => ?_⟩
  rw [e]
  exact Memory.byte_setBytes_mem hmem hp

/-- Operand memory after a copy into a slot has completed (R154, R313). -/
theorem copySlotted_spec {s : State} (hs : Canonical s) (h : Hart) (c : Copy) :
    (s.copySlotted h c).copyCounts = s.copyCounts ∧ (s.copySlotted h c).mem = s.mem ∧
      (∀ e, e < c.data.length → ∀ j, j < c.unit →
        (s.copySlotted h c).slots.byte (h.id.quad * 2 ^ 19 + c.slot.toNat * 2 ^ 14 + e * c.unit + j) =
          BitVec.ofNat 8 (c.data.getD e 0 / 2 ^ (8 * j))) ∧
      ∀ n ∈ c.poisonParts, h.id.quad * 2 ^ 13 + c.slot.toNat * 2 ^ 8 + n ∈ (s.copySlotted h c).pkg.slotPoison := by
  obtain ⟨-, -, hslots, -⟩ := hs
  obtain ⟨f, hmark, hbad⟩ := State.markSlots_eq { s with slots := s.slots.setBytes (c.slotBytes h.id.quad) }
    ((c.slotBytes h.id.quad).map (·.1)) (c.slotParts h.id.quad)
  rw [State.copySlotted, hmark]
  exact ⟨rfl, rfl, fun e he j hj => Copy.byte_slotBytes hslots c h.id.quad he hj, fun n hn => hbad _ (List.mem_map_of_mem hn)⟩

/-- A copy completes (R154, R313). -/
theorem copyComplete_spec {s : State} (hs : Canonical s) {who : AgentId} {i : BitVec 5} {h : Hart} {c : Copy} (hf : s.find who = some h)
    (hc : h.copyOf i = some c) (hd : h.h.get i.toFin = .draining) :
    ∃ t : State, exec (.copyComplete who i) s = .next t ∧ (t.find who).map (·.copyOf i) = some none ∧
      (t.find who).map (·.h.get i.toFin) = some .free ∧ (t.find who).map (·.cnt.cp) = some (h.cnt.cp - 1) ∧
      (c.kind = 3 → t.mem = s.mem ∧
        ∀ e, e < c.data.length → ∀ j, j < c.unit →
          t.slots.byte (h.id.quad * 2 ^ 19 + c.slot.toNat * 2 ^ 14 + e * c.unit + j) = BitVec.ofNat 8 (c.data.getD e 0 / 2 ^ (8 * j))) ∧
      (c.kind = 3 → ∀ n ∈ c.poisonParts, h.id.quad * 2 ^ 13 + c.slot.toNat * 2 ^ 8 + n ∈ t.pkg.slotPoison) ∧
      (c.kind ≠ 3 → (∀ g ∈ c.poisonLines, g ∈ t.pkg.poison) ∧ t.slots = s.slots ∧ (Untraced s →
        (∀ a, a ∉ c.destBytes.map (·.1) → t.mem.byte a = s.mem.byte a) ∧
        ∀ before p after, c.destBytes = before ++ p :: after → p.1 ∉ after.map (·.1) → t.mem.byte p.1 = p.2)) := by
  have hexec := exec_copyComplete hf hc hd
  by_cases hk : c.kind = 3
  · rw [if_pos hk] at hexec
    obtain ⟨hcounts, hmem, hbytes, hpoison⟩ := copySlotted_spec hs h c
    obtain ⟨hcopy, hhandle, hcp⟩ := find_copyFreed hcounts hf i
    exact ⟨_, hexec, hcopy, hhandle, hcp, fun _ => ⟨hmem, hbytes⟩, fun _ => hpoison, fun hn => absurd hk hn⟩
  · rw [if_neg hk] at hexec
    obtain ⟨hcopy, hhandle, hcp⟩ := find_copyFreed (State.copyWritten_copyCounts s h c) hf i
    exact ⟨_, hexec, hcopy, hhandle, hcp, fun h3 => absurd h3 hk, fun h3 => absurd h3 hk, fun _ => copyWritten_spec hs h c⟩

/-- Settles O40: each step by the lemma of its name; an access of an engine leaves alone the copies of every hart, and their count. -/
theorem copySteps : Obligations.CopySteps := by
  intro s who i h c hs hf hc value
  have hx : Sparse.wf (fun _ => Ctx.none) s.ctxs = true := by
    obtain ⟨-, -, -, -, -, -, -, -, hctxs, -⟩ := hs
    exact hctxs
  refine ⟨copySourceRead_spec hx hf hc, ?_, streamStripTaken_spec hf hc, copyComplete_spec hs hf hc⟩
  intro mvl n hk hn hroom hfree
  exact streamStripArrival_spec hx hf hc rfl hk hn hroom hfree

end Sys2Proof.Safety

/-! Messages of endpoints (R283, R284): what becomes of one that is delivered, and what the device does for it. -/

namespace Sys2Proof.Machine

/-- The queue of messages replaced. -/
def State.withInbox (s : State) (l : List (BitVec 12 × Message)) : State := s.onPkg fun p => { p with inbox := l }

/-- A message at the end of the queue. -/
def State.enqueue (s : State) (ep : BitVec 12) (m : Message) : State := s.withInbox (s.pkg.inbox ++ [(ep, m)])

@[simp] theorem State.enqueue_inbox (s : State) (ep : BitVec 12) (m : Message) :
    (s.enqueue ep m).pkg.inbox = s.pkg.inbox ++ [(ep, m)] := rfl

/-- A message of an endpoint that is not bound is dropped. -/
theorem State.deliver_unbound {s : State} {ep : BitVec 12} (h : s.endpoint ep = none) (m : Message) :
    s.deliver ep m = s.dropMessage ep := by
  rw [State.deliver, h]
  rfl

/-- Behind a message of its endpoint that waits, a message waits. -/
theorem State.deliver_behind {s : State} {ep c : BitVec 12} (h : s.endpoint ep = some c) (hq : s.queued ep = true) (m : Message) :
    s.deliver ep m = (s.enqueue ep m).nextMessage ep := by
  rw [State.deliver, h, hq]
  rfl

/-- With none of its endpoint before it, a message at the end of the queue is its endpoint's oldest. -/
theorem find?_append_first {l : List (BitVec 12 × Message)} {ep : BitVec 12} (hl : (l.any fun p => decide (p.1 = ep)) = false)
    (m : Message) : (l ++ [(ep, m)]).find? (fun p => decide (p.1 = ep)) = some (ep, m) := by
  have hn : l.find? (fun p => decide (p.1 = ep)) = none := by
    rw [List.find?_eq_none]
    exact fun p hp => List.any_eq_false.1 hl p hp
  rw [List.find?_append, hn]
  simp

/-- The queue without that message is what it was. -/
theorem eraseP_append_first {l : List (BitVec 12 × Message)} {ep : BitVec 12} (hl : (l.any fun p => decide (p.1 = ep)) = false)
    (m : Message) : (l ++ [(ep, m)]).eraseP (fun p => decide (p.1 = ep)) = l := by
  rw [List.eraseP_append_right]
  · simp
  · exact fun p hp => List.any_eq_false.1 hl p hp

/-- With none of its endpoint before it, a message that need not wait is performed, and leaves the queue. -/
theorem State.deliver_first {s t : State} {ep c : BitVec 12} (h : s.endpoint ep = some c) (hq : s.queued ep = false) {m : Message}
    (hp : (s.enqueue ep m).performMessage c ep m = some t) (ht : t.pkg.inbox = (s.enqueue ep m).pkg.inbox) :
    s.deliver ep m = t.withInbox s.pkg.inbox := by
  have hdrop : t.dropHead ep = t.withInbox s.pkg.inbox := by
    rw [State.dropHead, State.withInbox, State.onPkg, State.onPkg, ht, State.enqueue_inbox, eraseP_append_first hq]
  have hend : (s.enqueue ep m).endpoint ep = some c := h
  have hnext : (s.enqueue ep m).deliverNext ep = (t.dropHead ep).nextMessage ep := by
    rw [State.deliverNext, State.enqueue_inbox, find?_append_first hq]
    dsimp only
    rw [hend]
    dsimp only
    rw [hp]
  have hempty : (t.withInbox s.pkg.inbox).queued ep = false := hq
  rw [State.deliver, h, hq]
  refine hnext.trans ?_
  rw [hdrop, State.nextMessage, hempty]
  rfl

/-- The requests to the device, and the codes of their replies (R283). -/
theorem exec_spdmRequests {ep : BitVec 12} {x y : BitVec 16} {index : BitVec 8} {nonce : BitVec 256} {p : Instr × Byte}
    (hp : p ∈ Safety.spdmRequests ep x y index nonce) :
    ∃ r : Spdm, (∀ s, exec p.1 s = .next (s.deliver ep (.spdm r))) ∧ ∀ (s : State) (c : BitVec 12), (s.spdmAnswer c r).1 = p.2 := by
  simp only [Safety.spdmRequests, List.mem_cons, List.not_mem_nil, or_false] at hp
  rcases hp with rfl | rfl | rfl | rfl | rfl | rfl | rfl
  · exact ⟨.version, fun _ => rfl, fun _ _ => rfl⟩
  · exact ⟨.capabilities, fun _ => rfl, fun _ _ => rfl⟩
  · exact ⟨.algorithms, fun _ => rfl, fun _ _ => rfl⟩
  · exact ⟨.digests 0, fun _ => rfl, fun _ _ => rfl⟩
  · exact ⟨.certificate 0, fun _ => rfl, fun _ _ => rfl⟩
  · exact ⟨.challenge 0, fun _ => rfl, fun _ _ => rfl⟩
  · exact ⟨.measurements index, fun _ => rfl, fun _ _ => rfl⟩

/-- A write of 1 to 4,096 bytes is delivered (R284). -/
theorem exec_uecWrite {data : List Byte} (h0 : 0 < data.length) (h1 : data.length ≤ 4096) (ep : BitVec 12) (a : Word) (s : State) :
    exec (.uecWrite ep a data) s = .next (s.deliver ep (.write a data)) := by
  show execUecWrite ep a data s = _
  rw [execUecWrite, if_neg (by omega)]

theorem exec_uecWrite_dropped {data : List Byte} (h : data.length = 0 ∨ 4096 < data.length) (ep : BitVec 12) (a : Word) (s : State) :
    exec (.uecWrite ep a data) s = .next (s.dropMessage ep) := by
  show execUecWrite ep a data s = _
  rw [execUecWrite, if_pos h]

/-- A read of 1 to 4,096 bytes is delivered (R284). -/
theorem exec_uecRead {n : Word} (h0 : n ≠ 0) (h1 : n.toNat ≤ 4096) (ep : BitVec 12) (a : Word) (s : State) :
    exec (.uecRead ep a n) s = .next (s.deliver ep (.read a n)) := by
  show execUecRead ep a n s = _
  rw [execUecRead, if_neg (show ¬(n = 0 ∨ 4096#64 < n) from not_or.2 ⟨h0, Nat.not_lt.2 h1⟩)]

theorem exec_uecRead_dropped {n : Word} (h : n = 0 ∨ 4096 < n.toNat) (ep : BitVec 12) (a : Word) (s : State) :
    exec (.uecRead ep a n) s = .next (s.dropMessage ep) := by
  show execUecRead ep a n s = _
  rw [execUecRead, if_pos (show n = 0 ∨ 4096#64 < n from h)]

/-- An append whose payload is a record is delivered (R284). -/
theorem exec_uecAppend {payload : List Byte} (h : payload.length = 128) (ep : BitVec 12) (q r : Word) (s : State) :
    exec (.uecAppend ep q r payload) s = .next (s.deliver ep (.append q r payload)) := by
  show execUecAppend ep q r payload s = _
  rw [execUecAppend, if_neg (not_not_intro h)]

end Sys2Proof.Machine

namespace Sys2Proof.Safety
open Sys2Proof Sys2Proof.Machine

/-! Messages dropped, and messages that wait. -/

/-- An instruction drops a message of an endpoint and counts it (R90, R284). -/
def Drops (s : State) (ep : BitVec 12) (i : Instr) : Prop :=
  ∃ t : State, exec i s = .next t ∧ t.pkg.dec.getD 6 0 = s.pkg.dec.getD 6 0 + 1 ∧
    (s.endpoint ep = none → Keeps [.package] s t) ∧ ∀ c, s.endpoint ep = some c → Keeps [.package, .tenants] s t ∧
      (t.tenant (tenantOf c)).dec.getD 6 0 = (s.tenant (tenantOf c)).dec.getD 6 0 + 1

theorem drops_of_exec {s : State} (hs : Canonical s) {ep : BitVec 12} {i : Instr} (h : exec i s = .next (s.dropMessage ep)) :
    Drops s ep i := by
  obtain ⟨-, -, -, -, -, -, -, -, -, htenants, -⟩ := hs
  have hsix : 6 < 9 := by decide
  refine ⟨_, h, ?_⟩
  cases he : s.endpoint ep with
  | none =>
    have e : s.dropMessage ep = s.onPkg fun p => { p with dec := p.dec.setIfInBounds 6 (p.dec.getD 6 0 + 1) } := by
      rw [State.dropMessage, he]
    rw [e]
    exact ⟨getD_setIfInBounds_self _ hsix _ _, fun _ => keeps_onPkg s _ rfl, fun c hc => by cases hc⟩
  | some c =>
    have e : s.dropMessage ep = s.decide_ (tenantOf c) 6 := by rw [State.dropMessage, he]
    rw [e]
    refine ⟨getD_setIfInBounds_self _ hsix _ _, fun hn => (by cases hn), fun k hk => ?_⟩
    obtain rfl : c = k := Option.some.inj hk
    refine ⟨((keeps_onTenant s _ _).mono (by simp)).trans ((keeps_onPkg _ _ rfl).mono (by simp)), ?_⟩
    have htenant := State.tenant_onTenant_self htenants (tenantOf c) fun t =>
      { t with dec := t.dec.setIfInBounds 6 (t.dec.getD 6 0 + 1) }
    exact (congrArg (fun x : Tenant => x.dec.getD 6 0) htenant).trans (getD_setIfInBounds_self _ hsix _ _)

/-- A message that waits behind another of its endpoint (R284). -/
theorem waits_behind {s : State} {ep c : BitVec 12} (he : s.endpoint ep = some c) (hq : s.queued ep = true) {i : Instr} {m : Message}
    (hi : exec i s = .next (s.deliver ep m)) :
    ∃ t : State, exec i s = .next t ∧ t.pkg = { s.pkg with inbox := s.pkg.inbox ++ [(ep, m)] } ∧ Due.message ep ∈ t.agenda ∧
      Keeps [.package, .agenda] s t := by
  rw [State.deliver_behind he hq] at hi
  have hqueued : (s.enqueue ep m).queued ep = true := by
    rw [State.queued, State.enqueue_inbox, List.any_append]
    exact Bool.or_eq_true_iff.2 (.inl hq)
  have hkeeps : Keeps [.package, .agenda] s (s.enqueue ep m) := (keeps_onPkg s _ rfl).mono (by simp)
  rw [State.nextMessage, hqueued] at hi
  cases hdue : (s.enqueue ep m).agenda.elem (.message ep) with
  | true =>
    rw [hdue] at hi
    exact ⟨_, hi, rfl, List.elem_iff.1 hdue, hkeeps⟩
  | false =>
    rw [hdue] at hi
    exact ⟨_, hi, rfl, List.mem_append_right _ (List.mem_singleton_self _), hkeeps.trans ((keeps_due _ _).mono (by simp))⟩

/-- Every message but an append can wait in the queue, and so can an append of a record. -/
theorem exec_delivers {s : State} {ep : BitVec 12} {q r a n : Word} {data : List Byte} {slot index code : BitVec 8} {nonce : BitVec 256}
    (hd : data.length = 128) (hn : n ≠ 0) (hn1 : n.toNat ≤ 4096) {p : Instr × Message}
    (hp : p ∈ [(Instr.uecAppend ep q r data, Message.append q r data), (.uecWrite ep a data, .write a data),
      (.uecRead ep a n, .read a n), (.getVersion ep, .spdm .version), (.getDigests ep slot, .spdm (.digests slot)),
      (.getMeasurements ep index nonce, .spdm (.measurements index)), (.spdmUnsupportedRequest ep code, .spdm .other)]) :
    exec p.1 s = .next (s.deliver ep p.2) := by
  simp only [List.mem_cons, List.not_mem_nil, or_false] at hp
  rcases hp with rfl | rfl | rfl | rfl | rfl | rfl | rfl
  · exact exec_uecAppend hd ep q r s
  · exact exec_uecWrite (by omega) (by omega) ep a s
  · exact exec_uecRead hn hn1 ep a s
  · rfl
  · rfl
  · rfl
  · rfl

/-! Answers to SPDM requests (R283). -/

/-- An instruction answers an SPDM request of an endpoint with a code and what follows it. -/
def Answers (s : State) (ep : BitVec 12) (i : Instr) (b : Byte) (ok : List Byte → Prop) : Prop :=
  ∃ (t : State) (bytes : List Byte), exec i s = .next t ∧ t.outbox = s.outbox ++ [Reply.spdm ep b bytes] ∧ ok bytes ∧
    Keeps [.outbox, .free] s t

/-- A request that is the first of its endpoint's queue is answered as the device answers it then. -/
theorem answers_spdm {s : State} {ep c : BitVec 12} (he : s.endpoint ep = some c) (hq : s.queued ep = false) {i : Instr} {r : Spdm}
    (hi : exec i s = .next (s.deliver ep (.spdm r))) {b : Byte} {ok : List Byte → Prop}
    (hb : ((s.enqueue ep (.spdm r)).spdmAnswer c r).1 = b) (hok : ok ((s.enqueue ep (.spdm r)).spdmAnswer c r).2) :
    Answers s ep i b ok := by
  let u := s.enqueue ep (.spdm r)
  have hfirst : s.deliver ep (.spdm r) =
      (u.fresh.reply (.spdm ep (u.spdmAnswer c r).1 (u.spdmAnswer c r).2)).withInbox s.pkg.inbox :=
    State.deliver_first he hq rfl rfl
  subst hb
  refine ⟨_, _, hi.trans (congrArg _ hfirst), rfl, hok, fun p hp => ?_⟩
  cases p <;> simp [Agree, SameRegisters, State.withInbox, State.enqueue, State.reply, u] at hp ⊢

/-- ALGORITHMS names RSASSA with a 4,096-bit key, and SHA-512 (R283). -/
theorem spdmAlgorithms_names (s : State) : (s.spdmAlgorithms.drop 10).take 8 = [0x20, 0, 0, 0, 0x04, 0, 0, 0] := rfl

end Sys2Proof.Safety

/-! Reads and writes that the device makes for a message or for the host (R128, R133, R197, R284). -/

namespace Sys2Proof.Safety
open Sys2Proof.Machine

theorem SameRegisters.flips {p q : Pkg} (h : SameRegisters p q) : q.flips = p.flips := by
  unfold SameRegisters at h
  exact (congrArg Pkg.flips h).trans rfl

theorem SameRegisters.inbox {p q : Pkg} (h : SameRegisters p q) : q.inbox = p.inbox := by
  unfold SameRegisters at h
  exact (congrArg Pkg.inbox h).trans rfl

end Sys2Proof.Safety

namespace Sys2Proof.Machine
open State (Quiet)

/-! What traffic leaves alone of who owns a line, and of the package. -/

theorem State.Traffic.outbox {s t : State} (k : s.Traffic t) : t.outbox = s.outbox := by
  have hstill := k.still
  simp only [State.still, Prod.mk.injEq] at hstill
  obtain ⟨-, -, -, houtbox, -⟩ := hstill
  exact houtbox

/-- A copy or an accumulator store of the hart owns the line (R128, R267). -/
def Hart.owns (line : Nat) (h : Hart) : Bool :=
  h.copy.toList.any (fun c => match c with
    | some c => c.lines.elem line
    | none => false) || h.accStores.any fun p => p.lines.elem line

/-- Who owns a line is seen from the bare harts and the saved ones. -/
theorem State.engineOwned_eq (s : State) (line : Nat) :
    s.engineOwned line = ((s.hart.bare :: s.parked.map Hart.bare).any (Hart.owns line) || s.saved.any (Hart.owns line)) := by
  have hengine : s.engineOwned line = (s.harts ++ s.saved).any (Hart.owns line) := rfl
  rw [hengine, List.any_append, State.harts, List.any_cons, List.any_cons, List.any_map]
  rfl

/-- Traffic, and the aborts that it causes, leaves every line with its owner. -/
theorem State.owned_of_frame {s t : State} (k : s.Traffic t) (f : t.frame = s.frame) (line : Nat) : t.owned line = s.owned line := by
  have hstill := k.still
  simp only [State.still, Prod.mk.injEq] at hstill
  obtain ⟨hsaved, -, -, -, -, -, -, -, -, -, -, -, -, hwindows, -⟩ := hstill
  obtain ⟨hhart, hparked, -⟩ : t.hart.bare = s.hart.bare ∧ t.parked.map Hart.bare = s.parked.map Hart.bare ∧ _ := by
    simpa only [State.frame, Prod.mk.injEq] using f
  rw [State.owned, State.owned, State.engineOwned_eq, State.engineOwned_eq, hhart, hparked, hsaved, hwindows]

theorem State.flipping_of_traffic {s t : State} (k : s.Traffic t) (pa : Nat) : t.flipping pa = s.flipping pa := by
  rw [State.flipping, State.flipping, k.pkg.flips]

/-! Granules that an access reaches. -/

/-- What a message reaches is owned by no engine, and in no region that is being flipped (R128, R285). -/
theorem State.reach_found {s : State} {c : BitVec 12} {p : Perm} {va n : Nat} {l : List (Nat × Nat × Nat)}
    (h : s.reach c p va n = .found l) : ∀ g ∈ l, s.owned (g.2.1 / 64) = false ∧ s.flipping g.2.1 = false := by
  unfold State.reach at h
  generalize granules va n = gs at h
  induction gs generalizing l with
  | nil =>
    cases h
    simp
  | cons g gs ih =>
    rw [List.foldr_cons] at h
    generalize List.foldr _ _ gs = acc at h ih
    dsimp only at h
    split at h
    case h_6 l' pa rwx _ =>
      split_ifs at h with h1 h2 h3
      cases h
      rw [Bool.or_eq_true, not_or, Bool.not_eq_true, Bool.not_eq_true] at h3
      exact List.forall_mem_cons.2 ⟨h3, ih rfl⟩
    all_goals cases h

/-- The host's access within one granule. -/
theorem physical_of_within {pa n : Nat} (h0 : 0 < n) (h1 : pa % 64 + n ≤ 64) (h2 : pa < 2 ^ 52) :
    physical pa n = [(noAddress, pa, n)] := by
  have hcount : (pa % 64 + n - 1) / 64 + 1 = 1 := by omega
  have hlen : min (pa + n) ((pa / 64 + 0 + 1) * 64) - pa = n := by omega
  rw [physical, if_neg (Nat.ne_of_gt h0), granules, hcount]
  simp only [List.range_one, List.map_cons, List.map_nil, if_true, hlen, Nat.mod_eq_of_lt h2]

/-! Bytes written and read. -/

theorem State.takeLine_quiet (s : State) (a : Accessor) (va line : Nat) : s.Quiet (s.takeLine a va line) :=
  (State.outside_quiet s line true).trans (State.writeLine_cached _ _ _ _ _ _).quiet

theorem State.putBytes_traffic (s : State) (by_ : Nat → Accessor) (l : List (Nat × Nat × Nat)) (bs : List Byte) :
    s.Traffic (s.putBytes by_ l bs) := by
  induction l generalizing s bs with
  | nil => exact .refl s
  | cons g l ih => exact ((State.takeLine_traffic _ _ _ _).trans (State.deviceWrite_traffic _ _ _)).trans (ih _ _)

theorem State.putBytes_frame (s : State) (by_ : Nat → Accessor) (l : List (Nat × Nat × Nat)) (bs : List Byte) :
    (s.putBytes by_ l bs).frame = s.frame := by
  induction l generalizing s bs with
  | nil => rfl
  | cons g l ih => exact (ih _ _).trans ((State.deviceWrite_frame _ _ _).trans (State.takeLine_quiet _ _ _ _).frame)

/-- A write of the device that neither an engine, nor a flip, nor an earlier write holds up is performed at once. -/
theorem State.deviceWrite_now {s : State} {pa : Nat} (ho : s.owned (pa / 64) = false) (hf : s.flipping pa = false)
    (hl : s.pkg.late = []) (bs : List Byte) : s.deviceWrite pa bs = s.writeNow pa bs := by
  have hlate : s.lateAt (pa / 64) = false := by rw [State.lateAt, hl]; rfl
  rw [State.deviceWrite, State.writeOrWait, ho, hf, hlate]
  rfl

/-- Reading bytes is quiet. -/
theorem State.takeBytes_quiet (s : State) (by_ : Nat → Accessor) (l : List (Nat × Nat × Nat)) : s.Quiet (s.takeBytes by_ l).1 := by
  refine Quiet.foldl (fun t g => ?_) l s
  exact State.engineRead_quiet _ _ _ _ _

end Sys2Proof.Machine

namespace Sys2Proof.Safety
open Sys2Proof Sys2Proof.Machine

/-- Bytes that go to one granule whose line is free are there afterwards, and no others. -/
theorem putBytes_one {s : State} (hmem : s.mem.wf = true) (hctxs : Sparse.wf (fun _ => Ctx.none) s.ctxs = true) (hu : Untraced s)
    (hl : s.pkg.late = []) {pa : Nat} (ho : s.owned (pa / 64) = false) (hf : s.flipping pa = false) (by_ : Nat → Accessor) (va : Nat)
    (data : List Byte) : PutBytes s (s.putBytes by_ [(va, pa, data.length)] data) pa data := by
  have q := s.takeLine_quiet (by_ (pa / 64)) va (pa / 64)
  obtain ⟨-, hm, hlate⟩ := q.memory hctxs hu
  have hput : s.putBytes by_ [(va, pa, data.length)] data =
      (s.takeLine (by_ (pa / 64)) va (pa / 64)).deviceWrite pa (data.take data.length) := rfl
  rw [hput, List.take_length, State.deviceWrite_now ((State.owned_of_frame q.traffic q.frame _).trans ho)
    ((State.flipping_of_traffic q.traffic _).trans hf) (hlate.trans hl)]
  have hbyte (a : Nat) := Memory.byte_setBytes_run hmem pa data a
  unfold PutBytes
  rw [State.writeNow_mem, hm]
  refine ⟨fun j hj => ?_, fun b hb => ?_⟩
  · rw [hbyte, if_pos (by omega), Nat.add_sub_cancel_left]
  · rw [hbyte, if_neg (by omega)]

theorem keeps_reply (s : State) (r : Reply) : Keeps [.outbox] s (s.reply r) := by
  intro p hp
  cases p <;> simp [Agree, SameRegisters, State.reply] at hp ⊢

/-! The host on the CXL port (R133). -/

/-- A write of the host within a granule whose line no engine owns (R133). -/
theorem cxlHostWrite_spec {s : State} (hs : Canonical s) {pa : BitVec 52} {data : List Byte} (hd : s.pkg.dead.elem .cxlPort = false)
    (h0 : 0 < data.length) (h1 : pa.toNat % 64 + data.length ≤ 64) (ho : s.owned (pa.toNat / 64) = false) :
    ∃ t : State, exec (.cxlHostWrite pa data) s = .next t ∧
      (Untraced s → s.pkg.late = [] → s.flipping pa.toNat = false → PutBytes s t pa.toNat data) ∧ Keeps deviceEffects s t := by
  obtain ⟨hmem, -, -, -, -, -, -, -, hctxs, -⟩ := hs
  have hexec : exec (.cxlHostWrite pa data) s = .next (s.putBytes deviceAccessor [(noAddress, pa.toNat, data.length)] data) := by
    show execCxlHostWrite pa data s = _
    rw [execCxlHostWrite, physical_of_within h0 h1 pa.isLt, hd, List.any_cons, ho]
    rfl
  exact ⟨_, hexec, fun hu hl hf => putBytes_one hmem hctxs hu hl ho hf _ _ data,
    keeps_deviceEffects (State.putBytes_traffic _ _ _ _) (State.putBytes_frame _ _ _ _)⟩

/-- A read of the host within such a granule, not poisoned (R133). -/
theorem cxlHostRead_spec {s : State} (hs : Canonical s) {pa : BitVec 52} {k : Nat} (hd : s.pkg.dead.elem .cxlPort = false)
    (h0 : 0 < k) (h1 : pa.toNat % 64 + k ≤ 64) (ho : s.owned (pa.toNat / 64) = false) (hp : s.poisoned pa.toNat = false) :
    ∃ t : State, exec (.cxlHostRead pa k) s = .next t ∧
      t.outbox = s.outbox ++ [Reply.cxl pa.toNat (s.mem.bytes ((List.range k).map fun i => pa.toNat + i))] ∧ StoredNothing s t ∧
      Keeps (.outbox :: deviceEffects) s t := by
  obtain ⟨-, -, -, -, -, -, -, -, hctxs, -⟩ := hs
  let l := [(noAddress, pa.toNat, k)]
  have q := s.takeBytes_quiet deviceAccessor l
  have hexec : exec (.cxlHostRead pa k) s =
      .next ((s.takeBytes deviceAccessor l).1.reply (.cxl pa.toNat (s.takeBytes deviceAccessor l).2)) := by
    show execCxlHostRead pa k s = _
    rw [execCxlHostRead, physical_of_within h0 h1 pa.isLt, hd, List.any_cons, List.any_cons, ho, hp]
    rfl
  refine ⟨_, hexec, ?_, ⟨fun hu => (q.memory hctxs hu).2.1, q.lstore⟩, ?_⟩
  · rw [State.reply, q.traffic.outbox]
    exact congrArg (fun b => s.outbox ++ [Reply.cxl pa.toNat b]) (List.append_nil _)
  · exact ((keeps_deviceEffects q.traffic q.frame).mono (by simp)).trans ((keeps_reply _ _).mono (by simp))

/-- The host is given nothing of a poisoned granule (R313). -/
theorem cxlHostRead_poisoned {s : State} {pa : BitVec 52} {k : Nat} (hd : s.pkg.dead.elem .cxlPort = false)
    (h0 : 0 < k) (h1 : pa.toNat % 64 + k ≤ 64) (ho : s.owned (pa.toNat / 64) = false) (hp : s.poisoned pa.toNat = true) :
    exec (.cxlHostRead pa k) s = .next { s with outbox := s.outbox ++ [Reply.cxl pa.toNat []] } := by
  show execCxlHostRead pa k s = _
  rw [execCxlHostRead, physical_of_within h0 h1 pa.isLt, hd, List.any_cons, List.any_cons, ho, hp]
  rfl

/-- A dead port takes nothing and answers nothing (R188). -/
theorem cxlHost_dead {s : State} (hd : s.pkg.dead.elem .cxlPort = true) (pa : BitVec 52) (data : List Byte) (k : Nat) :
    exec (.cxlHostWrite pa data) s = .next s ∧ exec (.cxlHostRead pa k) s = .next s :=
  ⟨if_pos hd, if_pos hd⟩

end Sys2Proof.Safety

/-! What a message of a bound endpoint does once it is the first of its queue (R283, R284). -/

namespace Sys2Proof.Machine

/-- A message in the queue changes nothing that an access reads. -/
theorem State.reach_enqueue (s : State) (ep : BitVec 12) (m : Message) (c : BitVec 12) (p : Perm) (va n : Nat) :
    (s.enqueue ep m).reach c p va n = s.reach c p va n := rfl

end Sys2Proof.Machine

namespace Sys2Proof.Safety
open Sys2Proof Sys2Proof.Machine

/-- A message performed at once: its effects, its reply, and the queue as it was. -/
theorem exec_first {s v : State} {ep c : BitVec 12} (he : s.endpoint ep = some c) (hq : s.queued ep = false) {i : Instr} {m : Message}
    (hi : exec i s = .next (s.deliver ep m)) {r : Reply} (hp : (s.enqueue ep m).performMessage c ep m = some (v.reply r))
    (hin : v.pkg.inbox = (s.enqueue ep m).pkg.inbox) : exec i s = .next ((v.reply r).withInbox s.pkg.inbox) :=
  hi.trans (congrArg _ (State.deliver_first he hq hp hin))

/-- Beside its reply, a message changes what accesses of the device do. -/
theorem keeps_message {s v : State} {ep : BitVec 12} {m : Message} (k : (s.enqueue ep m).Traffic v)
    (f : v.frame = (s.enqueue ep m).frame) (r : Reply) : Keeps (.outbox :: deviceEffects) s ((v.reply r).withInbox s.pkg.inbox) := by
  have hkeeps := keeps_deviceEffects k f
  have hregs : SameRegisters (s.enqueue ep m).pkg v.pkg := k.pkg
  intro p hp
  have hagree := hkeeps p fun h => hp (List.mem_cons_of_mem _ h)
  cases p
  case outbox => exact absurd List.mem_cons_self hp
  case package =>
    unfold SameRegisters at hregs
    show SameRegisters s.pkg { v.pkg with inbox := s.pkg.inbox }
    rw [hregs]
    rfl
  all_goals exact hagree

/-- A write that reaches one granule (R284). -/
theorem uecWrite_spec {s : State} (hs : Canonical s) {ep c : BitVec 12} (he : s.endpoint ep = some c) (hq : s.queued ep = false)
    {a : Word} {data : List Byte} (h0 : 0 < data.length) (h1 : data.length ≤ 4096) {va p : Nat}
    (hr : s.reach c .store a.toNat data.length = .found [(va, p, data.length)]) :
    ∃ t : State, exec (.uecWrite ep a data) s = .next t ∧ t.outbox = s.outbox ++ [Reply.uec ep true []] ∧
      (Untraced s → s.pkg.late = [] → PutBytes s t p data) ∧ Keeps (.outbox :: deviceEffects) s t := by
  obtain ⟨hmem, -, -, -, -, -, -, -, hctxs, -⟩ := hs
  let s1 := s.enqueue ep (.write a data)
  let s2 := s1.noteRange c a.toNat data.length
  have q : s1.Quiet s2 := (State.noteRange_cached _ _ _ _).quiet
  let v := s2.putBytes (contextAccessor c) [(va, p, data.length)] data
  have k : s1.Traffic v := q.traffic.trans (State.putBytes_traffic _ _ _ _)
  have f : v.frame = s1.frame := (State.putBytes_frame _ _ _ _).trans q.frame
  have hp : s1.performMessage c ep (.write a data) = some (v.reply (.uec ep true [])) := by
    rw [State.performMessage, State.reach_enqueue, hr]
  have hput (hu : Untraced s) (hl : s.pkg.late = []) : PutBytes s v p data := by
    obtain ⟨ho, hf⟩ := State.reach_found hr _ List.mem_cons_self
    obtain ⟨hu2, hm, hlate⟩ := q.memory hctxs hu
    have hput := putBytes_one (q.traffic.mem hmem) (q.ctxs hctxs).1 hu2 (hlate.trans hl)
      ((State.owned_of_frame q.traffic q.frame _).trans ho) ((State.flipping_of_traffic q.traffic _).trans hf) (contextAccessor c) va data
    unfold PutBytes at hput
    rw [hm] at hput
    exact hput
  clear_value v
  exact ⟨_, exec_first he hq (exec_uecWrite h0 h1 ep a s) hp (k.pkg.inbox), congrArg (· ++ _) k.outbox, hput,
    keeps_message k f _⟩

/-- A read of bytes that are not poisoned (R284, R313). -/
theorem uecRead_spec {s : State} (hs : Canonical s) {ep c : BitVec 12} (he : s.endpoint ep = some c) (hq : s.queued ep = false)
    {a n : Word} (h0 : n ≠ 0) (h1 : n.toNat ≤ 4096) {l : List (Nat × Nat × Nat)} (hr : s.reach c .load a.toNat n.toNat = .found l)
    (hgood : ∀ g ∈ l, s.poisoned g.2.1 = false) :
    ∃ t : State, exec (.uecRead ep a n) s = .next t ∧
      t.outbox = s.outbox ++ [Reply.uec ep true (l.flatMap fun g => s.mem.bytes ((List.range g.2.2).map fun i => g.2.1 + i))] ∧
      StoredNothing s t ∧ Keeps (.outbox :: deviceEffects) s t := by
  obtain ⟨-, -, -, -, -, -, -, -, hctxs, -⟩ := hs
  let s1 := s.enqueue ep (.read a n)
  let s2 := s1.noteRange c a.toNat n.toNat
  have hcached : s1.Cached s2 := State.noteRange_cached _ _ _ _
  have hm : s2.mem = s.mem := show s2.uncached.mem = s1.uncached.mem from congrArg State.mem hcached.state
  let v := (s2.takeBytes (contextAccessor c) l).1
  have q : s1.Quiet v := hcached.quiet.trans (State.takeBytes_quiet _ _ _)
  have hbad : (l.any fun g => s1.poisoned g.2.1) = false := by
    rw [List.any_eq_false]
    exact fun g hg => Bool.not_eq_true _ ▸ hgood g hg
  have hp : s1.performMessage c ep (.read a n) =
      some (v.reply (.uec ep true (l.flatMap fun g => s.mem.bytes ((List.range g.2.2).map fun i => g.2.1 + i)))) := by
    rw [State.performMessage, State.reach_enqueue, hr]
    dsimp only
    rw [hbad, ← hm]
    rfl
  clear_value v
  exact ⟨_, exec_first he hq (exec_uecRead h0 h1 ep a s) hp (q.traffic.pkg.inbox), congrArg (· ++ _) q.traffic.outbox,
    ⟨fun hu => (q.memory hctxs hu).2.1, q.lstore⟩, keeps_message q.traffic q.frame _⟩

/-- A misaligned append is answered, and does nothing else (R284). -/
theorem uecAppend_misaligned {s : State} {ep c : BitVec 12} (he : s.endpoint ep = some c) (hq : s.queued ep = false) {q r : Word}
    {data : List Byte} (hd : data.length = 128) (hn : q.toNat % 512 ≠ 0 ∨ r.toNat % 128 ≠ 0) :
    ∃ t : State, exec (.uecAppend ep q r data) s = .next t ∧ t.outbox = s.outbox ++ [Reply.uec ep false []] ∧
      Keeps [.outbox] s t := by
  have hp : (s.enqueue ep (.append q r data)).performMessage c ep (.append q r data) =
      some ((s.enqueue ep (.append q r data)).reply (.uec ep false [])) := if_pos hn
  exact ⟨_, exec_first he hq (exec_uecAppend hd ep q r s) hp rfl, rfl, keeps_reply s _⟩

end Sys2Proof.Safety

/-! An append that a message asks for (R83, R284): the record that is written first leaves the QCB's control word as it was. -/

namespace Sys2Proof.Machine
open State (Quiet)
open Safety (Untraced)

/-! What is poisoned, where nothing traces. -/

theorem State.Cached.poison {s t : State} (h : s.Cached t) : t.pkg.poison = s.pkg.poison :=
  show t.pkg.uncached.poison = s.pkg.uncached.poison from congrArg Pkg.poison h.pkg

theorem State.abortRegion_pkg {s : State} (hctxs : Sparse.wf (fun _ => Ctx.none) s.ctxs = true) (hu : Untraced s) (id : AgentId)
    (code : Nat) : (s.abortRegion id code).pkg = s.pkg := by
  rcases State.abortRegion_cases s id code with e | ⟨t, h, loc, d, e, -, hc, -, hp⟩
  · rw [e]
  · have ht : Untraced t := fun c => (congrArg Prod.snd ((hc hctxs).2 c)).trans (hu c)
    rw [e, State.trace_of_untraced ht, hp]

theorem State.outside_pkg {s : State} (hctxs : Sparse.wf (fun _ => Ctx.none) s.ctxs = true) (hu : Untraced s) (line : Nat) (w : Bool) :
    (s.outside line w).pkg = s.pkg := by
  unfold State.outside
  generalize List.filter _ s.inRegions = hs
  induction hs generalizing s with
  | nil => rfl
  | cons h hs ih =>
    have q := State.abortRegion_quiet s h.id 2
    exact (ih (q.ctxs hctxs).1 (q.memory hctxs hu).1).trans (State.abortRegion_pkg hctxs hu h.id 2)

theorem State.takeLine_poison {s : State} (hctxs : Sparse.wf (fun _ => Ctx.none) s.ctxs = true) (hu : Untraced s) (a : Accessor)
    (va line : Nat) : (s.takeLine a va line).pkg.poison = s.pkg.poison :=
  (State.writeLine_cached (s.outside line true) _ _ _ _ _).poison.trans (congrArg Pkg.poison (State.outside_pkg hctxs hu line true))

/-! A write performed. -/

/-- A write that is performed leaves those that wait, and poisons nothing. -/
theorem State.writeNow_pkg (s : State) (pa : Nat) (bs : List Byte) :
    (s.writeNow pa bs).pkg.late = s.pkg.late ∧ (s.writeNow pa bs).pkg.poison ⊆ s.pkg.poison := by
  unfold State.writeNow
  extract_lets s1 s2 s3
  let g := fun (t : State) => (t.pkg.late, t.pkg.poison)
  have h1 : g s1 = g s := ite_keeps g rfl rfl
  have hmem (bytes : List (Nat × Byte)) : g (s1.setMem bytes) = g s1 := show g (s1.noteCode bytes) = _ from ite_keeps g rfl rfl
  have h2 : g s2 = g s := by
    have hc := State.deviceLine_cached (s1.setMem (bs.zipIdx.map fun p => (pa + p.2, p.1))) (pa / 64) true
    have hlate : s2.pkg.late = _ := show s2.pkg.uncached.late = _ from congrArg Pkg.late hc.pkg
    exact (Prod.ext hlate hc.poison).trans ((hmem _).trans h1)
  have h3 : g s3 = g s := ite_keeps g h2 h2
  have hlate : s3.pkg.late = s.pkg.late := congrArg Prod.fst h3
  have hpoison : s3.pkg.poison = s.pkg.poison := congrArg Prod.snd h3
  split
  · exact ⟨hlate, fun x hx => hpoison ▸ (List.mem_filter.1 hx).1⟩
  · exact ⟨hlate, fun x hx => hpoison ▸ hx⟩

/-- A write that is performed changes no context's trace ring. -/
theorem State.writeNow_sameCtxs (s : State) (pa : Nat) (bs : List Byte) :
    s.SameCtxs (fun x => (x.program, x.trcBase)) (s.writeNow pa bs) := by
  unfold State.writeNow
  extract_lets s1 s2 s3
  have h1 : s1.ctxs = s.ctxs := ite_keeps State.ctxs rfl rfl
  have hmem (bytes : List (Nat × Byte)) : (s1.setMem bytes).ctxs = s1.ctxs :=
    show (s1.noteCode bytes).ctxs = _ from ite_keeps State.ctxs rfl rfl
  have h2 := (State.SameCtxs.of_eq (f := fun x => (x.program, x.trcBase)) ((hmem (bs.zipIdx.map fun p => (pa + p.2, p.1))).trans h1)).trans
    (State.deviceLine_cached _ (pa / 64) true).ctxs
  have h3 : s3.ctxs = s2.ctxs := ite_keeps State.ctxs rfl rfl
  refine h2.trans (.of_eq ?_)
  exact ite_keeps State.ctxs h3 h3

/-! A doubleword that the device reads. -/

/-- The device reads doubleword x at physical address q, unpoisoned; nothing traces, and none of its writes waits. -/
structure State.Shows (q x : Nat) (s : State) : Prop where
  mem : s.mem.wf = true
  ctxs : Sparse.wf (fun _ => Ctx.none) s.ctxs = true
  untraced : Untraced s
  late : s.pkg.late = []
  good : q / 64 ∉ s.pkg.poison
  word : s.mem.read q 8 = x

theorem Memory.read_congr {m m' : Memory} {a n : Nat} (h : ∀ i, i < n → m'.byte (a + i) = m.byte (a + i)) : m'.read a n = m.read a n := by
  rw [Memory.read, Memory.read, Memory.bytes, Memory.bytes, List.map_map, List.map_map]
  exact congrArg ofBytes (List.map_congr_left fun i hi => h i (List.mem_range.1 hi))

/-- Accesses that are quiet and poison nothing. -/
theorem State.Shows.of_quiet {q x : Nat} {s t : State} (h : s.Shows q x) (k : s.Quiet t) (hp : t.pkg.poison = s.pkg.poison) :
    t.Shows q x := by
  obtain ⟨hu, hm, hl⟩ := k.memory h.ctxs h.untraced
  exact ⟨k.traffic.mem h.mem, (k.ctxs h.ctxs).1, hu, hl.trans h.late, hp ▸ h.good, hm ▸ h.word⟩

/-- A write beside the doubleword. -/
theorem State.Shows.writeNow {q x : Nat} {s : State} (h : s.Shows q x) {pa : Nat} {bs : List Byte}
    (hd : pa + bs.length ≤ q ∨ q + 8 ≤ pa) : (s.writeNow pa bs).Shows q x := by
  obtain ⟨hl, hp⟩ := State.writeNow_pkg s pa bs
  obtain ⟨hctxs, htrace⟩ := State.writeNow_sameCtxs s pa bs h.ctxs
  refine ⟨(State.writeNow_traffic s pa bs).mem h.mem, hctxs, fun c => (congrArg Prod.snd (htrace c)).trans (h.untraced c),
    hl.trans h.late, fun hq => h.good (hp hq), ?_⟩
  rw [← h.word, State.writeNow_mem]
  refine Memory.read_congr fun i hi => ?_
  rw [Memory.byte_setBytes_run h.mem, if_neg (by omega)]

/-- Bytes that go to granules beside the doubleword, whose lines are free. -/
theorem State.Shows.putBytes {q x : Nat} {s : State} (h : s.Shows q x) (by_ : Nat → Accessor) {l : List (Nat × Nat × Nat)}
    (hfree : ∀ g ∈ l, s.owned (g.2.1 / 64) = false ∧ s.flipping g.2.1 = false) (hd : ∀ g ∈ l, g.2.1 + g.2.2 ≤ q ∨ q + 8 ≤ g.2.1)
    (bs : List Byte) : (s.putBytes by_ l bs).Shows q x := by
  induction l generalizing s bs with
  | nil => exact h
  | cons g l ih =>
    obtain ⟨va, pa, n⟩ := g
    obtain ⟨⟨ho, hf⟩, hrest⟩ := List.forall_mem_cons.1 hfree
    obtain ⟨hd0, hdrest⟩ := List.forall_mem_cons.1 hd
    let t := s.takeLine (by_ (pa / 64)) va (pa / 64)
    have k : s.Quiet t := s.takeLine_quiet _ _ _
    have ht : t.Shows q x := h.of_quiet k (State.takeLine_poison h.ctxs h.untraced _ _ _)
    have hwrite : t.deviceWrite pa (bs.take n) = t.writeNow pa (bs.take n) :=
      State.deviceWrite_now ((State.owned_of_frame k.traffic k.frame _).trans ho) ((State.flipping_of_traffic k.traffic _).trans hf)
        ht.late _
    have hlen : (bs.take n).length ≤ n := List.length_take_le ..
    have k2 : s.Traffic (t.writeNow pa (bs.take n)) := k.traffic.trans (State.writeNow_traffic _ _ _)
    have f2 : (t.writeNow pa (bs.take n)).frame = s.frame := (State.writeNow_frame _ _ _).trans k.frame
    have hput : s.putBytes by_ ((va, pa, n) :: l) bs = (t.deviceWrite pa (bs.take n)).putBytes by_ l (bs.drop n) := rfl
    rw [hput, hwrite]
    have hbeside : pa + (bs.take n).length ≤ q ∨ q + 8 ≤ pa := hd0.imp_left fun h0 => by dsimp only at h0; omega
    refine ih (ht.writeNow hbeside) (fun g hg => ?_) hdrest _
    rw [State.owned_of_frame k2 f2, State.flipping_of_traffic k2]
    exact hrest g hg

/-! The append itself. -/

/-- A QCB whose control word the device reads is open to the tenant that the word names (R78). -/
theorem State.Shows.qcb {q : Word} {x : Nat} {s : State} (h : s.Shows q.toNat x) :
    s.qopen q = openWord x ∧ s.qtenant q = tenantOf (ctxOfWord x) := by
  have hbad : s.qcbBad q = false := by
    rw [State.qcbBad, State.deviceBad, h.late]
    exact Bool.eq_false_iff.2 fun e => h.good (List.elem_iff.1 e)
  have hword : s.qword q 0 = x := by
    rw [State.qword, State.deviceMem, h.late]
    exact h.word
  rw [State.qopen, State.qtenant, State.qctx, hbad, hword]
  exact ⟨rfl, rfl⟩

/-- A job added at the end of the Loom's list, with the view of its QCB and the event that reads its record. -/
def State.addJob (s : State) (j : Job) (v : QcbView) : State :=
  (({ s with loom := { s.loom with jobs := s.loom.jobs ++ [j], seq := s.loom.seq + 1 } } : State).setView v).due
    (.loomAppendEvent j.qcb j.addr)

/-- An append that the QCB takes writes memory, and adds one job, of the record (R83). -/
theorem State.append_taken {s : State} {c : BitVec 12} {q : Word} (ho : s.qopen q = true) (ht : tenantOf c = s.qtenant q)
    (qva record : Word) (rpa origin : Nat) (cmask : BitVec 16) (hint : BitVec 9) :
    ∃ (u : State) (j : Job) (v : QcbView), s.Traffic u ∧ (s.append c q qva record rpa origin cmask hint).1 = u.addJob j v ∧
      j.addr = record ∧ j.pa = rpa ∧ j.origin = BitVec.ofNat 3 origin ∧ j.qva = qva := by
  have k : s.Traffic ((s.appendWrites c q record rpa origin cmask hint).foldl (fun s p => s.loomWrite p.1 8 p.2) (s.noteTail c q)) := by
    have htail : s.Traffic (s.noteTail c q) := by
      unfold State.noteTail
      exact .ite (.refl s) (State.noteWalk_traffic _ _ _)
    refine htail.trans (.foldl (fun t p => ?_) _ _)
    exact State.deviceWrite_traffic t p.1 (toBytes 8 p.2)
  unfold State.append
  rw [ho, ht, decide_eq_false (not_not_intro rfl), if_neg (by decide)]
  extract_lets id v u job s1 s2
  exact ⟨u, job, _, k, rfl, rfl, rfl, rfl, rfl⟩

/-- A message in the queue does not change whether an append must wait. -/
theorem State.tailBusy_enqueue (s : State) (ep : BitVec 12) (m : Message) (c : BitVec 12) (q : Word) :
    (s.enqueue ep m).tailBusy c q = s.tailBusy c q := by
  have hword (off : Nat) : (s.enqueue ep m).qword q off = s.qword q off := rfl
  have hview : (s.enqueue ep m).view q = s.view q := rfl
  have hwalk (a : Nat) : (s.enqueue ep m).walkIn c a = s.walkIn c a := rfl
  have howned (l : Nat) : (s.enqueue ep m).owned l = s.owned l := rfl
  have hflip (a : Nat) : (s.enqueue ep m).flipping a = s.flipping a := rfl
  simp only [State.tailBusy, State.tailNext, hword, hview, hwalk, howned, hflip]

/-- The control word of a QCB, with nothing that waits to be written. -/
theorem State.shows_qword {s : State} (hmem : s.mem.wf = true) (hctxs : Sparse.wf (fun _ => Ctx.none) s.ctxs = true) (hu : Untraced s)
    (hl : s.pkg.late = []) {q : Word} (hbad : s.qcbBad q = false) : s.Shows q.toNat (s.qword q 0) := by
  rw [State.qcbBad, State.deviceBad, hl] at hbad
  refine ⟨hmem, hctxs, hu, hl, fun hq => Bool.false_ne_true (hbad.symm.trans (List.elem_iff.2 hq)), ?_⟩
  rw [State.qword, State.deviceMem, hl]
  rfl

/-- An append that a message asks for, of a record beside the control word of an open QCB of its tenant, to which nothing stands in the
way (R83, R284). -/
theorem State.appendMessage_taken {s : State} {c ep : BitVec 12} {q r : Word} {data : List Byte} (hq : q.toNat % 512 = 0)
    (hr : r.toNat % 128 = 0) {qva qpa qn x : Nat} {rec1 : Nat × Nat × Nat} {more records : List (Nat × Nat × Nat)} (hlt : qpa < 2 ^ 64)
    (hrq : s.reach c .store q.toNat 256 = .found ((qva, qpa, qn) :: more))
    (hrr : s.reach c .store r.toNat 128 = .found (rec1 :: records)) (hshows : s.Shows qpa x) (hopen : openWord x = true)
    (htenant : tenantOf c = tenantOf (ctxOfWord x)) (htail : s.tailBusy c (BitVec.ofNat 64 qpa) = false)
    (hbeside : ∀ g ∈ rec1 :: records, g.2.1 + g.2.2 ≤ qpa ∨ qpa + 8 ≤ g.2.1) :
    ∃ (u : State) (j : Job) (v : QcbView), s.Traffic u ∧
      s.appendMessage c ep q r data = some ((u.addJob j v).reply (.uec ep true [])) ∧
      j.addr = r ∧ j.pa = rec1.2.1 ∧ j.origin = 1 ∧ j.qva = q := by
  have hqpa : (BitVec.ofNat 64 qpa).toNat = qpa := by rw [BitVec.toNat_ofNat, Nat.mod_eq_of_lt hlt]
  have hfound := State.reach_found hrr
  have hcached := (State.noteRange_cached s c q.toNat 256).trans (State.noteRange_cached _ c r.toNat 128)
  have htaken : (s.qopen (BitVec.ofNat 64 qpa) && decide (tenantOf c = s.qtenant (BitVec.ofNat 64 qpa))) = true := by
    obtain ⟨ho, ht⟩ := State.Shows.qcb (q := BitVec.ofNat 64 qpa) (hqpa.symm ▸ hshows)
    rw [ho, ht, Bool.and_eq_true, decide_eq_true_eq]
    exact ⟨hopen, htenant⟩
  unfold State.appendMessage
  rw [if_neg (by omega), hrq, hrr]
  dsimp -zeta only
  extract_lets qp taken s2 s3
  have htrue : taken = true := htaken
  have hs3 : s3 = s2.putBytes (contextAccessor c) (rec1 :: records) data := if_pos htrue
  have hshows3 : s3.Shows qp.toNat x := by
    rw [hs3, hqpa]
    refine (hshows.of_quiet hcached.quiet hcached.poison).putBytes _ (fun g hg => ?_) hbeside _
    rw [State.owned_of_frame hcached.quiet.traffic hcached.quiet.frame, State.flipping_of_traffic hcached.quiet.traffic]
    exact hfound g hg
  have k3 : s.Traffic s3 := by
    rw [hs3]
    exact hcached.quiet.traffic.trans (State.putBytes_traffic _ _ _ _)
  have hbusy : (taken && s.tailBusy c qp) = false := by rw [htrue, htail]; rfl
  clear_value s3
  obtain ⟨ho3, ht3⟩ := hshows3.qcb
  obtain ⟨u, j, v, k, happend, haddr, hpa, horigin, hqva⟩ :=
    State.append_taken (ho3.trans hopen) (htenant.trans ht3.symm) q r rec1.2.1 1 0xFFFF 0
  rw [hbusy, happend]
  exact ⟨u, j, v, k3.trans k, rfl, haddr, hpa, horigin, hqva⟩

end Sys2Proof.Machine

namespace Sys2Proof.Safety
open Sys2Proof Sys2Proof.Machine

/-- An append to an open QCB of the endpoint's tenant (R83, R284). -/
theorem uecAppend_spec {s : State} (hs : Canonical s) {ep c : BitVec 12} (he : s.endpoint ep = some c) (hq : s.queued ep = false)
    {q r : Word} {data : List Byte} (hd : data.length = 128) (hq0 : q.toNat % 512 = 0) (hr0 : r.toNat % 128 = 0) {qva qpa qn : Nat}
    {rec1 : Nat × Nat × Nat} {more records : List (Nat × Nat × Nat)} (hlt : qpa < 2 ^ 52)
    (hrq : s.reach c .store q.toNat 256 = .found ((qva, qpa, qn) :: more))
    (hrr : s.reach c .store r.toNat 128 = .found (rec1 :: records)) (hopen : openWord (s.qword (BitVec.ofNat 64 qpa) 0) = true)
    (htenant : tenantOf c = tenantOf (ctxOfWord (s.qword (BitVec.ofNat 64 qpa) 0))) (hbad : s.qcbBad (BitVec.ofNat 64 qpa) = false)
    (htail : s.tailBusy c (BitVec.ofNat 64 qpa) = false) (hl : s.pkg.late = [])
    (hbeside : ∀ g ∈ rec1 :: records, g.2.1 + g.2.2 ≤ qpa ∨ qpa + 8 ≤ g.2.1) (hu : Untraced s) :
    ∃ (t : State) (j : Job), exec (.uecAppend ep q r data) s = .next t ∧ t.outbox = s.outbox ++ [Reply.uec ep true []] ∧
      t.loom.jobs = s.loom.jobs ++ [j] ∧ j.addr = r ∧ j.pa = rec1.2.1 ∧ j.origin = 1 ∧ j.qva = q := by
  obtain ⟨hmem, -, -, -, -, -, -, -, hctxs, -⟩ := hs
  have hlt64 : qpa < 2 ^ 64 := by omega
  have hqpa : (BitVec.ofNat 64 qpa).toNat = qpa := by rw [BitVec.toNat_ofNat, Nat.mod_eq_of_lt hlt64]
  have hshows : (s.enqueue ep (.append q r data)).Shows qpa (s.qword (BitVec.ofNat 64 qpa) 0) := by
    have hshows := State.shows_qword hmem hctxs hu hl hbad
    rw [hqpa] at hshows
    obtain ⟨a, b, d, e, f, g⟩ := hshows
    exact ⟨a, b, d, e, f, g⟩
  have hidle := (State.tailBusy_enqueue s ep (.append q r data) c (BitVec.ofNat 64 qpa)).trans htail
  obtain ⟨u, j, v, k, hp, haddr, hpa, horigin, hqva⟩ := State.appendMessage_taken (ep := ep) (data := data) hq0 hr0 hlt64
    ((State.reach_enqueue s ep _ _ _ _ _).trans hrq) ((State.reach_enqueue s ep _ _ _ _ _).trans hrr) hshows hopen htenant hidle hbeside
  have houtbox : u.outbox = s.outbox := k.outbox
  have hloom : u.loom = s.loom := k.loom
  have hin : (u.addJob j v).pkg.inbox = (s.enqueue ep (.append q r data)).pkg.inbox := k.pkg.inbox
  have hexec := exec_first he hq (exec_uecAppend hd ep q r s) hp hin
  refine ⟨_, j, hexec, congrArg (· ++ _) houtbox, ?_, haddr, hpa, horigin, hqva⟩
  exact congrArg (fun x : Loom => x.jobs ++ [j]) hloom

end Sys2Proof.Safety

namespace Sys2Proof.Safety
open Sys2Proof Sys2Proof.Machine

/-- Settles O51: what becomes of a message in the queue by `drops_of_exec`, `waits_behind` and `answers_spdm`, its accesses and those of
the host by the lemmas of their names. -/
theorem messages : Obligations.Messages := by
  intro s ep q r a n data code slot index x y nonce pa k hs drops answers
  have hdrops {i : Instr} (hi : exec i s = .next (s.dropMessage ep)) : drops i := drops_of_exec hs hi
  refine ⟨hdrops rfl, fun h => hdrops (exec_uecWrite_dropped h ep a s), fun h => hdrops (exec_uecRead_dropped h ep a s), ?_, ?_, ?_,
    fun hd => ⟨cxlHostWrite_spec hs hd, cxlHostRead_spec hs hd, cxlHostRead_poisoned hd⟩, fun hd => cxlHost_dead hd pa data k⟩
  · intro he
    have hunbound {i : Instr} {m : Message} (hi : exec i s = .next (s.deliver ep m)) : drops i :=
      hdrops (hi.trans (congrArg _ (State.deliver_unbound he m)))
    refine ⟨?_, ?_, fun hd => hunbound (exec_uecAppend hd ep q r s), hunbound rfl, fun p hp => ?_⟩
    · by_cases hd : data.length = 0 ∨ 4096 < data.length
      · exact hdrops (exec_uecWrite_dropped hd ep a s)
      · exact hunbound (exec_uecWrite (by omega) (by omega) ep a s)
    · by_cases hn : n = 0 ∨ 4096 < n.toNat
      · exact hdrops (exec_uecRead_dropped hn ep a s)
      · rw [not_or, Nat.not_lt] at hn
        exact hunbound (exec_uecRead hn.1 hn.2 ep a s)
    · obtain ⟨r, hexec, -⟩ := exec_spdmRequests hp
      exact hunbound (hexec s)
  · intro c he hq hd hn hn1 p hp
    exact waits_behind he hq (exec_delivers hd hn hn1 hp)
  · intro c he hq
    have hanswers {i : Instr} {m : Spdm} (hi : exec i s = .next (s.deliver ep (.spdm m))) {b : Byte} {ok : List Byte → Prop}
        (hb : ((s.enqueue ep (.spdm m)).spdmAnswer c m).1 = b) (hok : ok ((s.enqueue ep (.spdm m)).spdmAnswer c m).2) :
        answers i b ok := answers_spdm he hq hi hb hok
    refine ⟨fun p hp => ?_, hanswers rfl rfl rfl, hanswers (m := .algorithms) rfl rfl (spdmAlgorithms_names _), hanswers rfl rfl ?_,
      hanswers rfl rfl rfl, fun hslot => ?_, fun h0 h1 va p hr => uecWrite_spec hs he hq h0 h1 hr,
      fun h0 h1 l hr hgood => uecRead_spec hs he hq h0 h1 hr hgood, fun hd hn => uecAppend_misaligned he hq hd hn, ?_⟩
    · obtain ⟨m, hexec, hcode⟩ := exec_spdmRequests hp
      exact hanswers (hexec s) (hcode _ c) trivial
    · exact List.take_left' (length_toBytes 64 _)
    · have hother {m : Spdm} (hm : ∀ u : State, u.spdmAnswer c m = (0x7F, [0x07])) {i : Instr}
          (hi : exec i s = .next (s.deliver ep (.spdm m))) : answers i 0x7F (fun b => b = [0x07]) :=
        hanswers hi (congrArg Prod.fst (hm _)) (congrArg Prod.snd (hm _))
      exact ⟨hother (m := .digests slot) (fun _ => if_neg hslot) rfl, hother (m := .certificate slot) (fun _ => if_neg hslot) rfl,
        hother (m := .challenge slot) (fun _ => if_neg hslot) rfl⟩
    · intro hd hq0 hr0 qva qpa qn rec1 more records hlt hrq hrr hopen htenant hbad htail hl hbeside hu
      exact uecAppend_spec hs he hq hd hq0 hr0 hlt hrq hrr hopen htenant hbad htail hl hbeside hu

end Sys2Proof.Safety

/-! What an access of a hart outside regions does beside reading and writing its bytes (R163, R182, R197, R317, R321): its walks, what it
meets at the caches, and the regions of others that it aborts. -/

namespace Sys2Proof.Machine
open Sys2Proof.Safety (Untraced Canonical Keeps StoredNothing accessEffects)

/-! Slice logs and the caches. -/

theorem State.slog_quiet (s : State) (h : Hart) (e va ev sl : Nat) : s.Quiet (s.slog h e va ev sl) := by
  unfold State.slog
  exact .ite (State.trace_quiet _ _ _ _ _ _) (.refl _)

theorem State.logMet_quiet (s t : State) (h : Hart) (e va l : Nat) (m : Met) : t.Quiet (s.logMet t h e va l m) := by
  unfold State.logMet
  extract_lets s1 s2 s3
  have h1 : t.Quiet s1 := .ite (State.slog_quiet _ _ _ _ _ _) (.refl _)
  have h2 : t.Quiet s2 := .ite h1 (h1.trans (State.slog_quiet _ _ _ _ _ _))
  have h3 : t.Quiet s3 := .ite ((h2.trans (Cached.count _ _ _ _ _).quiet).trans (State.slog_quiet _ _ _ _ _ _)) h2
  exact h3.trans (.foldl (fun _ _ => State.slog_quiet _ _ _ _ _ _) _ _)

theorem State.readAt_quiet (s : State) (e va l m : Nat) : s.Quiet (s.readAt e va l m) :=
  (State.readLine_cached s _ va l m _).quiet.trans (State.logMet_quiet _ _ _ _ _ _ _)

theorem State.writeAt_quiet (s : State) (e va l m : Nat) (c : Option Claim) : s.Quiet (s.writeAt e va l m c) :=
  (State.writeLine_cached s _ va l m _).quiet.trans (State.logMet_quiet _ _ _ _ _ _ _)

/-- A translation kept touches the translation buffers only. -/
theorem State.keepTranslation_quiet (s : State) (h : Hart) (va : Nat) : s.Quiet (s.keepTranslation h va) := by
  have hkeep (x : List Translation) : s.Quiet (s.onPkg fun p => { p with tlb := x }) :=
    ⟨.onPkg _ _ rfl, rfl, rfl, .of_eq rfl, fun _ hu => ⟨hu, rfl, rfl⟩⟩
  unfold State.keepTranslation
  split
  · exact .ite (hkeep _) (.refl _)
  · exact .refl _

/-! Outside regions nothing is lost, and it stays so. -/

theorem State.Quiet.region {s t : State} (q : s.Quiet t) (hr : s.hart.region = none) : t.hart.region = none :=
  (q.traffic.hart hr).region.trans hr

theorem State.lost_of_none {s : State} (hr : s.hart.region = none) (t : State) : s.lost t = false := by simp [State.lost, hr]

/-- A fold of steps that are quiet outside regions. -/
theorem State.Quiet.foldl_outside {α : Type} {f : State → α → State} (hf : ∀ (t : State) (a : α), t.hart.region = none → t.Quiet (f t a))
    (l : List α) {s : State} (hr : s.hart.region = none) : s.Quiet (l.foldl f s) := by
  induction l generalizing s with
  | nil => exact .refl s
  | cons a l ih => exact (hf s a hr).trans (ih ((hf s a hr).region hr))

theorem State.meetRegions_quiet {s : State} (hr : s.hart.region = none) (w r : Bool) (ps : List (Nat × Nat × Nat)) :
    s.Quiet (s.meetRegions w r ps) := by
  simp only [State.meetRegions, hr, Option.isSome_none, Bool.false_eq_true, if_false]
  exact .foldl (fun _ _ => State.outside_quiet _ _ _) _ _

theorem State.noteEntries_quiet {s : State} (hr : s.hart.region = none) (e : Nat) (as : List Nat) : s.Quiet (s.noteEntries e as) := by
  refine .foldl_outside (fun t a ht => ?_) as hr
  have h := State.meetRegions_quiet ht false true [(noAddress, a, 8)]
  exact .ite (.refl _) (.ite h (h.trans (State.readAt_quiet _ _ _ _ _)))

theorem State.walkOnce_quiet {s : State} (hr : s.hart.region = none) (e va : Nat) : s.Quiet (s.walkOnce e va) := by
  have h := State.noteEntries_quiet hr e (s.walkReads s.hart va)
  exact .ite h (h.trans (State.keepTranslation_quiet _ _ _))

theorem State.walkAll_quiet {s : State} (hr : s.hart.region = none) (e : Nat) (vas : List Nat) : s.Quiet (s.walkAll e vas) :=
  .foldl_outside (fun _ _ ht => .ite (.refl _) (State.walkOnce_quiet ht _ _)) _ hr

theorem State.noteAccess_quiet {s : State} (hr : s.hart.region = none) (e : Nat) (w r : Bool) (c : Option Claim) (ps : List Piece) :
    s.Quiet (s.noteAccess e w r c ps) := by
  unfold State.noteAccess
  extract_lets parts s1 s2
  have h1 : s.Quiet s1 := State.walkAll_quiet hr _ _
  have h2 : s.Quiet s2 := by
    refine (h1.trans (State.meetRegions_quiet (h1.region hr) w r parts)).trans ?_
    simp only [s2, State.logNarrows, h1.region hr, Option.isNone_none, if_true]
    exact .refl _
  refine .ite h1 (.ite h2 (h2.trans (.foldl (fun _ _ => ?_) _ _)))
  exact .ite (State.writeAt_quiet _ _ _ _ _ _) (State.readAt_quiet _ _ _ _ _)

theorem State.noteReads_quiet {s : State} (hr : s.hart.region = none) (e : Nat) (ps : List Piece) : s.Quiet (s.noteReads e ps) :=
  State.noteAccess_quiet hr _ _ _ _ _

/-! What that says of the parts of the machine. -/

theorem State.Quiet.canonical {s t : State} (q : s.Quiet t) (hs : Canonical s) : Canonical t := Safety.canonical_traffic q.traffic hs

theorem ctxs_wf_of_canonical {s : State} (hs : Canonical s) : Sparse.wf (fun _ => Ctx.none) s.ctxs = true := by
  obtain ⟨_, _, _, _, _, _, _, _, h, _⟩ := hs
  exact h

theorem State.Quiet.storedNothing {s t : State} (q : s.Quiet t) (hs : Canonical s) : StoredNothing s t :=
  ⟨fun hu => (q.memory (ctxs_wf_of_canonical hs) hu).2.1, q.lstore⟩

end Sys2Proof.Machine

namespace Sys2Proof.Safety
open Sys2Proof.Machine

theorem keeps_quiet {s t : State} (q : s.Quiet t) (hr : s.hart.region = none) : Keeps accessEffects s t := by
  obtain ⟨r, hhart⟩ := q.traffic.hart hr
  have hstill := q.traffic.still
  simp only [State.still, Prod.mk.injEq] at hstill
  intro p hp
  cases p
  case package => exact q.traffic.pkg
  case localStore => exact q.lstore
  all_goals simp [accessEffects, traceEffects] at hp
  all_goals simp [Agree, hstill, hhart]

end Sys2Proof.Safety

/-! Where the bytes of an access lie (R136, R274): a translation keeps the place within a 64-byte block, so the pieces of one access lie
apart. -/

namespace Sys2Proof.Machine
open Sys2Proof.Safety (covers coversLocal)

/-! A walk keeps the low bits of its address. -/

theorem leaf_mod {level e pa rwx : Nat} (h : readEntry level e = .leaf pa rwx) : pa % 64 = 0 := by
  unfold readEntry at h
  extract_lets pa' at h
  have hpa : pa' % 64 = 0 := by
    show (bits e 51 12 <<< 12) % 64 = 0
    rw [Nat.shiftLeft_eq]
    omega
  split at h
  · cases h
  · split at h
    · split at h
      · cases h
      · injection h with e
        exact e ▸ hpa
    · split at h <;> cases h

theorem mod_pow_mod_64 {n : Nat} (hn : 6 ≤ n) (va : Nat) : va % 2 ^ n % 64 = va % 64 :=
  Nat.mod_mod_of_dvd va (pow_dvd_pow 2 hn : 2 ^ 6 ∣ 2 ^ n)

theorem walkLeaf_mod {rd : Nat → Nat} {stops : Nat → Option Walk} (hs : noPage stops) {va a pa rwx : Nat}
    (h : walkLeaf rd stops va a = .page pa rwx) : pa % 64 = va % 64 := by
  have h12 := mod_pow_mod_64 (n := 12) (by omega) va
  have h16 := mod_pow_mod_64 (n := 16) (by omega) va
  unfold walkLeaf at h
  split at h
  next w hw => exact absurd h (hs _ _ hw _ _)
  next =>
    split at h
    next pa' rwx' he =>
      have hpa := leaf_mod he
      split at h
      · cases h
        omega
      · split at h
        next w _ hw => exact absurd h (hs _ _ hw _ _)
        next w _ hw => exact absurd h (hs _ _ hw _ _)
        next =>
          split at h
          · cases h
            omega
          · split at h
            · cases h
            · cases h
              omega
    next => cases h

theorem walkFrom_mod {rd : Nat → Nat} {stops : Nat → Option Walk} (hs : noPage stops) {va pa rwx : Nat} {level table : Nat}
    (h : walkFrom rd stops va level table = .page pa rwx) : pa % 64 = va % 64 := by
  induction level generalizing table with
  | zero => exact walkLeaf_mod hs h
  | succ level ih =>
    unfold walkFrom at h
    dsimp only at h
    split at h
    next w hw => exact absurd h (hs _ _ hw _ _)
    next =>
      split at h
      · cases h
      next pa' rwx' he =>
        have hpa := leaf_mod he
        have hva := mod_pow_mod_64 (n := 12 + 9 * (level + 1)) (by omega) va
        cases h
        omega
      next => exact ih h

theorem State.walkWith_mod {s : State} {rd : Nat → Nat} {c : BitVec 12} {va pa rwx : Nat} (h : s.walkWith rd c va = .page pa rwx) :
    pa % 64 = va % 64 := by
  unfold State.walkWith at h
  extract_lets root stops at h
  split at h
  · cases h
  · rw [← mod_pow_mod_64 (n := 48) (by omega) va]
    refine walkFrom_mod (fun a w hw => ?_) h
    have hw : (if s.owned (a / 64) || s.flipping a then some Walk.wait else if s.poisoned a then some .poison else none) = some w := hw
    split at hw
    · cases hw
      exact fun _ _ e => by cases e
    · split at hw
      · cases hw
        exact fun _ _ e => by cases e
      · cases hw

theorem State.walkFor_mod {s : State} {h : Hart} {va pa rwx : Nat} (hw : s.walkFor h va = .page pa rwx) : pa % 64 = va % 64 := by
  unfold State.walkFor State.translation at hw
  cases ht : s.pkg.tlb.find? fun t => t.serves h va with
  | none =>
    rw [ht] at hw
    exact State.walkWith_mod hw
  | some t =>
    rw [ht] at hw
    cases hw
    omega

/-! Bytes of physical memory and of the local stores alike. -/

/-- The byte at a place. -/
def State.byteAt (s : State) : Place → Byte
  | .mem pa => s.mem.byte pa
  | .store k => s.lstore.byte k

/-- The place j bytes on. -/
def Place.shift : Place → Nat → Place
  | .mem pa, j => .mem (pa + j)
  | .store k, j => .store (k + j)

/-- The number of a place within its 64-byte block. -/
def Place.low : Place → Nat
  | .mem pa => pa % 64
  | .store k => k % 64

/-- A piece of an access holds the byte at a place. -/
def Piece.Reaches (p : Piece) (x : Place) : Prop := ∃ j, j < p.len ∧ x = p.place.shift j

theorem covers_iff {ps : List Piece} {a : Nat} : covers ps a ↔ ∃ p ∈ ps, p.Reaches (.mem a) := by
  refine ⟨fun ⟨p, hp, pa, hpa, h1, h2⟩ => ⟨p, hp, a - pa, by omega, ?_⟩, fun ⟨p, hp, j, hj, hx⟩ => ?_⟩
  · rw [hpa, Place.shift]
    congr 1
    omega
  · cases hpl : p.place with
    | mem pa =>
      rw [hpl, Place.shift, Place.mem.injEq] at hx
      exact ⟨p, hp, pa, hpl, by omega, by omega⟩
    | store k => simp [hpl, Place.shift] at hx

theorem coversLocal_iff {ps : List Piece} {a : Nat} : coversLocal ps a ↔ ∃ p ∈ ps, p.Reaches (.store a) := by
  refine ⟨fun ⟨p, hp, k, hk, h1, h2⟩ => ⟨p, hp, a - k, by omega, ?_⟩, fun ⟨p, hp, j, hj, hx⟩ => ?_⟩
  · rw [hk, Place.shift]
    congr 1
    omega
  · cases hpl : p.place with
    | mem pa => simp [hpl, Place.shift] at hx
    | store k =>
      rw [hpl, Place.shift, Place.store.injEq] at hx
      exact ⟨p, hp, k, hpl, by omega, by omega⟩

/-! Where a piece lies. -/

/-- A place that passes the checks lies where its address lies within the block. -/
theorem State.place_low {s : State} {h : Hart} {window : Bool} {p : Perm} {va n : Nat} {x : Place} (hx : s.place h window p va n = .ok x) :
    x.low = va % 64 := by
  unfold State.place at hx
  split at hx
  next hw =>
    split at hx
    · dsimp only at hx
      split at hx
      · cases hx
      · split at hx
        · cases hx
        · cases hx
          simp only [inWindow, Bool.and_eq_true, decide_eq_true_eq] at hw
          have hbase := hw.1
          show storeKey h.id (va - windowBase) % 64 = va % 64
          simp only [storeKey, windowBase] at hbase ⊢
          omega
    · cases hx
  next =>
    split at hx
    · cases hx
    · split at hx
      · cases hx
      · cases hx
      · cases hx
      next pa rwx hw =>
        repeat
          split at hx
          · cases hx
        cases hx
        exact State.walkFor_mod hw

/-- Two pieces have no byte in common. -/
def Piece.Apart (p q : Piece) : Prop := ∀ x, ¬ (p.Reaches x ∧ q.Reaches x)

/-- The pieces of an access of at most 64 bytes lie apart, each within its block. -/
theorem State.pieces_apart {s : State} {h : Hart} {window : Bool} {p : Perm} {va n : Nat} {ps : List Piece} (hn : n ≤ 64)
    (hp : s.pieces h window p va n = .ok ps) : ps.Pairwise Piece.Apart := by
  unfold State.pieces at hp
  extract_lets k at hp
  split at hp
  · cases hx : s.place h window p va n with
    | error e => simp [hx, Except.map] at hp
    | ok x =>
      simp only [hx, Except.map, Except.ok.injEq] at hp
      subst hp
      simp
  · split at hp
    next x y hx hy =>
      cases hp
      have hlow := State.place_low hx
      have hnext := State.place_low hy
      simp only [List.pairwise_cons, List.mem_singleton, forall_eq, List.not_mem_nil, false_imp_iff, implies_true, List.Pairwise.nil,
        and_true]
      rintro z ⟨⟨i, hi, rfl⟩, j, hj, hz⟩
      cases x <;> cases y <;> simp only [Place.shift, Place.low, Place.mem.injEq, Place.store.injEq, reduceCtorEq] at hz hlow hnext
      all_goals
        dsimp only at hi hj
        omega
    all_goals cases hp

end Sys2Proof.Machine

/-! Stores performed (R43, R136, R144): what each byte of memory and of the local stores holds after stores in order. -/

namespace Sys2Proof.Machine
open Sys2Proof.Safety (Untraced Canonical Stored StoredInOrder covers coversLocal)

/-- A byte on which trace records have no bearing: one of the local stores, or any where nothing traces (R317). -/
def State.Sure (s : State) : Place → Prop
  | .mem _ => Untraced s
  | .store _ => True

/-- Every byte after some writes in order, each of a number at a piece: that of the last write that reaches it, or what it was. -/
def State.Writes (s t : State) (ws : List (Piece × Nat)) : Prop :=
  (∀ x, s.Sure x → (∀ w ∈ ws, ¬ w.1.Reaches x) → t.byteAt x = s.byteAt x) ∧
  ∀ before w after, ws = before ++ w :: after → ∀ j, j < w.1.len → s.Sure (w.1.place.shift j) →
    (∀ r ∈ after, ¬ r.1.Reaches (w.1.place.shift j)) →
    t.byteAt (w.1.place.shift j) = BitVec.ofNat 8 (w.2 / 2 ^ (8 * (w.1.at_ + j)))

/-- What performing stores does from s to t: traffic to memory that traces nothing by itself, and the writes. -/
structure State.Performs (s t : State) (ws : List (Piece × Nat)) : Prop where
  traffic : s.Traffic t
  untraced : Canonical s → Untraced s → Untraced t
  bytes : Canonical s → s.Writes t ws

theorem State.Sure.mono {s t : State} (h : Untraced s → Untraced t) {x : Place} (hx : s.Sure x) : t.Sure x := by
  cases x with
  | mem pa => exact h hx
  | store k => trivial

namespace State.Performs

variable {s t u : State} {ws zs : List (Piece × Nat)}

/-- Quiet accesses write nothing. -/
theorem of_quiet (q : s.Quiet t) : s.Performs t [] where
  traffic := q.traffic
  untraced hs hu := (q.memory (ctxs_wf_of_canonical hs) hu).1
  bytes hs := ⟨fun x hx _ => by
    cases x with
    | mem pa => exact congrArg (Memory.byte · pa) (q.memory (ctxs_wf_of_canonical hs) hx).2.1
    | store k => exact congrArg (Memory.byte · k) q.lstore, fun before w after h => by simp at h⟩

theorem refl (s : State) : s.Performs s [] := of_quiet (.refl s)

theorem canonical (h : s.Performs t ws) (hs : Canonical s) : Canonical t := Safety.canonical_traffic h.traffic hs

theorem region (h : s.Performs t ws) (hr : s.hart.region = none) : t.hart.region = none := (h.traffic.hart hr).region.trans hr

theorem trans (h : s.Performs t ws) (k : t.Performs u zs) : s.Performs u (ws ++ zs) where
  traffic := h.traffic.trans k.traffic
  untraced hs hu := k.untraced (h.canonical hs) (h.untraced hs hu)
  bytes hs := by
    obtain ⟨hother, hlast⟩ := h.bytes hs
    obtain ⟨kother, klast⟩ := k.bytes (h.canonical hs)
    have hsure {x : Place} (hx : s.Sure x) : t.Sure x := hx.mono (h.untraced hs)
    refine ⟨fun x hx hw => ?_, fun before w after e j hj hx hw => ?_⟩
    · rw [kother x (hsure hx) fun w hm => hw w (List.mem_append_right _ hm), hother x hx fun w hm => hw w (List.mem_append_left _ hm)]
    · rcases List.append_eq_append_iff.1 e with ⟨mid, rfl, rfl⟩ | ⟨mid, rfl, he⟩
      · exact klast mid w after rfl j hj (hsure hx) hw
      · cases mid with
        | nil => exact klast [] w after he.symm j hj (hsure hx) hw
        | cons m mid =>
          simp only [List.cons_append, List.cons.injEq] at he
          obtain ⟨rfl, rfl⟩ := he
          rw [kother _ (hsure hx) fun r hm => hw r (List.mem_append_right _ hm)]
          exact hlast before w mid rfl j hj hx fun r hm => hw r (List.mem_append_left _ hm)

/-- A fold of steps that perform writes. -/
theorem foldl {α : Type} {f : State → α → State} {g : α → List (Piece × Nat)}
    (hf : ∀ (t : State) (a : α), t.hart.region = none → t.Performs (f t a) (g a)) (l : List α) (hr : s.hart.region = none) :
    s.Performs (l.foldl f s) (l.flatMap g) := by
  induction l generalizing s with
  | nil => exact refl s
  | cons a l ih => exact (hf s a hr).trans (ih ((hf s a hr).region hr))

end State.Performs

/-! One piece. -/

theorem bits_div_pow {x lo n j : Nat} (hj : j < n) :
    BitVec.ofNat 8 (bits x (8 * (lo + n) - 1) (8 * lo) / 2 ^ (8 * j)) = BitVec.ofNat 8 (x / 2 ^ (8 * (lo + j))) := by
  have hw : 8 * (lo + n) - 1 + 1 - 8 * lo = 8 * j + 8 * (n - j) := by omega
  have he : 8 * (n - j) = 8 + 8 * (n - j - 1) := by omega
  apply BitVec.eq_of_toNat_eq
  rw [BitVec.toNat_ofNat, BitVec.toNat_ofNat, bits, Nat.shiftRight_eq_div_pow, hw, pow_add, Nat.mod_mul_right_div_self,
    Nat.div_div_eq_div_mul, ← pow_add, ← Nat.mul_add, he, pow_add]
  exact Nat.mod_mul_right_mod _ _ _

theorem State.clearReservations_byteAt (s : State) (b : Nat) (x : Place) : (s.clearReservations b).byteAt x = s.byteAt x := by
  have h : (s.clearReservations b).mem = s.mem ∧ (s.clearReservations b).lstore = s.lstore := by
    unfold State.clearReservations
    split <;> exact ⟨rfl, rfl⟩
  cases x <;> simp only [State.byteAt, h]

/-- The bytes of a piece written outside regions. -/
theorem State.byteAt_putPiece {s : State} (hs : Canonical s) (hr : s.hart.region = none) (c : Option Claim) (x : Nat) (p : Piece) :
    (∀ y, ¬ p.Reaches y → (s.putPiece c x p).byteAt y = s.byteAt y) ∧
      ∀ j, j < p.len → (s.putPiece c x p).byteAt (p.place.shift j) = BitVec.ofNat 8 (x / 2 ^ (8 * (p.at_ + j))) := by
  obtain ⟨va, place, n, lo⟩ := p
  simp only [State.putPiece, hr, Option.isSome_none, Bool.false_eq_true, if_false]
  cases place with
  | mem pa =>
    have hmem (y : Nat) := Memory.byte_write hs.1 pa n (bits x (8 * (lo + n) - 1) (8 * lo)) y
    refine ⟨fun y hy => ?_, fun j hj => ?_⟩
    · rw [State.clearReservations_byteAt]
      cases y with
      | store k => exact congrArg (Memory.byte · k) (State.setMem_frame s _ |> fun h => congrArg (·.2.2.1) h)
      | mem a =>
        rw [State.byteAt, State.setMem_mem]
        refine (hmem a).trans (if_neg fun ⟨h1, h2⟩ => hy ⟨a - pa, by dsimp only; omega, ?_⟩)
        rw [Place.shift]
        congr 1
        omega
    · rw [State.clearReservations_byteAt, Place.shift, State.byteAt, State.setMem_mem]
      refine (hmem _).trans ((if_pos (by omega)).trans ?_)
      rw [Nat.add_sub_cancel_left]
      exact bits_div_pow hj
  | store k =>
    have hmem (y : Nat) := Memory.byte_write hs.2.1 k n (bits x (8 * (lo + n) - 1) (8 * lo)) y
    refine ⟨fun y hy => ?_, fun j hj => ?_⟩
    · rw [State.clearReservations_byteAt]
      cases y with
      | mem a => rfl
      | store a =>
        refine (hmem a).trans (if_neg fun ⟨h1, h2⟩ => hy ⟨a - k, by dsimp only; omega, ?_⟩)
        rw [Place.shift]
        congr 1
        omega
    · rw [State.clearReservations_byteAt, Place.shift]
      refine (hmem _).trans ((if_pos (by omega)).trans ?_)
      rw [Nat.add_sub_cancel_left]
      exact bits_div_pow hj

theorem State.putPiece_ctxs {s : State} (hr : s.hart.region = none) (c : Option Claim) (x : Nat) (p : Piece) :
    (s.putPiece c x p).ctxs = s.ctxs := by
  have hclear (t : State) (b : Nat) : (t.clearReservations b).ctxs = t.ctxs := by
    unfold State.clearReservations
    split <;> rfl
  have hset (bs : List (Nat × Byte)) : (s.setMem bs).ctxs = s.ctxs := ite_keeps State.ctxs rfl rfl
  simp only [State.putPiece, hr, Option.isSome_none, Bool.false_eq_true, if_false]
  split
  · exact hclear _ _
  · exact (hclear _ _).trans (hset _)

theorem State.putPiece_performs {s : State} (hr : s.hart.region = none) (c : Option Claim) (x : Nat) (p : Piece) :
    s.Performs (s.putPiece c x p) [(p, x)] where
  traffic := State.putPiece_traffic s c x p
  untraced _ hu k := by
    have h : (s.putPiece c x p).ctx k = s.ctx k := congrArg (Sparse.get _ · k.toNat) (State.putPiece_ctxs hr c x p)
    rw [h]
    exact hu k
  bytes hs := by
    obtain ⟨hother, hself⟩ := State.byteAt_putPiece hs hr c x p
    refine ⟨fun y _ hy => hother y (hy (p, x) (List.mem_singleton.2 rfl)), fun before w after e j hj _ _ => ?_⟩
    cases before with
    | nil =>
      cases e
      exact hself j hj
    | cons b before => simp at e

/-- A store outside regions: its access, then its bytes (R136). -/
theorem State.poke_performs {s : State} (hr : s.hart.region = none) (e : Nat) (read : Bool) (c : Option Claim) (x : Nat) (ps : List Piece) :
    s.Performs (s.poke e read c x ps) (ps.map (·, x)) := by
  have q := State.noteAccess_quiet hr e true read c ps
  have hput := State.Performs.foldl (fun t p ht => State.putPiece_performs ht c x p) ps (q.region hr)
  rw [← List.map_eq_flatMap] at hput
  simp only [State.poke, State.lost_of_none hr, Bool.false_eq_true, if_false]
  exact (State.Performs.of_quiet q).trans hput

/-! What the statements say of stores. -/

/-- A later piece of the same access leaves the bytes of an earlier one alone. -/
theorem not_reaches_of_apart {ps before after : List Piece} {p : Piece} (h : ps.Pairwise Piece.Apart) (e : ps = before ++ p :: after)
    {j : Nat} (hj : j < p.len) : ∀ r ∈ after, ¬ r.Reaches (p.place.shift j) := by
  subst e
  intro r hr hreach
  exact (List.pairwise_cons.1 (List.pairwise_append.1 h).2.1).1 r hr _ ⟨⟨j, hj, rfl⟩, hreach⟩

theorem State.Performs.storedInOrder {s t : State} {l : List (List Piece × Nat)}
    (h : s.Performs t (l.flatMap fun q => q.1.map (·, q.2))) (hs : Canonical s) (ha : ∀ q ∈ l, q.1.Pairwise Piece.Apart) :
    StoredInOrder s t l := by
  obtain ⟨hother, hlast⟩ := h.bytes hs
  have hnone {x : Place} (hx : ∀ q ∈ l, ¬ ∃ p ∈ q.1, p.Reaches x) :
      ∀ w ∈ l.flatMap fun q => q.1.map fun p => (p, q.2), ¬ w.1.Reaches x := by
    intro w hw hreach
    obtain ⟨q, hq, hw⟩ := List.mem_flatMap.1 hw
    obtain ⟨p, hp, rfl⟩ := List.mem_map.1 hw
    exact hx q hq ⟨p, hp, hreach⟩
  refine ⟨fun hu a hc => ?_, fun a hc => ?_, fun before q after e p hp j hj => ?_⟩
  · exact hother (.mem a) hu (hnone fun q hq hx => hc q hq (covers_iff.2 hx))
  · exact hother (.store a) trivial (hnone fun q hq hx => hc q hq (coversLocal_iff.2 hx))
  · obtain ⟨first, rest, hq⟩ := List.append_of_mem hp
    have hsplit : (l.flatMap fun q => q.1.map fun p => (p, q.2)) =
        (before.flatMap (fun q => q.1.map fun p => (p, q.2)) ++ first.map (·, q.2)) ++
          (p, q.2) :: (rest.map (·, q.2) ++ after.flatMap fun q => q.1.map fun p => (p, q.2)) := by
      rw [e, List.flatMap_append, List.flatMap_cons, hq]
      simp only [List.map_append, List.map_cons, List.append_assoc, List.cons_append]
    have hwithin := not_reaches_of_apart (ha q (e ▸ List.mem_append_right _ List.mem_cons_self)) hq hj
    have hfree (hx : ∀ r ∈ after, ¬ ∃ p' ∈ r.1, p'.Reaches (p.place.shift j)) :
        ∀ r ∈ rest.map (·, q.2) ++ after.flatMap (fun q => q.1.map fun p => (p, q.2)), ¬ r.1.Reaches (p.place.shift j) := by
      intro r hr hreach
      rcases List.mem_append.1 hr with hr | hr
      · obtain ⟨p', hp', rfl⟩ := List.mem_map.1 hr
        exact hwithin p' hp' hreach
      · obtain ⟨q', hq', hr⟩ := List.mem_flatMap.1 hr
        obtain ⟨p', hp', rfl⟩ := List.mem_map.1 hr
        exact hx q' hq' ⟨p', hp', hreach⟩
    have hbyte := hlast _ (p, q.2) _ hsplit j hj
    cases hpl : p.place with
    | mem pa =>
      intro hu hc
      rw [hpl] at hbyte hfree
      exact hbyte hu (hfree fun r hr hx => hc r hr (covers_iff.2 hx))
    | store k =>
      intro hc
      rw [hpl] at hbyte hfree
      exact hbyte trivial (hfree fun r hr hx => hc r hr (coversLocal_iff.2 hx))

/-- One store whose pieces lie apart. -/
theorem State.Performs.stored {s t : State} {ps : List Piece} {x : Nat} (h : s.Performs t (ps.map (·, x))) (hs : Canonical s)
    (ha : ps.Pairwise Piece.Apart) : Stored s t ps x := by
  have h1 : s.Performs t (([(ps, x)] : List (List Piece × Nat)).flatMap fun q => q.1.map (·, q.2)) := by
    simpa only [List.flatMap_cons, List.flatMap_nil, List.append_nil] using h
  obtain ⟨hmem, hlocal, hlast⟩ := h1.storedInOrder hs fun q hq => List.mem_singleton.1 hq ▸ ha
  refine ⟨fun hu a hc => hmem hu a fun q hq => List.mem_singleton.1 hq ▸ hc, fun a hc => hlocal a fun q hq => List.mem_singleton.1 hq ▸ hc,
    fun p hp j hj => ?_⟩
  have hbyte := hlast [] (ps, x) [] rfl p hp j hj
  split at hbyte <;> simp_all

end Sys2Proof.Machine

/-! Scalar loads, stores and atomics (R140 to R142). -/

namespace Sys2Proof.Machine

/-! Addresses, and accesses that pass their checks. -/

theorem State.offsetAddr_eq (s : State) (b : BitVec 5) (i : BitVec 7) (n : Nat) :
    s.offsetAddr b i n = (BitVec.ofInt 64 ((s.rs b).toInt + i.toInt * n)).toNat := by
  have h : i.signExtend 64 * BitVec.ofNat 64 n = BitVec.ofInt 64 (i.toInt * n) := by
    rw [BitVec.ofInt_mul, BitVec.ofInt_natCast]
    rfl
  rw [State.offsetAddr, h, BitVec.ofInt_add, BitVec.ofInt_toInt]

theorem State.shortAddr_eq (s : State) (r k : BitVec 3) :
    s.shortAddr r k = (s.rs (BitVec.ofNat 5 (8 + r.toNat)) + BitVec.ofNat 64 (8 * k.toNat)).toNat := by
  rw [State.shortAddr, shortReg_eq]

/-- An access that is aligned, or need not be, and whose bytes pass their checks is performed, outside regions. -/
theorem State.access_ok {s : State} (hr : s.hart.region = none) {p : Perm} {aligned : Bool} {va n : Nat} {ps : List Piece}
    (ha : aligned = true → va % n = 0) (hp : s.pieces s.hart true p va n = .ok ps) (k : List Piece → Res) :
    s.access p aligned va n k = k ps := by
  have hal : (aligned && va % n != 0) = false := by
    cases aligned
    · rfl
    · simp [ha rfl]
  simp [State.access, hr, hal, hp]

theorem State.issueStore_of_none {s : State} (hr : s.hart.region = none) : s.issueStore = s.issueOp .st := by
  simp only [State.issueStore, hr]

theorem State.issueOp_ws (s : State) (k : OpClass) (d : BitVec 5) (x : Word) : (s.issueOp k).ws d x = (s.ws d x).issueOp k := by
  by_cases hd : d = 0
  · simp only [State.ws, Hart.setS, if_pos hd]
    rfl
  · simp only [State.ws, Hart.setS, if_neg hd]
    rfl

end Sys2Proof.Machine

namespace Sys2Proof.Safety
open Sys2Proof Sys2Proof.Machine

/-- Traffic of a hart outside regions changes what accesses may change, and the local stores. -/
theorem keeps_traffic {s t : State} (k : s.Traffic t) (hr : s.hart.region = none) : Keeps (.localStore :: accessEffects) s t := by
  obtain ⟨r, hhart⟩ := k.hart hr
  have hstill := k.still
  simp only [State.still, Prod.mk.injEq] at hstill
  intro p hp
  cases p
  case package => exact k.pkg
  all_goals simp [accessEffects, traceEffects] at hp
  all_goals simp [Agree, hstill, hhart]

theorem keeps_issueOp (s : State) (k : OpClass) : Keeps [.counters, .agenda] s (s.issueOp k) := by
  intro p hp
  cases p <;> simp [Agree, SameRegisters] at hp ⊢

theorem Issued.of_agree {s u t : State} {k : OpClass} (h : Issued u t k) (hc : Agree s u .counters) (ht : Agree s u .task) :
    Issued s t k := by
  simp only [Agree] at hc ht
  simpa only [Issued, hc, ht] using h

/-! An access of a hart has left state u: its operation counts, and the instruction writes its register, if it does, and goes on. -/

section
variable {s u : State} {l : List Part}

/-- The parts that the end of a scalar access reads. -/
def endParts : List Part := [.scalars, .integrity, .pc, .counters, .task]

theorem issue_spec (hk : Keeps l s u) (hl : ∀ p ∈ endParts, p ∉ l) (k : OpClass) (size : Nat) :
    ((u.issueOp k).skip size).hart.pc = s.hart.pc + BitVec.ofNat 48 size ∧ Issued s ((u.issueOp k).skip size) k ∧
      Keeps (.pc :: .counters :: .agenda :: l) s ((u.issueOp k).skip size) := by
  have hpc : u.hart.pc = s.hart.pc := hk .pc (hl _ (by decide))
  refine ⟨by simp [hpc], Issued.of_agree (u := u) (by simp [Issued]) (hk _ (hl _ (by decide))) (hk _ (hl _ (by decide))), ?_⟩
  exact ((hk.mono fun _ h => by simp [h]).trans ((keeps_issueOp u k).mono (by simp))).trans ((keeps_skip _ size).mono (by simp))

theorem issue_write_spec (hk : Keeps l s u) (hl : ∀ p ∈ endParts, p ∉ l) (k : OpClass) (d : BitVec 5) (x : Word) (size : Nat) :
    let t := ((u.ws d x).issueOp k).skip size
    Wrote s t d x ∧ t.hart.pc = s.hart.pc + BitVec.ofNat 48 size ∧ Issued s t k ∧
      Keeps (.scalars :: .integrity :: .pc :: .counters :: .agenda :: l) s t := by
  have hw : Keeps [.scalars, .integrity] u (u.ws d x) := keeps_ws u d x
  have hpc : u.hart.pc = s.hart.pc := hk .pc (hl _ (by decide))
  refine ⟨(wrote_ws u d x).of_agree (hk _ (hl _ (by decide))) (hk _ (hl _ (by decide))), by simp [hpc], ?_, ?_⟩
  · exact Issued.of_agree (u := u) (by simp [Issued]) (hk _ (hl _ (by decide))) (hk _ (hl _ (by decide)))
  · exact (((hk.mono fun _ h => by simp [h]).trans (hw.mono (by simp))).trans ((keeps_issueOp _ k).mono (by simp))).trans
      ((keeps_skip _ size).mono (by simp))

end

/-! Loads. -/

theorem load_spec {s : State} (hs : Canonical s) (hr : s.hart.region = none) (hfull : s.full .ld = false) {n va : Nat} {ps : List Piece}
    (hp : s.pieces s.hart true .load va n = .ok ps) (size : Nat) (signed : Bool) (d : BitVec 5) :
    ∃ t : State, s.load size n signed d va = .next t ∧ Wrote s t d (extended signed n (s.peek ps)) ∧
      t.hart.pc = s.hart.pc + BitVec.ofNat 48 size ∧ Issued s t .ld ∧ StoredNothing s t ∧
      Keeps (.scalars :: .integrity :: .pc :: .counters :: accessEffects) s t := by
  have q := State.noteReads_quiet hr 0 ps
  obtain ⟨hw, hpc, hi, hk⟩ := issue_write_spec (keeps_quiet q hr) (by decide) .ld d (extendLoad signed n (s.peek ps)) size
  refine ⟨_, ?_, hw, hpc, hi, q.storedNothing hs, hk.mono (by decide)⟩
  rw [State.load, State.access_ok hr (by simp) hp]
  simp [hfull, State.lost_of_none hr]

/-- Every scalar load is a load at its address. -/
theorem scalarLoads_exec (s : State) (i : BitVec 7) (c : BitVec 4) (b d : BitVec 5) :
    ∀ f ∈ scalarLoads, exec (f.1 i c b d) s = s.load 4 f.2.1 f.2.2 d (s.offsetAddr b i f.2.1) := by
  simp only [scalarLoads, List.forall_mem_cons, List.not_mem_nil, false_imp_iff, implies_true, and_true]
  exact ⟨rfl, rfl, rfl, rfl, rfl, rfl, rfl⟩

/-- Settles O7: every form is a load at its address (`load_spec`). -/
theorem scalarLoads_hold : Obligations.ScalarLoads := by
  intro s i c b d r k ps hs hr hfull
  refine ⟨fun f hf hp => ?_, fun hp => ?_⟩
  · obtain ⟨t, ht, h⟩ := load_spec hs hr hfull hp 4 f.2.2 d
    exact ⟨t, by rw [scalarLoads_exec s i c b d f hf, State.offsetAddr_eq, ht], h⟩
  · obtain ⟨t, ht, h⟩ := load_spec hs hr hfull hp 2 true d
    exact ⟨t, by rw [← ht, ← State.shortAddr_eq]; rfl, h⟩

/-! Stores. -/

theorem store_spec {s : State} (hs : Canonical s) (hr : s.hart.region = none) (hfull : s.full .st = false) {n va : Nat} (hn : n ≤ 64)
    {ps : List Piece} (hp : s.pieces s.hart true .store va n = .ok ps) (size : Nat) (x : Word) :
    ∃ t : State, s.storeTo size n x va = .next t ∧ Stored s t ps x.toNat ∧ t.hart.pc = s.hart.pc + BitVec.ofNat 48 size ∧
      Issued s t .st ∧ Keeps (.pc :: .counters :: .reservation :: .localStore :: accessEffects) s t := by
  have hpoke := State.poke_performs hr 0 false (s.hart.claimOn va n) x.toNat ps
  obtain ⟨hpc, hi, hk⟩ := issue_spec (keeps_traffic hpoke.traffic hr) (by decide) .st size
  refine ⟨((s.poke 0 false (s.hart.claimOn va n) x.toNat ps).issueOp .st).skip size, ?_, hpoke.stored hs (State.pieces_apart hn hp), hpc,
    hi, hk.mono (by decide)⟩
  rw [State.storeTo, State.access_ok hr (by simp) hp]
  simp [hfull, State.lost_of_none hr, State.issueStore_of_none (hpoke.region hr)]

/-- Every scalar store is a store at its address. -/
theorem scalarStores_exec (s : State) (i : BitVec 7) (c : BitVec 4) (b x : BitVec 5) :
    ∀ f ∈ scalarStores, f.2 ≤ 64 ∧ exec (f.1 i c b x) s = s.storeTo 4 f.2 (s.rs x) (s.offsetAddr b i f.2) := by
  simp only [scalarStores, List.forall_mem_cons, List.not_mem_nil, false_imp_iff, implies_true, and_true]
  exact ⟨⟨by decide, rfl⟩, ⟨by decide, rfl⟩, ⟨by decide, rfl⟩, by decide, rfl⟩

/-- Settles O8: every form is a store at its address (`store_spec`). -/
theorem scalarStores_hold : Obligations.ScalarStores := by
  intro s i c b x r k ps hs hr hfull
  refine ⟨fun f hf hp => ?_, fun hp => ?_⟩
  · obtain ⟨hn, hexec⟩ := scalarStores_exec s i c b x f hf
    obtain ⟨t, ht, h⟩ := store_spec hs hr hfull hn hp 4 (s.rs x)
    exact ⟨t, by rw [hexec, State.offsetAddr_eq, ht], h⟩
  · obtain ⟨t, ht, h⟩ := store_spec hs hr hfull (by decide) hp 2 (s.rs x)
    exact ⟨t, by rw [← ht, ← State.shortAddr_eq]; rfl, h⟩

end Sys2Proof.Safety

/-! Atomics, reservations and store-conditionals (R141, R142). -/

namespace Sys2Proof.Machine
open Sys2Proof.Safety (Canonical Stored extended)

/-! The size of what an access reads and writes. -/

/-- The pieces of an access lie within it. -/
theorem State.pieces_within {s : State} {h : Hart} {window : Bool} {p : Perm} {va n : Nat} {ps : List Piece}
    (hp : s.pieces h window p va n = .ok ps) : ∀ q ∈ ps, q.at_ + q.len ≤ n := by
  unfold State.pieces at hp
  extract_lets k at hp
  split at hp
  · cases hx : s.place h window p va n with
    | error e => simp [hx, Except.map] at hp
    | ok x =>
      simp only [hx, Except.map, Except.ok.injEq] at hp
      subst hp
      simp
  · split at hp
    next =>
      cases hp
      simp only [List.mem_cons, List.not_mem_nil, or_false, forall_eq_or_imp, forall_eq]
      omega
    all_goals cases hp

theorem State.seeBytes_lt (s : State) (h : Hart) (pa n : Nat) : s.seeBytes h pa n < 2 ^ (8 * n) := by
  simpa [State.seeBytes] using ofBytes_lt ((List.range n).map fun i => s.seenBy h (pa + i))

theorem Memory.read_lt (m : Memory) (a n : Nat) : m.read a n < 2 ^ (8 * n) := by
  simpa [Memory.read, Memory.bytes] using ofBytes_lt (m.bytes ((List.range n).map (a + ·)))

/-- The number that a piece of an access reads. -/
def State.pieceValue (s : State) (p : Piece) : Nat :=
  match p.place with
  | .mem pa => s.seeBytes s.hart pa p.len
  | .store key => s.lstore.read key p.len

theorem State.pieceValue_lt (s : State) (p : Piece) : s.pieceValue p < 2 ^ (8 * p.len) := by
  unfold State.pieceValue
  split
  · exact State.seeBytes_lt _ _ _ _
  · exact Memory.read_lt _ _ _

theorem State.peek_one (s : State) (p : Piece) : s.peek [p] = s.pieceValue p * 2 ^ (8 * p.at_) := Nat.zero_add _

theorem State.peek_two (s : State) (p q : Piece) :
    s.peek [p, q] = s.pieceValue p * 2 ^ (8 * p.at_) + s.pieceValue q * 2 ^ (8 * q.at_) :=
  congrArg (· + _) (Nat.zero_add _)

/-- An access of n bytes reads a number of n bytes. -/
theorem State.peek_lt {s : State} {window : Bool} {p : Perm} {va n : Nat} {ps : List Piece}
    (hp : s.pieces s.hart window p va n = .ok ps) (u : State) : u.peek ps < 2 ^ (8 * n) := by
  unfold State.pieces at hp
  extract_lets k at hp
  split at hp
  · cases hx : s.place s.hart window p va n with
    | error e => simp [hx, Except.map] at hp
    | ok x =>
      simp only [hx, Except.map, Except.ok.injEq] at hp
      subst hp
      simpa [State.peek_one] using u.pieceValue_lt ⟨va, x, n, 0⟩
  next hk =>
    split at hp
    next x y _ _ =>
      cases hp
      have hlow := u.pieceValue_lt ⟨va, x, k, 0⟩
      have hhigh := u.pieceValue_lt ⟨(va + k) % 2 ^ 64, y, n - k, k⟩
      dsimp only at hlow hhigh
      rw [State.peek_two, Nat.mul_zero, Nat.pow_zero, Nat.mul_one]
      calc _ < 2 ^ (8 * k) + u.pieceValue ⟨(va + k) % 2 ^ 64, y, n - k, k⟩ * 2 ^ (8 * k) := Nat.add_lt_add_right hlow _
        _ = (u.pieceValue ⟨(va + k) % 2 ^ 64, y, n - k, k⟩ + 1) * 2 ^ (8 * k) := by ring
        _ ≤ 2 ^ (8 * (n - k)) * 2 ^ (8 * k) := Nat.mul_le_mul_right _ hhigh
        _ = 2 ^ (8 * n) := by rw [← pow_add]; congr 1; omega
    all_goals cases hp

theorem pow_256 (n : Nat) : 256 ^ n = 2 ^ (8 * n) := pow_mul 2 8 n ▸ rfl

/-- What is stored of a number is its low bytes. -/
theorem stored_of_mod {s t : State} {ps : List Piece} {n x : Nat} (hw : ∀ p ∈ ps, p.at_ + p.len ≤ n)
    (h : Stored s t ps (x % 2 ^ (8 * n))) : Stored s t ps x := by
  obtain ⟨hmem, hlocal, hbytes⟩ := h
  have hlow {i : Nat} (hi : i < n) : BitVec.ofNat 8 (x % 2 ^ (8 * n) / 2 ^ (8 * i)) = BitVec.ofNat 8 (x / 2 ^ (8 * i)) := by
    have h1 : 8 * n = 8 * i + 8 * (n - i) := by omega
    have h2 : 8 * (n - i) = 8 + 8 * (n - i - 1) := by omega
    apply BitVec.eq_of_toNat_eq
    rw [BitVec.toNat_ofNat, BitVec.toNat_ofNat, h1, pow_add, Nat.mod_mul_right_div_self, h2, pow_add]
    exact Nat.mod_mul_right_mod _ _ _
  refine ⟨hmem, hlocal, fun p hp j hj => ?_⟩
  have hb := hbytes p hp j hj
  have hin : p.at_ + j < n := lt_of_lt_of_le (by omega) (hw p hp)
  rw [hlow hin] at hb
  exact hb

/-! The operations. -/

theorem toSigned_inj {w x y : Nat} (hx : x < 2 ^ w) (hy : y < 2 ^ w) (h : toSigned w x = toSigned w y) : x = y := by
  rw [toSigned_eq_toInt, toSigned_eq_toInt, BitVec.toInt_inj] at h
  simpa [Nat.mod_eq_of_lt, hx, hy] using congrArg BitVec.toNat h

theorem atomicMin_eq {w m x : Nat} (hm : m < 2 ^ w) (hx : x < 2 ^ w) :
    AtomicOp.min.apply w m x = some (if toSigned w m ≤ toSigned w x then m else x) := by
  rcases lt_trichotomy (toSigned w m) (toSigned w x) with h | h | h
  · simp [AtomicOp.apply, h, h.le]
  · simp [AtomicOp.apply, toSigned_inj hm hx h]
  · simp [AtomicOp.apply, h.not_gt, h.not_ge]

theorem atomicMax_eq {w m x : Nat} (hm : m < 2 ^ w) (hx : x < 2 ^ w) :
    AtomicOp.max.apply w m x = some (if toSigned w m ≤ toSigned w x then x else m) := by
  rcases lt_trichotomy (toSigned w m) (toSigned w x) with h | h | h
  · simp [AtomicOp.apply, h, h.le]
  · simp [AtomicOp.apply, toSigned_inj hm hx h]
  · simp [AtomicOp.apply, h.not_gt, h.not_ge]

end Sys2Proof.Machine

namespace Sys2Proof.Safety
open Sys2Proof Sys2Proof.Machine

theorem atomic_spec {s : State} (hs : Canonical s) (hr : s.hart.region = none) (hfull : s.full .st = false) {n : Nat} {b a : BitVec 5}
    {ps : List Piece} (hn : n ≤ 64) (ha : (s.rs a).toNat % n = 0) (hp : s.pieces s.hart true .update (s.rs a).toNat n = .ok ps)
    (op : AtomicOp) (d : BitVec 5) :
    ∃ t : State, s.atomic n op b a d = .next t ∧ Wrote s t d (extended true n (s.peek ps)) ∧ t.hart.pc = s.hart.pc + 4 ∧
      Issued s t .st ∧
      (match op.apply (8 * n) (s.peek ps) ((s.rs b).toNat % 2 ^ (8 * n)) with
        | some y => Stored s t ps y
        | none => StoredNothing s t) ∧
      Keeps (.scalars :: .integrity :: .pc :: .counters :: .reservation :: .localStore :: accessEffects) s t := by
  have hend {u : State} (k : s.Traffic u) :
      ∃ t : State, u.issueStore.give d (extended true n (s.peek ps)) = .next t ∧ Wrote s t d (extended true n (s.peek ps)) ∧
        t.hart.pc = s.hart.pc + 4 ∧ Issued s t .st ∧ t.mem = u.mem ∧ t.lstore = u.lstore ∧
        Keeps (.scalars :: .integrity :: .pc :: .counters :: .reservation :: .localStore :: accessEffects) s t := by
    obtain ⟨hw, hpc, hi, hk⟩ := issue_write_spec (keeps_traffic k hr) (by decide) .st d (extended true n (s.peek ps)) 4
    refine ⟨((u.ws d _).issueOp .st).skip 4, ?_, hw, hpc, hi, rfl, rfl, hk.mono (by decide)⟩
    rw [State.give, State.done, State.issueStore_of_none ((k.hart hr).region.trans hr), State.issueOp_ws]
  have hexec : s.atomic n op b a d = (match op.apply (8 * n) (s.peek ps) ((s.rs b).toNat % 2 ^ (8 * n)) with
      | some y => s.poke 0 true none y ps
      | none => s.noteReads 0 ps).issueStore.give d (extended true n (s.peek ps)) := by
    rw [State.atomic, State.access_ok hr (fun _ => ha) hp]
    simp only [hfull, Bool.false_eq_true, if_false, State.lost_of_none hr]
    rfl
  rw [hexec]
  cases op.apply (8 * n) (s.peek ps) ((s.rs b).toNat % 2 ^ (8 * n)) with
  | none =>
    have q := State.noteReads_quiet hr 0 ps
    obtain ⟨t, ht, hw, hpc, hi, hm, hl, hk⟩ := hend q.traffic
    exact ⟨t, ht, hw, hpc, hi, ⟨fun hu => hm.trans ((q.storedNothing hs).1 hu), hl.trans (q.storedNothing hs).2⟩, hk⟩
  | some y =>
    have hpoke := State.poke_performs hr 0 true none y ps
    obtain ⟨t, ht, hw, hpc, hi, hm, hl, hk⟩ := hend hpoke.traffic
    refine ⟨t, ht, hw, hpc, hi, ?_, hk⟩
    have hst := hpoke.stored hs (State.pieces_apart hn hp)
    simpa only [Stored, hm, hl] using hst

/-- Each form is an operation, whose new value is the one that the statement gives for numbers of its size. -/
theorem scalarAtomics_op (s : State) (c : BitVec 4) (b a d : BitVec 5) : ∀ f ∈ scalarAtomics, f.2.1 ≤ 64 ∧ ∃ op : AtomicOp,
    exec (f.1 c b a d) s = s.atomic f.2.1 op b a d ∧
    ∀ m x, m < 2 ^ (8 * f.2.1) → x < 2 ^ (8 * f.2.1) → op.apply (8 * f.2.1) m x = some (f.2.2 m x) := by
  simp only [scalarAtomics, List.forall_mem_cons, List.not_mem_nil, false_imp_iff, implies_true, and_true]
  exact ⟨⟨by decide, .swap, rfl, fun _ _ _ _ => rfl⟩, ⟨by decide, .add, rfl, fun _ _ _ _ => rfl⟩,
    ⟨by decide, .and, rfl, fun _ _ _ _ => rfl⟩, ⟨by decide, .or, rfl, fun _ _ _ _ => rfl⟩, ⟨by decide, .xor, rfl, fun _ _ _ _ => rfl⟩,
    ⟨by decide, .min, rfl, fun _ _ => atomicMin_eq⟩, ⟨by decide, .max, rfl, fun _ _ => atomicMax_eq⟩,
    ⟨by decide, .minu, rfl, fun _ _ _ _ => congrArg some (Nat.min_def ..)⟩,
    ⟨by decide, .maxu, rfl, fun _ _ _ _ => congrArg some (Nat.max_def ..)⟩,
    ⟨by decide, .swap, rfl, fun _ _ _ _ => rfl⟩, ⟨by decide, .add, rfl, fun _ _ _ _ => rfl⟩,
    ⟨by decide, .and, rfl, fun _ _ _ _ => rfl⟩, ⟨by decide, .or, rfl, fun _ _ _ _ => rfl⟩, ⟨by decide, .xor, rfl, fun _ _ _ _ => rfl⟩,
    ⟨by decide, .min, rfl, fun _ _ => atomicMin_eq⟩, ⟨by decide, .max, rfl, fun _ _ => atomicMax_eq⟩,
    ⟨by decide, .minu, rfl, fun _ _ _ _ => congrArg some (Nat.min_def ..)⟩,
    ⟨by decide, .maxu, rfl, fun _ _ _ _ => congrArg some (Nat.max_def ..)⟩⟩

/-- Settles O9: every form is one of the operations that `atomic_spec` is about. -/
theorem scalarAtomics_hold : Obligations.ScalarAtomics := by
  intro s c b a d ps hs hr hfull va Done
  have hdone {j : Instr} {n : Nat} {op : AtomicOp} {stored : Option Nat} (hn : n ≤ 64) (hj : exec j s = s.atomic n op b a d)
      (ha : va % n = 0) (hp : s.pieces s.hart true .update va n = .ok ps)
      (hop : op.apply (8 * n) (s.peek ps) ((s.rs b).toNat % 2 ^ (8 * n)) = stored) : Done j n stored := by
    obtain ⟨t, ht, hw, hpc, hi, hst, hk⟩ := atomic_spec (b := b) hs hr hfull hn ha hp op d
    rw [hop] at hst
    exact ⟨t, hj.trans ht, hw, hpc, hi, hst, hk⟩
  refine ⟨fun f hf ha hp => ?_, fun f hf ha hp => ?_⟩
  · obtain ⟨hn, op, hj, hop⟩ := scalarAtomics_op s c b a d f hf
    rw [pow_256]
    exact hdone hn hj ha hp (hop _ _ (State.peek_lt hp s) (Nat.mod_lt _ (by positivity)))
  · rw [pow_256]
    simp only [List.mem_cons, List.not_mem_nil, or_false] at hf
    rcases hf with rfl | rfl
    · have hd : (s.rs d).toNat % 2 ^ (8 * 8) = (s.rs d).toNat := Nat.mod_eq_of_lt (s.rs d).isLt
      exact hdone (op := .cas (s.rs d).toNat) (by decide) rfl ha hp (by rw [hd]; rfl)
    · exact hdone (op := .cas ((s.rs d).toNat % 2 ^ 32)) (by decide) rfl ha hp rfl

end Sys2Proof.Safety

namespace Sys2Proof.Safety
open Sys2Proof.Machine

/-! Reservations (R142). -/

theorem sameRegisters_holds {p q : Pkg} (h : SameRegisters p q) (l : List (Nat × AgentId)) :
    SameRegisters { p with holds := l } { q with holds := l } := by
  unfold SameRegisters at h ⊢
  rw [h]

theorem keeps_reservation (s : State) (r : Option Nat) : Keeps [.reservation] s (s.on fun h => { h with reservation := r }) := by
  intro p hp
  cases p <;> simp [Agree, SameRegisters] at hp ⊢

theorem keeps_holds (s : State) (l : List (Nat × AgentId)) : Keeps [.package] s (s.onPkg fun p => { p with holds := l }) :=
  keeps_onPkg s _ rfl

/-- The parts that lr and sc may change before they count. -/
def reserveEffects : List Part := .reservation :: .package :: .localStore :: accessEffects

/-- The hold of a block that lr sets, unless a home slice holds it already. -/
def holding (u : State) (id : AgentId) (block : Nat) : State :=
  if u.pkg.holds.any (fun p => decide (p.1 = block)) then u
  else (u.onPkg fun p => { p with holds := (block, id) :: p.holds }).due (.reservationHoldExpiry block)

theorem holding_spec (u : State) (id : AgentId) (block : Nat) :
    (holding u id block).hart = u.hart ∧ (holding u id block).mem = u.mem ∧ (holding u id block).lstore = u.lstore ∧
      (∃ l, (holding u id block).pkg = { u.pkg with holds := l }) ∧ Keeps [.package, .agenda] u (holding u id block) := by
  unfold holding
  split
  · exact ⟨rfl, rfl, rfl, ⟨u.pkg.holds, rfl⟩, .refl _ _⟩
  · exact ⟨rfl, rfl, rfl, ⟨_, rfl⟩, ((keeps_holds u _).mono (by decide)).trans ((keeps_due _ _).mono (by decide))⟩

theorem endHold_spec (u : State) :
    u.endHold.hart = u.hart ∧ u.endHold.mem = u.mem ∧ u.endHold.lstore = u.lstore ∧ (∃ l, u.endHold.pkg = { u.pkg with holds := l }) ∧
      Keeps [.package] u u.endHold := by
  unfold State.endHold
  split
  · exact ⟨rfl, rfl, rfl, ⟨_, rfl⟩, keeps_holds u _⟩
  · exact ⟨rfl, rfl, rfl, ⟨u.pkg.holds, rfl⟩, .refl _ _⟩

/-- The end of lr and of sc: an access has led to u, then the reservation becomes r and the holds of blocks change (`v`). -/
theorem reserve_spec {s u v : State} (k : s.Traffic u) (hr : s.hart.region = none) {r : Option Nat}
    (hhart : v.hart = { u.hart with reservation := r }) (hpkg : ∃ l, v.pkg = { u.pkg with holds := l })
    (hk : Keeps [.reservation, .package, .agenda] u v) (d : BitVec 5) (x : Word) :
    ∃ t : State, v.issueStore.give d x = .next t ∧ Wrote s t d x ∧ t.hart.pc = s.hart.pc + 4 ∧ t.hart.reservation = r ∧
      Issued s t .st ∧ t.mem = v.mem ∧ t.lstore = v.lstore ∧ (∃ l, SameRegisters { s.pkg with holds := l } t.pkg) ∧
      Keeps (.scalars :: .integrity :: .pc :: .counters :: .reservation :: .package :: .localStore :: accessEffects) s t := by
  have hv : Keeps reserveEffects s v := ((keeps_traffic k hr).mono (by decide)).trans (hk.mono (by decide))
  have hregion : v.hart.region = none := (hv .region (by decide)).1.trans hr
  obtain ⟨hw, hpc, hi, hkeep⟩ := issue_write_spec hv (by decide) .st d x 4
  refine ⟨((v.ws d x).issueOp .st).skip 4, ?_, hw, hpc, ?_, hi, rfl, rfl, ?_, hkeep.mono (by decide)⟩
  · rw [State.give, State.done, State.issueStore_of_none hregion, State.issueOp_ws]
  · simp [hhart]
  · obtain ⟨l, hl⟩ := hpkg
    exact ⟨l, by simpa [hl] using sameRegisters_holds k.pkg l⟩

/-- The end of sc: the reservation is cleared and the block's hold ends. -/
theorem clear_spec {s u : State} (k : s.Traffic u) (hr : s.hart.region = none) (d : BitVec 5) (x : Word) :
    ∃ t : State, (u.on fun h => { h with reservation := none }).endHold.issueStore.give d x = .next t ∧ Wrote s t d x ∧
      t.hart.pc = s.hart.pc + 4 ∧ t.hart.reservation = none ∧ Issued s t .st ∧ t.mem = u.mem ∧ t.lstore = u.lstore ∧
      (∃ l, SameRegisters { s.pkg with holds := l } t.pkg) ∧
      Keeps (.scalars :: .integrity :: .pc :: .counters :: .reservation :: .package :: .localStore :: accessEffects) s t := by
  obtain ⟨hhart, hm, hl, hpkg, hkeep⟩ := endHold_spec (u.on fun h => { h with reservation := none })
  have hkeep' : Keeps [.reservation, .package, .agenda] u _ :=
    ((keeps_reservation u none).mono (by decide)).trans (hkeep.mono (by decide))
  obtain ⟨t, ht, hw, hpc, hres, hi, htm, htl, hreg, hk⟩ := reserve_spec k hr hhart hpkg hkeep' d x
  exact ⟨t, ht, hw, hpc, hres, hi, htm.trans hm, htl.trans hl, hreg, hk⟩

theorem loadReserve_spec {s : State} (hs : Canonical s) (hr : s.hart.region = none) (hfull : s.full .st = false) {n : Nat} {a : BitVec 5}
    {p : Piece} {ps : List Piece} (ha : (s.rs a).toNat % n = 0) (hp : s.pieces s.hart true .load (s.rs a).toNat n = .ok (p :: ps))
    (hh : ∀ q ∈ s.pkg.holds, q.1 = p.place.block → q.2 = s.hart.id) (d : BitVec 5) :
    ∃ t : State, s.loadReserve n a d = .next t ∧ Wrote s t d (extended true n (s.peek (p :: ps))) ∧ t.hart.pc = s.hart.pc + 4 ∧
      t.hart.reservation = some p.place.block ∧ Issued s t .st ∧ StoredNothing s t ∧
      (∃ l, SameRegisters { s.pkg with holds := l } t.pkg) ∧
      Keeps (.scalars :: .integrity :: .pc :: .counters :: .reservation :: .package :: accessEffects) s t := by
  have q := State.noteReads_quiet hr 0 (p :: ps)
  have hfree : (s.pkg.holds.any fun q => decide (q.1 = p.place.block) && decide (q.2 ≠ s.hart.id)) = false := by
    simpa using hh
  obtain ⟨hhart, hm, hl, hpkg, hkeep⟩ := holding_spec ((s.noteReads 0 (p :: ps)).on fun h => { h with reservation := some p.place.block })
    s.hart.id p.place.block
  have hkeep' : Keeps [.reservation, .package, .agenda] (s.noteReads 0 (p :: ps)) _ :=
    ((keeps_reservation _ _).mono (by decide)).trans (hkeep.mono (by decide))
  obtain ⟨t, ht, hw, hpc, hres, hi, htm, htl, hreg, hk⟩ := reserve_spec q.traffic hr hhart hpkg hkeep' d (extended true n (s.peek (p :: ps)))
  have hst := q.storedNothing hs
  have hlocal : t.lstore = s.lstore := htl.trans (hl.trans hst.2)
  refine ⟨t, ?_, hw, hpc, hres, hi, ⟨fun hu => htm.trans (hm.trans (hst.1 hu)), hlocal⟩, hreg, fun x hx => ?_⟩
  · rw [← ht, State.loadReserve, State.access_ok hr (fun _ => ha) hp]
    simp only [hfree, hfull, Bool.false_eq_true, if_false, State.lost_of_none hr]
    rfl
  · by_cases hx1 : x = .localStore
    · exact hx1 ▸ hlocal
    · exact hk x (by simp_all)

theorem storeConditional_spec {s : State} (hs : Canonical s) (hr : s.hart.region = none) (hfull : s.full .st = false) {n : Nat}
    {b a : BitVec 5} {p : Piece} {ps : List Piece} (hn : n ≤ 64) (ha : (s.rs a).toNat % n = 0)
    (hp : s.pieces s.hart true .store (s.rs a).toNat n = .ok (p :: ps)) (d : BitVec 5) :
    let held := s.hart.reservation = some p.place.block
    ∃ t : State, s.storeConditional n b a d = .next t ∧ (held → Wrote s t d 0 ∧ Stored s t (p :: ps) (s.rs b).toNat) ∧
      (¬ held → Wrote s t d 1 ∧ StoredNothing s t) ∧ t.hart.pc = s.hart.pc + 4 ∧ t.hart.reservation = none ∧
      Issued s t .st ∧ (∃ l, SameRegisters { s.pkg with holds := l } t.pkg) ∧
      Keeps (.scalars :: .integrity :: .pc :: .counters :: .reservation :: .package :: .localStore :: accessEffects) s t := by
  intro held
  have hexec : s.storeConditional n b a d =
      ((if held then s.poke 0 false none ((s.rs b).toNat % 2 ^ (8 * n)) (p :: ps) else s).on fun h =>
        { h with reservation := none }).endHold.issueStore.give d (if held then 0 else 1) := by
    rw [State.storeConditional, State.access_ok hr (fun _ => ha) hp]
    simp only [hfull, Bool.false_eq_true, if_false, State.lost_of_none hr, decide_eq_true_eq]
    rfl
  by_cases hheld : held
  · have hpoke := State.poke_performs hr 0 false none ((s.rs b).toNat % 2 ^ (8 * n)) (p :: ps)
    obtain ⟨t, ht, hw, hpc, hres, hi, htm, htl, hreg, hk⟩ := clear_spec hpoke.traffic hr d 0
    have hst := hpoke.stored hs (State.pieces_apart hn hp)
    have hst' : Stored s t (p :: ps) ((s.rs b).toNat % 2 ^ (8 * n)) := by simpa only [Stored, htm, htl] using hst
    rw [if_pos hheld, if_pos hheld] at hexec
    exact ⟨t, hexec.trans ht, fun _ => ⟨hw, stored_of_mod (State.pieces_within hp) hst'⟩, fun h => absurd hheld h, hpc, hres, hi, hreg, hk⟩
  · obtain ⟨t, ht, hw, hpc, hres, hi, htm, htl, hreg, hk⟩ := clear_spec (.refl s) hr d 1
    rw [if_neg hheld, if_neg hheld] at hexec
    exact ⟨t, hexec.trans ht, fun h => absurd h hheld, fun _ => ⟨hw, fun _ => htm, htl⟩, hpc, hres, hi, hreg, hk⟩

/-- Settles O10: both widths of lr by `loadReserve_spec`, of sc by `storeConditional_spec`. -/
theorem reservations : Obligations.Reservations := by
  intro s c b a d p ps hs hr hfull va
  refine ⟨fun f hf ha hp hh => ?_, fun f hf ha hp => ?_⟩
  · obtain ⟨t, ht, h⟩ := loadReserve_spec hs hr hfull ha hp hh d
    simp only [List.mem_cons, List.not_mem_nil, or_false] at hf
    rcases hf with rfl | rfl <;> exact ⟨t, ht, h⟩
  · have hn : f.2 ≤ 64 := by
      simp only [List.mem_cons, List.not_mem_nil, or_false] at hf
      rcases hf with rfl | rfl <;> decide
    obtain ⟨t, ht, h⟩ := storeConditional_spec (b := b) hs hr hfull hn ha hp d
    simp only [List.mem_cons, List.not_mem_nil, or_false] at hf
    rcases hf with rfl | rfl <;> exact ⟨t, ht, h⟩

end Sys2Proof.Safety

/-! Handles and stream bindings (R154, R156, R157). -/

namespace Sys2Proof.Machine

theorem get_setIfInBounds {α : Type} {w : Nat} (v : Vector α (2 ^ w)) (i : BitVec w) (k : Nat) (x : α) :
    (v.setIfInBounds k x).get i.toFin = if k = i.toNat then x else v.get i.toFin := by
  simp [Vector.get_eq_getElem, Vector.getElem_setIfInBounds]

theorem Hart.binding_getD (h : Hart) (q : BitVec 3) : h.q.getD q.toNat none = h.q.get q.toFin := by
  simp [Vector.getD, Vector.get, q.isLt]

/-- Unbinding a handle leaves the streams of the others bound. -/
theorem Hart.unbindHandle_get (h : Hart) (i : BitVec 5) (r : Fin 8) :
    (h.unbindHandle i.toNat).q.get r = if h.q.get r = some i then none else h.q.get r := by
  simp only [Hart.unbindHandle, Vector.get_eq_getElem, Vector.getElem_map]
  cases h.q[r.val] with
  | none => rfl
  | some x => simp [BitVec.toNat_inj]

/-- Stream register q bound to handle i, whose own register is unbound (R156). -/
def Hart.bindStream (q : BitVec 3) (i : BitVec 5) (h : Hart) : Hart :=
  { h.unbindHandle i.toNat with q := (h.unbindHandle i.toNat).q.setIfInBounds q.toNat (some i) }

theorem Hart.bindStream_get (h : Hart) (q : BitVec 3) (i : BitVec 5) (r : BitVec 3) :
    (h.bindStream q i).q.get r.toFin =
      if q = r then some i else if h.q.get r.toFin = some i then none else h.q.get r.toFin := by
  rw [← Hart.unbindHandle_get, Hart.bindStream]
  exact (get_setIfInBounds (w := 3) _ r _ _).trans (by simp [BitVec.toNat_inj])

/-- Stream register q unbound. -/
def Hart.unbindStream (q : BitVec 3) (h : Hart) : Hart := { h with q := h.q.setIfInBounds q.toNat none }

theorem Hart.unbindStream_get (h : Hart) (q r : BitVec 3) :
    (h.unbindStream q).q.get r.toFin = if q = r then none else h.q.get r.toFin :=
  (get_setIfInBounds (w := 3) _ r _ _).trans (by simp [BitVec.toNat_inj])

end Sys2Proof.Machine

namespace Sys2Proof.Safety
open Sys2Proof.Machine

theorem keeps_waitFor (s : State) (r : Wait) : Keeps [.waits] s (s.on fun h => { h with wait := some r }) := by
  intro p hp
  cases p <;> simp [Agree, SameRegisters] at hp ⊢

theorem keeps_bindStream (s : State) (q : BitVec 3) (i : BitVec 5) : Keeps [.copies] s (s.on (Hart.bindStream q i)) := by
  intro p hp
  cases p <;> simp [Agree, SameRegisters, Hart.bindStream] at hp ⊢

theorem keeps_unbindStream (s : State) (q : BitVec 3) : Keeps [.copies] s (s.on (Hart.unbindStream q)) := by
  intro p hp
  cases p <;> simp [Agree, SameRegisters, Hart.unbindStream] at hp ⊢

/-- qbind to a stream of a copy in use, of a register that no other handle holds. -/
theorem qbind_spec {s : State} (hr : s.hart.region = none) {q : BitVec 3} {i : BitVec 5} (hu : s.hart.streamInUse i = true)
    (hq : s.hart.q.get q.toFin = none ∨ s.hart.q.get q.toFin = some i) :
    ∃ t : State, exec (.qbind q i) s = .next t ∧ t.hart.pc = s.hart.pc + 4 ∧ t.hart.q.get q.toFin = some i ∧
      (∀ r, r ≠ q → t.hart.q.get r.toFin = if s.hart.q.get r.toFin = some i then none else s.hart.q.get r.toFin) ∧
      t.hart.copy = s.hart.copy ∧ t.hart.h = s.hart.h ∧ Keeps [.pc, .copies] s t := by
  have hexec : exec (.qbind q i) s = (s.on (Hart.bindStream q i)).done := by
    refine (State.outsideRegion_of_none hr _).trans ?_
    rcases hq with hq | hq <;> simp only [Hart.binding_getD, hq, hu] <;> simp
    all_goals rfl
  refine ⟨(s.on (Hart.bindStream q i)).skip 4, hexec, rfl, ?_, fun r hrq => ?_, rfl, rfl,
    ((keeps_bindStream s q i).mono (by decide)).trans ((keeps_skip _ 4).mono (by decide))⟩
  · exact (Hart.bindStream_get s.hart q i q).trans (if_pos rfl)
  · exact (Hart.bindStream_get s.hart q i r).trans (if_neg hrq.symm)

/-- qbind traps when the stream is not in use, and when another handle holds the register. -/
theorem qbind_stops {s : State} (hr : s.hart.region = none) {q : BitVec 3} {i : BitVec 5}
    (h : s.hart.streamInUse i = false ∨ ∃ k, s.hart.q.get q.toFin = some k ∧ k ≠ i) :
    exec (.qbind q i) s = s.takeTrap 3 3 0 0 none := by
  refine (State.outsideRegion_of_none hr _).trans (if_pos ?_)
  rcases h with hu | ⟨k, hk, hki⟩
  · simp [hu]
  · simp only [Hart.binding_getD, hk]
    simp [hki]

theorem qunbind_spec {s : State} (hr : s.hart.region = none) (q : BitVec 3) :
    ∃ t : State, exec (.qunbind q) s = .next t ∧ t.hart.pc = s.hart.pc + 4 ∧ t.hart.q.get q.toFin = none ∧
      (∀ r, r ≠ q → t.hart.q.get r.toFin = s.hart.q.get r.toFin) ∧ t.hart.copy = s.hart.copy ∧ t.hart.h = s.hart.h ∧
      Keeps [.pc, .copies] s t :=
  ⟨(s.on (Hart.unbindStream q)).skip 4, State.outsideRegion_of_none hr _, rfl,
    (Hart.unbindStream_get s.hart q q).trans (if_pos rfl),
    fun r hrq => (Hart.unbindStream_get s.hart q r).trans (if_neg hrq.symm), rfl, rfl,
    ((keeps_unbindStream s q).mono (by decide)).trans ((keeps_skip _ 4).mono (by decide))⟩

theorem hwait_spec {s : State} (hr : s.hart.region = none) {i : BitVec 5} (hl : s.hart.lost.elem i.toNat = false) (sc : BitVec 3) :
    (s.hart.h.get i.toFin ≠ .filling → Goes (.hwaitSrc i) s (s.hart.pc + 4)) ∧
    (s.hart.h.get i.toFin = .free → Goes (.hwaitVis sc i) s (s.hart.pc + 4)) ∧
    (s.hart.h.get i.toFin = .filling →
      ∃ t : State, exec (.hwaitSrc i) s = .next t ∧ t.hart.wait = some .handle ∧ Keeps [.waits] s t) ∧
    (s.hart.h.get i.toFin ≠ .free →
      ∃ t : State, exec (.hwaitVis sc i) s = .next t ∧ t.hart.wait = some .handle ∧ Keeps [.waits] s t) := by
  have hsrc : exec (.hwaitSrc i) s = if s.hart.h.get i.toFin = .filling then s.waitFor .handle else s.done := by
    refine (State.outsideRegion_of_none hr _).trans ?_
    rw [hl, Hart.handle_getD]
    rfl
  have hvis : exec (.hwaitVis sc i) s = if s.hart.h.get i.toFin ≠ .free then s.waitFor .handle else s.done := by
    refine (State.outsideRegion_of_none hr _).trans ?_
    rw [hl, Hart.handle_getD]
    rfl
  exact ⟨fun h => goes_of_done (hsrc.trans (if_neg h)), fun h => goes_of_done (hvis.trans (if_neg (not_not_intro h))),
    fun h => ⟨_, hsrc.trans (if_pos h), rfl, keeps_waitFor s .handle⟩,
    fun h => ⟨_, hvis.trans (if_pos h), rfl, keeps_waitFor s .handle⟩⟩


/-- Handle i of hart h free, unbound, and without its copy (R154). -/
def releasedHart (i : BitVec 5) (h : Hart) : Hart := (h.freeHandle i.toNat).unbindHandle i.toNat

theorem releasedHart_handle (i r : BitVec 5) (h : Hart) :
    (releasedHart i h).h.get r.toFin = if i = r then .free else h.h.get r.toFin :=
  (get_setIfInBounds (w := 5) _ r _ _).trans (by simp [BitVec.toNat_inj])

theorem releasedHart_copyOf (i r : BitVec 5) (h : Hart) : (releasedHart i h).copyOf r = if i = r then none else h.copyOf r := by
  have hr (v : Vector (Option Copy) 32) : v.getD r.toNat none = v.get r.toFin := by simp [Vector.getD, Vector.get, r.isLt]
  rw [Hart.copyOf, Hart.copyOf, hr, hr]
  exact (get_setIfInBounds (w := 5) _ r _ _).trans (by simp [BitVec.toNat_inj])

theorem releasedHart_unbound (i : BitVec 5) (h : Hart) (r : Fin 8) : (releasedHart i h).q.get r ≠ some i := by
  have hget := (h.freeHandle i.toNat).unbindHandle_get i r
  intro hr
  rw [releasedHart, hget] at hr
  split at hr <;> simp_all

theorem keeps_releasedHart (s : State) (i : BitVec 5) : Keeps [.copies, .counters] s (s.on (releasedHart i)) := by
  intro p hp
  cases p <;> simp [Agree, SameRegisters, releasedHart, Hart.freeHandle, Hart.unbindHandle] at hp ⊢

theorem keeps_agenda (s : State) (l : List Due) : Keeps [.agenda] s { s with agenda := l } := by
  intro p hp
  cases p <;> simp [Agree, SameRegisters] at hp ⊢

theorem keeps_scrambleSlot (s : State) (quad slot : Nat) : Keeps [.matrix, .free] s (s.scrambleSlot quad slot) := by
  intro p hp
  cases p <;> simp [Agree, SameRegisters, State.scrambleSlot, State.fresh] at hp ⊢

/-- The hart that moves releases a handle with a copy. -/
theorem releaseHandle_spec {s : State} {i : BitVec 5} {c : Copy} (hc : s.hart.copyOf i = some c) :
    (s.releaseHandle s.hart.id i.toNat).hart = releasedHart i s.hart ∧
      (c.kind ≠ 3 → (s.releaseHandle s.hart.id i.toNat).slots = s.slots) ∧
      Keeps [.copies, .counters, .others, .agenda, .matrix, .free] s (s.releaseHandle s.hart.id i.toNat) := by
  have hcopy : s.hart.copy.getD i.toNat none = some c := hc
  have hupdate : Keeps [.others, .copies, .counters] s (s.update s.hart.id (releasedHart i)) :=
    keeps_update s _ (keeps_releasedHart s i)
  have hkeep : Keeps [.copies, .counters, .others, .agenda, .matrix, .free] s _ :=
    (hupdate.mono (by decide)).trans ((keeps_agenda _ ((s.update s.hart.id (releasedHart i)).agenda.filter
      (· ∉ [Due.copySourceRead s.hart.id i, .copyComplete s.hart.id i, .streamStripArrival s.hart.id i]))).mono (by decide))
  simp only [State.releaseHandle, State.find_hart, hcopy, BitVec.ofNat_toNat, BitVec.setWidth_eq]
  split
  next hk => exact ⟨if_pos rfl, fun h => absurd hk h, hkeep.trans ((keeps_scrambleSlot _ _ _).mono (by decide))⟩
  next hk => exact ⟨if_pos rfl, fun _ => rfl, hkeep⟩

theorem hrel_spec {s : State} (hr : s.hart.region = none) {i : BitVec 5} {c : Copy} (hc : s.hart.copyOf i = some c) :
    ∃ t : State, exec (.hrel i) s = .next t ∧ t.hart.pc = s.hart.pc + 4 ∧ t.hart.h.get i.toFin = .free ∧
      t.hart.copyOf i = none ∧ t.hart.cnt = s.hart.cnt.add .cp (-1) ∧ (∀ r, t.hart.q.get r ≠ some i) ∧
      (∀ r, r ≠ i → t.hart.copyOf r = s.hart.copyOf r ∧ t.hart.h.get r.toFin = s.hart.h.get r.toFin) ∧
      (c.kind ≠ 3 → t.slots = s.slots) ∧ Keeps [.pc, .copies, .counters, .others, .agenda, .matrix, .free] s t := by
  obtain ⟨hhart, hslots, hkeep⟩ := releaseHandle_spec hc
  have hcopy (r : BitVec 5) : ((s.releaseHandle s.hart.id i.toNat).skip 4).hart.copyOf r = (releasedHart i s.hart).copyOf r :=
    show (s.releaseHandle s.hart.id i.toNat).hart.copyOf r = _ from congrArg (Hart.copyOf · r) hhart
  refine ⟨(s.releaseHandle s.hart.id i.toNat).skip 4, State.outsideRegion_of_none hr _, ?_, ?_, ?_, ?_, ?_, fun r hri => ⟨?_, ?_⟩,
    hslots, (hkeep.mono (by decide)).trans ((keeps_skip _ 4).mono (by decide))⟩
  · simp [hhart, releasedHart, Hart.freeHandle]
  · simpa [hhart] using releasedHart_handle i i s.hart
  · rw [hcopy, releasedHart_copyOf, if_pos rfl]
  · simp [hhart, releasedHart, Hart.freeHandle]
  · simpa [hhart] using releasedHart_unbound i s.hart
  · rw [hcopy, releasedHart_copyOf, if_neg hri.symm]
  · simpa [hhart, hri.symm] using releasedHart_handle i r s.hart

/-- The fields of an hstate word: state, kind, stream and what remains. -/
theorem stateWord_bits {code kind b k m : Nat} (hcode : code < 4) (hkind : kind < 8) (hb : b < 2) (hk : k < 8) (hm : m < 2 ^ 32) :
    let w := (BitVec.ofNat 64 (code + kind * 4 + (b * 32 + k * 64) + m * 2 ^ 32)).toNat
    bits w 1 0 = code ∧ bits w 4 2 = kind ∧ (w.testBit 5 = true ↔ b = 1) ∧ bits w 8 6 = k ∧ bits w 31 9 = 0 ∧
      bits w 63 32 = m := by
  intro w
  have hw : w = code + kind * 4 + (b * 32 + k * 64) + m * 2 ^ 32 :=
    (BitVec.toNat_ofNat _ _).trans (Nat.mod_eq_of_lt (by omega))
  clear_value w
  subst hw
  simp only [bits_eq, Nat.testBit_eq_decide_div_mod_eq, decide_eq_true_eq]
  omega

/-- The number of the stream register that a handle is bound to. -/
theorem binding_spec (h : Hart) (i : BitVec 5) : ∃ b k : Nat, b < 2 ∧ k < 8 ∧
    (match h.q.toList.findIdx? fun x => decide (x = some i) with
      | some k => 32 + k * 64
      | none => 0) = b * 32 + k * 64 ∧
    (b = 1 ↔ ∃ r, h.q.get r = some i) ∧ (b = 1 → h.q.getD k none = some i) := by
  have hget (r : Fin 8) : h.q.get r = some i → some i ∈ h.q.toList := fun hr => by
    rw [← hr, Vector.mem_toList_iff]
    exact Vector.getElem_mem r.isLt
  cases hf : h.q.toList.findIdx? fun x => decide (x = some i) with
  | none =>
    rw [List.findIdx?_eq_none_iff] at hf
    refine ⟨0, 0, by decide, by decide, rfl, ⟨fun hb => absurd hb (by decide), fun ⟨r, hr⟩ => ?_⟩, fun hb => absurd hb (by decide)⟩
    simpa using hf _ (hget r hr)
  | some k =>
    obtain ⟨hlt, hk, -⟩ := List.findIdx?_eq_some_iff_getElem.mp hf
    have hlt8 : k < 8 := by simpa using hlt
    have hki : h.q[k] = some i := by simpa using hk
    exact ⟨1, k, by decide, hlt8, rfl, ⟨fun _ => ⟨⟨k, hlt8⟩, hki⟩, fun _ => rfl⟩, fun _ => by simp [Vector.getD, hlt8, hki]⟩

theorem handleCode_lt (x : HandleState) : x.code < 4 := by cases x <;> decide

theorem remaining_eq (c : Copy) :
    c.remaining = if c.kind = 0 ∨ c.kind = 1 then c.n.toNat - c.pos else c.n.toNat - c.written := by
  simp [Copy.remaining, Copy.streams]

theorem hstate_spec {s : State} (hr : s.hart.region = none) {i : BitVec 5} {c : Copy} (hc : s.hart.copyOf i = some c) (d : BitVec 5) :
    ∃ v, Gives (.hstate i d) s 4 d v ∧ bits v.toNat 1 0 = (s.hart.h.get i.toFin).code ∧ bits v.toNat 4 2 = c.kind.toNat ∧
      (v.toNat.testBit 5 = true ↔ ∃ r, s.hart.q.get r = some i) ∧
      (v.toNat.testBit 5 = true → s.hart.q.getD (bits v.toNat 8 6) none = some i) ∧ bits v.toNat 31 9 = 0 ∧
      bits v.toNat 63 32 = min (if c.kind = 0 ∨ c.kind = 1 then c.n.toNat - c.pos else c.n.toNat - c.written) (2 ^ 32 - 1) := by
  obtain ⟨b, k, hb, hk, hbound, hiff, hget⟩ := binding_spec s.hart i
  rw [← remaining_eq]
  obtain ⟨hstate, hkind, hbit, hstream, hzero, hrest⟩ := stateWord_bits (handleCode_lt (s.hart.h.get i.toFin)) c.kind.isLt hb hk
    (m := min c.remaining (2 ^ 32 - 1)) (by omega)
  refine ⟨_, gives_of_exec ((State.outsideRegion_of_none hr _).trans ?_), hstate, hkind, hbit.trans hiff, fun h => ?_, hzero, hrest⟩
  · simp only [hc, Hart.handle_getD]
    rw [← hbound]
    rfl
  · rw [hstream]
    exact hget (hbit.mp h)

/-- Settles O39, an instruction at a time. -/
theorem handleForms : Obligations.HandleForms := by
  intro s q i d sc hr h after
  refine ⟨qbind_spec hr, fun hu => qbind_stops hr (.inl hu), fun k hk hki => qbind_stops hr (.inr ⟨k, hk, hki⟩), qunbind_spec hr q,
    fun hl => hwait_spec hr hl sc, fun hl => ⟨?_, ?_⟩, fun hc => ⟨?_, ?_⟩, fun c hc => ⟨hrel_spec hr hc, hstate_spec hr hc d⟩⟩
  · exact (State.outsideRegion_of_none hr _).trans ((if_pos hl).trans (by simp [State.lostTrap, State.trapAt, State.on, h]))
  · exact (State.outsideRegion_of_none hr _).trans ((if_pos hl).trans (by simp [State.lostTrap, State.trapAt, State.on, h]))
  · have hcopy : s.hart.copy.getD i.toNat none = none := hc
    refine goes_of_done ((State.outsideRegion_of_none hr _).trans ?_)
    simp [State.releaseHandle, State.find_hart, hcopy]
  · refine gives_of_exec ((State.outsideRegion_of_none hr _).trans ?_)
    have hcopy : s.hart.copyOf i = none := hc
    simp only [hcopy, Hart.handle_getD]
    rfl

end Sys2Proof.Safety

/-! Vector destinations (R137): the write of a register, element by element. -/

namespace Sys2Proof.Machine
open Sys2Proof.Safety (DestElement TailElement WroteVector Healed Keeps)

/-- A register's elements fit in it. -/
theorem Hart.mvl_bits (h : Hart) (w : Nat) : w * h.mvl w ≤ 8192 := by
  have hlanes := h.lanes_le
  calc w * (4 * h.lanes * (64 / w)) = 4 * h.lanes * (w * (64 / w)) := by ring
    _ ≤ 128 * 64 := Nat.mul_le_mul (by omega) (Nat.mul_div_le 64 w)

theorem elem_lt (r w e : Nat) : elem r w e < 2 ^ w := Nat.mod_lt _ (Nat.two_pow_pos w)

theorem elem_mod (r w e : Nat) : elem r w e % 2 ^ w = elem r w e := Nat.mod_eq_of_lt (elem_lt r w e)

theorem getD_setIfInBounds_other {α : Type} {n : Nat} (v : Vector α n) {i k : Nat} (hk : k ≠ i) (x y : α) :
    (v.setIfInBounds i x).getD k y = v.getD k y := by
  unfold Vector.getD
  by_cases hlt : k < n
  · simp [hlt, hk.symm]
  · simp [hlt]

theorem Hart.getV_setV_self (h : Hart) {n b x : Nat} (hn : n < 48) (hb : b ≤ 8192) (hx : x < 2 ^ b) : (h.setV n x).getV n = x := by
  rw [Hart.getV, Hart.setV, getD_setIfInBounds_self _ hn, BitVec.toNat_ofNat,
    Nat.mod_eq_of_lt (hx.trans_le (Nat.pow_le_pow_right (by decide) hb))]

theorem Hart.getV_setV_other (h : Hart) {n k : Nat} (hk : k ≠ n) (x : Nat) : (h.setV n x).getV k = h.getV k := by
  rw [Hart.getV, Hart.setV, getD_setIfInBounds_other _ hk, Hart.getV]

theorem Hart.wrote_v (h : Hart) (n w : Nat) (p : Nat → Bool) : (h.wrote n w p).v = h.v := by
  unfold Hart.wrote
  split <;> rfl

theorem Hart.wrote_getV (h : Hart) (n w k : Nat) (p : Nat → Bool) : (h.wrote n w p).getV k = h.getV k := by
  rw [Hart.getV, Hart.wrote_v, Hart.getV]

/-- Writing register n heals none but its own slots, and takes none but its own rows out of the pool (R35, R313). -/
theorem Hart.wrote_parity (h : Hart) (n w : Nat) (p : Nat → Bool) (r : RegSlot) :
    (r ∈ (h.wrote n w p).parity → r ∈ h.parity) ∧ (r ∈ h.parity → (¬ ∃ k, r = .v n k) → r ∈ (h.wrote n w p).parity) := by
  unfold Hart.wrote
  split
  · exact ⟨fun hr => hr, fun hr _ => hr⟩
  · simp only [Hart.goodV, Hart.mem_stillBad]
    refine ⟨fun hr => hr.1, fun hr hne => ⟨hr, ?_⟩⟩
    cases r with
    | v k slot =>
      have hk : k ≠ n := fun hk => hne ⟨slot, hk ▸ rfl⟩
      simp [hk]
    | _ => rfl

theorem Hart.wrote_pooled (h : Hart) {n k : Nat} (hk : k ≠ n) (w : Nat) (p : Nat → Bool) :
    (h.wrote n w p).pooled.getD k 0 = h.pooled.getD k 0 := by
  unfold Hart.wrote
  split
  · rfl
  · simp only [Hart.goodV]
    split
    · rfl
    · exact getD_setIfInBounds_other _ hk _ _

/-- A written register's elements, by R137. -/
theorem State.elem_writeBut (s : State) {n : Nat} (hn : n < 48) (w mask : Nat) (stop : Option Nat) (kept : Nat → Bool) (new : Nat → Nat)
    {e : Nat} (he : e < s.hart.mvl w) :
    elem ((s.writeBut n w mask stop kept new).hart.getV n) w e =
      s.hart.destElem mask stop (Config.keepsTail s.free) (elem (s.hart.getV n) w) new e % 2 ^ w := by
  rw [← elem_pack w _ he]
  exact congrArg (elem · w e) (Hart.getV_setV_self _ hn (s.hart.mvl_bits w) (pack_lt w _ _))

theorem State.writeBut_getV_other (s : State) {n k : Nat} (hk : k ≠ n) (w mask : Nat) (stop : Option Nat) (kept : Nat → Bool)
    (new : Nat → Nat) : (s.writeBut n w mask stop kept new).hart.getV k = s.hart.getV k :=
  (Hart.getV_setV_other _ hk _).trans (Hart.wrote_getV _ _ _ _ _)

end Sys2Proof.Machine

namespace Sys2Proof.Safety
open Sys2Proof.Machine

theorem healed_writeBut (s : State) (n w mask : Nat) (stop : Option Nat) (kept : Nat → Bool) (new : Nat → Nat) :
    Healed s (s.writeBut n w mask stop kept new) (fun r => ∃ k, r = .v n k) (· = n) :=
  ⟨fun r => (Hart.wrote_parity s.hart n w _ r).1, fun r => (Hart.wrote_parity s.hart n w _ r).2,
    fun _ hk => Hart.wrote_pooled s.hart hk w _⟩

theorem keeps_writeBut (s : State) (n w mask : Nat) (stop : Option Nat) (kept : Nat → Bool) (new : Nat → Nat) :
    Keeps [.vectors, .integrity, .rows, .free] s (s.writeBut n w mask stop kept new) := by
  have hw (p : Nat → Bool) : ∃ a b, s.hart.wrote n w p = { s.hart with parity := a, pooled := b } := by
    unfold Hart.wrote
    split
    · exact ⟨_, _, rfl⟩
    · exact ⟨_, _, rfl⟩
  obtain ⟨a, b, hab⟩ := hw fun e => s.hart.writes mask stop (Config.keepsTail s.free) e && !kept e
  intro p hp
  cases p <;> simp [Agree, SameRegisters, State.writeBut, State.fresh, Hart.setV, hab] at hp ⊢

/-- An element of an instruction that nothing stops is that of its statement. -/
theorem destElement_destElem (h : Hart) (mask : Nat) (keeps : Nat → Bool) (old w : Nat) (new : Nat → Nat) (e : Nat) :
    DestElement h (mask.testBit e) e (elem old w e) (new e % 2 ^ w) (h.destElem mask none keeps (elem old w) new e % 2 ^ w) := by
  have hold : elem old w e % 2 ^ w = elem old w e := elem_mod old w e
  unfold DestElement Hart.destElem TailElement
  simp only [Option.getD_none, Option.isSome_none, Bool.false_eq_true, if_false]
  split
  · exact hold
  · split
    · split
      · rfl
      · split
        · exact Nat.zero_mod _
        · exact hold
    · split
      · exact Nat.zero_mod _
      · match h.tailPolicy with
        | 0 => exact hold
        | 1 =>
          cases hk : keeps e
          · exact .inr (by simp)
          · exact .inl (by simpa [hk] using hold)
        | _ + 2 => exact Nat.zero_mod _

/-- An element of an instruction that is stopped at element f: below it by R137, from it on unchanged. -/
theorem destElement_stopped (h : Hart) (mask : Nat) (keeps : Nat → Bool) (old w : Nat) (new : Nat → Nat) {f : Nat} (hf : f ≤ h.g) (e : Nat) :
    if e < f then DestElement h (mask.testBit e) e (elem old w e) (new e % 2 ^ w)
        (h.destElem mask (some f) keeps (elem old w) new e % 2 ^ w)
      else h.destElem mask (some f) keeps (elem old w) new e % 2 ^ w = elem old w e := by
  have hold : elem old w e % 2 ^ w = elem old w e := elem_mod old w e
  unfold DestElement Hart.destElem
  simp only [Option.getD_some, Option.isSome_some, if_true]
  by_cases hef : e < f
  · simp only [hef, hef.trans_le hf, if_true]
    split
    · exact hold
    · split
      · rfl
      · split
        · exact Nat.zero_mod _
        · exact hold
  · simp only [hef, if_false, ite_self]
    exact hold

/-- A register written by an instruction that nothing stops (R137). -/
theorem wroteVector_writeV (s : State) {n : Nat} (hn : n < 48) (w mask : Nat) (new : Nat → Nat) :
    WroteVector s (s.writeV n w mask none new) n w mask new := by
  refine ⟨fun e he => ?_, fun k hk => s.writeBut_getV_other hk _ _ _ _ _, healed_writeBut s n w mask none _ new⟩
  rw [State.writeV, s.elem_writeBut hn w mask none _ new he]
  exact destElement_destElem _ _ _ _ _ _ _

end Sys2Proof.Safety

/-! Vector sources: what consuming and pushing streams changes, which losses no element meets, and the scan of an access. -/

namespace Sys2Proof.Safety
open Sys2Proof.Machine

/-! Streams (R155). -/

/-- What the streams of an instruction change: copies, with cp, and what is due. -/
structure Streams (s t : State) : Prop where
  keeps : Keeps [.copies, .counters, .agenda] s t
  counts : ∀ k, k ≠ .cp → t.hart.cnt.get k = s.hart.cnt.get k

theorem Streams.refl (s : State) : Streams s s := ⟨.refl _ s, fun _ _ => rfl⟩

theorem Streams.trans {s t u : State} (h : Streams s t) (k : Streams t u) : Streams s u :=
  ⟨h.keeps.trans k.keeps, fun x hx => (k.counts x hx).trans (h.counts x hx)⟩

theorem Streams.foldl {α : Type} {f : State → α → State} (hf : ∀ t a, Streams t (f t a)) (l : List α) (s : State) :
    Streams s (l.foldl f s) := by
  induction l generalizing s with
  | nil => exact .refl s
  | cons a l ih => exact (hf s a).trans (ih _)

/-- A change of copies that leaves the counters alone. -/
theorem Streams.of_copies {s t : State} (h : Keeps [.copies, .agenda] s t) : Streams s t :=
  ⟨h.mono (by decide), fun k _ => congrArg (Counters.get · k) (h .counters (by decide))⟩

theorem keeps_onCopy (s : State) (i : BitVec 5) (f : Copy → Copy) : Keeps [.copies] s (s.on fun h => h.onCopy i f) := by
  intro p hp
  cases p <;> simp [Agree, SameRegisters, Hart.onCopy] at hp ⊢

/-- A stream taken further by an instruction that is not complete. -/
theorem keeps_consume_part (s : State) (v : BitVec 6) (k n : Nat) : Keeps [.copies, .agenda] s (s.consume v k n false) := by
  unfold State.consume
  split
  · exact .refl _ s
  · split
    · exact .refl _ s
    next c _ =>
      simp only [Bool.false_and, Bool.false_eq_true, if_false]
      split
      · exact ((keeps_onCopy s _ _).mono (by decide)).trans ((keeps_due _ _).mono (by decide))
      · exact (keeps_onCopy s _ _).mono (by decide)

theorem streams_consume (s : State) (v : BitVec 6) (k n : Nat) (complete : Bool) : Streams s (s.consume v k n complete) := by
  cases complete with
  | false => exact .of_copies (keeps_consume_part s v k n)
  | true =>
    unfold State.consume
    split
    · exact .refl s
    next i _ =>
      split
      · exact .refl s
      next c _ =>
        simp only [Bool.true_and]
        split
        · refine ⟨(keeps_releasedHart s i).mono (by decide), fun x hx => ?_⟩
          cases x with
          | ld => rfl
          | st => rfl
          | cp => exact absurd rfl hx
          | tl => rfl
        · have hcopy := (keeps_onCopy s i fun _ => c.consumed k s.hart.span n).mono (m := [.copies, .agenda]) (by decide)
          split
          · exact .of_copies (hcopy.trans ((keeps_due _ _).mono (by decide)))
          · exact .of_copies hcopy

theorem streams_consumeAll (s : State) (srcs : List Source) : Streams s (s.consumeAll srcs) :=
  .foldl (fun t v => streams_consume t v _ _ _) _ s

theorem keeps_consumeUpTo_part (s : State) (srcs : List Source) (n : Nat) : Keeps [.copies, .agenda] s (s.consumeUpTo srcs n false) := by
  unfold State.consumeUpTo
  generalize ((srcs.map (·.field)).filter isStream).eraseDups = l
  induction l generalizing s with
  | nil => exact .refl _ s
  | cons v l ih => exact (keeps_consume_part s v _ n).trans (ih _)

/-! The end of a vector access. -/

/-- The state of a vector access that has issued its operation and is complete. -/
def vectorEnd (u : State) (k : OpClass) : State := ((u.issueOp k).on fun h => { h with vstart := 0 }).skip 4

theorem vectorDone_issueOp (u : State) (k : OpClass) : (u.issueOp k).vectorDone = .next (vectorEnd u k) := rfl

theorem keeps_vstart (s : State) (x : BitVec 11) : Keeps [.vstart] s (s.on fun h => { h with vstart := x }) := by
  intro p hp
  cases p <;> simp [Agree, SameRegisters] at hp ⊢

theorem Counters.get_add (c : Counters) (k : OpClass) (d : BitVec 6) : (c.add k d).get k = c.get k + d := by cases k <;> rfl

theorem keeps_vectorEnd (v : State) (k : OpClass) : Keeps [.pc, .vstart, .counters, .agenda] v (vectorEnd v k) :=
  ((keeps_issueOp v k).mono (by decide)).trans (((keeps_vstart _ 0).mono (by decide)).trans ((keeps_skip _ 4).mono (by decide)))

/-- A vector access ends: its accesses and its destination lead from s to u, its streams from u to v. -/
theorem vectorEnd_spec {l : List Part} {s u v : State} (hk : Keeps l s u) (hl : ∀ p ∈ [Part.pc, .counters, .task], p ∉ l)
    (hv : Streams u v) {k : OpClass} (hcp : k ≠ .cp) :
    VectorDone s (vectorEnd v k) ∧ Counted s (vectorEnd v k) k ∧
      Keeps ([.pc, .vstart, .copies, .counters, .agenda] ++ l) s (vectorEnd v k) := by
  have hkv : Keeps ([.copies, .counters, .agenda] ++ l) s v :=
    (hk.mono (List.subset_append_right _ _)).trans (hv.keeps.mono (List.subset_append_left _ _))
  have hpc : v.hart.pc = s.hart.pc := (hk .pc (hl _ (by decide))).trans (hv.keeps .pc (by decide))
  have hcnt : v.hart.cnt.get k = s.hart.cnt.get k :=
    (hv.counts k hcp).trans (congrArg (Counters.get · k) (hk .counters (hl _ (by decide))))
  have hid : v.hart.id = s.hart.id := (hv.keeps .task (by decide)).1.trans (hk .task (hl _ (by decide))).1
  refine ⟨⟨by simp [vectorEnd, hpc], rfl⟩, ⟨?_, ?_⟩, ?_⟩
  · simp [vectorEnd, Counters.get_add, hcnt]
  · simp [vectorEnd, hid]
  · exact (hkv.mono (by simp)).trans ((keeps_vectorEnd v k).mono (by simp))

/-! Losses: an instruction that nothing stops inside meets none at an active element. -/

theorem firstCut_none {a b : Option (Nat × Cut)} (h : firstCut a b = none) : a = none ∧ b = none := by
  cases a with
  | none => exact ⟨rfl, h⟩
  | some x =>
    cases b with
    | none => cases h
    | some y =>
      simp only [firstCut] at h
      split at h <;> cases h

theorem breakInside_of_cutInside {h : Hart} {srcs : List Source} {mask : Nat} (hc : h.cutInside true srcs mask = none) :
    h.breakInside (h.activeCount mask) = none := by
  simpa using (firstCut_none hc).1

theorem firstBad_of_cutInside {h : Hart} {inside : Bool} {srcs : List Source} {mask : Nat} (hc : h.cutInside inside srcs mask = none) :
    h.firstBad srcs mask = none := (firstCut_none hc).2

theorem badElement_of_firstBad {h : Hart} {srcs : List Source} {mask : Nat} (hb : h.firstBad srcs mask = none) :
    ∀ e ∈ h.activeFrom mask, h.badElement srcs e = none := by
  simpa [Hart.firstBad, List.findSome?_eq_none_iff] using hb

/-- No element of an access meets a loss. -/
def Lossless (l : Losses) (es : List Nat) : Prop := ∀ e ∈ es, l.index e = none ∧ l.data e = none

theorem lossless_none (es : List Nat) : Lossless .none es := fun _ _ => ⟨rfl, rfl⟩

theorem lossless_load {h : Hart} {srcs : List Source} {mask : Nat} (hb : h.firstBad srcs mask = none) :
    Lossless (h.loadLosses srcs) (h.activeFrom mask) := fun e he => ⟨badElement_of_firstBad hb e he, rfl⟩

/-- The losses of a store are those of its sources, data first (R138). -/
theorem lossless_store {h : Hart} {x : Source} {index : List Source} {mask : Nat} (hi : index.length ≤ 1)
    (hb : h.firstBad (x :: index) mask = none) : Lossless (h.storeLosses x index) (h.activeFrom mask) := by
  intro e he
  have hbad := badElement_of_firstBad hb e he
  match index, hi with
  | [], _ => simpa [Hart.badElement, Hart.storeLosses, occurrences] using hbad
  | [y], _ =>
    simp only [Hart.badElement, List.findSome?_eq_none_iff] at hbad
    have hx : h.badIn x 0 e = none := hbad (x, 0) (by simp)
    have hy : h.badIn y (occurrences y.field [x]) e = none := hbad (y, 1) (by simp)
    simp [Hart.storeLosses, hx, hy]

/-! The scan of an access. -/

/-- The elements of an access that pass their checks, each with its address and its pieces. -/
def checkedOf (addr : Nat → Nat) (place : Nat → List Piece) (es : List Nat) : List Checked := es.map fun e => ⟨e, addr e, place e⟩

section
variable {s : State} {window : Bool} {p : Perm} {n : Nat} {addr : Nat → Nat} {l : Losses} {place : Nat → List Piece} {es : List Nat}

/-- Elements that pass their checks are scanned, then those after them. -/
theorem scanElements_append (hl : Lossless l es) (hr : Reaches s window p n addr es place) (rest : List Nat) :
    s.scanElements window p n addr l (es ++ rest) =
      ⟨checkedOf addr place es ++ (s.scanElements window p n addr l rest).ok, (s.scanElements window p n addr l rest).cut⟩ := by
  induction es with
  | nil => rfl
  | cons e es ih =>
    obtain ⟨hindex, hdata⟩ := hl e List.mem_cons_self
    have hcheck := hr e List.mem_cons_self
    rw [List.cons_append, State.scanElements, hindex, hcheck, hdata, ih (fun x hx => hl x (List.mem_cons_of_mem _ hx))
      fun x hx => hr x (List.mem_cons_of_mem _ hx)]
    rfl

theorem scanElements_reaches (hl : Lossless l es) (hr : Reaches s window p n addr es place) :
    s.scanElements window p n addr l es = ⟨checkedOf addr place es, none⟩ := by
  have h := scanElements_append hl hr []
  rw [List.append_nil] at h
  exact h.trans (by simp [State.scanElements])

/-- The scan ends at the first element that meets a cause. -/
theorem scanElements_stops {f : Nat} {x : Stop} (hl : Lossless l es) (hr : Reaches s window p n addr es place) (hf : l.index f = none)
    (hx : s.checkElement window p (addr f) n = .error x) (rest : List Nat) :
    s.scanElements window p n addr l (es ++ f :: rest) = ⟨checkedOf addr place es, some (f, .stop x)⟩ := by
  rw [scanElements_append hl hr, State.scanElements, hf, hx, List.append_nil]

end

/-- The active elements below one of them, then that one, then the others. -/
theorem activeFrom_split {h : Hart} {mask f : Nat} (hf : f ∈ h.activeFrom mask) :
    h.activeFrom mask = (h.activeFrom mask).filter (fun e => decide (e < f)) ++
      f :: (h.activeFrom mask).filter (fun e => decide (f < e)) := by
  have hsort : (h.activeFrom mask).Pairwise (· < ·) := List.pairwise_lt_range.filter _
  generalize h.activeFrom mask = es at hf hsort
  induction es with
  | nil => cases hf
  | cons e es ih =>
    rw [List.pairwise_cons] at hsort
    rcases List.mem_cons.1 hf with rfl | hmem
    · have hbelow : es.filter (fun e => decide (e < f)) = [] := by
        rw [List.filter_eq_nil_iff]
        intro e he
        have := hsort.1 e he
        simp only [decide_eq_true_eq]
        omega
      have habove : es.filter (fun e => decide (f < e)) = es := by
        rw [List.filter_eq_self]
        intro e he
        simpa using hsort.1 e he
      simp [hbelow, habove]
    · have hef : e < f := hsort.1 f hmem
      have hfe : ¬ f < e := by omega
      rw [List.filter_cons_of_pos (by simpa using hef), List.filter_cons_of_neg (by simpa using hfe), List.cons_append, ← ih hmem hsort.2]

theorem mem_activeFrom {h : Hart} {mask e : Nat} :
    e ∈ h.activeFrom mask ↔ e < h.g ∧ h.vstart.toNat ≤ e ∧ mask.testBit e = true := by
  simp [Hart.activeFrom]

end Sys2Proof.Safety

/-! Vector loads and stores (R143, R144, R150). -/

namespace Sys2Proof.Safety
open Sys2Proof.Machine

/-! The addresses of elements. -/

theorem addr64_natCast (x : Nat) : addr64 x = x % 2 ^ 64 := by
  rw [addr64, ← Int.natCast_mod, Int.toNat_natCast]

theorem unitAddr_eq (s : State) (b : BitVec 5) : s.unitAddr b = unitAddress s b := by
  funext e
  exact addr64_natCast _

theorem strideAddr_eq (s : State) (b x : BitVec 5) : s.strideAddr b x = strideAddress s b x := by
  funext e
  rw [State.strideAddr, strideAddress, addr64, BitVec.toNat_ofInt]
  congr 1
  rw [BitVec.toInt_eq_toNat_bmod (s.rs b), Int.add_emod, Int.add_emod (Int.bmod _ _), Int.bmod_emod]

theorem loadIndex_eq (s : State) (b : BitVec 5) (x : BitVec 6) :
    s.indexAddr b (s.indexValue [] x) = indexAddress s b [⟨x, s.hart.sew⟩] 0 := by
  funext e
  exact addr64_natCast _

theorem storeIndex_eq (s : State) (b : BitVec 5) (v x : BitVec 6) :
    s.indexAddr b (s.indexValue [⟨v, s.hart.sew⟩] x) = indexAddress s b [⟨v, s.hart.sew⟩, ⟨x, s.hart.sew⟩] 1 := by
  funext e
  exact addr64_natCast _

/-! Elements loaded. -/

theorem noteElements_quiet {s : State} (hr : s.hart.region = none) (l : List Checked) : s.Quiet (s.noteElements l) :=
  .foldl_outside (fun _ _ ht => .ite (.refl _) (State.noteReads_quiet ht _ _)) l hr

/-- The value found for a checked element. -/
theorem loaded_checkedOf (s : State) (addr : Nat → Nat) (place : Nat → List Piece) {es : List Nat} {e : Nat} (he : e ∈ es) :
    loaded ((checkedOf addr place es).map fun c => (c.e, s.peek c.ps)) e = s.peek (place e) := by
  have hfind : (((checkedOf addr place es).map fun c => (c.e, s.peek c.ps)).find? fun p => decide (p.1 = e)) = some (e, s.peek (place e)) := by
    induction es with
    | nil => cases he
    | cons x es ih =>
      by_cases hx : x = e
      · subst hx
        simp [checkedOf]
      · have hmem : e ∈ es := (List.mem_cons.1 he).resolve_left fun h => hx h.symm
        have ih := ih hmem
        simp only [checkedOf, List.map_map, List.map_cons] at ih ⊢
        rw [List.find?_cons_of_neg (by simpa using hx)]
        exact ih
  rw [loaded, hfind]
  rfl

/-! Destinations after the accesses of a load. -/

/-- The parts on which the write of a destination depends. -/
def destParts : List Part := [.vectors, .length, .vt, .vstart, .split, .integrity, .rows]

theorem DestElement.congr {h : Hart} {active : Bool} {e old new new' x : Nat} (hd : DestElement h active e old new x)
    (heq : active = true → h.vstart.toNat ≤ e → e < h.g → new' = new) : DestElement h active e old new' x := by
  unfold DestElement at hd ⊢
  split
  next hv => rwa [if_pos hv] at hd
  next hv =>
    rw [if_neg hv] at hd
    split
    next hg =>
      rw [if_pos hg] at hd
      split
      next ha => exact (if_pos ha ▸ hd).trans (heq ha (by omega) hg).symm
      next ha => rwa [if_neg ha] at hd
    next hg => rwa [if_neg hg] at hd

theorem destElement_of_agree {s u : State} (hl : Agree s u .length) (ht : Agree s u .vt) (hv : Agree s u .vstart) :
    DestElement u.hart = DestElement s.hart := by
  obtain ⟨hvl, hpad⟩ := hl
  have hg : u.hart.g = s.hart.g := by rw [Hart.g, hvl, hpad, Hart.g]
  have hzero : u.hart.maskZero = s.hart.maskZero := by rw [Hart.maskZero, ht, Hart.maskZero]
  have htail : TailElement u.hart = TailElement s.hart := by
    funext old x
    rw [TailElement, Hart.tailPolicy, ht]
    rfl
  funext active e old new x
  rw [DestElement, hv, hg, hzero, hvl, htail]
  rfl

/-- What a step keeps of the registers. -/
theorem registers_of_keeps {l : List Part} {s u : State} (hk : Keeps l s u) (hl : ∀ p ∈ [Part.vectors, .integrity, .rows], p ∉ l) :
    (∀ n, u.hart.getV n = s.hart.getV n) ∧ u.hart.parity = s.hart.parity ∧ u.hart.pooled = s.hart.pooled := by
  have hvec : u.hart.v = s.hart.v := hk .vectors (hl _ (by decide))
  exact ⟨fun n => congrArg (fun v => (Vector.getD v n 0).toNat) hvec, hk .integrity (hl _ (by decide)), hk .rows (hl _ (by decide))⟩

/-- What a step keeps of what a destination depends on. -/
theorem shape_of_keeps {l : List Part} {s u : State} (hk : Keeps l s u) (hl : ∀ p ∈ destParts, p ∉ l) :
    DestElement u.hart = DestElement s.hart ∧ ∀ w, u.hart.mvl w = s.hart.mvl w := by
  refine ⟨destElement_of_agree (hk _ (hl _ (by decide))) (hk _ (hl _ (by decide))) (hk _ (hl _ (by decide))), fun w => ?_⟩
  simp only [Hart.mvl, Hart.lanes, (hk .split (hl _ (by decide))).1]

/-- A destination written after a step that keeps what it depends on is written in the step as a whole. -/
theorem WroteVector.of_keeps {l : List Part} {s u t : State} (hk : Keeps l s u) (hl : ∀ p ∈ destParts, p ∉ l) {d w mask : Nat}
    {new new' : Nat → Nat} (h : WroteVector u t d w mask new) (heq : ∀ e ∈ s.hart.activeFrom mask, new' e = new e) :
    WroteVector s t d w mask new' := by
  obtain ⟨hget, hpar, hrows⟩ := registers_of_keeps hk fun p hp => hl p ((by decide : [Part.vectors, .integrity, .rows] ⊆ destParts) hp)
  obtain ⟨hdest, hmvl⟩ := shape_of_keeps hk hl
  obtain ⟨helem, hother, hheal⟩ := h
  simp only [hdest, hmvl, hget, Healed, hpar, hrows] at helem hother hheal
  refine ⟨fun e he => (helem e he).congr fun ha hv hg => ?_, hother, hheal⟩
  rw [heq e (mem_activeFrom.2 ⟨hg, hv, ha⟩)]

/-- What follows a written destination and keeps vector registers leaves it written. -/
theorem WroteVector.trans_keeps {l : List Part} {s u t : State} {d w mask : Nat} {new : Nat → Nat} (h : WroteVector s u d w mask new)
    (hk : Keeps l u t) (hl : ∀ p ∈ [Part.vectors, .integrity, .rows], p ∉ l) : WroteVector s t d w mask new := by
  obtain ⟨hget, hpar, hrows⟩ := registers_of_keeps hk hl
  simpa only [WroteVector, Healed, hget, hpar, hrows] using h

theorem StoredNothing.trans_keeps {l : List Part} {s u t : State} (h : StoredNothing s u) (hk : Keeps l u t)
    (hl : ∀ p ∈ [Part.memory, .localStore], p ∉ l) : StoredNothing s t := by
  have hmem : t.mem = u.mem := (hk .memory (hl _ (by decide))).1
  have hlocal : t.lstore = u.lstore := hk .localStore (hl _ (by decide))
  exact ⟨fun hu => hmem.trans (h.1 hu), hlocal.trans h.2⟩

theorem isStream_false {d : BitVec 6} (h : isStream d = false) : d.toNat < 48 := by
  simpa [isStream] using h

/-! Stores. -/

theorem checkElement_pieces {s : State} {window : Bool} {p : Perm} {va n : Nat} {ps : List Piece}
    (h : s.checkElement window p va n = .ok ps) : s.pieces s.hart window p va n = .ok ps := by
  unfold State.checkElement at h
  split at h
  · cases h
  · split at h
    · cases h
    · exact h

theorem keeps_heal (s : State) (m l : List Nat) : Keeps [.poison] s (s.heal m l) := by
  unfold State.heal
  extract_lets m' l'
  split
  · exact .refl _ s
  · intro p hp
    cases p <;> simp [Agree, SameRegisters] at hp ⊢

theorem keeps_healPieces (s : State) (ps : List Piece) : Keeps [.poison] s (s.healPieces ps) := by
  unfold State.healPieces
  extract_lets bytes
  split
  · exact .refl _ s
  · exact keeps_heal s _ _

theorem StoredInOrder.trans_keeps {l : List Part} {s u t : State} {ws : List (List Piece × Nat)} (h : StoredInOrder s u ws)
    (hk : Keeps l u t) (hl : ∀ p ∈ [Part.memory, .localStore], p ∉ l) : StoredInOrder s t ws := by
  have hmem : t.mem = u.mem := (hk .memory (hl _ (by decide))).1
  have hlocal : t.lstore = u.lstore := hk .localStore (hl _ (by decide))
  simpa only [StoredInOrder, hmem, hlocal] using h

/-- The elements that a store writes, each with its pieces and its value. -/
def elementStores (place : Nat → List Piece) (value : Nat → Nat) (es : List Nat) : List (List Piece × Nat) :=
  es.map fun e => (place e, value e)

/-- Checked elements are stored in order. -/
theorem pokeElements_spec {s : State} (hs : Canonical s) (hr : s.hart.region = none) {window : Bool} {p : Perm} {n : Nat} (hn : n ≤ 64)
    {addr : Nat → Nat} {place : Nat → List Piece} {es : List Nat} (hreach : Reaches s window p n addr es place) (value : Nat → Nat) :
    s.Traffic (s.pokeElements n value (checkedOf addr place es)) ∧
      StoredInOrder s (s.pokeElements n value (checkedOf addr place es)) (elementStores place value es) := by
  have hp : s.Performs (s.pokeElements n value (checkedOf addr place es))
      ((checkedOf addr place es).flatMap fun c => c.ps.map (·, value c.e)) := by
    refine State.Performs.foldl (fun t c ht => ?_) _ hr
    rw [State.lost_of_none hr, if_neg Bool.false_ne_true]
    exact State.poke_performs ht _ _ _ _ _
  have hlist : (checkedOf addr place es).flatMap (fun c => c.ps.map (·, value c.e)) =
      (elementStores place value es).flatMap fun q => q.1.map (·, q.2) := by
    simp only [checkedOf, elementStores, List.flatMap_map]
  rw [hlist] at hp
  refine ⟨hp.traffic, hp.storedInOrder hs fun q hq => ?_⟩
  obtain ⟨e, he, rfl⟩ := List.mem_map.1 hq
  exact State.pieces_apart hn (checkElement_pieces (hreach e he))

theorem esz_le (f : Fmt) : f.esz ≤ 64 := by cases f <;> decide

/-- The data of a store are its first source. -/
theorem data_eq (xs : List Nat) (w : Nat) : (fun e => elem (xs.headD 0) w e) = pick xs 0 w := by
  funext e
  cases xs <;> rfl

/-- A store whose active elements all pass their checks. -/
theorem vstore_spec {s : State} (hs : Canonical s) (window : Bool) (v : BitVec 6) (mask : Nat) {index : List Source} (hi : index.length ≤ 1)
    (addr : Nat → Nat) {place : Nat → List Piece} (hr : s.hart.region = none) (hfull : s.full .st = false)
    (hh : s.hold (⟨v, s.hart.sew⟩ :: index) none = none) (hcut : s.hart.cutInside true (⟨v, s.hart.sew⟩ :: index) mask = none)
    (hreach : Reaches s window .store s.hart.fmt.esz addr (s.hart.activeFrom mask) place) :
    ∃ t, s.vstore window v mask index addr = .next t ∧
      StoredInOrder s t ((s.hart.activeFrom mask).map fun e =>
        (place e, pick (s.hart.sourceValues (⟨v, s.hart.sew⟩ :: index)) 0 s.hart.sew e)) ∧
      VectorDone s t ∧ Counted s t .st ∧ Keeps (.localStore :: vectorEffects ++ accessEffects) s t := by
  let es := checkedOf addr place (s.hart.activeFrom mask)
  let value := pick (s.hart.sourceValues (⟨v, s.hart.sew⟩ :: index)) 0 s.hart.sew
  let u := (s.pokeElements s.hart.fmt.esz value es).healPieces (es.flatMap (·.ps))
  have hscan : s.scan window .store s.hart.fmt.esz addr (s.hart.storeLosses ⟨v, s.hart.sew⟩ index) mask none = ⟨es, none⟩ :=
    scanElements_reaches (lossless_store hi (firstBad_of_cutInside hcut)) hreach
  obtain ⟨htraffic, hstored⟩ := pokeElements_spec hs hr (esz_le _) hreach value
  have hu : s.Traffic u := htraffic.trans (State.healPieces_traffic _ _)
  have hku : Keeps (.localStore :: accessEffects) s u := keeps_traffic hu hr
  have hstreams := streams_consumeAll u (⟨v, s.hart.sew⟩ :: index)
  have hregion : (u.consumeAll (⟨v, s.hart.sew⟩ :: index)).hart.region = none :=
    ((hku .region (by decide)).trans (hstreams.keeps .region (by decide))).1.trans hr
  have hexec : s.vstore window v mask index addr = .next (vectorEnd (u.consumeAll (⟨v, s.hart.sew⟩ :: index)) .st) := by
    simp only [State.vstore, hh, hr, hfull, breakInside_of_cutInside hcut, hscan, State.lost_of_none hr, data_eq,
      Option.isSome_none, Bool.false_and, Bool.false_eq_true, if_false]
    rw [State.issueStore_of_none hregion, vectorDone_issueOp]
  obtain ⟨hdone, hcount, hkeep⟩ := vectorEnd_spec hku (by decide) hstreams (k := .st) (by decide)
  have hend := hstreams.keeps.mono (m := [.copies, .counters, .agenda, .pc, .vstart]) (by decide)
    |>.trans ((keeps_vectorEnd _ .st).mono (by decide))
  exact ⟨_, hexec, (hstored.trans_keeps (keeps_healPieces _ _) (by decide)).trans_keeps hend (by decide), hdone, hcount,
    hkeep.mono (by decide)⟩

theorem vectorStore_of_exec {i : Instr} {s : State} (hs : Canonical s) {window : Bool} {v : BitVec 6} {index : List Source}
    (hi : index.length ≤ 1) {mask : Nat} {addr : Nat → Nat}
    (h : s.hart.region = none → exec i s = s.vstore window v mask index addr) : VectorStore i s window v index mask addr := by
  intro place srcs hr hfull hh hcut hreach
  rw [h hr]
  exact vstore_spec hs window v mask hi addr hr hfull hh hcut hreach

/-- Settles O34: each form is `vstore` at its addresses. -/
theorem vectorStores : Obligations.VectorStores := by
  intro s c m x b k v hs w M index address
  simp only [address, index, w, M, ← unitAddr_eq, ← strideAddr_eq, ← storeIndex_eq]
  exact ⟨vectorStore_of_exec hs (by decide) fun _ => rfl, vectorStore_of_exec hs (by decide) fun _ => rfl,
    fun hg => vectorStore_of_exec hs (List.length_singleton.le) fun _ => if_neg (by simp [hg]), fun hg => if_pos hg,
    vectorStore_of_exec hs (by decide) fun hr => State.outsideRegion_of_none hr _,
    vectorStore_of_exec hs (by decide) fun hr => State.outsideRegion_of_none hr _,
    vectorStore_of_exec hs (List.length_singleton.le) fun hr => State.outsideRegion_of_none hr _⟩

end Sys2Proof.Safety

/-! The refutation of O33. A hart's vl may pass MVL in a canonical state, and no register holds the elements beyond MVL. -/

namespace Sys2Proof.Safety
open Sys2Proof Sys2Proof.Machine

/-- What an active element of a destination holds. -/
theorem DestElement.of_active {h : Hart} {active : Bool} {e old new x : Nat} (hd : DestElement h active e old new x) (ha : active = true)
    (hv : h.vstart.toNat ≤ e) (hg : e < h.g) : x = new := by
  rwa [DestElement, if_neg (by omega), if_pos hg, if_pos ha] at hd

/-- A register holds 128 elements of 64 bits. -/
theorem elem_getV_beyond (h : Hart) (n : Nat) : elem (h.getV n) 64 128 = 0 := by
  have hfit : h.getV n >>> 8192 = 0 := by
    rw [Nat.shiftRight_eq_div_pow]
    exact Nat.div_eq_of_lt (h.v.getD n 0).isLt
  exact congrArg (· % 2 ^ 64) hfit

/-- A hart with vl = 200, beyond the MVL of 128 for its doublewords, stands at a fault-first load of the last 129 doublewords of page 0 and
of more behind them. Its translation buffer holds that page alone, and the doubleword at 4088 is 1. -/
def overlongLoad : State := { State.reset with
  hart := { (Hart.idle ⟨0, 0, 0, false⟩).setS 1 (BitVec.ofNat 64 (4096 - 8 * 129)) with vl := 200 }
  mem := [(4088, 1)]
  pkg := { Pkg.reset with tlb := [⟨⟨0, 0, 0, false⟩, 0, 0, 0, 7⟩] } }

theorem canonical_overlongLoad : Canonical overlongLoad := by
  unfold Canonical
  decide +kernel

/-- Where element e of the load lies. -/
def overlongPlace (e : Nat) : List Piece := [⟨unitAddress overlongLoad 1 e, .mem (unitAddress overlongLoad 1 e), 8, 0⟩]

/-- Refutes O33: in `overlongLoad` element 129 faults, so that vldff loads the elements below it, and element 128, which is 1 in memory, is
not in the register. The statement lacks a premise that vl is at most MVL. -/
theorem not_vectorLoads : ¬ Obligations.VectorLoads := by
  intro h
  obtain ⟨-, -, -, -, -, -, -, -, htrim⟩ := h overlongLoad 0 0 0 1 0 0 canonical_overlongLoad
  obtain ⟨t, -, -, -, helem, -⟩ := htrim overlongPlace 129 0 4096 5 0 rfl (by decide +kernel) (by decide +kernel) rfl (by decide +kernel)
    (by decide +kernel) (by decide +kernel) (by decide) (by unfold Reaches; decide +kernel) (by decide +kernel) (.inl rfl) (.inl (by decide +kernel))
    (by decide +kernel)
  have hmask : (overlongLoad.hart.getM (0 : BitVec 3).toNat).testBit 128 = true := by decide +kernel
  have hone : overlongLoad.peek (overlongPlace 128) % 2 ^ overlongLoad.hart.sew = 1 := by decide +kernel
  generalize overlongLoad.hart.getM (0 : BitVec 3).toNat = M at hmask helem
  have hread := ((helem 128 (by decide +kernel)).of_active hmask (by decide +kernel) (by decide +kernel)).trans hone
  exact absurd ((elem_getV_beyond t.hart (0 : BitVec 6).toNat).symm.trans hread) (by decide)

end Sys2Proof.Safety

/-! Pair forms (R150). -/

namespace Sys2Proof.Machine
open Sys2Proof.Safety

/-- n bytes of the local stores written, which clears the reservations on a block. -/
def State.putStore (s : State) (k n x block : Nat) : State :=
  ({ s with lstore := s.lstore.write k n x }).clearReservations block

theorem State.putStore_performs (s : State) (k n x block : Nat) :
    s.Performs (s.putStore k n x block) [(⟨0, .store k, n, 0⟩, x)] where
  traffic := by
    have hwrite : s.Traffic { s with lstore := s.lstore.write k n x } :=
      ⟨rfl, rfl, id, fun h => Memory.wf_write h _ _ _, id, fun _ => .refl _⟩
    exact hwrite.trans (State.clearReservations_traffic _ _)
  untraced _ hu c := by
    have h : (s.putStore k n x block).ctxs = s.ctxs := by
      unfold State.putStore State.clearReservations
      split <;> rfl
    rw [State.ctx, h]
    exact hu c
  bytes hs := by
    have hbyte (y : Place) : (s.putStore k n x block).byteAt y = ({ s with lstore := s.lstore.write k n x } : State).byteAt y :=
      State.clearReservations_byteAt _ _ _
    have hmem (y : Nat) := Memory.byte_write hs.2.1 k n x y
    refine ⟨fun y _ hy => ?_, fun before w after e j hj _ _ => ?_⟩
    · rw [hbyte]
      cases y with
      | mem a => rfl
      | store a =>
        refine (hmem a).trans (if_neg fun ⟨h1, h2⟩ => hy _ List.mem_cons_self ⟨a - k, by dsimp only; omega, ?_⟩)
        rw [Place.shift]
        congr 1
        omega
    · cases before with
      | cons b before => simp at e
      | nil =>
        cases e
        rw [hbyte, Place.shift]
        dsimp only at hj
        refine (hmem _).trans ((if_pos (by omega)).trans ?_)
        rw [Nat.add_sub_cancel_left, Nat.zero_add]

end Sys2Proof.Machine

namespace Sys2Proof.Safety
open Sys2Proof.Machine

theorem keeps_clearReservations (s : State) (block : Nat) : Keeps [.reservation, .others] s (s.clearReservations block) := by
  have hclear (h : Hart) : ∃ r, (if h.reservation = some block then { h with reservation := none } else h) = { h with reservation := r } := by
    split
    · exact ⟨none, rfl⟩
    · exact ⟨h.reservation, rfl⟩
  unfold State.clearReservations
  split
  · obtain ⟨r, hr⟩ := hclear s.hart
    intro p hp
    cases p <;> simp [Agree, SameRegisters, State.updateAll, hr] at hp ⊢
  · exact .refl _ s

theorem keeps_lstore (s : State) (m : Memory) : Keeps [.localStore] s { s with lstore := m } := by
  intro p hp
  cases p <;> simp [Agree, SameRegisters] at hp ⊢

theorem keeps_putStore (s : State) (k n x block : Nat) :
    Keeps [.localStore, .reservation, .others] s (s.putStore k n x block) :=
  ((keeps_lstore s _).mono (by decide)).trans ((keeps_clearReservations _ block).mono (by decide))

/-! The load: a chunk fills one group of elements in each of two registers. -/

theorem Healed.trans {s t u : State} {a b c : RegSlot → Prop} {p q r : Nat → Prop} (h : Healed s t a p) (k : Healed t u b q)
    (hab : ∀ x, a x ∨ b x → c x) (hpq : ∀ n, p n ∨ q n → r n) : Healed s u c r := by
  obtain ⟨hsub, hkept, hrows⟩ := h
  obtain ⟨ksub, kkept, krows⟩ := k
  exact ⟨fun x hx => hsub x (ksub x hx), fun x hx hc => kkept x (hkept x hx fun ha => hc (hab x (.inl ha))) fun hb => hc (hab x (.inr hb)),
    fun n hn => (krows n fun hq => hn (hpq n (.inr hq))).trans (hrows n fun hp => hn (hpq n (.inl hp)))⟩

/-- A chunk holds the element of each active one from vstart on. -/
theorem mem_activeChunks {h : Hart} {mask e : Nat} (hp : 0 < h.perChunk) (he : e ∈ h.activeFrom mask) :
    e / h.perChunk ∈ h.activeChunks mask := by
  obtain ⟨hg, hv, hm⟩ := mem_activeFrom.1 he
  have hsplit : e / h.perChunk * h.perChunk + e % h.perChunk = e := Nat.div_add_mod' e _
  have hrange : e / h.perChunk < (h.g + h.perChunk - 1) / h.perChunk := by
    rw [← Nat.succ_le_iff, Nat.succ_eq_add_one, ← Nat.add_div_right e hp]
    exact Nat.div_le_div_right (by omega)
  simp only [Hart.activeChunks, List.mem_filter, List.mem_range, List.any_eq_true, Bool.and_eq_true, decide_eq_true_eq]
  exact ⟨hrange, e % h.perChunk, Nat.mod_lt _ hp, by simpa only [hsplit] using ⟨⟨hv, hg⟩, hm⟩⟩

theorem perChunk_pos (h : Hart) : 0 < h.perChunk := by
  unfold Hart.perChunk
  cases h.fmt <;> decide

theorem pairLoad_spec {s : State} {m : BitVec 3} {x b : BitVec 5} {d : BitVec 6} (hr : s.hart.region = none) (hd : d.toNat < 47)
    (hbrk : s.hart.breakInside (s.hart.activeCount (s.hart.getM m.toNat)) = none) {place : Nat → List Piece} (hfull : s.full .ld = false)
    (hlow : s.hold [] (some ⟨d, s.hart.sew⟩) = none) (hhigh : s.hold [] (some ⟨d + 1, s.hart.sew⟩) = none)
    (hreach : Reaches s true .load 16 (strideAddress s b x) (s.hart.activeChunks (s.hart.getM m.toNat)) place) :
    let h := s.hart
    let w := h.sew
    let M := h.getM m.toNat
    let p := 8 / h.fmt.esz
    ∃ t : State, exec (.lsldq m x b d) s = .next t ∧
      (∀ e, e < h.mvl w →
        DestElement h (M.testBit e) e (elem (h.getV d.toNat) w e) (elem (s.peek (place (e / p))) w (e % p))
          (elem (t.hart.getV d.toNat) w e) ∧
        DestElement h (M.testBit e) e (elem (h.getV (d.toNat + 1)) w e) (elem (s.peek (place (e / p))) w (p + e % p))
          (elem (t.hart.getV (d.toNat + 1)) w e)) ∧
      (∀ n, n ≠ d.toNat → n ≠ d.toNat + 1 → t.hart.getV n = h.getV n) ∧
      Healed s t (fun r => ∃ n k, r = .v n k ∧ (n = d.toNat ∨ n = d.toNat + 1)) (fun n => n = d.toNat ∨ n = d.toNat + 1) ∧
      VectorDone s t ∧ Issued s t .ld ∧
      Keeps (.vectors :: vectorEffects) s t := by
  intro h w M p
  let es := checkedOf (strideAddress s b x) place (h.activeChunks M)
  let found := loaded (es.map fun c => (c.e, s.peek c.ps))
  let low := fun e => elem (found (e / p)) w (e % p)
  let high := fun e => elem (found (e / p)) w (p + e % p)
  let u := s.writeV d.toNat w M none low
  let v := u.writeV (d.toNat + 1) w M none high
  have hscan : s.scanElements true .load 16 (strideAddress s b x) .none (h.activeChunks M) = ⟨es, none⟩ :=
    scanElements_reaches (lossless_none _) hreach
  have hexec : exec (.lsldq m x b d) s = .next (vectorEnd v .ld) := by
    refine (State.outsideRegion_of_none hr _).trans ?_
    simp only [hlow, hhigh, hfull, Bool.false_eq_true, if_false]
    simp only [State.mask3, strideAddr_eq, hscan, hbrk, M, h]
    exact vectorDone_issueOp v .ld
  have hfound {e : Nat} (he : e ∈ h.activeFrom M) : s.peek (place (e / p)) = found (e / p) :=
    (loaded_checkedOf s _ place (mem_activeChunks (perChunk_pos h) he)).symm
  have hne : d.toNat ≠ d.toNat + 1 := by omega
  have hku : Keeps [.vectors, .integrity, .rows, .free] s u := keeps_writeBut s _ w M none _ low
  have hkv : Keeps [.vectors, .integrity, .rows, .free] u v := keeps_writeBut u _ w M none _ high
  obtain ⟨hlowElem, hlowOther, hlowHeal⟩ := wroteVector_writeV s (n := d.toNat) (by omega) w M low
  obtain ⟨hhighElem, hhighOther, hhighHeal⟩ := wroteVector_writeV u (n := d.toNat + 1) (by omega) w M high
  have hmvl : u.hart.mvl w = h.mvl w := by
    have hsplit := (hku .split (by decide)).1
    simp only [Hart.mvl, Hart.lanes, hsplit, h]
  rw [hmvl, destElement_of_agree (hku .length (by decide)) (hku .vt (by decide)) (hku .vstart (by decide))] at hhighElem
  obtain ⟨hdone, -, hkeep⟩ := vectorEnd_spec (hku.trans hkv) (by decide) (.refl v) (k := .ld) (by decide)
  obtain ⟨hget, hpar, hrows⟩ := registers_of_keeps (keeps_vectorEnd v .ld) (by decide)
  have hheal : Healed s v (fun r => ∃ n k, r = .v n k ∧ (n = d.toNat ∨ n = d.toNat + 1)) (fun n => n = d.toNat ∨ n = d.toNat + 1) := by
    refine hlowHeal.trans hhighHeal ?_ fun n hn => hn
    rintro x (⟨k, rfl⟩ | ⟨k, rfl⟩)
    · exact ⟨_, k, rfl, .inl rfl⟩
    · exact ⟨_, k, rfl, .inr rfl⟩
  refine ⟨vectorEnd v .ld, hexec, fun e he => ⟨?_, ?_⟩, fun n h1 h2 => ?_, ?_, hdone, ?_, hkeep.mono (by decide)⟩
  · rw [hget, hhighOther _ hne]
    refine (hlowElem e he).congr fun ha hv hg => ?_
    rw [hfound (mem_activeFrom.2 ⟨hg, hv, ha⟩)]
    exact (elem_mod _ _ _).symm
  · rw [hget, ← hlowOther _ hne.symm]
    refine (hhighElem e he).congr fun ha hv hg => ?_
    rw [hfound (mem_activeFrom.2 ⟨hg, hv, ha⟩)]
    exact (elem_mod _ _ _).symm
  · rw [hget, hhighOther n h2, hlowOther n h1]
  · simpa only [Healed, hpar, hrows] using hheal
  · exact Issued.of_agree (u := v) (by simp [Issued, vectorEnd]) ((hku.trans hkv) .counters (by decide)) ((hku.trans hkv) .task (by decide))

/-! The store: the active elements of a chunk, each of its two bytes ranges on its own. -/

/-- The bytes of a chunk at `key` that a pair store writes: n bytes for each element, at its place there. -/
def State.putChunk (t : State) (key n : Nat) (parts : List (Nat × Nat)) : State :=
  parts.foldl (fun t q => State.putStore t (key + q.1 * n) n q.2 (Place.store key).block) t

/-- What a pair store writes: of each chunk, the active elements of both registers (R150). -/
def pairStores (h : Hart) (mask lo hi : Nat) (key : Nat → Nat) (chunks : List Nat) : List (List Piece × Nat) :=
  chunks.flatMap fun c => (h.pairBytes mask c h.g lo hi).map fun q => ([⟨0, .store (key c + q.1 * h.fmt.esz), h.fmt.esz, 0⟩], q.2)

theorem pairStores_performs (s : State) (h : Hart) (mask lo hi : Nat) (key : Nat → Nat) (chunks : List Nat) (hr : s.hart.region = none) :
    s.Performs (chunks.foldl (fun t c => State.putChunk t (key c) h.fmt.esz (h.pairBytes mask c h.g lo hi)) s)
      ((pairStores h mask lo hi key chunks).flatMap fun q => q.1.map (·, q.2)) := by
  have hchunk (t : State) (c : Nat) (ht : t.hart.region = none) :
      t.Performs (State.putChunk t (key c) h.fmt.esz (h.pairBytes mask c h.g lo hi))
        ((h.pairBytes mask c h.g lo hi).flatMap fun q => [(⟨0, .store (key c + q.1 * h.fmt.esz), h.fmt.esz, 0⟩, q.2)]) :=
    State.Performs.foldl (f := fun (u : State) (q : Nat × Nat) =>
        State.putStore u (key c + q.1 * h.fmt.esz) h.fmt.esz q.2 (Place.store (key c)).block)
      (fun u _ _ => State.putStore_performs u _ _ _ _) _ ht
  have hall := State.Performs.foldl hchunk chunks hr
  rw [pairStores, List.flatMap_assoc]
  simpa only [List.flatMap_map, List.map_cons, List.map_nil] using hall

theorem keeps_pairStores (s : State) (h : Hart) (mask lo hi : Nat) (key : Nat → Nat) (chunks : List Nat) :
    Keeps [.localStore, .reservation, .others] s
      (chunks.foldl (fun t c => State.putChunk t (key c) h.fmt.esz (h.pairBytes mask c h.g lo hi)) s) :=
  Keeps.foldl (fun t _ => Keeps.foldl (fun u _ => keeps_putStore u _ _ _ _) _ t) _ s

/-- Healing granules of the local stores leaves memory's poison. -/
theorem heal_local_poison (s : State) (l : List Nat) : (s.heal [] l).pkg.poison = s.pkg.poison := by
  have hnone : filled s.pkg.poison [] = [] := by
    rw [filled, List.filter_eq_nil_iff]
    exact fun g _ => by simpa using ⟨0, by decide⟩
  unfold State.heal
  rw [hnone]
  extract_lets l'
  split
  · rfl
  · simp [l']

/-- The bytes of the local stores that a pair store fills. -/
def pairKeys (h : Hart) (mask lo hi : Nat) (key : Nat → Nat) (chunks : List Nat) : List Nat :=
  chunks.flatMap fun c => (h.pairBytes mask c h.g lo hi).flatMap fun q => (List.range h.fmt.esz).map (key c + q.1 * h.fmt.esz + ·)

theorem pairStore_spec {s : State} {m : BitVec 3} {x b : BitVec 5} {d : BitVec 6} (hs : Canonical s) (hr : s.hart.region = none)
    (hbrk : s.hart.breakInside (s.hart.activeCount (s.hart.getM m.toNat)) = none) {key : Nat → Nat} (hfull : s.full .st = false)
    (hhold : s.hold [⟨d, s.hart.sew⟩, ⟨d + 1, s.hart.sew⟩] none = none)
    (hbad : s.hart.firstBad [⟨d, s.hart.sew⟩, ⟨d + 1, s.hart.sew⟩] (s.hart.getM m.toNat) = none)
    (hreach : Reaches s true .store 16 (strideAddress s b x) (s.hart.activeChunks (s.hart.getM m.toNat))
      (fun c => [⟨strideAddress s b x c, .store (key c), 16, 0⟩])) :
    let h := s.hart
    let M := h.getM m.toNat
    ∃ t : State, exec (.lsstq m x b d) s = .next t ∧
      StoredInOrder s t (pairStores h M (h.getV d.toNat) (h.getV (d.toNat + 1)) key (h.activeChunks M)) ∧
      VectorDone s t ∧ Issued s t .st ∧ t.pkg.poison = s.pkg.poison ∧
      Keeps (.localStore :: .reservation :: .others :: .poison :: vectorEffects) s t := by
  intro h M
  let lo := h.getV d.toNat
  let hi := h.getV (d.toNat + 1)
  let u := (h.activeChunks M).foldl (fun t c => State.putChunk t (key c) h.fmt.esz (h.pairBytes M c h.g lo hi)) s
  have hperf : s.Performs u _ := pairStores_performs s h M lo hi key (h.activeChunks M) hr
  have hku : Keeps [.localStore, .reservation, .others] s u := keeps_pairStores s h M lo hi key (h.activeChunks M)
  have hstored : StoredInOrder s u (pairStores h M lo hi key (h.activeChunks M)) := hperf.storedInOrder hs fun q hq => by
    obtain ⟨c, -, hq⟩ := List.mem_flatMap.1 hq
    obtain ⟨r, -, rfl⟩ := List.mem_map.1 hq
    exact List.pairwise_singleton _ _
  let l := pairKeys h M lo hi key (h.activeChunks M)
  have hexec : exec (.lsstq m x b d) s = .next (vectorEnd (u.heal [] l) .st) := by
    have hscan : s.scanElements true .store 16 (strideAddress s b x) ⟨fun _ => none, fun c =>
        ((h.activeFrom M).filter fun e => decide (e / h.perChunk = c)).findSome? fun e => h.badElement [⟨d, h.sew⟩, ⟨d + 1, h.sew⟩] e⟩
        (h.activeChunks M) =
      ⟨checkedOf (strideAddress s b x) (fun c => [⟨strideAddress s b x c, .store (key c), 16, 0⟩]) (h.activeChunks M), none⟩ := by
      refine scanElements_reaches (fun c _ => ⟨rfl, ?_⟩) hreach
      simp only [List.findSome?_eq_none_iff, List.mem_filter]
      exact fun e he => badElement_of_firstBad hbad e he.1
    have hregion : (u.heal [] l).hart.region = none :=
      ((hku .region (by decide)).trans (keeps_heal u [] l .region (by decide))).1.trans hr
    rw [show exec (.lsstq m x b d) s = execLsstq m x b d s from rfl, execLsstq, State.outsideRegion_of_none hr]
    simp only [hhold, hfull, Bool.false_eq_true, if_false, State.mask3, strideAddr_eq]
    simp only [h, M] at hscan
    rw [hscan, hbrk, ← vectorDone_issueOp, ← State.issueStore_of_none hregion]
    simp only [checkedOf, List.foldl_map, List.flatMap_map]
    rfl
  have hheal := keeps_heal u [] l
  have hv : Keeps [.localStore, .reservation, .others, .poison] s (u.heal [] l) := (hku.mono (by decide)).trans (hheal.mono (by decide))
  obtain ⟨hdone, -, hkeep⟩ := vectorEnd_spec hv (by decide) (.refl _) (k := .st) (by decide)
  refine ⟨_, hexec, (hstored.trans_keeps hheal (by decide)).trans_keeps (keeps_vectorEnd _ .st) (by decide), hdone, ?_, ?_,
    hkeep.mono (by decide)⟩
  · exact Issued.of_agree (u := u.heal [] l) (by simp [Issued, vectorEnd]) (hv .counters (by decide)) (hv .task (by decide))
  · exact (heal_local_poison u l).trans (hku .poison (by decide)).1

/-- Settles O35: the load by `pairLoad_spec`, the store by `pairStore_spec`. -/
theorem pairForms : Obligations.PairForms := by
  intro s m x b d hs hr hd h w M p chunks hbrk
  refine ⟨fun place hfull hlow hhigh hreach => pairLoad_spec hr hd hbrk hfull hlow hhigh hreach,
    fun key hfull hhold hbad hreach => ?_⟩
  obtain ⟨t, ht, hst, h⟩ := pairStore_spec hs hr hbrk hfull hhold hbad hreach
  refine ⟨t, ht, (congrArg (StoredInOrder s t) ?_).mpr hst, h⟩
  simp only [pairStores, Hart.pairBytes, List.map_flatMap]
  refine congrArg (List.flatMap · chunks) (funext fun c => congrArg (List.flatMap · (List.range p)) (funext fun k => ?_))
  have hcond (v g m : Bool) : (v && g && g && m) = (v && g && m) := by cases v <;> cases g <;> rfl
  rw [hcond, apply_ite (List.map _)]
  rfl

end Sys2Proof.Safety

/-! Accesses that are stopped (R136 to R139, R141, R142, R321). -/

namespace Sys2Proof.Safety
open Sys2Proof.Machine

/-- The state of an access that stops at an address, with the entry reads of the walk that found the cause. -/
def walkedTo (u : State) (code : Byte) (e at_ : Nat) : State := if code = 4 ∨ inWindow at_ = true then u else u.walkAll e [at_]

/-- An access that meets a cause, outside regions. -/
theorem stopAt_trap {u : State} (hr : u.hart.region = none) {code : Byte} (h8 : code ≠ 8) (sub : Byte) (e at_ : Nat) :
    u.stopAt e (.trap code sub at_) = (walkedTo u code e at_).takeTrap code.toNat sub.toNat 0 e (some at_) := by
  simp only [State.stopAt, State.lost_of_none hr, Bool.false_eq_true, if_false, if_neg (fun h : code = 8 ∧ sub = 0 => h8 h.1), walkedTo,
    Bool.or_eq_true, decide_eq_true_eq]

/-- A misaligned access traps before anything else. -/
theorem access_misaligned {s : State} (hr : s.hart.region = none) {p : Perm} {va n : Nat} (ha : va % n ≠ 0) (k : List Piece → Res) :
    s.access p true va n k = s.takeTrap 4 0 0 0 (some va) := by
  have hal : (true && va % n != 0) = true := by simp [ha]
  rw [State.access, hr, if_neg (by simp), if_pos hal]

/-- A scalar access that meets a cause, outside regions. -/
theorem access_stops {s : State} (hr : s.hart.region = none) {p : Perm} {va n at_ : Nat} {code sub : Byte}
    (hp : s.pieces s.hart true p va n = .error (.trap code sub at_)) (h4 : code ≠ 4) (h8 : code ≠ 8) (k : List Piece → Res) :
    s.access p false va n k =
      (let u := s.walkAll 0 ([va, (va + n - 1) % 2 ^ 64].filter fun y => !inWindow y)
       if inWindow at_ = true then u else u.walkAll 0 [at_]).takeTrap code.toNat sub.toNat 0 0 (some at_) := by
  have hu := (State.walkAll_quiet hr 0 ([va, (va + n - 1) % 2 ^ 64].filter fun y => !inWindow y)).region hr
  simp only [State.access, hr, hp, State.stopWith, State.lost_of_none hr, stopAt_trap hu h8, walkedTo, h4, false_or,
    Option.isSome_none, Bool.false_and, Bool.false_eq_true, if_false]

/-- Which elements of a register a load has written that is stopped at element f: those below it, by R137. -/
def WroteBelow (s t : State) (d w mask f : Nat) (new : Nat → Nat) : Prop :=
  (∀ e, e < s.hart.mvl w → if e < f then
      DestElement s.hart (mask.testBit e) e (elem (s.hart.getV d) w e) (new e % 2 ^ w) (elem (t.hart.getV d) w e)
    else elem (t.hart.getV d) w e = elem (s.hart.getV d) w e) ∧
  (∀ n, n ≠ d → t.hart.getV n = s.hart.getV n) ∧ Healed s t (fun r => ∃ k, r = .v d k) (· = d)

theorem wroteBelow_writeV (s : State) {n : Nat} (hn : n < 48) (w mask : Nat) {f : Nat} (hf : f ≤ s.hart.g) (new : Nat → Nat) :
    WroteBelow s (s.writeV n w mask (some f) new) n w mask f new := by
  refine ⟨fun e he => ?_, fun k hk => s.writeBut_getV_other hk _ _ _ _ _, healed_writeBut s n w mask (some f) _ new⟩
  rw [State.writeV, s.elem_writeBut hn w mask (some f) _ new he]
  exact destElement_stopped _ _ _ _ _ _ hf _

theorem WroteBelow.of_keeps {l : List Part} {s u t : State} (hk : Keeps l s u) (hl : ∀ p ∈ destParts, p ∉ l) {d w mask f : Nat}
    {new new' : Nat → Nat} (h : WroteBelow u t d w mask f new)
    (heq : ∀ e ∈ (s.hart.activeFrom mask).filter fun e => decide (e < f), new' e = new e) : WroteBelow s t d w mask f new' := by
  obtain ⟨hget, hpar, hrows⟩ := registers_of_keeps hk fun p hp => hl p ((by decide : [Part.vectors, .integrity, .rows] ⊆ destParts) hp)
  obtain ⟨hdest, hmvl⟩ := shape_of_keeps hk hl
  obtain ⟨helem, hother, hheal⟩ := h
  simp only [hdest, hmvl, hget, Healed, hpar, hrows] at helem hother hheal
  refine ⟨fun e he => ?_, hother, hheal⟩
  have hd := helem e he
  split
  next hef =>
    rw [if_pos hef] at hd
    refine hd.congr fun ha hv hg => ?_
    rw [heq e (List.mem_filter.2 ⟨mem_activeFrom.2 ⟨hg, hv, ha⟩, by simpa using hef⟩)]
  next hef => rwa [if_neg hef] at hd

theorem WroteBelow.trans_keeps {l : List Part} {s u t : State} {d w mask f : Nat} {new : Nat → Nat} (h : WroteBelow s u d w mask f new)
    (hk : Keeps l u t) (hl : ∀ p ∈ [Part.vectors, .integrity, .rows], p ∉ l) : WroteBelow s t d w mask f new := by
  obtain ⟨hget, hpar, hrows⟩ := registers_of_keeps hk hl
  simpa only [WroteBelow, Healed, hget, hpar, hrows] using h

section
variable {s : State} {window : Bool} {mask : Nat} {addr : Nat → Nat} {place : Nat → List Piece} {f at_ : Nat} {code sub : Byte}

/-- The scan of an access that no loss and no breakpoint stops, up to the element that meets a cause. -/
theorem scan_stops {p : Perm} {n : Nat} {l : Losses} (hl : Lossless l (s.hart.activeFrom mask)) (hf : f ∈ s.hart.activeFrom mask)
    (hreach : Reaches s window p n addr ((s.hart.activeFrom mask).filter fun e => decide (e < f)) place)
    (hx : s.checkElement window p (addr f) n = .error (.trap code sub at_)) :
    s.scan window p n addr l mask none =
      ⟨checkedOf addr place ((s.hart.activeFrom mask).filter fun e => decide (e < f)), some (f, .stop (.trap code sub at_))⟩ := by
  have hscan := scanElements_stops (rest := (s.hart.activeFrom mask).filter fun e => decide (f < e))
    (fun e he => hl e (List.mem_filter.1 he).1) hreach (hl f hf).1 hx
  rwa [← activeFrom_split hf] at hscan

/-- A load into a register that is stopped at element f. -/
theorem vload_stops {d : BitVec 6} {srcs : List Source} (hs : Canonical s) (hr : s.hart.region = none) (hfull : s.full .ld = false)
    (hh : s.hold srcs (some ⟨d, s.hart.sew⟩) = none) (hd : isStream d = false) (hcut : s.hart.cutInside true srcs mask = none)
    (hf : f ∈ s.hart.activeFrom mask)
    (hreach : Reaches s window .load s.hart.fmt.esz addr ((s.hart.activeFrom mask).filter fun e => decide (e < f)) place)
    (hx : s.checkElement window .load (addr f) s.hart.fmt.esz = .error (.trap code sub at_)) (h8 : code ≠ 8) :
    ∃ u : State, s.vload window d mask srcs addr = (walkedTo u code f at_).takeTrap code.toNat sub.toNat 0 f (some at_) ∧
      u.hart.pc = s.hart.pc ∧ StoredNothing s u ∧ WroteBelow s u d.toNat s.hart.sew mask f (fun e => s.peek (place e)) ∧
      Keeps (.vectors :: .copies :: .integrity :: .rows :: accessEffects) s u := by
  let es := checkedOf addr place ((s.hart.activeFrom mask).filter fun e => decide (e < f))
  let new := loaded (es.map fun c => (c.e, s.peek c.ps))
  let v := (s.noteElements es).writeV d.toNat s.hart.sew mask (some f) new
  let u := v.consumeUpTo srcs (f - s.hart.vstart.toNat) false
  have q := noteElements_quiet hr es
  have hkq := keeps_quiet q hr
  have hkv := keeps_writeBut (s.noteElements es) d.toNat s.hart.sew mask (some f) (fun _ => false) new
  have hku := keeps_consumeUpTo_part v srcs (f - s.hart.vstart.toNat)
  have hk : Keeps (.vectors :: .copies :: .integrity :: .rows :: accessEffects) s u :=
    ((hkq.mono (by decide)).trans (hkv.mono (by decide))).trans (hku.mono (by decide))
  have hexec : s.vload window d mask srcs addr = u.stopAt f (.trap code sub at_) := by
    have hscan := scan_stops (lossless_load (firstBad_of_cutInside hcut)) hf hreach hx
    simp only [State.vload, hh, hr, hfull, hd, breakInside_of_cutInside hcut, hscan, State.lost_of_none hr,
      Option.isSome_none, Bool.false_and, Bool.false_eq_true, if_false]
    rfl
  have hg : f ≤ (s.noteElements es).hart.g := by
    obtain ⟨hvl, hpad⟩ := hkq .length (by decide)
    rw [Hart.g, hvl, hpad]
    exact (mem_activeFrom.1 hf).1.le
  have hwrote : WroteBelow s v d.toNat s.hart.sew mask f (fun e => s.peek (place e)) :=
    (wroteBelow_writeV (s.noteElements es) (isStream_false hd) s.hart.sew mask hg new).of_keeps hkq (by decide)
      fun e he => (loaded_checkedOf s addr place he).symm
  refine ⟨u, hexec.trans (stopAt_trap ((hk .region (by decide)).1.trans hr) h8 _ _ _), hk .pc (by decide), ?_,
    hwrote.trans_keeps hku (by decide), hk⟩
  exact ((q.storedNothing hs).trans_keeps hkv (by decide)).trans_keeps hku (by decide)

/-- A load into a stream that is stopped: its trap names element 0. -/
theorem vload_stream_stops {d : BitVec 6} {srcs : List Source} (hs : Canonical s) (hr : s.hart.region = none) (hfull : s.full .ld = false)
    (hh : s.hold srcs (some ⟨d, s.hart.sew⟩) = none) (hd : isStream d = true) (hbad : s.hart.firstBad srcs mask = none)
    (hf : f ∈ s.hart.activeFrom mask)
    (hreach : Reaches s window .load s.hart.fmt.esz addr ((s.hart.activeFrom mask).filter fun e => decide (e < f)) place)
    (hx : s.checkElement window .load (addr f) s.hart.fmt.esz = .error (.trap code sub at_)) (h8 : code ≠ 8) :
    ∃ u : State, s.vload window d mask srcs addr = (walkedTo u code 0 at_).takeTrap code.toNat sub.toNat 0 0 (some at_) ∧
      u.hart.pc = s.hart.pc ∧ StoredNothing s u ∧ Keeps accessEffects s u := by
  let es := checkedOf addr place ((s.hart.activeFrom mask).filter fun e => decide (e < f))
  have q := noteElements_quiet hr es
  have hkq := keeps_quiet q hr
  have hexec : s.vload window d mask srcs addr = (s.noteElements es).stopAt 0 (.trap code sub at_) := by
    have hscan := scan_stops (lossless_load hbad) hf hreach hx
    simp only [State.vload, hh, hr, hfull, hd, hscan, State.lost_of_none hr, Option.isSome_none, Bool.false_and, Bool.false_eq_true,
      if_false, if_true]
    rfl
  exact ⟨s.noteElements es, hexec.trans (stopAt_trap (q.region hr) h8 _ _ _), hkq .pc (by decide), q.storedNothing hs, hkq⟩

theorem loadStops_of_exec {i : Instr} (hs : Canonical s) {d : BitVec 6} {srcs : List Source} {mask : Nat} {addr : Nat → Nat}
    (h : s.hart.region = none → exec i s = s.vload window d mask srcs addr) : LoadStops i s window srcs d mask addr := by
  intro place f at_ code sub h' w hr hfull hh hcut hf hreach hx h8 e
  rw [h hr]
  cases hd : isStream d with
  | false =>
    obtain ⟨u, hu, hpc, hst, hwrote, hk⟩ := vload_stops hs hr hfull hh hd hcut hf hreach hx h8
    obtain ⟨helem, hother, hheal⟩ := hwrote
    have he : e = f := if_neg (by rw [hd]; decide)
    clear_value e
    subst he
    exact ⟨u, hu, hpc, hst, fun h => absurd h Bool.false_ne_true, fun _ => ⟨helem, hother, hheal, hk⟩⟩
  | true =>
    obtain ⟨u, hu, hpc, hst, hk⟩ := vload_stream_stops hs hr hfull hh hd (firstBad_of_cutInside hcut) hf hreach hx h8
    have he : e = 0 := if_pos hd
    clear_value e
    subst he
    exact ⟨u, hu, hpc, hst, fun _ => hk, fun h => absurd h.symm Bool.false_ne_true⟩

/-- A store that is stopped at element f. -/
theorem vstore_stops {v : BitVec 6} {index : List Source} (hi : index.length ≤ 1) (hs : Canonical s) (hr : s.hart.region = none)
    (hfull : s.full .st = false) (hh : s.hold (⟨v, s.hart.sew⟩ :: index) none = none)
    (hcut : s.hart.cutInside true (⟨v, s.hart.sew⟩ :: index) mask = none) (hf : f ∈ s.hart.activeFrom mask)
    (hreach : Reaches s window .store s.hart.fmt.esz addr ((s.hart.activeFrom mask).filter fun e => decide (e < f)) place)
    (hx : s.checkElement window .store (addr f) s.hart.fmt.esz = .error (.trap code sub at_)) (h8 : code ≠ 8) :
    ∃ u : State, s.vstore window v mask index addr = (walkedTo u code f at_).takeTrap code.toNat sub.toNat 0 f (some at_) ∧
      u.hart.pc = s.hart.pc ∧ StoredInOrder s u (((s.hart.activeFrom mask).filter fun e => decide (e < f)).map fun e =>
        (place e, pick (s.hart.sourceValues (⟨v, s.hart.sew⟩ :: index)) 0 s.hart.sew e)) ∧
      Keeps (.localStore :: .copies :: accessEffects) s u := by
  let es := checkedOf addr place ((s.hart.activeFrom mask).filter fun e => decide (e < f))
  let value := pick (s.hart.sourceValues (⟨v, s.hart.sew⟩ :: index)) 0 s.hart.sew
  let t := (s.pokeElements s.hart.fmt.esz value es).healPieces (es.flatMap (·.ps))
  let u := t.consumeUpTo (⟨v, s.hart.sew⟩ :: index) (f - s.hart.vstart.toNat) false
  obtain ⟨htraffic, hstored⟩ := pokeElements_spec hs hr (esz_le _) hreach value
  have hku := keeps_consumeUpTo_part t (⟨v, s.hart.sew⟩ :: index) (f - s.hart.vstart.toNat)
  have hk : Keeps (.localStore :: .copies :: accessEffects) s u :=
    ((keeps_traffic (htraffic.trans (State.healPieces_traffic _ _)) hr).mono (by decide)).trans (hku.mono (by decide))
  have hexec : s.vstore window v mask index addr = u.stopAt f (.trap code sub at_) := by
    have hscan := scan_stops (lossless_store hi (firstBad_of_cutInside hcut)) hf hreach hx
    simp only [State.vstore, hh, hr, hfull, breakInside_of_cutInside hcut, hscan, State.lost_of_none hr, data_eq, Option.isSome_none,
      Bool.false_and, Bool.false_eq_true, if_false]
    rfl
  exact ⟨u, hexec.trans (stopAt_trap ((hk .region (by decide)).1.trans hr) h8 _ _ _), hk .pc (by decide),
    (hstored.trans_keeps (keeps_healPieces _ _) (by decide)).trans_keeps hku (by decide), hk⟩

theorem storeStops_of_exec {i : Instr} (hs : Canonical s) {v : BitVec 6} {index : List Source} (hi : index.length ≤ 1) {mask : Nat}
    {addr : Nat → Nat} (h : s.hart.region = none → exec i s = s.vstore window v mask index addr) :
    StoreStops i s window v index mask addr := by
  intro place f at_ code sub h' srcs hr hfull hh hcut hf hreach hx h8
  rw [h hr]
  exact vstore_stops hi hs hr hfull hh hcut hf hreach hx h8

/-- A store whose first active element is misaligned stores nothing. -/
theorem vstore_misaligned {v : BitVec 6} {e : Nat} {rest : List Nat} (hr : s.hart.region = none) (hfull : s.full .st = false)
    (hh : s.hold [⟨v, s.hart.sew⟩] none = none) (hv : isStream v = false) (hbrk : s.hart.breakInside (s.hart.activeCount mask) = none)
    (hact : s.hart.activeFrom mask = e :: rest) (ha : addr e % s.hart.fmt.esz ≠ 0) :
    s.vstore window v mask [] addr = s.takeTrap 4 0 0 e (some (addr e)) := by
  have hscan : s.scan window .store s.hart.fmt.esz addr (s.hart.storeLosses ⟨v, s.hart.sew⟩ []) mask none =
      ⟨[], some (e, .stop (.trap 4 0 (addr e)))⟩ := by
    have hcheck : s.checkElement window .store (addr e) s.hart.fmt.esz = .error (.trap 4 0 (addr e)) := if_pos ha
    have hindex : (s.hart.storeLosses ⟨v, s.hart.sew⟩ []).index e = none := rfl
    rw [State.scan, hact, State.scanElements, hindex, hcheck]
  have hheal : s.healPieces [] = s := by
    have hnone (l : List Nat) : filled l [] = [] := by
      rw [filled, List.filter_eq_nil_iff]
      exact fun g _ => by simpa using ⟨0, by decide⟩
    unfold State.healPieces
    split
    · rfl
    · simp [State.heal, hnone]
  have hconsume (n : Nat) : s.consumeUpTo [⟨v, s.hart.sew⟩] n false = s := by simp [State.consumeUpTo, hv]
  simp only [State.vstore, hh, hr, hfull, hbrk, hscan, State.lost_of_none hr, Option.isSome_none, Bool.false_and, Bool.false_eq_true, if_false]
  show ((s.healPieces []).consumeUpTo _ _ false).stopAt e (.trap 4 0 (addr e)) = _
  rw [hheal, hconsume, stopAt_trap hr (by decide)]
  rfl

end

/-- Settles O11: scalar accesses by `access_misaligned` and `access_stops`, vector ones by `vload_stops` and `vstore_stops`. -/
theorem accessTraps : Obligations.AccessTraps := by
  intro s i c m x b a d k v code sub at_ e rest hs hr va h w M walked index
  simp only [index, w, h, M, ← unitAddr_eq, ← strideAddr_eq, ← loadIndex_eq, ← storeIndex_eq]
  refine ⟨fun f hf ha => ?_, fun f hf ha => ?_, fun f hf hp h4 h8 => ?_, fun f hf hp h4 h8 => ?_,
    loadStops_of_exec hs fun _ => rfl, loadStops_of_exec hs fun _ => rfl,
    fun hg => loadStops_of_exec hs fun _ => if_neg (by simp [hg]),
    loadStops_of_exec hs fun hr => State.outsideRegion_of_none hr _,
    loadStops_of_exec hs fun hr => State.outsideRegion_of_none hr _,
    loadStops_of_exec hs fun hr => State.outsideRegion_of_none hr _,
    storeStops_of_exec hs (by decide) fun _ => rfl, storeStops_of_exec hs (by decide) fun _ => rfl,
    fun hg => storeStops_of_exec hs List.length_singleton.le fun _ => if_neg (by simp [hg]),
    storeStops_of_exec hs (by decide) fun hr => State.outsideRegion_of_none hr _,
    storeStops_of_exec hs (by decide) fun hr => State.outsideRegion_of_none hr _,
    storeStops_of_exec hs List.length_singleton.le fun hr => State.outsideRegion_of_none hr _,
    fun hact ha hbrk hv hfull hh => vstore_misaligned hr hfull hh hv hbrk hact ha⟩
  · obtain ⟨-, op, hexec, -⟩ := scalarAtomics_op s c b a d f hf
    exact hexec.trans (access_misaligned hr ha _)
  · simp only [List.mem_cons, List.not_mem_nil, or_false] at hf
    rcases hf with rfl | rfl | rfl | rfl | rfl | rfl <;> exact access_misaligned hr ha _
  · rw [← State.offsetAddr_eq] at hp ⊢
    exact (scalarLoads_exec s i c b d f hf).trans (access_stops hr hp h4 h8 _)
  · rw [← State.offsetAddr_eq] at hp ⊢
    exact (scalarStores_exec s i c b d f hf).2.trans (access_stops hr hp h4 h8 _)

end Sys2Proof.Safety

/-! Atomic scatters (R146): their operations, what an access reads back, and the merge by address. -/

namespace Sys2Proof.Machine
open Sys2Proof.Safety

/-! The operations. -/

/-- The parts of a floating pattern fit in it. -/
theorem Fmt.pattern_bounds {f : Fmt} (hf : f.isFloat = true) :
    f.maxBits < f.signBit ∧ f.infBits < f.signBit ∧ f.canonicalNaN < 2 ^ f.sew ∧ 2 * f.signBit = 2 ^ f.sew := by
  cases f <;> revert hf <;> decide

/-- Rounding gives a pattern of its format. -/
theorem Num.round_lt {f : Fmt} (hf : f.isFloat = true) (r : Rnd) (x : Num) : x.round f r < 2 ^ f.sew := by
  obtain ⟨hmax, hinf, hnan, hsign⟩ := f.pattern_bounds hf
  have hsum {neg : Bool} {b : Nat} (hb : b < f.signBit) : (if neg = true then f.signBit else 0) + b < 2 ^ f.sew := by split <;> omega
  cases x with
  | nan => exact hnan
  | inf neg => exact hsum (by split <;> assumption)
  | zero neg => exact hsum (b := 0) (by omega)
  | fin neg m e =>
    simp only [Num.round]
    split
    · exact hsum (by split <;> assumption)
    · exact hsum (by omega)

theorem fpMinMax_lt {f : Fmt} (hf : f.isFloat = true) (wantMax : Bool) {a b : Nat} (ha : a < 2 ^ f.sew) (hb : b < 2 ^ f.sew) :
    fpMinMax f wantMax a b < 2 ^ f.sew := by
  have hnan := (f.pattern_bounds hf).2.2.1
  unfold fpMinMax
  split
  · split <;> assumption
  · split
    · assumption
    · split <;> assumption

theorem ofSigned_toSigned {w a : Nat} (ha : a < 2 ^ w) : ofSigned w (toSigned w a) = a := by
  have hmod : toSigned w a % ((2 ^ w : Nat) : Int) = (a : Int) % ((2 ^ w : Nat) : Int) := by
    unfold toSigned
    split
    · rw [Int.natCast_mod, Int.emod_emod]
    · rw [Int.sub_emod_right, Int.natCast_mod, Int.emod_emod]
  rw [ofSigned, hmod, ← Int.natCast_mod, Int.toNat_natCast, Nat.mod_eq_of_lt ha]

theorem scatterMin_eq {w a b : Nat} (ha : a < 2 ^ w) (hb : b < 2 ^ w) :
    (if toSigned w b < toSigned w a then b else a) = ofSigned w (min (toSigned w a) (toSigned w b)) := by
  split
  next h => rw [min_eq_right h.le, ofSigned_toSigned hb]
  next h => rw [min_eq_left (not_lt.1 h), ofSigned_toSigned ha]

theorem scatterMax_eq {w a b : Nat} (ha : a < 2 ^ w) (hb : b < 2 ^ w) :
    (if toSigned w a < toSigned w b then b else a) = ofSigned w (max (toSigned w a) (toSigned w b)) := by
  split
  next h => rw [max_eq_right h.le, ofSigned_toSigned hb]
  next h => rw [max_eq_left (not_lt.1 h), ofSigned_toSigned ha]

/-- An operation takes patterns of the format to patterns of the format. -/
theorem ScatterOp.apply_lt (op : ScatterOp) (f : Fmt) (r : Rnd) {a b : Nat} (ha : a < 2 ^ f.sew) (hb : b < 2 ^ f.sew) :
    op.apply f r a b < 2 ^ f.sew := by
  cases op with
  | add =>
    by_cases hf : f.isFloat = true
    · rw [ScatterOp.apply, if_pos hf]
      exact Num.round_lt hf r _
    · rw [ScatterOp.apply, if_neg hf]
      exact Nat.mod_lt _ (Nat.two_pow_pos _)
  | min =>
    by_cases hf : f.isFloat = true
    · rw [ScatterOp.apply, if_pos hf]
      exact fpMinMax_lt hf false ha hb
    · rw [ScatterOp.apply, if_neg hf]
      split <;> assumption
  | max =>
    by_cases hf : f.isFloat = true
    · rw [ScatterOp.apply, if_pos hf]
      exact fpMinMax_lt hf true ha hb
    · rw [ScatterOp.apply, if_neg hf]
      split <;> assumption
  | and => exact lt_of_le_of_lt Nat.and_le_left ha
  | or => exact Nat.or_lt_two_pow ha hb
  | xor => exact Nat.xor_lt_two_pow ha hb
  | swap => exact hb

/-- Two operations that agree on numbers of w bits, and stay there, combine such numbers alike. -/
theorem ordered_congr {w : Nat} {f g : Nat → Nat → Nat} (hlt : ∀ a b, a < 2 ^ w → b < 2 ^ w → f a b < 2 ^ w)
    (heq : ∀ a b, a < 2 ^ w → b < 2 ^ w → f a b = g a b) {xs : List Nat} (hx : ∀ x ∈ xs, x < 2 ^ w) :
    ordered f xs = ordered g xs ∧ ordered f xs < 2 ^ w := by
  have hfold (x : Nat) (l : List Nat) (h0 : x < 2 ^ w) (hl : ∀ y ∈ l, y < 2 ^ w) : l.foldl f x = l.foldl g x ∧ l.foldl f x < 2 ^ w := by
    induction l generalizing x with
    | nil => exact ⟨rfl, h0⟩
    | cons y l ih =>
      have hy := hl y List.mem_cons_self
      have h := ih (f x y) (hlt x y h0 hy) fun z hz => hl z (List.mem_cons_of_mem _ hz)
      exact ⟨by rw [List.foldl_cons, List.foldl_cons, h.1, heq x y h0 hy], h.2⟩
  cases xs with
  | nil => exact ⟨rfl, Nat.two_pow_pos w⟩
  | cons x l => exact hfold x l (hx x List.mem_cons_self) fun y hy => hx y (List.mem_cons_of_mem _ hy)

/-! What an access reads. -/

/-- A check outside the local-store window finds memory. -/
theorem State.place_mem {s : State} {h : Hart} {p : Perm} {va n : Nat} {x : Place} (hx : s.place h false p va n = .ok x) :
    ∃ pa, x = .mem pa := by
  unfold State.place at hx
  simp only [Bool.false_and, Bool.false_eq_true, if_false] at hx
  split at hx
  · cases hx
  · split at hx
    · cases hx
    · split at hx
      case h_4 pa _ _ =>
        repeat' split at hx
        all_goals cases hx
        exact ⟨pa, rfl⟩
      all_goals cases hx

theorem State.pieces_mem {s : State} {h : Hart} {p : Perm} {va n : Nat} {ps : List Piece} (hp : s.pieces h false p va n = .ok ps) :
    ∀ q ∈ ps, ∃ pa, q.place = .mem pa := by
  unfold State.pieces at hp
  extract_lets k at hp
  split at hp
  · cases hx : s.place h false p va n with
    | error e => simp [hx, Except.map] at hp
    | ok x =>
      simp only [hx, Except.map, Except.ok.injEq] at hp
      subst hp
      simpa using State.place_mem hx
  · split at hp
    next x y hx hy =>
      cases hp
      simpa using ⟨State.place_mem hx, State.place_mem hy⟩
    all_goals cases hp

/-- Outside regions a hart reads memory's bytes. -/
theorem State.pieceValue_mem {s : State} (hr : s.hart.region = none) {p : Piece} {pa : Nat} (hp : p.place = .mem pa) :
    s.pieceValue p = ofBytes ((List.range p.len).map fun j => s.byteAt (p.place.shift j)) := by
  simp only [State.pieceValue, hp, State.seeBytes, State.seenBy, hr]
  rfl

/-- An access whose bytes are what they were reads what it read. -/
theorem State.peek_congr {s t : State} (hs : s.hart.region = none) (ht : t.hart.region = none) {ps : List Piece}
    (hm : ∀ q ∈ ps, ∃ pa, q.place = .mem pa) (hb : ∀ q ∈ ps, ∀ j, j < q.len → t.byteAt (q.place.shift j) = s.byteAt (q.place.shift j)) :
    t.peek ps = s.peek ps := by
  have hvalue : ∀ q ∈ ps, t.pieceValue q = s.pieceValue q := fun q hq => by
    obtain ⟨pa, hpa⟩ := hm q hq
    rw [State.pieceValue_mem hs hpa, State.pieceValue_mem ht hpa]
    exact congrArg ofBytes (List.map_congr_left fun j hj => hb q hq j (List.mem_range.1 hj))
  exact List.foldl_ext _ _ _ fun a q hq => congrArg (fun v => a + v * 2 ^ (8 * q.at_)) (hvalue q hq)

/-- The number whose bytes are some bytes of x. -/
theorem ofBytes_bytes (x lo n : Nat) :
    ofBytes ((List.range n).map fun j => BitVec.ofNat 8 (x / 2 ^ (8 * (lo + j)))) = x / 2 ^ (8 * lo) % 2 ^ (8 * n) := by
  induction n generalizing lo with
  | zero => simp [ofBytes, Nat.mod_one]
  | succ n ih =>
    have htail : (List.range n).map ((fun j => BitVec.ofNat 8 (x / 2 ^ (8 * (lo + j)))) ∘ Nat.succ) =
        (List.range n).map fun j => BitVec.ofNat 8 (x / 2 ^ (8 * (lo + 1 + j))) :=
      List.map_congr_left fun j _ => by rw [Function.comp_apply, Nat.succ_eq_add_one, Nat.add_right_comm, Nat.add_assoc]
    have hdiv : x / 2 ^ (8 * (lo + 1)) = x / 2 ^ (8 * lo) / 256 := by
      rw [Nat.div_div_eq_div_mul, Nat.mul_add, Nat.pow_add]
    have hpow : 2 ^ (8 * (n + 1)) = 256 * 2 ^ (8 * n) := by
      rw [Nat.mul_add, Nat.pow_add, Nat.mul_comm]
    rw [List.range_succ_eq_map, List.map_cons, List.map_map, htail, ofBytes, ih, hdiv, hpow, Nat.mod_mul, BitVec.toNat_ofNat]
    rfl

/-- An access reads what has been stored at its pieces. -/
theorem State.peek_stored {s : State} (hr : s.hart.region = none) {h : Hart} {p : Perm} {va n x : Nat} {ps : List Piece} {u : State}
    (hp : u.pieces h false p va n = .ok ps) (hx : x < 2 ^ (8 * n))
    (hb : ∀ q ∈ ps, ∀ j, j < q.len → s.byteAt (q.place.shift j) = BitVec.ofNat 8 (x / 2 ^ (8 * (q.at_ + j)))) : s.peek ps = x := by
  have hvalue : ∀ q ∈ ps, s.pieceValue q = x / 2 ^ (8 * q.at_) % 2 ^ (8 * q.len) := fun q hq => by
    obtain ⟨pa, hpa⟩ := State.pieces_mem hp q hq
    rw [State.pieceValue_mem hr hpa, ← ofBytes_bytes]
    exact congrArg ofBytes (List.map_congr_left fun j hj => hb q hq j (List.mem_range.1 hj))
  unfold State.pieces at hp
  extract_lets k at hp
  split at hp
  · cases hplace : u.place h false p va n with
    | error e => simp [hplace, Except.map] at hp
    | ok y =>
      simp only [hplace, Except.map, Except.ok.injEq] at hp
      subst hp
      rw [State.peek_one, hvalue _ List.mem_cons_self]
      simp [Nat.mod_eq_of_lt hx]
  next hk =>
    split at hp
    next y z _ _ =>
      cases hp
      have hsplit : 8 * n = 8 * k + 8 * (n - k) := by omega
      have hhigh : x / 2 ^ (8 * k) < 2 ^ (8 * (n - k)) := by
        rw [Nat.div_lt_iff_lt_mul (Nat.two_pow_pos _), ← Nat.pow_add, Nat.add_comm, ← hsplit]
        exact hx
      rw [State.peek_two, hvalue _ List.mem_cons_self, hvalue _ (List.mem_cons_of_mem _ List.mem_cons_self)]
      simp only [Nat.mul_zero, Nat.pow_zero, Nat.div_one, Nat.mul_one, Nat.mod_eq_of_lt hhigh]
      exact Nat.mod_add_div' _ _
    all_goals cases hp

end Sys2Proof.Machine

/-! The merge by address and the application of an atomic scatter (R146). -/

namespace Sys2Proof.Machine
open Sys2Proof.Safety

/-- What is combined of elements with one address: the first of them stands for all. -/
def firstOf (addr : Nat → Nat) (es : List Nat) : List Nat := es.filter fun e => !(es.any fun j => decide (addr j = addr e) && decide (j < e))

/-- The elements of one address. -/
def sameAddress (addr : Nat → Nat) (es : List Nat) (e : Nat) : List Nat := es.filter fun j => decide (addr j = addr e)

theorem mergeByAddress_checkedOf (op : Nat → Nat → Nat) (value : Nat → Nat) (addr : Nat → Nat) (place : Nat → List Piece) (es : List Nat) :
    mergeByAddress op value (checkedOf addr place es) =
      (firstOf addr es).map fun e => (⟨e, addr e, place e⟩, ordered op ((sameAddress addr es e).map value)) := by
  simp only [mergeByAddress, checkedOf, firstOf, sameAddress, List.filter_map, List.map_map, List.any_map, Function.comp_def]
  refine List.map_congr_left fun e _ => ?_
  generalize List.filter (fun j => decide (addr j = addr e)) es = l
  cases l <;> rfl

/-- Each element's address has one first element. -/
theorem exists_firstOf {addr : Nat → Nat} {es : List Nat} {e : Nat} (he : e ∈ es) :
    ∃ k ∈ firstOf addr es, addr k = addr e := by
  have hmem : ∃ k, k ∈ es ∧ addr k = addr e := ⟨e, he, rfl⟩
  classical
  obtain ⟨hk, hka⟩ := Nat.find_spec hmem
  refine ⟨Nat.find hmem, List.mem_filter.2 ⟨hk, ?_⟩, hka⟩
  simp only [Bool.not_eq_true', List.any_eq_false, Bool.and_eq_true, decide_eq_true_eq, not_and]
  exact fun j hj hja hlt => Nat.find_min hmem hlt ⟨hj, hja.trans hka⟩

/-- First elements have different addresses. -/
theorem firstOf_pairwise {addr : Nat → Nat} {es : List Nat} (hsort : es.Pairwise (· < ·)) :
    (firstOf addr es).Pairwise fun a b => addr a ≠ addr b := by
  have hsub := hsort.filter fun e => !(es.any fun j => decide (addr j = addr e) && decide (j < e))
  refine hsub.imp_of_mem fun {a b} ha hb hab heq => ?_
  have hfirst := (List.mem_filter.1 hb).2
  simp only [Bool.not_eq_true', List.any_eq_false, Bool.and_eq_true, decide_eq_true_eq, not_and] at hfirst
  exact hfirst a (List.mem_filter.1 ha).1 heq hab

theorem mem_of_firstOf {addr : Nat → Nat} {es : List Nat} {e : Nat} (h : e ∈ firstOf addr es) : e ∈ es := (List.mem_filter.1 h).1

/-! The application. -/

/-- One merged contribution applied. -/
def State.scatterOne (op : Nat → Nat → Nat) (t : State) (p : Checked × Nat) : State :=
  t.poke p.1.e true none (op (t.peek p.1.ps) p.2) p.1.ps

theorem applyScatter_eq (s : State) (op : Nat → Nat → Nat) (l : List (Checked × Nat)) :
    s.applyScatter op l = l.foldl (State.scatterOne op) s := rfl

/-- Applying merged contributions performs writes at their pieces. -/
theorem State.applyScatter_performs (op : Nat → Nat → Nat) (l : List (Checked × Nat)) {s : State} (hr : s.hart.region = none) :
    ∃ ws, s.Performs (s.applyScatter op l) ws ∧ ∀ w ∈ ws, ∃ p ∈ l, w.1 ∈ p.1.ps := by
  induction l generalizing s with
  | nil => exact ⟨[], .refl s, fun _ h => absurd h List.not_mem_nil⟩
  | cons p l ih =>
    have hpoke := State.poke_performs hr p.1.e true none (op (s.peek p.1.ps) p.2) p.1.ps
    obtain ⟨ws, hws, hmem⟩ := ih (hpoke.region hr)
    refine ⟨_, hpoke.trans hws, fun w hw => ?_⟩
    rcases List.mem_append.1 hw with hw | hw
    · obtain ⟨q, hq, rfl⟩ := List.mem_map.1 hw
      exact ⟨p, List.mem_cons_self, hq⟩
    · obtain ⟨q, hq, hwq⟩ := hmem w hw
      exact ⟨q, List.mem_cons_of_mem _ hq, hwq⟩

/-- Contributions apart from an access leave what it reads. -/
theorem State.applyScatter_peek_apart {op : Nat → Nat → Nat} {l : List (Checked × Nat)} {s : State} (hs : Canonical s) (hu : Untraced s)
    (hr : s.hart.region = none) {ps : List Piece} (hm : ∀ q ∈ ps, ∃ pa, q.place = .mem pa) (ha : ∀ p ∈ l, Apart p.1.ps ps) :
    (s.applyScatter op l).peek ps = s.peek ps := by
  obtain ⟨ws, hws, hmem⟩ := State.applyScatter_performs op l hr
  refine State.peek_congr hr (hws.region hr) hm fun q hq j hj => ?_
  obtain ⟨pa, hpa⟩ := hm q hq
  rw [hpa, Place.shift]
  refine (hws.bytes hs).1 _ hu fun w hw hreach => ?_
  obtain ⟨p, hp, hwp⟩ := hmem w hw
  exact ha p hp (pa + j) ⟨covers_iff.2 ⟨w.1, hwp, hreach⟩, covers_iff.2 ⟨q, hq, j, hj, by rw [hpa, Place.shift]⟩⟩

/-- A contribution applied is what its access reads next. -/
theorem State.scatterOne_peek {op : Nat → Nat → Nat} {s u : State} {c : Checked} {x n va : Nat} {p : Perm} {h : Hart} (hn : n ≤ 64)
    (hs : Canonical s) (hu : Untraced s) (hr : s.hart.region = none) (hp : u.pieces h false p va n = .ok c.ps)
    (hx : op (s.peek c.ps) x < 2 ^ (8 * n)) : (State.scatterOne op s (c, x)).peek c.ps = op (s.peek c.ps) x := by
  have hpoke := State.poke_performs hr c.e true none (op (s.peek c.ps) x) c.ps
  refine State.peek_stored (hpoke.region hr) hp hx fun q hq j hj => ?_
  obtain ⟨pa, hpa⟩ := State.pieces_mem hp q hq
  obtain ⟨-, -, hbytes⟩ := hpoke.stored hs (State.pieces_apart hn hp)
  have hbyte := hbytes q hq j hj
  rw [hpa] at hbyte
  rw [hpa, Place.shift]
  exact hbyte hu

/-- Contributions to memory leave the local stores alone. -/
theorem State.poke_lstore {s : State} (hr : s.hart.region = none) {ps : List Piece} (hm : ∀ q ∈ ps, ∃ pa, q.place = .mem pa)
    (e : Nat) (read : Bool) (c : Option Claim) (x : Nat) : (s.poke e read c x ps).lstore = s.lstore := by
  have q := State.noteAccess_quiet hr e true read c ps
  have hput (t : State) (p : Piece) (ht : t.hart.region = none) (hp : ∃ pa, p.place = .mem pa) : (t.putPiece c x p).lstore = t.lstore := by
    obtain ⟨pa, hpa⟩ := hp
    simp only [State.putPiece, hpa, ht, Option.isSome_none, Bool.false_eq_true, if_false]
    unfold State.clearReservations
    split <;> exact congrArg (·.2.2.1) (State.setMem_frame t _)
  have hall (l : List Piece) (hl : ∀ p ∈ l, ∃ pa, p.place = .mem pa) (t : State) (ht : t.hart.region = none) :
      (l.foldl (fun t p => t.putPiece c x p) t).lstore = t.lstore := by
    induction l generalizing t with
    | nil => rfl
    | cons p l ih =>
      exact (ih (fun r hr => hl r (List.mem_cons_of_mem _ hr)) _ ((State.putPiece_performs ht c x p).region ht)).trans
        (hput t p ht (hl p List.mem_cons_self))
  simp only [State.poke, State.lost_of_none hr, Bool.false_eq_true, if_false]
  exact (hall ps hm _ (q.region hr)).trans q.lstore

theorem State.applyScatter_lstore {op : Nat → Nat → Nat} {l : List (Checked × Nat)} {s : State} (hr : s.hart.region = none)
    (hm : ∀ p ∈ l, ∀ q ∈ p.1.ps, ∃ pa, q.place = .mem pa) : (s.applyScatter op l).lstore = s.lstore := by
  induction l generalizing s with
  | nil => rfl
  | cons p l ih =>
    have hpoke := State.poke_performs hr p.1.e true none (op (s.peek p.1.ps) p.2) p.1.ps
    exact (ih (hpoke.region hr) fun q hq => hm q (List.mem_cons_of_mem _ hq)).trans (State.poke_lstore hr (hm p List.mem_cons_self) _ _ _ _)

end Sys2Proof.Machine

namespace Sys2Proof.Safety
open Sys2Proof.Machine

/-- Each atomic scatter is an operation, which takes the formats of its statement and there gives the result of its statement. -/
theorem scatterForms_op (s : State) (m : BitVec 3) (b : BitVec 5) (k v : BitVec 6) : ∀ f ∈ scatterForms, ∃ op : ScatterOp,
    exec (f.1 m k b v) s = s.vamo op m k b v ∧ (op.takes s.hart.fmt = true ↔ scatterFormat f.2.1 s.hart.fmt) ∧
    ∀ x y, x < 2 ^ s.hart.fmt.sew → y < 2 ^ s.hart.fmt.sew → op.apply s.hart.fmt s.hart.rnd x y = f.2.2 s.hart x y := by
  have htakes (op : ScatterOp) (float : Bool) (h : op.takes = ScatterOp.takes (if float then .add else .and)) :
      op.takes s.hart.fmt = true ↔ scatterFormat float s.hart.fmt := by
    rw [h]
    cases float <;> simp [ScatterOp.takes, scatterFormat, or_assoc]
  simp only [scatterForms, List.forall_mem_cons, List.not_mem_nil, false_imp_iff, implies_true, and_true]
  refine ⟨⟨.add, rfl, htakes .add true rfl, fun _ _ _ _ => rfl⟩, ⟨.min, rfl, htakes .min true rfl, fun x y hx hy => ?_⟩,
    ⟨.max, rfl, htakes .max true rfl, fun x y hx hy => ?_⟩, ⟨.and, rfl, htakes .and false rfl, fun _ _ _ _ => rfl⟩,
    ⟨.or, rfl, htakes .or false rfl, fun _ _ _ _ => rfl⟩, ⟨.xor, rfl, htakes .xor false rfl, fun _ _ _ _ => rfl⟩,
    ⟨.swap, rfl, htakes .swap true rfl, fun _ _ _ _ => rfl⟩⟩
  · refine congrArg (ite _ _) ?_
    exact scatterMin_eq hx hy
  · refine congrArg (ite _ _) ?_
    exact scatterMax_eq hx hy

section
variable {s : State} {addr : Nat → Nat} {place : Nat → List Piece} {es : List Nat} {p : Perm} {n : Nat}

/-- Elements with one address lie at one place. -/
theorem place_of_address {window : Bool} (hreach : Reaches s window p n addr es place) {i j : Nat} (hi : i ∈ es) (hj : j ∈ es)
    (h : addr i = addr j) : place i = place j := by
  have hcheck := hreach i hi
  rw [h, hreach j hj] at hcheck
  exact (Except.ok.inj hcheck).symm

/-- What an atomic scatter leaves at the place of an element that lies apart from those of other addresses. -/
theorem scatter_peek {op : Nat → Nat → Nat} {value : Nat → Nat} (hn : n ≤ 64) (hs : Canonical s) (hu : Untraced s)
    (hr : s.hart.region = none) (hsort : es.Pairwise (· < ·)) (hreach : Reaches s false p n addr es place)
    (hop : ∀ a b, a < 2 ^ (8 * n) → b < 2 ^ (8 * n) → op a b < 2 ^ (8 * n)) (hval : ∀ e, value e < 2 ^ (8 * n)) {e : Nat} (he : e ∈ es)
    (hapart : ∀ j ∈ es, addr j ≠ addr e → Apart (place j) (place e)) :
    (s.applyScatter op (mergeByAddress op value (checkedOf addr place es))).peek (place e) =
      op (s.peek (place e)) (ordered op ((sameAddress addr es e).map value)) := by
  obtain ⟨k, hk, hka⟩ := exists_firstOf (addr := addr) he
  obtain ⟨before, after, hsplit⟩ := List.append_of_mem hk
  have hpair := firstOf_pairwise (addr := addr) hsort
  rw [hsplit, List.pairwise_append, List.pairwise_cons] at hpair
  obtain ⟨-, ⟨hafter, -⟩, hbefore⟩ := hpair
  have hmem {j : Nat} (hj : j ∈ before ++ k :: after) : j ∈ es := mem_of_firstOf (hsplit ▸ hj)
  let entry := fun j => ((⟨j, addr j, place j⟩ : Checked), ordered op ((sameAddress addr es j).map value))
  have hplace : place k = place e := place_of_address hreach (mem_of_firstOf hk) he hka
  have hsame : sameAddress addr es k = sameAddress addr es e := by simp only [sameAddress, hka]
  have hpieces := checkElement_pieces (hreach e he)
  have hm := State.pieces_mem hpieces
  obtain ⟨ws, hws, -⟩ := State.applyScatter_performs op (before.map entry) hr
  have hs1 := hws.canonical hs
  have hu1 := hws.untraced hs hu
  have hr1 := hws.region hr
  have hpeek1 : (s.applyScatter op (before.map entry)).peek (place e) = s.peek (place e) := by
    refine State.applyScatter_peek_apart hs hu hr hm fun q hq => ?_
    obtain ⟨j, hj, rfl⟩ := List.mem_map.1 hq
    exact hapart j (hmem (List.mem_append_left _ hj)) fun h => hbefore j hj k List.mem_cons_self (h.trans hka.symm)
  have hsum : ordered op ((sameAddress addr es e).map value) < 2 ^ (8 * n) :=
    (ordered_congr hop (fun _ _ _ _ => rfl) fun x hx => by
      obtain ⟨j, -, rfl⟩ := List.mem_map.1 hx
      exact hval j).2
  have hbound : op (s.peek (place e)) (ordered op ((sameAddress addr es e).map value)) < 2 ^ (8 * n) :=
    hop _ _ (State.peek_lt hpieces s) hsum
  have hentry : entry k = (⟨k, addr k, place e⟩, ordered op ((sameAddress addr es e).map value)) := by
    simp only [entry, hplace, hsame]
  have hone := State.poke_performs hr1 k true none (op ((s.applyScatter op (before.map entry)).peek (place e))
    (ordered op ((sameAddress addr es e).map value))) (place e)
  have hpeek2 := State.scatterOne_peek (c := ⟨k, addr k, place e⟩) (x := ordered op ((sameAddress addr es e).map value)) hn hs1 hu1 hr1
    hpieces (by rw [hpeek1]; exact hbound)
  have hlast := State.applyScatter_peek_apart (op := op) (l := after.map entry) (hone.canonical hs1) (hone.untraced hs1 hu1)
    (hone.region hr1) hm fun q hq => by
      obtain ⟨j, hj, rfl⟩ := List.mem_map.1 hq
      exact hapart j (hmem (List.mem_append_right _ (List.mem_cons_of_mem _ hj))) fun h => hafter j hj (hka.trans h.symm)
  rw [mergeByAddress_checkedOf, hsplit, List.map_append, List.map_cons, applyScatter_eq, List.foldl_append, List.foldl_cons]
  calc _ = ((State.scatterOne op (s.applyScatter op (before.map entry))
          (⟨k, addr k, place e⟩, ordered op ((sameAddress addr es e).map value))).applyScatter op (after.map entry)).peek (place e) :=
        congrArg (fun x => ((State.scatterOne op (s.applyScatter op (before.map entry)) x).applyScatter op (after.map entry)).peek (place e))
          hentry
    _ = _ := hlast
    _ = _ := hpeek2
    _ = _ := by rw [hpeek1]

/-- An atomic scatter whose active elements all pass their checks. -/
theorem vamo_spec {op : ScatterOp} {m : BitVec 3} {k v : BitVec 6} {b : BitVec 5} (hr : s.hart.region = none)
    (htakes : op.takes s.hart.fmt = true) (hfull : s.full .st = false) (hh : s.hold [⟨v, s.hart.sew⟩, ⟨k, s.hart.sew⟩] none = none)
    (hcut : s.hart.cutInside true [⟨v, s.hart.sew⟩, ⟨k, s.hart.sew⟩] (s.hart.getM m.toNat) = none)
    (hreach : Reaches s false .update s.hart.fmt.esz (indexAddress s b [⟨v, s.hart.sew⟩, ⟨k, s.hart.sew⟩] 1)
      (s.hart.activeFrom (s.hart.getM m.toNat)) place) :
    let srcs : List Source := [⟨v, s.hart.sew⟩, ⟨k, s.hart.sew⟩]
    let apply := op.apply s.hart.fmt s.hart.rnd
    let u := s.applyScatter apply (mergeByAddress apply (pick (s.hart.sourceValues srcs) 0 s.hart.sew)
      (checkedOf (indexAddress s b srcs 1) place (s.hart.activeFrom (s.hart.getM m.toNat))))
    ∃ t : State, s.vamo op m k b v = .next t ∧ VectorDone s t ∧ Counted s t .st ∧ t.mem = u.mem ∧ t.hart.region = none ∧
      Keeps (vectorEffects ++ accessEffects) s t := by
  intro srcs apply u
  have hmem (q : Checked × Nat) (hq : q ∈ mergeByAddress apply (pick (s.hart.sourceValues srcs) 0 s.hart.sew)
      (checkedOf (indexAddress s b srcs 1) place (s.hart.activeFrom (s.hart.getM m.toNat)))) :
      ∀ x ∈ q.1.ps, ∃ pa, x.place = .mem pa := by
    rw [mergeByAddress_checkedOf] at hq
    obtain ⟨e, he, rfl⟩ := List.mem_map.1 hq
    exact State.pieces_mem (checkElement_pieces (hreach e (mem_of_firstOf he)))
  obtain ⟨ws, hws, -⟩ := State.applyScatter_performs apply (mergeByAddress apply (pick (s.hart.sourceValues srcs) 0 s.hart.sew)
      (checkedOf (indexAddress s b srcs 1) place (s.hart.activeFrom (s.hart.getM m.toNat)))) hr
  have hlocal : u.lstore = s.lstore := State.applyScatter_lstore hr hmem
  have hku : Keeps accessEffects s u := fun x hx => by
    by_cases hx1 : x = .localStore
    · exact hx1 ▸ hlocal
    · exact keeps_traffic hws.traffic hr x (by simp_all)
  have hstreams := streams_consumeAll u srcs
  have hregion : (u.consumeAll srcs).hart.region = none :=
    ((hku .region (by decide)).trans (hstreams.keeps .region (by decide))).1.trans hr
  have haddr : s.indexAddr b ((s.hart.sourceValues srcs).getD 1 0) = indexAddress s b srcs 1 := funext fun e => addr64_natCast _
  have hscan : s.scan false .update s.hart.fmt.esz (indexAddress s b srcs 1)
      (s.hart.storeLosses ⟨v, s.hart.sew⟩ [⟨k, s.hart.sew⟩]) (s.hart.getM m.toNat) none = ⟨checkedOf _ place _, none⟩ :=
    scanElements_reaches (lossless_store List.length_singleton.le (firstBad_of_cutInside hcut)) hreach
  have hexec : s.vamo op m k b v = .next (vectorEnd (u.consumeAll srcs) .st) := by
    rw [← vectorDone_issueOp, ← State.issueStore_of_none hregion, State.vamo, State.outsideRegion_of_none hr]
    simp only [State.indexSource, htakes, hh, hfull, breakInside_of_cutInside hcut, State.mask3, data_eq, Bool.not_true,
      Bool.false_eq_true, if_false]
    simp only [srcs] at haddr hscan
    rw [haddr, hscan]
  obtain ⟨hdone, hcount, hkeep⟩ := vectorEnd_spec hku (by decide) hstreams (k := .st) (by decide)
  have hend := hstreams.keeps.mono (m := [.copies, .counters, .agenda, .pc, .vstart]) (by decide)
    |>.trans ((keeps_vectorEnd _ .st).mono (by decide))
  exact ⟨_, hexec, hdone, hcount, (hend .memory (by decide)).1, (hkeep .region (by decide)).1.trans hr, hkeep.mono (by decide)⟩

end

theorem sew_eq_esz (f : Fmt) : f.sew = 8 * f.esz := by cases f <;> rfl

/-- Settles O36: the instruction by `vamo_spec`, the bytes by `scatter_peek` and `applyScatter_performs`. -/
theorem atomicScatters : Obligations.AtomicScatters := by
  intro f hf s m b k v hs hr h w M srcs vs address es
  obtain ⟨op, hexec, htakes, hop⟩ := scatterForms_op s m b k v f hf
  refine ⟨fun hno => ?_, fun place hfmt hfull hh hcut hreach => ?_⟩
  · have hfalse : op.takes s.hart.fmt = false := Bool.eq_false_iff.2 fun ht => hno (htakes.1 ht)
    rw [hexec, State.vamo, State.outsideRegion_of_none hr]
    exact if_pos (by rw [hfalse]; rfl)
  · obtain ⟨t, ht, hdone, hcount, hmem, hregion, hkeep⟩ := vamo_spec hr (htakes.2 hfmt) hfull hh hcut hreach
    have hbits : w = 8 * s.hart.fmt.esz := sew_eq_esz _
    obtain ⟨ws, hws, hin⟩ := State.applyScatter_performs (op.apply s.hart.fmt s.hart.rnd)
      (mergeByAddress (op.apply s.hart.fmt s.hart.rnd) (pick vs 0 w) (checkedOf address place es)) hr
    refine ⟨t, hexec.trans ht, hdone, hcount, fun hu a hc => ?_, fun hu e he hapart => ?_, hkeep⟩
    · rw [hmem]
      refine (hws.bytes hs).1 (.mem a) hu fun x hx hreaches => ?_
      obtain ⟨q, hq, hxq⟩ := hin x hx
      rw [mergeByAddress_checkedOf] at hq
      obtain ⟨j, hj, rfl⟩ := List.mem_map.1 hq
      exact hc j (mem_of_firstOf hj) (covers_iff.2 ⟨x.1, hxq, hreaches⟩)
    · have hsort : es.Pairwise (· < ·) := List.pairwise_lt_range.filter _
      have hlt (x y : Nat) (hx : x < 2 ^ (8 * s.hart.fmt.esz)) (hy : y < 2 ^ (8 * s.hart.fmt.esz)) :
          op.apply s.hart.fmt s.hart.rnd x y < 2 ^ (8 * s.hart.fmt.esz) := by
        rw [← hbits] at hx hy ⊢
        exact op.apply_lt _ _ hx hy
      have heq (x y : Nat) (hx : x < 2 ^ (8 * s.hart.fmt.esz)) (hy : y < 2 ^ (8 * s.hart.fmt.esz)) :
          op.apply s.hart.fmt s.hart.rnd x y = f.2.2 s.hart x y := by
        rw [← hbits] at hx hy
        exact hop x y hx hy
      have hval (e : Nat) : pick vs 0 w e < 2 ^ (8 * s.hart.fmt.esz) := hbits ▸ elem_lt _ _ _
      have hpieces := checkElement_pieces (hreach e he)
      have hpeek := scatter_peek (esz_le _) hs hu hr hsort hreach hlt hval he hapart
      have hlist : ∀ x ∈ (sameAddress address es e).map (pick vs 0 w), x < 2 ^ (8 * s.hart.fmt.esz) := fun x hx => by
        obtain ⟨j, -, rfl⟩ := List.mem_map.1 hx
        exact hval j
      obtain ⟨hsum, hsumlt⟩ := ordered_congr hlt heq hlist
      have hthen : t.peek (place e) = (s.applyScatter (op.apply s.hart.fmt s.hart.rnd)
          (mergeByAddress (op.apply s.hart.fmt s.hart.rnd) (pick vs 0 w) (checkedOf address place es))).peek (place e) :=
        State.peek_congr (hws.region hr) hregion (State.pieces_mem hpieces) fun q hq j _ => by
          obtain ⟨pa, hpa⟩ := State.pieces_mem hpieces q hq
          rw [hpa, Place.shift]
          exact congrArg (Memory.byte · (pa + j)) hmem
      rw [hthen, hpeek, heq _ _ (State.peek_lt hpieces s) hsumlt, hsum]
      rfl

end Sys2Proof.Safety

/-! Streams as destinations (R138, R155). -/

namespace Sys2Proof.Machine

/-! What holds nothing back: the sources' copies are read, and the destination's is written. -/

theorem mem_of_firstHold_none {l : List (Option Hold)} (h : firstHold l = none) : ∀ x ∈ l, x = none := by
  induction l with
  | nil => exact fun x hx => absurd hx List.not_mem_nil
  | cons a l ih =>
    cases a with
    | some y => cases h
    | none =>
      intro x hx
      rcases List.mem_cons.1 hx with rfl | hx
      · rfl
      · exact ih h x hx

theorem State.sourceTrap_of_hold {s : State} {srcs : List Source} {dst : Option Source} (h : s.hold srcs dst = none) {x : Source}
    (hx : x ∈ srcs) (hs : isStream x.field = true) : s.hart.sourceTrap x = none := by
  have hall := mem_of_firstHold_none h (s.hart.sourceTrap x)
  refine hall (List.mem_cons_of_mem _ (List.mem_append_left _ (List.mem_append_left _ (List.mem_append_left _ (List.mem_append_left _ ?_)))))
  exact List.mem_map.2 ⟨x, hx, if_pos hs⟩

theorem State.destTrap_of_hold {s : State} {srcs : List Source} {d : Source} (h : s.hold srcs (some d) = none)
    (hs : isStream d.field = true) : s.hart.destTrap d.field d.sew = none := by
  have hall := mem_of_firstHold_none h (s.hart.destTrap d.field d.sew)
  refine hall (List.mem_cons_of_mem _ (List.mem_append_left _ (List.mem_append_left _ (List.mem_append_left _ (List.mem_append_right _ ?_)))))
  exact List.mem_singleton.2 (if_pos hs).symm

/-- The copy of a stream source that does not trap delivers. -/
theorem Hart.kind_of_source {h : Hart} {x : Source} (ht : h.sourceTrap x = none) :
    ∃ i c, h.bound x.field = some i ∧ h.copyOf i = some c ∧ c.kind = 0 := by
  unfold Hart.sourceTrap at ht
  split at ht
  · cases ht
  next i hi =>
    split at ht
    · cases ht
    next c hc =>
      split at ht
      · cases ht
      next hk => exact ⟨i, c, hi, hc, not_not.1 hk⟩

theorem Hart.kind_of_dest {h : Hart} {d : BitVec 6} {w : Nat} {k : BitVec 5} {c : Copy} (ht : h.destTrap d w = none) (hb : h.bound d = some k)
    (hc : h.copyOf k = some c) : c.kind = 1 := by
  simp only [Hart.destTrap, hb, hc] at ht
  split at ht
  · cases ht
  next hk => exact not_not.1 hk

/-- No source of an instruction that starts is the stream of its destination's handle. -/
theorem State.bound_ne_of_hold {s : State} {srcs : List Source} {d : BitVec 6} {w : Nat} (h : s.hold srcs (some ⟨d, w⟩) = none)
    (hd : isStream d = true) {k : BitVec 5} {c : Copy} (hb : s.hart.bound d = some k) (hc : s.hart.copyOf k = some c) :
    ∀ x ∈ srcs, isStream x.field = true → s.hart.bound x.field ≠ some k := by
  intro x hx hs hk
  obtain ⟨i, c', hi, hc', hzero⟩ := Hart.kind_of_source (State.sourceTrap_of_hold h hx hs)
  have hone := Hart.kind_of_dest (State.destTrap_of_hold h hd) hb hc
  rw [hk, Option.some.injEq] at hi
  rw [← hi, hc, Option.some.injEq] at hc'
  rw [hc', hzero] at hone
  exact absurd hone (by decide)

/-! What pushing and consuming do to the copy of a handle. -/

/-- From s to t, handle k keeps its copy and no stream register comes to it. -/
structure KeepsHandle (k : BitVec 5) (s t : State) : Prop where
  copy : t.hart.copyOf k = s.hart.copyOf k
  bound : ∀ v, t.hart.bound v = some k → s.hart.bound v = some k

theorem KeepsHandle.refl (k : BitVec 5) (s : State) : KeepsHandle k s s := ⟨rfl, fun _ => id⟩

theorem KeepsHandle.trans {k : BitVec 5} {s t u : State} (h : KeepsHandle k s t) (g : KeepsHandle k t u) : KeepsHandle k s u :=
  ⟨g.copy.trans h.copy, fun v hv => h.bound v (g.bound v hv)⟩

/-- A step that keeps copies. -/
theorem KeepsHandle.of_agree {k : BitVec 5} {s t : State} (h : Safety.Agree s t .copies) : KeepsHandle k s t := by
  obtain ⟨-, hcopy, hq, -⟩ := h
  exact ⟨by rw [Hart.copyOf, hcopy, Hart.copyOf], fun v => by rw [Hart.bound, hq, Hart.bound]; exact id⟩

theorem Hart.copyOf_onCopy_other {h : Hart} {i k : BitVec 5} (hk : k ≠ i) (f : Copy → Copy) : (h.onCopy i f).copyOf k = h.copyOf k := by
  rw [Hart.copyOf, Hart.onCopy]
  exact getD_setIfInBounds_other _ (fun h => hk (BitVec.toNat_inj.1 h)) _ _

theorem Hart.bound_unbindHandle {h : Hart} {i k : BitVec 5} {v : BitVec 6} (hb : (h.unbindHandle i.toNat).bound v = some k) :
    h.bound v = some k := by
  by_cases hlt : v.toNat - 48 < 8
  · have hget (g : Hart) : g.bound v = g.q.get ⟨v.toNat - 48, hlt⟩ := by simp [Hart.bound, Vector.getD, Vector.get, hlt]
    rw [hget, Hart.unbindHandle_get] at hb
    rw [hget]
    split at hb
    · cases hb
    · exact hb
  · simp [Hart.bound, Vector.getD, hlt] at hb

theorem State.consume_keepsHandle {s : State} {v : BitVec 6} {k : BitVec 5} (hv : s.hart.bound v ≠ some k) (n m : Nat) (complete : Bool) :
    KeepsHandle k s (s.consume v n m complete) := by
  unfold State.consume
  split
  · exact .refl k s
  next i hi =>
    have hki : k ≠ i := fun h => hv (h ▸ hi)
    split
    · exact .refl k s
    next c hc =>
      simp only
      split
      · exact ⟨(Safety.releasedHart_copyOf i k s.hart).trans (if_neg hki.symm), fun w hw => Hart.bound_unbindHandle hw⟩
      · split
        · exact ⟨Hart.copyOf_onCopy_other hki _, fun _ => id⟩
        · exact ⟨Hart.copyOf_onCopy_other hki _, fun _ => id⟩

/-- Sources that are not the stream of a handle leave its copy. -/
theorem State.consumeAll_keepsHandle {s : State} {srcs : List Source} {k : BitVec 5}
    (hs : ∀ x ∈ srcs, isStream x.field = true → s.hart.bound x.field ≠ some k) : KeepsHandle k s (s.consumeAll srcs) := by
  have hfields : ∀ v ∈ ((srcs.map (·.field)).filter isStream).eraseDups, s.hart.bound v ≠ some k := by
    intro v hv
    obtain ⟨hv, hstream⟩ := List.mem_filter.1 (List.mem_eraseDups.1 hv)
    obtain ⟨x, hx, rfl⟩ := List.mem_map.1 hv
    exact hs x hx hstream
  unfold State.consumeAll State.consumeUpTo
  generalize s.hart.span = n
  generalize ((srcs.map (·.field)).filter isStream).eraseDups = l at hfields
  clear hs
  induction l generalizing s with
  | nil => exact .refl k s
  | cons v l ih =>
    have hone := State.consume_keepsHandle (hfields v List.mem_cons_self) (occurrences v srcs) n true
    exact hone.trans (ih fun w hw hb => hfields w (List.mem_cons_of_mem _ hw) (hone.bound w hb))

/-- Elements pushed into the stream of a handle (R155). -/
theorem State.push_spec {s : State} {d : BitVec 6} {k : BitVec 5} {c : Copy} (hb : s.hart.bound d = some k) (hc : s.hart.copyOf k = some c)
    (xs : List Nat) :
    (s.push d xs).hart.copyOf k =
        some { c with pos := min (c.pos + xs.length) c.n.toNat, data := c.data ++ xs.take (c.n.toNat - c.pos) } ∧
      ∀ v, (s.push d xs).hart.bound v = some k → s.hart.bound v = some k := by
  have hcopy := Hart.copyOf_onCopy hc fun c' : Copy =>
    { c' with pos := min (c.pos + xs.length) c.n.toNat, data := c'.data ++ xs.take (c'.n.toNat - c'.pos) }
  simp only [State.push, hb, hc]
  split
  · exact ⟨hcopy, fun v hv => Hart.bound_unbindHandle hv⟩
  · split
    · exact ⟨hcopy, fun _ => id⟩
    · exact ⟨hcopy, fun _ => id⟩

end Sys2Proof.Machine

namespace Sys2Proof.Safety
open Sys2Proof.Machine

/-- The stream of a handle is full: its copy goes on to its writes. -/
theorem keeps_draining (s : State) (i : BitVec 5) :
    Keeps [.copies] s (s.on fun h => { h.unbindHandle i.toNat with h := h.h.setIfInBounds i.toNat .draining }) := by
  intro p hp
  cases p <;> simp [Agree, SameRegisters] at hp ⊢

theorem streams_push (s : State) (d : BitVec 6) (xs : List Nat) : Streams s (s.push d xs) := by
  refine .of_copies ?_
  unfold State.push
  split
  · exact .refl _ s
  · split
    · exact .refl _ s
    · have hcopy {i : BitVec 5} {f : Copy → Copy} : Keeps [.copies, .agenda] s (s.on fun h => h.onCopy i f) :=
        (keeps_onCopy s i f).mono (by decide)
      simp only
      split
      · exact hcopy.trans (((keeps_draining _ _).mono (by decide)).trans ((keeps_due _ _).mono (by decide)))
      · split
        · exact hcopy
        · exact hcopy.trans ((keeps_due _ _).mono (by decide))

/-! Forms that push. -/

/-- The end of an instruction that counts no operation. -/
def vectorStop (u : State) : State := (u.on fun h => { h with vstart := 0 }).skip 4

theorem vectorDone_eq (u : State) : u.vectorDone = .next (vectorStop u) := rfl

theorem keeps_vectorStop (u : State) : Keeps [.pc, .vstart] u (vectorStop u) :=
  ((keeps_vstart u 0).mono (by decide)).trans ((keeps_skip _ 4).mono (by decide))

theorem keepsHandle_vectorStop (k : BitVec 5) (u : State) : KeepsHandle k u (vectorStop u) :=
  .of_agree (keeps_vectorStop u .copies (by decide))

/-- The elements of a strip (R138). -/
def strip (h : Hart) (mask w : Nat) (new : Nat → Nat) : List Nat := (List.range h.g).map fun e => if mask.testBit e then new e % 2 ^ w else 0

/-- A strip pushed by an instruction whose sources are then consumed. -/
theorem push_consume_spec {s : State} {srcs : List Source} {d : BitVec 6} {w : Nat} {k : BitVec 5} {c : Copy} {xs : List Nat}
    (hh : s.hold srcs (some ⟨d, w⟩) = none) (hd : isStream d = true) (hb : s.hart.bound d = some k) (hc : s.hart.copyOf k = some c)
    {u : State} (hu : KeepsHandle k s u) (hub : u.hart.bound d = some k) :
    Streams u ((u.push d xs).consumeAll srcs) ∧ ((u.push d xs).consumeAll srcs).hart.copyOf k =
      some { c with pos := min (c.pos + xs.length) c.n.toNat, data := c.data ++ xs.take (c.n.toNat - c.pos) } := by
  obtain ⟨hcopy, hbound⟩ := State.push_spec hub (hu.copy.trans hc) xs
  have hkeep : KeepsHandle k (u.push d xs) ((u.push d xs).consumeAll srcs) :=
    State.consumeAll_keepsHandle fun x hx hs hxk => State.bound_ne_of_hold hh hd hb hc x hx hs (hu.bound _ (hbound _ hxk))
  exact ⟨(streams_push u d xs).trans (streams_consumeAll _ srcs), hkeep.copy.trans hcopy⟩

theorem pushes_of_exec {i : Instr} {s : State} {ok : Bool} {srcs : List Source} {d : BitVec 6} {w mask : Nat}
    {new new' : List Nat → Nat → Nat}
    (h : exec i s = s.withSources ok srcs (some ⟨d, w⟩) fun xs => s.elementwise srcs d w mask (new' xs))
    (heq : ∀ e, new' (s.hart.sourceValues srcs) e % 2 ^ w = new (s.hart.sourceValues srcs) e % 2 ^ w) : Pushes i s ok srcs d w mask new := by
  intro k c h' pushed hok hh hd hb hc hbad
  have hcut : s.hart.cutInside false srcs mask = none := by
    rw [Hart.cutInside, hbad]
    rfl
  have hstrip : strip s.hart mask w (new' (s.hart.sourceValues srcs)) = pushed := by
    simp only [strip, heq, pushed, h']
  obtain ⟨hstreams, hcopy⟩ := push_consume_spec (xs := pushed) hh hd hb hc (.refl k s) hb
  have hexec : exec i s = .next (vectorStop ((s.push d pushed).consumeAll srcs)) := by
    rw [h, ← vectorDone_eq, ← hstrip]
    simp only [State.withSources, hok, hh, State.elementwise, State.elementwiseAnd, State.elementwiseCut, State.writeDest, hd,
      Bool.not_true, hcut, Bool.false_eq_true, if_false, if_true]
    rfl
  have hkeep : Keeps [.copies, .counters, .agenda, .pc, .vstart] s (vectorStop ((s.push d pushed).consumeAll srcs)) :=
    (hstreams.keeps.mono (by decide)).trans ((keeps_vectorStop _).mono (by decide))
  have hlen : pushed.length = h'.g := by simp [pushed]
  rw [hlen] at hcopy
  refine ⟨_, hexec, ⟨?_, rfl⟩, (keepsHandle_vectorStop k _).copy.trans hcopy, hkeep.mono (by decide)⟩
  exact congrArg (· + 4) (hstreams.keeps .pc (by decide))

end Sys2Proof.Safety

/-! The results of the elementwise forms, as their statements give them, and O31. -/

namespace Sys2Proof.Machine
open Sys2Proof.Safety

/-! Patterns and their signed values. -/

theorem ofSigned_congr {w : Nat} {x y : Int} (h : x ≡ y [ZMOD (2 ^ w : Nat)]) : ofSigned w x = ofSigned w y := congrArg Int.toNat h

theorem ofSigned_natCast (w n : Nat) : ofSigned w n = n % 2 ^ w := by rw [ofSigned, ← Int.natCast_mod, Int.toNat_natCast]

theorem ofSigned_mod (w : Nat) (x : Int) : ofSigned w x % 2 ^ w = ofSigned w x := by
  have hpos : (0 : Int) < ((2 ^ w : Nat) : Int) := by exact_mod_cast Nat.two_pow_pos w
  refine Nat.mod_eq_of_lt ?_
  have hlt : ofSigned w x < ((2 ^ w : Nat) : Int) := by
    rw [ofSigned, Int.toNat_of_nonneg (Int.emod_nonneg _ hpos.ne')]
    exact Int.emod_lt_of_pos _ hpos
  exact_mod_cast hlt

theorem toSigned_modEq (w a : Nat) : toSigned w a ≡ a [ZMOD (2 ^ w : Nat)] := by
  unfold toSigned
  split
  · exact Int.natCast_mod _ _ ▸ Int.mod_modEq _ _
  · exact (Int.modEq_sub_modulus_iff.2 rfl).symm.trans (Int.natCast_mod _ _ ▸ Int.mod_modEq _ _)

end Sys2Proof.Machine

namespace Sys2Proof.Safety
open Sys2Proof.Machine

/-- A form of two operands agrees with its statement on elements of w bits. -/
def SameResult (w : Nat) (op result : Nat → Nat → Nat) : Prop := ∀ a b, a < 2 ^ w → b < 2 ^ w → op a b % 2 ^ w = result a b % 2 ^ w

theorem sameResult_rfl (w : Nat) (op : Nat → Nat → Nat) : SameResult w op op := fun _ _ _ _ => rfl


theorem intAdd_same (h : Hart) : SameResult h.sew (fun a b => a + b) (intAdd h) := fun a b _ _ => by
  have hsum := ofSigned_congr ((toSigned_modEq h.sew a).add (toSigned_modEq h.sew b))
  rw [← Nat.cast_add, ofSigned_natCast] at hsum
  exact hsum.symm.trans (ofSigned_mod _ _).symm

theorem intSub_same (h : Hart) : SameResult h.sew (fun a b => ofSigned h.sew ((a : Int) - b)) (intSub h) := fun a b _ _ =>
  congrArg (· % 2 ^ h.sew) (ofSigned_congr ((toSigned_modEq _ a).sub (toSigned_modEq _ b)).symm)

theorem intMul_same (h : Hart) : SameResult h.sew (fun a b => a * b) (intMul h) := fun a b _ _ => by
  have hprod := ofSigned_congr ((toSigned_modEq h.sew a).mul (toSigned_modEq h.sew b))
  rw [← Nat.cast_mul, ofSigned_natCast] at hprod
  exact hprod.symm.trans (ofSigned_mod _ _).symm

theorem intSll_same (h : Hart) : SameResult h.sew (fun a b => a <<< shiftCount h.sew b) (intSll h) := fun _ _ _ _ =>
  congrArg (· % 2 ^ h.sew) (Nat.shiftLeft_eq _ _)

theorem intSrl_same (h : Hart) : SameResult h.sew (fun a b => a >>> shiftCount h.sew b) (intSrl h) := fun _ _ _ _ =>
  congrArg (· % 2 ^ h.sew) (Nat.shiftRight_eq_div_pow _ _)

theorem intMin_same (h : Hart) : SameResult h.sew (fun a b => if ltSigned h.sew b a then b else a) (intMin h) := fun a b ha hb => by
  simp only [ltSigned, decide_eq_true_eq]
  rw [scatterMin_eq ha hb]
  rfl

theorem intMax_same (h : Hart) : SameResult h.sew (fun a b => if ltSigned h.sew a b then b else a) (intMax h) := fun a b ha hb => by
  simp only [ltSigned, decide_eq_true_eq]
  rw [scatterMax_eq ha hb]
  rfl

/-- A form of two operands with its operands exchanged. -/
theorem SameResult.swap {w : Nat} {op result : Nat → Nat → Nat} (hs : SameResult w op result) :
    SameResult w (fun a b => op b a) (fun a b => result b a) := fun a b ha hb => hs b a hb ha

/-- Every form of two vector sources computes what its statement says. -/
theorem vectorForms_exec (s : State) (m : BitVec 4) (b a d : BitVec 6) : ∀ f ∈ vectorForms, ∃ op,
    exec (f.form m b a d) s = s.vec3 (accepts f.float s.hart) m b a d op ∧ SameResult s.hart.sew op (f.result s.hart) := by
  have as_said {i : Instr} {ok : Bool} {result : Nat → Nat → Nat} (h : exec i s = s.vec3 ok m b a d result) :
      ∃ op, exec i s = s.vec3 ok m b a d op ∧ SameResult s.hart.sew op result := ⟨result, h, sameResult_rfl _ _⟩
  have integer {i : Instr} {ok : Bool} {op result : Nat → Nat → Nat} (hsame : SameResult s.hart.sew op result)
      (h : exec i s = s.vec3 ok m b a d op) : ∃ op, exec i s = s.vec3 ok m b a d op ∧ SameResult s.hart.sew op result := ⟨op, h, hsame⟩
  simp only [vectorForms, List.cons_append, List.nil_append, List.forall_mem_cons, List.not_mem_nil, false_imp_iff, implies_true, and_true]
  exact ⟨integer (intAdd_same _) rfl, integer (intSub_same _) rfl, integer (intSub_same _).swap rfl, integer (intMul_same _) rfl,
    as_said rfl, as_said rfl, as_said rfl, as_said rfl, as_said rfl, as_said rfl, as_said rfl, as_said rfl, as_said rfl,
    integer (intSll_same _) rfl, integer (intSrl_same _) rfl, as_said rfl, integer (intMin_same _) rfl, integer (intMax_same _) rfl,
    as_said rfl, as_said rfl, as_said rfl, as_said rfl, as_said rfl, as_said rfl, as_said rfl,
    as_said rfl, as_said rfl, as_said rfl, as_said rfl, as_said rfl, as_said rfl, as_said rfl, as_said rfl, as_said rfl⟩

/-- Every form with a scalar second operand computes what its statement says. -/
theorem scalarForms_exec (s : State) (m : BitVec 4) (x : BitVec 5) (a d : BitVec 6) : ∀ f ∈ scalarForms, ∃ op : Nat → Nat → Nat,
    exec (f.form m x a d) s = s.vec2 (accepts f.float s.hart) m a d (fun v => op v (scalarOperand f.float s x)) ∧
      ∀ v, v < 2 ^ s.hart.sew → op v (scalarOperand f.float s x) % 2 ^ s.hart.sew =
        f.result s.hart v (scalarOperand f.float s x) % 2 ^ s.hart.sew := by
  have as_said {i : Instr} {float : Bool} {result : Nat → Nat → Nat}
      (h : exec i s = s.vec2 (accepts float s.hart) m a d fun v => result v (scalarOperand float s x)) :
      ∃ op : Nat → Nat → Nat, exec i s = s.vec2 (accepts float s.hart) m a d (fun v => op v (scalarOperand float s x)) ∧
        ∀ v, v < 2 ^ s.hart.sew → op v (scalarOperand float s x) % 2 ^ s.hart.sew = result v (scalarOperand float s x) % 2 ^ s.hart.sew :=
    ⟨result, h, fun _ _ => rfl⟩
  have integer {i : Instr} {op result : Nat → Nat → Nat} (hsame : SameResult s.hart.sew op result)
      (h : exec i s = s.vec2 (accepts false s.hart) m a d fun v => op v (scalarOperand false s x)) :
      ∃ op : Nat → Nat → Nat, exec i s = s.vec2 (accepts false s.hart) m a d (fun v => op v (scalarOperand false s x)) ∧
        ∀ v, v < 2 ^ s.hart.sew → op v (scalarOperand false s x) % 2 ^ s.hart.sew = result v (scalarOperand false s x) % 2 ^ s.hart.sew :=
    ⟨op, h, fun v hv => hsame v _ hv (Nat.mod_lt _ (Nat.two_pow_pos _))⟩
  simp only [scalarForms, List.cons_append, List.nil_append, List.forall_mem_cons, List.not_mem_nil, false_imp_iff, implies_true, and_true]
  exact ⟨integer (intAdd_same _) rfl, integer (intSub_same _) rfl, integer (intSub_same _).swap rfl, integer (intMul_same _) rfl,
    as_said rfl, as_said rfl, as_said rfl, integer (intSll_same _) rfl, integer (intSrl_same _) rfl, as_said rfl,
    integer (intMin_same _) rfl, integer (intMax_same _) rfl,
    as_said rfl, as_said rfl, as_said (result := fun v y => floatSub s.hart y v) rfl, as_said rfl, as_said rfl,
    as_said (result := fun v y => floatDiv s.hart y v) rfl, as_said rfl, as_said rfl⟩

/-- Every form of one vector source computes what its statement says. -/
theorem unaryForms_exec (s : State) (m : BitVec 4) (a d : BitVec 6) : ∀ f ∈ unaryForms, ∃ op : Nat → Nat,
    exec (f.form m a d) s = s.vec2 (f.any || accepts f.float s.hart) m a d op ∧
      ∀ v, op v % 2 ^ s.hart.sew = f.result s.hart v % 2 ^ s.hart.sew := by
  have as_said {i : Instr} {ok : Bool} {result : Nat → Nat} (h : exec i s = s.vec2 ok m a d result) :
      ∃ op, exec i s = s.vec2 ok m a d op ∧ ∀ v, op v % 2 ^ s.hart.sew = result v % 2 ^ s.hart.sew := ⟨result, h, fun _ => rfl⟩
  simp only [unaryForms, List.forall_mem_cons, List.not_mem_nil, false_imp_iff, implies_true, and_true]
  refine ⟨as_said rfl, as_said rfl, as_said rfl, ⟨fun v => ofSigned s.hart.sew (-(v : Int)), rfl, fun v => ?_⟩, as_said rfl, as_said rfl,
    as_said rfl, as_said rfl, as_said rfl,
    as_said rfl⟩
  exact congrArg (· % 2 ^ s.hart.sew) (ofSigned_congr (toSigned_modEq _ v).neg.symm)

/-! Forms that push what they compute. -/

theorem pushes_of_vec3 {i : Instr} {s : State} {ok : Bool} {m : BitVec 4} {b a d : BitVec 6} {op result : Nat → Nat → Nat}
    (h : exec i s = s.vec3 ok m b a d op) (heq : SameResult s.hart.sew op result) :
    Pushes i s ok [⟨a, s.hart.sew⟩, ⟨b, s.hart.sew⟩] d s.hart.sew (s.hart.getM m.toNat) fun vs e =>
      result (pick vs 0 s.hart.sew e) (pick vs 1 s.hart.sew e) :=
  pushes_of_exec (new' := fun vs e => op (pick vs 0 s.hart.sew e) (pick vs 1 s.hart.sew e)) h
    fun _ => heq _ _ (elem_lt _ _ _) (elem_lt _ _ _)

theorem pushes_of_vec2 {i : Instr} {s : State} {ok : Bool} {m : BitVec 4} {a d : BitVec 6} {op result : Nat → Nat}
    (h : exec i s = s.vec2 ok m a d op)
    (heq : ∀ v, v < 2 ^ s.hart.sew → op v % 2 ^ s.hart.sew = result v % 2 ^ s.hart.sew) :
    Pushes i s ok [⟨a, s.hart.sew⟩] d s.hart.sew (s.hart.getM m.toNat) fun vs e => result (pick vs 0 s.hart.sew e) :=
  pushes_of_exec (new' := fun vs e => op (pick vs 0 s.hart.sew e)) h fun _ => heq _ (elem_lt _ _ _)

/-! Loads that push. -/

/-- An element that was not loaded reads as zero. -/
theorem loaded_of_not_mem (s : State) (addr : Nat → Nat) (place : Nat → List Piece) {es : List Nat} {e : Nat} (he : e ∉ es) :
    loaded ((checkedOf addr place es).map fun c => (c.e, s.peek c.ps)) e = 0 := by
  have hfind : (((checkedOf addr place es).map fun c => (c.e, s.peek c.ps)).find? fun p => decide (p.1 = e)) = none := by
    simp only [List.find?_eq_none, checkedOf, List.map_map, List.mem_map, Function.comp_apply, decide_eq_true_eq]
    rintro _ ⟨x, hx, rfl⟩ rfl
    exact he hx
  rw [loaded, hfind]
  rfl

/-- The strip that a load pushes: each active element, and zero elsewhere (R138). -/
theorem strip_loaded (s : State) (addr : Nat → Nat) (place : Nat → List Piece) (mask w : Nat) :
    strip s.hart mask w (loaded ((checkedOf addr place (s.hart.activeFrom mask)).map fun c => (c.e, s.peek c.ps))) =
      (List.range s.hart.g).map fun e =>
        if mask.testBit e && decide (s.hart.vstart.toNat ≤ e) then s.peek (place e) % 2 ^ w else 0 := by
  refine List.map_congr_left fun e he => ?_
  have hg := List.mem_range.1 he
  by_cases hm : mask.testBit e = true
  · by_cases hv : s.hart.vstart.toNat ≤ e
    · rw [loaded_checkedOf s addr place (mem_activeFrom.2 ⟨hg, hv, hm⟩)]
      simp [hm, hv]
    · rw [loaded_of_not_mem s addr place fun h => hv (mem_activeFrom.1 h).2.1]
      simp [hv]
  · simp [hm]

/-- A load into a stream whose active elements all pass their checks. -/
theorem vload_stream_spec {s : State} (hs : Canonical s) {window : Bool} {srcs : List Source} {d : BitVec 6} {mask : Nat}
    {addr : Nat → Nat} {place : Nat → List Piece} {k : BitVec 5} {c : Copy} (hr : s.hart.region = none) (hfull : s.full .ld = false)
    (hh : s.hold srcs (some ⟨d, s.hart.sew⟩) = none) (hd : isStream d = true) (hb : s.hart.bound d = some k)
    (hc : s.hart.copyOf k = some c) (hbad : s.hart.firstBad srcs mask = none)
    (hreach : Reaches s window .load s.hart.fmt.esz addr (s.hart.activeFrom mask) place) :
    let pushed := (List.range s.hart.g).map fun e =>
      if mask.testBit e && decide (s.hart.vstart.toNat ≤ e) then s.peek (place e) % 2 ^ s.hart.sew else 0
    ∃ t : State, s.vload window d mask srcs addr = .next t ∧ VectorDone s t ∧ Counted s t .ld ∧ StoredNothing s t ∧
      t.hart.copyOf k = some { c with pos := min (c.pos + s.hart.g) c.n.toNat, data := c.data ++ pushed.take (c.n.toNat - c.pos) } ∧
      Keeps (vectorEffects ++ accessEffects) s t := by
  intro pushed
  let es := checkedOf addr place (s.hart.activeFrom mask)
  let u := s.noteElements es
  have hscan : s.scan window .load s.hart.fmt.esz addr (s.hart.loadLosses srcs) mask none = ⟨es, none⟩ :=
    scanElements_reaches (lossless_load hbad) hreach
  have q := noteElements_quiet hr es
  have hkq := keeps_quiet q hr
  have hg : u.hart.g = s.hart.g := by
    obtain ⟨hvl, hpad⟩ := hkq .length (by decide)
    rw [Hart.g, hvl, hpad, Hart.g]
  have hstrip : strip u.hart mask s.hart.sew (loaded (es.map fun c => (c.e, s.peek c.ps))) = pushed := by
    rw [strip, hg]
    exact strip_loaded s addr place mask s.hart.sew
  have hcopies : Agree s u .copies := hkq .copies (by decide)
  have hub : u.hart.bound d = some k := by
    rw [Hart.bound, hcopies.2.2.1]
    exact hb
  obtain ⟨hstreams, hcopy⟩ := push_consume_spec (xs := pushed) hh hd hb hc (.of_agree hcopies) hub
  have hexec : s.vload window d mask srcs addr = .next (vectorEnd ((u.push d pushed).consumeAll srcs) .ld) := by
    rw [← vectorDone_issueOp, ← hstrip]
    simp only [State.vload, hh, hr, hfull, hd, hscan, State.lost_of_none hr, State.writeDest, Option.isSome_none, Bool.false_and,
      Bool.false_eq_true, if_false, if_true]
    rfl
  obtain ⟨hdone, hcount, hkeep⟩ := vectorEnd_spec hkq (by decide) hstreams (k := .ld) (by decide)
  have hend := hstreams.keeps.mono (m := [.copies, .counters, .agenda, .pc, .vstart]) (by decide)
    |>.trans ((keeps_vectorEnd _ .ld).mono (by decide))
  have hlen : pushed.length = s.hart.g := by simp [pushed]
  rw [hlen] at hcopy
  exact ⟨_, hexec, hdone, hcount, (q.storedNothing hs).trans_keeps hend (by decide),
    (KeepsHandle.of_agree (keeps_vectorEnd _ .ld .copies (by decide))).copy.trans hcopy, hkeep.mono (by decide)⟩

theorem pushesLoad_of_exec {i : Instr} {s : State} (hs : Canonical s) {window : Bool} {srcs : List Source} {d : BitVec 6} {mask : Nat}
    {addr : Nat → Nat}
    (h : ∀ place, s.hart.region = none → isStream d = true →
      Reaches s window .load s.hart.fmt.esz addr (s.hart.activeFrom mask) place → exec i s = s.vload window d mask srcs addr) :
    PushesLoad i s window srcs d mask addr := by
  intro place k c h' w pushed hr hfull hh hd hb hc hbad hreach
  rw [h place hr hd hreach]
  exact vload_stream_spec hs hr hfull hh hd hb hc hbad hreach

/-- A fault-first load whose active elements all pass their checks is a load (R145). -/
theorem vldff_of_reaches {s : State} {c : BitVec 4} {m : BitVec 3} {b : BitVec 5} {d : BitVec 6} (hd : isStream d = true)
    {place : Nat → List Piece}
    (hreach : Reaches s false .load s.hart.fmt.esz (s.unitAddr b) (s.hart.activeFrom (s.hart.getM m.toNat)) place) :
    exec (.vldff c m b d) s = s.vload false d (s.hart.getM m.toNat) [] (s.unitAddr b) := by
  have hscan : s.scan false .load s.hart.fmt.esz (s.unitAddr b) .none (s.hart.getM m.toNat) none = ⟨checkedOf _ place _, none⟩ :=
    scanElements_reaches (lossless_none _) hreach
  show execVldff c m b d s = _
  simp only [execVldff, State.mask3, hd, if_true, hscan]
  exact if_pos (by simp)

theorem pushes_as_said {i : Instr} {s : State} {ok : Bool} {srcs : List Source} {d : BitVec 6} {w mask : Nat} {new : List Nat → Nat → Nat}
    (h : exec i s = s.withSources ok srcs (some ⟨d, w⟩) fun xs => s.elementwise srcs d w mask (new xs)) :
    Pushes i s ok srcs d w mask new := pushes_of_exec h fun _ => rfl

theorem merge_pushes (s : State) (m : BitVec 4) (b a d : BitVec 6) : ∀ f ∈ [Instr.vmerge, .vfmerge],
    Pushes (f m b a d) s true [⟨a, s.hart.sew⟩, ⟨b, s.hart.sew⟩] d s.hart.sew (s.hart.getM 0)
      fun vs e => if (s.hart.getM m.toNat).testBit e then pick vs 1 s.hart.sew e else pick vs 0 s.hart.sew e := by
  simp only [List.forall_mem_cons, List.not_mem_nil, false_imp_iff, implies_true, and_true]
  exact ⟨pushes_as_said rfl, pushes_as_said rfl⟩

theorem moves_push (s : State) (m : BitVec 4) (x : BitVec 5) (d : BitVec 6) :
    Pushes (.vmvs m x d) s true [] d s.hart.sew (s.hart.getM m.toNat) (fun _ _ => scalarOperand false s x) ∧
      Pushes (.vfmvs m x d) s (accepts true s.hart) [] d s.hart.sew (s.hart.getM m.toNat) (fun _ _ => scalarOperand true s x) :=
  ⟨pushes_as_said rfl, pushes_as_said rfl⟩

theorem convert_pushes (s : State) (src m : BitVec 4) (a d : BitVec 6) {f : Fmt} (hf : Fmt.ofCode src.toNat = some f) :
    Pushes (.vcvt src m a d) s (decide (s.hart.vl.toNat ≤ s.hart.mvl f.sew)) [⟨a, f.sew⟩] d s.hart.sew (s.hart.getM m.toNat)
      fun vs e => convert s.hart.rnd f s.hart.fmt (pick vs 0 f.sew e) := by
  refine pushes_as_said ?_
  show execVcvt src m a d s = _
  rw [execVcvt, hf]
  rfl

/-- Settles O31: the arithmetic forms by `pushes_of_exec`, the loads by `pushesLoad_of_exec`. -/
theorem streamDestinations : Obligations.StreamDestinations := by
  intro s src m m3 c x y b a d hs h w M M3 index
  simp only [index, w, h, M3, ← unitAddr_eq, ← strideAddr_eq, ← loadIndex_eq]
  refine ⟨fun f hf => ?_, fun f hf => ?_, fun f hf => ?_, merge_pushes s m b a d, (moves_push s m x d).1, (moves_push s m x d).2,
    fun f hf => convert_pushes s src m a d hf, pushesLoad_of_exec hs fun _ _ _ _ => rfl,
    pushesLoad_of_exec hs fun _ _ hd hreach => vldff_of_reaches hd hreach,
    pushesLoad_of_exec hs fun _ _ _ _ => rfl, fun hg => pushesLoad_of_exec hs fun _ _ _ _ => if_neg (by simp [hg]),
    pushesLoad_of_exec hs fun _ hr _ _ => State.outsideRegion_of_none hr _,
    pushesLoad_of_exec hs fun _ hr _ _ => State.outsideRegion_of_none hr _,
    pushesLoad_of_exec hs fun _ hr _ _ => State.outsideRegion_of_none hr _⟩
  · obtain ⟨op, hexec, hsame⟩ := vectorForms_exec s m b a d f hf
    exact pushes_of_vec3 hexec hsame
  · obtain ⟨op, hexec, hsame⟩ := scalarForms_exec s m x a d f hf
    exact pushes_of_vec2 hexec hsame
  · obtain ⟨op, hexec, hsame⟩ := unaryForms_exec s m a d f hf
    exact pushes_of_vec2 hexec fun v _ => hsame v

end Sys2Proof.Safety

/-! Issuing a copy (R152, R153). -/

namespace Sys2Proof.Machine

/-- Handle i of hart h filling with copy c, its stream register bound where it has a stream (R153). -/
def Hart.holdCopy (q : BitVec 3) (i : BitVec 5) (c : Copy) (h : Hart) : Hart := { h with
  h := h.h.setIfInBounds i.toNat .filling
  copy := h.copy.setIfInBounds i.toNat (some c)
  q := if c.streams then h.q.setIfInBounds q.toNat (some i) else h.q
  lost := h.lost.filter fun k => decide (k ≠ i.toNat) && decide (k ≠ 64 + q.toNat) }

theorem Hart.holdCopy_handle (h : Hart) (q : BitVec 3) (i r : BitVec 5) (c : Copy) :
    (h.holdCopy q i c).h.get r.toFin = if i = r then .filling else h.h.get r.toFin :=
  (get_setIfInBounds (w := 5) _ r _ _).trans (by simp [BitVec.toNat_inj])

theorem Hart.copyOf_eq (h : Hart) (r : BitVec 5) : h.copyOf r = h.copy.get r.toFin := by
  simp [Hart.copyOf, Vector.getD, Vector.get, r.isLt]

theorem Hart.holdCopy_copyOf (h : Hart) (q : BitVec 3) (i r : BitVec 5) (c : Copy) :
    (h.holdCopy q i c).copyOf r = if i = r then some c else h.copyOf r := by
  rw [Hart.copyOf_eq, Hart.copyOf_eq]
  exact (get_setIfInBounds (w := 5) _ r _ _).trans (by simp [BitVec.toNat_inj])

theorem Hart.holdCopy_stream (h : Hart) (q r : BitVec 3) (i : BitVec 5) (c : Copy) :
    (h.holdCopy q i c).q.get r.toFin = if c.streams ∧ q = r then some i else h.q.get r.toFin := by
  cases hc : c.streams
  · simp [Hart.holdCopy, hc]
  · simp only [Hart.holdCopy, hc, if_true, true_and]
    exact (get_setIfInBounds (w := 3) _ r _ _).trans (by simp [BitVec.toNat_inj])

/-- A copy as it is issued in state s: its translations and the destination lines that it owns (R128, R153). -/
def State.issuedCopy (s : State) (c : Copy) (ls ld : List (Nat × Nat)) : Copy := { c with
  gen := (s.ctx s.hart.ctx).gen
  pages := pagePairs (ls ++ ld)
  lines := (ld.map fun p => p.2 / 64).eraseDups
  order := s.free }

/-- The copy issued in state s, whose accesses have led to u, and its lines taken (R153, R184). -/
def State.takeCopy (s u : State) (q : BitVec 3) (i : BitVec 5) (c : Copy) (ld : List (Nat × Nat)) : State :=
  c.lines.foldl (fun t l => t.takeLine s.hart.engine (addressIn ld l) l) ((u.raise .cp).fresh.on (Hart.holdCopy q i c))

/-- The event that carries a copy on made due. -/
def State.dueCopy (t : State) (id : AgentId) (i : BitVec 5) (c : Copy) : State :=
  match c.nextDue .filling id i with
  | some d => t.due d
  | none => t

end Sys2Proof.Machine

namespace Sys2Proof.Safety
open Sys2Proof.Machine

theorem keeps_raise (s : State) (k : OpClass) : Keeps [.counters] s (s.raise k) := by
  intro p hp
  cases p <;> simp [Agree, SameRegisters, State.raise] at hp ⊢

theorem keeps_holdCopy (s : State) (q : BitVec 3) (i : BitVec 5) (c : Copy) : Keeps [.copies] s (s.on (Hart.holdCopy q i c)) := by
  intro p hp
  cases p <;> simp [Agree, SameRegisters, Hart.holdCopy] at hp ⊢

theorem keeps_lose (s : State) (ks : List Nat) : Keeps [.copies] s (s.on fun h => h.lose ks) := by
  intro p hp
  cases p <;> simp [Agree, SameRegisters, Hart.lose] at hp ⊢

theorem keeps_dueCopy (t : State) (id : AgentId) (i : BitVec 5) (c : Copy) : Keeps [.agenda] t (t.dueCopy id i c) := by
  unfold State.dueCopy
  cases c.nextDue .filling id i with
  | none => exact .refl _ _
  | some d => exact keeps_due t d

theorem dueCopy_hart (t : State) (id : AgentId) (i : BitVec 5) (c : Copy) : (t.dueCopy id i c).hart = t.hart := by
  unfold State.dueCopy
  cases c.nextDue .filling id i <;> rfl

theorem takeCopy_quiet (s u : State) (q : BitVec 3) (i : BitVec 5) (c : Copy) (ld : List (Nat × Nat)) :
    State.Quiet ((u.raise .cp).fresh.on (Hart.holdCopy q i c)) (s.takeCopy u q i c ld) :=
  .foldl (fun t l => t.takeLine_quiet _ _ l) _ _

/-- What the issue of a copy leaves of the hart and of memory. -/
theorem takeCopy_spec {s u : State} (hu : s.Quiet u) (hs : Canonical s) (hr : s.hart.region = none) (q : BitVec 3) (i : BitVec 5) (c : Copy)
    (ld : List (Nat × Nat)) :
    Agree (u.on (Hart.holdCopy q i c)) (s.takeCopy u q i c ld) .copies ∧
      (s.takeCopy u q i c ld).hart.cnt = s.hart.cnt.add .cp 1 ∧ StoredNothing s (s.takeCopy u q i c ld) ∧
      Keeps (.copies :: .counters :: accessEffects) s (s.takeCopy u q i c ld) := by
  let v := (u.raise .cp).fresh.on (Hart.holdCopy q i c)
  have hkv : Keeps (.copies :: .counters :: accessEffects) u v :=
    ((keeps_raise u .cp).mono (by decide)).trans (((keeps_fresh _).mono (by decide)).trans ((keeps_holdCopy _ q i c).mono (by decide)))
  have hku : Keeps accessEffects s u := keeps_quiet hu hr
  have hq : State.Quiet v (s.takeCopy u q i c ld) := takeCopy_quiet s u q i c ld
  have hkt : Keeps accessEffects v (s.takeCopy u q i c ld) := keeps_quiet hq (hu.region hr)
  have hcv : Canonical v := hu.canonical hs
  obtain ⟨hmem, hlocal⟩ := hu.storedNothing hs
  obtain ⟨hmem', hlocal'⟩ := hq.storedNothing hcv
  refine ⟨hkt .copies (by decide), ?_, ⟨fun ht => ?_, hlocal'.trans hlocal⟩, (hku.mono (by decide)).trans (hkv.trans (hkt.mono (by decide)))⟩
  · exact Eq.trans (hkt .counters (by decide)) (congrArg (Counters.add · .cp 1) (hku .counters (by decide)))
  · exact (hmem' (hu.memory (ctxs_wf_of_canonical hs) ht).1).trans (hmem ht)


/-- The copy whose descriptor lies at some pieces of an access (R152). -/
def describedCopy (s : State) (cls : BitVec 4) (ps : List Piece) : Copy :=
  Copy.ofWords (bits (s.peek ps) 63 0) (bits (s.peek ps) 127 64) (bits (s.peek ps) 191 128) (bits (s.peek ps) 255 192) cls

theorem copyCfg_misaligned {s : State} (hr : s.hart.region = none) (cls : BitVec 4) (q : BitVec 3) (i : BitVec 5) {a : BitVec 5}
    (ha : (s.rs a).toNat % 32 ≠ 0) : exec (.copyCfg cls q i a) s = s.takeTrap 4 0 0 0 (some (s.rs a).toNat) :=
  (State.outsideRegion_of_none hr _).trans (if_pos ha)

section
variable {s : State} {cls : BitVec 4} {q : BitVec 3} {i a : BitVec 5} {ps : List Piece} (hr : s.hart.region = none)
  (ha : (s.rs a).toNat % 32 = 0) (hps : s.pieces s.hart false .load (s.rs a).toNat 32 = .ok ps)
include hr ha hps

/-- A descriptor that is not valid, a handle in use and a bound stream (R153). -/
theorem copyCfg_refuses
    (h : (describedCopy s cls ps).valid (bits (s.peek ps) 63 0) = false ∨ s.hart.h.get i.toFin ≠ .free ∨
      ((describedCopy s cls ps).kind = 0 ∨ (describedCopy s cls ps).kind = 1) ∧ s.hart.q.get q.toFin ≠ none) :
    exec (.copyCfg cls q i a) s = (s.noteReads 0 ps).takeTrap 2 0 0 0 none := by
  refine (State.outsideRegion_of_none hr _).trans ((if_neg (not_not_intro ha)).trans ?_)
  simp only [State.readChecked, hps]
  refine (if_pos ?_).trans rfl
  rw [Hart.handle_getD, Hart.binding_getD]
  rcases h with h | h | ⟨hk, hq⟩
  · exact Bool.or_eq_true_iff.mpr (.inl (Bool.or_eq_true_iff.mpr (.inl (congrArg (!·) h))))
  · simp [h]
  · have hstream : (describedCopy s cls ps).streams = true := by simpa [Copy.streams] using hk
    have hsome := Option.isSome_iff_ne_none.mpr hq
    exact Bool.or_eq_true_iff.mpr (.inr (Bool.and_eq_true_iff.mpr ⟨hstream, hsome⟩))

theorem copyCfg_exec {ls ld : List (Nat × Nat)} (hvalid : (describedCopy s cls ps).valid (bits (s.peek ps) 63 0) = true)
    (hfree : s.hart.h.get i.toFin = .free) (hstream : (describedCopy s cls ps).streams = true → s.hart.q.get q.toFin = none)
    (hls : s.translateAll s.hart .load (describedCopy s cls ps).sources = .ok ls)
    (hld : s.translateAll s.hart .store (describedCopy s cls ps).destinations = .ok ld)
    (hlines : ∀ r ∈ ld, s.owned (r.2 / 64) = false ∧ s.flipping (64 * (r.2 / 64)) = false)
    (hfeeds : (describedCopy s cls ps).kind = 3 → s.feeds (describedCopy s cls ps).slot.toNat = true) (hfull : s.full .cp = false) :
    let c := describedCopy s cls ps
    let t := s.noteReads 0 ps
    let u := t.noteWalks ((ls ++ ld).map (·.1))
    exec (.copyCfg cls q i a) s = if c.n = 0 then u.done else if s.copyEngineDead then
        (t.on fun h => h.lose (i.toNat :: if c.streams then [64 + q.toNat] else [])).done
      else ((s.takeCopy u q i (s.issuedCopy c ls ld) ld).dueCopy s.hart.id i (s.issuedCopy c ls ld)).done := by
  have hbad : (!(describedCopy s cls ps).valid (bits (s.peek ps) 63 0) || decide (s.hart.h.getD i.toNat .free ≠ .free) ||
      ((describedCopy s cls ps).streams && (s.hart.q.getD q.toNat none).isSome)) ≠ true := by
    rw [Hart.handle_getD, Hart.binding_getD, hvalid, hfree]
    cases hc : (describedCopy s cls ps).streams
    · simp
    · simp [hstream hc]
  have hdenied : ¬ ((describedCopy s cls ps).kind = 3 ∧ (!s.feeds (describedCopy s cls ps).slot.toNat) = true) := fun ⟨hk, hf⟩ => by
    simp [hfeeds hk] at hf
  have howned : ¬ ((ld.map fun p => p.2 / 64).eraseDups.any s.owned) = true := by
    simpa using fun x y hxy => (hlines (x, y) hxy).1
  have hflip : ¬ ((ld.map fun p => p.2 / 64).eraseDups.any fun l => s.flipping (64 * l)) = true := by
    simpa using fun x y hxy => (hlines (x, y) hxy).2
  intro c t u
  refine (State.outsideRegion_of_none hr _).trans ((if_neg (not_not_intro ha)).trans ?_)
  simp only [State.readChecked, hps]
  refine (if_neg hbad).trans ?_
  simp only [describedCopy] at hls hld
  simp only [hls, hld, execCopyCfg.firstHoldStop]
  refine (if_neg hdenied).trans ((if_neg howned).trans ((if_neg hflip).trans ((if_neg (by simp [hfull])).trans ?_)))
  rfl

end


/-- The fields of an issued copy are those of its descriptor. -/
theorem issuedCopy_fields (s : State) (x : Nat) (cls : BitVec 4) (ls ld : List (Nat × Nat)) :
    let k := s.issuedCopy (Copy.ofWords (bits x 63 0) (bits x 127 64) (bits x 191 128) (bits x 255 192) cls) ls ld
    k.kind.toNat = bits x 2 0 ∧ k.fmt.toNat = bits x 7 4 ∧ k.slot.toNat = bits x 12 8 ∧ k.dstride.toNat = bits x 63 32 ∧
      k.src.toNat = bits x 127 64 ∧ k.dst.toNat = bits x 191 128 ∧ k.n.toNat = bits x 223 192 ∧ k.sstride.toNat = bits x 255 224 ∧
      k.cls = cls ∧ k.got = 0 ∧ k.pos = 0 ∧ k.data = [] ∧ ∀ r ∈ ld, r.2 / 64 ∈ k.lines := by
  simp only [State.issuedCopy, Copy.ofWords, BitVec.toNat_ofNat, bits_eq, true_and]
  refine ⟨by omega, by omega, by omega, by omega, by omega, by omega, by omega, by omega, fun r hrd => ?_⟩
  exact List.mem_eraseDups.mpr (List.mem_map_of_mem hrd)

/-- A copy issued to a live engine (R153). -/
theorem copyCfg_issued {s u : State} (hu : s.Quiet u) (hs : Canonical s) (hr : s.hart.region = none) (q : BitVec 3) (i : BitVec 5) (c : Copy)
    (ld : List (Nat × Nat)) :
    ∃ t : State, ((s.takeCopy u q i c ld).dueCopy s.hart.id i c).done = .next t ∧ t.hart.pc = s.hart.pc + 4 ∧ StoredNothing s t ∧
      t.hart.h.get i.toFin = .filling ∧ t.hart.cnt = s.hart.cnt.add .cp 1 ∧ t.hart.copyOf i = some c ∧
      (∀ r, t.hart.q.get r.toFin = if c.streams ∧ q = r then some i else s.hart.q.get r.toFin) ∧
      (∀ r, r ≠ i → t.hart.copyOf r = s.hart.copyOf r ∧ t.hart.h.get r.toFin = s.hart.h.get r.toFin) ∧
      Keeps (.pc :: .copies :: .counters :: accessEffects) s t := by
  obtain ⟨⟨hh, hcopy, hq, -⟩, hcnt, hstored, hkeep⟩ := takeCopy_spec hu hs hr q i c ld
  obtain ⟨uh, ucopy, uq, -⟩ := keeps_quiet hu hr .copies (by decide)
  have hdue := keeps_dueCopy (s.takeCopy u q i c ld) s.hart.id i c
  have hhart := dueCopy_hart (s.takeCopy u q i c ld) s.hart.id i c
  have hcopies (r : BitVec 5) : (((s.takeCopy u q i c ld).dueCopy s.hart.id i c).skip 4).hart.copyOf r =
      if i = r then some c else s.hart.copyOf r := by
    rw [Hart.copyOf_eq s.hart, ← ucopy, ← Hart.copyOf_eq u.hart, ← Hart.holdCopy_copyOf _ q i r c, Hart.copyOf_eq, Hart.copyOf_eq]
    exact congrArg (·.get r.toFin) ((congrArg Hart.copy hhart).trans hcopy)
  have hhandle (r : BitVec 5) : (((s.takeCopy u q i c ld).dueCopy s.hart.id i c).skip 4).hart.h.get r.toFin =
      if i = r then .filling else s.hart.h.get r.toFin := by
    rw [← uh, ← Hart.holdCopy_handle _ q i r c]
    exact congrArg (·.get r.toFin) ((congrArg Hart.h hhart).trans hh)
  have hall : Keeps (.copies :: .counters :: accessEffects) s _ := hkeep.trans (hdue.mono (by decide))
  refine ⟨((s.takeCopy u q i c ld).dueCopy s.hart.id i c).skip 4, rfl, congrArg (· + 4) (hall .pc (by decide)),
    ⟨fun ht => ?_, ?_⟩, (hhandle i).trans (if_pos rfl), ?_, (hcopies i).trans (if_pos rfl), fun r => ?_,
    fun r hri => ⟨(hcopies r).trans (if_neg hri.symm), (hhandle r).trans (if_neg hri.symm)⟩,
    (hall.mono (by decide)).trans ((keeps_skip _ 4).mono (by decide))⟩
  · exact (hdue .memory (by decide)).1.trans (hstored.1 ht)
  · exact Eq.trans (hdue .localStore (by decide)) hstored.2
  · exact (congrArg Hart.cnt hhart).trans hcnt
  · rw [← uq, ← Hart.holdCopy_stream _ q r i c]
    exact congrArg (·.get r.toFin) ((congrArg Hart.q hhart).trans hq)

/-- Settles O38: what stops the issue, and what it does to a copy of no elements, with a dead engine and with a live one. -/
theorem copyIssues : Obligations.CopyIssues := by
  intro s cls q i a ps ls ld hs hr h va x c streams
  have hstreams : c.streams = true ↔ streams := by simp [Copy.streams, streams]
  refine ⟨copyCfg_misaligned hr cls q i, fun ha hps => ⟨copyCfg_refuses hr ha hps, ?_⟩⟩
  intro hvalid hfree hstream hls hld hlines hfeeds hfull
  have hexec := copyCfg_exec hr ha hps hvalid hfree (fun hc => hstream (hstreams.mp hc)) hls hld hlines hfeeds hfull
  have ht : s.Quiet (s.noteReads 0 ps) := State.noteReads_quiet hr 0 ps
  have hu : s.Quiet ((s.noteReads 0 ps).noteWalks ((ls ++ ld).map (·.1))) := ht.trans (State.walkAll_quiet (ht.region hr) _ _)
  rcases Decidable.em (c.n = 0) with hn | hn
  · have hkeep := keeps_quiet hu hr
    refine ⟨_, hexec.trans (if_pos hn), congrArg (· + 4) (hkeep .pc (by decide)), hu.storedNothing hs,
      fun _ => (hkeep.mono (by decide)).trans ((keeps_skip _ 4).mono (by decide)), fun h0 => absurd hn h0, fun h0 => absurd hn h0⟩
  replace hexec := hexec.trans (if_neg hn)
  cases hdead : s.copyEngineDead with
  | true =>
    have hkeep := keeps_quiet ht hr
    have hkeep' : Keeps (.copies :: accessEffects) s _ := (hkeep.mono (by decide)).trans
      ((keeps_lose (s.noteReads 0 ps) (i.toNat :: if c.streams then [64 + q.toNat] else [])).mono (by decide))
    refine ⟨_, hexec.trans (if_pos hdead), congrArg (· + 4) (hkeep .pc (by decide)), ht.storedNothing hs, fun h0 => absurd h0 hn,
      fun _ _ => ⟨?_, ?_, (hkeep'.mono (by decide)).trans ((keeps_skip _ 4).mono (by decide))⟩, fun _ h0 => absurd h0 (by decide)⟩
    · exact (congrArg (·.get i.toFin) (hkeep .copies (by decide)).1).trans hfree
    · exact List.mem_eraseDups.mpr (by simp)
  | false =>
    obtain ⟨t, hnext, hpc, hstored, hfilling, hcnt, hcopy, hbound, hothers, hkeep⟩ :=
      copyCfg_issued hu hs hr q i (s.issuedCopy c ls ld) ld
    obtain ⟨hkind, hfmt, hslot, hdstride, hsrc, hdst, hcount, hsstride, hcls, hgot, hpos, hdata, howned⟩ :=
      issuedCopy_fields s x cls ls ld
    refine ⟨t, hexec.trans ((if_neg (by simp [hdead])).trans hnext), hpc, hstored, fun h0 => absurd h0 hn, fun _ h0 => absurd h0 (by decide),
      fun _ _ => ⟨hfilling, hcnt, ⟨_, hcopy, hkind, hfmt, hslot, hdstride, hsrc, hdst, hcount, hsstride, hcls, hgot, hpos, hdata, howned⟩,
        fun hc => (hbound q).trans (if_pos ⟨hstreams.mpr hc, rfl⟩), fun r hrq => (hbound r).trans (if_neg ?_), hothers, hkeep⟩⟩
    rintro ⟨hc, rfl⟩
    exact hrq.elim (fun h0 => h0 rfl) (fun h0 => h0 (hstreams.mp hc))

end Sys2Proof.Safety

/-! Pushes of registers (R159). -/

namespace Sys2Proof.Machine

/-- A change of the hart that moves, under its name, leaves the others to be found. -/
theorem State.find_on_other {s : State} {id : AgentId} (h : id ≠ s.hart.id) {f : Hart → Hart} (hf : (f s.hart).id = s.hart.id) :
    (s.on f).find id = s.find id := by
  simp [State.find, State.harts, State.on, hf, h.symm]

theorem State.find_id {s : State} {id : AgentId} {h : Hart} (hf : s.find id = some h) : h.id = id := by
  simpa using List.find?_some hf

theorem State.mem_harts_of_find {s : State} {id : AgentId} {h : Hart} (hf : s.find id = some h) : h ∈ s.harts := List.mem_of_find?_eq_some hf

/-- The hart found under a name after a change of the hart of another one. -/
theorem State.find_update_other {s : State} {id k : AgentId} (hk : k ≠ id) {f : Hart → Hart} (hf : ∀ h, (f h).id = h.id) :
    (s.update id f).find k = s.find k := by
  have hharts : (s.update id f).harts = s.harts.map fun h => if h.id = id then f h else h := rfl
  rw [State.find, hharts, List.find?_map]
  have hid : ((fun h : Hart => decide (h.id = k)) ∘ fun h => if h.id = id then f h else h) = fun h => decide (h.id = k) := by
    funext h
    rw [Function.comp_apply]
    split
    · rw [hf]
    · rfl
  rw [hid]
  cases hs : s.find k with
  | none => exact congrArg (Option.map _) hs
  | some h => exact (congrArg (Option.map _) hs).trans (congrArg some (if_neg (State.find_id hs ▸ hk)))

/-- The bits of a number to which powers of two have been added one by one. -/
theorem testBit_marks (l : List (Nat × Nat)) (a k : Nat) :
    (l.foldl (fun a p => a ||| 2 ^ p.1) a).testBit k = (a.testBit k || l.any fun p => decide (p.1 = k)) := by
  induction l generalizing a with
  | nil => simp
  | cons p l ih => rw [List.foldl_cons, ih, Nat.testBit_or, Nat.testBit_two_pow, List.any_cons, Bool.or_assoc]

/-- What a vpush of n registers from register f sends to the registers from d on (R159). -/
def pushedRegisters (h : Hart) (d f n : Nat) : List (Nat × Nat) :=
  (List.range n).map fun k => (d + k, pack h.sew h.g fun e => elem (h.getV (f + k)) h.sew e)

theorem pushedRegisters_get (h : Hart) (d f n k : Nat) (hk : k < n) : ∃ y, (pushedRegisters h d f n)[k]? = some (d + k, y) ∧
    ∀ e, e < h.g → elem y h.sew e = elem (h.getV (f + k)) h.sew e :=
  ⟨pack h.sew h.g fun e => elem (h.getV (f + k)) h.sew e, by simp [pushedRegisters, hk],
    fun _ he => (elem_pack _ _ he).trans (Nat.mod_mod _ _)⟩

/-- The registers that a push fills marked empty (R159). -/
def markEmpty (data : List (Nat × Nat)) (r : Hart) : Hart :=
  { r with empty := r.empty ||| BitVec.ofNat 48 (data.foldl (fun a p => a ||| 2 ^ p.1) 0) }

theorem markEmpty_pushed (h r : Hart) (d f n : Nat) {k : Nat} (hk : k < 48) :
    (markEmpty (pushedRegisters h d f n) r).empty.getLsbD k = (r.empty.getLsbD k || decide (d ≤ k) && decide (k < d + n)) := by
  have hany : ((pushedRegisters h d f n).any fun p => decide (p.1 = k)) = (decide (d ≤ k) && decide (k < d + n)) := by
    rw [Bool.eq_iff_iff]
    simp only [pushedRegisters, List.any_map, List.any_eq_true, List.mem_range, Function.comp_apply, decide_eq_true_eq,
      Bool.and_eq_true]
    constructor
    · rintro ⟨j, hj, rfl⟩
      omega
    · rintro ⟨hd, hkn⟩
      exact ⟨k - d, by omega, by omega⟩
  simp only [markEmpty, BitVec.getLsbD_or, BitVec.getLsbD_ofNat, hk, decide_true, Bool.true_and, testBit_marks, Nat.zero_testBit,
    Bool.false_or, hany]

/-- A push sent (R159): its registers are empty at the receiver, and its deliveries due. -/
def State.sendPush (s : State) (p : Push) : State :=
  let t := ((s.raise .cp).update p.receiver (markEmpty p.data)).fresh.on fun h => { h with pushing := some p.id }
  { t with pushes := t.pushes ++ [p], agenda := t.agenda ++ p.data.map fun (_ : Nat × Nat) => Due.vpushDelivery p.id }

/-- The push that a vpush sends to receiver r. -/
def State.pushTo (s : State) (r : Hart) (d f n : Nat) : Push :=
  ⟨s.free, s.hart.id, r.id, (r.qcb, r.job, r.bundle), BitVec.ofNat 4 s.hart.fmtCode, s.hart.g, pushedRegisters s.hart d f n⟩

/-- A push or a call that was lost with the engine (R316). -/
theorem collective_lost {s : State} (hr : s.hart.region = none) (hlost : s.hart.lost.elem 33 = true) (cls : BitVec 4) (b : BitVec 5)
    (n f : BitVec 6) {g : BitVec 4 → BitVec 5 → BitVec 6 → BitVec 6 → Instr} (hg : g ∈ [Instr.vpush, Instr.xredO, Instr.xredF]) :
    exec (g cls b n f) s = (s.on Hart.transferGone).lostTrap (· = 33) := by
  simp only [List.mem_cons, List.not_mem_nil, or_false] at hg
  rcases hg with rfl | rfl | rfl
  · exact (State.outsideRegion_of_none hr _).trans (if_pos hlost)
  · exact (State.outsideRegion_of_none hr _).trans (if_pos hlost)
  · exact (State.outsideRegion_of_none hr _).trans (if_pos hlost)

theorem vpush_exec {s : State} {cls : BitVec 4} {b : BitVec 5} {n f : BitVec 6} {r : Hart} (hr : s.hart.region = none)
    (hlost : s.hart.lost.elem 33 = false) (hempty : s.hart.emptyRun f.toNat n.toNat = false)
    (hpending : s.accessesPending (2 ^ cls.toNat) = false) (hfull : s.full .cp = false)
    (hdead : s.pkg.dead.elem .collectiveEngine = false) (hpushing : s.hart.pushing = none)
    (hfind : s.find (pushReceiver s.hart.id (s.rs b).toNat) = some r) (hactive : r.active = true) (hctx : r.ctx = s.hart.ctx)
    (hother : pushReceiver s.hart.id (s.rs b).toNat ≠ s.hart.id)
    (hsplit : (pushReceiver s.hart.id (s.rs b).toNat).hart < 2 ^ r.split.toNat) (hname : bits (s.rs b).toNat 7 0 < 144)
    (hfits : bits (s.rs b).toNat 21 16 + n.toNat ≤ 48)
    (hgood : ∀ k slot, k < n.toNat → .v (f.toNat + k) slot ∈ s.hart.parity → s.hart.g ≤ slot * (64 / s.hart.sew)) :
    exec (.vpush cls b n f) s = (s.sendPush (s.pushTo r (bits (s.rs b).toNat 21 16) f.toNat n.toNat)).waitFor .collective := by
  have hid : r.id = pushReceiver s.hart.id (s.rs b).toNat := State.find_id hfind
  have hbad : ((List.range n.toNat).any fun k => s.hart.parity.any fun r => match r with
      | .v j slot => decide (j = f.toNat + k) && decide (slot * (64 / s.hart.sew) < s.hart.g)
      | _ => false) = false := by
    rw [List.any_eq_false]
    intro k hk
    rw [List.any_eq_true]
    rintro ⟨slot, hmem, hslot⟩
    cases slot with
    | v j slot =>
      simp only [Bool.and_eq_true, decide_eq_true_eq] at hslot
      obtain ⟨rfl, hlt⟩ := hslot
      exact absurd (hgood k slot (List.mem_range.mp hk) hmem) (by omega)
    | _ => simp at hslot
  refine (State.outsideRegion_of_none hr _).trans ((if_neg (by simp only [hlost]; decide)).trans ?_)
  simp only [hpushing, hfind]
  refine (if_neg ?_).trans ((if_neg ?_).trans ((if_neg (by simp [hempty])).trans ((if_neg (by simp [hpending])).trans
    ((if_neg (by simp [hfull])).trans ((if_neg ?_).trans ((if_neg (ne_true_of_eq_false hdead)).trans ?_))))))
  · simp [hactive, hctx, hother, hsplit, hname, hfits]
  · simp [hactive, hctx, hother, hsplit]
  · rw [Bool.not_eq_true]
    exact hbad
  · rw [← hid]
    rfl

end Sys2Proof.Machine

namespace Sys2Proof.Safety
open Sys2Proof.Machine

theorem keeps_sendPush (s : State) (p : Push) : Keeps [.counters, .collective, .others, .agenda, .reductions, .free] s (s.sendPush p) := by
  have hmark (t : State) : Keeps [.collective] t (t.on (markEmpty p.data)) := by
    intro q hq
    cases q <;> simp [Agree, SameRegisters, markEmpty] at hq ⊢
  have hpushing (t : State) : Keeps [.collective] t (t.on fun h => { h with pushing := some p.id }) := by
    intro q hq
    cases q <;> simp [Agree, SameRegisters] at hq ⊢
  have hqueues (t : State) (l : List Push) (a : List Due) : Keeps [.agenda, .reductions] t { t with pushes := l, agenda := a } := by
    intro q hq
    cases q <;> simp [Agree, SameRegisters] at hq ⊢
  exact (((keeps_raise s .cp).mono (by decide)).trans ((keeps_update _ p.receiver (hmark _)).mono (by decide))).trans
    (((keeps_fresh _).mono (by decide)).trans (((hpushing _).mono (by decide)).trans ((hqueues _ _ _).mono (by decide))))

theorem sendPush_find {s : State} {p : Push} (hp : p.receiver ≠ s.hart.id) :
    (s.sendPush p).find p.receiver = (s.find p.receiver).map (markEmpty p.data) := by
  have hhart : ((s.raise .cp).update p.receiver (markEmpty p.data)).hart = (s.raise .cp).hart := if_neg hp.symm
  have hraise : (s.raise .cp).find p.receiver = s.find p.receiver := State.find_on_other hp rfl
  calc (s.sendPush p).find p.receiver
      = ((s.raise .cp).update p.receiver (markEmpty p.data)).find p.receiver :=
        State.find_on_other (s := ((s.raise .cp).update p.receiver (markEmpty p.data)).fresh)
          (f := fun h => { h with pushing := some p.id }) (fun h => hp (h.trans (congrArg Hart.id hhart :))) rfl
    _ = ((s.raise .cp).find p.receiver).map (markEmpty p.data) := State.find_update _ _ fun _ => rfl
    _ = (s.find p.receiver).map (markEmpty p.data) := congrArg _ hraise

theorem sendPush_hart {s : State} {p : Push} (hp : p.receiver ≠ s.hart.id) :
    (s.sendPush p).hart = { s.hart with cnt := s.hart.cnt.add .cp 1, pushing := some p.id } := by
  have hhart : ((s.raise .cp).update p.receiver (markEmpty p.data)).hart = (s.raise .cp).hart := if_neg hp.symm
  exact congrArg (fun h : Hart => { h with pushing := some p.id }) hhart

theorem vpush_spec {s : State} {cls : BitVec 4} {b : BitVec 5} {n f : BitVec 6} {r : Hart}
    (hother : pushReceiver s.hart.id (s.rs b).toNat ≠ s.hart.id)
    (hfind : s.find (pushReceiver s.hart.id (s.rs b).toNat) = some r)
    (hexec : exec (.vpush cls b n f) s =
      (s.sendPush (s.pushTo r (bits (s.rs b).toNat 21 16) f.toNat n.toNat)).waitFor .collective) :
    ∃ t p, exec (.vpush cls b n f) s = .next t ∧ t.hart.pushing = some p.id ∧ t.hart.pc = s.hart.pc ∧
      t.hart.cnt = s.hart.cnt.add .cp 1 ∧ t.pushes = s.pushes ++ [p] ∧ p.sender = s.hart.id ∧
      p.receiver = pushReceiver s.hart.id (s.rs b).toNat ∧ p.bundle = (r.qcb, r.job, r.bundle) ∧ p.granted = s.hart.g ∧
      p.data.length = n.toNat ∧
      (∀ k, k < n.toNat → ∃ y, p.data[k]? = some (bits (s.rs b).toNat 21 16 + k, y) ∧
        ∀ e, e < s.hart.g → elem y s.hart.sew e = elem (s.hart.getV (f.toNat + k)) s.hart.sew e) ∧
      (∀ k, k < 48 → (t.find (pushReceiver s.hart.id (s.rs b).toNat)).map (·.empty.getLsbD k) =
        some (r.empty.getLsbD k || decide (bits (s.rs b).toNat 21 16 ≤ k) && decide (k < bits (s.rs b).toNat 21 16 + n.toNat))) ∧
      Keeps [.counters, .collective, .waits, .others, .agenda, .reductions, .free] s t := by
  have hid : r.id = pushReceiver s.hart.id (s.rs b).toNat := State.find_id hfind
  let p := s.pushTo r (bits (s.rs b).toNat 21 16) f.toNat n.toNat
  have hp : p.receiver ≠ s.hart.id := fun h => hother (hid.symm.trans h)
  have hhart := sendPush_hart hp
  have hkeep := keeps_sendPush s p
  refine ⟨(s.sendPush p).on fun h => { h with wait := some .collective }, p, hexec, (congrArg Hart.pushing hhart :),
    (congrArg Hart.pc hhart :), (congrArg Hart.cnt hhart :), rfl, rfl, hid, rfl, rfl, by simp [p, State.pushTo, pushedRegisters],
    fun k hk => pushedRegisters_get _ _ _ _ k hk, fun k hk => ?_,
    (hkeep.mono (by decide)).trans ((keeps_waitFor _ _).mono (by decide))⟩
  have hsent : ((s.sendPush p).on fun h => { h with wait := some .collective }).find p.receiver =
      some (markEmpty p.data r) := by
    rw [State.find_on_other (by rw [hhart]; exact hp) rfl, sendPush_find hp, show p.receiver = r.id from rfl, hid, hfind]
    rfl
  rw [← hid, show r.id = p.receiver from rfl, hsent]
  exact congrArg some (markEmpty_pushed s.hart r _ f.toNat n.toNat hk)

end Sys2Proof.Safety

/-! Contributions to collective reductions (R160). -/

namespace Sys2Proof.Machine

/-- The call that a contribution joins, or opens (R160). -/
theorem joinCall_spec (id group : Nat) (ctx : BitVec 12) (ordered : Bool) (m : Member) (l : List XredCall) :
    ∃ c ∈ (joinCall id group ctx ordered m l).1, c.id = (joinCall id group ctx ordered m l).2 ∧ c.group = group ∧ c.ctx = ctx ∧
      c.outcome = none ∧ (ordered = true → c.ordered = true) ∧ m ∈ c.members := by
  induction l with
  | nil => exact ⟨_, List.mem_singleton_self _, rfl, rfl, rfl, rfl, fun h => h, List.mem_singleton_self m⟩
  | cons c l ih =>
    unfold joinCall
    split
    next h =>
      obtain ⟨hgroup, hctx, hopen, -⟩ := h
      exact ⟨_, List.mem_cons_self, rfl, hgroup, hctx, hopen, fun ho => by simp [ho], by simp⟩
    next =>
      obtain ⟨k, hk, hrest⟩ := ih
      exact ⟨k, List.mem_cons_of_mem _ hk, hrest⟩

/-- The slots of n registers from register f that hold an error below g, each with its place among them (R313). -/
def Hart.badSlots (h : Hart) (f n : Nat) : List (Nat × Nat) :=
  h.parity.filterMap fun r => match r with
    | .v j slot => if f ≤ j ∧ j < f + n ∧ slot * (64 / h.sew) < h.g then some (j - f, slot) else none
    | _ => none

/-- What a hart contributes to a call: n registers from register f, to a group as descriptor x says (R160). -/
def State.contribution (s : State) (x n f : Nat) : Member :=
  ⟨s.hart.id, bits x 47 32, n, s.hart.g, BitVec.ofNat 4 s.hart.fmtCode, f, bits x 31 16,
    (List.range n).map fun k => s.hart.elements (f + k), s.hart.badSlots f n, BitVec.ofNat 2 (bits s.hart.vt.toNat 10 9), false⟩

/-- A contribution made: the calls are now `calls`, and the hart waits for call id (R160). -/
def State.contributed (s : State) (calls : List XredCall) (id : Nat) : State :=
  { (s.raise .cp).fresh with xred := calls }.on fun h => { h with xredCall := some id }

/-- The completion of a call made due once it may be complete (R161). -/
def State.dueCall (t : State) (id : Nat) : State :=
  if (t.xred.any fun c => decide (c.id = id) && decide (c.fewest ≤ c.members.length)) && !t.agenda.elem (.xredComplete id) then
    t.due (.xredComplete id) else t

theorem State.dueCall_due (t : State) {c : XredCall} (hc : c ∈ t.xred) (hready : c.fewest ≤ c.members.length) :
    Due.xredComplete c.id ∈ (t.dueCall c.id).agenda := by
  have hany : (t.xred.any fun k => decide (k.id = c.id) && decide (k.fewest ≤ k.members.length)) = true :=
    List.any_eq_true.mpr ⟨c, hc, by simp [hready]⟩
  rw [State.dueCall, hany, Bool.true_and]
  split
  next => exact List.mem_append_right _ (List.mem_singleton_self _)
  next h => simpa using h

theorem State.dueCall_same (t : State) (id : Nat) : (t.dueCall id).hart = t.hart ∧ (t.dueCall id).xred = t.xred := by
  unfold State.dueCall
  split
  · exact ⟨rfl, rfl⟩
  · exact ⟨rfl, rfl⟩

section
variable {s : State} {cls : BitVec 4} {b : BitVec 5} {n f : BitVec 6} (hr : s.hart.region = none)
  (hlost : s.hart.lost.elem 33 = false) (hempty : s.hart.emptyRun f.toNat n.toNat = false)
  (hpending : s.accessesPending (2 ^ cls.toNat) = false) (hfull : s.full .cp = false)
  (hdead : s.pkg.dead.elem .collectiveEngine = false) (hcall : s.hart.xredCall = none) (hfmt : xredTakes s.hart.fmt = true)
  (hgroup : s.groupGranted (bits (s.rs b).toNat 15 0) s.hart.ctx = true)
include hr hlost hempty hpending hfull hdead hcall hfmt hgroup

theorem collective_exec (ordered : Bool) :
    let j := joinCall s.free (bits (s.rs b).toNat 15 0) s.hart.ctx ordered (s.contribution (s.rs b).toNat n.toNat f.toNat) s.xred
    s.collective ordered cls b n f = ((s.contributed j.1 j.2).dueCall j.2).waitFor .collective := by
  refine (State.outsideRegion_of_none hr _).trans ((if_neg (ne_true_of_eq_false hlost)).trans ?_)
  simp only [hcall]
  exact (if_neg (by simp [hfmt])).trans ((if_neg (by simp [hgroup])).trans ((if_neg (ne_true_of_eq_false hempty)).trans
    ((if_neg (ne_true_of_eq_false hpending)).trans ((if_neg (ne_true_of_eq_false hfull)).trans
      ((if_neg (ne_true_of_eq_false hdead)).trans rfl)))))

end

end Sys2Proof.Machine

namespace Sys2Proof.Safety
open Sys2Proof.Machine

theorem keeps_contributed (s : State) (calls : List XredCall) (id : Nat) :
    Keeps [.counters, .collective, .reductions, .free] s (s.contributed calls id) := by
  intro p hp
  cases p <;> simp [Agree, SameRegisters, State.contributed] at hp ⊢

theorem keeps_dueCall (t : State) (id : Nat) : Keeps [.agenda] t (t.dueCall id) := by
  unfold State.dueCall
  split
  · exact keeps_due _ _
  · exact .refl _ _

/-- A contribution to a call of its group and context. -/
theorem collective_spec (s : State) (x n f : Nat) (ordered : Bool) :
    let j := joinCall s.free (bits x 15 0) s.hart.ctx ordered (s.contribution x n f) s.xred
    ∃ t c m, ((s.contributed j.1 j.2).dueCall j.2).waitFor .collective = .next t ∧ t.hart.xredCall = some c.id ∧
      t.hart.pc = s.hart.pc ∧ t.hart.cnt = s.hart.cnt.add .cp 1 ∧ c ∈ t.xred ∧ c.group = bits x 15 0 ∧ c.ctx = s.hart.ctx ∧
      c.outcome = none ∧ (ordered = true → c.ordered = true) ∧ m ∈ c.members ∧ m.who = s.hart.id ∧ m.rank = bits x 47 32 ∧
      m.parts = bits x 31 16 ∧ m.count = n ∧ m.granted = s.hart.g ∧ m.away = false ∧
      m.data = (List.range n).map (fun k => (List.range s.hart.g).map fun e => elem (s.hart.getV (f + k)) s.hart.sew e) ∧
      (c.fewest ≤ c.members.length → Due.xredComplete c.id ∈ t.agenda) ∧
      Keeps [.counters, .collective, .waits, .agenda, .reductions, .free] s t := by
  intro j
  obtain ⟨c, hc, hid, hgroup, hctx, hopen, hordered, hm⟩ :=
    joinCall_spec s.free (bits x 15 0) s.hart.ctx ordered (s.contribution x n f) s.xred
  have hc : c ∈ j.1 := hc
  have hid : c.id = j.2 := hid
  clear_value j
  obtain ⟨hhart, hxred⟩ := (s.contributed j.1 j.2).dueCall_same j.2
  have hkeep : Keeps [.counters, .collective, .agenda, .reductions, .free] s ((s.contributed j.1 j.2).dueCall j.2) :=
    ((keeps_contributed s j.1 j.2).mono (by decide)).trans ((keeps_dueCall _ _).mono (by decide))
  refine ⟨((s.contributed j.1 j.2).dueCall j.2).on fun h => { h with wait := some .collective }, c, _, rfl,
    (congrArg Hart.xredCall hhart :).trans (congrArg some hid.symm), (congrArg Hart.pc hhart :), (congrArg Hart.cnt hhart :),
    hxred ▸ hc, hgroup, hctx, hopen, hordered, hm, rfl, rfl, rfl, rfl, rfl, rfl, rfl, fun hready => ?_,
    (hkeep.mono (by decide)).trans ((keeps_waitFor _ _).mono (by decide))⟩
  exact hid ▸ State.dueCall_due _ hc hready

end Sys2Proof.Safety

/-! Deliveries of pushed registers (R159). -/

namespace Sys2Proof.Machine

theorem Hart.receive_elem (h : Hart) {w n reg x e : Nat} (hreg : reg < 48) (he : e < h.mvl w) :
    elem ((h.receive w n reg x).getV reg) w e = if e < n then elem x w e else elem (h.getV reg) w e := by
  have hget : (h.receive w n reg x).getV reg = h.landed w n (h.getV reg) x :=
    Hart.getV_setV_self h hreg (h.mvl_bits w) (pack_lt w _ _)
  rw [hget, Hart.landed, elem_pack w _ he]
  split
  · exact elem_mod _ _ _
  · exact elem_mod _ _ _

theorem Hart.receive_full (h : Hart) (w n reg x : Nat) : (h.receive w n reg x).empty.getLsbD reg = false := by
  have h0 : (h.receive w n reg x).empty = h.empty &&& ~~~(BitVec.ofNat 48 (2 ^ reg)) := rfl
  rw [h0, BitVec.getLsbD_and, BitVec.getLsbD_not, BitVec.getLsbD_ofNat, Nat.testBit_two_pow_self]
  simp

/-- Register reg of a push lands with value y (R159). -/
def State.landPush (s : State) (p : Push) (reg y : Nat) : State :=
  s.update p.receiver fun k => k.receive (fmtOf p.fmt).sew p.granted reg y

/-- A push whose last register has landed is complete (R159). -/
def State.endPush (t : State) (p : Push) : State :=
  { t with pushes := t.pushes.filter fun q => decide (q.id ≠ p.id) }.update p.sender Hart.engineDone

/-- What is left of a push after a delivery. -/
def State.restPush (t : State) (p : Push) (rest : List (Nat × Nat)) : State :=
  { t with pushes := t.pushes.map fun q => if q.id = p.id then { q with data := rest } else q }

theorem State.landPush_find {s : State} {p : Push} {r : Hart} (hr : s.find p.receiver = some r) (reg y : Nat) :
    (s.landPush p reg y).find p.receiver = some (r.receive (fmtOf p.fmt).sew p.granted reg y) :=
  (State.find_update s p.receiver (f := fun k => k.receive (fmtOf p.fmt).sew p.granted reg y) fun _ => rfl).trans
    (congrArg (Option.map _) hr)

theorem State.landPush_find_other {s : State} {p : Push} {id : AgentId} (hid : id ≠ p.receiver) (reg y : Nat) :
    (s.landPush p reg y).find id = s.find id :=
  State.find_update_other (f := fun k => k.receive (fmtOf p.fmt).sew p.granted reg y) hid fun _ => rfl

theorem State.endPush_find {t : State} {p : Push} {h : Hart} (hh : t.find p.sender = some h) :
    (t.endPush p).find p.sender = some h.engineDone :=
  (State.find_update { t with pushes := t.pushes.filter fun q => decide (q.id ≠ p.id) } p.sender (f := Hart.engineDone)
    fun _ => rfl).trans (congrArg (Option.map Hart.engineDone) hh)

theorem State.endPush_find_other (t : State) {p : Push} {id : AgentId} (hid : id ≠ p.sender) : (t.endPush p).find id = t.find id :=
  State.find_update_other (s := { t with pushes := t.pushes.filter fun q => decide (q.id ≠ p.id) }) (f := Hart.engineDone) hid
    fun _ => rfl

section
variable {s : State} {p : Push} {reg y : Nat} {rest : List (Nat × Nat)} {h r : Hart}
  (hp : s.pushes.find? (fun q => decide (q.id = p.id)) = some p) (hdata : p.data = (reg, y) :: rest)
  (hsender : s.find p.sender = some h) (hpushing : h.pushing = some p.id) (hreceiver : s.find p.receiver = some r)
  (hactive : r.active = true) (hbundle : (r.qcb, r.job, r.bundle) = p.bundle)
include hp hdata hsender hpushing hreceiver hactive hbundle

theorem vpushDelivery_exec : exec (.vpushDelivery p.id) s =
    .next (if rest.isEmpty then (s.landPush p reg y).endPush p else (s.landPush p reg y).restPush p rest) := by
  have hmine : (s.harts.any fun k => decide (k.id = p.receiver) && k.active && decide ((k.qcb, k.job, k.bundle) = p.bundle)) = true :=
    List.any_eq_true.mpr ⟨r, State.mem_harts_of_find hreceiver, by simp [State.find_id hreceiver, hactive, hbundle]⟩
  have hexec : exec (.vpushDelivery p.id) s = execVpushDelivery p.id s := rfl
  rw [hexec, execVpushDelivery]
  simp only [hp, hdata, hsender, hpushing, hmine, decide_true, Bool.not_true, Bool.false_eq_true, if_false, if_true]
  cases rest with
  | nil => rfl
  | cons => rfl

theorem vpushDelivery_spec (hother : p.sender ≠ p.receiver) (hreg : reg < 48) :
    ∃ t : State, exec (.vpushDelivery p.id) s = .next t ∧
      (∀ e, e < r.mvl (fmtOf p.fmt).sew → (t.find p.receiver).map (fun k => elem (k.getV reg) (fmtOf p.fmt).sew e) =
        some (if e < p.granted then elem y (fmtOf p.fmt).sew e else elem (r.getV reg) (fmtOf p.fmt).sew e)) ∧
      (t.find p.receiver).map (·.empty.getLsbD reg) = some false ∧
      (rest = [] → (t.find p.sender).map (·.pc) = some (h.pc + 4) ∧ (t.find p.sender).map (·.pushing) = some none ∧
        (t.find p.sender).map (·.cnt.cp) = some (h.cnt.cp - 1)) := by
  have hexec := vpushDelivery_exec hp hdata hsender hpushing hreceiver hactive hbundle
  have hlands {t : State} (ht : t.find p.receiver = some (r.receive (fmtOf p.fmt).sew p.granted reg y)) :
      (∀ e, e < r.mvl (fmtOf p.fmt).sew → (t.find p.receiver).map (fun k => elem (k.getV reg) (fmtOf p.fmt).sew e) =
        some (if e < p.granted then elem y (fmtOf p.fmt).sew e else elem (r.getV reg) (fmtOf p.fmt).sew e)) ∧
      (t.find p.receiver).map (·.empty.getLsbD reg) = some false := by
    rw [ht]
    exact ⟨fun e he => congrArg some (r.receive_elem hreg he), congrArg some (r.receive_full _ _ _ _)⟩
  cases rest with
  | nil =>
    obtain ⟨helems, hfull⟩ := hlands ((State.endPush_find_other _ hother.symm).trans (State.landPush_find hreceiver reg y))
    have hdone := State.endPush_find ((State.landPush_find_other hother reg y).trans hsender)
    exact ⟨(s.landPush p reg y).endPush p, hexec, helems, hfull, fun _ => by simp [hdone, Hart.engineDone, Counters.add, sub_eq_add_neg]⟩
  | cons q rest =>
    obtain ⟨helems, hfull⟩ := hlands (t := (s.landPush p reg y).restPush p (q :: rest)) (State.landPush_find hreceiver reg y)
    exact ⟨_, hexec, helems, hfull, fun h0 => absurd h0 (List.cons_ne_nil _ _)⟩

end

end Sys2Proof.Machine

/-! Completion of collective reductions (R160, R161). -/

namespace Sys2Proof.Machine

/-! Lists sorted by a key. -/

theorem insertBy_perm {α : Type} (key : α → Nat) (x : α) (l : List α) : (insertBy key x l).Perm (x :: l) := by
  induction l with
  | nil => exact .refl _
  | cons y l ih =>
    unfold insertBy
    split
    · exact .refl _
    · exact (ih.cons y).trans (.swap x y l)

theorem sortBy_perm {α : Type} (key : α → Nat) (l : List α) : (sortBy key l).Perm l := by
  have h (acc : List α) : (l.foldl (fun acc x => insertBy key x acc) acc).Perm (l ++ acc) := by
    induction l generalizing acc with
    | nil => exact .refl _
    | cons x l ih => exact ((ih _).trans ((insertBy_perm key x acc).append_left l)).trans List.perm_middle
  exact (h []).trans (.of_eq (List.append_nil l))

/-! Harts changed one after another. -/

/-- The harts of the names of a list changed. -/
def State.updateEach {α : Type} (s : State) (who : α → AgentId) (f : α → Hart → Hart) (l : List α) : State :=
  l.foldl (fun t k => t.update (who k) (f k)) s

section
variable {α : Type} {who : α → AgentId} {f : α → Hart → Hart} (hf : ∀ k h, (f k h).id = h.id)
include hf

theorem State.find_updateEach_other (s : State) {l : List α} {id : AgentId} (hid : id ∉ l.map who) :
    (s.updateEach who f l).find id = s.find id := by
  induction l generalizing s with
  | nil => rfl
  | cons k l ih =>
    rw [List.map_cons, List.mem_cons, not_or] at hid
    exact (ih _ hid.2).trans (State.find_update_other hid.1 (hf k))

theorem State.find_updateEach (s : State) {l : List α} (hl : (l.map who).Nodup) {a : α} (ha : a ∈ l) :
    (s.updateEach who f l).find (who a) = (s.find (who a)).map (f a) := by
  induction l generalizing s with
  | nil => cases ha
  | cons k l ih =>
    obtain ⟨hk, hl⟩ := List.nodup_cons.mp hl
    rcases List.mem_cons.mp ha with rfl | ha
    · exact (State.find_updateEach_other hf _ hk).trans (State.find_update _ _ (hf a))
    · have hne : who a ≠ who k := fun h => hk (h ▸ List.mem_map_of_mem ha)
      exact (ih _ hl ha).trans (congrArg _ (State.find_update_other hne (hf k)))

end

theorem State.updateEach_xred {α : Type} (s : State) (who : α → AgentId) (f : α → Hart → Hart) (l : List α) :
    (s.updateEach who f l).xred = s.xred := by
  induction l generalizing s with
  | nil => rfl
  | cons k l ih => exact ih _

/-! What a member receives. -/

theorem Hart.wrote_same (h : Hart) (n w : Nat) (p : Nat → Bool) : ∃ a b, h.wrote n w p = { h with parity := a, pooled := b } := by
  unfold Hart.wrote
  split
  · exact ⟨_, _, rfl⟩
  · exact ⟨_, _, rfl⟩

/-- A hart changed in no more than its vector registers and what is known of their slots. -/
def Hart.OnlyVectors (h k : Hart) : Prop := ∃ v a b, k = { h with v := v, parity := a, pooled := b }

theorem Hart.OnlyVectors.trans {h k l : Hart} (hk : h.OnlyVectors k) (hl : k.OnlyVectors l) : h.OnlyVectors l := by
  obtain ⟨_, _, _, rfl⟩ := hk
  obtain ⟨_, _, _, rfl⟩ := hl
  exact ⟨_, _, _, rfl⟩

theorem Hart.reduce_onlyVectors (h : Hart) (w : Nat) (keeps : Nat → Bool) (n : Nat) (new : Nat → Nat) :
    h.OnlyVectors (h.reduce w keeps n new) := by
  obtain ⟨a, b, hab⟩ := h.wrote_same n w fun e => decide (e < h.g) || (decide (h.vl.toNat ≤ e) && h.writes 0 none keeps e)
  exact ⟨_, a, b, by rw [Hart.reduce, hab]; rfl⟩

theorem Hart.reduce_getV_other (h : Hart) (w : Nat) (keeps : Nat → Bool) {n k : Nat} (hk : k ≠ n) (new : Nat → Nat) :
    (h.reduce w keeps n new).getV k = h.getV k :=
  (Hart.getV_setV_other _ hk _).trans (h.wrote_getV _ _ _ _)

theorem Hart.reduce_elem (h : Hart) {w : Nat} (keeps : Nat → Bool) {n e : Nat} (hn : n < 48) (he : e < h.g) (hm : e < h.mvl w)
    (new : Nat → Nat) : elem ((h.reduce w keeps n new).getV n) w e = new e % 2 ^ w := by
  have hget : (h.reduce w keeps n new).getV n = h.reduced w (h.getV n) keeps new :=
    Hart.getV_setV_self _ hn (h.mvl_bits w) (pack_lt w _ _)
  rw [hget, Hart.reduced, elem_pack w _ hm, if_pos he]

/-- The sums of a call written, each to the register of its place (R160). -/
def Hart.takeSums (h : Hart) (w first : Nat) (keeps : Nat → Bool) (l : List (Nat × Nat)) : Hart :=
  l.foldl (fun h p => h.reduce w keeps (first + p.2) (elem p.1 w)) h

theorem Hart.takeSums_onlyVectors (h : Hart) (w first : Nat) (keeps : Nat → Bool) (l : List (Nat × Nat)) :
    h.OnlyVectors (h.takeSums w first keeps l) := by
  induction l generalizing h with
  | nil => exact ⟨_, _, _, rfl⟩
  | cons p l ih => exact (h.reduce_onlyVectors _ _ _ _).trans (ih _)

theorem Hart.takeSums_getV_other (h : Hart) (w first : Nat) (keeps : Nat → Bool) {l : List (Nat × Nat)} {k : Nat}
    (hk : k ∉ l.map (·.2)) : (h.takeSums w first keeps l).getV (first + k) = h.getV (first + k) := by
  induction l generalizing h with
  | nil => rfl
  | cons p l ih =>
    rw [List.map_cons, List.mem_cons, not_or] at hk
    exact (ih _ hk.2).trans (h.reduce_getV_other _ _ (by omega) _)

theorem Hart.takeSums_elem (h : Hart) {w first : Nat} (keeps : Nat → Bool) {l : List (Nat × Nat)} (hl : (l.map (·.2)).Nodup)
    {p : Nat × Nat} (hp : p ∈ l) (hn : first + p.2 < 48) {e : Nat} (he : e < h.g) (hm : e < h.mvl w) :
    elem ((h.takeSums w first keeps l).getV (first + p.2)) w e = elem p.1 w e := by
  induction l generalizing h with
  | nil => cases hp
  | cons q l ih =>
    obtain ⟨hq, hl⟩ := List.nodup_cons.mp hl
    rcases List.mem_cons.mp hp with rfl | hp
    · rw [Hart.takeSums, List.foldl_cons, ← Hart.takeSums, Hart.takeSums_getV_other _ _ _ _ hq, Hart.reduce_elem _ _ hn he hm, elem_mod]
    · obtain ⟨v, a, b, hr⟩ := h.reduce_onlyVectors w keeps (first + q.2) (elem q.1 w)
      have hg : (h.reduce w keeps (first + q.2) (elem q.1 w)).g = h.g := by rw [hr]; rfl
      have hmvl : (h.reduce w keeps (first + q.2) (elem q.1 w)).mvl w = h.mvl w := by rw [hr]; rfl
      exact ih _ hl hp (hg ▸ he) (hmvl ▸ hm)

theorem Hart.carry_onlyVectors (h : Hart) (bad : List RegSlot) : h.OnlyVectors (h.carry bad) := by
  unfold Hart.carry
  split
  · exact ⟨_, _, _, rfl⟩
  · exact ⟨_, _, _, rfl⟩

theorem Hart.carry_getV (h : Hart) (bad : List RegSlot) (n : Nat) : (h.carry bad).getV n = h.getV n := by
  unfold Hart.carry
  split
  · rfl
  · rfl

theorem Hart.sums_eq (h : Hart) (k : Member) (keeps : Nat → Bool) (sums : List Nat) (bad : List (Nat × Nat)) :
    h.sums k keeps sums bad =
      ((h.takeSums (fmtOf k.fmt).sew k.first keeps sums.zipIdx).carry (bad.map fun b => .v (k.first + b.1) b.2)).engineDone := rfl

/-- A member that has received its sums goes on behind its xred (R160). -/
theorem Hart.sums_done (h : Hart) (k : Member) (keeps : Nat → Bool) (sums : List Nat) (bad : List (Nat × Nat)) :
    (h.sums k keeps sums bad).id = h.id ∧ (h.sums k keeps sums bad).pc = h.pc + 4 ∧ (h.sums k keeps sums bad).xredCall = none ∧
      (h.sums k keeps sums bad).cnt.cp = h.cnt.cp - 1 := by
  obtain ⟨v, a, b, hv⟩ := (h.takeSums_onlyVectors (fmtOf k.fmt).sew k.first keeps sums.zipIdx).trans
    (Hart.carry_onlyVectors _ (bad.map fun b => .v (k.first + b.1) b.2))
  rw [Hart.sums_eq, hv]
  exact ⟨rfl, rfl, rfl, (BitVec.sub_eq_add_neg _ _).symm⟩

theorem Hart.sums_elem (h : Hart) (k : Member) (keeps : Nat → Bool) {sums : List Nat} (bad : List (Nat × Nat)) {i x : Nat}
    (hx : sums[i]? = some x) (hn : k.first + i < 48) {e : Nat} (he : e < h.g) (hm : e < h.mvl (fmtOf k.fmt).sew) :
    elem ((h.sums k keeps sums bad).getV (k.first + i)) (fmtOf k.fmt).sew e = elem x (fmtOf k.fmt).sew e := by
  have hget : (h.sums k keeps sums bad).getV (k.first + i) =
      (h.takeSums (fmtOf k.fmt).sew k.first keeps sums.zipIdx).getV (k.first + i) := Hart.carry_getV _ _ _
  rw [hget]
  exact Hart.takeSums_elem h (p := (x, i)) keeps (List.nodup_zipIdx_map_snd sums) (List.mem_zipIdx_iff_getElem?.mpr hx) hn he hm

/-! What a call gives. -/

/-- The members of a call that agree say what its first one says (R161). -/
theorem XredCall.agrees_spec {c : XredCall} {m : Member} {rest : List Member} (hm : c.members = m :: rest) (ha : c.agrees [] = true) :
    (∀ k ∈ rest, k.parts = m.parts) ∧ c.members.length = m.parts := by
  unfold XredCall.agrees at ha
  rw [hm] at ha
  simp only [Bool.and_eq_true, List.all_eq_true, decide_eq_true_eq, List.length_nil, Nat.add_zero] at ha
  obtain ⟨⟨hall, -⟩, hlen⟩ := ha
  exact ⟨fun k hk => (hall k hk).1.1.1, hm ▸ hlen⟩

theorem XredCall.fewest_of_agrees {c : XredCall} {m : Member} {rest : List Member} (hm : c.members = m :: rest)
    (ha : c.agrees [] = true) : c.fewest = m.parts := by
  have h (l : List Member) (hl : ∀ k ∈ l, k.parts = m.parts) : l.foldl (fun n k => min n k.parts) m.parts = m.parts := by
    induction l with
    | nil => rfl
    | cons k l ih =>
      rw [List.foldl_cons, hl k List.mem_cons_self, min_self]
      exact ih fun j hj => hl j (List.mem_cons_of_mem _ hj)
  rw [XredCall.fewest, hm]
  exact h rest (XredCall.agrees_spec hm ha).1

/-- Members that say one rounding mode get it (R160). -/
theorem XredCall.rounding_of_same {c : XredCall} {m : Member} (hm : m ∈ c.members) (h : ∀ k ∈ c.members, k.rnd = m.rnd) :
    c.rounding = Rnd.ofCode m.rnd.toNat := by
  have hperm := sortBy_perm (fun k : Member => k.rank) c.members
  have hsame : ∀ q ∈ (sortBy (fun k : Member => k.rank) c.members).map fun k => (k.rank, k.rnd), q.2 = m.rnd := by
    intro q hq
    obtain ⟨k, hk, rfl⟩ := List.mem_map.mp hq
    exact h k (hperm.mem_iff.mp hk)
  unfold XredCall.rounding
  cases hl : (sortBy (fun k : Member => k.rank) c.members).map fun k => (k.rank, k.rnd) with
  | nil => exact absurd (List.map_eq_nil_iff.mp hl ▸ hperm.mem_iff.mpr hm) List.not_mem_nil
  | cons p rest =>
    rw [hl] at hsame
    have hp := hsame p List.mem_cons_self
    have hall : (rest.all fun q => decide (q.2 = p.2)) = true :=
      List.all_eq_true.mpr fun q hq => decide_eq_true ((hsame q (List.mem_cons_of_mem _ hq)).trans hp.symm)
    exact (if_pos hall).trans (congrArg (fun x : BitVec 2 => Rnd.ofCode x.toNat) hp)

/-- The contribution of rank r of a call whose members lie in this package. -/
theorem XredCall.byRank_elem (c : XredCall) (n k e : Nat) :
    (c.byRank [] n).map (fun d => (d.getD k []).getD e 0) = (List.range n).map fun r =>
      ((c.members.find? fun q => decide (q.rank = r)).map fun q => (q.data.getD k []).getD e 0).getD 0 := by
  rw [XredCall.byRank, List.map_map]
  refine List.map_congr_left fun r _ => ?_
  simp only [List.append_nil, Function.comp_apply, List.find?_map]
  cases c.members.find? fun q => decide (q.rank = r) with
  | none => simp
  | some q => simp

/-- The sums of a call with an ordered member (R160). -/
theorem result_ordered {c : XredCall} (m : Member) (ha : c.agrees [] = true) (free : Nat) :
    ∃ l bad, c.result m [] free = .sums l bad ∧ (c.ordered = true → ∀ k, k < m.count → ∃ x, l[k]? = some x ∧
      ∀ e, e < m.granted → elem x (fmtOf m.fmt).sew e = ordered (addIn (fmtOf m.fmt) c.rounding)
        ((List.range m.parts).map fun rank =>
          ((c.members.find? fun q => decide (q.rank = rank)).map fun q => (q.data.getD k []).getD e 0).getD 0) %
        2 ^ (fmtOf m.fmt).sew) := by
  have hreduce (f : Fmt) (r : Rnd) (pick : Nat → Nat) (xs : List Nat) : reduceRanks true f r pick xs = ordered (addIn f r) xs := by
    cases xs <;> rfl
  refine ⟨_, _, if_neg (by simp [ha]), fun ho k hk => ⟨_, (List.getElem?_map ..).trans (congrArg _ (List.getElem?_range hk)), fun e he => ?_⟩⟩
  simp only [elem_pack _ _ he, ho, hreduce, c.byRank_elem]

/-- The event of a call that is complete (R160, R161). -/
theorem xredComplete_exec {s : State} {c : XredCall} {m : Member} {rest : List Member}
    (hc : s.xred.find? (fun x => decide (x.id = c.id)) = some c) (hopen : c.outcome = none) (hm : c.members = m :: rest)
    (ha : c.agrees [] = true) : exec (.xredComplete c.id []) s = .next (s.deliverCall c (c.result m [] s.free)) := by
  have hready : ¬ c.members.length + ([] : List (Nat × List (List Nat))).length < c.fewest := by
    rw [XredCall.fewest_of_agrees hm ha, ← (XredCall.agrees_spec hm ha).2]
    exact lt_irrefl _
  have hexec : exec (.xredComplete c.id []) s = execXredComplete c.id [] s := rfl
  rw [hexec, execXredComplete]
  rw [hm] at hready
  simp only [hc, hopen, hm]
  exact if_neg hready

/-- The state in which a call is gone, or kept for its members that are away (R161). -/
def State.closeCall (s : State) (c : XredCall) (o : XredOutcome) : State :=
  let away := c.members.filter (·.away)
  let others := s.xred.filter fun k => decide (k.id ≠ c.id)
  { s with xred := if away.isEmpty then others else others ++ [{ c with members := away, outcome := some o }] }.fresh

theorem State.deliverCall_sums (s : State) (c : XredCall) (l : List Nat) (bad : List (Nat × Nat)) :
    s.deliverCall c (.sums l bad) = (s.closeCall c (.sums l bad)).updateEach (·.who)
      (fun k h => h.sums k (Config.keepsTail s.free) l bad) (c.members.filter fun k => !k.away) := rfl

theorem State.closeCall_xred (s : State) (c : XredCall) (o : XredOutcome) :
    if c.members.any (·.away) then ∃ o', { c with members := c.members.filter (·.away), outcome := some o' } ∈ (s.closeCall c o).xred
      else ∀ k ∈ (s.closeCall c o).xred, k.id ≠ c.id := by
  have hany : (c.members.filter (·.away)).isEmpty = !c.members.any (·.away) := by
    rw [Bool.eq_iff_iff]
    simp [List.filter_eq_nil_iff]
  have hxred : (s.closeCall c o).xred = if (!c.members.any (·.away)) = true then s.xred.filter fun k => decide (k.id ≠ c.id)
      else (s.xred.filter fun k => decide (k.id ≠ c.id)) ++ [{ c with members := c.members.filter (·.away), outcome := some o }] := by
    rw [← hany]
    rfl
  rw [hxred]
  cases c.members.any (·.away) with
  | true => exact ⟨o, List.mem_append_right _ (List.mem_singleton_self _)⟩
  | false => exact fun k hk => of_decide_eq_true (List.mem_filter.mp hk).2

theorem xredComplete_spec {s : State} {c : XredCall} {m : Member} {rest : List Member} {h : Hart}
    (hc : s.xred.find? (fun x => decide (x.id = c.id)) = some c) (hopen : c.outcome = none) (hm : c.members = m :: rest)
    (ha : c.agrees [] = true) (haway : m.away = false) (hnodup : ((c.members.filter fun k => !k.away).map (·.who)).Nodup)
    (hfind : s.find m.who = some h) :
    ∃ t : State, exec (.xredComplete c.id []) s = .next t ∧ (t.find m.who).map (·.pc) = some (h.pc + 4) ∧
      (if c.members.any (·.away) then ∃ o, { c with members := c.members.filter (·.away), outcome := some o } ∈ t.xred
        else ∀ k ∈ t.xred, k.id ≠ c.id) ∧
      (t.find m.who).map (·.xredCall) = some none ∧ (t.find m.who).map (·.cnt.cp) = some (h.cnt.cp - 1) ∧
      (c.ordered = true → m.granted = h.g → ∀ k, k < m.count → m.first + m.count ≤ 48 →
        ∀ e, e < h.g → e < h.mvl (fmtOf m.fmt).sew →
        (t.find m.who).map (fun j => elem (j.getV (m.first + k)) (fmtOf m.fmt).sew e) =
          some (ordered (addIn (fmtOf m.fmt) c.rounding)
            ((List.range m.parts).map fun rank =>
              ((c.members.find? fun q => decide (q.rank = rank)).map fun q => (q.data.getD k []).getD e 0).getD 0) %
            2 ^ (fmtOf m.fmt).sew)) := by
  obtain ⟨l, bad, hresult, hvalues⟩ := result_ordered m ha s.free
  have hmem : m ∈ c.members.filter fun k => !k.away := List.mem_filter.mpr ⟨hm ▸ List.mem_cons_self, by simp [haway]⟩
  have hfound : (s.deliverCall c (.sums l bad)).find m.who = some (h.sums m (Config.keepsTail s.free) l bad) := by
    rw [s.deliverCall_sums]
    exact (State.find_updateEach (fun k h => (h.sums_done k _ l bad).1) _ hnodup hmem).trans (congrArg _ hfind)
  obtain ⟨-, hpc, hcall, hcp⟩ := h.sums_done m (Config.keepsTail s.free) l bad
  refine ⟨s.deliverCall c (.sums l bad), (xredComplete_exec hc hopen hm ha).trans (by rw [hresult]), ?_⟩
  rw [hfound, s.deliverCall_sums, State.updateEach_xred]
  refine ⟨congrArg some hpc, s.closeCall_xred c _, congrArg some hcall, congrArg some hcp, fun ho hg k hk hfits e he hmvl => congrArg some ?_⟩
  obtain ⟨x, hx, hsum⟩ := hvalues ho k hk
  exact (h.sums_elem m _ bad hx (by omega) he hmvl).trans (hsum e (hg ▸ he))

end Sys2Proof.Machine

namespace Sys2Proof.Safety
open Sys2Proof.Machine

/-- Settles O41: losses, issues, deliveries and completions. -/
theorem collectives : Obligations.Collectives := by
  refine ⟨?_, ?_, ?_, ?_⟩
  · intro s cls b n f hr hlost h told g hg
    exact (collective_lost hr hlost cls b n f hg).trans (by simp [State.lostTrap, State.trapAt, State.on, Hart.transferGone, told, h])
  · intro s cls b n f r hr hlost h x d dest hempty hpending hfull hdead
    refine ⟨?_, ?_⟩
    · intro hpushing hfind hactive hctx hother hsplit hname hfits hgood
      exact vpush_spec hother hfind
        (vpush_exec hr hlost hempty hpending hfull hdead hpushing hfind hactive hctx hother hsplit hname hfits hgood)
    · intro g hg hcall hfmt hgroup
      have hexec := collective_exec hr hlost hempty hpending hfull hdead hcall hfmt hgroup
      simp only [List.mem_cons, List.not_mem_nil, or_false] at hg
      rcases hg with rfl | rfl
      · obtain ⟨t, c, m, hnext, hid, hpc, hcnt, hc, hg, hx, ho, hord, hrest⟩ := collective_spec s x n.toNat f.toNat true
        exact ⟨t, c, m, (hexec true).trans hnext, hid, hpc, hcnt, hc, hg, hx, ho, fun _ => hord rfl, hrest⟩
      · obtain ⟨t, c, m, hnext, hid, hpc, hcnt, hc, hg, hx, ho, -, hrest⟩ := collective_spec s x n.toNat f.toNat false
        have hne : Instr.xredF ≠ Instr.xredO := fun h0 => by simpa using congrFun (congrFun (congrFun (congrFun h0 cls) b) n) f
        exact ⟨t, c, m, (hexec false).trans hnext, hid, hpc, hcnt, hc, hg, hx, ho, fun h0 => absurd h0 hne, hrest⟩
  · intro s p reg y rest h r hp hdata hsender hpushing hreceiver hactive hbundle hother hreg
    exact vpushDelivery_spec hp hdata hsender hpushing hreceiver hactive hbundle hother hreg
  · intro s c m rest h hc hopen hm ha haway _ hnodup hfind
    exact ⟨XredCall.rounding_of_same (hm ▸ List.mem_cons_self), xredComplete_spec hc hopen hm ha haway hnodup hfind⟩

end Sys2Proof.Safety

/-! The refutation of O37. A message may name a slice that the package does not have, and a wake of its bank then counts where the
overflow entries do: the counters of a context lie 1024 apart. -/

namespace Sys2Proof.Safety
open Sys2Proof Sys2Proof.Machine

/-- A contribution of 0 to the doubleword at 0, on its way to a unit at slice 17 * 1024 of a package with 512 slices. -/
def strayMessage : OruMsg where
  id := 0
  op := 0
  slices := [17 * 1024]
  ctx := 0
  win := 0
  fmt := 0
  line := 0
  contribs := [⟨0, 0, 0, 0, ⟨0, 0, 0, false⟩, 0, 0, 0, 0⟩]
  token := none
  sender := ⟨0, 0, 0, false⟩
  gen := 0
  waited := none
  owed := false

/-- The reset state with that message, where the bank of its slice is drowsy. -/
def strayState : State := { State.reset with
  oruIn := [strayMessage]
  pkg := { Pkg.reset with drowsy := [17 * 1024] } }

theorem canonical_strayState : Canonical strayState := by
  unfold Canonical
  decide +kernel

/-- An answer in which one overflow entry of context 0 has been counted (R203). -/
def countsOverflow : Res → Bool
  | .next t => decide (t.counter 0 0x758 0 = 1)
  | _ => false

/-- The contribution takes no overflow entry, and the count of those that did rises. -/
theorem strayState_counts {t : State} (ht : exec (.oruAccept 0) strayState = .next t) : t.counter 0 0x758 0 = 1 := by
  have hrun : countsOverflow (exec (.oruAccept 0) strayState) = true := by decide +kernel
  rw [ht] at hrun
  exact of_decide_eq_true hrun

/-- Refutes O37: in `strayState` a contribution that takes no overflow entry is accepted, and the counter of overflow entries of its
context rises, because the wake of bank 17 * 1024 counts there. The statement lacks a premise that a message's slices are of the package. -/
theorem not_orderedScatters : ¬ Obligations.OrderedScatters := by
  intro h
  obtain ⟨haccept, -⟩ := h.2 strayState 0 strayMessage canonical_strayState rfl
  obtain ⟨-, hunowned⟩ := haccept rfl
  obtain ⟨-, henters⟩ := hunowned (by decide +kernel) (by decide +kernel)
  obtain ⟨t, ht, -, -, -, hcounted, -⟩ := henters (.inl (by decide +kernel)) (fun N hN => by cases hN)
  have hsame : t.counter 0 0x758 0 = 0 := (hcounted (by decide +kernel)).trans (by decide +kernel)
  exact absurd ((strayState_counts ht).symm.trans hsame) (by decide)

end Sys2Proof.Safety
